-- ==== Sys2Proof/Word.lean ====
section
/-! DEFINITION. The word types of Plovnex and their plainest arithmetic. -/

namespace Sys2Proof

/-- One byte of storage. -/
abbrev Byte := BitVec 8

/-- A lane register, a uniform register, an instruction word of a team (R87). -/
abbrev W32 := BitVec 32

/-- A scalar register, an address, a special register (R42). -/
abbrev W64 := BitVec 64

/-- A segment register: SGCTL in bits 127..64, SGBASE in bits 63..0 (R47). -/
abbrev W128 := BitVec 128

end Sys2Proof
end

