-- ==== Sys2Proof/Syntax.lean ====
section
/-! DEFINITION. The instructions and steps of Plovnex: one constructor for each row of the table of
operations and events. A team instruction carries the fields of its word (R88, R97); a scalar instruction
carries the fields of its RISC-V word (R109); a step of the part that is no instruction word carries what
names the unit it acts on. -/

namespace Sys2Proof

/-- The RISC-V integer operations on two registers (RV64I, M, Zba, Zbb). -/
inductive RvAlu where
  | add | sub | sll | slt | sltu | xor | srl | sra | or | and
  | addw | subw | sllw | srlw | sraw
  | mul | mulh | mulhsu | mulhu | div | divu | rem | remu
  | mulw | divw | divuw | remw | remuw
  | addUw | sh1add | sh2add | sh3add | sh1addUw | sh2addUw | sh3addUw
  | andn | orn | xnor | max | maxu | min | minu | rol | ror | rolw | rorw
  deriving DecidableEq, Repr

/-- The RISC-V operations on one register (Zbb). -/
inductive RvUnary where
  | clz | ctz | cpop | clzw | ctzw | cpopw | sextB | sextH | zextH | orcB | rev8
  deriving DecidableEq, Repr

/-- The RISC-V operations on a register and a 12-bit immediate. -/
inductive RvImm where
  | addi | slti | sltiu | xori | ori | andi | addiw
  deriving DecidableEq, Repr

/-- The RISC-V shifts by an immediate. -/
inductive RvShift where
  | slli | srli | srai | rori | slliw | srliw | sraiw | roriw | slliUw
  deriving DecidableEq, Repr

inductive RvBranch where
  | beq | bne | blt | bge | bltu | bgeu
  deriving DecidableEq, Repr

inductive RvLoad where
  | lb | lh | lw | ld | lbu | lhu | lwu
  deriving DecidableEq, Repr

inductive RvStore where
  | sb | sh | sw | sd
  deriving DecidableEq, Repr

inductive RvCsr where
  | rw | rs | rc
  deriving DecidableEq, Repr

/-- The fused forms fmadd, fmsub, fnmsub, fnmadd. -/
inductive RvFma where
  | madd | msub | nmsub | nmadd
  deriving DecidableEq, Repr

/-- F and D operations on two floating-point registers with a float result. -/
inductive RvFop where
  | add | sub | mul | div | sgnj | sgnjn | sgnjx | min | max
  deriving DecidableEq, Repr

inductive RvFcmp where
  | eq | lt | le
  deriving DecidableEq, Repr

/-- The integer types of the RISC-V conversions. -/
inductive RvInt where
  | w | wu | l | lu
  deriving DecidableEq, Repr

/-- An ordinary RISC-V instruction (R240): RV64I, M, F, D, Zicsr, Zba and Zbb. A compressed word decodes to
the instruction it stands for. dbl is true for the D form. -/
inductive RvOp where
  | lui (rd : BitVec 5) (imm : BitVec 20)
  | auipc (rd : BitVec 5) (imm : BitVec 20)
  | jal (rd : BitVec 5) (imm : BitVec 21)
  | jalr (rd rs1 : BitVec 5) (imm : BitVec 12)
  | branch (k : RvBranch) (rs1 rs2 : BitVec 5) (imm : BitVec 13)
  | load (k : RvLoad) (rd rs1 : BitVec 5) (imm : BitVec 12)
  | store (k : RvStore) (rs1 rs2 : BitVec 5) (imm : BitVec 12)
  | alu (k : RvAlu) (rd rs1 rs2 : BitVec 5)
  | unary (k : RvUnary) (rd rs1 : BitVec 5)
  | aluImm (k : RvImm) (rd rs1 : BitVec 5) (imm : BitVec 12)
  | shift (k : RvShift) (rd rs1 : BitVec 5) (sh : BitVec 6)
  | csr (k : RvCsr) (rd rs1 : BitVec 5) (num : BitVec 12)
  | csrI (k : RvCsr) (rd z : BitVec 5) (num : BitVec 12)
  | fload (dbl : Bool) (rd rs1 : BitVec 5) (imm : BitVec 12)
  | fstore (dbl : Bool) (rs1 rs2 : BitVec 5) (imm : BitVec 12)
  | fma (k : RvFma) (dbl : Bool) (rm : BitVec 3) (rd rs1 rs2 rs3 : BitVec 5)
  | fop (k : RvFop) (dbl : Bool) (rm : BitVec 3) (rd rs1 rs2 : BitVec 5)
  | fsqrt (dbl : Bool) (rm : BitVec 3) (rd rs1 : BitVec 5)
  | fcmp (k : RvFcmp) (dbl : Bool) (rd rs1 rs2 : BitVec 5)
  | fclass (dbl : Bool) (rd rs1 : BitVec 5)
  | fcvtToInt (k : RvInt) (dbl : Bool) (rm : BitVec 3) (rd rs1 : BitVec 5)
  | fcvtFromInt (k : RvInt) (dbl : Bool) (rm : BitVec 3) (rd rs1 : BitVec 5)
  | fcvtSD (rm : BitVec 3) (rd rs1 : BitVec 5)
  | fcvtDS (rm : BitVec 3) (rd rs1 : BitVec 5)
  | fmvToInt (dbl : Bool) (rd rs1 : BitVec 5)
  | fmvFromInt (dbl : Bool) (rd rs1 : BitVec 5)
  deriving DecidableEq, Repr

/-- The RISC-V AMO operations. -/
inductive AmoOp where
  | swap | add | xor | and | or | min | max | minu | maxu
  deriving DecidableEq, Repr

/-- What waits on a full/empty word or stage barrier: a team's operation in flight (a lane of it), a scalar
slot, or a team stopped in sbar.wt. -/
inductive WaitRef where
  | op (id unit : Nat)
  | slot (slot : Nat)
  | team (team : Nat)
  deriving DecidableEq, Repr

/-- A queue, and the partition through whose interface its registers are reached (R335). -/
structure QueueRef where
  part : Nat
  queue : Nat
  deriving DecidableEq, Repr

/-- What an error is found in (R410): storage, by its key; the 256-byte line of the L2 that holds an address of HBM; an entry
of a cluster's translation cache or Waymark table, by its index; an entry of a replay table, by its token; a line of a cache,
by a key in it; a link. -/
inductive ErrorPlace where
  | storage (key : Nat)
  | l2 (addr : Nat)
  | leaf (cl idx : Nat)
  | waymark (cl idx : Nat)
  | replay (token : Nat)
  | cached (cache key : Nat)
  | link (n : Nat)
  deriving DecidableEq, Repr

/-- Where an error is found, and the cluster that detects it (R372, R410, R411). -/
structure ErrorRef where
  cl : Nat
  place : ErrorPlace
  deriving DecidableEq, Repr

/-- The spare that takes a retired cluster's place, and the teams and slots whose state cannot be read (R412). -/
structure SpareRef where
  cl : Nat
  teams : List Nat := []
  slots : List Nat := []
  deriving DecidableEq, Repr

/-- What a request of a peer does (R398); an atomic by its code of R172 (log 77). -/
inductive PeerOp where
  | read | write
  | atomic (code : Nat)
  deriving DecidableEq, Repr

/-- An access to a peer that no acknowledgement answers (R396): of an operation in flight, or the one that the next
instruction of a slot makes. -/
inductive AckRef where
  | op (id : Nat)
  | slot (slot : Nat)
  deriving DecidableEq, Repr

/-- KEY_EXCHANGE of a partition's owner, with the period of the heartbeat that it sets, in ns (R400). -/
structure KeyRef where
  part : Nat
  period : Nat
  deriving DecidableEq, Repr

/-- What a cluster estimates that it spent in 1 us, in uJ, by what R408 charges it to: its array with the Loft; the work of a
party of a launch, with the accesses made for it, or of none; what it spends at rest. -/
inductive Energy where
  | array (uj : Nat)
  | work (launch : Option Nat) (uj : Nat)
  | static (uj : Nat)
  deriving DecidableEq, Repr

/-- The blocks of memory-mapped and keeper registers that REGISTER_WRITE reaches (R311, R312, R335, R360,
R387, R404). -/
inductive RegBlock where
  | keeper | queue | translation | attach | power
  /-- what firmware gives the keeper of a core (R309): offset 0 the pc, 1 to 31 a register, 32 + 2n and 33 + 2n the
  words of segment n, 48 the translation context of the cluster's keepers, 49 the launch they join (0 for none) -/
  | keeperImage
  /-- what only firmware writes; the offset is that in the device's register space -/
  | firmware
  deriving DecidableEq, Repr

/-- The guard of a two-word instruction (R97). -/
structure Guard where
  pred : BitVec 3
  neg : Bool
  deriving DecidableEq, Repr

/-- The instructions and steps, in the order of the table. -/
inductive Instr where
  /-- R126. -/
  | iadd (u : Bool) (d : BitVec 7) (a : BitVec 7) (b : BitVec 7) (t : BitVec 2)
  /-- R126. -/
  | isub (u : Bool) (d : BitVec 7) (a : BitVec 7) (b : BitVec 7) (t : BitVec 2)
  /-- R126. -/
  | imul (u : Bool) (d : BitVec 7) (a : BitVec 7) (b : BitVec 7) (t : BitVec 2)
  /-- R126. -/
  | imulhS (u : Bool) (d : BitVec 7) (a : BitVec 7) (b : BitVec 7) (t : BitVec 2)
  /-- R126. -/
  | imulhZ (u : Bool) (d : BitVec 7) (a : BitVec 7) (b : BitVec 7) (t : BitVec 2)
  /-- R126. -/
  | iminS (u : Bool) (d : BitVec 7) (a : BitVec 7) (b : BitVec 7) (t : BitVec 2)
  /-- R126. -/
  | iminZ (u : Bool) (d : BitVec 7) (a : BitVec 7) (b : BitVec 7) (t : BitVec 2)
  /-- R126. -/
  | imaxS (u : Bool) (d : BitVec 7) (a : BitVec 7) (b : BitVec 7) (t : BitVec 2)
  /-- R126. -/
  | imaxZ (u : Bool) (d : BitVec 7) (a : BitVec 7) (b : BitVec 7) (t : BitVec 2)
  /-- R126. -/
  | iaddsS (u : Bool) (d : BitVec 7) (a : BitVec 7) (b : BitVec 7) (t : BitVec 2)
  /-- R126. -/
  | iaddsZ (u : Bool) (d : BitVec 7) (a : BitVec 7) (b : BitVec 7) (t : BitVec 2)
  /-- R126. -/
  | isubsS (u : Bool) (d : BitVec 7) (a : BitVec 7) (b : BitVec 7) (t : BitVec 2)
  /-- R126. -/
  | isubsZ (u : Bool) (d : BitVec 7) (a : BitVec 7) (b : BitVec 7) (t : BitVec 2)
  /-- R126. -/
  | iabs (u : Bool) (d : BitVec 7) (a : BitVec 7) (t : BitVec 2)
  /-- R126. -/
  | ineg (u : Bool) (d : BitVec 7) (a : BitVec 7) (t : BitVec 2)
  /-- R127. -/
  | icmp (u : Bool) (c : BitVec 4) (p : BitVec 3) (a : BitVec 7) (b : BitVec 7) (t : BitVec 2)
  /-- R128. -/
  | and (u : Bool) (d : BitVec 7) (a : BitVec 7) (b : BitVec 7) (t : BitVec 2)
  /-- R128. -/
  | or (u : Bool) (d : BitVec 7) (a : BitVec 7) (b : BitVec 7) (t : BitVec 2)
  /-- R128. -/
  | xor (u : Bool) (d : BitVec 7) (a : BitVec 7) (b : BitVec 7) (t : BitVec 2)
  /-- R128. -/
  | andn (u : Bool) (d : BitVec 7) (a : BitVec 7) (b : BitVec 7) (t : BitVec 2)
  /-- R128. -/
  | shl (u : Bool) (d : BitVec 7) (a : BitVec 7) (b : BitVec 7) (t : BitVec 2)
  /-- R128. -/
  | shrZ (u : Bool) (d : BitVec 7) (a : BitVec 7) (b : BitVec 7) (t : BitVec 2)
  /-- R128. -/
  | shrS (u : Bool) (d : BitVec 7) (a : BitVec 7) (b : BitVec 7) (t : BitVec 2)
  /-- R128. -/
  | rotl (u : Bool) (d : BitVec 7) (a : BitVec 7) (b : BitVec 7) (t : BitVec 2)
  /-- R129. -/
  | popc (u : Bool) (d : BitVec 7) (a : BitVec 7) (t : BitVec 2)
  /-- R129. -/
  | clz (u : Bool) (d : BitVec 7) (a : BitVec 7) (t : BitVec 2)
  /-- R129. -/
  | brev (u : Bool) (d : BitVec 7) (a : BitVec 7) (t : BitVec 2)
  /-- R129. -/
  | mov (u : Bool) (d : BitVec 7) (a : BitVec 7) (t : BitVec 2)
  /-- R131. -/
  | fadd (u : Bool) (d : BitVec 7) (a : BitVec 7) (b : BitVec 7) (t : BitVec 2)
  /-- R131. -/
  | fsub (u : Bool) (d : BitVec 7) (a : BitVec 7) (b : BitVec 7) (t : BitVec 2)
  /-- R131. -/
  | fmul (u : Bool) (d : BitVec 7) (a : BitVec 7) (b : BitVec 7) (t : BitVec 2)
  /-- R132. -/
  | fmin (u : Bool) (d : BitVec 7) (a : BitVec 7) (b : BitVec 7) (t : BitVec 2)
  /-- R132. -/
  | fmax (u : Bool) (d : BitVec 7) (a : BitVec 7) (b : BitVec 7) (t : BitVec 2)
  /-- R131. -/
  | fabs (u : Bool) (d : BitVec 7) (a : BitVec 7) (t : BitVec 2)
  /-- R131. -/
  | fneg (u : Bool) (d : BitVec 7) (a : BitVec 7) (t : BitVec 2)
  /-- R133. -/
  | fcmp (u : Bool) (c : BitVec 4) (p : BitVec 3) (a : BitVec 7) (b : BitVec 7) (t : BitVec 2)
  /-- R134. -/
  | frcp (u : Bool) (d : BitVec 7) (a : BitVec 7) (t : BitVec 2)
  /-- R134. -/
  | frsq (u : Bool) (d : BitVec 7) (a : BitVec 7) (t : BitVec 2)
  /-- R134. -/
  | fsqrt (u : Bool) (d : BitVec 7) (a : BitVec 7) (t : BitVec 2)
  /-- R134. -/
  | fexp2 (u : Bool) (d : BitVec 7) (a : BitVec 7) (t : BitVec 2)
  /-- R134. -/
  | flog2 (u : Bool) (d : BitVec 7) (a : BitVec 7) (t : BitVec 2)
  /-- R134. -/
  | fsin (u : Bool) (d : BitVec 7) (a : BitVec 7) (t : BitVec 2)
  /-- R134. -/
  | fcos (u : Bool) (d : BitVec 7) (a : BitVec 7) (t : BitVec 2)
  /-- R135. -/
  | frnd (u : Bool) (d : BitVec 7) (a : BitVec 7) (m : BitVec 3) (t : BitVec 2)
  /-- R136. -/
  | fcvt (u : Bool) (d : BitVec 7) (a : BitVec 7) (c : BitVec 4) (m : BitVec 3)
  /-- R137. -/
  | fmac (u : Bool) (d : BitVec 7) (a : BitVec 7) (b : BitVec 7) (t : BitVec 2)
  /-- R137. -/
  | fdot2 (u : Bool) (d : BitVec 7) (a : BitVec 7) (b : BitVec 7) (t : BitVec 2)
  /-- R137. -/
  | imac (u : Bool) (d : BitVec 7) (a : BitVec 7) (b : BitVec 7) (t : BitVec 2)
  /-- R137. -/
  | idot4 (u : Bool) (d : BitVec 7) (a : BitVec 7) (b : BitVec 7)
  /-- R138. -/
  | lpickIdx (d : BitVec 7) (a : BitVec 7) (b : BitVec 7)
  /-- R138. -/
  | lpickXor (d : BitVec 7) (a : BitVec 7) (b : BitVec 7)
  /-- R138. -/
  | lpickRot (d : BitVec 7) (a : BitVec 7) (b : BitVec 7)
  /-- R138. -/
  | lpickFill (d : BitVec 7) (a : BitVec 7) (b : BitVec 7)
  /-- R139. -/
  | ballot (d : BitVec 7) (p : BitVec 3)
  /-- R140. -/
  | bcast (d : BitVec 7) (a : BitVec 7) (b : BitVec 7)
  /-- R141. -/
  | agree (m : BitVec 4) (g : BitVec 3) (p : BitVec 3)
  /-- R142. -/
  | lred (d : BitVec 7) (a : BitVec 7) (b : BitVec 7) (t : BitVec 2)
  /-- R143. -/
  | plog (u : Bool) (f : BitVec 4) (d : BitVec 3) (a : BitVec 3) (b : BitVec 3)
  /-- R144. -/
  | pmovToReg (u : Bool) (d : BitVec 7)
  /-- R144. -/
  | pmovFromReg (u : Bool) (a : BitVec 7)
  /-- R145. -/
  | hrnd (u : Bool) (d : BitVec 7) (a : BitVec 7) (b : BitVec 7)
  /-- R146. -/
  | sread (u : Bool) (d : BitVec 7) (a : BitVec 7)
  /-- R130. -/
  | iaddi (u : Bool) (d : BitVec 7) (a : BitVec 7) (i : BitVec 10)
  /-- R130. -/
  | andi (u : Bool) (d : BitVec 7) (a : BitVec 7) (i : BitVec 10)
  /-- R130. -/
  | ori (u : Bool) (d : BitVec 7) (a : BitVec 7) (i : BitVec 10)
  /-- R130. -/
  | xori (u : Bool) (d : BitVec 7) (a : BitVec 7) (i : BitVec 10)
  /-- R130. -/
  | shli (u : Bool) (d : BitVec 7) (a : BitVec 7) (c : BitVec 5)
  /-- R130. -/
  | shriZ (u : Bool) (d : BitVec 7) (a : BitVec 7) (c : BitVec 5)
  /-- R130. -/
  | shriS (u : Bool) (d : BitVec 7) (a : BitVec 7) (c : BitVec 5)
  /-- R130. -/
  | rotli (u : Bool) (d : BitVec 7) (a : BitVec 7) (c : BitVec 5)
  /-- R130. -/
  | imuli (u : Bool) (d : BitVec 7) (a : BitVec 7) (i : BitVec 10)
  /-- R130. -/
  | movi (u : Bool) (d : BitVec 7) (i : BitVec 10)
  /-- R127. -/
  | icmpi (u : Bool) (c : BitVec 4) (p : BitVec 3) (a : BitVec 7) (i : BitVec 10)
  /-- R138. -/
  | lpickiIdx (d : BitVec 7) (a : BitVec 7) (k : BitVec 5)
  /-- R138. -/
  | lpickiXor (d : BitVec 7) (a : BitVec 7) (k : BitVec 5)
  /-- R138. -/
  | lpickiRot (d : BitVec 7) (a : BitVec 7) (k : BitVec 5)
  /-- R138. -/
  | lpickiFill (d : BitVec 7) (a : BitVec 7) (k : BitVec 5)
  /-- R169. -/
  | ldZ8 (u : Bool) (d : BitVec 7) (a : BitVec 7) (s : BitVec 3) (f : Bool) (o : BitVec 6)
  /-- R169. -/
  | ldS8 (u : Bool) (d : BitVec 7) (a : BitVec 7) (s : BitVec 3) (f : Bool) (o : BitVec 6)
  /-- R169. -/
  | ldZ16 (u : Bool) (d : BitVec 7) (a : BitVec 7) (s : BitVec 3) (f : Bool) (o : BitVec 6)
  /-- R169. -/
  | ldS16 (u : Bool) (d : BitVec 7) (a : BitVec 7) (s : BitVec 3) (f : Bool) (o : BitVec 6)
  /-- R169. -/
  | ld32 (u : Bool) (d : BitVec 7) (a : BitVec 7) (s : BitVec 3) (f : Bool) (o : BitVec 6)
  /-- R169. -/
  | ld64 (u : Bool) (d : BitVec 7) (a : BitVec 7) (s : BitVec 3) (f : Bool) (o : BitVec 6)
  /-- R169. -/
  | ld128 (u : Bool) (d : BitVec 7) (a : BitVec 7) (s : BitVec 3) (f : Bool) (o : BitVec 6)
  /-- R169. -/
  | st8 (u : Bool) (d : BitVec 7) (a : BitVec 7) (s : BitVec 3) (f : Bool) (o : BitVec 6)
  /-- R169. -/
  | st16 (u : Bool) (d : BitVec 7) (a : BitVec 7) (s : BitVec 3) (f : Bool) (o : BitVec 6)
  /-- R169. -/
  | st32 (u : Bool) (d : BitVec 7) (a : BitVec 7) (s : BitVec 3) (f : Bool) (o : BitVec 6)
  /-- R169. -/
  | st64 (u : Bool) (d : BitVec 7) (a : BitVec 7) (s : BitVec 3) (f : Bool) (o : BitVec 6)
  /-- R169. -/
  | st128 (u : Bool) (d : BitVec 7) (a : BitVec 7) (s : BitVec 3) (f : Bool) (o : BitVec 6)
  /-- R170. -/
  | ldFe (u : Bool) (d : BitVec 7) (a : BitVec 7) (s : BitVec 3) (f : Bool) (o : BitVec 6)
  /-- R170. -/
  | stFe (u : Bool) (d : BitVec 7) (a : BitVec 7) (s : BitVec 3) (f : Bool) (o : BitVec 6)
  /-- R170. -/
  | feSet (u : Bool) (d : BitVec 7) (a : BitVec 7) (s : BitVec 3) (f : Bool) (o : BitVec 6)
  /-- R171. -/
  | ldAcq (u : Bool) (d : BitVec 7) (a : BitVec 7) (s : BitVec 3) (f : Bool) (e : BitVec 3) (z : BitVec 3)
  /-- R171. -/
  | stRel (u : Bool) (d : BitVec 7) (a : BitVec 7) (s : BitVec 3) (f : Bool) (e : BitVec 3) (z : BitVec 3)
  /-- R172. -/
  | atom (u : Bool) (d : BitVec 7) (a : BitVec 7) (s : BitVec 3) (f : Bool) (k : BitVec 4) (z : BitVec 2)
  /-- R172. -/
  | atomNr (u : Bool) (d : BitVec 7) (a : BitVec 7) (s : BitVec 3) (f : Bool) (k : BitVec 4) (z : BitVec 2)
  /-- R173. -/
  | atomCas (u : Bool) (d : BitVec 7) (a : BitVec 7) (s : BitVec 3) (f : Bool) (z : BitVec 2)
  /-- R175. -/
  | pref (u : Bool) (a : BitVec 7) (s : BitVec 3) (o : BitVec 6)
  /-- R176. -/
  | discard (u : Bool) (d : BitVec 7) (a : BitVec 7) (s : BitVec 3) (f : Bool)
  /-- R176. -/
  | cmaint (u : Bool) (a : BitVec 7) (s : BitVec 3) (f : Bool) (k : BitVec 3) (e : BitVec 3)
  /-- R169. -/
  | ldNc (u : Bool) (d : BitVec 7) (a : BitVec 7) (s : BitVec 3) (f : Bool) (o : BitVec 6)
  /-- R155. -/
  | bra (p : BitVec 3) (n : Bool) (i : BitVec 18)
  /-- R155. -/
  | braU (p : BitVec 3) (n : Bool) (i : BitVec 18)
  /-- R157. -/
  | braD (p : BitVec 3) (n : Bool) (i : BitVec 18)
  /-- R157. -/
  | div (i : BitVec 18)
  /-- R159. -/
  | call (i : BitVec 18)
  /-- R155. -/
  | loop (p : BitVec 3) (i : BitVec 18)
  /-- R155. -/
  | braAny (p : BitVec 3) (n : Bool) (i : BitVec 18)
  /-- R155. -/
  | braAll (p : BitVec 3) (n : Bool) (i : BitVec 18)
  /-- R157. -/
  | join
  /-- R159. -/
  | ret
  /-- R160. -/
  | exit
  /-- R161. -/
  | yield
  /-- R161. -/
  | nop
  /-- R162. -/
  | jmpu (a : BitVec 6)
  /-- R161. -/
  | trap (c : BitVec 16)
  /-- R163. -/
  | sbarArv (a : BitVec 6)
  /-- R163. -/
  | sbarWt (a : BitVec 6) (h : Bool)
  /-- R161. -/
  | brk
  /-- R164. -/
  | sgnar (n : BitVec 3) (g : BitVec 6) (r : BitVec 5)
  /-- R165. -/
  | fenceX (f : BitVec 3) (t : BitVec 3) (s : BitVec 3)
  /-- R330. -/
  | csrr (d : BitVec 6) (n : BitVec 12)
  /-- R330. -/
  | csrw (d : BitVec 6) (n : BitVec 12)
  /-- R330. -/
  | csrs (d : BitVec 6) (n : BitVec 12)
  /-- R330. -/
  | csrc (d : BitVec 6) (n : BitVec 12)
  /-- R331. -/
  | tpark (a : BitVec 6) (d : BitVec 6)
  /-- R332. -/
  | tkill (c : BitVec 16)
  /-- R333. -/
  | eret
  /-- R106. -/
  | rpt (l : BitVec 4) (c : BitVec 6) (d : BitVec 4) (a : BitVec 4) (b : BitVec 4)
  /-- R101. -/
  | hdr (w : BitVec 12) (a : BitVec 4) (b : BitVec 4) (l : BitVec 4) (h : BitVec 2)
  /-- R148. -/
  | fma (u : Bool) (t : BitVec 2) (d a b c : BitVec 7) (gd : Guard)
  /-- R148. -/
  | imad (u : Bool) (t : BitVec 2) (d a b c : BitVec 7) (gd : Guard)
  /-- R149. -/
  | sel (u : Bool) (t : BitVec 2) (d a b : BitVec 7) (gd : Guard)
  /-- R150. -/
  | bfeS (u : Bool) (t : BitVec 2) (d a : BitVec 7) (gd : Guard) (len : BitVec 7) (pos : BitVec 6)
  /-- R150. -/
  | bfeZ (u : Bool) (t : BitVec 2) (d a : BitVec 7) (gd : Guard) (len : BitVec 7) (pos : BitVec 6)
  /-- R150. -/
  | bfi (u : Bool) (t : BitVec 2) (d a b : BitVec 7) (gd : Guard) (len : BitVec 7) (pos : BitVec 6)
  /-- R151. -/
  | bmix (u : Bool) (d a b : BitVec 7) (gd : Guard) (zb : Bool) (sel : BitVec 12)
  /-- R152. -/
  | movi32 (u : Bool) (d : BitVec 7) (imm : W32)
  /-- R152. -/
  | iaddi32 (u : Bool) (d a : BitVec 7) (imm : W32)
  /-- R154. -/
  | fcvtX (u : Bool) (d a b : BitVec 7) (di si : BitVec 3) (gd : Guard) (sat : Bool) (mode : BitVec 3) (dst src : BitVec 4)
  /-- R148. -/
  | fclamp (u : Bool) (t : BitVec 2) (d a b c : BitVec 7) (gd : Guard)
  /-- R153. -/
  | lea (u : Bool) (d a b : BitVec 7) (gd : Guard) (sx : Bool) (sh : BitVec 3)
  /-- R153. -/
  | madW (u : Bool) (d a b c : BitVec 7) (gd : Guard) (sx : Bool)
  /-- R148. -/
  | fmaMix (u : Bool) (t : BitVec 2) (d a b c : BitVec 7) (gd : Guard) (j i : Bool)
  /-- R178. -/
  | cpy (bar : Bool) (d a b c : BitVec 7) (gd : Guard) (f : Bool) (dseg sseg : BitVec 3)
  /-- R179. -/
  | cpy2d (d a b c : BitVec 7) (gd : Guard) (f : Bool) (dseg sseg : BitVec 3)
  /-- R180. -/
  | cpyMx (d a c : BitVec 7) (gd : Guard) (f : Bool) (dseg sseg : BitVec 3)
  /-- R182. -/
  | gath (d a : BitVec 7) (gd : Guard) (f : Bool) (z : BitVec 2) (s : BitVec 3)
  /-- R182. -/
  | scat (d a : BitVec 7) (gd : Guard) (f : Bool) (z : BitVec 2) (s : BitVec 3)
  /-- R196. -/
  | mloopIp (a : BitVec 7) (gd : Guard) (f : Bool)
  /-- R198. -/
  | mloopOp (a : BitVec 7) (gd : Guard) (f : Bool)
  /-- R197. -/
  | mloopRw (a : BitVec 7) (gd : Guard) (f : Bool)
  /-- R192. -/
  | mfill (a b : BitVec 7) (gd : Guard) (f : Bool) (sp : Bool)
  /-- R200. -/
  | mdrain (a b : BitVec 7) (gd : Guard) (f : Bool) (sp : Bool)
  /-- R201. -/
  | mzero (gd : Guard) (f : Bool) (bank : Bool)
  /-- R212. -/
  | rtrace (d a b : BitVec 7) (gd : Guard) (f : Bool) (h : BitVec 4) (s : BitVec 3)
  /-- R222. -/
  | rcommit (d : BitVec 7) (p : BitVec 3) (gd : Guard) (f : Bool)
  /-- R230. -/
  | rgen (gd : Guard) (f : Bool) (off : Bool) (e : BitVec 7) (h : BitVec 4)
  /-- R234. -/
  | tclass (d a : BitVec 7) (p : BitVec 3) (gd : Guard)
  /-- R236. -/
  | rast (a c : BitVec 7) (gd : Guard) (f : Bool) (node : BitVec 6)
  /-- R183. -/
  | emit (dl : Bool) (a c : BitVec 7) (gd : Guard) (q : BitVec 4) (node : BitVec 6)
  /-- R30. -/
  | regroup (node : BitVec 6) (k : BitVec 8)
  /-- R185. -/
  | leave (a : BitVec 7)
  /-- R186. -/
  | nodeq (d : BitVec 7) (gd : Guard) (f : Bool) (node : BitVec 6)
  /-- R244. -/
  | xpost (t : BitVec 5) (s : BitVec 5) (d : BitVec 5)
  /-- R244. -/
  | xpostn (t : BitVec 5) (s : BitVec 5) (d : BitVec 5)
  /-- R247. -/
  | xsend (t : BitVec 5) (s : BitVec 5) (d : BitVec 5)
  /-- R247. -/
  | xspawnm (t : BitVec 5) (s : BitVec 5) (d : BitVec 5)
  /-- R252. -/
  | xrecv (d : BitVec 5)
  /-- R250. -/
  | xwait (s : BitVec 5) (d : BitVec 5)
  /-- R249. -/
  | xevt (s : BitVec 5) (d : BitVec 5)
  /-- R245. -/
  | xmig (s : BitVec 5)
  /-- R246. -/
  | xnodeq (s : BitVec 5) (d : BitVec 5)
  /-- R254. -/
  | xspawn (t : BitVec 5) (s : BitVec 5) (d : BitVec 5)
  /-- R254. -/
  | xrange (t : BitVec 5) (s : BitVec 5) (d : BitVec 5)
  /-- R255. -/
  | xpop (s : BitVec 5) (d : BitVec 5)
  /-- R257. -/
  | xsplit (t : BitVec 5) (s : BitVec 5) (d : BitVec 5)
  /-- R259. -/
  | xjoin (s : BitVec 5) (d : BitVec 5)
  /-- R258. -/
  | xsteal (d : BitVec 5)
  /-- R260. -/
  | xyield (s : BitVec 5)
  /-- R260. -/
  | xsdom (s : BitVec 5) (d : BitVec 5)
  /-- R261. -/
  | xldfe (s : BitVec 5) (d : BitVec 5)
  /-- R261. -/
  | xstfe (t : BitVec 5) (s : BitVec 5)
  /-- R261. -/
  | xfeset (t : BitVec 5) (s : BitVec 5)
  /-- R262. -/
  | xlda (e : BitVec 3) (z : BitVec 2) (s : BitVec 5) (d : BitVec 5)
  /-- R262. -/
  | xstr (t : BitVec 5) (s : BitVec 5) (e : BitVec 3) (z : BitVec 2)
  /-- R263. -/
  | xdiscard (t : BitVec 5) (s : BitVec 5)
  /-- R266. -/
  | xsgnar (t : BitVec 5) (s : BitVec 5) (n : BitVec 3)
  /-- R266. -/
  | xsgrd (s : BitVec 5) (d : BitVec 5)
  /-- R264. -/
  | xcmaint (k : BitVec 2) (e : BitVec 3) (s : BitVec 5)
  /-- R265. -/
  | xfence (f : BitVec 3) (g : BitVec 3) (c : BitVec 3)
  /-- R267. -/
  | xfmt (t : BitVec 5) (s : BitVec 5)
  /-- R268. -/
  | xenergy (s : BitVec 5) (d : BitVec 5)
  /-- R269. -/
  | xsread (s : BitVec 5) (d : BitVec 5)
  /-- R316. -/
  | xtimer (s : BitVec 5) (d : BitVec 5)
  /-- R319. -/
  | xslotQuery (s : BitVec 5) (d : BitVec 5)
  /-- R319. -/
  | xslotStop (s : BitVec 5) (d : BitVec 5)
  /-- R319. -/
  | xslotRelease (s : BitVec 5) (d : BitVec 5)
  /-- R319. -/
  | xslotOpen (s : BitVec 5) (d : BitVec 5)
  /-- R319. -/
  | xslotClose (s : BitVec 5) (d : BitVec 5)
  /-- R319. -/
  | xslotVacate (s : BitVec 5) (d : BitVec 5)
  /-- R320. -/
  | xctxSv (t : BitVec 5) (s : BitVec 5) (d : BitVec 5)
  /-- R320. -/
  | xctxLd (t : BitVec 5) (s : BitVec 5) (d : BitVec 5)
  /-- R321. -/
  | xkret (d : BitVec 5)
  /-- R316. -/
  | xsgset (t : BitVec 5) (s : BitVec 5) (n : BitVec 3)
  /-- R316. -/
  | xtlbi (t : BitVec 5) (s : BitVec 5)
  /-- R322. -/
  | xpeek (s : BitVec 5) (d : BitVec 5)
  /-- R322. -/
  | xpoke (t : BitVec 5) (s : BitVec 5)
  /-- R240. -/
  | riscvBaseOp (op : RvOp)
  /-- R240. -/
  | fence (fm pred succ : BitVec 4)
  /-- R240. -/
  | fenceI
  /-- R240. -/
  | amo (k : AmoOp) (dbl aq rl : Bool) (rd rs1 rs2 : BitVec 5)
  /-- R241. -/
  | lr (dbl aq rl : Bool) (rd rs1 : BitVec 5)
  /-- R241. -/
  | sc (dbl aq rl : Bool) (rd rs1 rs2 : BitVec 5)
  /-- R240. -/
  | ecall
  /-- R240. -/
  | ebreak
  /-- R251. -/
  | wfi
  /-- R102. -/
  | clauseWaitEnd (team : Nat)
  /-- R167. -/
  | memAccessComplete (op unit : Nat)
  /-- R168. -/
  | deferredErrorArrival (op unit : Nat)
  /-- R274. -/
  | feWaitServed (w : WaitRef)
  /-- R275. -/
  | feretryExpiry (w : WaitRef)
  /-- R163. -/
  | sbarWake (team : Nat)
  /-- R177. -/
  | asyncComplete (op : Nat)
  /-- R189. -/
  | matEntryExecute (cl : Nat)
  /-- R205. -/
  | rowGroupEnable (cl : Nat)
  /-- R205. -/
  | rowGroupDisable (cl : Nat)
  /-- R221. -/
  | rayTraceComplete (op : Nat)
  /-- R238. -/
  | rasterTriangle (die : Nat)
  /-- R348. -/
  | recordAdmit (cl ctx : Nat)
  /-- R350. -/
  | batchTimeout (cl ctx node : Nat)
  /-- R350. -/
  | launchDrain (launch : Nat)
  /-- R351. -/
  | recordDeadline (cl ctx idx : Nat)
  /-- R352. -/
  | teamAdmit (cl eng : Nat)
  /-- R21. -/
  | teamRetire (team : Nat)
  /-- R431. -/
  | slotGrant (slot : Nat)
  /-- R29. -/
  | leaveLanePlace (team : Nat)
  /-- R256. -/
  | frameDispatch (slot : Nat)
  /-- R258. -/
  | stealProbe (slot : Nat)
  /-- R248. -/
  | messageDelivery (idx : Nat)
  /-- R250. -/
  | xwaitWake (slot : Nat)
  /-- R259. -/
  | xjoinWake (slot : Nat)
  /-- R260. -/
  | xyieldEnd (slot : Nat)
  /-- R318. -/
  | xtimerExpiry (slot : Nat)
  /-- R311. -/
  | kpendClear (core : Nat) (v : W64)
  /-- R323. -/
  | spillQueuePop (core : Nat)
  /-- R324. -/
  | poisonQueuePop (cl : Nat)
  /-- R373. -/
  | cloakroomReadyPop (cl : Nat)
  /-- R375. -/
  | cloakroomEntryFree (cl : Nat) (v : W64)
  /-- R231. -/
  | wmpartWrite (cl : Nat) (v : W32)
  /-- R5. -/
  | registerWrite (blk : RegBlock) (unit off : Nat) (v : W64)
  /-- R382. -/
  | preemptRequest (team : Nat)
  /-- R382. -/
  | teamParkOff (team : Nat)
  /-- R383. -/
  | teamRestore (team eng : Nat)
  /-- R336. -/
  | queueDoorbell (q : QueueRef) (v : W32)
  /-- R336. -/
  | queueEnable (q : QueueRef) (v : W32)
  /-- R338. -/
  | launchConsume (q : Nat)
  /-- R343. -/
  | launchPlace (grid : List Nat)
  /-- R432. -/
  | launchEnd (launch : Nat)
  /-- R345. -/
  | peerLaunchPacket (q : Nat) (peer : Nat) (bytes : List Byte)
  /-- R358. -/
  | translationWalk (cl ctx : Nat) (va : W64) (write exec : Bool)
  /-- R362. -/
  | faultQueueRecheck (part : Nat)
  /-- R363. -/
  | twakeRetry (part : Nat) (token : Nat)
  /-- R363. -/
  | twakeFail (part : Nat) (token : Nat)
  /-- R363. -/
  | twakeRetryctx (part : Nat) (ctx : Nat)
  /-- R363. -/
  | twakeLate (part : Nat) (token : Nat)
  /-- R363. -/
  | twakeDrop (part : Nat) (token : Nat)
  /-- R365. -/
  | tinvcShootdown (part : Nat) (v : W64)
  /-- R370. -/
  | tmigcMigrate (part : Nat) (v : W64)
  /-- R368. -/
  | forcedEviction (ctx : Nat) (va : W64)
  /-- R369. -/
  | evictwaitDeadline (ctx : Nat) (va : W64)
  /-- R388. -/
  | lendDrain (part : Nat) (launch : Nat)
  /-- R388. -/
  | lendKill (part : Nat) (launch : Nat)
  /-- R394. -/
  | attachBegin (part : Nat)
  /-- R394. -/
  | attachClaim (part : Nat) (v : W64)
  /-- R394. -/
  | attachCommit (part : Nat)
  /-- R394. -/
  | reattachTimeout (part : Nat)
  /-- R393. -/
  | hostLinkDown (part : Nat)
  /-- R385. -/
  | hostDoorAccess (part door off : Nat) (write : Bool) (bytes : List Byte)
  /-- R386. -/
  | hostHdmAccess (part : Nat) (addr : Nat) (write : Bool) (bytes : List Byte)
  /-- R386. -/
  | atsInvalidation (part ctx : Nat) (va : W64)
  /-- R398. -/
  | peerRequest (part peer : Nat) (addr : Nat) (op : PeerOp) (bytes : List Byte)
  /-- R396. -/
  | peerAckTimeout (a : AckRef) (unit : Nat)
  /-- R399. -/
  | lockInterface (part : Nat)
  /-- R399. -/
  | startInterface (part : Nat)
  /-- R401. -/
  | stopInterface (part : Nat)
  /-- R401. -/
  | ideIntegrityFailure (part : Nat)
  /-- R400. -/
  | sessionExpiry (part : Nat)
  /-- R403. -/
  | configUnlock (part : Nat)
  /-- R400. -/
  | getMeasurements (part : Nat)
  /-- R400. -/
  | keyExchange (k : KeyRef)
  /-- R400. -/
  | finish (part : Nat)
  /-- R400. -/
  | heartbeat (part : Nat)
  /-- R400. -/
  | keyUpdate (part : Nat) (ok : Bool)
  /-- R405. -/
  | capRequestRaise (pwr : Nat)
  /-- R405. -/
  | capRequestLower (pwr : Nat)
  /-- R405. -/
  | clockClamp (pwr : Nat)
  /-- R406. -/
  | throttleStepChange (cl : Nat)
  /-- R406. -/
  | thermalLimit (die : Nat) (hot : Bool)
  /-- R406. -/
  | thermalTrip (die : Nat)
  /-- R407. -/
  | rampBudgetInterval
  /-- R408. -/
  | energyUpdate (cl : Nat) (uses : List Energy)
  /-- R408. -/
  | energyRescale (cl : Nat) (scale : Nat)
  /-- R410. -/
  | eccError (e : ErrorRef) (corrected : Bool)
  /-- R411. -/
  | patrolScrub (e : ErrorRef) (bad : Bool)
  /-- R412. -/
  | clusterRetire (cl : Nat) (spare : SpareRef)
  /-- R413. -/
  | hdrainDone (part : Nat) (v : W64)
  /-- R413. -/
  | hbmStackReturn (stack : Nat)
  /-- R413. -/
  | hdrainDeadline (part : Nat)
  /-- R414. -/
  | linkLaneFailure (link lane : Nat)
  /-- R415. -/
  | firmwareUpdate (die : Nat) (image : List Byte) (version : Nat) (signed : Bool)
  /-- R415. -/
  | firmwareHealthTimeout (die : Nat)
  /-- R415. -/
  | rollbackCounterAdvance (die : Nat)
  /-- R416. -/
  | packageReset
  /-- R417. -/
  | checkpoint
  /-- R309. -/
  | keeperRestart (core : Nat)
  /-- R384. -/
  | cxlCacheSnoop (addr : Nat) (bytes : List Byte)
  /-- R9. -/
  | firmwareClockChange (cl mhz : Nat)
  /-- R400. -/
  | sessionEnd (part : Nat)
  deriving DecidableEq, Repr

end Sys2Proof
end

