-- ==== Sys2Proof/WellFormed.lean ====
section
/-! DEFINITION. The checks on an instruction's own fields that do not depend on the machine: reserved values
(R90 to R98, check 2 of R108), uniform register fields (R45, check 4 of R108), and the scalar codes of R96 and R111.
An answer `some false` names word 1 as the word that fails, `some true` word 2. -/

namespace Sys2Proof

/-- pred 7 with neg 1 is no guard (R97). -/
def Guard.bad (g : Guard) : Bool := g.pred == 7 && g.neg

/-- The formats that fcvt.x knows, with the elements a register holds (R154). -/
def fcvtXElems (c : BitVec 4) : Option Nat :=
  match c.toNat with
  | 0 => some 1
  | 1 => some 2
  | 2 => some 2
  | 3 => some 4
  | 4 => some 4
  | 5 => some 8
  | 6 => some 4
  | 7 => some 8
  | 9 => some 1
  | 10 => some 1
  | 11 => some 1
  | 12 => some 4
  | 13 => some 4
  | _ => none

/-- The five causes of 0x01 that R154 lists. -/
def fcvtXBad (b : BitVec 7) (di si : BitVec 3) (sat : Bool) (mode : BitVec 3) (dst src : BitVec 4) : Bool :=
  let narrow := dst == 1 || dst == 2 || dst == 3 || dst == 4
  match fcvtXElems dst, fcvtXElems src with
  | some nd, some ns =>
    dst == 13 || decide (nd ≤ di.toNat) || decide (ns ≤ si.toNat) || decide (5 ≤ mode.toNat)
      || (mode == 4 && !narrow) || (sat && !narrow) || (b != 0 && mode != 4)
  | _, _ => true

/-- len = 0, or pos + len beyond the width (R150). -/
def bitFieldBad (t : BitVec 2) (len : BitVec 7) (pos : BitVec 6) : Bool :=
  len == 0 || decide ((if t == 0 then 32 else 64) < pos.toNat + len.toNat)

/-- R90: t is 32-bit or pair. -/
def tScalar (t : BitVec 2) : Bool := t == 0 || t == 3

/-- The word that holds one of two bad fields, the first word first. -/
def badIn (w1 w2 : Bool) : Option Bool :=
  if w1 then some false else if w2 then some true else none

def bad1 (b : Bool) : Option Bool := badIn b false

/-- Reserved codes of ld.acq and st.rel (R96). -/
def acqBad (e z : BitVec 3) : Bool := decide (6 ≤ e.toNat) || decide (5 ≤ z.toNat)

/-- Reserved codes of atom (R95). -/
def atomBad (k : BitVec 4) (z : BitVec 2) : Bool :=
  decide (14 ≤ k.toNat) || decide (2 ≤ z.toNat) || (z == 1 && decide (11 ≤ k.toNat))

/-- Reserved codes of fence.x and xfence (R96). -/
def fenceBad (f t s : BitVec 3) : Bool := f == 7 || t == 7 || decide (6 ≤ s.toNat)

/-- The rounding modes 5 and 6 are reserved in RISC-V. -/
def rmBad (rm : BitVec 3) : Bool := rm == 5 || rm == 6

/-- Reserved RISC-V encodings within the extensions of R240. -/
def RvOp.bad : RvOp → Bool
  | .jal _ v => v.getLsbD 0
  | .branch _ _ _ v => v.getLsbD 0
  | .shift k _ _ sh =>
    match k with
    | .slliw | .srliw | .sraiw | .roriw => sh.getLsbD 5
    | _ => false
  | .fma _ _ rm _ _ _ _ => rmBad rm
  | .fop k _ rm _ _ _ =>
    match k with
    | .add | .sub | .mul | .div => rmBad rm
    | _ => rm != 0
  | .fsqrt _ rm _ _ => rmBad rm
  | .fcvtToInt _ _ rm _ _ => rmBad rm
  | .fcvtFromInt _ _ rm _ _ => rmBad rm
  | .fcvtSD rm _ _ => rmBad rm
  | .fcvtDS rm _ _ => rmBad rm
  | _ => false

/-- Check 2 of R108 (and R111 for scalar words): the word that holds a reserved value. -/
def Instr.reservedIn : Instr → Option Bool
  | .icmp _ c _ _ _ t => bad1 (!tScalar t || decide (10 ≤ c.toNat))
  | .and _ _ _ _ t | .or _ _ _ _ t | .xor _ _ _ _ t | .andn _ _ _ _ t => bad1 (!tScalar t)
  | .popc _ _ _ t | .clz _ _ _ t | .brev _ _ _ t | .mov _ _ _ t => bad1 (!tScalar t)
  | .fcmp _ c _ _ _ t => bad1 (!tScalar t || decide (8 ≤ c.toNat))
  | .frcp _ _ _ t | .frsq _ _ _ t | .fsqrt _ _ _ t | .fexp2 _ _ _ t | .flog2 _ _ _ t | .fsin _ _ _ t
  | .fcos _ _ _ t => bad1 (decide (2 ≤ t.toNat))
  | .frnd _ _ _ m _ => bad1 (decide (4 ≤ m.toNat))
  | .fcvt _ _ _ c m => bad1 (decide (10 ≤ c.toNat) || decide (4 ≤ m.toNat))
  | .fdot2 _ _ _ _ t => bad1 (tScalar t)
  | .agree m _ _ => bad1 (decide (5 ≤ m.toNat))
  | .lred _ _ b t => bad1 (!tScalar t || decide (11 ≤ b.toNat))
  | .icmpi _ c _ _ _ => bad1 (decide (10 ≤ c.toNat))
  | .feSet _ d _ _ _ _ => bad1 (decide (2 ≤ d.toNat))
  | .ldAcq _ _ _ _ _ e z | .stRel _ _ _ _ _ e z => bad1 (acqBad e z)
  | .atom _ _ _ _ _ k z | .atomNr _ _ _ _ _ k z => bad1 (atomBad k z)
  | .atomCas _ _ _ _ _ z => bad1 (decide (2 ≤ z.toNat))
  | .cmaint _ _ _ _ k e => bad1 (decide (3 ≤ k.toNat) || decide (6 ≤ e.toNat))
  | .bra p n _ | .braU p n _ | .braD p n _ | .braAny p n _ | .braAll p n _ => bad1 (p == 7 && n)
  | .fenceX f t s => bad1 (fenceBad f t s)
  | .hdr _ _ _ l h => bad1 (l == 0 || decide (2 ≤ h.toNat))
  | .fma _ _ _ _ _ _ gd | .imad _ _ _ _ _ _ gd | .fclamp _ _ _ _ _ _ gd => badIn false gd.bad
  | .sel _ t _ _ _ _ => bad1 (!tScalar t)
  | .bfeS _ t _ _ gd len pos | .bfeZ _ t _ _ gd len pos | .bfi _ t _ _ _ gd len pos =>
    badIn (!tScalar t) (gd.bad || bitFieldBad t len pos)
  | .bmix _ _ _ _ gd _ _ => badIn false gd.bad
  | .fcvtX _ _ _ b di si gd sat mode dst src => badIn false (gd.bad || fcvtXBad b di si sat mode dst src)
  | .lea _ _ _ _ gd _ _ | .madW _ _ _ _ _ gd _ => badIn false gd.bad
  | .fmaMix _ t _ _ _ _ gd _ _ => badIn (tScalar t) gd.bad
  | .cpy _ _ _ _ _ gd _ _ _ | .cpy2d _ _ _ _ gd _ _ _ | .cpyMx _ _ _ gd _ _ _ => badIn false gd.bad
  | .gath _ _ gd _ z _ | .scat _ _ gd _ z _ => badIn false (gd.bad || z == 3)
  | .mloopIp _ gd _ | .mloopOp _ gd _ | .mloopRw _ gd _ => badIn false gd.bad
  | .mfill _ _ gd _ _ | .mdrain _ _ gd _ _ | .mzero gd _ _ => badIn false gd.bad
  | .rtrace _ _ _ gd _ _ _ | .rcommit _ _ gd _ | .rgen gd _ _ _ _ | .tclass _ _ _ gd
  | .rast _ _ gd _ _ => badIn false gd.bad
  | .emit _ _ _ gd _ _ | .nodeq _ gd _ _ => badIn false gd.bad
  | .regroup _ k => badIn false (decide (129 ≤ k.toNat))
  | .xlda e _ _ _ | .xstr _ _ e _ => bad1 (decide (6 ≤ e.toNat))
  | .xcmaint k e _ => bad1 (k == 3 || decide (6 ≤ e.toNat))
  | .xfence f g c => bad1 (fenceBad f g c)
  | .riscvBaseOp op => bad1 op.bad
  | _ => none

/-- A uniform register field must be below 64 (R45). -/
def gBad (r : BitVec 7) : Bool := r.getLsbD 6

def uBad1 (u : Bool) (r1 r2 : BitVec 7) : Option Bool := bad1 (u && (gBad r1 || gBad r2))

def uBad3 (u : Bool) (r1 r2 r3 : BitVec 7) : Option Bool := bad1 (u && (gBad r1 || gBad r2 || gBad r3))

/-- Check 4 of R108: a uniform register field of 64 to 127. -/
def Instr.uniformBad : Instr → Option Bool
  | .iadd u d a b _ | .isub u d a b _ | .imul u d a b _ | .imulhS u d a b _ | .imulhZ u d a b _
  | .iminS u d a b _ | .iminZ u d a b _ | .imaxS u d a b _ | .imaxZ u d a b _ | .iaddsS u d a b _
  | .iaddsZ u d a b _ | .isubsS u d a b _ | .isubsZ u d a b _ => uBad3 u d a b
  | .iabs u d a _ | .ineg u d a _ => uBad1 u d a
  | .icmp u _ _ a b _ | .fcmp u _ _ a b _ => uBad1 u a b
  | .and u d a b _ | .or u d a b _ | .xor u d a b _ | .andn u d a b _ | .shl u d a b _ | .shrZ u d a b _
  | .shrS u d a b _ | .rotl u d a b _ => uBad3 u d a b
  | .popc u d a _ | .clz u d a _ | .brev u d a _ | .mov u d a _ => uBad1 u d a
  | .fadd u d a b _ | .fsub u d a b _ | .fmul u d a b _ | .fmin u d a b _ | .fmax u d a b _ => uBad3 u d a b
  | .fabs u d a _ | .fneg u d a _ | .frcp u d a _ | .frsq u d a _ | .fsqrt u d a _ | .fexp2 u d a _
  | .flog2 u d a _ | .fsin u d a _ | .fcos u d a _ | .frnd u d a _ _ | .fcvt u d a _ _ => uBad1 u d a
  | .fmac u d a b _ | .fdot2 u d a b _ | .imac u d a b _ | .idot4 u d a b | .hrnd u d a b => uBad3 u d a b
  | .ballot d _ => bad1 (gBad d)
  | .bcast d _ b => bad1 (gBad d || gBad b)
  | .lred d _ _ _ => bad1 (gBad d)
  | .pmovToReg u d => bad1 (u && gBad d)
  | .pmovFromReg u a => bad1 (u && gBad a)
  | .sread u d _ => bad1 (u && gBad d)
  | .iaddi u d a _ | .andi u d a _ | .ori u d a _ | .xori u d a _ | .shli u d a _ | .shriZ u d a _
  | .shriS u d a _ | .rotli u d a _ | .imuli u d a _ => uBad1 u d a
  | .movi u d _ => bad1 (u && gBad d)
  | .icmpi u _ _ a _ => bad1 (u && gBad a)
  | .ldZ8 u d a _ _ _ | .ldS8 u d a _ _ _ | .ldZ16 u d a _ _ _ | .ldS16 u d a _ _ _ | .ld32 u d a _ _ _
  | .ld64 u d a _ _ _ | .ld128 u d a _ _ _ | .st8 u d a _ _ _ | .st16 u d a _ _ _ | .st32 u d a _ _ _
  | .st64 u d a _ _ _ | .st128 u d a _ _ _ | .ldFe u d a _ _ _ | .stFe u d a _ _ _
  | .ldNc u d a _ _ _ => uBad1 u d a
  | .feSet u _ a _ _ _ => bad1 (u && gBad a)
  | .ldAcq u d a _ _ _ _ | .stRel u d a _ _ _ _ | .atom u d a _ _ _ _ | .atomNr u d a _ _ _ _ => uBad1 u d a
  | .atomCas u d a _ _ _ => uBad1 u d a
  | .pref u a _ _ => bad1 (u && gBad a)
  | .discard u d a _ _ => uBad1 u d a
  | .cmaint u a _ _ _ _ => bad1 (u && gBad a)
  | .fma u _ d a b c _ | .imad u _ d a b c _ | .fclamp u _ d a b c _ | .madW u d a b c _ _
  | .fmaMix u _ d a b c _ _ _ => badIn (u && (gBad d || gBad a)) (u && (gBad b || gBad c))
  | .sel u _ d a b _ | .bfi u _ d a b _ _ _ | .bmix u d a b _ _ _ | .lea u d a b _ _ _
  | .fcvtX u d a b _ _ _ _ _ _ _ => badIn (u && (gBad d || gBad a)) (u && gBad b)
  | .bfeS u _ d a _ _ _ | .bfeZ u _ d a _ _ _ => uBad1 u d a
  | .movi32 u d _ => bad1 (u && gBad d)
  | .iaddi32 u d a _ => uBad1 u d a
  | .cpy bar d a b c _ _ _ _ => badIn (gBad d || gBad a) (gBad b || (bar && gBad c))
  | .cpy2d d a b c _ _ _ _ => badIn (gBad d || gBad a) (gBad b || gBad c)
  | .cpyMx d a c _ _ _ _ => badIn (gBad d || gBad a) (gBad c)
  | .mloopIp a _ _ | .mloopOp a _ _ | .mloopRw a _ _ => bad1 (gBad a)
  | .mfill a b _ _ sp | .mdrain a b _ _ sp => badIn (gBad a) (sp && gBad b)
  | .rtrace _ _ b _ _ _ _ => badIn false (gBad b)
  | .rast _ c _ _ _ => badIn false (gBad c)
  | .emit dl _ c _ _ _ => badIn false (dl && gBad c)
  | .leave a => bad1 (gBad a)
  | .nodeq d _ _ _ => bad1 (gBad d)
  | _ => none

/-- Check 3 of R108, for a field that only another field's value puts out of use (R178, R183, R191). The other
must-be-zero bits are no fields of the instruction: the decoder looks at them. -/
def Instr.zeroIn : Instr → Option Bool
  | .cpy bar _ _ _ c _ _ _ _ => badIn false (!bar && c != 0)
  | .emit dl _ c _ _ _ => badIn false (!dl && c != 0)
  | .mfill _ b _ _ sp | .mdrain _ b _ _ sp => badIn false (!sp && b != 0)
  | _ => none

/-- The word that fails checks 2 to 4 of R108 on the instruction's own fields, in their order. -/
def Instr.illIn (i : Instr) : Option Bool :=
  match i.reservedIn with
  | some w => some w
  | none =>
    match i.zeroIn with
    | some w => some w
    | none => i.uniformBad

/-- An instruction whose own fields pass checks 2, 3 and 4 of R108. -/
def Instr.wellFormed (i : Instr) : Bool := i.illIn.isNone

end Sys2Proof
end

