-- ==== Sys2Proof/Decode.lean ====
section
/-! DEFINITION. The decoders: team words (R87 to R108), scalar words (R109 to R111, RISC-V) and compressed words; after
them the encoder, written from the same encoding tables. A word is an instruction when its fields pass checks 1 to 4
of R108 and every bit that no field holds is what the encoding says. -/

namespace Sys2Proof

/-- Why a word is no instruction, with the word of the pair that fails (R108). -/
inductive DecodeError where
  /-- check 1: a reserved class group, op or sub -/
  | reservedOp
  /-- check 2: a reserved value in a field -/
  | reservedField (second : Bool)
  /-- check 3: a bit that must be zero is not -/
  | notZero (second : Bool)
  /-- check 4: a uniform register field of 64 to 127 -/
  | uniformField (second : Bool)
  /-- a scalar word that is no instruction (R111) -/
  | scalarIllegal
  deriving DecidableEq, Repr

/-- The field of len bits at bit lo. -/
def fld {n : Nat} (w : BitVec n) (lo len : Nat) : BitVec len := w.extractLsb' lo len

/-- One bit of a word. -/
def bit {n : Nat} (w : BitVec n) (k : Nat) : Bool := w.getLsbD k

/-- The word of a sum of shifted fields. -/
def word (n : Nat) : W32 := BitVec.ofNat 32 n

/-! ## The encoder -/

/-- One RISC-V word in R layout. -/
def rvR (f7 : Nat) (rs2 rs1 : BitVec 5) (f3 : Nat) (rd : BitVec 5) (op : Nat) : W32 :=
  word (f7 * 0x2000000 + rs2.toNat * 0x100000 + rs1.toNat * 0x8000 + f3 * 0x1000 + rd.toNat * 0x80 + op)

/-- One RISC-V word in I layout. -/
def rvI (imm : BitVec 12) (rs1 : BitVec 5) (f3 : Nat) (rd : BitVec 5) (op : Nat) : W32 :=
  word (imm.toNat * 0x100000 + rs1.toNat * 0x8000 + f3 * 0x1000 + rd.toNat * 0x80 + op)

/-- One RISC-V word in S layout. -/
def rvS (imm : BitVec 12) (rs2 rs1 : BitVec 5) (f3 op : Nat) : W32 :=
  word ((fld imm 5 7).toNat * 0x2000000 + rs2.toNat * 0x100000 + rs1.toNat * 0x8000 + f3 * 0x1000
    + (fld imm 0 5).toNat * 0x80 + op)

/-- One RISC-V word in B layout. -/
def rvB (imm : BitVec 13) (rs2 rs1 : BitVec 5) (f3 : Nat) : W32 :=
  word ((fld imm 12 1).toNat * 0x80000000 + (fld imm 5 6).toNat * 0x2000000 + rs2.toNat * 0x100000
    + rs1.toNat * 0x8000 + f3 * 0x1000 + (fld imm 1 4).toNat * 0x100 + (fld imm 11 1).toNat * 0x80 + 0x63)

/-- One RISC-V word in J layout. -/
def rvJ (imm : BitVec 21) (rd : BitVec 5) : W32 :=
  word ((fld imm 20 1).toNat * 0x80000000 + (fld imm 1 10).toNat * 0x200000 + (fld imm 11 1).toNat * 0x100000
    + (fld imm 12 8).toNat * 0x1000 + rd.toNat * 0x80 + 0x6F)

/-- funct7, funct3 and opcode of an operation on two registers. -/
def RvAlu.code : RvAlu → Nat × Nat × Nat
  | .add => (0, 0, 0x33) | .sub => (32, 0, 0x33) | .sll => (0, 1, 0x33) | .slt => (0, 2, 0x33)
  | .sltu => (0, 3, 0x33) | .xor => (0, 4, 0x33) | .srl => (0, 5, 0x33) | .sra => (32, 5, 0x33)
  | .or => (0, 6, 0x33) | .and => (0, 7, 0x33)
  | .addw => (0, 0, 0x3B) | .subw => (32, 0, 0x3B) | .sllw => (0, 1, 0x3B) | .srlw => (0, 5, 0x3B)
  | .sraw => (32, 5, 0x3B)
  | .mul => (1, 0, 0x33) | .mulh => (1, 1, 0x33) | .mulhsu => (1, 2, 0x33) | .mulhu => (1, 3, 0x33)
  | .div => (1, 4, 0x33) | .divu => (1, 5, 0x33) | .rem => (1, 6, 0x33) | .remu => (1, 7, 0x33)
  | .mulw => (1, 0, 0x3B) | .divw => (1, 4, 0x3B) | .divuw => (1, 5, 0x3B) | .remw => (1, 6, 0x3B)
  | .remuw => (1, 7, 0x3B)
  | .addUw => (4, 0, 0x3B) | .sh1add => (16, 2, 0x33) | .sh2add => (16, 4, 0x33) | .sh3add => (16, 6, 0x33)
  | .sh1addUw => (16, 2, 0x3B) | .sh2addUw => (16, 4, 0x3B) | .sh3addUw => (16, 6, 0x3B)
  | .andn => (32, 7, 0x33) | .orn => (32, 6, 0x33) | .xnor => (32, 4, 0x33)
  | .max => (5, 6, 0x33) | .maxu => (5, 7, 0x33) | .min => (5, 4, 0x33) | .minu => (5, 5, 0x33)
  | .rol => (48, 1, 0x33) | .ror => (48, 5, 0x33) | .rolw => (48, 1, 0x3B) | .rorw => (48, 5, 0x3B)

/-- The upper twelve bits, funct3 and opcode of an operation on one register. -/
def RvUnary.code : RvUnary → Nat × Nat × Nat
  | .clz => (0x600, 1, 0x13) | .ctz => (0x601, 1, 0x13) | .cpop => (0x602, 1, 0x13)
  | .clzw => (0x600, 1, 0x1B) | .ctzw => (0x601, 1, 0x1B) | .cpopw => (0x602, 1, 0x1B)
  | .sextB => (0x604, 1, 0x13) | .sextH => (0x605, 1, 0x13) | .zextH => (0x080, 4, 0x3B)
  | .orcB => (0x287, 5, 0x13) | .rev8 => (0x6B8, 5, 0x13)

def RvImm.code : RvImm → Nat × Nat
  | .addi => (0, 0x13) | .slti => (2, 0x13) | .sltiu => (3, 0x13) | .xori => (4, 0x13) | .ori => (6, 0x13)
  | .andi => (7, 0x13) | .addiw => (0, 0x1B)

/-- The upper six bits, funct3 and opcode of a shift by an immediate. -/
def RvShift.code : RvShift → Nat × Nat × Nat
  | .slli => (0, 1, 0x13) | .srli => (0, 5, 0x13) | .srai => (16, 5, 0x13) | .rori => (24, 5, 0x13)
  | .slliw => (0, 1, 0x1B) | .srliw => (0, 5, 0x1B) | .sraiw => (16, 5, 0x1B) | .roriw => (24, 5, 0x1B)
  | .slliUw => (2, 1, 0x1B)

def RvBranch.code : RvBranch → Nat
  | .beq => 0 | .bne => 1 | .blt => 4 | .bge => 5 | .bltu => 6 | .bgeu => 7

def RvLoad.code : RvLoad → Nat
  | .lb => 0 | .lh => 1 | .lw => 2 | .ld => 3 | .lbu => 4 | .lhu => 5 | .lwu => 6

def RvStore.code : RvStore → Nat
  | .sb => 0 | .sh => 1 | .sw => 2 | .sd => 3

def RvCsr.code : RvCsr → Nat
  | .rw => 1 | .rs => 2 | .rc => 3

def RvFma.code : RvFma → Nat
  | .madd => 0x43 | .msub => 0x47 | .nmsub => 0x4B | .nmadd => 0x4F

/-- The upper five bits of funct7 and, where rm is part of the code, funct3. -/
def RvFop.code : RvFop → Nat × Option Nat
  | .add => (0, none) | .sub => (1, none) | .mul => (2, none) | .div => (3, none)
  | .sgnj => (4, some 0) | .sgnjn => (4, some 1) | .sgnjx => (4, some 2)
  | .min => (5, some 0) | .max => (5, some 1)

def RvFcmp.code : RvFcmp → Nat
  | .eq => 2 | .lt => 1 | .le => 0

def RvInt.code : RvInt → BitVec 5
  | .w => 0 | .wu => 1 | .l => 2 | .lu => 3

def AmoOp.code : AmoOp → Nat
  | .swap => 1 | .add => 0 | .xor => 4 | .and => 12 | .or => 8 | .min => 16 | .max => 20 | .minu => 24
  | .maxu => 28

/-- The RISC-V word of a base operation. -/
def RvOp.encode : RvOp → W32
  | .lui rd imm => word (imm.toNat * 0x1000 + rd.toNat * 0x80 + 0x37)
  | .auipc rd imm => word (imm.toNat * 0x1000 + rd.toNat * 0x80 + 0x17)
  | .jal rd imm => rvJ imm rd
  | .jalr rd rs1 imm => rvI imm rs1 0 rd 0x67
  | .branch k rs1 rs2 imm => rvB imm rs2 rs1 k.code
  | .load k rd rs1 imm => rvI imm rs1 k.code rd 0x03
  | .store k rs1 rs2 imm => rvS imm rs2 rs1 k.code 0x23
  | .alu k rd rs1 rs2 => rvR k.code.1 rs2 rs1 k.code.2.1 rd k.code.2.2
  | .unary k rd rs1 => rvI (BitVec.ofNat 12 k.code.1) rs1 k.code.2.1 rd k.code.2.2
  | .aluImm k rd rs1 imm => rvI imm rs1 k.code.1 rd k.code.2
  | .shift k rd rs1 sh => rvI (BitVec.ofNat 12 (k.code.1 * 64 + sh.toNat)) rs1 k.code.2.1 rd k.code.2.2
  | .csr k rd rs1 num => rvI num rs1 k.code rd 0x73
  | .csrI k rd z num => rvI num z (k.code + 4) rd 0x73
  | .fload dbl rd rs1 imm => rvI imm rs1 (if dbl then 3 else 2) rd 0x07
  | .fstore dbl rs1 rs2 imm => rvS imm rs2 rs1 (if dbl then 3 else 2) 0x27
  | .fma k dbl rm rd rs1 rs2 rs3 => rvR (rs3.toNat * 4 + dbl.toNat) rs2 rs1 rm.toNat rd k.code
  | .fop k dbl rm rd rs1 rs2 => rvR (k.code.1 * 4 + dbl.toNat) rs2 rs1 (k.code.2.getD rm.toNat) rd 0x53
  | .fsqrt dbl rm rd rs1 => rvR (0x2C + dbl.toNat) 0 rs1 rm.toNat rd 0x53
  | .fcmp k dbl rd rs1 rs2 => rvR (0x50 + dbl.toNat) rs2 rs1 k.code rd 0x53
  | .fclass dbl rd rs1 => rvR (0x70 + dbl.toNat) 0 rs1 1 rd 0x53
  | .fcvtToInt k dbl rm rd rs1 => rvR (0x60 + dbl.toNat) k.code rs1 rm.toNat rd 0x53
  | .fcvtFromInt k dbl rm rd rs1 => rvR (0x68 + dbl.toNat) k.code rs1 rm.toNat rd 0x53
  | .fcvtSD rm rd rs1 => rvR 0x20 1 rs1 rm.toNat rd 0x53
  | .fcvtDS rm rd rs1 => rvR 0x21 0 rs1 rm.toNat rd 0x53
  | .fmvToInt dbl rd rs1 => rvR (0x70 + dbl.toNat) 0 rs1 0 rd 0x53
  | .fmvFromInt dbl rd rs1 => rvR (0x78 + dbl.toNat) 0 rs1 0 rd 0x53

/-- The two words of the X class (R97). -/
def two (g op : Nat) (d a : BitVec 7) (m : Nat) (b c : BitVec 7) (gd : Guard) (f : Bool) (imm : Nat) : List W32 :=
  [word (0xC0000000 + g * 0x4000000 + op * 0x40000 + d.toNat * 0x800 + a.toNat * 0x10 + m),
   word (b.toNat * 0x2000000 + c.toNat * 0x40000 + gd.pred.toNat * 0x8000 + gd.neg.toNat * 0x4000
     + f.toNat * 0x2000 + imm)]

/-- m of an EXT word (R98). -/
def extM (u : Bool) (t : BitVec 2) : Nat := u.toNat * 8 + t.toNat

/-- No guard (R97). -/
def noGuard : Guard := Guard.mk 7 false

/-- The words of an instruction, the first word first; the steps that are no instruction words have none. -/
def encode : Instr → List W32
  | .iadd u d a b t => [word (0x00000000 + u.toNat * 0x20000000 + d.toNat * 0x10000 + a.toNat * 0x200 + b.toNat * 0x4 + t.toNat)]
  | .isub u d a b t => [word (0x00800000 + u.toNat * 0x20000000 + d.toNat * 0x10000 + a.toNat * 0x200 + b.toNat * 0x4 + t.toNat)]
  | .imul u d a b t => [word (0x01000000 + u.toNat * 0x20000000 + d.toNat * 0x10000 + a.toNat * 0x200 + b.toNat * 0x4 + t.toNat)]
  | .imulhS u d a b t => [word (0x01800000 + u.toNat * 0x20000000 + d.toNat * 0x10000 + a.toNat * 0x200 + b.toNat * 0x4 + t.toNat)]
  | .imulhZ u d a b t => [word (0x02000000 + u.toNat * 0x20000000 + d.toNat * 0x10000 + a.toNat * 0x200 + b.toNat * 0x4 + t.toNat)]
  | .iminS u d a b t => [word (0x02800000 + u.toNat * 0x20000000 + d.toNat * 0x10000 + a.toNat * 0x200 + b.toNat * 0x4 + t.toNat)]
  | .iminZ u d a b t => [word (0x03000000 + u.toNat * 0x20000000 + d.toNat * 0x10000 + a.toNat * 0x200 + b.toNat * 0x4 + t.toNat)]
  | .imaxS u d a b t => [word (0x03800000 + u.toNat * 0x20000000 + d.toNat * 0x10000 + a.toNat * 0x200 + b.toNat * 0x4 + t.toNat)]
  | .imaxZ u d a b t => [word (0x04000000 + u.toNat * 0x20000000 + d.toNat * 0x10000 + a.toNat * 0x200 + b.toNat * 0x4 + t.toNat)]
  | .iaddsS u d a b t => [word (0x04800000 + u.toNat * 0x20000000 + d.toNat * 0x10000 + a.toNat * 0x200 + b.toNat * 0x4 + t.toNat)]
  | .iaddsZ u d a b t => [word (0x05000000 + u.toNat * 0x20000000 + d.toNat * 0x10000 + a.toNat * 0x200 + b.toNat * 0x4 + t.toNat)]
  | .isubsS u d a b t => [word (0x05800000 + u.toNat * 0x20000000 + d.toNat * 0x10000 + a.toNat * 0x200 + b.toNat * 0x4 + t.toNat)]
  | .isubsZ u d a b t => [word (0x06000000 + u.toNat * 0x20000000 + d.toNat * 0x10000 + a.toNat * 0x200 + b.toNat * 0x4 + t.toNat)]
  | .iabs u d a t => [word (0x06800000 + u.toNat * 0x20000000 + d.toNat * 0x10000 + a.toNat * 0x200 + t.toNat)]
  | .ineg u d a t => [word (0x07000000 + u.toNat * 0x20000000 + d.toNat * 0x10000 + a.toNat * 0x200 + t.toNat)]
  | .icmp u c p a b t => [word (0x07800000 + u.toNat * 0x20000000 + c.toNat * 0x80000 + p.toNat * 0x10000 + a.toNat * 0x200 + b.toNat * 0x4 + t.toNat)]
  | .and u d a b t => [word (0x08000000 + u.toNat * 0x20000000 + d.toNat * 0x10000 + a.toNat * 0x200 + b.toNat * 0x4 + t.toNat)]
  | .or u d a b t => [word (0x08800000 + u.toNat * 0x20000000 + d.toNat * 0x10000 + a.toNat * 0x200 + b.toNat * 0x4 + t.toNat)]
  | .xor u d a b t => [word (0x09000000 + u.toNat * 0x20000000 + d.toNat * 0x10000 + a.toNat * 0x200 + b.toNat * 0x4 + t.toNat)]
  | .andn u d a b t => [word (0x09800000 + u.toNat * 0x20000000 + d.toNat * 0x10000 + a.toNat * 0x200 + b.toNat * 0x4 + t.toNat)]
  | .shl u d a b t => [word (0x0A000000 + u.toNat * 0x20000000 + d.toNat * 0x10000 + a.toNat * 0x200 + b.toNat * 0x4 + t.toNat)]
  | .shrZ u d a b t => [word (0x0A800000 + u.toNat * 0x20000000 + d.toNat * 0x10000 + a.toNat * 0x200 + b.toNat * 0x4 + t.toNat)]
  | .shrS u d a b t => [word (0x0B000000 + u.toNat * 0x20000000 + d.toNat * 0x10000 + a.toNat * 0x200 + b.toNat * 0x4 + t.toNat)]
  | .rotl u d a b t => [word (0x0B800000 + u.toNat * 0x20000000 + d.toNat * 0x10000 + a.toNat * 0x200 + b.toNat * 0x4 + t.toNat)]
  | .popc u d a t => [word (0x0C000000 + u.toNat * 0x20000000 + d.toNat * 0x10000 + a.toNat * 0x200 + t.toNat)]
  | .clz u d a t => [word (0x0C800000 + u.toNat * 0x20000000 + d.toNat * 0x10000 + a.toNat * 0x200 + t.toNat)]
  | .brev u d a t => [word (0x0D000000 + u.toNat * 0x20000000 + d.toNat * 0x10000 + a.toNat * 0x200 + t.toNat)]
  | .mov u d a t => [word (0x0D800000 + u.toNat * 0x20000000 + d.toNat * 0x10000 + a.toNat * 0x200 + t.toNat)]
  | .fadd u d a b t => [word (0x0E000000 + u.toNat * 0x20000000 + d.toNat * 0x10000 + a.toNat * 0x200 + b.toNat * 0x4 + t.toNat)]
  | .fsub u d a b t => [word (0x0E800000 + u.toNat * 0x20000000 + d.toNat * 0x10000 + a.toNat * 0x200 + b.toNat * 0x4 + t.toNat)]
  | .fmul u d a b t => [word (0x0F000000 + u.toNat * 0x20000000 + d.toNat * 0x10000 + a.toNat * 0x200 + b.toNat * 0x4 + t.toNat)]
  | .fmin u d a b t => [word (0x0F800000 + u.toNat * 0x20000000 + d.toNat * 0x10000 + a.toNat * 0x200 + b.toNat * 0x4 + t.toNat)]
  | .fmax u d a b t => [word (0x10000000 + u.toNat * 0x20000000 + d.toNat * 0x10000 + a.toNat * 0x200 + b.toNat * 0x4 + t.toNat)]
  | .fabs u d a t => [word (0x10800000 + u.toNat * 0x20000000 + d.toNat * 0x10000 + a.toNat * 0x200 + t.toNat)]
  | .fneg u d a t => [word (0x11000000 + u.toNat * 0x20000000 + d.toNat * 0x10000 + a.toNat * 0x200 + t.toNat)]
  | .fcmp u c p a b t => [word (0x11800000 + u.toNat * 0x20000000 + c.toNat * 0x80000 + p.toNat * 0x10000 + a.toNat * 0x200 + b.toNat * 0x4 + t.toNat)]
  | .frcp u d a t => [word (0x12000000 + u.toNat * 0x20000000 + d.toNat * 0x10000 + a.toNat * 0x200 + t.toNat)]
  | .frsq u d a t => [word (0x12800000 + u.toNat * 0x20000000 + d.toNat * 0x10000 + a.toNat * 0x200 + t.toNat)]
  | .fsqrt u d a t => [word (0x13000000 + u.toNat * 0x20000000 + d.toNat * 0x10000 + a.toNat * 0x200 + t.toNat)]
  | .fexp2 u d a t => [word (0x13800000 + u.toNat * 0x20000000 + d.toNat * 0x10000 + a.toNat * 0x200 + t.toNat)]
  | .flog2 u d a t => [word (0x14000000 + u.toNat * 0x20000000 + d.toNat * 0x10000 + a.toNat * 0x200 + t.toNat)]
  | .fsin u d a t => [word (0x14800000 + u.toNat * 0x20000000 + d.toNat * 0x10000 + a.toNat * 0x200 + t.toNat)]
  | .fcos u d a t => [word (0x15000000 + u.toNat * 0x20000000 + d.toNat * 0x10000 + a.toNat * 0x200 + t.toNat)]
  | .frnd u d a m t => [word (0x15800000 + u.toNat * 0x20000000 + d.toNat * 0x10000 + a.toNat * 0x200 + m.toNat * 0x4 + t.toNat)]
  | .fcvt u d a c m => [word (0x16000000 + u.toNat * 0x20000000 + d.toNat * 0x10000 + a.toNat * 0x200 + c.toNat * 0x20 + m.toNat * 0x4)]
  | .fmac u d a b t => [word (0x16800000 + u.toNat * 0x20000000 + d.toNat * 0x10000 + a.toNat * 0x200 + b.toNat * 0x4 + t.toNat)]
  | .fdot2 u d a b t => [word (0x17000000 + u.toNat * 0x20000000 + d.toNat * 0x10000 + a.toNat * 0x200 + b.toNat * 0x4 + t.toNat)]
  | .imac u d a b t => [word (0x17800000 + u.toNat * 0x20000000 + d.toNat * 0x10000 + a.toNat * 0x200 + b.toNat * 0x4 + t.toNat)]
  | .idot4 u d a b => [word (0x18000002 + u.toNat * 0x20000000 + d.toNat * 0x10000 + a.toNat * 0x200 + b.toNat * 0x4)]
  | .lpickIdx d a b => [word (0x18800000 + d.toNat * 0x10000 + a.toNat * 0x200 + b.toNat * 0x4)]
  | .lpickXor d a b => [word (0x19000000 + d.toNat * 0x10000 + a.toNat * 0x200 + b.toNat * 0x4)]
  | .lpickRot d a b => [word (0x19800000 + d.toNat * 0x10000 + a.toNat * 0x200 + b.toNat * 0x4)]
  | .lpickFill d a b => [word (0x1A000000 + d.toNat * 0x10000 + a.toNat * 0x200 + b.toNat * 0x4)]
  | .ballot d p => [word (0x1A800000 + d.toNat * 0x10000 + p.toNat * 0x200)]
  | .bcast d a b => [word (0x1B000000 + d.toNat * 0x10000 + a.toNat * 0x200 + b.toNat * 0x4)]
  | .agree m g p => [word (0x1B800000 + m.toNat * 0x80000 + g.toNat * 0x10000 + p.toNat * 0x200)]
  | .lred d a b t => [word (0x1C000000 + d.toNat * 0x10000 + a.toNat * 0x200 + b.toNat * 0x4 + t.toNat)]
  | .plog u f d a b => [word (0x1C800000 + u.toNat * 0x20000000 + f.toNat * 0x80000 + d.toNat * 0x10000 + a.toNat * 0x200 + b.toNat * 0x4)]
  | .pmovToReg u d => [word (0x1D000000 + u.toNat * 0x20000000 + d.toNat * 0x10000)]
  | .pmovFromReg u a => [word (0x1D000001 + u.toNat * 0x20000000 + a.toNat * 0x200)]
  | .hrnd u d a b => [word (0x1D800000 + u.toNat * 0x20000000 + d.toNat * 0x10000 + a.toNat * 0x200 + b.toNat * 0x4)]
  | .sread u d a => [word (0x1E000000 + u.toNat * 0x20000000 + d.toNat * 0x10000 + a.toNat * 0x200)]
  | .iaddi u d a i => [word (0x40000000 + u.toNat * 0x20000000 + d.toNat * 0x20000 + a.toNat * 0x400 + i.toNat)]
  | .andi u d a i => [word (0x41000000 + u.toNat * 0x20000000 + d.toNat * 0x20000 + a.toNat * 0x400 + i.toNat)]
  | .ori u d a i => [word (0x42000000 + u.toNat * 0x20000000 + d.toNat * 0x20000 + a.toNat * 0x400 + i.toNat)]
  | .xori u d a i => [word (0x43000000 + u.toNat * 0x20000000 + d.toNat * 0x20000 + a.toNat * 0x400 + i.toNat)]
  | .shli u d a c => [word (0x44000000 + u.toNat * 0x20000000 + d.toNat * 0x20000 + a.toNat * 0x400 + c.toNat)]
  | .shriZ u d a c => [word (0x45000000 + u.toNat * 0x20000000 + d.toNat * 0x20000 + a.toNat * 0x400 + c.toNat)]
  | .shriS u d a c => [word (0x46000000 + u.toNat * 0x20000000 + d.toNat * 0x20000 + a.toNat * 0x400 + c.toNat)]
  | .rotli u d a c => [word (0x47000000 + u.toNat * 0x20000000 + d.toNat * 0x20000 + a.toNat * 0x400 + c.toNat)]
  | .imuli u d a i => [word (0x48000000 + u.toNat * 0x20000000 + d.toNat * 0x20000 + a.toNat * 0x400 + i.toNat)]
  | .movi u d i => [word (0x49000000 + u.toNat * 0x20000000 + d.toNat * 0x20000 + i.toNat)]
  | .icmpi u c p a i => [word (0x4A000000 + u.toNat * 0x20000000 + c.toNat * 0x100000 + p.toNat * 0x20000 + a.toNat * 0x400 + i.toNat)]
  | .lpickiIdx d a k => [word (0x4B000000 + d.toNat * 0x20000 + a.toNat * 0x400 + k.toNat)]
  | .lpickiXor d a k => [word (0x4C000000 + d.toNat * 0x20000 + a.toNat * 0x400 + k.toNat)]
  | .lpickiRot d a k => [word (0x4D000000 + d.toNat * 0x20000 + a.toNat * 0x400 + k.toNat)]
  | .lpickiFill d a k => [word (0x4E000000 + d.toNat * 0x20000 + a.toNat * 0x400 + k.toNat)]
  | .ldZ8 u d a s f o => [word (0x80000000 + u.toNat * 0x20000000 + d.toNat * 0x20000 + a.toNat * 0x400 + s.toNat * 0x80 + f.toNat * 0x40 + o.toNat)]
  | .ldS8 u d a s f o => [word (0x81000000 + u.toNat * 0x20000000 + d.toNat * 0x20000 + a.toNat * 0x400 + s.toNat * 0x80 + f.toNat * 0x40 + o.toNat)]
  | .ldZ16 u d a s f o => [word (0x82000000 + u.toNat * 0x20000000 + d.toNat * 0x20000 + a.toNat * 0x400 + s.toNat * 0x80 + f.toNat * 0x40 + o.toNat)]
  | .ldS16 u d a s f o => [word (0x83000000 + u.toNat * 0x20000000 + d.toNat * 0x20000 + a.toNat * 0x400 + s.toNat * 0x80 + f.toNat * 0x40 + o.toNat)]
  | .ld32 u d a s f o => [word (0x84000000 + u.toNat * 0x20000000 + d.toNat * 0x20000 + a.toNat * 0x400 + s.toNat * 0x80 + f.toNat * 0x40 + o.toNat)]
  | .ld64 u d a s f o => [word (0x85000000 + u.toNat * 0x20000000 + d.toNat * 0x20000 + a.toNat * 0x400 + s.toNat * 0x80 + f.toNat * 0x40 + o.toNat)]
  | .ld128 u d a s f o => [word (0x86000000 + u.toNat * 0x20000000 + d.toNat * 0x20000 + a.toNat * 0x400 + s.toNat * 0x80 + f.toNat * 0x40 + o.toNat)]
  | .st8 u d a s f o => [word (0x87000000 + u.toNat * 0x20000000 + d.toNat * 0x20000 + a.toNat * 0x400 + s.toNat * 0x80 + f.toNat * 0x40 + o.toNat)]
  | .st16 u d a s f o => [word (0x88000000 + u.toNat * 0x20000000 + d.toNat * 0x20000 + a.toNat * 0x400 + s.toNat * 0x80 + f.toNat * 0x40 + o.toNat)]
  | .st32 u d a s f o => [word (0x89000000 + u.toNat * 0x20000000 + d.toNat * 0x20000 + a.toNat * 0x400 + s.toNat * 0x80 + f.toNat * 0x40 + o.toNat)]
  | .st64 u d a s f o => [word (0x8A000000 + u.toNat * 0x20000000 + d.toNat * 0x20000 + a.toNat * 0x400 + s.toNat * 0x80 + f.toNat * 0x40 + o.toNat)]
  | .st128 u d a s f o => [word (0x8B000000 + u.toNat * 0x20000000 + d.toNat * 0x20000 + a.toNat * 0x400 + s.toNat * 0x80 + f.toNat * 0x40 + o.toNat)]
  | .ldFe u d a s f o => [word (0x8C000000 + u.toNat * 0x20000000 + d.toNat * 0x20000 + a.toNat * 0x400 + s.toNat * 0x80 + f.toNat * 0x40 + o.toNat)]
  | .stFe u d a s f o => [word (0x8D000000 + u.toNat * 0x20000000 + d.toNat * 0x20000 + a.toNat * 0x400 + s.toNat * 0x80 + f.toNat * 0x40 + o.toNat)]
  | .feSet u d a s f o => [word (0x8E000000 + u.toNat * 0x20000000 + d.toNat * 0x20000 + a.toNat * 0x400 + s.toNat * 0x80 + f.toNat * 0x40 + o.toNat)]
  | .ldAcq u d a s f e z => [word (0x8F000000 + u.toNat * 0x20000000 + d.toNat * 0x20000 + a.toNat * 0x400 + s.toNat * 0x80 + f.toNat * 0x40 + e.toNat * 0x8 + z.toNat)]
  | .stRel u d a s f e z => [word (0x90000000 + u.toNat * 0x20000000 + d.toNat * 0x20000 + a.toNat * 0x400 + s.toNat * 0x80 + f.toNat * 0x40 + e.toNat * 0x8 + z.toNat)]
  | .atom u d a s f k z => [word (0x91000000 + u.toNat * 0x20000000 + d.toNat * 0x20000 + a.toNat * 0x400 + s.toNat * 0x80 + f.toNat * 0x40 + k.toNat * 0x4 + z.toNat)]
  | .atomNr u d a s f k z => [word (0x92000000 + u.toNat * 0x20000000 + d.toNat * 0x20000 + a.toNat * 0x400 + s.toNat * 0x80 + f.toNat * 0x40 + k.toNat * 0x4 + z.toNat)]
  | .atomCas u d a s f z => [word (0x93000000 + u.toNat * 0x20000000 + d.toNat * 0x20000 + a.toNat * 0x400 + s.toNat * 0x80 + f.toNat * 0x40 + z.toNat)]
  | .pref u a s o => [word (0x94000000 + u.toNat * 0x20000000 + a.toNat * 0x400 + s.toNat * 0x80 + o.toNat)]
  | .discard u d a s f => [word (0x95000000 + u.toNat * 0x20000000 + d.toNat * 0x20000 + a.toNat * 0x400 + s.toNat * 0x80 + f.toNat * 0x40)]
  | .cmaint u a s f k e => [word (0x96000000 + u.toNat * 0x20000000 + a.toNat * 0x400 + s.toNat * 0x80 + f.toNat * 0x40 + k.toNat * 0x8 + e.toNat)]
  | .ldNc u d a s f o => [word (0x97000000 + u.toNat * 0x20000000 + d.toNat * 0x20000 + a.toNat * 0x400 + s.toNat * 0x80 + f.toNat * 0x40 + o.toNat)]
  | .bra p n i => [word (0xC0000000 + p.toNat * 0x80000 + n.toNat * 0x40000 + i.toNat)]
  | .braU p n i => [word (0xC0400000 + p.toNat * 0x80000 + n.toNat * 0x40000 + i.toNat)]
  | .braD p n i => [word (0xC0800000 + p.toNat * 0x80000 + n.toNat * 0x40000 + i.toNat)]
  | .div i => [word (0xC0F80000 + i.toNat)]
  | .call i => [word (0xC1380000 + i.toNat)]
  | .loop p i => [word (0xC1400000 + p.toNat * 0x80000 + i.toNat)]
  | .braAny p n i => [word (0xC1800000 + p.toNat * 0x80000 + n.toNat * 0x40000 + i.toNat)]
  | .braAll p n i => [word (0xC1C00000 + p.toNat * 0x80000 + n.toNat * 0x40000 + i.toNat)]
  | .join => [word (0xC4000000)]
  | .ret => [word (0xC4400000)]
  | .exit => [word (0xC4800000)]
  | .yield => [word (0xC4C00000)]
  | .nop => [word (0xC5000000)]
  | .jmpu a => [word (0xC5400000 + a.toNat * 0x10000)]
  | .trap c => [word (0xC5800000 + c.toNat)]
  | .sbarArv a => [word (0xC5C00000 + a.toNat * 0x10000)]
  | .sbarWt a h => [word (0xC6000000 + a.toNat * 0x10000 + h.toNat * 0x8000)]
  | .brk => [word (0xC6400000)]
  | .sgnar n g r => [word (0xC6800000 + n.toNat * 0x80000 + g.toNat * 0x2000 + r.toNat * 0x100)]
  | .fenceX f t s => [word (0xC6C00000 + f.toNat * 0x80000 + t.toNat * 0x10000 + s.toNat * 0x2000)]
  | .csrr d n => [word (0xE4000000 + d.toNat * 0x10000 + n.toNat)]
  | .csrw d n => [word (0xE4400000 + d.toNat * 0x10000 + n.toNat)]
  | .csrs d n => [word (0xE4800000 + d.toNat * 0x10000 + n.toNat)]
  | .csrc d n => [word (0xE4C00000 + d.toNat * 0x10000 + n.toNat)]
  | .tpark a d => [word (0xE5000000 + a.toNat * 0x10000 + d.toNat * 0x400)]
  | .tkill c => [word (0xE5400000 + c.toNat)]
  | .eret => [word (0xE5800000)]
  | .rpt l c d a b => [word (0xE8000000 + l.toNat * 0x400000 + c.toNat * 0x10000 + d.toNat * 0x1000 + a.toNat * 0x100 + b.toNat * 0x10)]
  | .hdr w a b l h => [word (0xFC000000 + w.toNat * 0x4000 + a.toNat * 0x400 + b.toNat * 0x40 + l.toNat * 0x4 + h.toNat)]
  | .xpost t s d => [word (0x0000000B + t.toNat * 0x100000 + s.toNat * 0x8000 + d.toNat * 0x80)]
  | .xpostn t s d => [word (0x0200000B + t.toNat * 0x100000 + s.toNat * 0x8000 + d.toNat * 0x80)]
  | .xsend t s d => [word (0x0400000B + t.toNat * 0x100000 + s.toNat * 0x8000 + d.toNat * 0x80)]
  | .xspawnm t s d => [word (0x0600000B + t.toNat * 0x100000 + s.toNat * 0x8000 + d.toNat * 0x80)]
  | .xrecv d => [word (0x0800000B + d.toNat * 0x80)]
  | .xwait s d => [word (0x0A00000B + s.toNat * 0x8000 + d.toNat * 0x80)]
  | .xevt s d => [word (0x0C00000B + s.toNat * 0x8000 + d.toNat * 0x80)]
  | .xmig s => [word (0x0E00000B + s.toNat * 0x8000)]
  | .xnodeq s d => [word (0x1000000B + s.toNat * 0x8000 + d.toNat * 0x80)]
  | .xspawn t s d => [word (0x0000002B + t.toNat * 0x100000 + s.toNat * 0x8000 + d.toNat * 0x80)]
  | .xrange t s d => [word (0x0200002B + t.toNat * 0x100000 + s.toNat * 0x8000 + d.toNat * 0x80)]
  | .xpop s d => [word (0x0400002B + s.toNat * 0x8000 + d.toNat * 0x80)]
  | .xsplit t s d => [word (0x0600002B + t.toNat * 0x100000 + s.toNat * 0x8000 + d.toNat * 0x80)]
  | .xjoin s d => [word (0x0800002B + s.toNat * 0x8000 + d.toNat * 0x80)]
  | .xsteal d => [word (0x0A00002B + d.toNat * 0x80)]
  | .xyield s => [word (0x0C00002B + s.toNat * 0x8000)]
  | .xsdom s d => [word (0x0E00002B + s.toNat * 0x8000 + d.toNat * 0x80)]
  | .xldfe s d => [word (0x0000005B + s.toNat * 0x8000 + d.toNat * 0x80)]
  | .xstfe t s => [word (0x0200005B + t.toNat * 0x100000 + s.toNat * 0x8000)]
  | .xfeset t s => [word (0x0400005B + t.toNat * 0x100000 + s.toNat * 0x8000)]
  | .xlda e z s d => [word (0x0600005B + e.toNat * 0x400000 + z.toNat * 0x100000 + s.toNat * 0x8000 + d.toNat * 0x80)]
  | .xstr t s e z => [word (0x0800005B + t.toNat * 0x100000 + s.toNat * 0x8000 + e.toNat * 0x200 + z.toNat * 0x80)]
  | .xdiscard t s => [word (0x0A00005B + t.toNat * 0x100000 + s.toNat * 0x8000)]
  | .xsgnar t s n => [word (0x0C00005B + t.toNat * 0x100000 + s.toNat * 0x8000 + n.toNat * 0x80)]
  | .xsgrd s d => [word (0x0E00005B + s.toNat * 0x8000 + d.toNat * 0x80)]
  | .xcmaint k e s => [word (0x1000005B + k.toNat * 0x800000 + e.toNat * 0x100000 + s.toNat * 0x8000)]
  | .xfence f g c => [word (0x0000105B + f.toNat * 0x20000000 + g.toNat * 0x4000000 + c.toNat * 0x800000)]
  | .xfmt t s => [word (0x0000007B + t.toNat * 0x100000 + s.toNat * 0x8000)]
  | .xenergy s d => [word (0x0200007B + s.toNat * 0x8000 + d.toNat * 0x80)]
  | .xsread s d => [word (0x0400007B + s.toNat * 0x8000 + d.toNat * 0x80)]
  | .xtimer s d => [word (0x1000007B + s.toNat * 0x8000 + d.toNat * 0x80)]
  | .xslotQuery s d => [word (0x1200007B + s.toNat * 0x8000 + d.toNat * 0x80)]
  | .xslotStop s d => [word (0x1200007B + s.toNat * 0x8000 + d.toNat * 0x80)]
  | .xslotRelease s d => [word (0x1200007B + s.toNat * 0x8000 + d.toNat * 0x80)]
  | .xslotOpen s d => [word (0x1200007B + s.toNat * 0x8000 + d.toNat * 0x80)]
  | .xslotClose s d => [word (0x1200007B + s.toNat * 0x8000 + d.toNat * 0x80)]
  | .xslotVacate s d => [word (0x1200007B + s.toNat * 0x8000 + d.toNat * 0x80)]
  | .xctxSv t s d => [word (0x1400007B + t.toNat * 0x100000 + s.toNat * 0x8000 + d.toNat * 0x80)]
  | .xctxLd t s d => [word (0x1600007B + t.toNat * 0x100000 + s.toNat * 0x8000 + d.toNat * 0x80)]
  | .xkret d => [word (0x1800007B + d.toNat * 0x80)]
  | .xsgset t s n => [word (0x1A00007B + t.toNat * 0x100000 + s.toNat * 0x8000 + n.toNat * 0x80)]
  | .xtlbi t s => [word (0x1C00007B + t.toNat * 0x100000 + s.toNat * 0x8000)]
  | .xpeek s d => [word (0x1E00007B + s.toNat * 0x8000 + d.toNat * 0x80)]
  | .xpoke t s => [word (0x2000007B + t.toNat * 0x100000 + s.toNat * 0x8000)]
  | .fma u t d a b c gd => two 4 0 d a (extM u t) b c gd false 0
  | .imad u t d a b c gd => two 4 1 d a (extM u t) b c gd false 0
  | .sel u t d a b gd => two 4 2 d a (extM u t) b 0 gd false 0
  | .bfeS u t d a gd len pos => two 4 3 d a (extM u t) 0 0 gd false (len.toNat * 64 + pos.toNat)
  | .bfeZ u t d a gd len pos => two 4 4 d a (extM u t) 0 0 gd false (len.toNat * 64 + pos.toNat)
  | .bfi u t d a b gd len pos => two 4 5 d a (extM u t) b 0 gd false (len.toNat * 64 + pos.toNat)
  | .bmix u d a b gd zb sel => two 4 6 d a (extM u 0) b 0 gd false (zb.toNat * 0x1000 + sel.toNat)
  | .movi32 u d imm => [word (0xD01C0000 + d.toNat * 0x800 + u.toNat * 8), imm]
  | .iaddi32 u d a imm => [word (0xD0200000 + d.toNat * 0x800 + a.toNat * 0x10 + u.toNat * 8), imm]
  | .fcvtX u d a b di si gd sat mode dst src =>
    two 4 9 d a (extM u 0) b (BitVec.ofNat 7 (di.toNat * 8 + si.toNat)) gd false
      (sat.toNat * 0x800 + mode.toNat * 0x100 + dst.toNat * 0x10 + src.toNat)
  | .fclamp u t d a b c gd => two 4 10 d a (extM u t) b c gd false 0
  | .lea u d a b gd sx sh => two 4 11 d a (extM u 3) b 0 gd false (sx.toNat * 8 + sh.toNat)
  | .madW u d a b c gd sx => two 4 12 d a (extM u 0) b c gd false sx.toNat
  | .fmaMix u t d a b c gd j i => two 4 13 d a (extM u t) b c gd false (j.toNat * 2 + i.toNat)
  | .cpy bar d a b c gd f ds ss => two 5 0 d a bar.toNat b c gd f (ds.toNat * 8 + ss.toNat)
  | .cpy2d d a b c gd f ds ss => two 5 1 d a 0 b c gd f (ds.toNat * 8 + ss.toNat)
  | .cpyMx d a c gd f ds ss => two 5 4 d a 0 0 c gd f (ds.toNat * 8 + ss.toNat)
  | .gath d a gd f z s => two 5 2 d a 0 0 0 gd f (z.toNat * 8 + s.toNat)
  | .scat d a gd f z s => two 5 3 d a 0 0 0 gd f (z.toNat * 8 + s.toNat)
  | .mloopIp a gd f => two 6 0 0 a 0 0 0 gd f 0
  | .mloopOp a gd f => two 6 0 0 a 1 0 0 gd f 0
  | .mloopRw a gd f => two 6 0 0 a 2 0 0 gd f 0
  | .mfill a b gd f sp => two 6 1 0 a 0 b 0 gd f sp.toNat
  | .mdrain a b gd f sp => two 6 2 0 a 0 b 0 gd f sp.toNat
  | .mzero gd f bank => two 6 3 0 0 0 0 0 gd f bank.toNat
  | .rtrace d a b gd f h s => two 7 0 d a 0 b 0 gd f (h.toNat * 8 + s.toNat)
  | .rcommit d p gd f => two 7 1 d (p.setWidth 7) 0 0 0 gd f 0
  | .rgen gd f off e h => two 7 2 0 0 0 0 0 gd f (off.toNat * 0x800 + e.toNat * 0x10 + h.toNat)
  | .tclass d a p gd => two 7 3 d a 0 0 (p.setWidth 7) gd false 0
  | .rast a c gd f node => two 7 4 0 a 0 0 c gd f node.toNat
  | .emit dl a c gd q node => two 8 0 0 a dl.toNat 0 c gd false (q.toNat * 64 + node.toNat)
  | .regroup node k => two 8 1 (node.setWidth 7) 0 0 0 0 noGuard false k.toNat
  | .leave a => two 8 2 0 a 0 0 0 noGuard false 0
  | .nodeq d gd f node => two 8 3 d 0 0 0 0 gd f node.toNat
  | .riscvBaseOp op => [op.encode]
  | .fence fm p q => [word (fm.toNat * 0x10000000 + p.toNat * 0x1000000 + q.toNat * 0x100000 + 0x0F)]
  | .fenceI => [word 0x100F]
  | .amo k dbl aq rl rd rs1 rs2 =>
    [rvR (k.code * 4 + aq.toNat * 2 + rl.toNat) rs2 rs1 (if dbl then 3 else 2) rd 0x2F]
  | .lr dbl aq rl rd rs1 => [rvR (8 + aq.toNat * 2 + rl.toNat) 0 rs1 (if dbl then 3 else 2) rd 0x2F]
  | .sc dbl aq rl rd rs1 rs2 => [rvR (12 + aq.toNat * 2 + rl.toNat) rs2 rs1 (if dbl then 3 else 2) rd 0x2F]
  | .ecall => [word 0x73]
  | .ebreak => [word 0x100073]
  | .wfi => [word 0x10500073]
  | _ => []

/-! ## Team words -/

/-- The R class (R91). -/
def rawR (w : W32) : Except DecodeError Instr :=
  match (fld w 23 6).toNat with
  | 0 => .ok (.iadd (bit w 29) (fld w 16 7) (fld w 9 7) (fld w 2 7) (fld w 0 2))
  | 1 => .ok (.isub (bit w 29) (fld w 16 7) (fld w 9 7) (fld w 2 7) (fld w 0 2))
  | 2 => .ok (.imul (bit w 29) (fld w 16 7) (fld w 9 7) (fld w 2 7) (fld w 0 2))
  | 3 => .ok (.imulhS (bit w 29) (fld w 16 7) (fld w 9 7) (fld w 2 7) (fld w 0 2))
  | 4 => .ok (.imulhZ (bit w 29) (fld w 16 7) (fld w 9 7) (fld w 2 7) (fld w 0 2))
  | 5 => .ok (.iminS (bit w 29) (fld w 16 7) (fld w 9 7) (fld w 2 7) (fld w 0 2))
  | 6 => .ok (.iminZ (bit w 29) (fld w 16 7) (fld w 9 7) (fld w 2 7) (fld w 0 2))
  | 7 => .ok (.imaxS (bit w 29) (fld w 16 7) (fld w 9 7) (fld w 2 7) (fld w 0 2))
  | 8 => .ok (.imaxZ (bit w 29) (fld w 16 7) (fld w 9 7) (fld w 2 7) (fld w 0 2))
  | 9 => .ok (.iaddsS (bit w 29) (fld w 16 7) (fld w 9 7) (fld w 2 7) (fld w 0 2))
  | 10 => .ok (.iaddsZ (bit w 29) (fld w 16 7) (fld w 9 7) (fld w 2 7) (fld w 0 2))
  | 11 => .ok (.isubsS (bit w 29) (fld w 16 7) (fld w 9 7) (fld w 2 7) (fld w 0 2))
  | 12 => .ok (.isubsZ (bit w 29) (fld w 16 7) (fld w 9 7) (fld w 2 7) (fld w 0 2))
  | 13 => .ok (.iabs (bit w 29) (fld w 16 7) (fld w 9 7) (fld w 0 2))
  | 14 => .ok (.ineg (bit w 29) (fld w 16 7) (fld w 9 7) (fld w 0 2))
  | 15 => .ok (.icmp (bit w 29) (fld w 19 4) (fld w 16 3) (fld w 9 7) (fld w 2 7) (fld w 0 2))
  | 16 => .ok (.and (bit w 29) (fld w 16 7) (fld w 9 7) (fld w 2 7) (fld w 0 2))
  | 17 => .ok (.or (bit w 29) (fld w 16 7) (fld w 9 7) (fld w 2 7) (fld w 0 2))
  | 18 => .ok (.xor (bit w 29) (fld w 16 7) (fld w 9 7) (fld w 2 7) (fld w 0 2))
  | 19 => .ok (.andn (bit w 29) (fld w 16 7) (fld w 9 7) (fld w 2 7) (fld w 0 2))
  | 20 => .ok (.shl (bit w 29) (fld w 16 7) (fld w 9 7) (fld w 2 7) (fld w 0 2))
  | 21 => .ok (.shrZ (bit w 29) (fld w 16 7) (fld w 9 7) (fld w 2 7) (fld w 0 2))
  | 22 => .ok (.shrS (bit w 29) (fld w 16 7) (fld w 9 7) (fld w 2 7) (fld w 0 2))
  | 23 => .ok (.rotl (bit w 29) (fld w 16 7) (fld w 9 7) (fld w 2 7) (fld w 0 2))
  | 24 => .ok (.popc (bit w 29) (fld w 16 7) (fld w 9 7) (fld w 0 2))
  | 25 => .ok (.clz (bit w 29) (fld w 16 7) (fld w 9 7) (fld w 0 2))
  | 26 => .ok (.brev (bit w 29) (fld w 16 7) (fld w 9 7) (fld w 0 2))
  | 27 => .ok (.mov (bit w 29) (fld w 16 7) (fld w 9 7) (fld w 0 2))
  | 28 => .ok (.fadd (bit w 29) (fld w 16 7) (fld w 9 7) (fld w 2 7) (fld w 0 2))
  | 29 => .ok (.fsub (bit w 29) (fld w 16 7) (fld w 9 7) (fld w 2 7) (fld w 0 2))
  | 30 => .ok (.fmul (bit w 29) (fld w 16 7) (fld w 9 7) (fld w 2 7) (fld w 0 2))
  | 31 => .ok (.fmin (bit w 29) (fld w 16 7) (fld w 9 7) (fld w 2 7) (fld w 0 2))
  | 32 => .ok (.fmax (bit w 29) (fld w 16 7) (fld w 9 7) (fld w 2 7) (fld w 0 2))
  | 33 => .ok (.fabs (bit w 29) (fld w 16 7) (fld w 9 7) (fld w 0 2))
  | 34 => .ok (.fneg (bit w 29) (fld w 16 7) (fld w 9 7) (fld w 0 2))
  | 35 => .ok (.fcmp (bit w 29) (fld w 19 4) (fld w 16 3) (fld w 9 7) (fld w 2 7) (fld w 0 2))
  | 36 => .ok (.frcp (bit w 29) (fld w 16 7) (fld w 9 7) (fld w 0 2))
  | 37 => .ok (.frsq (bit w 29) (fld w 16 7) (fld w 9 7) (fld w 0 2))
  | 38 => .ok (.fsqrt (bit w 29) (fld w 16 7) (fld w 9 7) (fld w 0 2))
  | 39 => .ok (.fexp2 (bit w 29) (fld w 16 7) (fld w 9 7) (fld w 0 2))
  | 40 => .ok (.flog2 (bit w 29) (fld w 16 7) (fld w 9 7) (fld w 0 2))
  | 41 => .ok (.fsin (bit w 29) (fld w 16 7) (fld w 9 7) (fld w 0 2))
  | 42 => .ok (.fcos (bit w 29) (fld w 16 7) (fld w 9 7) (fld w 0 2))
  | 43 => .ok (.frnd (bit w 29) (fld w 16 7) (fld w 9 7) (fld w 2 3) (fld w 0 2))
  | 44 => .ok (.fcvt (bit w 29) (fld w 16 7) (fld w 9 7) (fld w 5 4) (fld w 2 3))
  | 45 => .ok (.fmac (bit w 29) (fld w 16 7) (fld w 9 7) (fld w 2 7) (fld w 0 2))
  | 46 => .ok (.fdot2 (bit w 29) (fld w 16 7) (fld w 9 7) (fld w 2 7) (fld w 0 2))
  | 47 => .ok (.imac (bit w 29) (fld w 16 7) (fld w 9 7) (fld w 2 7) (fld w 0 2))
  | 48 => if fld w 0 2 = 2 then .ok (.idot4 (bit w 29) (fld w 16 7) (fld w 9 7) (fld w 2 7)) else .error (.reservedField false)
  | 49 => .ok (.lpickIdx (fld w 16 7) (fld w 9 7) (fld w 2 7))
  | 50 => .ok (.lpickXor (fld w 16 7) (fld w 9 7) (fld w 2 7))
  | 51 => .ok (.lpickRot (fld w 16 7) (fld w 9 7) (fld w 2 7))
  | 52 => .ok (.lpickFill (fld w 16 7) (fld w 9 7) (fld w 2 7))
  | 53 => .ok (.ballot (fld w 16 7) (fld w 9 3))
  | 54 => .ok (.bcast (fld w 16 7) (fld w 9 7) (fld w 2 7))
  | 55 => .ok (.agree (fld w 19 4) (fld w 16 3) (fld w 9 3))
  | 56 => .ok (.lred (fld w 16 7) (fld w 9 7) (fld w 2 7) (fld w 0 2))
  | 57 => .ok (.plog (bit w 29) (fld w 19 4) (fld w 16 3) (fld w 9 3) (fld w 2 3))
  | 58 => if fld w 0 2 = 0 then .ok (.pmovToReg (bit w 29) (fld w 16 7))
    else if fld w 0 2 = 1 then .ok (.pmovFromReg (bit w 29) (fld w 9 7)) else .error (.reservedField false)
  | 59 => .ok (.hrnd (bit w 29) (fld w 16 7) (fld w 9 7) (fld w 2 7))
  | 60 => .ok (.sread (bit w 29) (fld w 16 7) (fld w 9 7))
  | _ => .error .reservedOp

/-- The I class (R93). -/
def rawI (w : W32) : Except DecodeError Instr :=
  match (fld w 24 5).toNat with
  | 0 => .ok (.iaddi (bit w 29) (fld w 17 7) (fld w 10 7) (fld w 0 10))
  | 1 => .ok (.andi (bit w 29) (fld w 17 7) (fld w 10 7) (fld w 0 10))
  | 2 => .ok (.ori (bit w 29) (fld w 17 7) (fld w 10 7) (fld w 0 10))
  | 3 => .ok (.xori (bit w 29) (fld w 17 7) (fld w 10 7) (fld w 0 10))
  | 4 => .ok (.shli (bit w 29) (fld w 17 7) (fld w 10 7) (fld w 0 5))
  | 5 => .ok (.shriZ (bit w 29) (fld w 17 7) (fld w 10 7) (fld w 0 5))
  | 6 => .ok (.shriS (bit w 29) (fld w 17 7) (fld w 10 7) (fld w 0 5))
  | 7 => .ok (.rotli (bit w 29) (fld w 17 7) (fld w 10 7) (fld w 0 5))
  | 8 => .ok (.imuli (bit w 29) (fld w 17 7) (fld w 10 7) (fld w 0 10))
  | 9 => .ok (.movi (bit w 29) (fld w 17 7) (fld w 0 10))
  | 10 => .ok (.icmpi (bit w 29) (fld w 20 4) (fld w 17 3) (fld w 10 7) (fld w 0 10))
  | 11 => .ok (.lpickiIdx (fld w 17 7) (fld w 10 7) (fld w 0 5))
  | 12 => .ok (.lpickiXor (fld w 17 7) (fld w 10 7) (fld w 0 5))
  | 13 => .ok (.lpickiRot (fld w 17 7) (fld w 10 7) (fld w 0 5))
  | 14 => .ok (.lpickiFill (fld w 17 7) (fld w 10 7) (fld w 0 5))
  | _ => .error .reservedOp

/-- The M class (R94). -/
def rawM (w : W32) : Except DecodeError Instr :=
  match (fld w 24 5).toNat with
  | 0 => .ok (.ldZ8 (bit w 29) (fld w 17 7) (fld w 10 7) (fld w 7 3) (bit w 6) (fld w 0 6))
  | 1 => .ok (.ldS8 (bit w 29) (fld w 17 7) (fld w 10 7) (fld w 7 3) (bit w 6) (fld w 0 6))
  | 2 => .ok (.ldZ16 (bit w 29) (fld w 17 7) (fld w 10 7) (fld w 7 3) (bit w 6) (fld w 0 6))
  | 3 => .ok (.ldS16 (bit w 29) (fld w 17 7) (fld w 10 7) (fld w 7 3) (bit w 6) (fld w 0 6))
  | 4 => .ok (.ld32 (bit w 29) (fld w 17 7) (fld w 10 7) (fld w 7 3) (bit w 6) (fld w 0 6))
  | 5 => .ok (.ld64 (bit w 29) (fld w 17 7) (fld w 10 7) (fld w 7 3) (bit w 6) (fld w 0 6))
  | 6 => .ok (.ld128 (bit w 29) (fld w 17 7) (fld w 10 7) (fld w 7 3) (bit w 6) (fld w 0 6))
  | 7 => .ok (.st8 (bit w 29) (fld w 17 7) (fld w 10 7) (fld w 7 3) (bit w 6) (fld w 0 6))
  | 8 => .ok (.st16 (bit w 29) (fld w 17 7) (fld w 10 7) (fld w 7 3) (bit w 6) (fld w 0 6))
  | 9 => .ok (.st32 (bit w 29) (fld w 17 7) (fld w 10 7) (fld w 7 3) (bit w 6) (fld w 0 6))
  | 10 => .ok (.st64 (bit w 29) (fld w 17 7) (fld w 10 7) (fld w 7 3) (bit w 6) (fld w 0 6))
  | 11 => .ok (.st128 (bit w 29) (fld w 17 7) (fld w 10 7) (fld w 7 3) (bit w 6) (fld w 0 6))
  | 12 => .ok (.ldFe (bit w 29) (fld w 17 7) (fld w 10 7) (fld w 7 3) (bit w 6) (fld w 0 6))
  | 13 => .ok (.stFe (bit w 29) (fld w 17 7) (fld w 10 7) (fld w 7 3) (bit w 6) (fld w 0 6))
  | 14 => .ok (.feSet (bit w 29) (fld w 17 7) (fld w 10 7) (fld w 7 3) (bit w 6) (fld w 0 6))
  | 15 => .ok (.ldAcq (bit w 29) (fld w 17 7) (fld w 10 7) (fld w 7 3) (bit w 6) (fld w 3 3) (fld w 0 3))
  | 16 => .ok (.stRel (bit w 29) (fld w 17 7) (fld w 10 7) (fld w 7 3) (bit w 6) (fld w 3 3) (fld w 0 3))
  | 17 => .ok (.atom (bit w 29) (fld w 17 7) (fld w 10 7) (fld w 7 3) (bit w 6) (fld w 2 4) (fld w 0 2))
  | 18 => .ok (.atomNr (bit w 29) (fld w 17 7) (fld w 10 7) (fld w 7 3) (bit w 6) (fld w 2 4) (fld w 0 2))
  | 19 => .ok (.atomCas (bit w 29) (fld w 17 7) (fld w 10 7) (fld w 7 3) (bit w 6) (fld w 0 2))
  | 20 => .ok (.pref (bit w 29) (fld w 10 7) (fld w 7 3) (fld w 0 6))
  | 21 => .ok (.discard (bit w 29) (fld w 17 7) (fld w 10 7) (fld w 7 3) (bit w 6))
  | 22 => .ok (.cmaint (bit w 29) (fld w 10 7) (fld w 7 3) (bit w 6) (fld w 3 3) (fld w 0 3))
  | 23 => .ok (.ldNc (bit w 29) (fld w 17 7) (fld w 10 7) (fld w 7 3) (bit w 6) (fld w 0 6))
  | _ => .error .reservedOp

/-- Group BR (R99). -/
def rawBr (w : W32) : Except DecodeError Instr :=
  match (fld w 22 4).toNat with
  | 0 => .ok (.bra (fld w 19 3) (bit w 18) (fld w 0 18))
  | 1 => .ok (.braU (fld w 19 3) (bit w 18) (fld w 0 18))
  | 2 => .ok (.braD (fld w 19 3) (bit w 18) (fld w 0 18))
  | 3 => .ok (.div (fld w 0 18))
  | 4 => .ok (.call (fld w 0 18))
  | 5 => .ok (.loop (fld w 19 3) (fld w 0 18))
  | 6 => .ok (.braAny (fld w 19 3) (bit w 18) (fld w 0 18))
  | 7 => .ok (.braAll (fld w 19 3) (bit w 18) (fld w 0 18))
  | _ => .error .reservedOp

/-- Group CTL (R99). -/
def rawCtl (w : W32) : Except DecodeError Instr :=
  match (fld w 22 4).toNat with
  | 0 => .ok .join
  | 1 => .ok .ret
  | 2 => .ok .exit
  | 3 => .ok .yield
  | 4 => .ok .nop
  | 5 => .ok (.jmpu (fld w 16 6))
  | 6 => .ok (.trap (fld w 0 16))
  | 7 => .ok (.sbarArv (fld w 16 6))
  | 8 => .ok (.sbarWt (fld w 16 6) (bit w 15))
  | 9 => .ok .brk
  | 10 => .ok (.sgnar (fld w 19 3) (fld w 13 6) (fld w 8 5))
  | 11 => .ok (.fenceX (fld w 19 3) (fld w 16 3) (fld w 13 3))
  | _ => .error .reservedOp

/-- Group SYS (R99). -/
def rawSys (w : W32) : Except DecodeError Instr :=
  match (fld w 22 4).toNat with
  | 0 => .ok (.csrr (fld w 16 6) (fld w 0 12))
  | 1 => .ok (.csrw (fld w 16 6) (fld w 0 12))
  | 2 => .ok (.csrs (fld w 16 6) (fld w 0 12))
  | 3 => .ok (.csrc (fld w 16 6) (fld w 0 12))
  | 4 => .ok (.tpark (fld w 16 6) (fld w 10 6))
  | 5 => .ok (.tkill (fld w 0 16))
  | 6 => .ok .eret
  | _ => .error .reservedOp

/-- The guard in word 2 (R97). -/
def guardOf (v : W32) : Guard := Guard.mk (fld v 15 3) (bit v 14)

/-- Group EXT (R147 to R154); t outside what the op accepts is reserved. -/
def rawExt (w v : W32) : Except DecodeError Instr :=
  let d := fld w 11 7
  let a := fld w 4 7
  let u := bit w 3
  let t := fld w 0 2
  let b := fld v 25 7
  let c := fld v 18 7
  let g := guardOf v
  let len := fld v 6 7
  let pos := fld v 0 6
  let need (k : BitVec 2) (i : Instr) : Except DecodeError Instr :=
    if t = k then .ok i else .error (.reservedField false)
  match (fld w 18 8).toNat with
  | 0 => .ok (.fma u t d a b c g)
  | 1 => .ok (.imad u t d a b c g)
  | 2 => .ok (.sel u t d a b g)
  | 3 => .ok (.bfeS u t d a g len pos)
  | 4 => .ok (.bfeZ u t d a g len pos)
  | 5 => .ok (.bfi u t d a b g len pos)
  | 6 => need 0 (.bmix u d a b g (bit v 12) (fld v 0 12))
  | 7 => need 0 (.movi32 u d v)
  | 8 => need 0 (.iaddi32 u d a v)
  | 9 => need 0 (.fcvtX u d a b (fld v 21 3) (fld v 18 3) g (bit v 11) (fld v 8 3) (fld v 4 4) (fld v 0 4))
  | 10 => .ok (.fclamp u t d a b c g)
  | 11 => need 3 (.lea u d a b g (bit v 3) (fld v 0 3))
  | 12 => need 0 (.madW u d a b c g (bit v 0))
  | 13 => .ok (.fmaMix u t d a b c g (bit v 1) (bit v 0))
  | _ => .error .reservedOp

/-- Group ASYNC (R178 to R182). -/
def rawAsync (w v : W32) : Except DecodeError Instr :=
  let d := fld w 11 7
  let a := fld w 4 7
  let b := fld v 25 7
  let c := fld v 18 7
  let g := guardOf v
  let f := bit v 13
  match (fld w 18 8).toNat with
  | 0 => .ok (.cpy (bit w 0) d a b c g f (fld v 3 3) (fld v 0 3))
  | 1 => .ok (.cpy2d d a b c g f (fld v 3 3) (fld v 0 3))
  | 2 => .ok (.gath d a g f (fld v 3 2) (fld v 0 3))
  | 3 => .ok (.scat d a g f (fld v 3 2) (fld v 0 3))
  | 4 => .ok (.cpyMx d a c g f (fld v 3 3) (fld v 0 3))
  | _ => .error .reservedOp

/-- Group MAT (R191, R193, R200, R201). -/
def rawMat (w v : W32) : Except DecodeError Instr :=
  let a := fld w 4 7
  let b := fld v 25 7
  let g := guardOf v
  let f := bit v 13
  match (fld w 18 8).toNat with
  | 0 =>
    match (fld w 0 2).toNat with
    | 0 => .ok (.mloopIp a g f)
    | 1 => .ok (.mloopOp a g f)
    | 2 => .ok (.mloopRw a g f)
    | _ => .error (.reservedField false)
  | 1 => .ok (.mfill a b g f (bit v 0))
  | 2 => .ok (.mdrain a b g f (bit v 0))
  | 3 => .ok (.mzero g f (bit v 0))
  | _ => .error .reservedOp

/-- Group RAY (R211). -/
def rawRay (w v : W32) : Except DecodeError Instr :=
  let d := fld w 11 7
  let a := fld w 4 7
  let c := fld v 18 7
  let g := guardOf v
  let f := bit v 13
  match (fld w 18 8).toNat with
  | 0 => .ok (.rtrace d a (fld v 25 7) g f (fld v 3 4) (fld v 0 3))
  | 1 => .ok (.rcommit d (fld w 4 3) g f)
  | 2 => .ok (.rgen g f (bit v 11) (fld v 4 7) (fld v 0 4))
  | 3 => .ok (.tclass d a (fld v 18 3) g)
  | 4 => .ok (.rast a c g f (fld v 0 6))
  | _ => .error .reservedOp

/-- Group WORK (R183 to R186). -/
def rawWork (w v : W32) : Except DecodeError Instr :=
  let d := fld w 11 7
  let a := fld w 4 7
  let g := guardOf v
  match (fld w 18 8).toNat with
  | 0 => .ok (.emit (bit w 0) a (fld v 18 7) g (fld v 6 4) (fld v 0 6))
  | 1 => .ok (.regroup (fld w 11 6) (fld v 0 8))
  | 2 => .ok (.leave a)
  | 3 => .ok (.nodeq d g (bit v 13) (fld v 0 6))
  | _ => .error .reservedOp

/-- The X class by group (R97). -/
def rawX (w v : W32) : Except DecodeError Instr :=
  match (fld w 26 4).toNat with
  | 0 => rawBr w
  | 1 => rawCtl w
  | 4 => rawExt w v
  | 5 => rawAsync w v
  | 6 => rawMat w v
  | 7 => rawRay w v
  | 8 => rawWork w v
  | 9 => rawSys w
  | 10 => .ok (.rpt (fld w 22 4) (fld w 16 6) (fld w 12 4) (fld w 8 4) (fld w 4 4))
  | 15 => .ok (.hdr (fld w 14 12) (fld w 10 4) (fld w 6 4) (fld w 2 4) (fld w 0 2))
  | _ => .error .reservedOp

/-- The class of a word (R87). -/
def rawTeam (w v : W32) : Except DecodeError Instr :=
  match (fld w 30 2).toNat with
  | 0 => rawR w
  | 1 => rawI w
  | 2 => rawM w
  | _ => rawX w v

/-- A team instruction takes two words exactly in the groups 4 to 8 of the X class (R97). -/
def teamLen (w : W32) : Nat :=
  if fld w 30 2 = 3 && decide (4 ≤ (fld w 26 4).toNat) && decide ((fld w 26 4).toNat ≤ 8) then 2 else 1

/-- The first word that differs from what the instruction's fields encode to. -/
def unusedIn (i : Instr) (w v : W32) : Option Bool :=
  match encode i with
  | [e] => if e = w then none else some false
  | [e, e2] => if e = w then (if e2 = v then none else some true) else some false
  | _ => some false

/-- Checks 2 to 4 of R108, in their order, on a raw instruction. -/
def checkRaw (i : Instr) (w v : W32) : Except DecodeError Instr :=
  match i.reservedIn with
  | some k => .error (.reservedField k)
  | none =>
    match unusedIn i w v with
    | some k => .error (.notZero k)
    | none =>
      match i.zeroIn with
      | some k => .error (.notZero k)
      | none =>
        match i.uniformBad with
        | some k => .error (.uniformField k)
        | none => .ok i

/-- The team decoder: checks 1 to 4 of R108. v is the word after w; a one-word instruction does not look at it. -/
def decodeTeam (w v : W32) : Except DecodeError Instr :=
  match rawTeam w v with
  | .error e => .error e
  | .ok i => checkRaw i w v

/-! ## Scalar words -/

/-- Xaelain words with opcode 0x0B and funct3 000 (R109). -/
def rawX0B (w : W32) : Except DecodeError Instr :=
  match (fld w 25 7).toNat with
  | 0 => .ok (.xpost (fld w 20 5) (fld w 15 5) (fld w 7 5))
  | 1 => .ok (.xpostn (fld w 20 5) (fld w 15 5) (fld w 7 5))
  | 2 => .ok (.xsend (fld w 20 5) (fld w 15 5) (fld w 7 5))
  | 3 => .ok (.xspawnm (fld w 20 5) (fld w 15 5) (fld w 7 5))
  | 4 => .ok (.xrecv (fld w 7 5))
  | 5 => .ok (.xwait (fld w 15 5) (fld w 7 5))
  | 6 => .ok (.xevt (fld w 15 5) (fld w 7 5))
  | 7 => .ok (.xmig (fld w 15 5))
  | 8 => .ok (.xnodeq (fld w 15 5) (fld w 7 5))
  | _ => .error .scalarIllegal

/-- Xaelain words with opcode 0x2B and funct3 000 (R109). -/
def rawX2B (w : W32) : Except DecodeError Instr :=
  match (fld w 25 7).toNat with
  | 0 => .ok (.xspawn (fld w 20 5) (fld w 15 5) (fld w 7 5))
  | 1 => .ok (.xrange (fld w 20 5) (fld w 15 5) (fld w 7 5))
  | 2 => .ok (.xpop (fld w 15 5) (fld w 7 5))
  | 3 => .ok (.xsplit (fld w 20 5) (fld w 15 5) (fld w 7 5))
  | 4 => .ok (.xjoin (fld w 15 5) (fld w 7 5))
  | 5 => .ok (.xsteal (fld w 7 5))
  | 6 => .ok (.xyield (fld w 15 5))
  | 7 => .ok (.xsdom (fld w 15 5) (fld w 7 5))
  | _ => .error .scalarIllegal

/-- Xaelain words with opcode 0x5B and funct3 000 (R109). -/
def rawX5B (w : W32) : Except DecodeError Instr :=
  match (fld w 25 7).toNat with
  | 0 => .ok (.xldfe (fld w 15 5) (fld w 7 5))
  | 1 => .ok (.xstfe (fld w 20 5) (fld w 15 5))
  | 2 => .ok (.xfeset (fld w 20 5) (fld w 15 5))
  | 3 => .ok (.xlda (fld w 22 3) (fld w 20 2) (fld w 15 5) (fld w 7 5))
  | 4 => .ok (.xstr (fld w 20 5) (fld w 15 5) (fld w 9 3) (fld w 7 2))
  | 5 => .ok (.xdiscard (fld w 20 5) (fld w 15 5))
  | 6 => .ok (.xsgnar (fld w 20 5) (fld w 15 5) (fld w 7 3))
  | 7 => .ok (.xsgrd (fld w 15 5) (fld w 7 5))
  | 8 => .ok (.xcmaint (fld w 23 2) (fld w 20 3) (fld w 15 5))
  | _ => .error .scalarIllegal

/-- Xaelain words with opcode 0x7B and funct3 000 (R109). -/
def rawX7B (w : W32) : Except DecodeError Instr :=
  match (fld w 25 7).toNat with
  | 0 => .ok (.xfmt (fld w 20 5) (fld w 15 5))
  | 1 => .ok (.xenergy (fld w 15 5) (fld w 7 5))
  | 2 => .ok (.xsread (fld w 15 5) (fld w 7 5))
  | 8 => .ok (.xtimer (fld w 15 5) (fld w 7 5))
  | 9 => .ok (.xslotQuery (fld w 15 5) (fld w 7 5))
  | 10 => .ok (.xctxSv (fld w 20 5) (fld w 15 5) (fld w 7 5))
  | 11 => .ok (.xctxLd (fld w 20 5) (fld w 15 5) (fld w 7 5))
  | 12 => .ok (.xkret (fld w 7 5))
  | 13 => .ok (.xsgset (fld w 20 5) (fld w 15 5) (fld w 7 3))
  | 14 => .ok (.xtlbi (fld w 20 5) (fld w 15 5))
  | 15 => .ok (.xpeek (fld w 15 5) (fld w 7 5))
  | 16 => .ok (.xpoke (fld w 20 5) (fld w 15 5))
  | _ => .error .scalarIllegal

/-- The four custom opcodes (R109, R110). -/
def rawXaelain (w : W32) : Except DecodeError Instr :=
  if fld w 12 3 = 0 then
    match (fld w 0 7).toNat with
    | 0x0B => rawX0B w
    | 0x2B => rawX2B w
    | 0x5B => rawX5B w
    | 0x7B => rawX7B w
    | _ => .error .scalarIllegal
  else if fld w 12 3 = 1 ∧ fld w 0 7 = 0x5B then .ok (.xfence (fld w 29 3) (fld w 26 3) (fld w 23 3))
  else .error .scalarIllegal

/-! ## RISC-V words of 32 bits -/

/-- Sign- or zero-carrying immediates of the S, B, U and J layouts. -/
def immS (w : W32) : BitVec 12 := fld w 25 7 ++ fld w 7 5
def immB (w : W32) : BitVec 13 := fld w 31 1 ++ fld w 7 1 ++ fld w 25 6 ++ fld w 8 4 ++ (0 : BitVec 1)
def immJ (w : W32) : BitVec 21 := fld w 31 1 ++ fld w 12 8 ++ fld w 20 1 ++ fld w 21 10 ++ (0 : BitVec 1)

/-- OP and OP-32 (opcode 0x33, 0x3B). -/
def rvAluOf (f7 f3 op : Nat) : Option RvAlu :=
  match op, f7, f3 with
  | 0x33, 0, 0 => some .add | 0x33, 32, 0 => some .sub | 0x33, 0, 1 => some .sll | 0x33, 0, 2 => some .slt
  | 0x33, 0, 3 => some .sltu | 0x33, 0, 4 => some .xor | 0x33, 0, 5 => some .srl | 0x33, 32, 5 => some .sra
  | 0x33, 0, 6 => some .or | 0x33, 0, 7 => some .and
  | 0x3B, 0, 0 => some .addw | 0x3B, 32, 0 => some .subw | 0x3B, 0, 1 => some .sllw | 0x3B, 0, 5 => some .srlw
  | 0x3B, 32, 5 => some .sraw
  | 0x33, 1, 0 => some .mul | 0x33, 1, 1 => some .mulh | 0x33, 1, 2 => some .mulhsu | 0x33, 1, 3 => some .mulhu
  | 0x33, 1, 4 => some .div | 0x33, 1, 5 => some .divu | 0x33, 1, 6 => some .rem | 0x33, 1, 7 => some .remu
  | 0x3B, 1, 0 => some .mulw | 0x3B, 1, 4 => some .divw | 0x3B, 1, 5 => some .divuw | 0x3B, 1, 6 => some .remw
  | 0x3B, 1, 7 => some .remuw
  | 0x3B, 4, 0 => some .addUw | 0x33, 16, 2 => some .sh1add | 0x33, 16, 4 => some .sh2add
  | 0x33, 16, 6 => some .sh3add
  | 0x3B, 16, 2 => some .sh1addUw | 0x3B, 16, 4 => some .sh2addUw | 0x3B, 16, 6 => some .sh3addUw
  | 0x33, 32, 7 => some .andn | 0x33, 32, 6 => some .orn | 0x33, 32, 4 => some .xnor
  | 0x33, 5, 6 => some .max | 0x33, 5, 7 => some .maxu | 0x33, 5, 4 => some .min | 0x33, 5, 5 => some .minu
  | 0x33, 48, 1 => some .rol | 0x33, 48, 5 => some .ror | 0x3B, 48, 1 => some .rolw | 0x3B, 48, 5 => some .rorw
  | _, _, _ => none

def rvUnaryOf (i12 f3 op : Nat) : Option RvUnary :=
  match op, f3, i12 with
  | 0x13, 1, 0x600 => some .clz | 0x13, 1, 0x601 => some .ctz | 0x13, 1, 0x602 => some .cpop
  | 0x1B, 1, 0x600 => some .clzw | 0x1B, 1, 0x601 => some .ctzw | 0x1B, 1, 0x602 => some .cpopw
  | 0x13, 1, 0x604 => some .sextB | 0x13, 1, 0x605 => some .sextH | 0x3B, 4, 0x080 => some .zextH
  | 0x13, 5, 0x287 => some .orcB | 0x13, 5, 0x6B8 => some .rev8
  | _, _, _ => none

def rvShiftOf (f6 f3 op : Nat) : Option RvShift :=
  match op, f3, f6 with
  | 0x13, 1, 0 => some .slli | 0x13, 5, 0 => some .srli | 0x13, 5, 16 => some .srai | 0x13, 5, 24 => some .rori
  | 0x1B, 1, 0 => some .slliw | 0x1B, 5, 0 => some .srliw | 0x1B, 5, 16 => some .sraiw | 0x1B, 5, 24 => some .roriw
  | 0x1B, 1, 2 => some .slliUw
  | _, _, _ => none

def rvImmOf (f3 op : Nat) : Option RvImm :=
  match op, f3 with
  | 0x13, 0 => some .addi | 0x13, 2 => some .slti | 0x13, 3 => some .sltiu | 0x13, 4 => some .xori
  | 0x13, 6 => some .ori | 0x13, 7 => some .andi | 0x1B, 0 => some .addiw
  | _, _ => none

def rvBranchOf : Nat → Option RvBranch
  | 0 => some .beq | 1 => some .bne | 4 => some .blt | 5 => some .bge | 6 => some .bltu | 7 => some .bgeu
  | _ => none

def rvLoadOf : Nat → Option RvLoad
  | 0 => some .lb | 1 => some .lh | 2 => some .lw | 3 => some .ld | 4 => some .lbu | 5 => some .lhu
  | 6 => some .lwu
  | _ => none

def rvStoreOf : Nat → Option RvStore
  | 0 => some .sb | 1 => some .sh | 2 => some .sw | 3 => some .sd
  | _ => none

def rvCsrOf : Nat → Option RvCsr
  | 1 => some .rw | 2 => some .rs | 3 => some .rc
  | _ => none

def amoOf : Nat → Option AmoOp
  | 0 => some .add | 1 => some .swap | 4 => some .xor | 8 => some .or | 12 => some .and | 16 => some .min
  | 20 => some .max | 24 => some .minu | 28 => some .maxu
  | _ => none

def rvIntOf : Nat → Option RvInt
  | 0 => some .w | 1 => some .wu | 2 => some .l | 3 => some .lu
  | _ => none

def orIllegal (o : Option Instr) : Except DecodeError Instr :=
  match o with
  | some i => .ok i
  | none => .error .scalarIllegal

/-- OP-IMM and OP-IMM-32: one register (Zbb), shifts, and the rest. -/
def rvOpImm (w : W32) : Option RvOp :=
  let op := (fld w 0 7).toNat
  let f3 := (fld w 12 3).toNat
  match rvUnaryOf (fld w 20 12).toNat f3 op with
  | some k => some (.unary k (fld w 7 5) (fld w 15 5))
  | none =>
    match rvShiftOf (fld w 26 6).toNat f3 op with
    | some k => some (.shift k (fld w 7 5) (fld w 15 5) (fld w 20 6))
    | none => (rvImmOf f3 op).map fun k => .aluImm k (fld w 7 5) (fld w 15 5) (fld w 20 12)

/-- OP-FP (opcode 0x53). -/
def rvOpFp (w : W32) : Option RvOp :=
  let rd := fld w 7 5
  let rs1 := fld w 15 5
  let rs2 := fld w 20 5
  let rm := fld w 12 3
  let dbl := bit w 25
  if bit w 26 then none else
  match (fld w 27 5).toNat with
  | 0 => some (.fop .add dbl rm rd rs1 rs2)
  | 1 => some (.fop .sub dbl rm rd rs1 rs2)
  | 2 => some (.fop .mul dbl rm rd rs1 rs2)
  | 3 => some (.fop .div dbl rm rd rs1 rs2)
  | 4 =>
    match rm.toNat with
    | 0 => some (.fop .sgnj dbl 0 rd rs1 rs2)
    | 1 => some (.fop .sgnjn dbl 0 rd rs1 rs2)
    | 2 => some (.fop .sgnjx dbl 0 rd rs1 rs2)
    | _ => none
  | 5 =>
    match rm.toNat with
    | 0 => some (.fop .min dbl 0 rd rs1 rs2)
    | 1 => some (.fop .max dbl 0 rd rs1 rs2)
    | _ => none
  | 8 => if dbl then (if rs2 = 0 then some (.fcvtDS rm rd rs1) else none)
         else (if rs2 = 1 then some (.fcvtSD rm rd rs1) else none)
  | 11 => if rs2 = 0 then some (.fsqrt dbl rm rd rs1) else none
  | 20 =>
    match rm.toNat with
    | 0 => some (.fcmp .le dbl rd rs1 rs2)
    | 1 => some (.fcmp .lt dbl rd rs1 rs2)
    | 2 => some (.fcmp .eq dbl rd rs1 rs2)
    | _ => none
  | 24 => (rvIntOf rs2.toNat).map fun k => .fcvtToInt k dbl rm rd rs1
  | 26 => (rvIntOf rs2.toNat).map fun k => .fcvtFromInt k dbl rm rd rs1
  | 28 =>
    if rs2 ≠ 0 then none else
    match rm.toNat with
    | 0 => some (.fmvToInt dbl rd rs1)
    | 1 => some (.fclass dbl rd rs1)
    | _ => none
  | 30 => if rs2 = 0 ∧ rm = 0 then some (.fmvFromInt dbl rd rs1) else none
  | _ => none

/-- The four fused opcodes. -/
def rvFma (k : RvFma) (w : W32) : Option RvOp :=
  if bit w 26 then none
  else some (.fma k (bit w 25) (fld w 12 3) (fld w 7 5) (fld w 15 5) (fld w 20 5) (fld w 27 5))

/-- SYSTEM (opcode 0x73): ecall, ebreak, wfi and Zicsr. -/
def rvSystem (w : W32) : Option Instr :=
  if w = 0x73 then some .ecall
  else if w = 0x100073 then some .ebreak
  else if w = 0x10500073 then some .wfi
  else
    match rvCsrOf ((fld w 12 3).toNat % 4) with
    | none => none
    | some k =>
      if bit w 14 then some (.riscvBaseOp (.csrI k (fld w 7 5) (fld w 15 5) (fld w 20 12)))
      else some (.riscvBaseOp (.csr k (fld w 7 5) (fld w 15 5) (fld w 20 12)))

/-- AMO (opcode 0x2F). -/
def rvAmo (w : W32) : Option Instr :=
  let rd := fld w 7 5
  let rs1 := fld w 15 5
  let rs2 := fld w 20 5
  let aq := bit w 26
  let rl := bit w 25
  if fld w 12 3 ≠ 2 ∧ fld w 12 3 ≠ 3 then none else
  let dbl := bit w 12
  match (fld w 27 5).toNat with
  | 2 => if rs2 = 0 then some (.lr dbl aq rl rd rs1) else none
  | 3 => some (.sc dbl aq rl rd rs1 rs2)
  | f => (amoOf f).map fun k => .amo k dbl aq rl rd rs1 rs2

/-- The RISC-V words of 32 bits (R240). In a FENCE, rd and rs1 are ignored, and in FENCE.I rd, rs1 and the
immediate, as the RISC-V base has it (DEDUCED, log 20). -/
def rawRv (w : W32) : Option Instr :=
  let rd := fld w 7 5
  let f3 := (fld w 12 3).toNat
  let rs1 := fld w 15 5
  let rs2 := fld w 20 5
  let i12 := fld w 20 12
  match (fld w 0 7).toNat with
  | 0x37 => some (.riscvBaseOp (.lui rd (fld w 12 20)))
  | 0x17 => some (.riscvBaseOp (.auipc rd (fld w 12 20)))
  | 0x6F => some (.riscvBaseOp (.jal rd (immJ w)))
  | 0x67 => if f3 = 0 then some (.riscvBaseOp (.jalr rd rs1 i12)) else none
  | 0x63 => (rvBranchOf f3).map fun k => .riscvBaseOp (.branch k rs1 rs2 (immB w))
  | 0x03 => (rvLoadOf f3).map fun k => .riscvBaseOp (.load k rd rs1 i12)
  | 0x23 => (rvStoreOf f3).map fun k => .riscvBaseOp (.store k rs1 rs2 (immS w))
  | 0x13 => (rvOpImm w).map .riscvBaseOp
  | 0x1B => (rvOpImm w).map .riscvBaseOp
  | 0x33 => (rvAluOf (fld w 25 7).toNat f3 0x33).map fun k => .riscvBaseOp (.alu k rd rs1 rs2)
  | 0x3B =>
    match rvUnaryOf i12.toNat f3 0x3B with
    | some k => some (.riscvBaseOp (.unary k rd rs1))
    | none => (rvAluOf (fld w 25 7).toNat f3 0x3B).map fun k => .riscvBaseOp (.alu k rd rs1 rs2)
  | 0x07 =>
    if f3 = 2 then some (.riscvBaseOp (.fload false rd rs1 i12))
    else if f3 = 3 then some (.riscvBaseOp (.fload true rd rs1 i12)) else none
  | 0x27 =>
    if f3 = 2 then some (.riscvBaseOp (.fstore false rs1 rs2 (immS w)))
    else if f3 = 3 then some (.riscvBaseOp (.fstore true rs1 rs2 (immS w))) else none
  | 0x43 => (rvFma .madd w).map .riscvBaseOp
  | 0x47 => (rvFma .msub w).map .riscvBaseOp
  | 0x4B => (rvFma .nmsub w).map .riscvBaseOp
  | 0x4F => (rvFma .nmadd w).map .riscvBaseOp
  | 0x53 => (rvOpFp w).map .riscvBaseOp
  | 0x0F =>
    if f3 = 0 then some (.fence (fld w 28 4) (fld w 24 4) (fld w 20 4))
    else if f3 = 1 then some .fenceI else none
  | 0x2F => rvAmo w
  | 0x73 => rvSystem w
  | _ => none

/-- The four custom opcodes of R109. -/
def isCustom (w : W32) : Bool :=
  fld w 0 7 == 0x0B || fld w 0 7 == 0x2B || fld w 0 7 == 0x5B || fld w 0 7 == 0x7B

/-- The scalar decoder on a word of 32 bits (R111). -/
def decodeScalar (w : W32) : Except DecodeError Instr :=
  if isCustom w then
    match rawXaelain w with
    | .error e => .error e
    | .ok i => checkRaw i w 0
  else
    match rawRv w with
    | none => .error .scalarIllegal
    | some i => if i.wellFormed then .ok i else .error .scalarIllegal

/-! ## Compressed words (C, RV64 with F and D) -/

/-- A three-bit register field names x8..x15 or f8..f15. -/
def regC {n : Nat} (h : BitVec n) (lo : Nat) : BitVec 5 := (0b01 : BitVec 2) ++ fld h lo 3

/-- An immediate put together from single bits, the highest first. -/
def bitsOf (h : BitVec 16) (ks : List Nat) : Nat := ks.foldl (fun n k => 2 * n + (bit h k).toNat) 0

/-- The same, sign-extended from its highest bit to 12 bits. -/
def sbitsOf (h : BitVec 16) (n : Nat) (ks : List Nat) : BitVec 12 := (BitVec.ofNat n (bitsOf h ks)).signExtend 12

/-- Quadrant 0. -/
def expandC0 (h : BitVec 16) : Option RvOp :=
  let rd := regC h 2
  let rs1 := regC h 7
  let d8 := BitVec.ofNat 12 (bitsOf h [6, 5, 12, 11, 10] * 8)
  let d4 := BitVec.ofNat 12 (bitsOf h [5, 12, 11, 10, 6] * 4)
  match (fld h 13 3).toNat with
  | 0 =>
    let n := bitsOf h [10, 9, 8, 7, 12, 11, 5, 6] * 4
    if n = 0 then none else some (.aluImm .addi rd 2 (BitVec.ofNat 12 n))
  | 1 => some (.fload true rd rs1 d8)
  | 2 => some (.load .lw rd rs1 d4)
  | 3 => some (.load .ld rd rs1 d8)
  | 5 => some (.fstore true rs1 rd d8)
  | 6 => some (.store .sw rs1 rd d4)
  | 7 => some (.store .sd rs1 rd d8)
  | _ => none

/-- Quadrant 1, op 100: the arithmetic forms. -/
def expandC1Alu (h : BitVec 16) : Option RvOp :=
  let rd := regC h 7
  let rs2 := regC h 2
  match (fld h 10 2).toNat with
  | 0 => some (.shift .srli rd rd (BitVec.ofNat 6 (bitsOf h [12, 6, 5, 4, 3, 2])))
  | 1 => some (.shift .srai rd rd (BitVec.ofNat 6 (bitsOf h [12, 6, 5, 4, 3, 2])))
  | 2 => some (.aluImm .andi rd rd (sbitsOf h 6 [12, 6, 5, 4, 3, 2]))
  | _ =>
    match (bit h 12).toNat, (fld h 5 2).toNat with
    | 0, 0 => some (.alu .sub rd rd rs2)
    | 0, 1 => some (.alu .xor rd rd rs2)
    | 0, 2 => some (.alu .or rd rd rs2)
    | 0, 3 => some (.alu .and rd rd rs2)
    | 1, 0 => some (.alu .subw rd rd rs2)
    | 1, 1 => some (.alu .addw rd rd rs2)
    | _, _ => none

/-- Quadrant 1. -/
def expandC1 (h : BitVec 16) : Option RvOp :=
  let rd := fld h 7 5
  let i6 := sbitsOf h 6 [12, 6, 5, 4, 3, 2]
  let off := (BitVec.ofNat 9 (bitsOf h [12, 6, 5, 2, 11, 10, 4, 3] * 2)).signExtend 13
  match (fld h 13 3).toNat with
  | 0 => some (.aluImm .addi rd rd i6)
  | 1 => if rd = 0 then none else some (.aluImm .addiw rd rd i6)
  | 2 => some (.aluImm .addi rd 0 i6)
  | 3 =>
    if rd = 2 then
      let n := bitsOf h [12, 4, 3, 5, 2, 6] * 16
      if n = 0 then none else some (.aluImm .addi 2 2 ((BitVec.ofNat 10 n).signExtend 12))
    else if i6 = 0 then none else some (.lui rd (i6.signExtend 20))
  | 4 => expandC1Alu h
  | 5 => some (.jal 0 ((BitVec.ofNat 12 (bitsOf h [12, 8, 10, 9, 6, 7, 2, 11, 5, 4, 3] * 2)).signExtend 21))
  | 6 => some (.branch .beq (regC h 7) 0 off)
  | _ => some (.branch .bne (regC h 7) 0 off)

/-- Quadrant 2, op 100: jr, mv, ebreak, jalr, add. -/
def expandC2Op (h : BitVec 16) : Option Instr :=
  let rd := fld h 7 5
  let rs2 := fld h 2 5
  if bit h 12 then
    if rs2 = 0 then
      if rd = 0 then some .ebreak else some (.riscvBaseOp (.jalr 1 rd 0))
    else some (.riscvBaseOp (.alu .add rd rd rs2))
  else if rs2 = 0 then
    if rd = 0 then none else some (.riscvBaseOp (.jalr 0 rd 0))
  else some (.riscvBaseOp (.alu .add rd 0 rs2))

/-- Quadrant 2. -/
def expandC2 (h : BitVec 16) : Option Instr :=
  let rd := fld h 7 5
  let rs2 := fld h 2 5
  let l4 := BitVec.ofNat 12 (bitsOf h [3, 2, 12, 6, 5, 4] * 4)
  let l8 := BitVec.ofNat 12 (bitsOf h [4, 3, 2, 12, 6, 5] * 8)
  let s4 := BitVec.ofNat 12 (bitsOf h [8, 7, 12, 11, 10, 9] * 4)
  let s8 := BitVec.ofNat 12 (bitsOf h [9, 8, 7, 12, 11, 10] * 8)
  match (fld h 13 3).toNat with
  | 0 => some (.riscvBaseOp (.shift .slli rd rd (BitVec.ofNat 6 (bitsOf h [12, 6, 5, 4, 3, 2]))))
  | 1 => some (.riscvBaseOp (.fload true rd 2 l8))
  | 2 => if rd = 0 then none else some (.riscvBaseOp (.load .lw rd 2 l4))
  | 3 => if rd = 0 then none else some (.riscvBaseOp (.load .ld rd 2 l8))
  | 4 => expandC2Op h
  | 5 => some (.riscvBaseOp (.fstore true 2 rs2 s8))
  | 6 => some (.riscvBaseOp (.store .sw 2 rs2 s4))
  | _ => some (.riscvBaseOp (.store .sd 2 rs2 s8))

/-- The compressed decoder: bits 1..0 of the word are not 11. -/
def decodeC (h : BitVec 16) : Except DecodeError Instr :=
  match (fld h 0 2).toNat with
  | 0 => orIllegal ((expandC0 h).map .riscvBaseOp)
  | 1 => orIllegal ((expandC1 h).map .riscvBaseOp)
  | 2 => orIllegal (expandC2 h)
  | _ => .error .scalarIllegal

/-! ## Which operation an xslot word asks for -/

/-- The six rows of xslot share one word: the value of xs1 holds the operation (R316, R319). The decoder answers
XSLOT_QUERY; the step picks the row with the register's value. A value that names no operation stays with
XSLOT_QUERY, whose meaning rejects it. -/
def pickXslot (i : Instr) (v : W64) : Instr :=
  match i with
  | .xslotQuery s d =>
    match v.toNat with
    | 1 => .xslotStop s d
    | 2 => .xslotRelease s d
    | 3 => .xslotOpen s d
    | 4 => .xslotClose s d
    | 5 => .xslotVacate s d
    | _ => .xslotQuery s d
  | _ => i

/-! ## The table's numbering -/

/-- The instruction whose bits are w, the first word in the low bits. A word with one of the custom opcodes that
the scalar decoder takes is a scalar word; a word of the RISC-V extensions is not told apart from a team word by its
bits, and the table gives those rows none, so every other word goes to the team decoder. -/
def decodeTableWord (nbits w : Nat) : Option Instr :=
  let w1 : W32 := BitVec.ofNat 32 w
  let w2 : W32 := BitVec.ofNat 32 (if 32 < nbits then w / 4294967296 else 0)
  let scalar : Option Instr :=
    if isCustom w1 && nbits ≤ 32 then
      match decodeScalar w1 with
      | .ok i => some i
      | .error _ => none
    else none
  match scalar with
  | some i => some i
  | none =>
    match decodeTeam w1 w2 with
    | .ok i => some i
    | .error _ => none

end Sys2Proof
end

