-- ==== Sys2Proof/Config.lean ====
section
/-! DEFINITION. What the manual leaves to each part, and the free values: constants without a body, so that nothing
can be proved about which value they hold. -/

namespace Sys2Proof.Config

/-- The free value number n, of 64 bits (log 7). A value the manual leaves open is one of these. -/
opaque freeValue : Nat → BitVec 64

/-- What a cell of a bank or of the Loft holds that nothing has written since the matrix grant was given (R187, log 14):
number of the grant, key of the cell. -/
opaque freeCell : Nat → Nat → BitVec 32

/-- The number that stands for a slab bound or end that exact arithmetic does not define (R208, log 35): codes of the
bound, the origin and the direction on an axis. -/
opaque slabOpen : Nat → Nat → Nat → BitVec 32

/-- The returned value of an approximate transcendental (R79): function number, format number, operand bits. The
machine uses it only where it lies within the bound of R79 (log 8). -/
opaque approx : Nat → Nat → Nat → BitVec 32

/-- The spare lanes of a link, of which the manual gives no number (R414, log 117). -/
opaque spareLanes : Nat → Nat

/-- SHA3-256 digests: of a firmware image, and of a partition's configuration, whose encoding the manual does not give (R400,
R415, log 79). -/
opaque imageDigest : List Byte → Nat
opaque configDigest : List Nat → Nat

/-- HBM of one die, in bytes (R354). -/
def dieBytes : Nat := 0x1800000000

/-- Where the local-store windows begin, and the distance between the plain and the alias window (R270). -/
def plainBase : Nat := 0xFFFFF00000000000
def aliasBase : Nat := 0xFFFFF00010000000
def aliasEnd : Nat := 0xFFFFF00020000000

/-- The retire address (R22). -/
def retireAddress : BitVec 64 := 0xFFFFFFFFFFFFFFF0

end Sys2Proof.Config
end

