-- ==== Sys2Proof/Machine/Tbl.lean ====
section
/-! DEFINITION. Sparse tables: a list of key and value pairs with strictly rising keys. Registers, memory, slots, teams
and every other numbered thing of the machine are held in one. A table of values that have a default never lists the
default, so equal tables are equal lists. -/

namespace Sys2Proof.Machine

/-- A sparse table keyed by number. -/
abbrev Tbl (α : Type) := List (Nat × α)

namespace Tbl

variable {α : Type}

/-- The entry of a key. -/
def find? (t : Tbl α) (k : Nat) : Option α :=
  match t with
  | [] => none
  | (j, v) :: r => if j = k then some v else find? r k

/-- The entry of a key, or the default of the table. -/
def get (t : Tbl α) (d : α) (k : Nat) : α := (find? t k).getD d

/-- The table without a key. -/
def erase (t : Tbl α) (k : Nat) : Tbl α :=
  match t with
  | [] => []
  | (j, v) :: r => if j = k then erase r k else (j, v) :: erase r k

/-- The table with an entry put at its place. -/
def put (t : Tbl α) (k : Nat) (v : α) : Tbl α :=
  match t with
  | [] => [(k, v)]
  | (j, w) :: r => if j = k then (k, v) :: r else if k < j then (k, v) :: (j, w) :: r else (j, w) :: put r k v

/-- The table with a value stored under its default: storing the default removes the entry. -/
def set [DecidableEq α] (t : Tbl α) (d : α) (k : Nat) (v : α) : Tbl α :=
  if v = d then erase t k else put t k v

/-- The keys, rising. -/
def keys (t : Tbl α) : List Nat := t.map Prod.fst

/-- The entry of a key changed by f, where there is one. -/
def modify (t : Tbl α) (k : Nat) (f : α → α) : Tbl α :=
  match t with
  | [] => []
  | (j, v) :: r => if j = k then (j, f v) :: r else (j, v) :: modify r k f

/-- Every key is above b and the keys rise strictly. -/
def risingAbove (t : Tbl α) (b : Nat) : Bool :=
  match t with
  | [] => true
  | (j, _) :: r => decide (b < j) && risingAbove r j

/-- The keys rise strictly. -/
def rising (t : Tbl α) : Bool :=
  match t with
  | [] => true
  | (j, _) :: r => risingAbove r j

/-- The canonical form under a default: strictly rising, the default never listed. -/
def wf [DecidableEq α] (t : Tbl α) (d : α) : Bool := rising t && t.all fun e => decide (e.2 ≠ d)

end Tbl

end Sys2Proof.Machine
end

