-- ==== Sys2Proof/Machine/State.lean ====
section
/-! DEFINITION. The state of a Plovnex package: everything the manual gives the machine, as plain data, with the
stops of a step. Every line of INVENTORY.md's '## State' has its field here. -/

namespace Sys2Proof.Machine

/-- Why a step stops the machine. No instruction or step of the manual does: the manual gives each an effect. -/
inductive Fault where
  /-- Raised by no step: the manual names no behaviour without an effect. Safe: a machine without such a stop
  stops nowhere. -/
  | none
  deriving DecidableEq, Repr

/-- Why a step has no meaning. -/
inductive Refusal where
  /-- Raised by an arm of the dispatch that has no meaning yet. Safe. -/
  | notModelled (mnemonic : String)
  deriving DecidableEq, Repr

/-- The party whose instruction runs. -/
inductive Party where
  | none
  | slot (k : Nat)
  | team (t : Nat)
  deriving DecidableEq, Repr

/-- The fetched instruction: its party, its words and its length in bytes. MODEL (log 1). -/
structure Cur where
  party : Party := .none
  w1 : W32 := 0
  w2 : W32 := 0
  len : Nat := 4
  deriving DecidableEq, Repr

/-- One entry of the agenda: which agent makes the next step. MODEL (log 1, 6, 9, 10). -/
inductive Turn where
  /-- a cycle of a barrel core: R33 picks the slot -/
  | core (cl c : Nat)
  /-- a cycle of a team engine: R34 picks the team -/
  | engine (cl e : Nat)
  /-- a step of the part that is no instruction word -/
  | event (i : Instr)
  /-- time passes -/
  | pass (ns : Nat)
  /-- a cache drops its copy of the 32-byte sector that holds a byte (R277) -/
  | dropCopy (cache key : Nat)
  /-- a translation cache drops a leaf (R358) -/
  | dropLeaf (cl idx : Nat)
  /-- a path comes to see a write (R292) -/
  | reveal (idx path : Nat)
  /-- the host takes the doorbell interrupt of a service ring (R391) -/
  | interrupt (part ring : Nat)
  deriving DecidableEq, Repr

/-! ## Messages, records, frames -/

/-- The class of a message (R247). -/
inductive MsgClass where
  | data | signal | spawn
  deriving DecidableEq, Repr

/-- A message: its class, target, four payload words and the sender's handle (R247, R248). -/
structure Msg where
  cls : MsgClass := .data
  target : W64 := 0
  payload : List W32 := []
  sender : W64 := 0
  /-- the sender's launch -/
  launch : Nat := 0
  /-- its place in the order of sending (MODEL, log 1) -/
  sent : Nat := 0
  /-- the place of a SPAWN that waits in the network among those that wait (R431) -/
  waits : Option Nat := Option.none
  deriving DecidableEq, Repr

/-- A record (R17, R26): its payload words and the lane register that receives the first of them (R27, R31): 20 for
a post, 2 for a regroup or a migration, which carries the whole register file. -/
structure Rec where
  node : Nat := 0
  origin : W64 := 0
  words : List W32 := []
  first : Nat := 20
  quality : Nat := 0
  /-- absolute TIME in ns; none for no deadline -/
  deadline : Option W64 := Option.none
  /-- an uncorrectable error was found in it (R410) -/
  bad : Bool := false
  deriving DecidableEq, Repr

/-- An accepted record: its place in the order of acceptance, the cycle it was accepted in, the TIME before which its
deadline is not examined (R350, R351), and where it is held. -/
structure Held where
  record : Rec
  seq : Nat
  since : Nat
  notBefore : Nat := 0
  /-- the Larder slot that holds it; none for the on-chip buffer (R348) -/
  larder : Option Nat := Option.none
  deriving DecidableEq, Repr

/-- Who posted a record that waits (R348). -/
inductive Poster where
  | post (slot : Nat)
  | mig (slot : Nat)
  | team (team : Nat)
  | raster (op : Nat)
  deriving DecidableEq, Repr

structure WaitRec where
  record : Rec
  poster : Poster
  deriving DecidableEq, Repr

/-- A batch that was released and awaits its team (R349, R352): its place in the cluster's sequence of batches (R57), its node
and its records, which still hold their slots (R348). -/
structure Batch where
  seq : Nat
  node : Nat
  records : List Held
  deriving DecidableEq, Repr

/-- The Drover's records of one launch context on one cluster: held in order of acceptance, waiting in order of
arrival (R348), and the batches that await their teams, in order of release. -/
structure Drover where
  held : List Held := []
  waiting : List WaitRec := []
  batches : List Batch := []
  deriving DecidableEq, Repr

/-- A node descriptor (R347). -/
structure NodeDesc where
  entry : W64 := 0
  batch : Nat := 1
  payload : Nat := 0
  regs : Nat := 36
  prio : Nat := 0
  opt : Bool := false
  mig : Bool := false
  policy : Nat := 0
  timeout : Nat := 1
  qmin : Nat := 0
  degn : Nat := 0
  reserve : Nat := 0
  next : Nat := 0
  ginit : W64 := 0
  /-- the initial uniform block, as read at placement (log 29) -/
  g : Tbl W32 := []
  gp : Nat := 0
  /-- the node's format registers, which its descriptor does not hold (log 31) -/
  fmt : W32 := 0
  sclp : W64 := 0
  deriving DecidableEq, Repr

/-- A deque entry: the frame pointer with the spawner's FMT and SCLP and its launch (R253, R430). -/
structure Frame where
  ptr : W64 := 0
  fmt : W32 := 0
  sclp : W64 := 0
  launch : Nat := 0
  deriving DecidableEq, Repr

/-- The frame a RANGE thread works through (R256). -/
structure Range where
  frame : Frame := {}
  /-- the header, the body pc and the words at 40 to 56, as read when the range became current -/
  head : W64 := 0
  body : W64 := 0
  args : List W64 := []
  lo : W64 := 0
  hi : W64 := 0
  grain : W64 := 0
  deriving DecidableEq, Repr

/-! ## Scalar threads -/

/-- The state of a slot (R36); halted is slot 15's alone (R309). -/
inductive SlotSt where
  | free | ready | waiting | parked | trapped | halted
  deriving DecidableEq, Repr

/-- What a full/empty operation of a scalar thread does when it is served (R261). -/
inductive FeOp where
  | load (rd : Nat)
  | store (v : W64)
  deriving DecidableEq, Repr

/-- Why a slot waits. -/
inductive SlotWait where
  | none
  /-- xwait (mask, result register) or wfi (every bit, no register) -/
  | event (mask : W32) (rd : Nat)
  /-- a full/empty word, with the cycle from which the wait is abandoned (0 for none) and its place in the order of
  arrival (R274) -/
  | fe (op : FeOp) (va : W64) (until_ order : Nat)
  /-- a page fault: the group's token, and the cause and the address of one that is not resolved (R314) -/
  | fault (token : Nat) (code : BitVec 8) (va : W64)
  /-- a full send queue -/
  | send
  /-- xpost back-pressure: the record waits in the Drover's queue; the result register -/
  | post (rd : Nat)
  /-- xmig back-pressure -/
  | mig
  /-- xjoin found no work: the key of its counter, and whether a write or a push has come since -/
  | join (key : Nat) (hit : Bool)
  /-- a frame whose read met a page fault at dispatch (R24) -/
  | dispatch (f : Frame) (token : Nat)
  deriving DecidableEq, Repr

/-- One slot of a barrel core (R36, R42). -/
structure Slot where
  st : SlotSt := .free
  wait : SlotWait := .none
  x : Tbl W64 := []
  f : Tbl W64 := []
  pc : W64 := 0
  fcsr : W32 := 0
  sg : Tbl W128 := []
  events : W32 := 0
  inbox : List Msg := []
  fmt : W32 := 0
  sclp : W64 := 0
  seq : W32 := 0
  handle : W64 := 0
  origin : W64 := 0
  launch : Option Nat := Option.none
  sendQ : List Msg := []
  kcause : BitVec 8 := 0xFF
  ktval : W64 := 0
  timer : W64 := 0
  opened : Bool := false
  reserved : Bool := false
  /-- a stop that waits for the next instruction boundary or the end of a park: its ktval (R318, R323) -/
  stop : Option (BitVec 8 × W64) := Option.none
  karea : W64 := 0
  ksteal : W64 := 0
  ring : Bool := false
  /-- the area and the event word of the last xctx.sv part 1 (R319, R376) -/
  saved : Option (W64 × W32) := Option.none
  resv : Option Nat := Option.none
  range : Option Range := Option.none
  sdom : BitVec 2 := 3
  /-- the cycle before which the slot is not ready (R260) -/
  notBefore : Nat := 0
  /-- the launch context that the FREE slot stole for last (R430) -/
  stealCtx : Nat := 0
  /-- the completed operations on other paths that the thread has observed, and those whose barrier phase its reads have
  met since its last acquire (R290, R292) -/
  observed : List Nat := []
  glimpsed : List Nat := []
  /-- the next instruction's access to a peer is never acknowledged (R396; MODEL, log 117) -/
  unacked : Bool := false
  deriving DecidableEq, Repr

/-! ## Teams -/

/-- The state of a team (R37); HANDLER is READY with TSTAT.HND set. -/
inductive TeamSt where
  | admitting | ready | clauseWait | parked | parkedOff | retiring | retired
  deriving DecidableEq, Repr

/-- A divergence-stack entry (R157). -/
structure DivEntry where
  reconv : Bool
  pc : W64
  mask : Nat
  deriving DecidableEq, Repr

/-- A call-stack entry: return address and depth of the divergence stack (R159). -/
structure CallEntry where
  pc : W64
  depth : Nat
  deriving DecidableEq, Repr

/-- The clause a team is in: its header's address and fields (R101). -/
structure Clause where
  hdr : W64
  fla : BitVec 4
  flb : BitVec 4
  len : Nat
  hint : Nat
  deriving DecidableEq, Repr

/-- A repeat frame in progress (R106): address of the rpt word, body instructions, executions, strides, and where
it stands; rest is the address after the body. -/
structure Rep where
  rpt : W64
  n : Nat
  count : Nat
  sd : Nat
  sa : Nat
  sb : Nat
  k : Nat
  i : Nat
  deriving DecidableEq, Repr

/-- Why a team is PARKED. -/
inductive TeamWait where
  | none
  /-- a page fault met at issue: the group's token, the address, and whether the trap-handler table was read -/
  | fault (token : Nat) (va : W64) (table : Bool)
  /-- sbar.wt: barrier address, phase, the cycle from which the wait is abandoned; 0 for none -/
  | sbar (va : W64) (ph : Bool) (until_ : Nat)
  /-- emit: its records wait in the Drover's queue -/
  | emit
  /-- regroup: as emit, and the team then retires -/
  | regroup
  /-- leave: the lanes not yet placed -/
  | leave (lanes : List Nat) (pc : W64)
  /-- tpark waits for the counters, then for the word -/
  | tpark (va : W64) (d : Nat)
  /-- firmware pre-emption waits for the counters -/
  | preempt
  /-- stopped for good by a security abort (R401) -/
  | aborted
  deriving DecidableEq, Repr

/-- A fence of a team (R165): its paths and scope, and the supply of operations when it was executed (R289). -/
structure Fence where
  src : Nat
  dst : Nat
  scope : Nat
  at_ : Nat
  deriving DecidableEq, Repr

/-- A deferred error (R168): cause, issue order, address of the instruction, lane, address of the access. -/
structure Deferred where
  cause : BitVec 8
  order : Nat
  pc : W64
  lane : W32
  addr : W64
  /-- issued in handler mode (R329) -/
  handler : Bool
  deriving DecidableEq, Repr

/-- A team (R44, R327). Masks hold one bit for each lane. -/
structure Team where
  launch : Nat := 0
  cl : Nat := 0
  eng : Nat := 0
  lanes : Nat := 0
  n : Nat := 1
  prio : Nat := 0
  /-- the cycle it entered ADMITTING in (R352) -/
  entered : Nat := 0
  /-- the TEAM and NODE special registers (R57) -/
  number : W32 := 0
  node : W32 := 0xFFFFFFFF
  st : TeamSt := .ready
  wait : TeamWait := .none
  v : Tbl W32 := []
  p : Tbl Nat := []
  g : Tbl W32 := []
  gp : Nat := 0
  cf : Tbl Nat := []
  pc : W64 := 0
  /-- the instruction executed last: where a fetch violation is raised (R50) -/
  prev : W64 := 0
  sg : Tbl W128 := []
  sgSaved : Tbl W128 := []
  mask : Nat := 0
  live : Nat := 0
  origin : Tbl W64 := []
  /-- the on-chip entries of the two stacks, newest first, and how many older ones are in the spill area (R158) -/
  divs : List DivEntry := []
  divSpilled : Nat := 0
  calls : List CallEntry := []
  callSpilled : Nat := 0
  spillIdx : Nat := 0
  fmt : W32 := 0
  sclp : W64 := 0
  tstat : W32 := 0
  tclass : W32 := 0
  tcause : W32 := 0
  tepc : W64 := 0
  tinfo : W32 := 0
  tlane : W32 := 0
  taddr : W64 := 0
  tcls : W32 := 0
  tret : W32 := 0
  tmask : Nat := 0
  /-- the clause and the replay that the trap left (R333) -/
  tclause : Option Clause := Option.none
  trep : Option Rep := Option.none
  deferred : List Deferred := []
  clause : Option Clause := Option.none
  /-- the header word that a team stopped at a header waits at (R168) -/
  hdrWord : W32 := 0
  /-- the clause that holds prev, when the team has left it -/
  prevClause : Option Clause := Option.none
  rep : Option Rep := Option.none
  /-- the clause just left asked to yield, or a yield was executed (R105) -/
  yielded : Bool := false
  /-- the teams that issue first, and the cycle from which it is ready in any case (R105) -/
  yieldFor : List Nat := []
  yieldUntil : Nat := 0
  /-- when it last issued, for R34 -/
  issued : Nat := 0
  /-- pre-emption asked for at the next clause boundary (R382) -/
  preempt : Bool := false
  /-- the park frame of a PARKED-OFF team -/
  frame : W64 := 0
  /-- the frame that an unfinished park-off has claimed; a restore has begun; the token of the group in which the engine's
  access to the park area or the spill area waits (R379, R383, R428) -/
  claimed : W64 := 0
  restoring : Bool := false
  engineWait : Option Nat := Option.none
  /-- it ended while it held no engine room (R8) -/
  roomless : Bool := false
  /-- a restore set its pc, which must be a header (R429) -/
  resumed : Bool := false
  killed : Option W32 := Option.none
  /-- completed operations on other paths, with their counter: not yet waited for, and observed (R292) -/
  finished : List (Nat × Nat) := []
  observed : List Nat := []
  /-- those whose barrier phase its reads have met since its last acquire (R290) -/
  glimpsed : List Nat := []
  fences : List Fence := []
  deriving DecidableEq, Repr

/-! ## Operations in flight -/

/-- A ray as rtrace reads it (R212): origin and tmin, direction and tmax, the flag word, the root, the segment, the
hierarchy context. -/
structure RayReq where
  ox : W32 := 0
  oy : W32 := 0
  oz : W32 := 0
  tmin : W32 := 0
  dx : W32 := 0
  dy : W32 := 0
  dz : W32 := 0
  tmax : W32 := 0
  flags : W32 := 0
  root : W64 := 0
  sg : W128 := 0
  hc : Nat := 0
  deriving DecidableEq, Repr

/-- A hit (R216, R218), with the leaves it was found at. -/
structure RayHit where
  t : W32
  inst : Nat
  geom : Nat
  prim : Nat
  u : W32
  v : W32
  front : Bool
  opq : Bool
  ta : W64
  ia : W64
  deriving DecidableEq, Repr

/-- An exact number or an infinity: n / d with d above zero. -/
inductive Ext where
  | ninf
  | quot (n : Int) (d : Nat)
  | pinf
  deriving DecidableEq, Repr

/-- Why the ray unit notes a node (R225). -/
inductive NoteKind where
  | segment | fault | malformed | poison | depth
  deriving DecidableEq, Repr

structure RayNote where
  kind : NoteKind
  entry : Ext
  addr : W64
  deriving DecidableEq, Repr

/-- Traversal state that the ray unit keeps for a lane (R221, R223): the best hit so far, the candidates still to be
presented (the first is the one presented), whether one was dropped, the last one rejected, and the nodes noted. -/
structure RayLane where
  ray : RayReq
  best : Option RayHit := Option.none
  buf : List RayHit := []
  more : Bool := false
  lo : Option RayHit := Option.none
  notes : List RayNote := []
  deriving DecidableEq, Repr

/-- A triangle sent to the rasteriser (R236): six coordinates, three depths, its number, and the handle's VCL. -/
structure Tri where
  x0 : Int
  y0 : Int
  x1 : Int
  y1 : Int
  x2 : Int
  y2 : Int
  z0 : W32
  z1 : W32
  z2 : W32
  number : W32
  deriving DecidableEq, Repr

/-- What cpy.mx does (R180): arrays, formats, scale kinds and bases, and whether the segments have L. -/
structure Conv where
  src : W64
  dst : W64
  count : Nat
  afmt : Nat
  asck : Nat
  abase : W64
  cfmt : Nat
  sck : Nat
  cbase : W64
  rnd : Nat
  sat : Bool
  sl : Bool
  dl : Bool
  deriving DecidableEq, Repr

/-- A MAT entry, its operands as read at issue (R191, R193, R200, R201). The segment checks what the sequencer finds
(R194). -/
inductive MatOp where
  | fill (src : W64) (fmt sck boff nblk cstr : Nat) (scale : W64) (l : Bool)
  | ip (a : W64) (afmt asck astr ainc bfmt boff bank steps rows : Nat) (clr : Bool) (scale : W64) (sstr : Nat)
      (l : Bool)
  | op (hdr : W64) (steps : Nat) (sg : W128)
  | rw (hdr : W64) (bfmt boff bank steps : Nat) (clr : Bool) (sg : W128)
  | drain (dst : W64) (fmt sck rnd : Nat) (sat : Bool) (bank dstr : Nat) (scale : W64) (l : Bool)
  | zero (bank : Nat)
  deriving DecidableEq, Repr

/-- The memory operations that act lane by lane (R169 to R176, R182). Sizes in bytes. -/
inductive MemOp where
  | load (size : Nat) (signed : Bool)
  | loadNc
  | store (size : Nat)
  | ldFe
  | stFe
  | feSet (full : Bool)
  | ldAcq (size scope : Nat)
  | stRel (size scope : Nat)
  | atom (code size : Nat) (ret : Bool)
  | cas (size : Nat)
  | discard
  | cmaint (op scope : Nat)
  | gath (size : Nat)
  | scat (size : Nat)
  deriving DecidableEq, Repr

/-- One lane's part of a memory operation, read at issue: address, data (low bytes first), second datum. -/
structure Unit1 where
  lane : Nat
  addr : W64
  data : Nat := 0
  data2 : Nat := 0
  /-- the deciding segment has the L right (R51) -/
  lodged : Bool := false
  deriving DecidableEq, Repr

/-- A leaf in a translation cache (R358): context, level (0 for 64 KiB), page number at that level, and the entry. -/
structure Leaf where
  ctx : Nat
  level : Nat
  page : Nat
  entry : W64
  /-- the physical address of the entry, for the update of its D bit (R359) -/
  at_ : Nat := 0
  /-- the host's translations of the 64 KiB pages of a HOST leaf, obtained through ATS (R386) -/
  ats : Tbl Nat := []
  deriving DecidableEq, Repr

/-- A run of bytes of one page with one key (Mem.lean), of an access that has been translated. -/
structure Piece where
  key : Nat
  va : Nat
  len : Nat
  cacheable : Bool
  k : Bool
  /-- the leaf it was translated by; none in a window -/
  leaf : Option Leaf
  deriving DecidableEq, Repr

/-- What an operation in flight does. -/
inductive OpKind where
  /-- a scalar store on its way to its coherence point (R242), with the lodged lines it writes to and their home dies -/
  | slotStore (ps : List Piece) (bs : List Byte) (lines : List (Nat × Nat))
  /-- d is the destination register; uni tells g registers from v registers -/
  | mem (op : MemOp) (uni : Bool) (d : Nat) (units : List Unit1)
  /-- cpy and cpy.2d: bytes of a row, rows, pitches, whether the segments have L, and the key of the barrier -/
  | copy (src dst : W64) (bytes rows spitch dpitch : Nat) (sl dl : Bool) (bar : Option Nat)
  | conv (c : Conv)
  | mat (m : MatOp)
  | rtrace (d : Nat) (rays : List (Nat × RayReq))
  | rcommit (d : Nat) (answers : List (Nat × Bool))
  | rgen (h e : Nat) (off : Bool)
  | rast (node width height draw : Nat) (tris : List (Nat × Tri))
  | nodeq (d node : Nat)
  /-- an operation that has no more to do than to complete (an inactive or guarded-off one) -/
  | done
  deriving DecidableEq, Repr

/-- An operation in flight; its key in State.ops is its place in issue order. -/
structure Op where
  party : Party := .none
  kind : OpKind := .done
  /-- completion counter of a team's operation -/
  flag : Nat := 0
  pc : W64 := 0
  handler : Bool := false
  /-- the cycle from which a full/empty wait is abandoned; 0 for none (R170, R275) -/
  until_ : Nat := 0
  /-- units still to perform, rising -/
  todo : List Nat := []
  /-- units parked on a page fault, with the group's token -/
  held : List (Nat × Nat) := []
  /-- flags gathered for TSTAT at completion -/
  flags : W32 := 0
  /-- the keys of destination bytes of a copy that lie in its source: they get free values when it is complete (R178) -/
  late : List Nat := []
  /-- what an entry of the array queue has written before it had to wait: the blocks of a drain; of an outer product the
  number of its entries and the bytes that its spill takes (R198, R200) -/
  written : List Nat := []
  /-- the units of a full/empty load or store whose requests have reached the local store, with their places in the order
  of arrival there (R274) -/
  places : Tbl Nat := []
  /-- the cycle in which it entered the array queue (R353) -/
  cycle : Nat := 0
  /-- a unit ended with an error (R168): the barrier of a copy is reached all the same -/
  failed : Bool := false
  /-- groups that TWAKE has failed for it: context, page and kind (R363) -/
  fails : List (Nat × Nat × Nat) := []
  deriving DecidableEq, Repr

/-! ## Clusters, launches, package -/

/-- A group of parked requests (R361): requests of one context, 64 KiB page and kind; its token (R362). -/
structure Group where
  ctx : Nat
  page : Nat
  kind : Nat
  token : Nat
  reqs : Nat := 1
  deriving DecidableEq, Repr

/-- A fault record (R362). -/
structure FaultRec where
  part : Nat
  va : W64
  ctx : Nat
  kind : Nat
  acc : Nat
  token : Nat
  info : W64
  deriving DecidableEq, Repr

/-- A byte in a cache: an engine's L1 (or the fused L1), a swarm data cache, a ray unit's node cache, an instruction cache
(R7, R276, R224, R87; numbered in Mem.lean). -/
structure Copy where
  byte : Byte
  /-- from a K page (R280) -/
  k : Bool
  /-- the translation contexts that have read it (R365) -/
  ctxs : List Nat := []
  deriving DecidableEq, Repr

/-- A lodged line that is allocated (R281): its home die, and the launch it is charged to (none: carried). -/
structure Line where
  home : Nat
  charge : Option Nat
  deriving DecidableEq, Repr

/-- The state of a lodged page (R371), with its home die: the frame it is written to, its level being 0; its level, the
die it moves to, the token of its group where it was in EVICTWAIT, and the charges it has taken there, by line (R370); its
level and its group's token. -/
inductive LPage where
  | normal
  | writeback (frame home : Nat)
  | moving (level dest home : Nat) (was : Option Nat) (charges : List (Nat × Option Nat))
  | evictwait (level token home : Nat)
  deriving DecidableEq, Repr

/-- A write that readers on some paths may not have seen yet (R292): the writing path, the operation that wrote, what
its bytes held before, and the paths that still read that. A path sees all of the write or nothing of it (R68, R294). -/
structure Veil where
  writer : Nat
  op : Nat
  old : Tbl Byte
  blind : List Nat
  deriving DecidableEq, Repr

/-- A service ring's registers (R387). -/
structure Svc where
  addr : W64 := 0
  gen : Nat := 0
  en : Bool := false
  msiv : Nat := 0
  /-- an interrupt of its doorbell has not been delivered yet (R391; MODEL, log 56) -/
  rung : Bool := false
  deriving DecidableEq, Repr

/-- A door's register (R387). -/
structure Door where
  en : Bool := false
  ctx : Nat := 0
  lnum : Nat := 0
  deriving DecidableEq, Repr

/-- The TDISP state of an interface (R399). -/
inductive Tdisp where
  | unlocked | locked | run | error
  deriving DecidableEq, Repr

/-- The SPDM session of a partition (R400). -/
inductive Session where
  | none | exchanged | established
  deriving DecidableEq, Repr

/-- Firmware's limits for a partition at a priority (R343): launch contexts, clusters and lodged bytes; none for no
limit. -/
structure Limits where
  contexts : Option Nat := Option.none
  clusters : Option Nat := Option.none
  lodged : Option Nat := Option.none
  deriving DecidableEq, Repr

/-- A partition's registers (R360, R387, R404) and trust (R399, R400). -/
structure Part where
  ctxbase : W64 := 0
  ctxlo : Nat := 0
  ctxhi : Nat := 0
  tinva : W64 := 0
  tinvc : W64 := 0
  mres : BitVec 3 := 0
  busy : Bool := false
  tmiga : W64 := 0
  tmigc : W64 := 0
  lfbase : W64 := 0
  lfctl : W32 := 0
  lfwr : W32 := 0
  lfrd : W32 := 0
  lquota : Tbl W64 := []
  /-- its ways of the L2 by die, as a mask of 16 (R399), and those it had on a die that it is losing ways of, until what has
  to leave them is gone (R368) -/
  ways : Tbl Nat := []
  waysLost : Tbl Nat := []
  /-- the attach block (R387): owner, ATS, STATE, claims (ring, index, generation) and the TIME of the detach -/
  owner : W64 := 0
  ats : Bool := false
  /-- the host's translations that the device has obtained through ATS, by 64 KiB page (R386; MODEL, log 108) -/
  atsMap : Tbl Nat := []
  attach : BitVec 2 := 2
  claims : List (Bool × Nat × Nat) := []
  detachedAt : Nat := 0
  peert : W64 := 0
  peern : Nat := 0
  svcs : Tbl Svc := []
  doors : Tbl Door := []
  /-- HDRAIN, HDDL, the last LEQ and PENRG (R404) -/
  hdrain : BitVec 2 := 0
  hdie : Nat := 0
  hstack : Nat := 0
  hdone : Bool := false
  hddl : W64 := 0
  leq : Option (Nat × Nat) := Option.none
  penrg : W64 := 0
  /-- TDISP and SPDM (R399, R400) -/
  tdisp : Tdisp := .unlocked
  session : Session := .none
  beatPeriod : Nat := 0
  beatAt : Nat := 0
  /-- the partition's work stopped for good in R401 -/
  stopped : Bool := false
  /-- firmware's limits by priority (R343) -/
  limits : Tbl Limits := []
  /-- HBM range -/
  hbmLo : Nat := 0
  hbmHi : Nat := 0
  /-- the launches that ended, newest first (R409) -/
  ended : List Nat := []
  deriving DecidableEq, Repr

/-- A record sent to a steward (R309, R410): what for, and where. Its layout is firmware's. -/
inductive RasKind where
  | keeper | context | ecc | poison | lost | link | parkArea | cluster
  deriving DecidableEq, Repr

/-- A Waymark entry (R227); used is when it was used last (R229). -/
structure WmEntry where
  k : Nat
  lc : Nat
  hc : Nat
  gen : Nat
  ta : W64
  ia : W64
  used : Nat := 0
  deriving DecidableEq, Repr

/-- What a cluster keeps for a hierarchy context of a launch context (R230). -/
structure WmCtx where
  gen : Nat := 0
  e : BitVec 7 := 0
  off : Bool := false
  deriving DecidableEq, Repr

/-- The state of a Cloakroom entry that is not FREE (R375). -/
inductive CloakSt where
  | held | ready
  deriving DecidableEq, Repr

/-- A cluster (R7). -/
structure Cluster where
  /-- the partition that owns it -/
  part : Nat := 0
  /-- firmware's clock setting, which returns when the clamp ends (R405) -/
  fwMhz : Nat := 3000
  /-- CLOCK = clockBase + elapsed ns since clockAt x MHz / 1000 -/
  clockBase : Nat := 0
  clockAt : Nat := 0
  mhz : Nat := 3000
  /-- launch in each launch-context slot -/
  ctx : Tbl Nat := []
  feretry : W32 := 0x00010000
  mstat : W32 := 0
  mthr : W32 := 0
  /-- throttle requests: power cap, current ramp, thermal, firmware (R406) -/
  reqCap : Nat := 0
  reqRamp : Nat := 0
  reqThermal : Nat := 0
  reqFw : Nat := 0
  /-- the cycle in which the largest request last changed (R406) -/
  reqAt : Nat := 0
  /-- firmware's scale of the energy model, in thousandths (R408) -/
  energyScale : Nat := 1000
  /-- the launch that holds the matrix grant, and its window W (R187) -/
  grant : Option Nat := Option.none
  /-- the partition whose launch had the grant last: a launch of another gets zeros (R187) -/
  grantPart : Option Nat := Option.none
  /-- accumulators by 8,192 x bank + 64 x row + column, Loft bytes by 98,304 x column + offset; the poisoned
  accumulators and 8-byte Loft words; the number of the grant under which cells that nothing wrote hold free values, 0
  when they hold zero (R187, log 14) -/
  bank : Tbl W32 := []
  bankPoison : Tbl Bool := []
  loft : Tbl Byte := []
  loftPoison : Tbl Bool := []
  cellSeed : Nat := 0
  /-- MAT entries in flight, oldest first (R188) -/
  arrayQ : List Nat := []
  /-- row groups enabled, and the TIME of the last change of them, or at which the queue became empty (R205) -/
  rows : Nat := 0
  rowsAt : Nat := 0
  /-- the TIME at which the entry at the head of the queue got there (R407) -/
  headAt : Nat := 0
  wmpart : W32 := 0x00000249
  /-- the Waymark table by 4 x set + way, the settings by 16 x launch context + hierarchy context, the uses so far -/
  waymark : Tbl WmEntry := []
  wmCtx : Tbl WmCtx := []
  wmUses : Nat := 0
  kckbase : W64 := 0
  /-- the translation context that firmware gives the keepers, or the launch whose context it is (R309, log 25) -/
  fwCtx : Nat := 0
  fwLaunch : Option Nat := Option.none
  /-- the Cloakroom entries that are not FREE, and the READY ones in their order (R373, R375) -/
  cloak : Tbl CloakSt := []
  cloakReady : List Nat := []
  /-- the launch of the context saved at an area; the area does not hold it (MODEL, log 28) -/
  areaLaunch : Tbl Nat := []
  tlb : List Leaf := []
  replay : List Group := []
  replayGen : Tbl Nat := []
  faultOut : List FaultRec := []
  poisonQ : List W64 := []
  /-- by launch -/
  drover : Tbl Drover := []
  /-- order of acceptance, and the batch sequence of TEAM (R57) -/
  accepted : Nat := 0
  batchSeq : Nat := 0
  /-- launch threads that wait for a slot: launch and index, oldest first (R344, R431) -/
  pendThreads : List (Nat × Nat) := []
  deriving DecidableEq, Repr

/-- A barrel core's own registers and queues (R311, R312, R253, R323). -/
structure Core where
  kpend : W64 := 0
  ksel : BitVec 4 := 0
  /-- the four on-chip deques, newest entry first -/
  deques : Tbl (List Frame) := []
  dqring : Tbl W64 := []
  dqcnt : Tbl W32 := []
  /-- the ring entry that holds the oldest spilled frame -/
  dqhead : Tbl Nat := []
  /-- the launches of the spilled frames, newest first (R430) -/
  dqlaunch : Tbl (List Nat) := []
  spillQ : List Msg := []
  spillLatch : Option Msg := Option.none
  /-- what firmware gives the keeper: its pc, registers and segments (R309) -/
  fwPc : W64 := 0
  fwX : Tbl W64 := []
  fwSg : Tbl W128 := []
  deriving DecidableEq, Repr

/-- Where a launch stands (R338 to R344, R388, R432); closing: removed from its queue, with its completion word still to be
written. -/
inductive LaunchSt where
  | waiting | resident | closing | ended
  deriving DecidableEq, Repr

/-- A launch: the fields of its record (R337) and what the device keeps for it. -/
structure Launch where
  st : LaunchSt := .resident
  queue : Nat := 0
  /-- index of its record in the ring -/
  index : W32 := 0
  number : Nat := 0
  ctx : Nat := 0
  prio : Nat := 0
  part : Nat := 0
  /-- physical cluster of each virtual cluster, in order -/
  grid : List Nat := []
  lsBytes : Nat := 0
  /-- W, H and D of the grid (R11) -/
  gridW : Nat := 1
  gridH : Nat := 1
  gridD : Nat := 1
  maxGrid : Bool := false
  drainIdle : Bool := false
  fused : Bool := false
  sdom : BitVec 2 := 3
  tentry : W64 := 0
  tlanes : Nat := 0
  tregs : Nat := 0
  teams : Nat := 0
  sentry : W64 := 0
  threads : Nat := 0
  segt : W64 := 0
  ublk : W64 := 0
  nodes : Tbl NodeDesc := []
  lslots : Nat := 0
  larder : W64 := 0
  /-- the format table: FMT and SCLP of entries 0 to 7 (R337) -/
  fmts : List (W32 × W64) := []
  /-- trap-handler table (R325) -/
  trapt : W64 := 0
  /-- the segment templates -/
  teamSegs : Tbl W128 := []
  scalarSegs : Tbl W128 := []
  /-- LODGE: bytes reserved on each die (R366) -/
  lodge : Nat := 0
  mgw : Nat := 0
  wmq : Nat := 0
  done : W64 := 0
  waita : W64 := 0
  waitv : W64 := 0
  /-- park area, stack spill area and its bytes per team (R379, R381) -/
  park : W64 := 0
  spill : W64 := 0
  spsz : W32 := 0
  /-- the Waymark statistics (R232) and TCLASS of new teams (R235) -/
  wmstat : W64 := 0
  /-- counts that a read of WMSTAT shows from a TIME on: it, and whether a lookup was made, hit and was confirmed (R232) -/
  wmLate : List (Nat × Bool × Bool × Bool) := []
  thresh : W32 := 0xFFFFFFFF
  /-- energy in uJ: the launch's, and its shares by cluster and by cluster's array (R268, R409) -/
  energy : W64 := 0
  shares : Tbl W64 := []
  arrayShares : Tbl W64 := []
  /-- it drains (R350) -/
  draining : Bool := false
  drops : Nat := 0
  kteams : Nat := 0
  code : W32 := 0
  /-- the peer whose packet brought it (R346) -/
  peer : Option Nat := Option.none
  /-- when its record was consumed, for the aging of R341 -/
  since : Nat := 0
  deriving DecidableEq, Repr

/-- A launch queue (R335); part is the partition it is assigned to, head the launch consumed and not placed. -/
structure Queue where
  base : W64 := 0
  en : Bool := false
  prio : Nat := 3
  peerOk : Bool := false
  log2n : Nat := 0
  ctx : Nat := 0
  wr : W32 := 0
  rd : W32 := 0
  gen : Nat := 0
  err : Nat := 0
  st : Nat := 0
  part : Nat := 0
  head : Option Nat := Option.none
  /-- the peers whose packets stand in the ring, by index -/
  peers : Tbl Nat := []
  deriving DecidableEq, Repr

/-- A steward's firmware slots (R415): the active one, digests and versions, the anti-rollback counter, when the
active image started, and whether it has reported healthy. -/
structure Steward where
  active : Nat := 0
  digests : Tbl Nat := []
  versions : Tbl Nat := []
  counter : Nat := 0
  since : Nat := 0
  healthy : Bool := true
  deriving DecidableEq, Repr

/-- What a partition's interface report holds (R399): its clusters, contexts, HBM range, ways of the L2 and lodged quota by
die, and queues. -/
structure IfReport where
  clusters : List Nat
  ctxlo : Nat
  ctxhi : Nat
  hbmLo : Nat
  hbmHi : Nat
  ways : Tbl Nat
  lquota : Tbl W64
  queues : List Nat
  deriving DecidableEq, Repr

/-- A response given to a partition's owner (R399, R400). -/
structure Reply where
  part : Nat
  code : Nat
  digests : List Nat := []
  report : Option IfReport := Option.none
  deriving DecidableEq, Repr

/-- Where an access of the host or of a peer goes: through a door at an offset (R385), or to an offset of the partition's HBM
range (R386, R398). -/
inductive HxPlace where
  | door (door off : Nat)
  | range (addr : Nat)
  deriving DecidableEq, Repr

/-- An access of the host, or of a peer, that the device has accepted (R393, R402). -/
structure HxReq where
  part : Nat
  peer : Option Nat
  place : HxPlace
  op : PeerOp
  bytes : List Byte
  deriving DecidableEq, Repr

/-- The package's power registers and the state of the power controller (R404 to R407). -/
structure Power where
  /-- PCAP, PSTAT, IRAMP and LSLEW (R404) -/
  pcap : Nat := 2400
  pwr : Nat := 0
  clamped : Bool := false
  rampUp : Nat := 20
  rampDn : Nat := 20
  slew : Nat := 50
  rowAmps : Nat := 160
  /-- the TIMEs at which the cap request was last raised and lowered (R405) -/
  raisedAt : Nat := 0
  loweredAt : Nat := 0
  /-- row-group changes granted in the current interval of 1 us, and its number (R407) -/
  rampUsed : Nat := 0
  rampAt : Nat := 0
  /-- the most that PCAP may hold and the clamp lets through, in W: 2,400 on an X4; firmware scales it on an X2 (R10, log 121) -/
  most : Nat := 2400
  deriving DecidableEq, Repr

/-- The variants of the package (R1). -/
inductive Variant where
  | x4
  | x4n
  | x2
  deriving DecidableEq, Repr

/-- What the next bring-up finds (R416; MODEL, log 88): firmware slots that do not verify, by 2 x die + slot; stacks of HBM that
fail, by 2 x die + stack; dies; clusters. -/
structure BringUp where
  slots : List Nat := []
  hbm : List Nat := []
  dies : List Nat := []
  clusters : List Nat := []
  deriving DecidableEq, Repr

/-- A checkpoint under way (R417): the partitions that do not take part, and whether all is quiet and HBM on its way to the
tier. -/
structure Checkpoint where
  out : List Nat
  streaming : Bool := false
  deriving DecidableEq, Repr

/-- The machine. -/
structure State where
  cur : Cur := {}
  agenda : List Turn := []
  fresh : Nat := 0
  nextTeam : Nat := 0
  nextOp : Nat := 0
  nextLaunch : Nat := 0
  time : W64 := 0
  caps : W32 := 0x00020F24
  mem : List Host.Cell := []
  /-- full words of local store: present and true -/
  fe : Tbl Bool := []
  poison : Tbl Bool := []
  clusters : Tbl Cluster := []
  cores : Tbl Core := []
  slots : Tbl Slot := []
  teams : Tbl Team := []
  ops : Tbl Op := []
  parts : Tbl Part := []
  lines : Tbl Line := []
  lpages : Tbl LPage := []
  caches : Tbl (Tbl Copy) := []
  veils : List Veil := []
  /-- while an operation runs: the groups that are unresolvable for it (MODEL) -/
  failing : List (Nat × Nat × Nat) := []
  /-- the copies that arrived at a stage barrier, by the key of its word: in this phase and in phases past (R292) -/
  arrivals : Tbl (List Nat) := []
  phases : Tbl (List Nat) := []
  msix : List (Nat × Nat) := []
  ras : List (RasKind × Nat) := []
  launches : Tbl Launch := []
  /-- the physical clusters that are enabled, and the spare ones (R12, R412) -/
  enabled : List Nat := []
  spares : List Nat := []
  /-- messages sent so far -/
  sent : Nat := 0
  /-- ray state by 1,024 x team + lane (R223) -/
  rays : Tbl RayLane := []
  /-- by die: rast operations in order of issue, and the steward -/
  rasterQ : Tbl (List Nat) := []
  stewards : Tbl Steward := []
  /-- dies that tripped (R406) -/
  tripped : List Nat := []
  /-- HBM stacks out of service or on the way, by 2 x die + stack: 1 DRAINING, 2 OFFLINE, 3 RETURNING (R413) -/
  hbmStacks : Tbl Nat := []
  /-- the ways of the L2 out of service, by die (R368) -/
  waysOut : Tbl Nat := []
  /-- the lanes of each link that have failed (R414) -/
  links : Tbl (List Nat) := []
  /-- the links that have failed as a whole (R410, R414) -/
  deadLinks : List Nat := []
  queues : Tbl Queue := []
  /-- the queue served last at each priority, and firmware's aging limit in ns, 0 for none (R341) -/
  served : Tbl Nat := []
  aging : Nat := 0
  /-- the .lstore images that the loader gave with the records of the queues: 8-byte words by number, by imageNo (R344;
  MODEL, log 103) -/
  images : Tbl (Tbl W64) := []
  /-- residency reports by peer (R346) and replies to owners (R400) -/
  reports : List (Nat × List Byte) := []
  replies : List Reply := []
  /-- what reads of the host and of peers returned, by partition -/
  answers : List (Nat × List Byte) := []
  /-- interrupts held while the host is away (R393) -/
  msixHeld : List (Nat × Nat) := []
  /-- accesses of the host and of peers that wait, in their order (R393, R413) -/
  hxHeld : List HxReq := []
  /-- the operations that completed with status SECURITY_ABORT (R401) -/
  aborted : List Nat := []
  power : Power := {}
  /-- the last checkpoint: HBM as it was streamed to the safe tier, with its poison (R417) -/
  tier : List Host.Cell := []
  tierPoison : Tbl Bool := []
  /-- the checkpoint under way, and the partitions that firmware leaves out of the next one (R417) -/
  checkpoint : Option Checkpoint := Option.none
  checkpointOut : List Nat := []
  /-- the variant that the package was built as, what its next bring-up finds, and whether it has enumerated without
  partitions (R416) -/
  package : Variant := .x4
  bringUp : BringUp := {}
  recovery : Bool := false
  deriving DecidableEq, Repr

/-- Dies, enabled clusters of each, and CAPS, of a variant (R1, R10, R15). -/
def Variant.dies : Variant → Nat
  | .x2 => 2
  | _ => 4

def Variant.clusters : Variant → Nat
  | .x2 => 32
  | _ => 36

def Variant.caps : Variant → W32
  | .x4 => 0x00020F24
  | .x4n => 0x00021924
  | .x2 => 0x00022F02

/-- The enabled clusters of each die (R15, log 15). -/
def Variant.enabled (v : Variant) : List Nat :=
  (List.range v.dies).flatMap fun d => (List.range v.clusters).map fun c => d * 64 + c

/-- Four spare clusters of each die; the manual gives no number (log 15). -/
def Variant.spares (v : Variant) : List Nat :=
  (List.range v.dies).flatMap fun d => (List.range 4).map fun c => d * 64 + v.clusters + c

/-- A package right after reset, by its variant. The first launch is number 1. -/
def Variant.reset (v : Variant) : State :=
  { caps := v.caps, enabled := v.enabled, spares := v.spares, nextLaunch := 1, package := v }

/-- The machine right after reset: a Plovnex X4 (log 15). -/
def State.reset : State := Variant.x4.reset

end Sys2Proof.Machine
end

