-- ==== Sys2Proof/Machine/Mem.lean ====
section
/-! DEFINITION. Storage: which key a byte has, reading and writing bytes at the coherence point, full/empty bits,
poison, lodged lines and the caches' copies. -/

namespace Sys2Proof.Machine

/-! ## Bit helpers -/

/-- Bits hi..lo of a number. -/
def bits (v hi lo : Nat) : Nat := v / 2 ^ lo % 2 ^ (hi + 1 - lo)

/-- The signed value of the low w bits. -/
def toSigned (w v : Nat) : Int :=
  if v % 2 ^ w < 2 ^ (w - 1) then Int.ofNat (v % 2 ^ w) else Int.ofNat (v % 2 ^ w) - Int.ofNat (2 ^ w)

/-- A number modulo 2^w. -/
def wrap (w : Nat) (v : Int) : Nat := (v % Int.ofNat (2 ^ w)).toNat

/-- A list of bytes as a number, the first byte lowest (R4). -/
def ofBytes : List Byte → Nat
  | [] => 0
  | b :: r => b.toNat + 256 * ofBytes r

/-- The low n bytes of a number, lowest first. -/
def toBytes (n v : Nat) : List Byte :=
  match n with
  | 0 => []
  | k + 1 => BitVec.ofNat 8 v :: toBytes k (v / 256)

/-- A canonical address lies in [0, 2^56) or [2^64 - 2^56, 2^64) (R47). -/
def canonical (a : Nat) : Bool := decide (a < 2 ^ 56) || (decide (2 ^ 64 - 2 ^ 56 ≤ a) && decide (a < 2 ^ 64))

/-! ## Keys of bytes

A byte of storage has one key: 8 x its place within its kind of storage + the number of the kind. The next byte's key
is 8 higher. -/

/-- HBM, by physical address (R354). -/
def keyHbm (p : Nat) : Nat := p * 8

/-- Local store, by launch, virtual cluster and offset (R271, R272). -/
def keyLocal (launch v o : Nat) : Nat := ((launch * 256 + v) * 0x100000 + o) * 8 + 1

/-- Lodged pages, by context and the 57 bits of the address (log 12). -/
def keyLodged (ctx va : Nat) : Nat := (ctx * 2 ^ 57 + va % 2 ^ 57) * 8 + 2

/-- Host memory, by host address. -/
def keyHost (a : Nat) : Nat := a * 8 + 3

/-- Peer memory, by peer and address in the peer's address space (R395; log 13). -/
def keyPeer (peer a : Nat) : Nat := (peer * 2 ^ 64 + a % 2 ^ 64) * 8 + 4

def keyKind (k : Nat) : Nat := k % 8
def keyPlace (k : Nat) : Nat := k / 8

/-- The key n bytes on. -/
def keyAdd (k n : Nat) : Nat := k + 8 * n

/-- The first key of the aligned block of n bytes that holds a key. -/
def keyBlock (n k : Nat) : Nat := (keyPlace k / n * n) * 8 + keyKind k

/-- The unit that is poisoned as one: a 32-byte HBM or cache sector, a 256-byte lodged line, an 8-byte local-store
word (R372, R410). -/
def poisonUnit (k : Nat) : Nat :=
  match keyKind k with
  | 1 => keyBlock 8 k
  | 2 => keyBlock 256 k
  | _ => keyBlock 32 k

/-! ## Bytes at the coherence point -/

/-- One byte of storage; what nothing has written reads zero (log 5). -/
def State.byte (s : State) (k : Nat) : Byte := Tbl.get s.mem 0 k

/-- One byte stored. -/
def State.setByte (s : State) (k : Nat) (b : Byte) : State := { s with mem := Tbl.set s.mem 0 k b }

/-- n bytes from a key on. -/
def State.bytesAt (s : State) (k n : Nat) : List Byte := (List.range n).map fun i => s.byte (keyAdd k i)

/-- The number that n bytes from a key on hold. -/
def State.readKey (s : State) (k n : Nat) : Nat := ofBytes (s.bytesAt k n)

/-- Bytes stored from a key on. -/
def State.writeBytes (s : State) (k : Nat) : List Byte → State
  | [] => s
  | b :: r => (s.setByte k b).writeBytes (keyAdd k 1) r

/-- The low n bytes of a number stored from a key on. -/
def State.writeKey (s : State) (k n v : Nat) : State := s.writeBytes k (toBytes n v)

/-- The canonical form of memory: strictly rising keys, no byte that an unlisted key reads as. -/
def Memory.wf (m : List Host.Cell) : Bool := Tbl.wf m 0

/-! ## Full/empty bits and poison -/

/-- The full/empty bit of the 8-byte local-store word that holds a key (R272). -/
def State.isFull (s : State) (k : Nat) : Bool := Tbl.get s.fe false (keyBlock 8 k)

def State.setFull (s : State) (k : Nat) (b : Bool) : State := { s with fe := Tbl.set s.fe false (keyBlock 8 k) b }

/-- Whether the unit that holds a key is poisoned. -/
def State.isPoisoned (s : State) (k : Nat) : Bool := Tbl.get s.poison false (poisonUnit k)

def State.setPoison (s : State) (k : Nat) (b : Bool) : State :=
  { s with poison := Tbl.set s.poison false (poisonUnit k) b }

/-- Whether any of n bytes from a key on is poisoned. -/
def State.anyPoison (s : State) (k n : Nat) : Bool := (List.range n).any fun i => s.isPoisoned (keyAdd k i)

/-! ## Caches (R276 to R280) -/

/-- Numbers of the caches of a cluster: four engine L1s (number 0 is the fused one), the swarm data cache, the node cache
of the ray unit, and the instruction caches of the four engines and of the swarm (R7). -/
def l1No (cl eng : Nat) : Nat := cl * 16 + eng
def swarmNo (cl : Nat) : Nat := cl * 16 + 4
def nodeNo (cl : Nat) : Nat := cl * 16 + 5
def codeNo (cl eng : Nat) : Nat := cl * 16 + 8 + eng
def swarmCodeNo (cl : Nat) : Nat := cl * 16 + 12

/-- Every cache of a cluster. -/
def clusterCaches (cl : Nat) : List Nat :=
  [l1No cl 0, l1No cl 1, l1No cl 2, l1No cl 3, swarmNo cl, nodeNo cl, codeNo cl 0, codeNo cl 1, codeNo cl 2, codeNo cl 3,
    swarmCodeNo cl]

/-- The cluster of a cache, and its number there. -/
def cacheCluster (cache : Nat) : Nat := cache / 16
def cacheUnit (cache : Nat) : Nat := cache % 16

/-- The copy of a byte in a cache. -/
def State.copy? (s : State) (cache k : Nat) : Option Copy := Tbl.find? (Tbl.get s.caches [] cache) k

/-- A cache with a byte put in. -/
def State.fill (s : State) (cache k : Nat) (c : Copy) : State :=
  { s with caches := Tbl.put s.caches cache (Tbl.put (Tbl.get s.caches [] cache) k c) }

/-- A cache without the copies that a predicate on keys names. -/
def State.uncache (s : State) (cache : Nat) (drop : Nat → Bool) : State :=
  { s with caches := Tbl.modify s.caches cache fun t => t.filter fun e => !drop e.1 }

/-- A cache that has a copy of a byte gets the new byte (R276). -/
def State.touch (s : State) (cache k : Nat) (b : Byte) : State :=
  { s with caches := Tbl.modify s.caches cache fun t => Tbl.modify t k fun c => { c with byte := b } }

/-- The acquires of R277 drop every line of a cache that is not from a K page. -/
def State.invalidate (s : State) (cache : Nat) : State :=
  { s with caches := Tbl.modify s.caches cache fun t => t.filter fun e => e.2.k }

/-- A launch boundary drops every line of a cache (R277). -/
def State.invalidateAll (s : State) (cache : Nat) : State := { s with caches := Tbl.erase s.caches cache }

/-- A cache drops what a translation context has read (R230). -/
def State.forgetCtx (s : State) (cache ctx : Nat) : State :=
  { s with caches := Tbl.modify s.caches cache fun t => t.filter fun e => !e.2.ctxs.contains ctx }

/-- Every cache drops its copies of a block of n bytes. -/
def State.dropBlock (s : State) (n k : Nat) : State :=
  { s with caches := s.caches.map fun e => (e.1, e.2.filter fun c => keyBlock n c.1 != keyBlock n k) }

/-! ## Paths (R286, R96) -/

def pathLS : Nat := 0
def pathAC : Nat := 1
def pathMX : Nat := 2
def pathRY : Nat := 3
def pathNI : Nat := 4
def pathHX : Nat := 5

/-- The paths of R286. -/
def allPaths : List Nat := [pathLS, pathAC, pathMX, pathRY, pathNI, pathHX]

/-- What a veil shows a path of a byte. -/
def Veil.shows (v : Veil) (path k : Nat) : Option Byte := if v.blind.contains path then Tbl.find? v.old k else none

/-- What a reader on a path sees of a byte: what stood there before the oldest write that the path has not seen, or the
byte (R292, log 10). -/
def State.seen (s : State) (path k : Nat) : Byte := (s.veils.findSome? fun v => v.shows path k).getD (s.byte k)

def State.seenBytes (s : State) (path k n : Nat) : List Byte :=
  (List.range n).map fun i => s.seen path (keyAdd k i)

/-- Whether a write changed one of some bytes. -/
def Veil.meets (v : Veil) (ks : List Nat) : Bool := v.old.any fun e => ks.contains e.1

/-- The veils after a path has come to see the writes that a predicate names, and with each of them every earlier write
that it meets (R287); and the bytes of those writes. -/
def liftVeils (path : Nat) (want : Veil → Bool) : List Veil → List Veil × List Nat
  | [] => ([], [])
  | v :: r =>
    let (r, ks) := liftVeils path want r
    if v.blind.contains path && (want v || v.meets ks) then
      let rest := v.blind.filter fun p => p != path
      (if rest = [] then r else { v with blind := rest } :: r, Tbl.keys v.old ++ ks)
    else (v :: r, ks)

/-- A path comes to see writes. -/
def State.lift (s : State) (path : Nat) (want : Veil → Bool) : State :=
  { s with veils := (liftVeils path want s.veils).1 }

/-- A path comes to see every write to some bytes. -/
def State.liftKeys (s : State) (path : Nat) (ks : List Nat) : State := s.lift path fun v => v.meets ks

/-- Several paths come to see writes. -/
def State.liftAll (s : State) (paths : List Nat) (want : Veil → Bool) : State :=
  paths.foldl (fun (s : State) p => s.lift p want) s

/-- Whether a path sees a write. -/
def Veil.seenBy (v : Veil) (path : Nat) : Bool := !v.blind.contains path

/-- A release at system scope: the host comes to see what the LS path sees (R285, R296). -/
def State.releaseHost (s : State) (scope : Nat) : State :=
  if 5 ≤ scope then s.lift pathHX fun v => v.seenBy pathLS else s

/-- The cells of bytes from a key on. -/
def cellsAt (k : Nat) : List Byte → List (Nat × Byte)
  | [] => []
  | b :: r => (k, b) :: cellsAt (keyAdd k 1) r

/-- The veil that a write of an operation to some bytes leaves. -/
def State.veilOf (s : State) (path op : Nat) (ks : List Nat) : Veil :=
  { writer := path, op := op, old := ks.foldl (fun t k => Tbl.put t k (s.byte k)) []
    blind := allPaths.filter fun p => p != path }

/-- What a write does to what the paths see: its own path has seen what it overwrites, and the other paths do not see
it until a fence or the agenda shows it to them (R287, R292). A write of a host agent is seen by every path, with what it
overwrites (R296; log 10). -/
def State.veilWrite (s : State) (path op : Nat) (ks : List Nat) : State :=
  if ks = [] then s
  else if path = pathHX then s.liftAll allPaths fun v => v.meets ks
  else
    let s' := s.liftKeys path ks
    { s' with veils := s'.veils ++ [s.veilOf path op ks] }

/-- The veils without the bytes that a predicate on keys names: nothing is left to be seen of them. -/
def State.dropVeils (s : State) (gone : Nat → Bool) : State :=
  { s with veils := (s.veils.map fun (v : Veil) => { v with old := v.old.filter fun e => !gone e.1 }).filter fun v => v.old != [] }

/-- Every write that has been made becomes visible to every path (R297). -/
def State.showAll (s : State) : State := { s with veils := [] }

/-- What is visible at system scope, on the LS path and to the host, becomes visible to every path (R297). -/
def State.showSystem (s : State) : State :=
  { s with veils := s.veils.filter fun v => !(v.seenBy pathLS && v.seenBy pathHX) }

/-- Cells stored. -/
def State.setCells (s : State) : List (Nat × Byte) → State
  | [] => s
  | (k, b) :: r => (s.setByte k b).setCells r

/-- Cells written on a path by an operation, as one unit. -/
def State.putCells (s : State) (path op : Nat) (cs : List (Nat × Byte)) : State :=
  (s.veilWrite path op (cs.map Prod.fst)).setCells cs

/-- Bytes written from a key on. -/
def State.putBytes (s : State) (path op k : Nat) (bs : List Byte) : State := s.putCells path op (cellsAt k bs)

end Sys2Proof.Machine
end

