-- ==== Sys2Proof/Machine/Float.lean ====
section
/-! DEFINITION. Number formats and rounding (R60 to R67, R75 to R80): exact values, decoding and rounding of every
format, and the exact operations. Flags are the bits of TSTAT and fcsr: NX 1, UF 2, OF 4, DZ 8, NV 16. -/

namespace Sys2Proof.Machine

/-! ## Exact values -/

/-- A NaN (signalling or quiet), an infinity, or the finite value (-1)^neg x m x 2^e. -/
inductive Val where
  | nan (signalling : Bool)
  | inf (neg : Bool)
  | fin (neg : Bool) (m : Nat) (e : Int)
  deriving DecidableEq, Repr

def fNX : W32 := 1
def fUF : W32 := 2
def fOF : W32 := 4
def fDZ : W32 := 8
def fNV : W32 := 16

/-- The kinds of top exponent: infinities and NaNs (IEEE), only the all-ones code a NaN (E4M3, E5M3), neither (E2M1). -/
inductive Top where
  | ieee | oneNan | none
  deriving DecidableEq, Repr

/-- A floating-point format (R60, R63, R65). -/
structure Fmt where
  ew : Nat
  mw : Nat
  bias : Nat
  top : Top
  signed : Bool := true
  deriving DecidableEq, Repr

def f64 : Fmt := Fmt.mk 11 52 1023 .ieee true
def f32 : Fmt := Fmt.mk 8 23 127 .ieee true
def f16 : Fmt := Fmt.mk 5 10 15 .ieee true
def bf16 : Fmt := Fmt.mk 8 7 127 .ieee true
def e4m3 : Fmt := Fmt.mk 4 3 7 .oneNan true
def e5m2 : Fmt := Fmt.mk 5 2 15 .ieee true
def e2m1 : Fmt := Fmt.mk 2 1 1 .none true
def e5m3 : Fmt := Fmt.mk 5 3 15 .oneNan false

/-- Bits of a code. -/
def Fmt.width (f : Fmt) : Nat := f.ew + f.mw + f.signed.toNat

/-- The canonical NaN, with the sign bit clear (R61); E2M1 has none and gives zero. -/
def Fmt.nanCode (f : Fmt) : Nat :=
  match f.top with
  | .ieee => (2 ^ f.ew - 1) * 2 ^ f.mw + 2 ^ (f.mw - 1)
  | .oneNan => 2 ^ (f.ew + f.mw) - 1
  | .none => 0

/-- The code of the largest finite value. -/
def Fmt.maxCode (f : Fmt) : Nat :=
  match f.top with
  | .ieee => (2 ^ f.ew - 1) * 2 ^ f.mw - 1
  | .oneNan => 2 ^ (f.ew + f.mw) - 2
  | .none => 2 ^ (f.ew + f.mw) - 1

def Fmt.infCode (f : Fmt) : Nat := (2 ^ f.ew - 1) * 2 ^ f.mw

def Fmt.signBit (f : Fmt) (neg : Bool) : Nat := if neg && f.signed then 2 ^ (f.ew + f.mw) else 0

/-- The finite value of exponent field e and mantissa field m. -/
def Fmt.finite (f : Fmt) (neg : Bool) (e m : Nat) : Val :=
  if e = 0 then .fin neg m (1 - Int.ofNat f.bias - Int.ofNat f.mw)
  else .fin neg (m + 2 ^ f.mw) (Int.ofNat e - Int.ofNat f.bias - Int.ofNat f.mw)

/-- The value of a code. A NaN of an IEEE-like format whose top mantissa bit is clear is signalling. -/
def Fmt.decode (f : Fmt) (code : Nat) : Val :=
  let neg := f.signed && code.testBit (f.ew + f.mw)
  let e := code / 2 ^ f.mw % 2 ^ f.ew
  let m := code % 2 ^ f.mw
  match f.top with
  | .ieee => if e = 2 ^ f.ew - 1 then (if m = 0 then .inf neg else .nan (!m.testBit (f.mw - 1))) else f.finite neg e m
  | .oneNan => if e = 2 ^ f.ew - 1 ∧ m = 2 ^ f.mw - 1 then .nan false else f.finite neg e m
  | .none => f.finite neg e m

/-- E8M0 (R66). -/
def e8m0 (code : Nat) : Val := if code % 256 = 255 then .nan false else .fin false 1 (Int.ofNat (code % 256) - 127)

/-- A signed integer as a value. -/
def Val.ofInt (i : Int) : Val := .fin (decide (i < 0)) i.natAbs 0

/-- The signed mantissa. -/
def sgnInt (neg : Bool) (m : Nat) : Int := if neg then -Int.ofNat m else Int.ofNat m

/-- Compare two finite or infinite values: less, equal, greater. -/
def cmpVal (a b : Val) : Ordering :=
  let key (v : Val) (e : Int) : Int :=
    match v with
    | .fin n m x => sgnInt n m * 2 ^ (x - e).toNat
    | _ => 0
  match a, b with
  | .inf x, .inf y => if x = y then .eq else if x then .lt else .gt
  | .inf x, _ => if x then .lt else .gt
  | _, .inf y => if y then .gt else .lt
  | .fin _ _ e1, .fin _ _ e2 => compare (key a (min e1 e2)) (key b (min e1 e2))
  | _, _ => .eq

/-! ## Rounding (R75 to R78) -/

/-- The integer that m x 2^(-sh) rounds to in a mode, and whether that changes it. Mode 4 uses the random bits r. -/
def roundShift (mode : Nat) (neg : Bool) (r m sh : Nat) : Nat × Bool :=
  let n := m / 2 ^ sh
  let rem := m % 2 ^ sh
  if rem = 0 then (n, false) else
  let up :=
    match mode with
    | 0 => decide (2 ^ sh < 2 * rem) || (decide (2 * rem = 2 ^ sh) && n % 2 == 1)
    | 2 => !neg
    | 3 => neg
    | 4 => decide (2 ^ (sh + 16) ≤ rem * 2 ^ 16 + r * 2 ^ sh)
    | 5 => decide (2 ^ sh ≤ 2 * rem)
    | _ => false
  (n + up.toNat, true)

/-- m x 2^e as an integer multiple of 2^q, rounded. -/
def roundAt (mode : Nat) (neg : Bool) (r m : Nat) (e q : Int) : Nat × Bool :=
  if q ≤ e then (m * 2 ^ (e - q).toNat, false) else roundShift mode neg r m (q - e).toNat

/-- n x 2^q exceeds the largest finite value of f. -/
def Fmt.exceeds (f : Fmt) (n : Nat) (q : Int) : Bool :=
  match f.finite false (f.maxCode / 2 ^ f.mw) (f.maxCode % 2 ^ f.mw) with
  | .fin _ m e => if e ≤ q then decide (m < n * 2 ^ (q - e).toNat) else decide (m * 2 ^ (e - q).toNat < n)
  | _ => false

/-- The code of n x 2^q, which has at most mw + 1 bits or is 2^(mw+1). -/
def Fmt.assemble (f : Fmt) (n : Nat) (q : Int) : Nat :=
  if n < 2 ^ f.mw then n
  else
    let (n, q) := if n = 2 ^ (f.mw + 1) then (2 ^ f.mw, q + 1) else (n, q)
    (q + Int.ofNat f.mw + Int.ofNat f.bias).toNat * 2 ^ f.mw + (n - 2 ^ f.mw)

/-- What an overflow gives (R76 step 4); a NaN has its sign bit clear (R61). -/
def Fmt.overflow (f : Fmt) (mode : Nat) (sat neg : Bool) : Nat :=
  let toInf := match mode with
    | 1 => false
    | 2 => !neg
    | 3 => neg
    | _ => true
  if sat || !toInf then f.signBit neg + f.maxCode
  else match f.top with
    | .ieee => f.signBit neg + f.infCode
    | .oneNan => if f.signed then f.nanCode else f.maxCode
    | .none => f.signBit neg + f.maxCode

/-- The result of rounding a finite non-zero m x 2^e: steps 3 to 5 of R76, in a scalar thread too (log 27). -/
def Fmt.roundFin (f : Fmt) (mode : Nat) (sat neg : Bool) (r m : Nat) (e : Int) : Nat × W32 :=
  let k := Int.ofNat (Nat.log2 m) + e
  let emin : Int := 1 - Int.ofNat f.bias
  let q := max (k - Int.ofNat f.mw) (emin - Int.ofNat f.mw)
  let (n, inexact) := roundAt mode neg r m e q
  if f.exceeds n q then (f.overflow mode sat neg, fOF ||| fNX)
  else
    let small := decide (0 < n) && decide (n < 2 ^ f.mw)
    (f.signBit neg + f.assemble n q, if inexact then (if small then fUF ||| fNX else fNX) else 0)

/-- Round of R76 to a floating-point format; r holds the random bits of mode 4. An infinity without saturation gives
the NaN of E4M3 in every mode (DEDUCED, log 96). -/
def Fmt.round (f : Fmt) (mode : Nat) (sat : Bool) (r : Nat) (v : Val) : Nat × W32 :=
  match v with
  | .nan _ => (f.nanCode, if f.top = .none then fNV else 0)
  | .inf neg =>
    match f.top with
    | .ieee => if sat then (f.signBit neg + f.maxCode, fOF ||| fNX) else (f.signBit neg + f.infCode, 0)
    | _ => (f.overflow 0 sat neg, fOF ||| fNX)
  | .fin neg m e => if m = 0 then (f.signBit neg, 0) else f.roundFin mode sat neg r m e

/-- E5M3 as a destination: every value above the largest, before it is rounded, gives the largest with OF and NX
(R65). -/
def roundE5M3 (mode : Nat) (v : Val) : Nat × W32 :=
  match v with
  | .nan _ => (0xFF, 0)
  | .inf neg => if neg then (0, fNV) else (0xFE, fOF ||| fNX)
  | .fin neg m e =>
    if m = 0 then (0, 0) else if neg then (0, fNV)
    else if cmpVal v (e5m3.decode 0xFE) = .gt then (0xFE, fOF ||| fNX)
    else e5m3.roundFin mode true false 0 m e

/-- An integer destination of lo..hi (R76 step 6). -/
def roundInt (mode : Nat) (lo hi : Int) (v : Val) : Int × W32 :=
  match v with
  | .nan _ => (0, fNV)
  | .inf neg => (if neg then lo else hi, fNV)
  | .fin neg m e =>
    let (n, inexact) := roundAt mode neg 0 m e 0
    let y : Int := if neg then -Int.ofNat n else Int.ofNat n
    if y < lo then (lo, fOF ||| fNX) else if hi < y then (hi, fOF ||| fNX) else (y, if inexact then fNX else 0)

/-! ## Exact operations -/

def Val.isNan : Val → Bool
  | .nan _ => true
  | _ => false

def Val.isSnan : Val → Bool
  | .nan s => s
  | _ => false

/-- NV for a signalling NaN among the operands. -/
def snanFlag (vs : List Val) : W32 := if vs.any Val.isSnan then fNV else 0

def Val.neg : Val → Val
  | .nan s => .nan s
  | .inf n => .inf (!n)
  | .fin n m e => .fin (!n) m e

/-- The exact sum of two finite values; a zero sum takes its sign as IEEE 754 says for the mode. -/
def addFin (mode : Nat) (n1 : Bool) (m1 : Nat) (e1 : Int) (n2 : Bool) (m2 : Nat) (e2 : Int) : Val :=
  let e := min e1 e2
  let s := sgnInt n1 m1 * 2 ^ (e1 - e).toNat + sgnInt n2 m2 * 2 ^ (e2 - e).toNat
  if s = 0 then .fin (if n1 = n2 then n1 else mode == 3) 0 0
  else .fin (decide (s < 0)) s.natAbs e

/-- Exact addition, with NV for opposite infinities and signalling NaNs. -/
def addVal (mode : Nat) (a b : Val) : Val × W32 :=
  match a, b with
  | .nan _, _ => (.nan false, snanFlag [a, b])
  | _, .nan _ => (.nan false, snanFlag [a, b])
  | .inf x, .inf y => if x = y then (.inf x, 0) else (.nan false, fNV)
  | .inf x, .fin _ _ _ => (.inf x, 0)
  | .fin _ _ _, .inf y => (.inf y, 0)
  | .fin n1 m1 e1, .fin n2 m2 e2 => (addFin mode n1 m1 e1 n2 m2 e2, 0)

/-- Exact multiplication. -/
def mulVal (a b : Val) : Val × W32 :=
  match a, b with
  | .nan _, _ => (.nan false, snanFlag [a, b])
  | _, .nan _ => (.nan false, snanFlag [a, b])
  | .inf x, .inf y => (.inf (x != y), 0)
  | .inf x, .fin y m _ => if m = 0 then (.nan false, fNV) else (.inf (x != y), 0)
  | .fin x m _, .inf y => if m = 0 then (.nan false, fNV) else (.inf (x != y), 0)
  | .fin n1 m1 e1, .fin n2 m2 e2 => (.fin (n1 != n2) (m1 * m2) (e1 + e2), 0)

/-- a x b + c, exact. -/
def fmaVal (mode : Nat) (a b c : Val) : Val × W32 :=
  let (p, f) := mulVal a b
  let (s, g) := addVal mode p c
  (s, f ||| g)

/-- The integer square root, by bits; n is the number of bits still to try. -/
def isqrtGo (v : Nat) : Nat → Nat → Nat
  | 0, r => r
  | n + 1, r => isqrtGo v n (if (r + 2 ^ n) * (r + 2 ^ n) ≤ v then r + 2 ^ n else r)

def isqrt (v : Nat) : Nat := isqrtGo v (Nat.log2 v / 2 + 1) 0

/-- a / b to p bits and a sticky bit, with DZ and NV; rounding it gives the correctly rounded quotient for every
format of less than p - 2 bits. -/
def divVal (p : Nat) (a b : Val) : Val × W32 :=
  match a, b with
  | .nan _, _ => (.nan false, snanFlag [a, b])
  | _, .nan _ => (.nan false, snanFlag [a, b])
  | .inf _, .inf _ => (.nan false, fNV)
  | .inf x, .fin y _ _ => (.inf (x != y), 0)
  | .fin x _ _, .inf y => (.fin (x != y) 0 0, 0)
  | .fin x m1 e1, .fin y m2 e2 =>
    if m2 = 0 then (if m1 = 0 then (.nan false, fNV) else (.inf (x != y), fDZ))
    else if m1 = 0 then (.fin (x != y) 0 0, 0)
    else
      let k := p + Nat.log2 m2 + 1
      let q := m1 * 2 ^ k / m2
      let sticky := if m1 * 2 ^ k % m2 = 0 then 0 else 1
      (.fin (x != y) (2 * q + sticky) (e1 - e2 - Int.ofNat k - 1), 0)

/-- The square root to p bits and a sticky bit. -/
def sqrtVal (p : Nat) (a : Val) : Val × W32 :=
  match a with
  | .nan s => (.nan false, if s then fNV else 0)
  | .inf neg => if neg then (.nan false, fNV) else (.inf false, 0)
  | .fin neg m e =>
    if m = 0 then (.fin neg 0 0, 0)
    else if neg then (.nan false, fNV)
    else
      let odd := (e % 2).toNat
      let v := m * 2 ^ odd * 2 ^ (2 * p)
      let q := isqrt v
      let sticky := if q * q = v then 0 else 1
      (.fin false (2 * q + sticky) ((e - Int.ofNat odd) / 2 - Int.ofNat p - 1), 0)

/-- The sign of a zero, finite value or infinity. -/
def Val.sign : Val → Bool
  | .nan _ => false
  | .inf n => n
  | .fin n _ _ => n

/-- minimumNumber of IEEE 754-2019 on the values, -0 below +0 (R132): true picks the first operand. -/
def pickMin (a b : Val) : Bool :=
  match cmpVal a b with
  | .lt => true
  | .gt => false
  | .eq => a.sign || !b.sign

/-- fmin and fmax on codes (R132). -/
def minMaxCode (f : Fmt) (isMax : Bool) (x y : Nat) : Nat × W32 :=
  let a := f.decode x
  let b := f.decode y
  let flags := snanFlag [a, b]
  if a.isNan && b.isNan then (f.nanCode, flags)
  else if a.isNan then (y, flags)
  else if b.isNan then (x, flags)
  else (if pickMin a b != isMax then x else y, flags)

/-! ## Binary operations on codes of one format -/

def addCode (f : Fmt) (x y : Nat) : Nat × W32 :=
  let (v, a) := addVal 0 (f.decode x) (f.decode y)
  let (r, b) := f.round 0 false 0 v
  (r, a ||| b)

def subCode (f : Fmt) (x y : Nat) : Nat × W32 :=
  let (v, a) := addVal 0 (f.decode x) (f.decode y).neg
  let (r, b) := f.round 0 false 0 v
  (r, a ||| b)

def mulCode (f : Fmt) (x y : Nat) : Nat × W32 :=
  let (v, a) := mulVal (f.decode x) (f.decode y)
  let (r, b) := f.round 0 false 0 v
  (r, a ||| b)

def fmaCode (f : Fmt) (x y z : Nat) : Nat × W32 :=
  let (v, a) := fmaVal 0 (f.decode x) (f.decode y) (f.decode z)
  let (r, b) := f.round 0 false 0 v
  (r, a ||| b)

/-- A comparison of R92 and R133 by condition code. -/
def fcmpCode (f : Fmt) (c x y : Nat) : Bool × W32 :=
  let a := f.decode x
  let b := f.decode y
  let nan := a.isNan || b.isNan
  let o := cmpVal a b
  let quiet := snanFlag [a, b]
  let loud := if nan then fNV else 0
  match c with
  | 0 => (!nan && o == .eq, quiet)
  | 1 => (nan || o != .eq, quiet)
  | 2 => (!nan && o == .lt, loud)
  | 3 => (!nan && o != .gt, loud)
  | 4 => (!nan && o == .gt, loud)
  | 5 => (!nan && o != .lt, loud)
  | 6 => (!nan, quiet)
  | _ => (nan, quiet)

/-- An integral value in its own format (R135): no flag but NV. -/
def rndCode (f : Fmt) (mode x : Nat) : Nat × W32 :=
  match f.decode x with
  | .nan s => (f.nanCode, if s then fNV else 0)
  | .inf neg => (f.signBit neg + f.infCode, 0)
  | .fin neg m e =>
    let (n, _) := roundAt mode neg 0 m e 0
    ((f.round 0 false 0 (.fin neg n 0)).1, 0)

/-! ## Transcendentals (R79, R134) -/

/-- The FP format of a type (R90). -/
def fpFmt (t : BitVec 2) : Fmt :=
  match t.toNat with
  | 0 => f32
  | 1 => f16
  | 2 => bf16
  | _ => f64

/-- A power of two: its exponent. -/
def Val.pow2? : Val → Option Int
  | .fin _ m e => if m ≠ 0 ∧ m = 2 ^ Nat.log2 m then some (Int.ofNat (Nat.log2 m) + e) else none
  | _ => none

/-- The exact value 2^n of a sign. -/
def pow2Val (neg : Bool) (n : Int) : Val := .fin neg 1 n

/-- Flags of an approximate result (R134): NX as told, OF with an infinity, UF with a subnormal. -/
def approxFlags (f : Fmt) (code : Nat) (inexact : Bool) : W32 :=
  let e := code / 2 ^ f.mw % 2 ^ f.ew
  let m := code % 2 ^ f.mw
  (if inexact then fNX else 0) ||| (if e = 2 ^ f.ew - 1 then fOF ||| fNX else 0)
    ||| (if e = 0 ∧ m ≠ 0 then fUF else 0)

/-- The free approximation where it passes the test, else the correctly rounded result (log 8). -/
def approxOr (f : Fmt) (fn x : Nat) (ok : Nat → Bool) (rounded : Nat) : Nat :=
  let c := (Config.approx fn f.mw x).toNat % 2 ^ f.width
  if ok c then c else rounded

/-- A finite code as a value with exponent at most e0, for exact tests. -/
def scaled (v : Val) (e0 : Int) : Int :=
  match v with
  | .fin n m e => sgnInt n m * 2 ^ (e - e0).toNat
  | _ => 0

/-- The bound of R79 in ulp. -/
def ulpBound (f : Fmt) : Nat := if f.mw = 23 then 2 else 1

/-- The lowest exponent that the tests work at. -/
def e0 : Int := -1200

/-- The exponent of an ulp in the binade of a positive value given by a quotient to many bits. -/
def ulpExp (f : Fmt) (v : Val) : Int :=
  match v with
  | .fin _ m e => max (Int.ofNat (Nat.log2 m) + e - Int.ofNat f.mw) (1 - Int.ofNat f.bias - Int.ofNat f.mw)
  | _ => 0

/-- frcp. The test is |c x - 1| at most bound x ulp x |x|. -/
def frcpCode (f : Fmt) (x : Nat) : Nat × W32 :=
  let v := f.decode x
  match v with
  | .nan s => (f.nanCode, if s then fNV else 0)
  | .inf neg => (f.signBit neg, 0)
  | .fin neg m _ =>
    if m = 0 then (f.signBit neg + f.infCode, fDZ) else
    let q := (divVal 60 (.fin false 1 0) v).1
    let (rounded, flags) := f.round 0 false 0 q
    if v.pow2?.isSome && flags == 0 then (rounded, 0) else
    let u := ulpExp f q
    let err (c : Nat) : Int := scaled (mulVal (f.decode c) v).1 (2 * e0) - 2 ^ (-(2 * e0)).toNat
    let lim : Int := Int.ofNat (ulpBound f) * scaled (mulVal (pow2Val false u) (if neg then v.neg else v)).1 (2 * e0)
    let tooBig := decide (flags = fOF ||| fNX)
    let ok (c : Nat) : Bool :=
      match f.decode c with
      | .fin _ _ _ => !tooBig && decide (-lim ≤ err c) && decide (err c ≤ lim)
      | _ => false
    let c := approxOr f 0 x ok rounded
    (c, approxFlags f c (match f.decode c with | .fin _ _ _ => decide (err c ≠ 0) | _ => true))

/-- (c + k ulp) squared times x compared with one or with x itself: the tests of frsq and fsqrt. -/
def sqTest (f : Fmt) (c : Nat) (k : Int) (u : Int) (x : Val) : Int :=
  let a := scaled (f.decode c) e0 + k * scaled (pow2Val false u) e0
  let a := if a < 0 then 0 else a
  a * a * scaled x e0

/-- frsq. -/
def frsqCode (f : Fmt) (x : Nat) : Nat × W32 :=
  let v := f.decode x
  match v with
  | .nan s => (f.nanCode, if s then fNV else 0)
  | .inf neg => if neg then (f.nanCode, fNV) else (0, 0)
  | .fin neg m _ =>
    if m = 0 then (f.signBit neg + f.infCode, fDZ) else if neg then (f.nanCode, fNV) else
    let q := (divVal 60 (.fin false 1 0) (sqrtVal 90 v).1).1
    let (rounded, _) := f.round 0 false 0 q
    match v.pow2? with
    | some n => if n % 2 = 0 then ((f.round 0 false 0 (pow2Val false (-(n / 2)))).1, 0) else
      let c := approxOr f 1 x (fun c => decide
        (sqTest f c (-Int.ofNat (ulpBound f)) (ulpExp f q) v ≤ 2 ^ (-(3 * e0)).toNat) && decide
        (2 ^ (-(3 * e0)).toNat ≤ sqTest f c (Int.ofNat (ulpBound f)) (ulpExp f q) v)) rounded
      (c, approxFlags f c true)
    | none =>
      let c := approxOr f 1 x (fun c => decide
        (sqTest f c (-Int.ofNat (ulpBound f)) (ulpExp f q) v ≤ 2 ^ (-(3 * e0)).toNat) && decide
        (2 ^ (-(3 * e0)).toNat ≤ sqTest f c (Int.ofNat (ulpBound f)) (ulpExp f q) v)) rounded
      (c, approxFlags f c (decide (sqTest f c 0 0 v ≠ 2 ^ (-(3 * e0)).toNat)))

/-- fsqrt. -/
def fsqrtCode (f : Fmt) (x : Nat) : Nat × W32 :=
  let v := f.decode x
  match v with
  | .nan s => (f.nanCode, if s then fNV else 0)
  | .inf neg => if neg then (f.nanCode, fNV) else (f.infCode, 0)
  | .fin neg m _ =>
    if m = 0 then (f.signBit neg, 0) else if neg then (f.nanCode, fNV) else
    let q := (sqrtVal 60 v).1
    let (rounded, flags) := f.round 0 false 0 q
    if v.pow2?.isSome && flags == 0 then (rounded, 0) else
    let one : Val := .fin false 1 0
    let want := scaled v (3 * e0)
    let c := approxOr f 2 x (fun c =>
      match f.decode c with
      | .fin _ _ _ => decide (sqTest f c (-Int.ofNat (ulpBound f)) (ulpExp f q) one ≤ want)
          && decide (want ≤ sqTest f c (Int.ofNat (ulpBound f)) (ulpExp f q) one)
      | _ => false) rounded
    (c, approxFlags f c (decide (sqTest f c 0 0 one ≠ want)))

/-! ### Functions that are not algebraic

Their exact values are computed in units of 2^-512, each to within 2^13 units, which is closer than the exact result of any
operand comes to the bound of R79 around a value of the format; a free value within that bound is the result (log 8). -/

def fixOne : Int := 2 ^ 512
/-- In units of 2^-700: the quarter turns of the largest argument are exact enough. -/
def fixPi : Int :=
  0x3243f6a8885a308d313198a2e03707344a4093822299f31d0082efa98ec4e6c89452821e638d01377be5466c * 2 ^ 352 + 0xf34e90c6cc0ac29b7c97c50dd3f84d5b5b54709179216d5d98979fb1bd1310ba698dfb5ac2ffd72dbd01adfb
def fixLn2 : Int :=
  0xb17217f7d1cf79abc9e3b39803f2f6af40f343267298b62d8a0d175b8baafa2b * 2 ^ 256 + 0xe7b876206debac98559552fb4afa1b10ed2eae35c138214427573b291169b825

/-- A sum of n terms, the first t, each the one before times q over d of its number. -/
def fixSum (q : Int) (d : Nat → Nat) : Nat → Nat → Int → Int
  | 0, _, _ => 0
  | n + 1, k, t => t + fixSum q d n (k + 1) (t * q / fixOne / Int.ofNat (d k))

/-- The sum of p z^2k / (2 k + 1), of n terms: atanh z for p = z. -/
def fixAtanh (z2 : Int) : Nat → Nat → Int → Int
  | 0, _, _ => 0
  | n + 1, k, p => p / Int.ofNat (2 * k + 1) + fixAtanh z2 n (k + 1) (p * z2 / fixOne)

/-- 2 to a fraction. -/
def fixExp2 (x : Int) : Int := fixSum (x * fixLn2 / fixOne) (fun k => k + 1) 112 0 fixOne

/-- The logarithm to base 2 of m / 2^k, a number from 1 up to 2. -/
def fixLog2 (m k : Nat) : Int :=
  let a := Int.ofNat m * fixOne / 2 ^ k
  let z := (a - fixOne) * fixOne / (a + fixOne)
  2 * fixAtanh (z * z / fixOne) 180 0 z * fixOne / fixLn2

/-- The sine, or the cosine, of a number of radians: the range is reduced by quarters of a turn. -/
def fixTrig (cosine : Bool) (x : Int) : Int :=
  let k := (2 ^ 189 * x + fixPi / 2) / fixPi
  let r := (2 ^ 189 * x - k * fixPi) / 2 ^ 189
  let q := -(r * r / fixOne)
  let turn := (k + if cosine then 1 else 0) % 4
  let v := if turn % 2 = 0 then fixSum q (fun j => (2 * j + 2) * (2 * j + 3)) 64 0 r
    else fixSum q (fun j => (2 * j + 1) * (2 * j + 2)) 64 0 fixOne
  if 2 ≤ turn then -v else v

/-- An exponent below those of every number compared. -/
def farExp : Int := -2000

/-- The result of an approximation of v 2^e: the free value where it lies within the bound of R79, else v 2^e rounded. It is
never exact, and no exact result is a power of two: where v is one, the exact result lies in the binade below it. -/
def approxNear (f : Fmt) (fn x : Nat) (v e : Int) : Nat × W32 :=
  let exact : Val := .fin (decide (v < 0)) v.natAbs e
  let lim := Int.ofNat (ulpBound f) * scaled (pow2Val false (ulpExp f (.fin false (v.natAbs - 1) e))) farExp
  let near (c : Nat) : Bool :=
    match f.decode c with
    | .fin n m ec => decide ((scaled (.fin n m ec) farExp - scaled exact farExp).natAbs ≤ lim.natAbs)
    | _ => false
  let c := approxOr f fn x near (f.round 0 false 0 exact).1
  (c, approxFlags f c true)

/-- A value in units; small enough for the shift. -/
def fixVal (neg : Bool) (m : Nat) (e : Int) : Int := sgnInt neg m * 2 ^ (e + 512).toNat

/-- fexp2. Far outside the format's range the exponent stands for itself alone. -/
def fexp2Code (f : Fmt) (x : Nat) : Nat × W32 :=
  match f.decode x with
  | .nan s => (f.nanCode, if s then fNV else 0)
  | .inf neg => if neg then (0, 0) else (f.infCode, 0)
  | .fin n m e =>
    if m = 0 then ((f.round 0 false 0 (pow2Val false 0)).1, 0)
    else if 9 < Int.ofNat (Nat.log2 m) + e then approxNear f 3 x fixOne ((if n then -1000 else 1000) - 512)
    else
      let a := fixVal n m e
      let near := approxNear f 3 x (fixExp2 (a % fixOne)) (a / fixOne - 512)
      if a % fixOne = 0 then
        let (c, flags) := f.round 0 false 0 (pow2Val false (a / fixOne))
        if flags = 0 then (c, 0) else near
      else near

/-- flog2. -/
def flog2Code (f : Fmt) (x : Nat) : Nat × W32 :=
  let v := f.decode x
  match v with
  | .nan s => (f.nanCode, if s then fNV else 0)
  | .inf neg => if neg then (f.nanCode, fNV) else (f.infCode, 0)
  | .fin neg m e =>
    if m = 0 then (f.signBit true + f.infCode, fDZ) else if neg then (f.nanCode, fNV) else
    match v.pow2? with
    | some n => ((f.round 0 false 0 (Val.ofInt n)).1, 0)
    | none => approxNear f 4 x ((Int.ofNat (Nat.log2 m) + e) * fixOne + fixLog2 m (Nat.log2 m)) (-512)

/-- fsin and fcos (fn 5 and 6). -/
def ftrigCode (fn : Nat) (f : Fmt) (x : Nat) : Nat × W32 :=
  match f.decode x with
  | .nan s => (f.nanCode, if s then fNV else 0)
  | .inf _ => (f.nanCode, fNV)
  | .fin neg m e =>
    if m = 0 then (if fn = 5 then (f.signBit neg, 0) else ((f.round 0 false 0 (Val.ofInt 1)).1, 0))
    else approxNear f fn x (fixTrig (fn == 6) (fixVal neg m e)) (-512)

end Sys2Proof.Machine
end

