-- ==== Sys2Proof/Machine/Operands.lean ====
section
/-! DEFINITION. Operand forms: which registers an instruction names (check 6 of R108, R45), and the elements of packed
registers (R62, R90). -/

namespace Sys2Proof.Machine

/-! ## Registers named -/

/-- k lane registers from r on, aligned to al, of a team that declares n; or k uniform registers. -/
def laneBad (n : Nat) (r : BitVec 7) (k al : Nat) : Bool := decide (r.toNat % al ≠ 0) || decide (n < r.toNat + k)
def uniBad (r k al : Nat) : Bool := decide (r % al ≠ 0) || decide (64 < r + k)
def rBad (u : Bool) (n : Nat) (r : BitVec 7) (k al : Nat) : Bool :=
  if u then uniBad r.toNat k al else laneBad n r k al

/-- Registers that a type takes (R90): a pair for t = 11. -/
def tCount (t : BitVec 2) : Nat := if t = 3 then 2 else 1

/-- An element operand of type t: one register, or an even pair. -/
def tBad (u : Bool) (n : Nat) (t : BitVec 2) (r : BitVec 7) : Bool := rBad u n r (tCount t) (tCount t)

def pairBad (u : Bool) (n : Nat) (r : BitVec 7) : Bool := rBad u n r 2 2
def oneBad (u : Bool) (n : Nat) (r : BitVec 7) : Bool := rBad u n r 1 1

/-- The special registers of 64 bits (R57). -/
def sregWide (x : Nat) : Bool := x == 6 || x == 7 || x == 8 || x == 13 || x == 14 || x == 16

/-- Bytes of the size codes of ld.acq and st.rel (R96), and the registers that hold a datum of so many bytes. -/
def sizeCode (z : Nat) : Nat := 2 ^ z
def regsOf (bytes : Nat) : Nat := if bytes ≤ 4 then 1 else bytes / 4

/-- The data and address registers of an M-class instruction. -/
def memBad (u : Bool) (n : Nat) (d a : BitVec 7) (k al : Nat) : Option Bool :=
  bad1 (rBad u n d k al || pairBad u n a)

/-! ## Elements (R62, R90) -/

/-- The width of an element of type t. -/
def tWidth (t : BitVec 2) : Nat :=
  match t.toNat with
  | 0 => 32
  | 1 => 16
  | 2 => 8
  | _ => 64

/-- The elements that the registers of type t hold. -/
def tElems (t : BitVec 2) : Nat :=
  match t.toNat with
  | 0 => 1
  | 1 => 2
  | 2 => 4
  | _ => 1

/-- The width of an FP element of type t: f32, f16x2, bf16x2, f64. -/
def tFpWidth (t : BitVec 2) : Nat :=
  match t.toNat with
  | 0 => 32
  | 3 => 64
  | _ => 16

def tFpElems (t : BitVec 2) : Nat :=
  match t.toNat with
  | 0 => 1
  | 3 => 1
  | _ => 2

/-- Element i of width w. -/
def elem (w i v : Nat) : Nat := v / 2 ^ (w * i) % 2 ^ w

/-- n elements of width w put together, each from its index. -/
def packElems (w : Nat) (f : Nat → Nat) (n : Nat) : Nat :=
  ((List.range n).map fun i => f i % 2 ^ w * 2 ^ (w * i)).sum

/-- n elements with flags: values packed, flags ORed (R123). -/
def packFlags (w : Nat) (f : Nat → Nat × W32) (n : Nat) : Nat × W32 :=
  (packElems w (fun i => (f i).1) n, ((List.range n).map fun i => (f i).2).foldl (· ||| ·) 0)

end Sys2Proof.Machine

namespace Sys2Proof

open Machine

/-- Check 6 of R108 for one instruction of a team that declares n registers: the word that names a bad register.
What depends on the team's lanes or on memory is checked by the instruction itself. -/
def Instr.regsBad (n : Nat) : Instr → Option Bool
  | .iadd u d a b t | .isub u d a b t | .imul u d a b t | .imulhS u d a b t | .imulhZ u d a b t
  | .iminS u d a b t | .iminZ u d a b t | .imaxS u d a b t | .imaxZ u d a b t | .iaddsS u d a b t
  | .iaddsZ u d a b t | .isubsS u d a b t | .isubsZ u d a b t => bad1 (tBad u n t d || tBad u n t a || tBad u n t b)
  | .iabs u d a t | .ineg u d a t => bad1 (tBad u n t d || tBad u n t a)
  | .icmp u _ _ a b t | .fcmp u _ _ a b t => bad1 (tBad u n t a || tBad u n t b)
  | .and u d a b t | .or u d a b t | .xor u d a b t | .andn u d a b t | .shl u d a b t | .shrZ u d a b t
  | .shrS u d a b t | .rotl u d a b t => bad1 (tBad u n t d || tBad u n t a || tBad u n t b)
  | .popc u d a t | .clz u d a t | .brev u d a t | .mov u d a t => bad1 (tBad u n t d || tBad u n t a)
  | .fadd u d a b t | .fsub u d a b t | .fmul u d a b t | .fmin u d a b t | .fmax u d a b t | .fmac u d a b t
  | .imac u d a b t => bad1 (tBad u n t d || tBad u n t a || tBad u n t b)
  | .fabs u d a t | .fneg u d a t | .frcp u d a t | .frsq u d a t | .fsqrt u d a t | .fexp2 u d a t
  | .flog2 u d a t | .fsin u d a t | .fcos u d a t | .frnd u d a _ t => bad1 (tBad u n t d || tBad u n t a)
  | .fcvt u d a _ _ => bad1 (oneBad u n d || oneBad u n a)
  | .fdot2 u d a b _ | .idot4 u d a b | .hrnd u d a b => bad1 (oneBad u n d || oneBad u n a || oneBad u n b)
  | .lpickIdx d a b | .lpickXor d a b | .lpickRot d a b | .lpickFill d a b =>
    bad1 (oneBad false n d || oneBad false n a || oneBad false n b)
  | .bcast _ a _ => bad1 (oneBad false n a)
  | .lred d a _ t => bad1 (tBad true n t d || tBad false n t a)
  | .pmovToReg u d => bad1 (oneBad u n d)
  | .pmovFromReg u a => bad1 (oneBad u n a)
  | .sread u d x =>
    bad1 (decide (17 ≤ x.toNat) || (if sregWide x.toNat then pairBad u n d else oneBad u n d))
  | .iaddi u d a _ | .andi u d a _ | .ori u d a _ | .xori u d a _ | .shli u d a _ | .shriZ u d a _
  | .shriS u d a _ | .rotli u d a _ | .imuli u d a _ => bad1 (oneBad u n d || oneBad u n a)
  | .movi u d _ => bad1 (oneBad u n d)
  | .icmpi u _ _ a _ => bad1 (oneBad u n a)
  | .lpickiIdx d a _ | .lpickiXor d a _ | .lpickiRot d a _ | .lpickiFill d a _ =>
    bad1 (oneBad false n d || oneBad false n a)
  | .ldZ8 u d a _ _ _ | .ldS8 u d a _ _ _ | .ldZ16 u d a _ _ _ | .ldS16 u d a _ _ _ | .ld32 u d a _ _ _
  | .st8 u d a _ _ _ | .st16 u d a _ _ _ | .st32 u d a _ _ _ | .ldNc u d a _ _ _
  | .discard u d a _ _ => memBad u n d a 1 1
  | .ld64 u d a _ _ _ | .st64 u d a _ _ _ | .ldFe u d a _ _ _ | .stFe u d a _ _ _ => memBad u n d a 2 2
  | .ld128 u d a _ _ _ | .st128 u d a _ _ _ => memBad u n d a 4 4
  | .feSet u _ a _ _ _ | .pref u a _ _ | .cmaint u a _ _ _ _ => bad1 (pairBad u n a)
  | .ldAcq u d a _ _ _ z | .stRel u d a _ _ _ z =>
    memBad u n d a (regsOf (sizeCode z.toNat)) (regsOf (sizeCode z.toNat))
  | .atom u d a _ _ _ z | .atomNr u d a _ _ _ z => memBad u n d a (z.toNat + 1) (z.toNat + 1)
  | .atomCas u d a _ _ z => memBad u n d a (2 * (z.toNat + 1)) (if z = 0 then 1 else 4)
  | .jmpu a | .sbarArv a | .sbarWt a _ => bad1 (uniBad a.toNat 2 2)
  | .sgnar _ g _ => bad1 (uniBad g.toNat 4 4)
  | .tpark a d => bad1 (uniBad a.toNat 2 2 || uniBad d.toNat 2 2)
  | .fma u t d a b c _ | .imad u t d a b c _ | .fclamp u t d a b c _ =>
    badIn (tBad u n t d || tBad u n t a) (tBad u n t b || tBad u n t c)
  | .sel u t d a b _ | .bfi u t d a b _ _ _ => badIn (tBad u n t d || tBad u n t a) (tBad u n t b)
  | .bfeS u t d a _ _ _ | .bfeZ u t d a _ _ _ => bad1 (tBad u n t d || tBad u n t a)
  | .bmix u d a b _ _ _ => badIn (oneBad u n d || oneBad u n a) (oneBad u n b)
  | .movi32 u d _ => bad1 (oneBad u n d)
  | .iaddi32 u d a _ => bad1 (oneBad u n d || oneBad u n a)
  | .fcvtX u d a b _ _ _ _ mode dst src =>
    badIn ((if dst = 9 then pairBad u n d else oneBad u n d) || (if src = 9 then pairBad u n a else oneBad u n a))
      (mode == 4 && oneBad u n b)
  | .lea u d a b _ _ _ => badIn (pairBad u n d || pairBad u n a) (oneBad u n b)
  | .madW u d a b c _ _ => badIn (pairBad u n d || oneBad u n a) (oneBad u n b || pairBad u n c)
  | .fmaMix u _ d a b c _ _ _ => badIn (oneBad u n d || oneBad u n a) (oneBad u n b || oneBad u n c)
  | .cpy bar d a b c _ _ _ _ =>
    badIn (pairBad true n d || pairBad true n a) (oneBad true n b || (bar && pairBad true n c))
  | .cpy2d d a b c _ _ _ _ =>
    badIn (pairBad true n d || pairBad true n a) (rBad true n b 2 1 || rBad true n c 2 1)
  | .cpyMx d a c _ _ _ _ => badIn (pairBad true n d || pairBad true n a) (rBad true n c 4 4)
  | .gath d a _ _ z _ | .scat d a _ _ z _ =>
    bad1 (rBad false n d (2 ^ z.toNat) (2 ^ z.toNat) || pairBad false n a)
  | .mloopIp a _ _ | .mloopOp a _ _ | .mloopRw a _ _ => bad1 (rBad true n a 8 8)
  | .mfill a b _ _ sp | .mdrain a b _ _ sp => badIn (rBad true n a 4 4) (sp && pairBad true n b)
  | .rtrace d a b _ _ _ _ => badIn (rBad false n d 7 1 || rBad false n a 9 1) (pairBad true n b)
  | .rcommit d _ _ _ => bad1 (rBad false n d 7 1)
  | .tclass d a _ _ => bad1 (pairBad false n d || rBad false n a 6 1)
  | .rast a c _ _ _ => badIn (rBad false n a 10 1) (pairBad true n c)
  | .emit dl _ c _ _ _ => badIn false (dl && pairBad true n c)
  | .leave a => bad1 (pairBad true n a)
  | .nodeq d _ _ _ => bad1 (rBad true n d 2 1)
  | _ => none

end Sys2Proof
end

