-- ==== Sys2Proof/Machine/Translate.lean ====
section
/-! DEFINITION. Regions of the address space and translation: the walk, the translation cache, parking, fault records
(R270, R271, R354 to R363). -/

namespace Sys2Proof.Machine

/-! ## Accessors of the tables -/

def State.cluster (s : State) (cl : Nat) : Cluster := Tbl.get s.clusters {} cl
def State.setCluster (s : State) (cl : Nat) (c : Cluster) : State := { s with clusters := Tbl.put s.clusters cl c }
def State.modCluster (s : State) (cl : Nat) (f : Cluster → Cluster) : State := s.setCluster cl (f (s.cluster cl))

def State.part (s : State) (p : Nat) : Part := Tbl.get s.parts {} p
def State.setPart (s : State) (p : Nat) (x : Part) : State := { s with parts := Tbl.put s.parts p x }

/-- What a request through the interface of a partition does: one that arrives once the interface has left RUN is refused, and
nothing is accessed (R402); a package without partitions has none (R416). -/
def State.asked (s : State) (part : Nat) (o : Host.Outcome State Fault Refusal) : Host.Outcome State Fault Refusal :=
  if (s.part part).stopped || s.recovery then .next s else o

/-- Whether a checkpoint quiets a partition (R417). -/
def State.quiesced (s : State) (part : Nat) : Bool := s.checkpoint.any fun c => !c.out.contains part

/-- Whether no work of a partition begins or goes on: its interface left RUN for good (R401), or a checkpoint quiets it. -/
def State.idle (s : State) (part : Nat) : Bool := (s.part part).stopped || s.quiesced part

/-- The number under which the keepers of a cluster stand beside the launches (log 25). -/
def keeperLaunch (cl : Nat) : Nat := 2 ^ 32 + cl

/-- The context of the keepers of a cluster: the cluster's own local store, and the translation context that firmware
gives (log 25). -/
def State.keeperContext (s : State) (cl : Nat) : Launch :=
  { part := (s.cluster cl).part, ctx := (s.cluster cl).fwCtx, grid := [cl], lsBytes := 0x100000 }

def State.launch (s : State) (l : Nat) : Launch :=
  match Tbl.find? s.launches l with
  | some x => x
  | none => if 2 ^ 32 ≤ l then s.keeperContext (l - 2 ^ 32) else {}

def State.setLaunch (s : State) (l : Nat) (x : Launch) : State := { s with launches := Tbl.put s.launches l x }

/-- The die of a physical cluster. -/
def dieOf (cl : Nat) : Nat := cl / 64

/-- The dies of the package: four, or two on X2 (R15, R354). -/
def State.dies (s : State) : Nat := bits s.caps.toNat 2 0

/-! ## Kinds of access -/

/-- What an access needs of its leaf (R48, R359), and how a fault record names it (R362). -/
inductive Acc where
  | read | write | atomic | fetch
  deriving DecidableEq, Repr

def Acc.code : Acc → Nat
  | .read => 0
  | .write => 1
  | .atomic => 2
  | .fetch => 3

def Acc.writes : Acc → Bool
  | .write | .atomic => true
  | _ => false

/-! ## Leaves (R356, R357) -/

def leafRights (e : Nat) (a : Acc) : Bool :=
  match a with
  | .read => bits e 5 5 == 1
  | .write => bits e 6 6 == 1
  | .atomic => bits e 5 5 == 1 && bits e 6 6 == 1
  | .fetch => bits e 7 7 == 1

def leafType (e : Nat) : Nat := bits e 4 2
def leafHome (e : Nat) : Nat := bits e 12 11
def leafK (e : Nat) : Bool := bits e 8 8 == 1
def leafCacheable (e : Nat) : Bool := bits e 14 13 == 1

/-- The shift of a leaf's page at a level: 0 for T0, 1 for T1, 2 for T2. -/
def levelShift (level : Nat) : Nat := 16 + 13 * level

/-- Whether a physical range lies in installed HBM. -/
def State.inHbm (s : State) (p n : Nat) : Bool := decide (p + n ≤ s.dies * Config.dieBytes)

/-- Whether a physical address lies in an HBM stack that is OFFLINE or RETURNING (R413). -/
def State.stackOut (s : State) (p : Nat) : Bool := decide (2 ≤ Tbl.get s.hbmStacks 0 (p / 0xC00000000))

/-! ## Links (R414) -/

/-- The links of the package: four UCIe edge links between the dies, tiled 2 x 2 by their numbers, the host link, and the
eight peer ports (log 117). -/
def hostLink : Nat := 4
def portLink (p : Nat) : Nat := 5 + p

/-- The dies that a UCIe link joins. -/
def linkDies : Nat → Nat × Nat
  | 0 => (0, 1)
  | 1 => (0, 2)
  | 2 => (1, 3)
  | _ => (2, 3)

/-- Whether a link carries traffic: its spare lanes, of which the manual gives no number, stand for the lanes that have
failed. -/
def State.linkUp (s : State) (n : Nat) : Bool :=
  !s.deadLinks.contains n &&
    match Tbl.find? s.links n with
    | none => true
    | some lanes => decide (lanes.length ≤ Config.spareLanes n)

/-- The dies that a die reaches over the UCIe links within n links: the diagonal die relays (R414). -/
def State.reached (s : State) (die : Nat) : Nat → List Nat
  | 0 => [die]
  | n + 1 =>
    let near := s.reached die n
    near ++ (List.range 4).flatMap fun k =>
      let (a, b) := linkDies k
      if s.linkUp k then (if near.contains a then [b] else []) ++ (if near.contains b then [a] else []) else []

/-- Whether traffic between two dies has a path. -/
def State.dieReached (s : State) (a b : Nat) : Bool :=
  a == b || (s.links.isEmpty && s.deadLinks.isEmpty) || (s.reached a 3).contains b

/-- A leaf entry that breaks R357. -/
def State.leafMalformed (s : State) (level e : Nat) : Bool :=
  let frame := bits e 55 16 * 0x10000
  let size := 2 ^ levelShift level
  let t := leafType e
  decide (frame % size ≠ 0) || decide (2 ≤ bits e 14 13) ||
  (match t with
   | 0 => bits e 63 56 != 0 || bits e 15 15 != 0 ||
          !s.inHbm frame size || decide (frame / Config.dieBytes ≠ leafHome e) ||
          decide ((frame + size - 1) / Config.dieBytes ≠ leafHome e)
   | 1 => bits e 63 56 != 0 || bits e 55 16 != 0 || level == 2 || (level == 1 && bits e 15 15 == 1)
          || decide (s.dies ≤ leafHome e)
   | 2 => bits e 15 15 != 0 || bits e 14 13 != 0 || leafHome e != 0
   | 3 => bits e 63 56 != 0 || bits e 15 15 != 0 || decide (s.dies ≤ leafHome e)
   | _ => true)

/-! ## The walk (R355, R358) -/

/-- What a walk ends in. -/
inductive Walk where
  | leaf (level : Nat) (at_ : Nat) (entry : Nat)
  /-- fault kinds 1 NOTPRESENT and 3 MALFORMED (R362) -/
  | fault (kind : Nat)
  /-- poisoned table data (R358) -/
  | tblPoison
  /-- table data in an HBM stack that is out of service (R413) -/
  | waits
  deriving DecidableEq, Repr

/-- Index of an address in the table of a level (3 is the root, R354). -/
def tableIndex (level va : Nat) : Nat :=
  if level = 3 then bits va 56 55 else bits va (levelShift level + 12) (levelShift level)

/-- One level of the walk and those below it; table is the physical address of the level's table. -/
def State.walkFrom (s : State) (level table va : Nat) : Walk :=
  let at_ := table + 8 * tableIndex level va
  if s.stackOut at_ then .waits else
  if s.anyPoison (keyHbm at_) 8 then .tblPoison else
  let e := s.readKey (keyHbm at_) 8
  match bits e 1 0 with
  | 0 => .fault 1
  | 1 =>
    match level with
    | 0 => .fault 3
    | k + 1 =>
      let next := bits e 55 16 * 0x10000
      if e = next + 1 ∧ s.inHbm next 0x10000 then s.walkFrom k next va else .fault 3
  | 2 => if level = 3 || s.leafMalformed level e then .fault 3 else .leaf level at_ e
  | _ => .fault 3

/-- Where the entry of a context stands (R355). -/
def State.contextAt (s : State) (part ctx : Nat) : Nat := (s.part part).ctxbase.toNat + 64 * ctx

/-- The root of a context: none when its entry is not valid or breaks R355. -/
def State.contextEntry (s : State) (part ctx : Nat) : Option Nat :=
  let p := s.part part
  let at_ := s.contextAt part ctx
  let w (o n : Nat) := s.readKey (keyHbm (at_ + o)) n
  let root := w 0 8
  let fq := w 8 8
  let log := w 16 4
  let zeros := (List.range 32).all fun i => s.byte (keyHbm (at_ + 32 + i)) == 0
  if p.ctxlo ≤ ctx ∧ ctx ≤ p.ctxhi ∧ s.inHbm at_ 64 ∧ root % 2 = 1 ∧ bits root 4 1 = 0 ∧ bits root 63 56 = 0
      ∧ s.inHbm (root - 1) 32 ∧ bits fq 4 0 = 0 ∧ bits fq 63 56 = 0 ∧ 4 ≤ log ∧ log ≤ 12 ∧ w 20 4 < 2048
      ∧ zeros = true
  then some at_ else none

/-! ## Interrupts (R391, R393) -/

/-- An MSI-X vector of a partition raised; while the host is away it is held, one for each vector. -/
def State.raiseMsix (s : State) (part vec : Nat) : State :=
  if (s.part part).attach = 2 then { s with msix := s.msix ++ [(part, vec)] }
  else if s.msixHeld.contains (part, vec) then s
  else { s with msixHeld := s.msixHeld ++ [(part, vec)] }

/-- The doorbell of a service ring: its vector is raised but where an earlier interrupt of the ring is not delivered yet,
into which this one merges (R391; log 56). -/
def State.ringDoorbell (s : State) (part ring : Nat) : State :=
  let p := s.part part
  let r := Tbl.get p.svcs {} ring
  if r.rung then s
  else (s.setPart part { p with svcs := Tbl.put p.svcs ring { r with rung := true } }).raiseMsix part r.msiv

/-! ## Fault records (R362) -/

/-- The 32 bytes of a fault record. -/
def FaultRec.bytes (r : FaultRec) (time : W64) : List Byte :=
  toBytes 8 r.va.toNat ++ toBytes 2 r.ctx ++ toBytes 1 r.kind ++ toBytes 1 r.acc ++ toBytes 4 r.token
    ++ toBytes 8 r.info.toNat ++ toBytes 8 time.toNat

/-- One record written to its context's ring, or held by the cluster while the ring is full, or while the HBM stack of the
ring or of the context entry is out of service (R413). -/
def State.postFault (s : State) (cl : Nat) (r : FaultRec) : State :=
  let hold := s.modCluster cl fun c => { c with faultOut := c.faultOut ++ [r] }
  if (s.cluster cl).faultOut ≠ [] ∨ s.stackOut (s.contextAt r.part r.ctx) = true then hold else
  match s.contextEntry r.part r.ctx with
  | none => s
  | some e =>
    let w (o n : Nat) := s.readKey (keyHbm (e + o)) n
    let wr := w 28 4
    let size := 2 ^ w 16 4
    if (wr + 2 ^ 32 - w 24 4) % 2 ^ 32 = size ∨ s.stackOut (w 8 8 + 32 * (wr % size)) = true then hold else
    let s := s.writeBytes (keyHbm (w 8 8 + 32 * (wr % size))) (r.bytes s.time)
    let s := s.writeKey (keyHbm (e + 28)) 4 (wr + 1)
    s.raiseMsix r.part (w 20 4)

/-- The records a cluster holds, written in their order as far as their rings have room. -/
def State.drainFaults (s : State) (cl : Nat) (rs : List FaultRec) : State :=
  match rs with
  | [] => s
  | r :: rest => (s.postFault cl r).drainFaults cl rest

def State.flushFaults (s : State) (cl : Nat) : State :=
  let rs := (s.cluster cl).faultOut
  (s.modCluster cl fun c => { c with faultOut := [] }).drainFaults cl rs

/-! ## Parking (R361) -/

/-- A fresh replay entry of a cluster and its token. -/
def State.newToken (s : State) (cl : Nat) : Nat × State :=
  let c := s.cluster cl
  let used (n : Nat) := c.replay.any fun g => bits g.token 23 14 == n
  let n := ((List.range 1024).find? fun n => !used n).getD 0
  let gen := (Tbl.get c.replayGen 0 n + 1) % 16384
  let token := dieOf cl * 0x40000000 + cl % 64 * 0x1000000 + n * 0x4000 + gen
  (token, s.setCluster cl { c with replayGen := Tbl.set c.replayGen 0 n gen })

/-- Whether the replay table of a cluster holds its 1,024 requests. -/
def State.replayFull (s : State) (cl : Nat) : Bool := decide (1024 ≤ ((s.cluster cl).replay.map fun g => g.reqs).sum)

/-- One more request in the group of a token. -/
def addReq (token : Nat) (gs : List Group) : List Group :=
  gs.map fun g => if g.token = token then { g with reqs := g.reqs + 1 } else g

/-- A request parks: it joins its group, or starts one with a fault record. The replay table holds 1,024 requests;
beyond that the answer is none and nothing is recorded. -/
def State.park (s : State) (cl part ctx va kind acc : Nat) : Option Nat × State :=
  let c := s.cluster cl
  let page := va / 0x10000
  if s.replayFull cl then (none, s) else
  match c.replay.find? fun g => g.ctx == ctx && g.page == page && g.kind == kind with
  | some g => (some g.token, s.setCluster cl { c with replay := addReq g.token c.replay })
  | none =>
    let (token, s) := s.newToken cl
    let s := s.modCluster cl fun c => { c with replay := c.replay ++ [Group.mk ctx page kind token 1] }
    (some token, s.postFault cl (FaultRec.mk part (BitVec.ofNat 64 va) ctx kind acc token 0))

/-- A request that parks without a record (R371). Its token is that of a group of kind 0. It takes its place in the
replay table like another. -/
def State.parkSilent (s : State) (cl ctx va : Nat) : Option Nat × State :=
  let c := s.cluster cl
  let page := va / 0x10000
  if s.replayFull cl then (none, s) else
  match c.replay.find? fun g => g.ctx == ctx && g.page == page && g.kind == 0 with
  | some g => (some g.token, s.setCluster cl { c with replay := addReq g.token c.replay })
  | none =>
    let (token, s) := s.newToken cl
    (some token, s.modCluster cl fun c => { c with replay := c.replay ++ [Group.mk ctx page 0 token 1] })

/-- A request joins the LODGE_OVERFLOW group of a page, in the replay table of its own cluster (R369, R371). -/
def State.joinGroup (s : State) (cl ctx page token : Nat) : Option Nat × State :=
  let c := s.cluster cl
  if s.replayFull cl then (none, s)
  else
    let replay :=
      if c.replay.any fun g => g.token == token then addReq token c.replay
      else c.replay ++ [Group.mk ctx page 5 token 1]
    (some token, s.setCluster cl { c with replay := replay })

/-! ## Translating one access -/

/-- What becomes of an access to one page. -/
inductive Xlat where
  | ok (leaf : Leaf)
  /-- the request parks in a group -/
  | park (token : Nat)
  /-- the replay table is full: the request is held at the port -/
  | stall
  /-- an unresolvable page fault -/
  | fail
  deriving DecidableEq, Repr

/-- The group token, or a stall. -/
def parked (r : Option Nat × State) : Xlat × State :=
  match r.1 with
  | some t => (.park t, r.2)
  | none => (.stall, r.2)

/-- A leaf of the translation cache that holds an address. -/
def Cluster.lookup (c : Cluster) (ctx va : Nat) : Option Leaf :=
  c.tlb.find? fun l => l.ctx == ctx && l.page == va % 2 ^ 57 / 2 ^ levelShift l.level

/-- The byte of a leaf's pages that an address names: FRAME x 2^16 + the offset in the page (R356). -/
def leafOffset (level e va : Nat) : Nat := bits e 55 16 * 0x10000 + va % 2 ^ levelShift level

/-- A field of the entry of a PEER leaf in the partition's peer table (R395). -/
def State.peerField (s : State) (part e off n : Nat) : Nat :=
  s.readKey (keyHbm ((s.part part).peert.toNat + 32 * bits e 63 56 + off)) n

/-- The kind of a peer in a partition's table: none for one that no byte of an access can reach (R395). -/
def State.peerKind (s : State) (part e va len level : Nat) : Option Nat :=
  let kind := s.peerField part e 0 1
  if bits e 63 56 < (s.part part).peern ∧ (kind = 1 ∨ kind = 2) ∧ leafOffset level e va + len ≤ s.peerField part e 24 8
  then some kind else none

/-- Whether an access cannot reach a PEER leaf: no such peer, or an Ultra Ethernet peer named by anything but a copy
(R395, R397). -/
def State.peerBarred (s : State) (part e va len level acc : Nat) : Bool :=
  leafType e == 2 &&
    match s.peerKind part e va len level with
    | none => true
    | some 2 => acc / 4 != pathAC
    | some _ => false

/-- Whether one of the ports that a peer table entry names carries traffic (R395, R414; DEDUCED, log 117). -/
def State.peerLinked (s : State) (part e : Nat) : Bool :=
  (List.range 8).any fun p => (s.peerField part e 1 1).testBit p && s.linkUp (portLink p)

/-- Whether an access has no path left: to a page whose home die no link reaches, or to a peer none of whose ports carries
traffic (R414; DEDUCED, log 117). -/
def State.pathless (s : State) (cl part e : Nat) : Bool :=
  match leafType e with
  | 2 => !s.peerLinked part e
  | 3 => false
  | _ => !s.dieReached (dieOf cl) (leafHome e)

/-- Whether the party whose instruction runs is a slot whose access to a peer is never acknowledged (R396). -/
def State.unacked (s : State) : Bool :=
  match s.cur.party with
  | .slot k => (Tbl.get s.slots {} k).unacked
  | _ => false

/-- Whether a leaf leads out of the device: to the host or to a peer. -/
def leafOutside (e : Nat) : Bool := leafType e == 2 || leafType e == 3

/-- Whether accesses wait in silence: HOST pages while the host is away (R393), HBM of a stack out of service (R413). -/
def State.leafWaits (s : State) (part level e va : Nat) : Bool :=
  match leafType e with
  | 0 => s.stackOut (leafOffset level e va)
  | 3 => (s.part part).attach != 2
  | _ => false

/-- The virtual address of 57 bits with its sign. -/
def signedPlace (v : Nat) : Nat := if 2 ^ 56 ≤ v then v + (2 ^ 64 - 2 ^ 57) else v

/-- The key of the state of a lodged page: its first 64 KiB (R371). -/
def lodgedPage (ctx level va : Nat) : Nat :=
  keyLodged ctx (va % 2 ^ 57 / 2 ^ levelShift level * 2 ^ (levelShift level - 16))

/-- What R359 and R51 ask of a leaf; acc is the code of the fault record. A partition that has left RUN issues nothing to
the host or to a peer: the access is unresolvable, without a record (R401). -/
def State.checkLeaf (s : State) (cl part ctx va len acc : Nat) (l : Leaf) (lodgedOk : Bool) : Xlat × State :=
  let e := l.entry.toNat
  if leafType e = 1 ∧ lodgedOk = false then
    (.fail, s.postFault cl (FaultRec.mk part (BitVec.ofNat 64 va) ctx 7 acc 0 0))
  else if leafOutside e ∧ (s.part part).stopped = true then (.fail, s)
  else if s.peerBarred part e va len l.level acc then (.fail, s)
  else if s.pathless cl part e ∨ (leafType e = 2 ∧ acc % 4 ≠ 3 ∧ s.unacked = true) then (.fail, { s with ras := s.ras ++ [(.link, va)] })
  else if s.leafWaits part l.level e va then parked (s.parkSilent cl ctx va)
  else
    match Tbl.get s.lpages .normal (lodgedPage ctx l.level va) with
    | .normal => (.ok l, s)
    | .evictwait _ token _ =>
      let page := va / 2 ^ levelShift l.level * 2 ^ levelShift l.level / 0x10000
      if leafType e ≠ 1 then (.ok l, s)
      else if s.failing.contains (ctx, page, 5) then (.fail, s)
      else parked (s.joinGroup cl ctx page token)
    | _ => if leafType e = 1 then parked (s.parkSilent cl ctx va) else (.ok l, s)

/-- A request that faults parks, unless the operation's group has been failed. -/
def State.parkOrFail (s : State) (cl part ctx va kind acc : Nat) : Xlat × State :=
  if s.failing.contains (ctx, va / 0x10000, kind) then (.fail, s) else parked (s.park cl part ctx va kind acc)

/-- A leaf in the translation cache of a cluster, which holds 4,096 (R358); the one that has been there longest makes
room (log 9). -/
def State.cacheLeaf (s : State) (cl : Nat) (l : Leaf) : State :=
  s.modCluster cl fun c => { c with tlb := (l :: c.tlb).take 4096 }

/-- D set in a leaf, in its table and in the cluster's copy (R359). -/
def State.setDirty (s : State) (cl : Nat) (l : Leaf) : State :=
  let e := l.entry ||| 0x400
  (s.writeKey (keyHbm l.at_) 8 e.toNat).modCluster cl fun c =>
    { c with tlb := c.tlb.map fun x =>
        if x.ctx = l.ctx ∧ x.at_ = l.at_ ∧ x.entry = l.entry then { x with entry := e } else x }

/-- Before a write is performed through a leaf: D is set where it is not (R359). -/
def State.dirtyLeaf (s : State) (cl : Nat) (l : Leaf) : State :=
  if l.entry.getLsbD 10 = false ∧ s.readKey (keyHbm l.at_) 8 = l.entry.toNat then s.setDirty cl l else s

/-- The walk of a miss: A is set before the leaf is cached (R359). With a full replay table the request is held at the port
(R361); tables in an HBM stack out of service make it wait (R413). -/
def State.walkMiss (s : State) (cl part ctx va len : Nat) (a : Acc) (acc : Nat) (lodgedOk : Bool) : Xlat × State :=
  if s.replayFull cl then (.stall, s) else
  if s.stackOut (s.contextAt part ctx) then parked (s.parkSilent cl ctx va) else
  match s.contextEntry part ctx with
  | none => (.fail, { s with ras := s.ras ++ [(.context, ctx)] })
  | some c =>
    match s.walkFrom 3 (s.readKey (keyHbm c) 8 - 1) va with
    | .fault kind => s.parkOrFail cl part ctx va kind acc
    | .waits => parked (s.parkSilent cl ctx va)
    | .tblPoison => (.fail, s.postFault cl (FaultRec.mk part (BitVec.ofNat 64 va) ctx 9 acc 0 0))
    | .leaf level at_ e =>
      if leafRights e a then
        let e := if bits e 9 9 = 0 then e + 0x200 else e
        let s := s.writeKey (keyHbm at_) 8 e
        let leaf := Leaf.mk ctx level (va % 2 ^ 57 / 2 ^ levelShift level) (BitVec.ofNat 64 e) at_ []
        (s.cacheLeaf cl leaf).checkLeaf cl part ctx va len acc leaf lodgedOk
      else s.parkOrFail cl part ctx va 2 acc

/-- A translation cache without the leaves that hold an address (R359, R364). -/
def State.dropLeaf (s : State) (cl ctx va : Nat) : State :=
  s.modCluster cl fun c =>
    { c with tlb := c.tlb.filter fun l => !(l.ctx == ctx && l.page == va % 2 ^ 57 / 2 ^ levelShift l.level) }

/-- The translation of an access to len bytes of one page (R358, R359): a walk where no leaf is cached; a cached leaf that
lacks the rights is dropped and the access faults with PERM; where D will have to be set and the entry has changed, the leaf
is dropped and the port walks again. D itself is set when the write is performed. -/
def State.translate (s : State) (cl part ctx va len : Nat) (a : Acc) (path : Nat) (lodgedOk : Bool) : Xlat × State :=
  let acc := a.code + 4 * path
  match (s.cluster cl).lookup ctx va with
  | some l =>
    if leafRights l.entry.toNat a then
      match s.checkLeaf cl part ctx va len acc l lodgedOk with
      | (.ok l, s) =>
        if a.writes = false ∨ l.entry.getLsbD 10 = true ∨ s.readKey (keyHbm l.at_) 8 = l.entry.toNat then (.ok l, s)
        else (s.dropLeaf cl ctx va).walkMiss cl part ctx va len a acc lodgedOk
      | r => r
    else (s.dropLeaf cl ctx va).parkOrFail cl part ctx va 2 acc
  | none => s.walkMiss cl part ctx va len a acc lodgedOk

/-- Whether an access now reaches a LODGED leaf whose rights suffice (R51). -/
def State.reachesLodged (s : State) (cl part ctx va : Nat) (a : Acc) : Bool :=
  let lodged (e : Nat) : Bool := leafRights e a && leafType e == 1
  match (s.cluster cl).lookup ctx va with
  | some l => lodged l.entry.toNat
  | none =>
    match s.contextEntry part ctx with
    | none => false
    | some c =>
      match s.walkFrom 3 (s.readKey (keyHbm c) 8 - 1) va with
      | .leaf _ _ e => lodged e
      | _ => false

/-- The number of a peer: its kind and its RID, so that entries which name one peer reach one memory (R395). -/
def State.peerNo (s : State) (part e : Nat) : Nat :=
  let rid := s.peerField part e 8 8
  if s.peerField part e 0 1 = 1 then 2 * (rid % 1024) else 2 * rid + 1

/-- The host's own translation of a 64 KiB page of a partition; where it puts a page is open, and it stays until the host
invalidates it (R386; log 108). -/
def State.hostPage (s : State) (part page : Nat) : Nat × State :=
  let p := s.part part
  match Tbl.find? p.atsMap page with
  | some h => (h, s)
  | none =>
    let h := (Config.freeValue s.fresh).toNat % 2 ^ 40
    (h, { s with fresh := s.fresh + 1 }.setPart part { p with atsMap := Tbl.put p.atsMap page h })

/-- The host's translation of a page of a HOST leaf, which the port caches with the leaf (R386). -/
def State.atsPage (s : State) (cl part : Nat) (l : Leaf) (page : Nat) : Nat × State :=
  match Tbl.find? l.ats page with
  | some h => (h, s)
  | none =>
    let (h, s) := s.hostPage part page
    (h, s.modCluster cl fun c => { c with tlb := c.tlb.map fun x => if x = l then { x with ats := Tbl.put x.ats page h } else x })

/-- The key of a byte under a leaf (R356); while ATS is on, the pages of a HOST leaf are the host's to place (R386). -/
def State.leafPlace (s : State) (cl part : Nat) (l : Leaf) (va : Nat) : Nat × State :=
  let e := l.entry.toNat
  let a := leafOffset l.level e va
  match leafType e with
  | 0 => (keyHbm a, s)
  | 1 => (keyLodged l.ctx va, s)
  | 2 => (keyPeer (s.peerNo part e) (s.peerField part e 16 8 + a), s)
  | _ =>
    if (s.part part).ats then
      let (h, s) := s.atsPage cl part l (a / 0x10000)
      (keyHost (h * 0x10000 + a % 0x10000), s)
    else (keyHost a, s)

/-! ## Local-store windows (R270, R271) -/

def inWindows (va : Nat) : Bool := decide (Config.plainBase ≤ va) && decide (va < Config.aliasEnd)

/-- An address on each page of a range. -/
def pagesOf (va len : Nat) : List Nat :=
  if len = 0 then [] else
  va :: (List.range ((va + len - 1) / 0x10000 - va / 0x10000)).map fun i => (va / 0x10000 + i + 1) * 0x10000
def inPlain (va : Nat) : Bool := decide (Config.plainBase ≤ va) && decide (va < Config.aliasBase)
def inAlias (va : Nat) : Bool := decide (Config.aliasBase ≤ va) && decide (va < Config.aliasEnd)

/-- The key of a window address of a launch: none for another address, none beyond its grid or its local-store size (R271). -/
def Launch.windowKey (l : Launch) (launch va : Nat) : Option Nat :=
  let o := if va < Config.aliasBase then va - Config.plainBase else va - Config.aliasBase
  let v := o / 0x100000
  if inWindows va ∧ v < l.grid.length ∧ o % 0x100000 < l.lsBytes then some (keyLocal launch v (o % 0x100000)) else none

/-- Whether a byte range lies wholly within one region and, in a window, within the launch's stores (R270, R271). -/
def Launch.regionOk (l : Launch) (launch first last : Nat) : Bool :=
  if last < first then true
  else if inPlain first && inPlain last || inAlias first && inAlias last then
    let stores := (List.range (last / 0x100000 - first / 0x100000 + 1)).map fun i =>
      Nat.max first ((first / 0x100000 + i) * 0x100000)
    (l.windowKey launch last).isSome && stores.all fun a => (l.windowKey launch a).isSome
      && (a / 0x100000 == last / 0x100000 || (l.windowKey launch (a / 0x100000 * 0x100000 + 0xFFFFF)).isSome)
  else !(decide (first < Config.aliasEnd) && decide (Config.plainBase ≤ last))

end Sys2Proof.Machine
end

