-- ==== Sys2Proof/Machine/Ops.lean ====
section
/-! DEFINITION. The named operations that meanings share: registers, masks, segment checks, memory accesses of a party,
the flow of control of a team, taking a trap and returning from one (team traps R325 to R333, keeper traps R309 to R314). -/

namespace Sys2Proof.Machine

/-- n fresh free values (log 7). -/
def State.free (s : State) (n : Nat) : List W64 × State :=
  ((List.range n).map fun i => Config.freeValue (s.fresh + i), { s with fresh := s.fresh + n })

/-- A value that FMT may hold (R54). -/
def fmtOk (v : W32) : Bool :=
  fld v 24 8 == 0 && fld v 16 2 == 0 && fld v 0 4 == 0 && decide ((fld v 20 3).toNat < 4) && decide ((fld v 18 2).toNat < 3)
    && decide ((fld v 12 4).toNat ≤ 8) && decide ((fld v 8 4).toNat ≤ 8) && decide ((fld v 4 4).toNat ≤ 8)

/-- A value that SCLP may hold (R55). -/
def sclpOk (v : W64) : Bool := v == 0 || (canonical v.toNat && v.toNat % 16 == 0)

/-- What is installed of a value loaded into FMT or SCLP: one that they may not hold is rejected, and the register keeps
what it held (R54; log 104). -/
def installFmt (old v : W32) : W32 := if fmtOk v then v else old
def installSclp (old v : W64) : W64 := if sclpOk v then v else old

/-! ## Teams and slots -/

def State.team (s : State) (t : Nat) : Team := Tbl.get s.teams {} t
def State.setTeam (s : State) (t : Nat) (x : Team) : State := { s with teams := Tbl.put s.teams t x }
def State.modTeam (s : State) (t : Nat) (f : Team → Team) : State := s.setTeam t (f (s.team t))

/-- A slot that nothing has happened to: FREE, and slot 15 halted (R36, R309; log 4). -/
def slotAtReset (k : Nat) : Slot :=
  if k % 16 = 15 then { st := .halted, launch := some (keeperLaunch (k / 256)) } else {}

def State.slot (s : State) (k : Nat) : Slot := Tbl.get s.slots (slotAtReset k) k
def State.setSlot (s : State) (k : Nat) (x : Slot) : State := { s with slots := Tbl.put s.slots k x }
def State.modSlot (s : State) (k : Nat) (f : Slot → Slot) : State := s.setSlot k (f (s.slot k))

/-- The number of slot i of core c of cluster cl. -/
def slotNo (cl c i : Nat) : Nat := (cl * 16 + c) * 16 + i
def slotCluster (k : Nat) : Nat := k / 256
def slotCore (k : Nat) : Nat := k / 16
def slotIndex (k : Nat) : Nat := k % 16

/-- The keeper's slot of a slot's core. -/
def keeperOf (k : Nat) : Nat := k / 16 * 16 + 15

/-- TSTAT.HND: the team is in handler mode (R46). -/
def Team.hnd (t : Team) : Bool := bit t.tstat 6

/-! ## Registers of a team -/

/-- The key of a lane's register. -/
def vKey (lane r : Nat) : Nat := lane * 128 + r

def Team.vreg (t : Team) (lane r : Nat) : W32 := Tbl.get t.v 0 (vKey lane r)
def Team.setV (t : Team) (lane r : Nat) (x : W32) : Team := { t with v := Tbl.set t.v 0 (vKey lane r) x }
def Team.greg (t : Team) (r : Nat) : W32 := Tbl.get t.g 0 r
def Team.setG (t : Team) (r : Nat) (x : W32) : Team := { t with g := Tbl.set t.g 0 r x }

/-- Every lane of a team, as a mask. -/
def Team.allLanes (t : Team) : Nat := 2 ^ t.lanes - 1

/-- Lane predicate r as a mask; p7 reads true in every lane (R45). -/
def Team.pmask (t : Team) (r : Nat) : Nat := if r = 7 then t.allLanes else Tbl.get t.p 0 r

def Team.preg (t : Team) (lane r : Nat) : Bool := (t.pmask r).testBit lane

/-- Bit k of a mask set to b. -/
def setBit (m k : Nat) (b : Bool) : Nat := if m.testBit k = b then m else m ^^^ 2 ^ k

/-- A lane predicate written; a write to p7 is discarded (R45). -/
def Team.setP (t : Team) (lane r : Nat) (b : Bool) : Team :=
  if r = 7 then t else { t with p := Tbl.set t.p 0 r (setBit (Tbl.get t.p 0 r) lane b) }

/-- Uniform predicate r; gp7 reads true. -/
def Team.gpreg (t : Team) (r : Nat) : Bool := r == 7 || t.gp.testBit r

def Team.setGp (t : Team) (r : Nat) (b : Bool) : Team := if r = 7 then t else { t with gp := setBit t.gp r b }

/-- A completion counter (R53). -/
def Team.counter (t : Team) (c : Nat) : Nat := Tbl.get t.cf 0 c
def Team.setCounter (t : Team) (c n : Nat) : Team := { t with cf := Tbl.set t.cf 0 c n }

/-- Every counter is zero. -/
def Team.drained (t : Team) : Bool := t.cf.all fun e => e.2 == 0

/-- The active lanes, rising. -/
def Team.active (t : Team) : List Nat := (List.range t.lanes).filter fun l => t.mask.testBit l

/-- The mask words of the team (R19). -/
def Team.words (t : Team) : Nat := (t.lanes + 31) / 32

/-- A register pair as a number, the low half at r (R45). -/
def Team.vpair (t : Team) (lane r : Nat) : Nat := (t.vreg lane r).toNat + 2 ^ 32 * (t.vreg lane (r + 1)).toNat
def Team.gpair (t : Team) (r : Nat) : Nat := (t.greg r).toNat + 2 ^ 32 * (t.greg (r + 1)).toNat

/-- k registers from r on as a number, of a lane or uniform. -/
def Team.vregs (t : Team) (lane r k : Nat) : Nat :=
  match k with
  | 0 => 0
  | j + 1 => (t.vreg lane r).toNat + 2 ^ 32 * t.vregs lane (r + 1) j

def Team.gregs (t : Team) (r k : Nat) : Nat :=
  match k with
  | 0 => 0
  | j + 1 => (t.greg r).toNat + 2 ^ 32 * t.gregs (r + 1) j

def Team.setVs (t : Team) (lane r k n : Nat) : Team :=
  match k with
  | 0 => t
  | j + 1 => (t.setV lane r (BitVec.ofNat 32 n)).setVs lane (r + 1) j (n / 2 ^ 32)

def Team.setGs (t : Team) (r k n : Nat) : Team :=
  match k with
  | 0 => t
  | j + 1 => (t.setG r (BitVec.ofNat 32 n)).setGs (r + 1) j (n / 2 ^ 32)

/-! ## Registers of a scalar thread -/

/-- x0 reads zero (R42). -/
def Slot.xreg (k : Slot) (r : BitVec 5) : W64 := if r = 0 then 0 else Tbl.get k.x 0 r.toNat

/-- A write to x0 is ignored (R42). -/
def Slot.setX (k : Slot) (r : BitVec 5) (v : W64) : Slot := if r = 0 then k else { k with x := Tbl.set k.x 0 r.toNat v }

def Slot.freg (k : Slot) (r : BitVec 5) : W64 := Tbl.get k.f 0 r.toNat
def Slot.setF (k : Slot) (r : BitVec 5) (v : W64) : Slot := { k with f := Tbl.set k.f 0 r.toNat v }

/-! ## Segments (R47 to R52) -/

def segBase (g : W128) : Nat := (g.extractLsb' 0 64).toNat
def segCtl (g : W128) : Nat := (g.extractLsb' 64 64).toNat

/-- A segment register as it is stored: bit 57 of SGCTL is reserved and reads zero (R5, R47). -/
def segStored (g : W128) : W128 := g &&& ~~~((1 : W128) <<< 121)
def segLimit (g : W128) : Nat := bits (segCtl g) 56 0

/-- The rights of a segment: read, write, execute, atomic, lodged. -/
def segRD (g : W128) : Bool := (segCtl g).testBit 58
def segW (g : W128) : Bool := (segCtl g).testBit 59
def segX (g : W128) : Bool := (segCtl g).testBit 60
def segA (g : W128) : Bool := (segCtl g).testBit 61
def segL (g : W128) : Bool := (segCtl g).testBit 62

/-- A valid segment (R47). -/
def segValid (g : W128) : Bool :=
  let b := segBase g
  let last := b + segLimit g - 1
  (segCtl g).testBit 63 && decide (0 < segLimit g) && decide (segLimit g ≤ 2 ^ 56) && canonical b
    && decide (last ≤ 2 ^ 64 - 1)
    && (decide (last < 2 ^ 56) || decide (2 ^ 64 - 2 ^ 56 ≤ b))

/-- What an access needs of its segment (R48). -/
structure Need where
  rd : Bool := false
  w : Bool := false
  a : Bool := false
  x : Bool := false
  deriving DecidableEq, Repr

def segHas (g : W128) (n : Need) : Bool :=
  (!n.rd || segRD g) && (!n.w || segW g) && (!n.a || segA g) && (!n.x || segX g)

def needRead : Need := Need.mk true false false false
def needWrite : Need := Need.mk false true false false
def needBoth : Need := Need.mk true true false false
def needAtomic : Need := Need.mk true true true false
def needAtomicNr : Need := Need.mk false true true false
def needExec : Need := Need.mk false false false true

/-- Step 3 of R49: the segment contains the range. -/
def segHolds (g : W128) (first last : Nat) : Bool :=
  segValid g && decide (segBase g ≤ first) && decide (last ≤ segBase g + segLimit g - 1)

/-- Steps 1 and 2 of R49 on exact integers. -/
def rangeOk (first last : Int) : Bool :=
  decide (0 ≤ first) && decide (last ≤ 2 ^ 64 - 1) && canonical first.toNat && canonical last.toNat

/-- What a check answers: fine, a segment violation, or a misaligned access. -/
inductive Check where
  | ok | violation | misaligned
  deriving DecidableEq, Repr

/-- R49 for a team's access through one segment; size is the size of the range, align its natural alignment (1 for
none). The region rule of R270 and R271 belongs to the same check. -/
def checkNamed (l : Launch) (launch : Nat) (g : W128) (need : Need) (first : Int) (size align : Nat) : Check :=
  let last := first + size - 1
  if !rangeOk first last then .violation
  else if !segHolds g first.toNat last.toNat then .violation
  else if !segHas g need then .violation
  else if !l.regionOk launch first.toNat last.toNat then .violation
  else if first.toNat % align ≠ 0 then .misaligned
  else .ok

/-- The lowest-numbered segment of the first n that contains a range (R50). -/
def findSeg (sg : Tbl W128) (first last n i : Nat) : Option Nat :=
  match n with
  | 0 => none
  | m + 1 => if segHolds (Tbl.get sg 0 i) first last then some i else findSeg sg first last m (i + 1)

/-- R50: steps 1 and 2, alignment, then the lowest-numbered containing segment decides. The answer says whether that
segment has L. -/
def checkSearch (l : Launch) (launch : Nat) (sg : Tbl W128) (need : Need) (first : Nat) (size align : Nat) :
    Check × Bool :=
  let last : Int := Int.ofNat first + Int.ofNat size - 1
  if !rangeOk (Int.ofNat first) last then (.violation, false)
  else if first % align ≠ 0 then (.misaligned, false)
  else
    match findSeg sg first last.toNat 8 0 with
    | none => (.violation, false)
    | some i =>
      let g := Tbl.get sg 0 i
      if segHas g need && l.regionOk launch first last.toNat then (.ok, segL g) else (.violation, false)

/-! ## An access of a party -/

/-- Where a party stands for memory: its cluster, launch and path. -/
structure Who where
  cl : Nat
  launch : Nat
  path : Nat
  /-- the scalar thread that makes the access, for its reservation (R241) -/
  self : Option Nat := none
  deriving DecidableEq, Repr

/-- Where the bytes of an access that passed its check are, as far as they lie in one page; or how the access ends. -/
inductive Place where
  | at_ (p : Piece)
  | park (token : Nat)
  | stall
  | fail
  deriving DecidableEq, Repr

/-- The place of len bytes from va on, within one page: the windows by address, the rest by translation (R270). -/
def State.place (s : State) (w : Who) (va len : Nat) (a : Acc) (lodgedOk : Bool) : Place × State :=
  let l := s.launch w.launch
  if inWindows va then
    match l.windowKey w.launch va with
    | some k => (.at_ (Piece.mk k va len false false none), s)
    | none => (.fail, s)
  else
    match s.translate w.cl l.part l.ctx va len a w.path lodgedOk with
    | (.ok leaf, s) =>
      let (k, s) := s.leafPlace w.cl l.part leaf va
      (.at_ (Piece.mk k va len (leafCacheable leaf.entry.toNat) (leafK leaf.entry.toNat) (some leaf)), s)
    | (.park t, s) => (.park t, s)
    | (.stall, s) => (.stall, s)
    | (.fail, s) => (.fail, s)

/-- The pieces of a byte range, page by page; n is the fuel (one more than the pages it may touch). -/
def State.pieces (s : State) (w : Who) (a : Acc) (lodgedOk : Bool) (va len n : Nat) :
    Except Place (List Piece) × State :=
  match n with
  | 0 => (.ok [], s)
  | m + 1 =>
    if len = 0 then (.ok [], s) else
    let here := Nat.min len (0x10000 - va % 0x10000)
    match s.place w va here a lodgedOk with
    | (.at_ p, s) =>
      match s.pieces w a lodgedOk (va + here) (len - here) m with
      | (.ok r, s) => (.ok (p :: r), s)
      | (.error e, s) => (.error e, s)
    | (p, s) => (.error p, s)

/-- The pieces of a range of any length. -/
def State.piecesOf (s : State) (w : Who) (a : Acc) (lodgedOk : Bool) (va len : Nat) :
    Except Place (List Piece) × State :=
  s.pieces w a lodgedOk va len (len / 0x10000 + 2)

def pathCode (w : Who) : Nat := w.path

/-- The keys of the bytes of the pieces. -/
def pieceKeys (ps : List Piece) : List Nat := ps.flatMap fun p => (List.range p.len).map fun i => keyAdd p.key i

/-- Whether any byte of the pieces is poisoned. -/
def State.piecesPoisoned (s : State) (ps : List Piece) : Bool := ps.any fun p => s.anyPoison p.key p.len

/-- The bytes of the pieces at their coherence points, as a path sees them. -/
def State.readPieces (s : State) (path : Nat) (ps : List Piece) : List Byte :=
  ps.flatMap fun p => s.seenBytes path p.key p.len

/-! ### Lodged lines (R281, R366) -/

/-- The home die of a lodged piece, from the leaf that it was translated by. -/
def Piece.home (p : Piece) : Nat := (p.leaf.map fun l => leafHome l.entry.toNat).getD 0

/-- Before a write to the pieces is performed, D is set in their leaves (R359). -/
def State.dirty (s : State) (cl : Nat) (ps : List Piece) : State :=
  ps.foldl (fun (s : State) p => (p.leaf.map fun l => s.dirtyLeaf cl l).getD s) s

/-- The lines that the buffered stores of a launch's threads will allocate: their reservation is held from issue on
(R242, R366). -/
def State.pendingLines (s : State) (launch : Nat) : List (Nat × Nat) :=
  (s.ops.flatMap fun e =>
    match e.2.party, e.2.kind with
    | .slot k, .slotStore _ _ ls =>
      if (s.slot k).launch == some launch then ls.filter fun l => (Tbl.find? s.lines l.1).isNone else []
    | _, _ => []).eraseDups

/-- The charges that the migrations under way have taken on a die: line and launch (R370). -/
def State.takenOn (s : State) (die : Nat) : List (Nat × Option Nat) :=
  s.lpages.flatMap fun e =>
    match e.2 with
    | .moving _ dest _ _ cs => if dest = die then cs else []
    | _ => []

/-- The lines that the launch holds on a die (R366). -/
def State.charged (s : State) (launch die : Nat) : Nat :=
  (s.lines.filter fun e => e.2.charge == some launch && e.2.home == die).length
    + ((s.takenOn die).filter fun e => e.2 == some launch).length
    + ((s.pendingLines launch).filter fun e => e.2 == die).length

/-- The keys of the 256-byte lines that a piece touches. -/
def Piece.lines (p : Piece) : List Nat :=
  let first := keyPlace p.key / 256
  let last := (keyPlace p.key + p.len - 1) / 256
  (List.range (last + 1 - first)).map fun i => (first + i) * 256 * 8 + keyKind p.key

/-- The lodged lines that the pieces lie in, with their home dies. -/
def pieceLines (ps : List Piece) : List (Nat × Nat) :=
  (ps.flatMap fun p => if keyKind p.key = 2 then p.lines.map fun k => (k, p.home) else []).eraseDups

/-- The lines that the pieces allocate on a write, with their home dies (R281). -/
def State.newLines (s : State) (ps : List Piece) : List (Nat × Nat) :=
  (pieceLines ps).filter fun e => (Tbl.find? s.lines e.1).isNone

/-- Charges each line that is not allocated to the launch. -/
def State.allocLines (s : State) (launch : Nat) : List (Nat × Nat) → State
  | [] => s
  | (k, home) :: r =>
    (if (Tbl.find? s.lines k).isSome then s
      else { s with lines := Tbl.put s.lines k (Line.mk home (some launch)) }).allocLines launch r

/-- The bytes that a launch reserves on a die: its LODGE on the dies of its grid (R366). -/
def Launch.lodgeOn (l : Launch) (die : Nat) : Nat := if l.grid.any fun cl => dieOf cl == die then l.lodge else 0

/-- Whether the launch's reservation holds the new lines on every die. -/
def State.linesFit (s : State) (launch : Nat) (ls : List (Nat × Nat)) : Bool :=
  (List.range 4).all fun d =>
    let here := (ls.filter fun e => e.2 == d && !(s.pendingLines launch).contains e).length
    here == 0 || decide (256 * (s.charged launch d + here) ≤ (s.launch launch).lodgeOn d)

/-! ### Reading and writing -/

/-- What an access ends in. -/
inductive Done where
  | value (v : Nat)
  | park (token : Nat)
  | stall
  | fail
  | poisoned
  deriving DecidableEq, Repr

def Place.done : Place → Done
  | .park t => .park t
  | .stall => .stall
  | _ => .fail

/-- A read at the coherence point (R167), by its own path, that needs the rights of an access of kind a. One on the LS
path has seen the latest write, and so has every later read on that path (R287, R291). -/
def State.readAs (s : State) (w : Who) (a : Acc) (va len : Nat) (lodgedOk : Bool) : Done × State :=
  match s.piecesOf w a lodgedOk va len with
  | (.error p, s) => (p.done, s)
  | (.ok ps, s) =>
    if s.piecesPoisoned ps then (.poisoned, s)
    else
      let s := if w.path = pathLS then s.liftKeys pathLS (pieceKeys ps) else s
      (.value (ofBytes (s.readPieces w.path ps)), s)

def State.readRange (s : State) (w : Who) (va len : Nat) (lodgedOk : Bool) : Done × State :=
  s.readAs w .read va len lodgedOk

/-- A cache without its copies of the sectors of the pieces: what was read at the coherence point is not older than what
a later load finds (R287). -/
def State.forget (s : State) (cache : Nat) (ps : List Piece) : State :=
  s.uncache cache fun k => (pieceKeys ps).any fun j => keyBlock 32 j == keyBlock 32 k

/-- A read at the coherence point by a party that has a cache of plain loads. -/
def State.readPast (s : State) (w : Who) (cache va len : Nat) (lodgedOk : Bool) : Done × State :=
  match s.piecesOf w .read lodgedOk va len with
  | (.ok ps, s) => (s.forget cache ps).readRange w va len lodgedOk
  | (.error p, s) => (p.done, s)

/-- The lines of 256 bytes that a cache holds: 256 KiB in an engine's L1, 1 MiB in the fused one, 128 KiB in a swarm data
cache, 64 KiB in an instruction cache (R7, R278). The manual gives no size for a node cache. -/
def State.cacheLines (s : State) (cache : Nat) : Option Nat :=
  match cacheUnit cache with
  | 4 => some 512
  | 5 => none
  | n =>
    if 8 ≤ n then some 256
    else if n = 0 ∧ ((s.cluster (cacheCluster cache)).ctx.any fun e => (s.launch e.2).fused) = true then some 4096
    else some 1024

/-- The lines that a cache holds. -/
def lineKeys (t : Tbl Copy) : List Nat := ((Tbl.keys t).map (keyBlock 256)).eraseDups

/-- Room for the line of a byte in a cache: where it is full, a line leaves it; the manual does not say which (log 9). -/
def State.makeRoom (s : State) (cache k : Nat) : State :=
  let ls := lineKeys (Tbl.get s.caches [] cache)
  match s.cacheLines cache with
  | none => s
  | some n =>
    if ls.length < n ∨ ls.contains (keyBlock 256 k) then s
    else
      let gone := ls.getD ((Config.freeValue s.fresh).toNat % ls.length) 0
      { s with fresh := s.fresh + 1 }.uncache cache fun j => keyBlock 256 j == gone

/-- A 32-byte sector read into a cache as a path sees it: the unit in which lines are filled (R276). -/
def State.fillSector (s : State) (path cache k : Nat) (kbit : Bool) (ctx : Nat) : State :=
  (List.range 32).foldl
    (fun (s : State) i =>
      let j := keyAdd (keyBlock 32 k) i
      s.fill cache j (Copy.mk (s.seen path j) kbit [ctx])) (s.makeRoom cache k)

/-- A context has read a copy: noted for K lines (R365) and in the node caches (R230). -/
def Copy.readBy (c : Copy) (ctx : Nat) : Copy := if c.ctxs.contains ctx then c else { c with ctxs := ctx :: c.ctxs }

/-- One byte through a cache: a copy, or the coherence point with its sector brought in (R276, R277). -/
def State.cachedByte (s : State) (path cache k : Nat) (kbit : Bool) (ctx : Nat) : Byte × State :=
  match s.copy? cache k with
  | some c =>
    (c.byte, if (c.k || cache == nodeNo (cacheCluster cache)) && !c.ctxs.contains ctx then s.fill cache k (c.readBy ctx) else s)
  | none => (s.seen path k, s.fillSector path cache k kbit ctx)

def State.cachedBytes (s : State) (path cache k : Nat) (kbit : Bool) (ctx n : Nat) : List Byte × State :=
  match n with
  | 0 => ([], s)
  | m + 1 =>
    let (b, s) := s.cachedByte path cache k kbit ctx
    let (r, s) := s.cachedBytes path cache (keyAdd k 1) kbit ctx m
    (b :: r, s)

def State.cachedPieces (s : State) (path cache ctx : Nat) : List Piece → List Byte × State
  | [] => ([], s)
  | p :: r =>
    let (b, s) :=
      if p.cacheable then s.cachedBytes path cache p.key p.k ctx p.len else (s.seenBytes path p.key p.len, s)
    let (t, s) := s.cachedPieces path cache ctx r
    (b ++ t, s)

/-- A read through a cache, that needs the rights of an access of kind a: each byte from the cache when it holds a copy,
else from the coherence point (R169, R277). Poison at the coherence point is met when the read goes there. -/
def State.loadAs (s : State) (w : Who) (a : Acc) (cache va len : Nat) (lodgedOk : Bool) : Done × State :=
  match s.piecesOf w a lodgedOk va len with
  | (.error p, s) => (p.done, s)
  | (.ok ps, s) =>
    let missing := ps.any fun p => (List.range p.len).any fun i =>
      s.isPoisoned (keyAdd p.key i) && !(p.cacheable && (s.copy? cache (keyAdd p.key i)).isSome)
    if missing then (.poisoned, s) else
    let (bs, s) := s.cachedPieces w.path cache (s.launch w.launch).ctx ps
    (.value (ofBytes bs), s)

/-- A plain load. -/
def State.loadRange (s : State) (w : Who) (cache va len : Nat) (lodgedOk : Bool) : Done × State :=
  s.loadAs w .read cache va len lodgedOk

/-- Whether the w bytes from key r on meet the n bytes from key k on. -/
def keysMeet (r w k n : Nat) : Bool :=
  keyKind r == keyKind k && decide (keyPlace r < keyPlace k + n) && decide (keyPlace k < keyPlace r + w)

/-- What a slot notices of a write to n bytes from a key on, or of a change of their full/empty state: another party's
write ends its reservation (R241), and a park in xjoin on the word is over (R259). -/
def Slot.seeWrite (x : Slot) (own : Bool) (k n : Nat) : Slot :=
  let x := if !own && (x.resv.map fun r => keysMeet r 64 k n) == some true then { x with resv := none } else x
  match x.wait with
  | .join key hit => if keysMeet key 8 k n then { x with wait := .join key true } else { x with wait := .join key hit }
  | _ => x

def State.breakResv (s : State) (self : Option Nat) (k n : Nat) : State :=
  { s with slots := s.slots.map fun e => (e.1, e.2.seeWrite (some e.1 == self) k n) }

/-- The full/empty state of a word set, by a party that has come to see its data (R274, R293); only a change of the state
ends reservations (R241). -/
def State.changeFull (s : State) (self : Option Nat) (k : Nat) (full : Bool) : State :=
  let s := s.liftKeys pathLS (Tbl.keys (cellsAt (keyBlock 8 k) (toBytes 8 0)))
  (if s.isFull k = full then s else s.breakResv self (keyBlock 8 k) 8).setFull k full

/-- The service rings of the partitions whose doorbell a write to n bytes from a key on meets (R391). -/
def State.doorbells (s : State) (k n : Nat) : List (Nat × Nat) :=
  s.parts.flatMap fun p => p.2.svcs.filterMap fun r =>
    if r.2.en && keysMeet (keyHbm (r.2.addr.toNat + 24)) 8 k n then some (p.1, r.1) else none

/-- What a write by a party of the device raises; host writes raise nothing. -/
def State.ringBells (s : State) (path k n : Nat) : State :=
  if path = pathHX then s else (s.doorbells k n).foldl (fun s e => s.ringDoorbell e.1 e.2) s

/-- The cells that bytes fall on, piece by piece. -/
def piecesCells : List Piece → List Byte → List (Nat × Byte)
  | [], _ => []
  | p :: r, bs => cellsAt p.key (bs.take p.len) ++ piecesCells r (bs.drop p.len)

/-- What a write to the pieces does beside its bytes: reservations end, doorbells ring, the copies in the own cache are
brought up to date (R276), and every local-store word written through the alias window becomes full (R273). -/
def State.noteWrite (s : State) (w : Who) (own : Option Nat) (cs : List (Nat × Byte)) : List Piece → State
  | [] => match own with
    | some c => cs.foldl (fun (s : State) e => s.touch c e.1 e.2) s
    | none => s
  | p :: r =>
    let s := (s.breakResv w.self p.key p.len).ringBells w.path p.key p.len
    let s := if inAlias p.va then
        (List.range p.len).foldl (fun (s : State) i => s.setFull (keyAdd p.key i) true) s
      else s
    s.noteWrite w own cs r

/-- The bytes of the pieces stored as one unit; own is the cache whose copies the store updates. -/
def State.writePieces (s : State) (w : Who) (op : Nat) (own : Option Nat) (ps : List Piece) (bs : List Byte) : State :=
  (s.putCells w.path op (piecesCells ps bs)).noteWrite w own (piecesCells ps bs) ps

/-- The units of poison that a write covers wholly. -/
def coveredUnits (ps : List Piece) : List Nat :=
  ps.flatMap fun p =>
    let size := match keyKind p.key with | 1 => 8 | _ => 32
    if keyKind p.key = 2 then [] else
    (List.range (p.len / size + 1)).filterMap fun i =>
      let u := (keyPlace p.key + size - 1) / size * size + i * size
      if u + size ≤ keyPlace p.key + p.len then some (u * 8 + keyKind p.key) else none

def State.clearPoison (s : State) : List Nat → State
  | [] => s
  | k :: r => (s.setPoison k false).clearPoison r

/-- Bytes of pieces stored whose lines fit the reservation; D is set in the leaves first (R359). A sector wholly overwritten
loses its poison outside lodged lines (R372, R411). -/
def State.storePieces (s : State) (w : Who) (op : Nat) (own : Option Nat) (ps : List Piece) (bs : List Byte) : State :=
  let s := s.dirty w.cl ps
  ((s.allocLines w.launch (s.newLines ps)).clearPoison (coveredUnits ps)).writePieces w op own ps bs

/-- A first write to a lodged line that the reservation has no room for parks with RESFULL, kind 4 (R281, R366). -/
def State.parkFull (s : State) (w : Who) (a : Acc) (va : Nat) : Done × State :=
  let l := s.launch w.launch
  match s.parkOrFail w.cl l.part l.ctx va 4 (a.code + 4 * w.path) with
  | (.park t, s) => (.park t, s)
  | (.stall, s) => (.stall, s)
  | (_, s) => (.fail, s)

/-- A write to pieces at the coherence point: all of it, or nothing where a line does not fit. -/
def State.writeAt (s : State) (w : Who) (op : Nat) (own : Option Nat) (a : Acc) (va : Nat) (ps : List Piece)
    (bs : List Byte) : Done × State :=
  if s.linesFit w.launch (s.newLines ps) then (.value 0, s.storePieces w op own ps bs) else s.parkFull w a va

/-- A write at the coherence point. -/
def State.writeRange (s : State) (w : Who) (op : Nat) (own : Option Nat) (a : Acc) (va : Nat) (bs : List Byte)
    (lodgedOk : Bool) : Done × State :=
  match s.piecesOf w a lodgedOk va bs.length with
  | (.error p, s) => (p.done, s)
  | (.ok ps, s) => s.writeAt w op own a va ps bs

/-- Two ranges written as one unit: nothing is written where either cannot be (R68). The answer names an address. -/
def State.writeTwo (s : State) (w : Who) (op : Nat) (own : Option Nat) (va : Nat) (bs : List Byte) (va' : Nat)
    (bs' : List Byte) (lodgedOk : Bool) : Done × Nat × State :=
  match s.piecesOf w .write lodgedOk va bs.length with
  | (.error p, s) => (p.done, va, s)
  | (.ok ps, s) =>
    match s.piecesOf w .write lodgedOk va' bs'.length with
    | (.error p, s) => (p.done, va', s)
    | (.ok qs, s) =>
      if s.linesFit w.launch (s.newLines (ps ++ qs)) then (.value 0, va, s.storePieces w op own (ps ++ qs) (bs ++ bs'))
      else
        let at_ := if s.linesFit w.launch (s.newLines ps) then va' else va
        let (d, s) := s.parkFull w .write at_
        (d, at_, s)

/-- An atomic read-modify-write at the coherence point (R174): f gives the new value, or none to store nothing; the
line is allocated and a word of the alias window becomes full in either case (R273, R281). The answer is the old value,
and the own cache keeps no copy of what was read. -/
def State.rmwRange (s : State) (w : Who) (op : Nat) (own : Option Nat) (va len : Nat) (f : Nat → Option Nat)
    (lodgedOk : Bool) : Done × State :=
  match s.piecesOf w .atomic lodgedOk va len with
  | (.error p, s) => (p.done, s)
  | (.ok ps, s) =>
    if s.piecesPoisoned ps then (.poisoned, s)
    else if s.linesFit w.launch (s.newLines ps) then
      let s := s.liftKeys w.path (pieceKeys ps)
      let s := match own with
        | some c => s.forget c ps
        | none => s
      let old := ofBytes (ps.flatMap fun p => s.bytesAt p.key p.len)
      match f old with
      | some v => (.value old, s.storePieces w op own ps (toBytes len v))
      | none =>
        let s := s.allocLines w.launch (s.newLines ps)
        (.value old, (ps.filter fun p => inAlias p.va).foldl (fun (s : State) p => s.changeFull w.self p.key true) s)
    else s.parkFull w .atomic va

/-! ## The flow of control of a team -/

/-- Where a clause ends: the next header's address (R100). -/
def Clause.last (c : Clause) : W64 := c.hdr + BitVec.ofNat 64 (4 * (1 + c.len))

/-- Control moves to a header (R100, R105). -/
def Team.goto (t : Team) (pc : W64) : Team :=
  { t with
    pc := pc, clause := none, rep := none, prevClause := if t.clause.isSome then t.clause else t.prevClause
    yielded := (t.clause.map fun c => c.hint) == some 1 || t.yielded }

/-- Control moves on by one instruction of k words: inside a replay to the next body instruction, at the end of the
clause to the next header (R100, R106). -/
def Team.advance (t : Team) (k : Nat) : Team :=
  let next := t.pc + BitVec.ofNat 64 (4 * k)
  let t := { t with prev := t.pc }
  match t.rep with
  | some r =>
    if r.i + 1 < r.n then { t with pc := next, rep := some { r with i := r.i + 1 } }
    else if r.k + 1 < r.count then { t with pc := r.rpt + 4, rep := some { r with i := 0, k := r.k + 1 } }
    else if (t.clause.map fun c => c.last) = some next then t.goto next
    else { t with pc := next, rep := none }
  | none =>
    if (t.clause.map fun c => c.last) = some next then t.goto next else { t with pc := next }

/-- Control moves to the next clause (R155). -/
def Team.nextClause (t : Team) : Team :=
  let t := { t with prev := t.pc }
  match t.clause with
  | some c => t.goto c.last
  | none => t.goto (t.pc + 4)

/-- A transfer to a header. -/
def Team.jump (t : Team) (pc : W64) : Team := Team.goto { t with prev := t.pc } pc

/-- The team retires: it waits for its counters (R21). -/
def Team.retire (t : Team) : Team :=
  { t with st := .retiring, wait := .none, mask := 0, live := 0, divs := [], divSpilled := 0, calls := [], callSpilled := 0, clause := none, rep := none }

/-! ## Ending a team -/

/-- The launch counts a killed team and keeps the first code (R332, R340). -/
def Launch.kill (l : Launch) (code : W32) : Launch :=
  { l with kteams := Nat.min (l.kteams + 1) 0xFFFF, code := if l.kteams = 0 then code else l.code }

/-- Whether a team takes room on an engine (R8): not while it waits for room or is off its engine, nor when it ended
there. -/
def Team.resident (t : Team) : Bool := t.st != .admitting && t.st != .parkedOff && !t.roomless

/-- tkill (R332): every lane ends; the team retires once its counters drain. -/
def State.killTeam (s : State) (t : Nat) (code : W32) : State :=
  let tm := s.team t
  (s.setLaunch tm.launch ((s.launch tm.launch).kill code)).setTeam t
    { tm.retire with killed := some code, roomless := !tm.resident }

/-! ## Team traps (R325 to R329) -/

/-- What a team instruction raises: cause, TINFO, TLANE, TADDR. -/
structure Trap where
  code : BitVec 8
  info : W32 := 0
  lane : W32 := 0xFFFFFFFF
  addr : W64 := 0
  deriving DecidableEq, Repr

/-- Where a team stands for memory on a path. -/
def Team.who (t : Team) (path : Nat) : Who := Who.mk t.cl t.launch path none

/-- A fetch through an instruction cache (R87). -/
def State.fetchRange (s : State) (w : Who) (cache va len : Nat) (lodgedOk : Bool) : Done × State :=
  s.loadAs w .fetch cache va len lodgedOk

/-- The cache a team's plain loads go through: its engine's L1, or the fused one (R276, R278). -/
def State.l1Of (s : State) (t : Team) : Nat := if (s.launch t.launch).fused then l1No t.cl 0 else l1No t.cl t.eng

/-- TCAUSE (R327). -/
def tcauseWord (code : BitVec 8) (isDeferred : Bool) (rep : Option Rep) : W32 :=
  BitVec.ofNat 32 (code.toNat + isDeferred.toNat * 0x1000 +
    match rep with
    | some r => 0x2000 + r.i * 0x4000 + r.k * 0x40000
    | none => 0)

/-- TCLS (R327): the clause that holds TEPC, and the words of it between its header and TEPC. -/
def tclsWord (c : Option Clause) (tepc : W64) : W32 :=
  match c with
  | none => 0
  | some c =>
    let before := (tepc - c.hdr).toNat / 4
    BitVec.ofNat 32 (c.fla.toNat * 0x1000 + c.flb.toNat * 0x100 + c.len % 16 * 0x10 + (before - 1) % 16)

/-- The clause that a header word starts. -/
def clauseOf (hdr : W64) (w : W32) : Clause :=
  Clause.mk hdr (fld w 10 4) (fld w 6 4) (fld w 2 4).toNat (fld w 0 2).toNat

/-- The eight handler segments at TRAPT + 128 (R325). -/
def handlerSegs (v : Nat) : Tbl W128 :=
  (List.range 8).foldl (fun t i => Tbl.set t 0 i (segStored (BitVec.ofNat 128 (v / 2 ^ (128 * i))))) []

/-- The causes whose address stands in TADDR (R327). -/
def addrCauses : List (BitVec 8) := [0x03, 0x04, 0x09, 0x0A, 0x0C, 0x0E]

/-- The team enters handler mode with the trap registers saved (R328); table holds the 256 bytes of the
trap-handler table, tepc the address that TEPC names. -/
def Team.enter (t : Team) (tr : Trap) (isDeferred : Bool) (tepc : W64) (c : Option Clause) (table : Nat)
    (target : W64) : Team :=
  { t with
    tcause := tcauseWord tr.code isDeferred t.rep
    tepc := tepc, tinfo := tr.info, tlane := tr.lane
    taddr := if tr.code ∈ addrCauses then tr.addr else 0
    tcls := tclsWord c tepc
    tret := if tr.code = 0x08 then 1 else 0
    tmask := t.mask, sgSaved := t.sg, sg := handlerSegs (table / 2 ^ 1024)
    tstat := t.tstat ||| 0x40
    tclause := c, trep := t.rep
    clause := none, rep := none, pc := target, prev := tepc
    st := .ready, wait := .none }

/-- Taking a team trap (R328, R329). The trap-handler table is read on the LS path in the launch's context without a
segment check (DEDUCED, log 21); a page fault that can be resolved parks the team, which raises the cause again. -/
def State.teamTrapAt (s : State) (t : Nat) (tr : Trap) (isDeferred : Bool) (tepc : W64) (c : Option Clause) : State :=
  let tm := s.team t
  let l := s.launch tm.launch
  if tm.hnd then
    let info := BitVec.ofNat 64 (tr.code.toNat * 2 ^ 57 + tepc.toNat % 2 ^ 57)
    (s.killTeam t 0xFFFE).postFault tm.cl (FaultRec.mk l.part tepc l.ctx 8 0 0 info)
  else
    match s.readRange (tm.who pathLS) l.trapt.toNat 256 true with
    | (.value v, s) =>
      let own := v / 2 ^ (64 * tr.code.toNat) % 2 ^ 64
      let target := if own = 0 then v % 2 ^ 64 else own
      if target = 0 then s.killTeam t 0xFFFF
      else s.setTeam t (tm.enter tr isDeferred tepc c v (BitVec.ofNat 64 target))
    | (.park token, s) => s.setTeam t { tm with st := .parked, wait := .fault token l.trapt true }
    | (.stall, s) => s
    | (_, s) => s.killTeam t 0xFFFF

/-- A trap at the instruction the team stands at. -/
def State.teamTrap (s : State) (t : Nat) (tr : Trap) : State :=
  let tm := s.team t
  s.teamTrapAt t tr false tm.pc tm.clause

/-! ## Team instructions -/

/-- The frame of every team instruction: the well-formedness checks of R108 (cause 0x01), the unit it needs (0x05;
ahead of the rules about registers, as R194 orders them, log 44), the register check (0x02), and the body, whose trap is
taken on the state before the instruction. An instruction word that no team runs has no effect (log 18). -/
def unitInstr (i : Instr) (absent : Team → Bool) (s : State)
    (body : Nat → Team → Except Trap State) : Host.Outcome State Fault Refusal :=
  match s.cur.party with
  | .team t =>
    let tm := s.team t
    let wordOf (second : Bool) : W32 := if second then s.cur.w2 else s.cur.w1
    match i.illIn with
    | some w => .next (s.teamTrap t (Trap.mk 0x01 (wordOf w) 0xFFFFFFFF 0))
    | none =>
      if absent tm then .next (s.teamTrap t (Trap.mk 0x05 s.cur.w1 0xFFFFFFFF 0))
      else
        match i.regsBad tm.n with
        | some w => .next (s.teamTrap t (Trap.mk 0x02 (wordOf w) 0xFFFFFFFF 0))
        | none =>
          match body t tm with
          | .ok s' => .next s'
          | .error tr => .next (s.teamTrap t tr)
  | _ => .next s

/-- An instruction that needs no optional unit. -/
def teamInstr (i : Instr) (s : State) (body : Nat → Team → Except Trap State) : Host.Outcome State Fault Refusal :=
  unitInstr i (fun _ => false) s body

/-- Whether a range that passed its check reaches a lodged page while its segment has no L right (R51). -/
def State.lodgedBarred (s : State) (tm : Team) (sg : BitVec 3) (a : Acc) (va len : Nat) : Bool :=
  let l := s.launch tm.launch
  !segL (Tbl.get tm.sg 0 sg.toNat) &&
    (pagesOf va len).any fun p => !inWindows p && s.reachesLodged tm.cl l.part l.ctx p a

/-- The unresolvable page fault of R51, raised at the instruction (R326), with its record (R362). A page that cannot be
reached yet makes it a deferred error instead (log 22). -/
def State.lsegTrap (s : State) (t : Nat) (tm : Team) (path : Nat) (a : Acc) (lane : W32) (va : Nat) : State :=
  let l := s.launch tm.launch
  (s.postFault tm.cl (FaultRec.mk l.part (BitVec.ofNat 64 va) l.ctx 7 (a.code + 4 * path) 0 0)).teamTrap t
    (Trap.mk 0x0E 0 lane (BitVec.ofNat 64 va))

/-- A trap with the failing word in TINFO. -/
def wordTrap (s : State) (code : BitVec 8) : Trap := Trap.mk code s.cur.w1 0xFFFFFFFF 0

/-- The instruction is done: control moves on by its length. -/
def State.retireTeam (s : State) (t : Nat) (tm : Team) : State := s.setTeam t (tm.advance (s.cur.len / 4))

/-! ## Cores -/

def State.core (s : State) (c : Nat) : Core := Tbl.get s.cores {} c
def State.setCore (s : State) (c : Nat) (x : Core) : State := { s with cores := Tbl.put s.cores c x }
def State.modCore (s : State) (c : Nat) (f : Core → Core) : State := s.setCore c (f (s.core c))

/-- A bit of the keeper's event word (R310). -/
def State.keeperEvent (s : State) (k : Nat) (b : W32) : State :=
  s.modSlot (keeperOf k) fun x => { x with events := x.events ||| b }

/-! ## Keeper traps (R309, R313) -/

/-- A slot enters TRAPPED: cause, trap value, PEND and keeper event bit 31. The keeper's own slot halts instead, and
the die's steward gets a record (R309). -/
def State.keeperTrap (s : State) (k : Nat) (code : BitVec 8) (tval : W64) : State :=
  if slotIndex k = 15 then
    { s.modSlot k (fun x => { x with st := .halted, wait := .none, resv := none }) with ras := s.ras ++ [(.keeper, k)] }
  else
    let s := s.modSlot k fun x => { x with st := .trapped, wait := .none, resv := none, kcause := code, ktval := tval }
    let s := s.modCore (slotCore k) fun c => { c with kpend := c.kpend ||| BitVec.ofNat 64 (2 ^ slotIndex k) }
    s.keeperEvent k 0x80000000

/-- What a scalar instruction raises. -/
structure KTrap where
  code : BitVec 8
  tval : W64
  deriving DecidableEq, Repr

/-- An illegal instruction (R111). -/
def State.illegal (s : State) : KTrap := KTrap.mk 2 (s.cur.w1.setWidth 64)

/-- The frame of every scalar instruction: an ill-formed word is illegal (R111), a trap leaves no other effect
(R313). -/
def slotInstr (i : Instr) (s : State) (body : Nat → Slot → Except KTrap State) : Host.Outcome State Fault Refusal :=
  match s.cur.party with
  | .slot k =>
    if i.wellFormed then
      match body k (s.slot k) with
      | .ok s' => .next s'
      | .error e => .next (s.keeperTrap k e.code e.tval)
    else .next (s.keeperTrap k s.illegal.code s.illegal.tval)
  | _ => .next s

/-- A keeper-only instruction is illegal in slots 0 to 14 (R111, R315). -/
def keeperInstr (i : Instr) (s : State) (body : Nat → Slot → Except KTrap State) : Host.Outcome State Fault Refusal :=
  slotInstr i s fun k x => if slotIndex k = 15 then body k x else .error s.illegal

/-- The address after the instruction. -/
def State.nextPc (s : State) (x : Slot) : W64 := x.pc + BitVec.ofNat 64 s.cur.len

/-- The instruction is done: the slot as it is now, its pc after the instruction. -/
def State.retireSlot (s : State) (k : Nat) (x : Slot) : State := s.setSlot k { x with pc := s.nextPc x }

end Sys2Proof.Machine
end

