-- ==== Sys2Proof/Machine/Flags.lean ====
section
/-! DEFINITION. How an arithmetic instruction of a team acts (R123): lanes and guards, results written, flags ORed into
TSTAT (R46). -/

namespace Sys2Proof.Machine

/-- Flags ORed into TSTAT: bits 5..0 only (R46). -/
def Team.raise (t : Team) (f : W32) : Team := { t with tstat := t.tstat ||| (f &&& 0x3F) }

/-- k registers from r on, lane or uniform. -/
def Team.rd (t : Team) (u : Bool) (lane r k : Nat) : Nat := if u then t.gregs r k else t.vregs lane r k

/-- Predicate r of a lane, or the uniform predicate. -/
def Team.prd (t : Team) (u : Bool) (lane r : Nat) : Bool := if u then t.gpreg r else t.preg lane r

/-- The guard of R97 for a lane, or for the team. -/
def Team.guardOk (t : Team) (u : Bool) (lane : Nat) (g : Guard) : Bool := t.prd u lane g.pred.toNat != g.neg

/-- No guard on the R and I classes. -/
def always : Guard := Guard.mk 7 false

/-- The lanes that an instruction acts on: active with a true guard. -/
def Team.acting (t : Team) (g : Guard) : List Nat := t.active.filter fun l => t.guardOk false l g

/-- Whether lane l takes part in a per-lane instruction, or the team in a uniform one (R123). -/
def Team.acts (t : Team) (u : Bool) (g : Guard) (l : Nat) : Bool :=
  if u then t.guardOk true 0 g else decide (l < t.lanes) && t.mask.testBit l && t.guardOk false l g

/-- Results of the acting lanes written to k registers from d on, and their flags raised. Every lane's result is
taken from the state before the instruction. -/
def Team.writeLanes (t : Team) (d k : Nat) (f : Nat → Nat × W32) : List Nat → Team
  | [] => t
  | l :: r => ((t.setVs l d k (f l).1).raise (f l).2).writeLanes d k f r

/-- R123: per lane under mask and guard, or once for the team on uniform registers. -/
def Team.alu (t : Team) (u : Bool) (g : Guard) (d k : Nat) (f : Nat → Nat × W32) : Team :=
  if u then (if t.guardOk true 0 g then (t.setGs d k (f 0).1).raise (f 0).2 else t)
  else t.writeLanes d k f (t.acting g)

/-- Predicate results of the lanes. -/
def Team.writePreds (t : Team) (p : Nat) (f : Nat → Bool × W32) : List Nat → Team
  | [] => t
  | l :: r => ((t.setP l p (f l).1).raise (f l).2).writePreds p f r

/-- As alu, with a predicate as the destination. -/
def Team.aluPred (t : Team) (u : Bool) (p : Nat) (f : Nat → Bool × W32) : Team :=
  if u then (t.setGp p (f 0).1).raise (f 0).2 else t.writePreds p f t.active

/-- A team arithmetic instruction: its frame and its new team state. -/
def aluInstr (i : Instr) (s : State) (f : Team → Team) : Host.Outcome State Fault Refusal :=
  teamInstr i s fun id tm => .ok (s.retireTeam id (f tm))

end Sys2Proof.Machine
end

