-- ==== Sys2Proof/Machine/TeamFlow.lean ====
section
/-! DEFINITION. How control moves in a team: fetching a word, checking a target, the clause scan, the divergence and
call stacks with their spill area, and Join (R50, R100, R155 to R160, R381, R428). -/

namespace Sys2Proof.Machine

/-! ## Accesses made at issue -/

/-- A team stops on a page fault until the group's token is retried. -/
def State.parkTeam (s : State) (t token va : Nat) : State :=
  s.modTeam t fun x => { x with st := .parked, wait := .fault token (BitVec.ofNat 64 va) false }

/-- How an instruction goes on after an access made while it issues: with the value; parked, to be issued again once
the fault is resolved; held at the port; or with cause 0x0E or 0x0C at the instruction (R427, R428; log 22). -/
def State.issueDone (t addr : Nat) (r : Done × State) (k : Nat → State → Except Trap State) : Except Trap State :=
  match r with
  | (.value v, s) => k v s
  | (.park token, s) => .ok (s.parkTeam t token addr)
  | (.stall, s) => .ok s
  | (.fail, s) => .ok (s.teamTrap t (Trap.mk 0x0E 0 0xFFFFFFFF (BitVec.ofNat 64 addr)))
  | (.poisoned, s) => .ok (s.teamTrap t (Trap.mk 0x0C 0 0xFFFFFFFF (BitVec.ofNat 64 addr)))

/-! ## Fetch (R50) -/

/-- What the fetch of one word gives. -/
inductive Fetched where
  | word (w : W32)
  | violation
  | failed (d : Done)
  deriving DecidableEq, Repr

/-- The word at an address, checked and read as a team's fetch, through the instruction cache of its engine, which no store
brings up to date (R87). A misaligned address fails the check (log 22). -/
def State.fetchWord (s : State) (t va : Nat) : Fetched × State :=
  let tm := s.team t
  match checkSearch (s.launch tm.launch) tm.launch tm.sg needExec va 4 4 with
  | (.ok, l) =>
    match s.fetchRange (tm.who pathLS) (codeNo tm.cl tm.eng) va 4 l with
    | (.value v, s) => (.word (BitVec.ofNat 32 v), s)
    | (d, s) => (.failed d, s)
  | _ => (.violation, s)

/-- A header word: group HDR (R100). -/
def isHeader (w : W32) : Bool := fld w 26 6 == 0x3F

/-- The target of a transfer must pass the fetch check (cause 0x03) and be a header (cause 0x09): R50, R100, R162. Both are
tested at the transferring instruction, whether or not it is taken, as R155 says of the header (DEDUCED, log 113). -/
def State.toTarget (s : State) (t : Nat) (target : W64) (k : State → Except Trap State) : Except Trap State :=
  match s.fetchWord t target.toNat with
  | (.word w, s') => if isHeader w then k s' else .error (Trap.mk 0x09 0 0xFFFFFFFF target)
  | (.violation, _) => .error (Trap.mk 0x03 0 0xFFFFFFFF target)
  | (.failed d, s') => State.issueDone t target.toNat (d, s') fun _ s => .ok s

/-- Words that can transfer control or end the team (R100): every BR sub; join, ret, exit, jmpu; tpark, tkill, eret;
regroup and leave. -/
def endsClause (w : W32) : Bool :=
  if fld w 30 2 != 3 then false else
  let sub := (fld w 22 4).toNat
  match (fld w 26 4).toNat with
  | 0 => true
  | 1 => sub == 0 || sub == 1 || sub == 2 || sub == 5
  | 9 => sub == 4 || sub == 5 || sub == 6
  | 8 => (fld w 18 8).toNat == 1 || (fld w 18 8).toNat == 2
  | _ => false

/-- What the scan of a clause's words gives: fine so far, an ill-placed word, or a stop at a page fault. -/
inductive Scan where
  | ok
  | bad (at_ : W64) (w : W32)
  | failed (d : Done)
  deriving DecidableEq, Repr

/-- The scan of a clause when it is reached (R100): the words from pc up to last; n is the words left. A two-word
instruction that runs past the end traps when it is decoded (R108). -/
def State.scan (s : State) (t : Nat) (last : W64) (n : Nat) (pc : W64) : Scan × State :=
  match n with
  | 0 => (.ok, s)
  | m + 1 =>
    if last.toNat ≤ pc.toNat then (.ok, s) else
    match s.fetchWord t pc.toNat with
    | (.word w, s) =>
      let next := pc + BitVec.ofNat 64 (4 * teamLen w)
      if last.toNat < next.toNat then (.ok, s)
      else if endsClause w && next != last then (.bad pc w, s)
      else s.scan t last m next
    | (.violation, s) => (.ok, s)
    | (.failed (.park token), s) => (.failed (.park token), s)
    | (.failed .stall, s) => (.failed .stall, s)
    | (.failed _, s) => (.ok, s)

/-! ## The stack spill area (R158, R381) -/

/-- The virtual cluster of a physical cluster in a launch's grid (R13). -/
def Launch.vcl (l : Launch) (cl : Nat) : Nat := l.grid.idxOf cl

def Team.divBytes (t : Team) : Nat := (8 + 4 * t.words + 15) / 16 * 16

/-- The base of the team's spill area. NFR stands in the park area's header (R379), read where it is needed. -/
def State.withSpill (s : State) (t : Nat) (tm : Team) (k : Nat → State → Except Trap State) : Except Trap State :=
  let l := s.launch tm.launch
  let base (nfr : Nat) := l.spill.toNat + (l.vcl tm.cl * (64 + nfr) + tm.spillIdx) * l.spsz.toNat
  if l.park = 0 then k (base 0) s
  else State.issueDone t l.park.toNat (s.readRange (tm.who pathLS) (l.park.toNat + 4) 4 true) fun nfr s =>
    k (base nfr) s

/-- The bytes of a divergence entry: pc, then the mask words, padded. -/
def Team.divEntryBytes (t : Team) (e : DivEntry) : List Byte :=
  toBytes t.divBytes (e.pc.toNat + 2 ^ 64 * e.mask)

def callEntryBytes (e : CallEntry) : List Byte := toBytes 16 (e.pc.toNat + 2 ^ 64 * e.depth)

/-- Where divergence entry i and call entry i lie, from the base of the area; 0 is the oldest. -/
def Team.divAt (t : Team) (base i : Nat) : Nat := base + i * t.divBytes
def callAt (base spsz i : Nat) : Nat := base + spsz - 16 * (i + 1)

/-- Whether stacks of so many entries fit their area without an overlap. -/
def State.spillFits (s : State) (tm : Team) (divs calls : Nat) : Bool :=
  decide (divs * tm.divBytes + calls * 16 ≤ (s.launch tm.launch).spsz.toNat)

def Team.divDepth (t : Team) : Nat := t.divs.length + t.divSpilled
def Team.callDepth (t : Team) : Nat := t.calls.length + t.callSpilled

def State.writeSpill (s : State) (t : Nat) (tm : Team) (va : Nat) (bs : List Byte) (k : State → Except Trap State) :
    Except Trap State :=
  State.issueDone t va (s.writeRange (tm.who pathLS) 0 (some (s.l1Of tm)) .write va bs true) fun _ s => k s

/-- A push on the divergence stack: one whose place in the area would overlap the other stack or pass the area's end traps
(R158, R381); the oldest of 16 on-chip entries goes to the area. -/
def State.pushDiv (s : State) (t : Nat) (tm : Team) (e : DivEntry) (k : Team → State → Except Trap State) :
    Except Trap State :=
  if s.spillFits tm (tm.divDepth + 1) tm.callDepth = false then .error (Trap.mk 0x07 0 0xFFFFFFFF 0)
  else if tm.divs.length < 16 then k { tm with divs := e :: tm.divs } s
  else
    match tm.divs.getLast? with
    | none => k { tm with divs := [e] } s
    | some old =>
      s.withSpill t tm fun base s =>
        s.writeSpill t tm (tm.divAt base tm.divSpilled) (tm.divEntryBytes old) fun s =>
          k { tm with divs := e :: tm.divs.dropLast, divSpilled := tm.divSpilled + 1 } s

/-- A push on the call stack. -/
def State.pushCall (s : State) (t : Nat) (tm : Team) (e : CallEntry) (k : Team → State → Except Trap State) :
    Except Trap State :=
  if s.spillFits tm tm.divDepth (tm.callDepth + 1) = false then .error (Trap.mk 0x07 0 0xFFFFFFFF 0)
  else if tm.calls.length < 16 then k { tm with calls := e :: tm.calls } s
  else
    match tm.calls.getLast? with
    | none => k { tm with calls := [e] } s
    | some old =>
      s.withSpill t tm fun base s =>
        s.writeSpill t tm (callAt base (s.launch tm.launch).spsz.toNat tm.callSpilled) (callEntryBytes old) fun s =>
          k { tm with calls := e :: tm.calls.dropLast, callSpilled := tm.callSpilled + 1 } s

/-- A spilled divergence entry as it stands in the area. Its kind is not kept there; nothing depends on it. -/
def Team.divOf (t : Team) (v : Nat) : DivEntry :=
  DivEntry.mk false (BitVec.ofNat 64 v) (v / 2 ^ 64 % 2 ^ (32 * t.words))

def callOf (v : Nat) : CallEntry := CallEntry.mk (BitVec.ofNat 64 v) (v / 2 ^ 64 % 2 ^ 32)

/-- The top of the divergence stack taken off, refilled from the spill area when none is on chip. -/
def State.popDiv (s : State) (t : Nat) (tm : Team) (k : Option DivEntry → Team → State → Except Trap State) :
    Except Trap State :=
  match tm.divs with
  | e :: r => k (some e) { tm with divs := r } s
  | [] =>
    if tm.divSpilled = 0 then k none tm s
    else
      s.withSpill t tm fun base s =>
        let va := tm.divAt base (tm.divSpilled - 1)
        State.issueDone t va (s.readRange (tm.who pathLS) va (8 + 4 * tm.words) true) fun v s =>
          k (some (tm.divOf v)) { tm with divSpilled := tm.divSpilled - 1 } s

/-- The top of the call stack taken off. -/
def State.popCall (s : State) (t : Nat) (tm : Team) (k : Option CallEntry → Team → State → Except Trap State) :
    Except Trap State :=
  match tm.calls with
  | e :: r => k (some e) { tm with calls := r } s
  | [] =>
    if tm.callSpilled = 0 then k none tm s
    else
      s.withSpill t tm fun base s =>
        let va := callAt base (s.launch tm.launch).spsz.toNat (tm.callSpilled - 1)
        State.issueDone t va (s.readRange (tm.who pathLS) va 16 true) fun v s =>
          k (some (callOf v)) { tm with callSpilled := tm.callSpilled - 1 } s

/-! ## Join (R157) -/

/-- Pops entries until one has a live lane; the team retires when none has. n is at least the depth. -/
def State.joinPops (s : State) (t : Nat) (tm : Team) (n : Nat) : Except Trap State :=
  match n with
  | 0 => .ok (s.setTeam t tm.retire)
  | m + 1 =>
    s.popDiv t tm fun e tm s =>
      match e with
      | none => .ok (s.setTeam t tm.retire)
      | some e =>
        if e.mask &&& tm.live = 0 then s.joinPops t tm m
        else .ok (s.setTeam t (Team.jump { tm with mask := e.mask &&& tm.live } e.pc))

/-- Join: on an empty stack a team with a live lane in its mask traps. -/
def State.joinTeam (s : State) (t : Nat) (tm : Team) : Except Trap State :=
  if tm.divDepth = 0 then
    if tm.mask &&& tm.live = 0 then .ok (s.setTeam t tm.retire) else .error (wordTrap s 0x01)
  else s.joinPops t tm (tm.divDepth + 1)

/-- The ray unit discards the state of the lanes of a team that have ended (R223). -/
def State.dropRays (s : State) (t : Nat) : State :=
  { s with rays := s.rays.filter fun e => e.1 / 1024 != t || (s.team t).live.testBit (e.1 % 1024) }

/-- The active lanes end (R160); then Join. -/
def State.exitLanes (s : State) (t : Nat) (tm : Team) : Except Trap State :=
  (s.joinTeam t { tm with live := tm.live &&& (tm.live ^^^ (tm.mask &&& tm.live)), mask := 0 }).map fun s => s.dropRays t

end Sys2Proof.Machine
end

