-- ==== Sys2Proof/Machine/TeamControl.lean ====
section
/-! DEFINITION. Team control instructions (R155 to R165). -/

namespace Sys2Proof.Machine

/-! ## Branches (R155, R157, R159) -/

/-- The target of a BR word (R99). -/
def brTarget (t : Team) (disp : BitVec 18) : W64 := t.pc + disp.signExtend 64 * 4

/-- A BR instruction: its target is checked, whether or not it is taken. -/
def brInstr (i : Instr) (disp : BitVec 18) (s : State) (body : Nat → Team → W64 → State → Except Trap State) :
    Host.Outcome State Fault Refusal :=
  teamInstr i s fun t tm => s.toTarget t (brTarget tm disp) fun s => body t tm (brTarget tm disp) s

/-- Taken moves to the target, not taken to the next clause. -/
def Team.branch (tm : Team) (taken : Bool) (target : W64) : Team := if taken then tm.jump target else tm.nextClause

/-- The active lanes whose predicate XOR neg is true. -/
def Team.truths (tm : Team) (p : BitVec 3) (n : Bool) : List Nat := tm.active.filter fun l => tm.preg l p.toNat != n

def maskOf (ls : List Nat) : Nat := (ls.map fun l => 2 ^ l).sum

def execBra (p : BitVec 3) (n : Bool) (i : BitVec 18) (s : State) : Host.Outcome State Fault Refusal :=
  brInstr (.bra p n i) i s fun t tm target s =>
    let taken := match tm.active with
      | l :: _ => tm.preg l p.toNat != n
      | [] => false
    .ok (s.setTeam t (tm.branch taken target))

def execBraU (p : BitVec 3) (n : Bool) (i : BitVec 18) (s : State) : Host.Outcome State Fault Refusal :=
  brInstr (.braU p n i) i s fun t tm target s => .ok (s.setTeam t (tm.branch (tm.gpreg p.toNat != n) target))

/-- BraD (R157). -/
def execBraD (p : BitVec 3) (n : Bool) (i : BitVec 18) (s : State) : Host.Outcome State Fault Refusal :=
  brInstr (.braD p n i) i s fun t tm target s =>
    let yes := maskOf (tm.truths p n)
    if yes = tm.mask then .ok (s.setTeam t (tm.jump target))
    else if yes = 0 then .ok (s.setTeam t tm.nextClause)
    else s.pushDiv t tm (DivEntry.mk false tm.nextClause.pc (tm.mask ^^^ yes)) fun tm s =>
      .ok (s.setTeam t (Team.jump { tm with mask := yes } target))

/-- Div (R157). -/
def execDiv (i : BitVec 18) (s : State) : Host.Outcome State Fault Refusal :=
  brInstr (.div i) i s fun t tm target s =>
    s.pushDiv t tm (DivEntry.mk true target tm.mask) fun tm s => .ok (s.setTeam t tm.nextClause)

def execCall (i : BitVec 18) (s : State) : Host.Outcome State Fault Refusal :=
  brInstr (.call i) i s fun t tm target s =>
    s.pushCall t tm (CallEntry.mk tm.nextClause.pc tm.divDepth) fun tm s => .ok (s.setTeam t (tm.jump target))

def execLoop (p : BitVec 3) (i : BitVec 18) (s : State) : Host.Outcome State Fault Refusal :=
  brInstr (.loop p i) i s fun t tm target s =>
    let v := tm.greg p.toNat - 1
    .ok (s.setTeam t ((tm.setG p.toNat v).branch (v != 0) target))

def execBraAny (p : BitVec 3) (n : Bool) (i : BitVec 18) (s : State) : Host.Outcome State Fault Refusal :=
  brInstr (.braAny p n i) i s fun t tm target s => .ok (s.setTeam t (tm.branch (tm.truths p n != []) target))

def execBraAll (p : BitVec 3) (n : Bool) (i : BitVec 18) (s : State) : Host.Outcome State Fault Refusal :=
  brInstr (.braAll p n i) i s fun t tm target s => .ok (s.setTeam t (tm.branch (tm.truths p n == tm.active) target))

/-! ## Other control (R157 to R165) -/

def execJoin (s : State) : Host.Outcome State Fault Refusal :=
  teamInstr .join s fun t tm => s.joinTeam t { tm with prev := tm.pc }

def execRet (s : State) : Host.Outcome State Fault Refusal :=
  teamInstr .ret s fun t tm =>
    s.popCall t tm fun e tm' s =>
      match e with
      | none => .error (wordTrap s 0x01)
      | some e =>
        if e.depth = tm.divDepth then s.toTarget t e.pc fun s => .ok (s.setTeam t (tm'.jump e.pc))
        else .error (wordTrap s 0x01)

def execExit (s : State) : Host.Outcome State Fault Refusal :=
  teamInstr .exit s fun t tm => s.exitLanes t { tm with prev := tm.pc }

/-- As if the clause's header carried HINT 01 (R161). -/
def execYield (s : State) : Host.Outcome State Fault Refusal :=
  teamInstr .yield s fun t tm =>
    .ok (s.retireTeam t { tm with clause := tm.clause.map fun c => { c with hint := 1 } })

def execNop (s : State) : Host.Outcome State Fault Refusal :=
  teamInstr .nop s fun t tm => .ok (s.retireTeam t tm)

/-- R162. -/
def execJmpu (a : BitVec 6) (s : State) : Host.Outcome State Fault Refusal :=
  teamInstr (.jmpu a) s fun t tm =>
    let target := BitVec.ofNat 64 (tm.gpair a.toNat)
    s.toTarget t target fun s => .ok (s.setTeam t (tm.jump target))

def execTrap (c : BitVec 16) (s : State) : Host.Outcome State Fault Refusal :=
  teamInstr (.trap c) s fun _ _ => .error (Trap.mk 0x08 (c.setWidth 32) 0xFFFFFFFF 0)

def execBrk (s : State) : Host.Outcome State Fault Refusal :=
  teamInstr .brk s fun _ _ => .error (Trap.mk 0x08 0x10000 0xFFFFFFFF 0)

/-- Whether a path code of a fence covers a path; 6 is all. -/
def pathIn (code path : Nat) : Bool := code == 6 || code == path

/-! ## Stage barriers (R163) -/

/-- Arrive on the value of a barrier word: PEND 15..0, EXP 31..16, PH 32. -/
def arriveWord (w : Nat) : Nat :=
  if bits w 15 0 ≤ 1 then
    bits w 63 33 * 2 ^ 33 + (1 - bits w 32 32) * 2 ^ 32 + bits w 31 16 * 2 ^ 16 + bits w 31 16
  else w - 1

/-- The LS readers see every write to a word that an operation looks at there (R274). -/
def State.seeWord (s : State) (k : Nat) : State := s.liftKeys pathLS (Tbl.keys (cellsAt k (toBytes 8 0)))

/-- An arrival at the word with a key, made by a copy (some op) or by sbar.arv. The word's full/empty bit stays. A copy
arrives also at a poisoned word, which stays poisoned (DEDUCED, log 22). -/
def State.arrive (s : State) (k : Nat) (op : Option Nat) : State :=
  let w := s.readKey k 8
  let here := Tbl.get s.arrivals [] k ++ op.toList
  let s := ((s.seeWord k).breakResv none k 8).writeKey k 8 (arriveWord w)
  if bits w 15 0 ≤ 1 then
    { s with arrivals := Tbl.set s.arrivals [] k []
             phases := Tbl.set s.phases [] k (Tbl.get s.phases [] k ++ here) }
  else { s with arrivals := Tbl.set s.arrivals [] k here }

/-- The key of a barrier word that a team names: canonical, 8-byte aligned, in a window, in a segment with RD and W
(R50, R163). The alignment is looked at before the window (DEDUCED, log 23). -/
def State.barrierKey (s : State) (tm : Team) (va : W64) : Except Trap Nat :=
  let l := s.launch tm.launch
  let bad (code : BitVec 8) : Except Trap Nat := .error (Trap.mk code 0 0xFFFFFFFF va)
  match checkSearch l tm.launch tm.sg needBoth va.toNat 8 8 with
  | (.misaligned, _) => bad 0x04
  | (.violation, _) => bad 0x03
  | (.ok, _) =>
    if inWindows va.toNat then
      match l.windowKey tm.launch va.toNat with
      | some k => .ok k
      | none => bad 0x03
    else bad 0x03

/-- Whether an operation in flight writes on the LS path. -/
def OpKind.lsWrite : OpKind → Bool
  | .mem op _ _ _ =>
    match op with
    | .store _ | .stFe | .feSet _ | .stRel _ _ | .atom _ _ _ | .cas _ | .discard => true
    | _ => false
  | .slotStore _ _ _ => true
  | _ => false

/-- Whether a party has LS writes in flight. -/
def State.lsWrites (s : State) (p : Party) : Bool := s.ops.any fun e => e.2.party == p && e.2.kind.lsWrite

/-- A write of a team behind a fence from LS at system scope: the host sees what the fence covers first (R289, R296). -/
def State.releaseFenced (s : State) (id t path : Nat) : State :=
  if (s.team t).fences.any fun f => decide (f.at_ ≤ id) && decide (5 ≤ f.scope) && pathIn f.src pathLS && pathIn f.dst path
  then s.releaseHost 5 else s

/-- sbar.arv: one arrival, a release at cluster scope: the team stands still while earlier LS writes are in flight. A
poisoned word gives cause 0x0C at the instruction (DEDUCED, log 22). -/
def execSbarArv (a : BitVec 6) (s : State) : Host.Outcome State Fault Refusal :=
  teamInstr (.sbarArv a) s fun t tm =>
    let va := BitVec.ofNat 64 (tm.gpair a.toNat)
    match s.barrierKey tm va with
    | .error e => .error e
    | .ok k =>
      if s.isPoisoned k then .error (Trap.mk 0x0C 0 0xFFFFFFFF va)
      else if s.lsWrites (.team t) then .ok s
      else .ok (((s.releaseFenced s.nextOp t pathLS).arrive k none).retireTeam t tm)

/-- The copies whose barrier phases stand in the words of a range of local store (R290, R292). -/
def State.phasesIn (s : State) (launch va n : Nat) : List Nat :=
  (List.range ((va % 8 + n + 7) / 8)).flatMap fun i =>
    match (s.launch launch).windowKey launch (va / 8 * 8 + 8 * i) with
    | some key => Tbl.get s.phases [] key
    | none => []

/-- Whether an ld.acq of the team is in flight: no later M-class, ASYNC, MAT or RAY instruction issues (R171). -/
def State.acqPending (s : State) (t : Nat) : Bool :=
  s.ops.any fun e => e.2.party == .team t &&
    match e.2.kind with
    | .mem (.ldAcq _ _) _ _ _ => true
    | _ => false

/-- An acquire by a team at cluster scope or wider (R277). -/
def State.teamAcquire (s : State) (tm : Team) : State := s.invalidate (s.l1Of tm)

/-- The end of sbar.wt: an acquire at cluster scope that observes the copies of past phases (R163, R292). -/
def State.endSbar (s : State) (t : Nat) (tm : Team) (k : Nat) : State :=
  let seen := Tbl.get s.phases [] k
  (s.teamAcquire tm).setTeam t
    (Team.advance { tm with st := .ready, wait := .none, observed := tm.observed ++ seen } 1)

/-- CLOCK of a cluster now (R57). -/
def State.clock (s : State) (cl : Nat) : Nat :=
  let c := s.cluster cl
  c.clockBase + (s.time.toNat - c.clockAt) * c.mhz / 1000

/-- The cycle from which a full/empty or barrier wait that begins now is abandoned; 0 for none (R275). -/
def State.feUntil (s : State) (cl : Nat) : Nat :=
  let limit := (s.cluster cl).feretry.toNat
  if limit = 0 then 0 else s.clock cl + limit

/-- sbar.wt. A poisoned word gives cause 0x0C at the instruction (DEDUCED, log 22). -/
def execSbarWt (a : BitVec 6) (h : Bool) (s : State) : Host.Outcome State Fault Refusal :=
  teamInstr (.sbarWt a h) s fun t tm =>
    let va := BitVec.ofNat 64 (tm.gpair a.toNat)
    match s.barrierKey tm va with
    | .error e => .error e
    | .ok k =>
      if s.isPoisoned k then .error (Trap.mk 0x0C 0 0xFFFFFFFF va)
      else if (bits (s.readKey k 8) 32 32 == 1) != h then .ok ((s.seeWord k).endSbar t tm k)
      else .ok ((s.seeWord k).setTeam t { tm with st := .parked, wait := .sbar va h (s.feUntil tm.cl) })

/-! ## Segments and fences (R164, R165) -/

/-- R52: whether a proposal for a segment takes effect; rights in the order RD, W, X, A, L from bit 4 down. -/
def narrowOk (g : W128) (base limit : Nat) (r : BitVec 5) : Bool :=
  segValid g && decide (segBase g ≤ base) && decide (1 ≤ limit) && decide (base + limit ≤ segBase g + segLimit g)
    && (segRD g || !r.getLsbD 4) && (segW g || !r.getLsbD 3) && (segX g || !r.getLsbD 2)
    && (segA g || !r.getLsbD 1) && (segL g || !r.getLsbD 0)

/-- A valid segment from its base, limit and rights (R47). -/
def segOf (base limit : Nat) (r : BitVec 5) : W128 :=
  let right (k : Nat) : Nat := if r.getLsbD k then 2 ^ (62 - k) else 0
  BitVec.ofNat 128 (base + 2 ^ 64 * (limit + 2 ^ 63 + right 0 + right 1 + right 2 + right 3 + right 4))

/-- sgnar. It makes no access and has no lane, so TADDR of its cause 0x03 is 0 (R164, R327; DEDUCED, log 116). -/
def execSgnar (n : BitVec 3) (g : BitVec 6) (r : BitVec 5) (s : State) : Host.Outcome State Fault Refusal :=
  teamInstr (.sgnar n g r) s fun t tm =>
    let base := tm.gpair g.toNat
    let limit := tm.gpair (g.toNat + 2)
    if narrowOk (Tbl.get tm.sg 0 n.toNat) base limit r then
      .ok (s.retireTeam t { tm with sg := Tbl.set tm.sg 0 n.toNat (segOf base limit r) })
    else .error (Trap.mk 0x03 0 0xFFFFFFFF 0)

/-- The writes that a fence shows to readers on its to-path: those on its from-path whose completion the party has observed;
and from LS, at cluster scope or wider, all that LS readers see (R165, R292). -/
def fenceShows (f scope : Nat) (observed : List Nat) (v : Veil) : Bool :=
  (v.writer != pathLS && pathIn f v.writer && observed.contains v.op)
    || (pathIn f pathLS && decide (2 ≤ scope) && v.seenBy pathLS)

/-- What a fence makes visible at once (log 10): to the LS readers first, so that data passes on from them. The host is
inside system scope alone (R285). -/
def State.fenceReveal (s : State) (f t scope : Nat) (observed : List Nat) : State :=
  s.liftAll (allPaths.filter fun p => pathIn t p && (p != pathHX || decide (5 ≤ scope))) (fenceShows f scope observed)

/-- A fence to RY at cluster scope or wider drops the node cache, but for K lines (R280, R292). -/
def State.fenceNodes (s : State) (cl t scope : Nat) : State :=
  if pathIn t pathRY && decide (2 ≤ scope) then s.invalidate (nodeNo cl) else s

/-- An acquire fence (R289). -/
def Fence.acquires (f : Fence) : Bool := pathIn f.dst pathLS && decide (2 ≤ f.scope)

/-- A team with what an acquire fence from LS makes it observe: what its reads have met (R290). -/
def Team.afterFence (tm : Team) (f : Fence) : Team :=
  if f.acquires && pathIn f.src pathLS then { tm with observed := tm.observed ++ tm.glimpsed, glimpsed := [] } else tm

/-- What a fence of a team does by what the team has read and observed so far (R165, R289 to R292). -/
def State.applyFence (s : State) (tm : Team) (f : Fence) : State :=
  let s := (s.fenceReveal f.src f.dst f.scope tm.observed).fenceNodes tm.cl f.dst f.scope
  let s := if f.acquires then s.teamAcquire tm else s
  if pathIn f.src pathLS then s.releaseHost f.scope else s

/-- fence.x. It waits for an ld.acq, as what follows does (R171). What an earlier read that is still in flight will observe
counts for the fence when the read completes (R290). -/
def execFenceX (f t sc : BitVec 3) (s : State) : Host.Outcome State Fault Refusal :=
  teamInstr (.fenceX f t sc) s fun id tm =>
    if s.acqPending id then .ok s
    else
      let e := Fence.mk f.toNat t.toNat sc.toNat s.nextOp
      let tm := tm.afterFence e
      .ok ((s.applyFence tm e).retireTeam id { tm with fences := e :: tm.fences })

/-- The fences of a team that follow an operation take effect again once a read of it is complete, in their order (R290). -/
def State.refence (s : State) (id : Nat) (o : Op) : State :=
  match o.party with
  | .team t =>
    ((s.team t).fences.filter fun f => decide (id < f.at_)).reverse.foldl
      (fun s f => (s.applyFence ((s.team t).afterFence f) f).modTeam t fun tm => tm.afterFence f) s
  | _ => s

end Sys2Proof.Machine
end

