-- ==== Sys2Proof/Machine/Replay.lean ====
section
/-! DEFINITION. The register fields that a repeat frame advances (R106, R107). -/

namespace Sys2Proof.Machine

/-- What a field of an instruction word holds: no register number, a lane register or a uniform one. -/
inductive Field where
  | none | lane | uni
  deriving DecidableEq, Repr

def fieldBy (u : Bool) : Field := if u then .uni else .lane

/-- The highest register number of a field. -/
def Field.top : Field → Nat
  | .none => 0
  | .lane => 127
  | .uni => 63

end Sys2Proof.Machine

namespace Sys2Proof

open Machine

/-- The fields d, a and b of a body instruction of a repeat frame; none for an instruction that is not of class R, I
or EXT (R107). -/
def Instr.fields : Instr → Option (Field × Field × Field)
  | .iadd u _ _ _ _ | .isub u _ _ _ _ | .imul u _ _ _ _ | .imulhS u _ _ _ _ | .imulhZ u _ _ _ _
  | .iminS u _ _ _ _ | .iminZ u _ _ _ _ | .imaxS u _ _ _ _ | .imaxZ u _ _ _ _ | .iaddsS u _ _ _ _
  | .iaddsZ u _ _ _ _ | .isubsS u _ _ _ _ | .isubsZ u _ _ _ _ | .and u _ _ _ _ | .or u _ _ _ _ | .xor u _ _ _ _
  | .andn u _ _ _ _ | .shl u _ _ _ _ | .shrZ u _ _ _ _ | .shrS u _ _ _ _ | .rotl u _ _ _ _ | .fadd u _ _ _ _
  | .fsub u _ _ _ _ | .fmul u _ _ _ _ | .fmin u _ _ _ _ | .fmax u _ _ _ _ | .fmac u _ _ _ _ | .fdot2 u _ _ _ _
  | .imac u _ _ _ _ | .idot4 u _ _ _ | .hrnd u _ _ _ | .fma u _ _ _ _ _ _ | .imad u _ _ _ _ _ _
  | .sel u _ _ _ _ _ | .bfi u _ _ _ _ _ _ _ | .bmix u _ _ _ _ _ _ | .fclamp u _ _ _ _ _ _ | .lea u _ _ _ _ _ _
  | .madW u _ _ _ _ _ _ | .fmaMix u _ _ _ _ _ _ _ _ => some (fieldBy u, fieldBy u, fieldBy u)
  | .iabs u _ _ _ | .ineg u _ _ _ | .popc u _ _ _ | .clz u _ _ _ | .brev u _ _ _ | .mov u _ _ _ | .fabs u _ _ _
  | .fneg u _ _ _ | .frcp u _ _ _ | .frsq u _ _ _ | .fsqrt u _ _ _ | .fexp2 u _ _ _ | .flog2 u _ _ _
  | .fsin u _ _ _ | .fcos u _ _ _ | .frnd u _ _ _ _ | .fcvt u _ _ _ _ | .iaddi u _ _ _ | .andi u _ _ _
  | .ori u _ _ _ | .xori u _ _ _ | .shli u _ _ _ | .shriZ u _ _ _ | .shriS u _ _ _ | .rotli u _ _ _
  | .imuli u _ _ _ | .bfeS u _ _ _ _ _ _ | .bfeZ u _ _ _ _ _ _ | .iaddi32 u _ _ _ => some (fieldBy u, fieldBy u, .none)
  | .icmp u _ _ _ _ _ | .fcmp u _ _ _ _ _ => some (.none, fieldBy u, fieldBy u)
  | .lpickIdx _ _ _ | .lpickXor _ _ _ | .lpickRot _ _ _ | .lpickFill _ _ _ => some (.lane, .lane, .lane)
  | .ballot _ _ => some (.uni, .none, .none)
  | .bcast _ _ _ => some (.uni, .lane, .uni)
  | .agree _ _ _ | .plog _ _ _ _ _ => some (.none, .none, .none)
  | .lred _ _ _ _ => some (.uni, .lane, .none)
  | .pmovToReg u _ | .sread u _ _ | .movi u _ _ | .movi32 u _ _ => some (fieldBy u, .none, .none)
  | .pmovFromReg u _ | .icmpi u _ _ _ _ => some (.none, fieldBy u, .none)
  | .lpickiIdx _ _ _ | .lpickiXor _ _ _ | .lpickiRot _ _ _ | .lpickiFill _ _ _ => some (.lane, .lane, .none)
  | .fcvtX u _ _ _ _ _ _ _ mode _ _ => some (fieldBy u, fieldBy u, if mode = 4 then fieldBy u else .none)
  | _ => none

/-- A body instruction with its register fields advanced (R106). Fields that hold no register stay. -/
def Instr.bump (dd da db : Nat) : Instr → Instr
  | .iadd u d a b x0 => .iadd u (d + BitVec.ofNat _ dd) (a + BitVec.ofNat _ da) (b + BitVec.ofNat _ db) x0
  | .isub u d a b x0 => .isub u (d + BitVec.ofNat _ dd) (a + BitVec.ofNat _ da) (b + BitVec.ofNat _ db) x0
  | .imul u d a b x0 => .imul u (d + BitVec.ofNat _ dd) (a + BitVec.ofNat _ da) (b + BitVec.ofNat _ db) x0
  | .imulhS u d a b x0 => .imulhS u (d + BitVec.ofNat _ dd) (a + BitVec.ofNat _ da) (b + BitVec.ofNat _ db) x0
  | .imulhZ u d a b x0 => .imulhZ u (d + BitVec.ofNat _ dd) (a + BitVec.ofNat _ da) (b + BitVec.ofNat _ db) x0
  | .iminS u d a b x0 => .iminS u (d + BitVec.ofNat _ dd) (a + BitVec.ofNat _ da) (b + BitVec.ofNat _ db) x0
  | .iminZ u d a b x0 => .iminZ u (d + BitVec.ofNat _ dd) (a + BitVec.ofNat _ da) (b + BitVec.ofNat _ db) x0
  | .imaxS u d a b x0 => .imaxS u (d + BitVec.ofNat _ dd) (a + BitVec.ofNat _ da) (b + BitVec.ofNat _ db) x0
  | .imaxZ u d a b x0 => .imaxZ u (d + BitVec.ofNat _ dd) (a + BitVec.ofNat _ da) (b + BitVec.ofNat _ db) x0
  | .iaddsS u d a b x0 => .iaddsS u (d + BitVec.ofNat _ dd) (a + BitVec.ofNat _ da) (b + BitVec.ofNat _ db) x0
  | .iaddsZ u d a b x0 => .iaddsZ u (d + BitVec.ofNat _ dd) (a + BitVec.ofNat _ da) (b + BitVec.ofNat _ db) x0
  | .isubsS u d a b x0 => .isubsS u (d + BitVec.ofNat _ dd) (a + BitVec.ofNat _ da) (b + BitVec.ofNat _ db) x0
  | .isubsZ u d a b x0 => .isubsZ u (d + BitVec.ofNat _ dd) (a + BitVec.ofNat _ da) (b + BitVec.ofNat _ db) x0
  | .iabs u d a x0 => .iabs u (d + BitVec.ofNat _ dd) (a + BitVec.ofNat _ da) x0
  | .ineg u d a x0 => .ineg u (d + BitVec.ofNat _ dd) (a + BitVec.ofNat _ da) x0
  | .icmp u x0 x1 a b x2 => .icmp u x0 x1 (a + BitVec.ofNat _ da) (b + BitVec.ofNat _ db) x2
  | .and u d a b x0 => .and u (d + BitVec.ofNat _ dd) (a + BitVec.ofNat _ da) (b + BitVec.ofNat _ db) x0
  | .or u d a b x0 => .or u (d + BitVec.ofNat _ dd) (a + BitVec.ofNat _ da) (b + BitVec.ofNat _ db) x0
  | .xor u d a b x0 => .xor u (d + BitVec.ofNat _ dd) (a + BitVec.ofNat _ da) (b + BitVec.ofNat _ db) x0
  | .andn u d a b x0 => .andn u (d + BitVec.ofNat _ dd) (a + BitVec.ofNat _ da) (b + BitVec.ofNat _ db) x0
  | .shl u d a b x0 => .shl u (d + BitVec.ofNat _ dd) (a + BitVec.ofNat _ da) (b + BitVec.ofNat _ db) x0
  | .shrZ u d a b x0 => .shrZ u (d + BitVec.ofNat _ dd) (a + BitVec.ofNat _ da) (b + BitVec.ofNat _ db) x0
  | .shrS u d a b x0 => .shrS u (d + BitVec.ofNat _ dd) (a + BitVec.ofNat _ da) (b + BitVec.ofNat _ db) x0
  | .rotl u d a b x0 => .rotl u (d + BitVec.ofNat _ dd) (a + BitVec.ofNat _ da) (b + BitVec.ofNat _ db) x0
  | .popc u d a x0 => .popc u (d + BitVec.ofNat _ dd) (a + BitVec.ofNat _ da) x0
  | .clz u d a x0 => .clz u (d + BitVec.ofNat _ dd) (a + BitVec.ofNat _ da) x0
  | .brev u d a x0 => .brev u (d + BitVec.ofNat _ dd) (a + BitVec.ofNat _ da) x0
  | .mov u d a x0 => .mov u (d + BitVec.ofNat _ dd) (a + BitVec.ofNat _ da) x0
  | .fadd u d a b x0 => .fadd u (d + BitVec.ofNat _ dd) (a + BitVec.ofNat _ da) (b + BitVec.ofNat _ db) x0
  | .fsub u d a b x0 => .fsub u (d + BitVec.ofNat _ dd) (a + BitVec.ofNat _ da) (b + BitVec.ofNat _ db) x0
  | .fmul u d a b x0 => .fmul u (d + BitVec.ofNat _ dd) (a + BitVec.ofNat _ da) (b + BitVec.ofNat _ db) x0
  | .fmin u d a b x0 => .fmin u (d + BitVec.ofNat _ dd) (a + BitVec.ofNat _ da) (b + BitVec.ofNat _ db) x0
  | .fmax u d a b x0 => .fmax u (d + BitVec.ofNat _ dd) (a + BitVec.ofNat _ da) (b + BitVec.ofNat _ db) x0
  | .fabs u d a x0 => .fabs u (d + BitVec.ofNat _ dd) (a + BitVec.ofNat _ da) x0
  | .fneg u d a x0 => .fneg u (d + BitVec.ofNat _ dd) (a + BitVec.ofNat _ da) x0
  | .fcmp u x0 x1 a b x2 => .fcmp u x0 x1 (a + BitVec.ofNat _ da) (b + BitVec.ofNat _ db) x2
  | .frcp u d a x0 => .frcp u (d + BitVec.ofNat _ dd) (a + BitVec.ofNat _ da) x0
  | .frsq u d a x0 => .frsq u (d + BitVec.ofNat _ dd) (a + BitVec.ofNat _ da) x0
  | .fsqrt u d a x0 => .fsqrt u (d + BitVec.ofNat _ dd) (a + BitVec.ofNat _ da) x0
  | .fexp2 u d a x0 => .fexp2 u (d + BitVec.ofNat _ dd) (a + BitVec.ofNat _ da) x0
  | .flog2 u d a x0 => .flog2 u (d + BitVec.ofNat _ dd) (a + BitVec.ofNat _ da) x0
  | .fsin u d a x0 => .fsin u (d + BitVec.ofNat _ dd) (a + BitVec.ofNat _ da) x0
  | .fcos u d a x0 => .fcos u (d + BitVec.ofNat _ dd) (a + BitVec.ofNat _ da) x0
  | .frnd u d a x0 x1 => .frnd u (d + BitVec.ofNat _ dd) (a + BitVec.ofNat _ da) x0 x1
  | .fcvt u d a x0 x1 => .fcvt u (d + BitVec.ofNat _ dd) (a + BitVec.ofNat _ da) x0 x1
  | .fmac u d a b x0 => .fmac u (d + BitVec.ofNat _ dd) (a + BitVec.ofNat _ da) (b + BitVec.ofNat _ db) x0
  | .fdot2 u d a b x0 => .fdot2 u (d + BitVec.ofNat _ dd) (a + BitVec.ofNat _ da) (b + BitVec.ofNat _ db) x0
  | .imac u d a b x0 => .imac u (d + BitVec.ofNat _ dd) (a + BitVec.ofNat _ da) (b + BitVec.ofNat _ db) x0
  | .idot4 u d a b => .idot4 u (d + BitVec.ofNat _ dd) (a + BitVec.ofNat _ da) (b + BitVec.ofNat _ db)
  | .lpickIdx d a b => .lpickIdx (d + BitVec.ofNat _ dd) (a + BitVec.ofNat _ da) (b + BitVec.ofNat _ db)
  | .lpickXor d a b => .lpickXor (d + BitVec.ofNat _ dd) (a + BitVec.ofNat _ da) (b + BitVec.ofNat _ db)
  | .lpickRot d a b => .lpickRot (d + BitVec.ofNat _ dd) (a + BitVec.ofNat _ da) (b + BitVec.ofNat _ db)
  | .lpickFill d a b => .lpickFill (d + BitVec.ofNat _ dd) (a + BitVec.ofNat _ da) (b + BitVec.ofNat _ db)
  | .ballot d x0 => .ballot (d + BitVec.ofNat _ dd) x0
  | .bcast d a b => .bcast (d + BitVec.ofNat _ dd) (a + BitVec.ofNat _ da) (b + BitVec.ofNat _ db)
  | .lred d a b x0 => .lred (d + BitVec.ofNat _ dd) (a + BitVec.ofNat _ da) b x0
  | .pmovToReg u d => .pmovToReg u (d + BitVec.ofNat _ dd)
  | .pmovFromReg u a => .pmovFromReg u (a + BitVec.ofNat _ da)
  | .hrnd u d a b => .hrnd u (d + BitVec.ofNat _ dd) (a + BitVec.ofNat _ da) (b + BitVec.ofNat _ db)
  | .sread u d a => .sread u (d + BitVec.ofNat _ dd) a
  | .iaddi u d a x0 => .iaddi u (d + BitVec.ofNat _ dd) (a + BitVec.ofNat _ da) x0
  | .andi u d a x0 => .andi u (d + BitVec.ofNat _ dd) (a + BitVec.ofNat _ da) x0
  | .ori u d a x0 => .ori u (d + BitVec.ofNat _ dd) (a + BitVec.ofNat _ da) x0
  | .xori u d a x0 => .xori u (d + BitVec.ofNat _ dd) (a + BitVec.ofNat _ da) x0
  | .shli u d a x0 => .shli u (d + BitVec.ofNat _ dd) (a + BitVec.ofNat _ da) x0
  | .shriZ u d a x0 => .shriZ u (d + BitVec.ofNat _ dd) (a + BitVec.ofNat _ da) x0
  | .shriS u d a x0 => .shriS u (d + BitVec.ofNat _ dd) (a + BitVec.ofNat _ da) x0
  | .rotli u d a x0 => .rotli u (d + BitVec.ofNat _ dd) (a + BitVec.ofNat _ da) x0
  | .imuli u d a x0 => .imuli u (d + BitVec.ofNat _ dd) (a + BitVec.ofNat _ da) x0
  | .movi u d x0 => .movi u (d + BitVec.ofNat _ dd) x0
  | .icmpi u x0 x1 a x2 => .icmpi u x0 x1 (a + BitVec.ofNat _ da) x2
  | .lpickiIdx d a x0 => .lpickiIdx (d + BitVec.ofNat _ dd) (a + BitVec.ofNat _ da) x0
  | .lpickiXor d a x0 => .lpickiXor (d + BitVec.ofNat _ dd) (a + BitVec.ofNat _ da) x0
  | .lpickiRot d a x0 => .lpickiRot (d + BitVec.ofNat _ dd) (a + BitVec.ofNat _ da) x0
  | .lpickiFill d a x0 => .lpickiFill (d + BitVec.ofNat _ dd) (a + BitVec.ofNat _ da) x0
  | .fma u x0 d a b x1 x2 => .fma u x0 (d + BitVec.ofNat _ dd) (a + BitVec.ofNat _ da) (b + BitVec.ofNat _ db) x1 x2
  | .imad u x0 d a b x1 x2 => .imad u x0 (d + BitVec.ofNat _ dd) (a + BitVec.ofNat _ da) (b + BitVec.ofNat _ db) x1 x2
  | .sel u x0 d a b x1 => .sel u x0 (d + BitVec.ofNat _ dd) (a + BitVec.ofNat _ da) (b + BitVec.ofNat _ db) x1
  | .bfeS u x0 d a x1 x2 x3 => .bfeS u x0 (d + BitVec.ofNat _ dd) (a + BitVec.ofNat _ da) x1 x2 x3
  | .bfeZ u x0 d a x1 x2 x3 => .bfeZ u x0 (d + BitVec.ofNat _ dd) (a + BitVec.ofNat _ da) x1 x2 x3
  | .bfi u x0 d a b x1 x2 x3 =>
    .bfi u x0 (d + BitVec.ofNat _ dd) (a + BitVec.ofNat _ da) (b + BitVec.ofNat _ db) x1 x2 x3
  | .bmix u d a b x0 x1 x2 => .bmix u (d + BitVec.ofNat _ dd) (a + BitVec.ofNat _ da) (b + BitVec.ofNat _ db) x0 x1 x2
  | .movi32 u d x0 => .movi32 u (d + BitVec.ofNat _ dd) x0
  | .iaddi32 u d a x0 => .iaddi32 u (d + BitVec.ofNat _ dd) (a + BitVec.ofNat _ da) x0
  | .fcvtX u d a b x0 x1 x2 x3 mode x5 x6 =>
    .fcvtX u (d + BitVec.ofNat _ dd) (a + BitVec.ofNat _ da) (if mode = 4 then b + BitVec.ofNat _ db else b) x0 x1 x2 x3 mode x5 x6
  | .fclamp u x0 d a b x1 x2 =>
    .fclamp u x0 (d + BitVec.ofNat _ dd) (a + BitVec.ofNat _ da) (b + BitVec.ofNat _ db) x1 x2
  | .lea u d a b x0 x1 x2 => .lea u (d + BitVec.ofNat _ dd) (a + BitVec.ofNat _ da) (b + BitVec.ofNat _ db) x0 x1 x2
  | .madW u d a b x0 x1 x2 => .madW u (d + BitVec.ofNat _ dd) (a + BitVec.ofNat _ da) (b + BitVec.ofNat _ db) x0 x1 x2
  | .fmaMix u x0 d a b x1 x2 x3 x4 =>
    .fmaMix u x0 (d + BitVec.ofNat _ dd) (a + BitVec.ofNat _ da) (b + BitVec.ofNat _ db) x1 x2 x3 x4
  | i => i

end Sys2Proof

namespace Sys2Proof.Machine

/-- The fields d, a and b of a body instruction's words, by class (R88, R97). -/
def rawFields (w v : W32) : Nat × Nat × Nat :=
  match (fld w 30 2).toNat with
  | 0 => ((fld w 16 7).toNat, (fld w 9 7).toNat, (fld w 2 7).toNat)
  | 1 => ((fld w 17 7).toNat, (fld w 10 7).toNat, 0)
  | _ => ((fld w 11 7).toNat, (fld w 4 7).toNat, (fld v 25 7).toNat)

/-- A field that passes its class's highest register in replay k. -/
def Field.over (f : Field) (base step : Nat) : Bool := f != .none && decide (f.top < base + step)

/-- The instruction of replay k of a frame; none where a field overflows (cause 0x02, R107). -/
def Rep.instr (r : Rep) (i : Instr) (w v : W32) : Option Instr :=
  match i.fields with
  | none => some i
  | some (fd, fa, fb) =>
    let (d, a, b) := rawFields w v
    if fd.over d (r.k * r.sd) || fa.over a (r.k * r.sa) || fb.over b (r.k * r.sb) then none
    else some (i.bump (r.k * r.sd) (r.k * r.sa) (r.k * r.sb))

/-- The word of an instruction whose field overflows: the second one where only its b field does (R97, R108). -/
def Rep.badWord (r : Rep) (i : Instr) (w v : W32) : W32 :=
  match i.fields with
  | none => w
  | some (fd, fa, _) =>
    let (d, a, _) := rawFields w v
    if teamLen w = 2 && !(fd.over d (r.k * r.sd)) && !(fa.over a (r.k * r.sa)) then v else w

/-- A stride on a field that holds no register (R107). -/
def strideBad (i : Instr) (sd sa sb : Nat) : Bool :=
  match i.fields with
  | none => true
  | some (fd, fa, fb) =>
    (fd == .none && sd != 0) || (fa == .none && sa != 0) || (fb == .none && sb != 0)

/-- What the check of a body gives (R107). -/
inductive Body where
  | ok
  | illegal
  | violation
  | failed (d : Done)
  deriving DecidableEq, Repr

/-- Decoding the body of a repeat frame before any of it runs: n instructions from pc on, up to last. -/
def State.checkBody (s : State) (t : Nat) (last : W64) (sd sa sb : Nat) (n : Nat) (pc : W64) : Body × State :=
  match n with
  | 0 => (.ok, s)
  | m + 1 =>
    match s.fetchWord t pc.toNat with
    | (.violation, s) => if last.toNat ≤ pc.toNat then (.illegal, s) else (.violation, s)
    | (.failed d, s) => if last.toNat ≤ pc.toNat then (.illegal, s) else (.failed d, s)
    | (.word w, s) =>
      let next := pc + BitVec.ofNat 64 (4 * teamLen w)
      if last.toNat < next.toNat then (.illegal, s) else
      let second : Fetched × State := if teamLen w = 2 then s.fetchWord t (pc + 4).toNat else (.word 0, s)
      match second with
      | (.violation, s) => (.violation, s)
      | (.failed d, s) => (.failed d, s)
      | (.word v, s) =>
        match decodeTeam w v with
        | .error _ => (.illegal, s)
        | .ok i => if strideBad i sd sa sb then (.illegal, s) else s.checkBody t last sd sa sb m next

end Sys2Proof.Machine
end

