-- ==== Sys2Proof/Machine/TeamSys.lean ====
section
/-! DEFINITION. Clause headers, the repeat frame, special registers and the SYS instructions of teams (R57, R101 to R107,
R168, R327 to R333). -/

namespace Sys2Proof.Machine

/-! ## Headers (R101, R102, R168) -/

/-- The deferred error that is taken at a header: in handler mode only those of instructions issued there count; the
one issued first is reported (R168, R328, R329). -/
def Team.dueError (t : Team) : Option Deferred :=
  let due := if t.hnd then t.deferred.filter fun e => e.handler else t.deferred
  match due with
  | [] => none
  | e :: r => some (r.foldl (fun m x => if x.order < m.order ∨ (x.order = m.order ∧ x.lane < m.lane) then x else m) e)

/-- Whether a trap that a team raised has been taken: not while the read of the trap-handler table waits (log 21). -/
def Team.tookTrap (t u : Team) : Bool :=
  !(u == t) && !(u.st == .parked &&
    match u.wait with
    | .fault _ _ table => table
    | _ => false)

/-- The trap of a deferred error at the header; once it is taken the others pending are dropped. -/
def State.takeDeferred (s : State) (t : Nat) (hdr : W32) (e : Deferred) : State :=
  let tm := s.team t
  let s := s.teamTrapAt t (Trap.mk e.cause (e.pc.setWidth 32) e.lane e.addr) true tm.pc (some (clauseOf tm.pc hdr))
  if tm.tookTrap (s.team t) then
    s.modTeam t fun u => { u with deferred := if tm.hnd then tm.deferred.filter fun x => !x.handler else [] }
  else s

/-- Every counter that WAIT names is zero. -/
def Team.waitOver (t : Team) (w : BitVec 12) : Bool :=
  (List.range 12).all fun i => !w.getLsbD i || t.counter i == 0

/-- Whether a waited counter counts an operation that waits in the replay table (R168). -/
def State.waitsOnFault (s : State) (t : Nat) (w : BitVec 12) : Bool :=
  s.ops.any fun e => e.2.party == .team t && w.getLsbD e.2.flag && e.2.held != []

/-- The team has observed the completion of the operations whose counters it waited for (R292). -/
def Team.observe (t : Team) (w : BitVec 12) : Team :=
  { t with
    observed := t.observed ++ ((t.finished.filter fun e => w.getLsbD e.2).map fun e => e.1)
    finished := t.finished.filter fun e => !w.getLsbD e.2 }

/-- A header: deferred errors, then the clause's structure as it is reached (R100), then WAIT; the clause starts. A header
word within the body of a clause is not among the words that R100 and R108 call illegal there: it starts its own clause, in
place of the one in force (DEDUCED, log 113). -/
def execHdr (w : BitVec 12) (a b l : BitVec 4) (h : BitVec 2) (s : State) : Host.Outcome State Fault Refusal :=
  teamInstr (.hdr w a b l h) s fun t tm =>
    match tm.dueError with
    | some e => .ok (s.takeDeferred t s.cur.w1 e)
    | none =>
      let c := Clause.mk tm.pc a b l.toNat h.toNat
      match s.scan t c.last l.toNat (tm.pc + 4) with
      | (.bad pc x, _) => .ok (s.teamTrapAt t (Trap.mk 0x01 x 0xFFFFFFFF 0) false pc (some c))
      | (.failed d, s) => State.issueDone t tm.pc.toNat (d, s) fun _ s => .ok s
      | (.ok, s) =>
        if tm.waitOver w then
          .ok (s.setTeam t { tm.observe w with clause := some c, prev := tm.pc, pc := tm.pc + 4 })
        else
          .ok (s.setTeam t { tm with st := if s.waitsOnFault t w then .parked else .clauseWait, wait := .none, hdrWord := s.cur.w1 })

/-! ## The repeat frame (R106, R107) -/

/-- The frame that an rpt word opens. -/
def repOf (at_ : W64) (l : BitVec 4) (c : BitVec 6) (d a b : BitVec 4) : Rep :=
  Rep.mk at_ (if l = 0 then 16 else l.toNat) (if c = 0 then 64 else c.toNat) d.toNat a.toNat b.toNat 0 0

/-- rpt, its body checked first (R107). A body word that fails its fetch check gives cause 0x03 at the rpt itself, before
any of the body runs, with TADDR 0 (DEDUCED, log 125). -/
def execRpt (l : BitVec 4) (c : BitVec 6) (d a b : BitVec 4) (s : State) : Host.Outcome State Fault Refusal :=
  teamInstr (.rpt l c d a b) s fun t tm =>
    let r := repOf tm.pc l c d a b
    let last := match tm.clause with
      | some c => c.last
      | none => tm.pc
    match s.checkBody t last r.sd r.sa r.sb r.n (tm.pc + 4) with
    | (.illegal, _) => .error (wordTrap s 0x01)
    | (.violation, _) => .error (Trap.mk 0x03 0 0xFFFFFFFF 0)
    | (.failed x, s) => State.issueDone t tm.pc.toNat (x, s) fun _ s => .ok s
    | (.ok, s) => .ok (s.setTeam t { tm with rep := some r, prev := tm.pc, pc := tm.pc + 4 })

/-! ## Special registers (R57, R58) -/

/-- VCLUS (R14). -/
def Launch.vclus (l : Launch) (cl : Nat) : Nat :=
  let v := l.vcl cl
  let r := v % (l.gridW * l.gridH)
  (l.gridD - 1) * 2 ^ 22 + (l.gridH - 1) * 2 ^ 19 + (l.gridW - 1) * 2 ^ 16 + v / (l.gridW * l.gridH) * 2 ^ 14
    + r / l.gridW * 2 ^ 11 + r % l.gridW * 2 ^ 8 + v

/-- LAUNCH (R57). -/
def Launch.ident (l : Launch) : Nat := l.prio * 2 ^ 28 + l.ctx % 4096 * 2 ^ 16 + l.number % 2 ^ 16

/-- A sum of WMSTAT raised by one, saturating; its field is hi..lo. -/
def wmCount (v : W64) (hi lo : Nat) : W64 :=
  if bits v.toNat hi lo = 2 ^ (hi + 1 - lo) - 1 then v else v + BitVec.ofNat 64 (2 ^ lo)

/-- WMSTAT with the counts of one ray (R232). -/
def wmAdd (v : W64) (e : Nat × Bool × Bool × Bool) : W64 :=
  let v := if e.2.1 then wmCount v 63 40 else v
  let v := if e.2.2.1 then wmCount v 39 20 else v
  if e.2.2.2 then wmCount v 19 0 else v

/-- WMSTAT as a read at a TIME shows it. -/
def Launch.wmShown (l : Launch) (now : Nat) : W64 := (l.wmLate.filter fun e => decide (e.1 ≤ now)).foldl wmAdd l.wmstat

/-- CAPS.RAY, CAPS.RAST and CAPS.MERGE (R15). -/
def State.hasRay (s : State) : Bool := bit s.caps 9
def State.hasRast (s : State) : Bool := bit s.caps 10
def State.hasMerge (s : State) : Bool := bit s.caps 11

/-- The special registers that every party of a launch reads alike. -/
def State.special (s : State) (cl : Nat) (l : Launch) (x : Nat) : Nat :=
  match x with
  | 4 => l.vclus cl
  | 5 => dieOf cl
  | 6 => s.clock cl % 2 ^ 64
  | 7 => s.time.toNat
  | 8 => l.energy.toNat
  | 9 => (s.cluster cl).mthr.toNat
  | 10 => s.caps.toNat
  | 11 => l.ident
  | _ => if s.hasRay then (l.wmShown s.time.toNat).toNat else 0

/-- A special register as a lane of a team reads it. -/
def State.teamSpecial (s : State) (tm : Team) (lane x : Nat) : Nat :=
  match x with
  | 0 => lane
  | 1 => tm.number.toNat
  | 2 => tm.lanes
  | 3 => tm.node.toNat
  | 12 => tm.fmt.toNat
  | 13 => tm.sclp.toNat
  | 14 => (Tbl.get tm.origin 0 lane).toNat
  | 15 => 0x80000000 + tm.eng
  | _ => s.special tm.cl (s.launch tm.launch) x

/-- In the uniform form LANE and ORIGIN are those of the lowest active lane (R58). -/
def State.uniformSpecial (s : State) (tm : Team) (x : Nat) : Nat :=
  match tm.active with
  | l :: _ => s.teamSpecial tm l x
  | [] => if x = 0 then 0xFFFFFFFF else if x = 14 then 0 else s.teamSpecial tm 0 x

def execSread (u : Bool) (d a : BitVec 7) (s : State) : Host.Outcome State Fault Refusal :=
  aluInstr (.sread u d a) s fun tm =>
    tm.alu u always d.toNat (if sregWide a.toNat then 2 else 1) fun l =>
      (if u then s.uniformSpecial tm a.toNat else s.teamSpecial tm l a.toNat, 0)

/-! ## Team status registers (R46, R202, R235, R327, R330) -/

/-- Numbers that R327 and its neighbours assign. -/
def csrAssigned (n : Nat) : Bool := decide (n ≤ 0x009) || n == 0x010 || n == 0x011 || (decide (0x020 ≤ n) && decide (n ≤ 0x03F))

/-- The value of a team status register. -/
def State.csrRead (s : State) (tm : Team) (n : Nat) : W32 :=
  match n with
  | 0x000 => tm.tstat
  | 0x001 => tm.tcause
  | 0x002 => tm.tepc.setWidth 32
  | 0x003 => (tm.tepc >>> 32).setWidth 32
  | 0x004 => tm.tinfo
  | 0x005 => tm.tlane
  | 0x006 => tm.taddr.setWidth 32
  | 0x007 => (tm.taddr >>> 32).setWidth 32
  | 0x008 => tm.tcls
  | 0x009 => tm.tret
  | 0x010 => (s.cluster tm.cl).mstat
  | 0x011 => tm.tclass
  | _ => BitVec.ofNat 32 (tm.tmask / 2 ^ (32 * (n - 0x020)))

/-- How a CSR sub combines the register with the operand. -/
inductive CsrOp where
  | write | set | clear
  deriving DecidableEq, Repr

def CsrOp.value (o : CsrOp) (old x : W32) : W32 :=
  match o with
  | .write => x
  | .set => old ||| x
  | .clear => old &&& ~~~x

/-- A W1C field (R330). -/
def CsrOp.w1c (o : CsrOp) (old x : W32) : W32 :=
  match o with
  | .clear => old
  | _ => old &&& ~~~x

/-- Word w of a mask replaced. -/
def setMaskWord (m w : Nat) (v : W32) : Nat :=
  m / 2 ^ (32 * (w + 1)) * 2 ^ (32 * (w + 1)) + v.toNat * 2 ^ (32 * w) + m % 2 ^ (32 * w)

/-- A write to a team status register; RO bits stay. -/
def State.csrWrite (s : State) (tm : Team) (o : CsrOp) (n : Nat) (x : W32) : State × Team :=
  let v := o.value (s.csrRead tm n) x
  match n with
  | 0x000 => (s, { tm with tstat := (tm.tstat &&& 0x40) ||| (v &&& 0x3F) })
  | 0x002 => (s, { tm with tepc := (tm.tepc >>> 32).setWidth 32 ++ v })
  | 0x003 => (s, { tm with tepc := v ++ tm.tepc.setWidth 32 })
  | 0x009 => (s, { tm with tret := v &&& 1 })
  | 0x010 => (s.modCluster tm.cl fun c => { c with mstat := o.w1c c.mstat x }, tm)
  | 0x011 => (s, { tm with tclass := v })
  | _ =>
    if 0x020 ≤ n then
      let w := n - 0x020
      (s, { tm with tmask := setMaskWord tm.tmask w (v &&& BitVec.ofNat 32 (tm.live / 2 ^ (32 * w))) })
    else (s, tm)

/-- The checks of R327 and R330: outside handler mode only TSTAT may be named. -/
def csrInstr (i : Instr) (n : BitVec 12) (s : State) (body : Nat → Team → Except Trap State) :
    Host.Outcome State Fault Refusal :=
  teamInstr i s fun t tm =>
    if n = 0 then body t tm
    else if !tm.hnd then .error (wordTrap s 0x0B)
    else if csrAssigned n.toNat then body t tm
    else .error (wordTrap s 0x01)

def execCsrr (d : BitVec 6) (n : BitVec 12) (s : State) : Host.Outcome State Fault Refusal :=
  csrInstr (.csrr d n) n s fun t tm => .ok (s.retireTeam t (tm.setG d.toNat (s.csrRead tm n.toNat)))

/-- A CSR sub that writes. -/
def State.csrPut (s : State) (o : CsrOp) (d : BitVec 6) (n : BitVec 12) (t : Nat) (tm : Team) : Except Trap State :=
  let r := s.csrWrite tm o n.toNat (tm.greg d.toNat)
  .ok (r.1.retireTeam t r.2)

def execCsrw (d : BitVec 6) (n : BitVec 12) (s : State) : Host.Outcome State Fault Refusal :=
  csrInstr (.csrw d n) n s (s.csrPut .write d n)

def execCsrs (d : BitVec 6) (n : BitVec 12) (s : State) : Host.Outcome State Fault Refusal :=
  csrInstr (.csrs d n) n s (s.csrPut .set d n)

def execCsrc (d : BitVec 6) (n : BitVec 12) (s : State) : Host.Outcome State Fault Refusal :=
  csrInstr (.csrc d n) n s (s.csrPut .clear d n)

/-! ## tpark, tkill, eret (R331 to R333) -/

/-- A SYS sub that only handler mode may run. -/
def handlerInstr (i : Instr) (s : State) (body : Nat → Team → Except Trap State) : Host.Outcome State Fault Refusal :=
  teamInstr i s fun t tm => if tm.hnd then body t tm else .error (wordTrap s 0x0B)

/-- The take of a tpark word that is FULL: it becomes EMPTY, its value goes to pair d, an acquire at system scope, and
the team goes on (R331). -/
def State.takeWord (s : State) (t k d : Nat) : State :=
  let tm := s.team t
  if s.isPoisoned k then s.teamTrapAt t (Trap.mk 0x0C 0 0xFFFFFFFF 0) false tm.prev tm.clause
  else
    let v := s.readKey k 8
    let s := s.liftKeys pathLS (Tbl.keys (cellsAt k (toBytes 8 0)))
    (((s.breakResv none k 8).setFull k false).teamAcquire tm).setTeam t { tm.setGs d 2 v with st := .ready, wait := .none }

/-- tpark: once the counters are zero and while the word is FULL it is taken; otherwise the team is PARKED, and
TEAM_PARK_OFF goes on with it. -/
def execTpark (a d : BitVec 6) (s : State) : Host.Outcome State Fault Refusal :=
  handlerInstr (.tpark a d) s fun t tm =>
    let va := BitVec.ofNat 64 (tm.gpair a.toNat)
    match s.barrierKey tm va with
    | .error e => .error e
    | .ok k =>
      let s' := s.setTeam t { tm.nextClause with st := .parked, wait := .tpark va d.toNat }
      if tm.drained && s.isFull k then .ok (s'.takeWord t k d.toNat) else .ok s'

def execTkill (c : BitVec 16) (s : State) : Host.Outcome State Fault Refusal :=
  handlerInstr (.tkill c) s fun t _ => .ok (s.killTeam t (c.setWidth 32))

/-- The lanes of every entry of the divergence stack; n counts the spilled entries still to read. -/
def State.stackLanes (s : State) (t : Nat) (tm : Team) (n acc : Nat) (k : Nat → State → Except Trap State) :
    Except Trap State :=
  match n with
  | 0 => k (tm.divs.foldl (fun m e => m ||| e.mask) acc) s
  | m + 1 =>
    s.withSpill t tm fun base s =>
      let va := tm.divAt base m
      State.issueDone t va (s.readRange (tm.who pathLS) va (8 + 4 * tm.words) true) fun v s =>
        s.stackLanes t tm m (acc ||| (tm.divOf v).mask) k

/-- Where eret resumes: the clause of TCLS when the pc lies inside it (R104), a header otherwise. -/
def Team.resumeClause (tm : Team) (pc : W64) : Option Clause :=
  match tm.tclause with
  | none => none
  | some c =>
    let c := Clause.mk c.hdr (fld tm.tcls 12 4) (fld tm.tcls 8 4) (fld tm.tcls 4 4).toNat c.hint
    if c.hdr.toNat < pc.toNat ∧ pc.toNat < c.last.toNat then some c else none

/-- The replay that eret resumes, at REPK and REPI. -/
def Team.resumeRep (tm : Team) : Option Rep :=
  if bit tm.tcause 13 then tm.trep.map fun r => { r with k := (fld tm.tcause 18 6).toNat, i := (fld tm.tcause 14 4).toNat }
  else none

/-- The frame of the last rpt among n words from a place of a clause up to a pc. -/
def State.findRep (s : State) (t : Nat) (pc at_ : W64) (best : Option Rep) : Nat → Option Rep
  | 0 => best
  | n + 1 =>
    if pc.toNat ≤ at_.toNat then best
    else
      match s.fetchWord t at_.toNat with
      | (.word w, _) =>
        let best := match decodeTeam w 0 with
          | .ok (.rpt l c d a b) => some (repOf at_ l c d a b)
          | _ => best
        s.findRep t pc (at_ + BitVec.ofNat 64 (4 * teamLen w)) best n
      | _ => none

/-- The replay that TCAUSE names: the one that the trap left, or, where a frame set REP, that of the rpt before TEPC in its
clause (R107, R429; DEDUCED, log 111). -/
def State.withRep (s : State) (t : Nat) (tm : Team) : Team :=
  match tm.trep, tm.tclause with
  | none, some c =>
    if bit tm.tcause 13 then
      { tm with trep := (s.setTeam t { tm with sg := tm.sgSaved }).findRep t tm.tepc (c.hdr + 4) none 16 }
    else tm
  | _, _ => tm

/-- The team as eret leaves it, before Join; words is the length of the instruction that SKIP passes over. The clause of the
eret is left (R105). -/
def Team.leaveHandler (tm : Team) (words : Option Nat) : Team :=
  let at_ := { tm.goto tm.tepc with
    mask := tm.tmask &&& tm.live, sg := tm.sgSaved, tstat := tm.tstat &&& ~~~0x40, prev := tm.pc
    clause := tm.resumeClause tm.tepc, rep := tm.resumeRep }
  match words with
  | none => at_
  | some n =>
    let t := at_.advance n
    { t with
      prev := tm.pc, prevClause := at_.prevClause, yielded := at_.yielded
      clause := if t.clause.isSome then t.clause else tm.resumeClause t.pc }

/-- eret from the team's state after it left the handler. -/
def State.finishEret (s : State) (t : Nat) (tm : Team) : Except Trap State :=
  s.stackLanes t tm tm.divSpilled tm.mask fun keep s =>
    let tm := { tm with live := tm.live &&& keep }
    if tm.mask = 0 then s.joinTeam t tm else .ok (s.setTeam t tm)

/-- eret (R333). With SKIP set the instruction at TEPC is fetched under the team's own segments for its length. -/
def execEret (s : State) : Host.Outcome State Fault Refusal :=
  handlerInstr .eret s fun t tm =>
    let tm := s.withRep t tm
    if bit tm.tret 0 then
      match (s.setTeam t { tm with sg := tm.sgSaved }).fetchWord t tm.tepc.toNat with
      | (.word w, s') => (s'.setTeam t tm).finishEret t (tm.leaveHandler (some (teamLen w)))
      | (.violation, _) => .error (Trap.mk 0x03 0 0xFFFFFFFF tm.tepc)
      | (.failed d, s') => State.issueDone t tm.tepc.toNat (d, s'.setTeam t tm) fun _ s => .ok s
    else s.finishEret t (tm.leaveHandler none)

end Sys2Proof.Machine
end

