-- ==== Sys2Proof/Machine/TeamMem.lean ====
section
/-! DEFINITION. The M class: loads, stores, full/empty words, acquire and release accesses, atomics, discard and cache
maintenance (R49, R103, R166 to R176): checks, operands and counters at issue. The accesses themselves are made by the
completions of MemEvents. -/

namespace Sys2Proof.Machine

/-! ## Issue -/

/-- The counter that f selects: none when the clause's flag names none (R103). -/
def Team.flag (t : Team) (f : Bool) : Option Nat :=
  match t.clause with
  | none => none
  | some c =>
    let n := (if f then c.flb else c.fla).toNat
    if n < 12 then some n else none

/-- IssueLong (R103): the operation is in flight and its counter counts it; the engine holds the instruction while
the counter is full. -/
def State.issueLong (s : State) (t : Nat) (tm : Team) (f : Bool) (kind : OpKind) (units : Nat) : Except Trap State :=
  match tm.flag f with
  | none => .error (wordTrap s 0x01)
  | some c =>
    if 63 ≤ tm.counter c then .ok s
    else
      let op : Op := { party := .team t, kind := kind, flag := c, pc := tm.pc, handler := tm.hnd
                       until_ := s.feUntil tm.cl, todo := List.range units }
      let s := { s with ops := Tbl.put s.ops s.nextOp op, nextOp := s.nextOp + 1 }
      .ok (s.retireTeam t (tm.setCounter c (tm.counter c + 1)))

/-- What an M-class instruction is: rights, sizes and data of its lanes. -/
structure MemForm where
  op : MemOp
  need : Need
  sg : BitVec 3
  d : BitVec 7
  a : BitVec 7
  u : Bool
  /-- off6 as a signed number of accesses -/
  off : Int := 0
  /-- access size of a lane -/
  size : Nat → Nat
  align : Nat := 1
  /-- only local-store windows may be named (R170) -/
  window : Bool := false
  /-- the data of a lane, read at issue -/
  data : Nat → Nat := fun _ => 0
  data2 : Nat → Nat := fun _ => 0

/-- The first byte of a lane's access, exactly (R49 step 1). -/
def MemForm.first (m : MemForm) (tm : Team) (lane : Nat) : Int :=
  Int.ofNat (tm.rd m.u lane m.a.toNat 2) + m.off * Int.ofNat (m.size lane)

/-- The lanes of an instruction: the active ones, or the team once. -/
def MemForm.lanes (m : MemForm) (tm : Team) : List Nat := if m.u then [0] else tm.active

/-- The check of one lane. An empty range is not checked (R176). -/
def State.checkLane (s : State) (tm : Team) (m : MemForm) (lane : Nat) : Check :=
  let first := m.first tm lane
  if m.size lane = 0 then .ok else
  match checkNamed (s.launch tm.launch) tm.launch (Tbl.get tm.sg 0 m.sg.toNat) m.need first (m.size lane) m.align with
  | .violation => .violation
  | r => if m.window && !inWindows first.toNat then .violation else r

/-- The trap of the lowest failing lane. -/
def State.checkLanes (s : State) (tm : Team) (m : MemForm) : List Nat → Option Trap
  | [] => none
  | l :: r =>
    let lane : W32 := if m.u then 0xFFFFFFFF else BitVec.ofNat 32 l
    match s.checkLane tm m l with
    | .ok => s.checkLanes tm m r
    | .violation => some (Trap.mk 0x03 0 lane (BitVec.ofInt 64 (m.first tm l)))
    | .misaligned => some (Trap.mk 0x04 0 lane (BitVec.ofInt 64 (m.first tm l)))

/-- The parts of an operation, lane by lane. -/
def MemForm.units (m : MemForm) (tm : Team) : List Unit1 :=
  (m.lanes tm).map fun l =>
    Unit1.mk l (BitVec.ofInt 64 (m.first tm l)) (m.data l) (m.data2 l) (segL (Tbl.get tm.sg 0 m.sg.toNat))

/-- What the lanes of an operation need of their pages. -/
def MemOp.acc : MemOp → Acc
  | .store _ | .stRel _ _ | .discard | .scat _ => .write
  | .atom _ _ _ | .cas _ => .atomic
  | _ => .read

/-- The lowest lane that reaches a lodged page through a segment without L (R51). -/
def State.lodgedLane (s : State) (tm : Team) (m : MemForm) (lanes : List Nat) : Option Nat :=
  lanes.find? fun l => s.lodgedBarred tm m.sg m.op.acc (m.first tm l).toNat (m.size l)

/-- ExecM (R166) as far as issue. -/
def memInstr (i : Instr) (f : Bool) (form : Team → MemForm) (s : State) : Host.Outcome State Fault Refusal :=
  teamInstr i s fun t tm =>
    if s.acqPending t then .ok s
    else
      let m := form tm
      match s.checkLanes tm m (m.lanes tm) with
      | some tr => .error tr
      | none =>
        match s.lodgedLane tm m (m.lanes tm) with
        | some l =>
          .ok (s.lsegTrap t tm pathLS m.op.acc (if m.u then 0xFFFFFFFF else BitVec.ofNat 32 l) (m.first tm l).toNat)
        | none => s.issueLong t tm f (.mem m.op m.u m.d.toNat (m.units tm)) (m.lanes tm).length

/-- The form of a load: size in bytes, natural alignment. -/
def loadForm (op : MemOp) (size : Nat) (u : Bool) (d a : BitVec 7) (sg : BitVec 3) (o : BitVec 6) (_tm : Team) :
    MemForm :=
  { op := op, need := needRead, sg := sg, d := d, a := a, u := u, off := o.toInt, size := fun _ => size, align := size }

/-- The form of a store; the data stand in the registers from d on. -/
def storeForm (op : MemOp) (size : Nat) (u : Bool) (d a : BitVec 7) (sg : BitVec 3) (o : BitVec 6) (tm : Team) :
    MemForm :=
  { op := op, need := needWrite, sg := sg, d := d, a := a, u := u, off := o.toInt, size := fun _ => size, align := size
    data := fun l => tm.rd u l d.toNat (regsOf size) % 2 ^ (8 * size) }

/-! ## Loads and stores (R169) -/

def execLdZ8 (u : Bool) (d a : BitVec 7) (sg : BitVec 3) (f : Bool) (o : BitVec 6) (s : State) :
    Host.Outcome State Fault Refusal :=
  memInstr (.ldZ8 u d a sg f o) f (loadForm (.load 1 false) 1 u d a sg o) s

def execLdS8 (u : Bool) (d a : BitVec 7) (sg : BitVec 3) (f : Bool) (o : BitVec 6) (s : State) :
    Host.Outcome State Fault Refusal :=
  memInstr (.ldS8 u d a sg f o) f (loadForm (.load 1 true) 1 u d a sg o) s

def execLdZ16 (u : Bool) (d a : BitVec 7) (sg : BitVec 3) (f : Bool) (o : BitVec 6) (s : State) :
    Host.Outcome State Fault Refusal :=
  memInstr (.ldZ16 u d a sg f o) f (loadForm (.load 2 false) 2 u d a sg o) s

def execLdS16 (u : Bool) (d a : BitVec 7) (sg : BitVec 3) (f : Bool) (o : BitVec 6) (s : State) :
    Host.Outcome State Fault Refusal :=
  memInstr (.ldS16 u d a sg f o) f (loadForm (.load 2 true) 2 u d a sg o) s

def execLd32 (u : Bool) (d a : BitVec 7) (sg : BitVec 3) (f : Bool) (o : BitVec 6) (s : State) :
    Host.Outcome State Fault Refusal :=
  memInstr (.ld32 u d a sg f o) f (loadForm (.load 4 false) 4 u d a sg o) s

def execLd64 (u : Bool) (d a : BitVec 7) (sg : BitVec 3) (f : Bool) (o : BitVec 6) (s : State) :
    Host.Outcome State Fault Refusal :=
  memInstr (.ld64 u d a sg f o) f (loadForm (.load 8 false) 8 u d a sg o) s

def execLd128 (u : Bool) (d a : BitVec 7) (sg : BitVec 3) (f : Bool) (o : BitVec 6) (s : State) :
    Host.Outcome State Fault Refusal :=
  memInstr (.ld128 u d a sg f o) f (loadForm (.load 16 false) 16 u d a sg o) s

def execLdNc (u : Bool) (d a : BitVec 7) (sg : BitVec 3) (f : Bool) (o : BitVec 6) (s : State) :
    Host.Outcome State Fault Refusal :=
  memInstr (.ldNc u d a sg f o) f (loadForm .loadNc 4 u d a sg o) s

def execSt8 (u : Bool) (d a : BitVec 7) (sg : BitVec 3) (f : Bool) (o : BitVec 6) (s : State) :
    Host.Outcome State Fault Refusal :=
  memInstr (.st8 u d a sg f o) f (storeForm (.store 1) 1 u d a sg o) s

def execSt16 (u : Bool) (d a : BitVec 7) (sg : BitVec 3) (f : Bool) (o : BitVec 6) (s : State) :
    Host.Outcome State Fault Refusal :=
  memInstr (.st16 u d a sg f o) f (storeForm (.store 2) 2 u d a sg o) s

def execSt32 (u : Bool) (d a : BitVec 7) (sg : BitVec 3) (f : Bool) (o : BitVec 6) (s : State) :
    Host.Outcome State Fault Refusal :=
  memInstr (.st32 u d a sg f o) f (storeForm (.store 4) 4 u d a sg o) s

def execSt64 (u : Bool) (d a : BitVec 7) (sg : BitVec 3) (f : Bool) (o : BitVec 6) (s : State) :
    Host.Outcome State Fault Refusal :=
  memInstr (.st64 u d a sg f o) f (storeForm (.store 8) 8 u d a sg o) s

def execSt128 (u : Bool) (d a : BitVec 7) (sg : BitVec 3) (f : Bool) (o : BitVec 6) (s : State) :
    Host.Outcome State Fault Refusal :=
  memInstr (.st128 u d a sg f o) f (storeForm (.store 16) 16 u d a sg o) s

/-! ## Full/empty words (R170) -/

def execLdFe (u : Bool) (d a : BitVec 7) (sg : BitVec 3) (f : Bool) (o : BitVec 6) (s : State) :
    Host.Outcome State Fault Refusal :=
  memInstr (.ldFe u d a sg f o) f
    (fun tm => { loadForm .ldFe 8 u d a sg o tm with need := needBoth, window := true }) s

def execStFe (u : Bool) (d a : BitVec 7) (sg : BitVec 3) (f : Bool) (o : BitVec 6) (s : State) :
    Host.Outcome State Fault Refusal :=
  memInstr (.stFe u d a sg f o) f
    (fun tm => { storeForm .stFe 8 u d a sg o tm with need := needBoth, window := true }) s

def execFeSet (u : Bool) (d a : BitVec 7) (sg : BitVec 3) (f : Bool) (o : BitVec 6) (s : State) :
    Host.Outcome State Fault Refusal :=
  memInstr (.feSet u d a sg f o) f
    (fun tm => { loadForm (.feSet (d == 1)) 8 u d a sg o tm with need := needBoth, window := true }) s

/-! ## Acquire and release accesses (R171) -/

def execLdAcq (u : Bool) (d a : BitVec 7) (sg : BitVec 3) (f : Bool) (e z : BitVec 3) (s : State) :
    Host.Outcome State Fault Refusal :=
  memInstr (.ldAcq u d a sg f e z) f
    (loadForm (.ldAcq (sizeCode z.toNat) e.toNat) (sizeCode z.toNat) u d a sg 0) s

def execStRel (u : Bool) (d a : BitVec 7) (sg : BitVec 3) (f : Bool) (e z : BitVec 3) (s : State) :
    Host.Outcome State Fault Refusal :=
  memInstr (.stRel u d a sg f e z) f
    (storeForm (.stRel (sizeCode z.toNat) e.toNat) (sizeCode z.toNat) u d a sg 0) s

/-! ## Atomics (R172, R173) -/

def execAtom (u : Bool) (d a : BitVec 7) (sg : BitVec 3) (f : Bool) (k : BitVec 4) (z : BitVec 2) (s : State) :
    Host.Outcome State Fault Refusal :=
  let size := 4 * (z.toNat + 1)
  memInstr (.atom u d a sg f k z) f
    (fun tm => { storeForm (.atom k.toNat size true) size u d a sg 0 tm with need := needAtomic }) s

def execAtomNr (u : Bool) (d a : BitVec 7) (sg : BitVec 3) (f : Bool) (k : BitVec 4) (z : BitVec 2) (s : State) :
    Host.Outcome State Fault Refusal :=
  let size := 4 * (z.toNat + 1)
  memInstr (.atomNr u d a sg f k z) f
    (fun tm => { storeForm (.atom k.toNat size false) size u d a sg 0 tm with need := needAtomicNr }) s

def execAtomCas (u : Bool) (d a : BitVec 7) (sg : BitVec 3) (f : Bool) (z : BitVec 2) (s : State) :
    Host.Outcome State Fault Refusal :=
  let regs := z.toNat + 1
  memInstr (.atomCas u d a sg f z) f
    (fun tm => { storeForm (.cas (4 * regs)) (4 * regs) u d a sg 0 tm with
      need := needAtomic, data2 := fun l => tm.rd u l (d.toNat + regs) regs }) s

/-! ## The rest (R175, R176) -/

/-- The 64-byte block at an address brought into the L1 of a team: the sectors that it does not hold. An address that cannot
be reached, or not without a change of memory (the A bit of its leaf), leaves everything as it is: no fault, no record. -/
def State.prefetch (s : State) (tm : Team) (va : Nat) (l : Bool) : State :=
  match s.piecesOf (tm.who pathLS) .read l va 64 with
  | (.ok ps, s') =>
    if s'.mem ≠ s.mem then s else
    let cache := s'.l1Of tm
    let sector (p : Piece) (s : State) (off : Nat) : State :=
      let k := keyAdd p.key off
      if p.cacheable && off < p.len && (s.copy? cache k).isNone && !s.anyPoison (keyBlock 32 k) 32 then
        s.fillSector pathLS cache k p.k (s.launch tm.launch).ctx
      else s
    ps.foldl (fun s p => sector p (sector p s 0) 32) s'
  | _ => s

/-- pref writes no register, counts nowhere and raises nothing; where every lane passes the check of R49 the blocks come
into the L1 (R48, R175). -/
def execPref (u : Bool) (a : BitVec 7) (sg : BitVec 3) (o : BitVec 6) (s : State) : Host.Outcome State Fault Refusal :=
  teamInstr (.pref u a sg o) s fun t tm =>
    if s.acqPending t then .ok s
    else
      let m := loadForm .loadNc 64 u 0 a sg o tm
      let s :=
        if (s.checkLanes tm m (m.lanes tm)).isSome then s
        else (m.lanes tm).foldl (fun s l => s.prefetch tm (m.first tm l).toNat (segL (Tbl.get tm.sg 0 sg.toNat))) s
      .ok (s.retireTeam t tm)

/-- discard: the length stands in register d; the range is not aligned. -/
def execDiscard (u : Bool) (d a : BitVec 7) (sg : BitVec 3) (f : Bool) (s : State) : Host.Outcome State Fault Refusal :=
  memInstr (.discard u d a sg f) f
    (fun tm =>
      { op := .discard, need := needWrite, sg := sg, d := d, a := a, u := u, size := fun l => tm.rd u l d.toNat 1
        data := fun l => tm.rd u l d.toNat 1 }) s

def execCmaint (u : Bool) (a : BitVec 7) (sg : BitVec 3) (f : Bool) (k e : BitVec 3) (s : State) :
    Host.Outcome State Fault Refusal :=
  memInstr (.cmaint u a sg f k e) f (loadForm (.cmaint k.toNat e.toNat) 256 u 0 a sg 0) s

end Sys2Proof.Machine
end

