-- ==== Sys2Proof/Machine/Scalar.lean ====
section
/-! DEFINITION. Memory accesses of scalar threads: the check of R50, page faults that park, buffered stores (R240, R242),
acquires, and the spill of a stop that waited. -/

namespace Sys2Proof.Machine

/-- The launch a thread runs in; the keeper runs in the context that firmware gives it (log 25). -/
def Slot.launchNo (x : Slot) : Nat := x.launch.getD 0

/-- Where a thread stands for memory. -/
def slotWho (k : Nat) (x : Slot) : Who := Who.mk (slotCluster k) x.launchNo pathLS (some k)

def SlotWait.isFault : SlotWait → Bool
  | .fault _ _ _ => true
  | _ => false

/-- A thread that parks; on a page fault its reservation is lost (R241). -/
def State.parkSlot (s : State) (k : Nat) (w : SlotWait) : State :=
  s.modSlot k fun x => { x with st := .parked, wait := w, resv := if w.isFault then none else x.resv }

/-- A trap that keeps what the access did to the ports (its fault record, its translations). -/
def State.trapNow (s : State) (k : Nat) (code : BitVec 8) (tval : Nat) : Except KTrap State :=
  .ok (s.keeperTrap k code (BitVec.ofNat 64 tval))

/-- How an instruction goes on after an access at an address: pf is the cause of an unresolvable page fault (R314). -/
def State.scalarDone (k va : Nat) (pf : BitVec 8) (r : Done × State) (f : Nat → State → Except KTrap State) :
    Except KTrap State :=
  match r with
  | (.value v, s) => f v s
  | (.park token, s) => .ok (s.parkSlot k (.fault token pf (BitVec.ofNat 64 va)))
  | (.stall, s) => .ok s
  | (.fail, s) => s.trapNow k pf va
  | (.poisoned, s) => s.trapNow k 27 va

/-- The check of R50 for a scalar access; mis is the cause of a misaligned one. The continuation learns whether the
deciding segment has L. -/
def State.scalarCheck (s : State) (x : Slot) (need : Need) (va size align : Nat) (mis : BitVec 8)
    (f : Bool → Except KTrap State) : Except KTrap State :=
  match checkSearch (s.launch x.launchNo) x.launchNo x.sg need va size align with
  | (.violation, _) => .error (KTrap.mk 24 (BitVec.ofNat 64 va))
  | (.misaligned, _) => .error (KTrap.mk mis (BitVec.ofNat 64 va))
  | (.ok, l) => f l

/-! ## Buffered stores (R242) -/

/-- The stores of a thread that have not reached their coherence points, oldest first. -/
def State.pendingStores (s : State) (k : Nat) : List (Nat × Op) :=
  s.ops.filter fun e => e.2.party == .slot k &&
    match e.2.kind with
    | .slotStore _ _ _ => true
    | _ => false

/-- A buffered store reaches its coherence point: its lodged lines are allocated with the write (R281, R282). -/
def State.performStore (s : State) (id : Nat) (o : Op) : State :=
  match o.party, o.kind with
  | .slot k, .slotStore ps bs ls =>
    let w := slotWho k (s.slot k)
    let s := ((s.allocLines w.launch ls).clearPoison (coveredUnits ps)).writePieces w id (some (swarmNo (slotCluster k))) ps bs
    { s with ops := Tbl.erase s.ops id }
  | _, _ => s

def State.performStores (s : State) : List (Nat × Op) → State
  | [] => s
  | (id, o) :: r => (s.performStore id o).performStores r

/-- Every store of a thread performed: what a release or a fence asks for (R289). -/
def State.drainStores (s : State) (k : Nat) : State := s.performStores (s.pendingStores k)

/-- Whether a buffered store writes into a piece. -/
def storeMeets (ps : List Piece) (o : Op) : Bool :=
  match o.kind with
  | .slotStore qs _ _ =>
    qs.any fun q => ps.any fun p =>
      keyKind p.key == keyKind q.key && decide (keyPlace p.key < keyPlace q.key + q.len)
        && decide (keyPlace q.key < keyPlace p.key + p.len)
  | _ => false

/-- A thread's own stores to bytes it is about to access take effect first (R166): all stores up to the last that
meets them. -/
def State.drainMeeting (s : State) (k : Nat) (ps : List Piece) : State :=
  let l := s.pendingStores k
  if l.any fun e => storeMeets ps e.2 then s.performStores l else s

/-- The pieces of an access of a thread, its own earlier stores to them performed. -/
def State.scalarPieces (s : State) (k : Nat) (x : Slot) (a : Acc) (l : Bool) (va size : Nat) :
    Except Place (List Piece) × State :=
  match s.piecesOf (slotWho k x) a l va size with
  | (.ok ps, s) => (.ok ps, s.drainMeeting k ps)
  | r => r

/-- What a thread's read of local store shows it of the copies that arrived at a barrier: an acquire observes them, and
another read leaves them to the next acquire fence (R290, R292). -/
def State.noteRead (s : State) (k : Nat) (x : Slot) (va n : Nat) (acquire : Bool) : State :=
  match s.phasesIn x.launchNo va n with
  | [] => s
  | ps =>
    s.modSlot k fun y =>
      if acquire then { y with observed := y.observed ++ ps } else { y with glimpsed := y.glimpsed ++ ps }

/-- A plain load of a thread, through the swarm data cache (R276). -/
def State.scalarLoad (s : State) (k : Nat) (x : Slot) (va size : Nat) (f : Nat → State → Except KTrap State) :
    Except KTrap State :=
  s.scalarCheck x needRead va size size 4 fun l =>
    match s.scalarPieces k x .read l va size with
    | (.error p, s) => State.scalarDone k va 13 (p.done, s) f
    | (.ok _, s) =>
      State.scalarDone k va 13 (s.loadRange (slotWho k x) (swarmNo (slotCluster k)) va size l) fun v s =>
        f v (s.noteRead k x va size false)

/-- A read at the coherence point. -/
def State.scalarRead (s : State) (k : Nat) (x : Slot) (need : Need) (va size align : Nat)
    (f : Nat → State → Except KTrap State) : Except KTrap State :=
  s.scalarCheck x need va size align 4 fun l =>
    match s.scalarPieces k x .read l va size with
    | (.error p, s) => State.scalarDone k va 13 (p.done, s) f
    | (.ok _, s) => State.scalarDone k va 13 (s.readPast (slotWho k x) (swarmNo (slotCluster k)) va size l) f

/-- Whether the lines that a store will allocate fit the reservation; otherwise the store parks with RESFULL (R281). -/
def State.takeLines (s : State) (w : Who) (ps : List Piece) (va : Nat) (acc : Nat) : Done × State :=
  let l := s.launch w.launch
  if s.linesFit w.launch (s.newLines ps) then (.value 0, s)
  else parkedDone (s.park w.cl l.part l.ctx va 4 acc)
where
  parkedDone (r : Option Nat × State) : Done × State :=
    match r with
    | (some t, s) => (.park t, s)
    | (none, s) => (.stall, s)

/-- A store in the thread's buffer, which will be performed as it was translated: D is set in its leaves (R359). -/
def State.bufferStore (s : State) (k : Nat) (w : Who) (ps : List Piece) (bs : List Byte) : State :=
  let op : Op := { party := .slot k, kind := .slotStore ps bs (pieceLines ps), todo := [0] }
  let s := s.dirty w.cl ps
  { s with ops := Tbl.put s.ops s.nextOp op, nextOp := s.nextOp + 1 }

/-- A plain store of a thread: translated, then buffered; a ninth waits (R242). -/
def State.scalarStore (s : State) (k : Nat) (x : Slot) (va size v : Nat) (f : State → Except KTrap State) :
    Except KTrap State :=
  s.scalarCheck x needWrite va size size 6 fun l =>
    if 8 ≤ (s.pendingStores k).length then .ok s else
    match s.piecesOf (slotWho k x) .write l va size with
    | (.error p, s) => State.scalarDone k va 15 (p.done, s) fun _ s => f s
    | (.ok ps, s) =>
      State.scalarDone k va 15 (s.takeLines (slotWho k x) ps va (Acc.code .write)) fun _ s =>
        f (s.bufferStore k (slotWho k x) ps (toBytes size v))

/-- A write of a thread performed at once. -/
def State.scalarWrite (s : State) (k : Nat) (x : Slot) (need : Need) (va align : Nat) (bs : List Byte)
    (f : State → Except KTrap State) : Except KTrap State :=
  s.scalarCheck x need va bs.length align 6 fun l =>
    let s := s.drainStores k
    State.scalarDone k va 15
      (s.writeRange (slotWho k x) s.nextOp (some (swarmNo (slotCluster k))) .write va bs l) fun _ s => f s

/-- An atomic read-modify-write of a thread at the coherence point (R240). -/
def State.scalarRmw (s : State) (k : Nat) (x : Slot) (need : Need) (va size : Nat) (g : Nat → Option Nat)
    (f : Nat → State → Except KTrap State) : Except KTrap State :=
  s.scalarCheck x need va size size 6 fun l =>
    match s.scalarPieces k x .atomic l va size with
    | (.error p, s) => State.scalarDone k va 15 (p.done, s) f
    | (.ok _, s) =>
      State.scalarDone k va 15
        (s.rmwRange (slotWho k x) s.nextOp (some (swarmNo (slotCluster k))) va size g l) f

/-- An acquire of a thread at cluster scope or wider: the cluster's swarm data cache (R277). -/
def State.slotAcquire (s : State) (k : Nat) : State := s.invalidate (swarmNo (slotCluster k))

/-- An acquire fence of a thread with the LS path as its from-path: what the earlier reads have met is observed (R290). -/
def State.observeReads (s : State) (k : Nat) : State :=
  if (s.slot k).glimpsed = [] then s
  else s.modSlot k fun x => { x with observed := x.observed ++ x.glimpsed, glimpsed := [] }

end Sys2Proof.Machine
end

