-- ==== Sys2Proof/Machine/KeeperCsr.lean ====
section
/-! DEFINITION. The control and status registers of a scalar core: fcsr (R42, R43) and the keeper CSRs (R231, R253, R275,
R311, R312, R323, R324, R373, R375). -/

namespace Sys2Proof.Machine

/-! ## The Waymark partition (R231) -/

/-- The ways of launch context i. -/
def wmQuota (p : W32) (i : Nat) : Nat := bits p.toNat (3 * i + 2) (3 * i)

/-- The launch context that owns a way. -/
def wayOwner (p : W32) (way : Nat) : Option Nat :=
  if way < wmQuota p 0 then some 0
  else if way < wmQuota p 0 + wmQuota p 1 then some 1
  else if way < wmQuota p 0 + wmQuota p 1 + wmQuota p 2 then some 2
  else if way < wmQuota p 0 + wmQuota p 1 + wmQuota p 2 + wmQuota p 3 then some 3
  else none

/-- A write to WMPART: ignored where the quotas pass 4; a way whose owner changes loses its entries. -/
def Cluster.setWmpart (c : Cluster) (v : W32) : Cluster :=
  let v := v &&& 0xFFF
  if 4 < wmQuota v 0 + wmQuota v 1 + wmQuota v 2 + wmQuota v 3 then c
  else { c with wmpart := v, waymark := c.waymark.filter fun e => wayOwner c.wmpart (e.1 % 4) == wayOwner v (e.1 % 4) }

/-! ## Pops -/

/-- kspill0: the oldest spill entry goes into the latch; its target handle, or 0 (R323). -/
def State.popSpill (s : State) (core : Nat) : W64 × State :=
  let c := s.core core
  match c.spillQ with
  | [] => (0, s)
  | m :: r => (m.target, s.setCore core { c with spillQ := r, spillLatch := some m })

/-- Two payload words of a message. -/
def Msg.words (m : Msg) (i : Nat) : W64 := m.payload.getD (i + 1) 0 ++ m.payload.getD i 0

/-- kspill3: class and the low bits of the sender handle. -/
def Msg.class64 (m : Msg) : W64 :=
  (match m.cls with | .data => 0 | _ => (0x4000000000000000 : W64)) ||| (m.sender &&& 0x3FFFFFFFFFFFFFFF)

/-- kpois: the oldest poison record; 0 when there is none (R324). -/
def State.popPoison (s : State) (cl : Nat) : W64 × State :=
  match (s.cluster cl).poisonQ with
  | [] => (0, s)
  | a :: r => (a, s.modCluster cl fun c => { c with poisonQ := r })

/-- The area of a Cloakroom entry (R373). -/
def Cluster.cloakArea (c : Cluster) (e : Nat) : W64 := (c.kckbase &&& 0xFFFFFFFFFFFF0000) + BitVec.ofNat 64 (1024 * e)

/-- kckrdy: the oldest READY entry becomes HELD; its area, or 0 (R373). -/
def State.popCloak (s : State) (cl : Nat) : W64 × State :=
  let c := s.cluster cl
  match c.cloakReady with
  | [] => (0, s)
  | e :: r => (c.cloakArea e, s.setCluster cl { c with cloakReady := r, cloak := Tbl.put c.cloak e .held })

/-- Entry e becomes FREE (R375). -/
def Cluster.freeCloak (c : Cluster) (e : Nat) : Cluster :=
  { c with cloak := Tbl.erase c.cloak e, cloakReady := c.cloakReady.filter fun x => x != e }

/-- A write of ones to kckst. -/
def Cluster.freeCloaks (c : Cluster) (v : W64) : Cluster :=
  (List.range 64).foldl (fun c e => if v.getLsbD e then c.freeCloak e else c) c

def Cluster.cloakUsed (c : Cluster) : W64 := BitVec.ofNat 64 ((c.cloak.map fun e => 2 ^ e.1).sum)

/-! ## Keeper CSRs -/

/-- The slot that ksel names; none for 15 (R311). -/
def State.selected (s : State) (core : Nat) : Option Nat :=
  let i := (s.core core).ksel.toNat
  if i = 15 then none else some (core * 16 + i)

/-- A field of the selected slot; 0 when ksel is 15. -/
def State.ofSelected (s : State) (core : Nat) (f : Slot → W64) : W64 :=
  match s.selected core with
  | some k => f (s.slot k)
  | none => 0

def Slot.causeCode (x : Slot) : W64 := if x.st = .trapped then x.kcause.setWidth 64 else 0xFF

/-- The keeper CSRs that exist (R311, R312, R373). -/
def keeperCsr (n : Nat) : Bool :=
  (decide (0x5C0 ≤ n) && decide (n ≤ 0x5CD)) || (decide (0x5D0 ≤ n) && decide (n ≤ 0x5DA))

/-- Reading a keeper CSR, with what the read does. -/
def State.keeperRead (s : State) (core n : Nat) : W64 × State :=
  let c := s.core core
  let cl := core / 16
  let k := s.cluster cl
  match n with
  | 0x5C0 => (c.kpend, s)
  | 0x5C1 => (c.ksel.setWidth 64, s)
  | 0x5C2 => (s.ofSelected core Slot.causeCode, s)
  | 0x5C3 => (s.ofSelected core fun x => x.pc, s)
  | 0x5C4 => (s.ofSelected core fun x => x.ktval, s)
  | 0x5C5 => s.popSpill core
  | 0x5C6 => ((c.spillLatch.map fun m => m.words 0).getD 0, s)
  | 0x5C7 => ((c.spillLatch.map fun m => m.words 2).getD 0, s)
  | 0x5C8 => ((c.spillLatch.map fun m => m.class64).getD 0, s)
  | 0x5C9 => if core % 16 = 0 then s.popPoison cl else (0, s)
  | 0x5CA => (k.kckbase, s)
  | 0x5CB => s.popCloak cl
  | 0x5CC => (k.cloakUsed, s)
  | 0x5CD => (s.ofSelected core fun x => x.karea, s)
  | 0x5D8 => (s.ofSelected core fun x => x.ksteal, s)
  | 0x5D9 => (k.feretry.setWidth 64, s)
  | 0x5DA => (k.wmpart.setWidth 64, s)
  | _ => (if n ≤ 0x5D3 then Tbl.get c.dqring 0 (n - 0x5D0) else (Tbl.get c.dqcnt 0 (n - 0x5D4)).setWidth 64, s)

/-- A field of the selected slot written. -/
def State.putSelected (s : State) (core : Nat) (f : Slot → Slot) : State :=
  match s.selected core with
  | some k => s.modSlot k f
  | none => s

/-- A spill ring assigned: ignored while entries are in the old one, or with an illegal size (R312). -/
def Core.setRing (c : Core) (d : Nat) (v : W64) : Core :=
  let log := (v &&& 0x1F).toNat
  if Tbl.get c.dqcnt 0 d ≠ 0 ∨ (1 ≤ log ∧ log ≤ 3) ∨ 16 < log then c
  else { c with dqring := Tbl.set c.dqring 0 d (v &&& 0xFFFFFFFFFFFFF01F), dqhead := Tbl.erase c.dqhead d }

/-- BASE is kept while an entry is used (R373). -/
def Cluster.setKckbase (c : Cluster) (v : W64) : Cluster :=
  let base := if c.cloak = [] then v &&& 0xFFFFFFFFFFFF0000 else c.kckbase &&& 0xFFFFFFFFFFFF0000
  { c with kckbase := base ||| (v &&& 0x3F) }

/-- Writing a keeper CSR: v is the new value of RW fields, ones the bits that clear W1C fields (R311). -/
def State.keeperWrite (s : State) (core n : Nat) (v ones : W64) : State :=
  let cl := core / 16
  match n with
  | 0x5C0 => s.modCore core fun c => { c with kpend := c.kpend &&& ~~~ones }
  | 0x5C1 => s.modCore core fun c => { c with ksel := v.setWidth 4 }
  | 0x5C3 => s.putSelected core fun x => if x.st = .trapped then { x with pc := v } else x
  | 0x5CA => s.modCluster cl fun c => c.setKckbase v
  | 0x5CC => s.modCluster cl fun c => c.freeCloaks ones
  | 0x5CD => s.putSelected core fun x => { x with karea := v &&& 0xFFFFFFFFFFFFFC00 }
  | 0x5D0 => s.modCore core fun c => c.setRing 0 v
  | 0x5D1 => s.modCore core fun c => c.setRing 1 v
  | 0x5D2 => s.modCore core fun c => c.setRing 2 v
  | 0x5D3 => s.modCore core fun c => c.setRing 3 v
  | 0x5D8 => s.putSelected core fun x => { x with ksteal := v &&& 0xFFFFFFFFFFFFFFC0 }
  | 0x5D9 => s.modCluster cl fun c => { c with feretry := v.setWidth 32 }
  | 0x5DA => s.modCluster cl fun c => c.setWmpart (v.setWidth 32)
  | _ => s

/-! ## Zicsr (R43, R311) -/

/-- fflags, frm and fcsr as numbers 1 to 3. -/
def Slot.fpCsr (x : Slot) (n : Nat) : W64 :=
  match n with
  | 1 => (x.fcsr &&& 0x1F).setWidth 64
  | 2 => ((x.fcsr >>> 5) &&& 7).setWidth 64
  | _ => (x.fcsr &&& 0xFF).setWidth 64

def Slot.setFpCsr (x : Slot) (n : Nat) (v : W64) : Slot :=
  let w : W32 := v.setWidth 32
  match n with
  | 1 => { x with fcsr := (x.fcsr &&& 0xE0) ||| (w &&& 0x1F) }
  | 2 => { x with fcsr := (x.fcsr &&& 0x1F) ||| ((w &&& 7) <<< 5) }
  | _ => { x with fcsr := w &&& 0xFF }

/-- The value a Zicsr instruction writes. -/
def csrValue (k : RvCsr) (old x : W64) : W64 :=
  match k with
  | .rw => x
  | .rs => old ||| x
  | .rc => old &&& ~~~x

/-- A Zicsr instruction with operand v; plain tells that csrrs and csrrc name no operand, so they write nothing. A
csrrw to x0 reads nothing. -/
def State.zicsr (s : State) (k : Nat) (x : Slot) (op : RvCsr) (rd : BitVec 5) (num : BitVec 12) (v : W64)
    (plain : Bool) : Except KTrap State :=
  let n := num.toNat
  let writes := !(plain && op != .rw)
  if 1 ≤ n ∧ n ≤ 3 then
    let old := x.fpCsr n
    let x := if writes then x.setFpCsr n (csrValue op old v) else x
    .ok (s.retireSlot k (x.setX rd old))
  else if slotIndex k = 15 ∧ keeperCsr n = true then
    let core := slotCore k
    let r := if op = .rw ∧ rd = 0 then (0, s) else s.keeperRead core n
    let s := r.2
    let ones : W64 := if op = .rc then 0 else v
    let s := if writes then s.keeperWrite core n (csrValue op r.1 v) ones else s
    .ok (s.retireSlot k ((s.slot k).setX rd r.1))
  else .error s.illegal

end Sys2Proof.Machine
end

