-- ==== Sys2Proof/Machine/RvInt.lean ====
section
/-! DEFINITION. The results of the RISC-V integer operations (R240): RV64I, M, Zba and Zbb, as the ratified extensions
give them (the manual does not restate them; log 26). -/

namespace Sys2Proof.Machine

/-- A 32-bit result, sign-extended. -/
def sext32 (v : W32) : W64 := v.signExtend 64

def lo32 (v : W64) : W32 := v.setWidth 32

/-- Signed division: -1 by zero, wrapping on overflow. -/
def sdivW {n : Nat} (a b : BitVec n) : BitVec n := if b = 0 then BitVec.allOnes n else BitVec.sdiv a b
def udivW {n : Nat} (a b : BitVec n) : BitVec n := if b = 0 then BitVec.allOnes n else BitVec.udiv a b
def sremW {n : Nat} (a b : BitVec n) : BitVec n := if b = 0 then a else BitVec.srem a b
def uremW {n : Nat} (a b : BitVec n) : BitVec n := if b = 0 then a else BitVec.umod a b

/-- The high half of a product of two 128-bit extensions. -/
def mulHigh (a b : W128) : W64 := ((a * b) >>> 64).setWidth 64

def rotL {n : Nat} (a : BitVec n) (k : Nat) : BitVec n := (a <<< (k % n)) ||| (a >>> (n - k % n))
def rotR {n : Nat} (a : BitVec n) (k : Nat) : BitVec n := (a >>> (k % n)) ||| (a <<< (n - k % n))

def boolW (b : Bool) : W64 := if b then 1 else 0

/-- Two-register operations. -/
def rvAlu (k : RvAlu) (a b : W64) : W64 :=
  let sh := b.toNat % 64
  let sh32 := b.toNat % 32
  let uw (n : Nat) : W64 := (lo32 a).setWidth 64 <<< n
  match k with
  | .add => a + b
  | .sub => a - b
  | .sll => a <<< sh
  | .slt => boolW (a.slt b)
  | .sltu => boolW (a.ult b)
  | .xor => a ^^^ b
  | .srl => a >>> sh
  | .sra => a.sshiftRight sh
  | .or => a ||| b
  | .and => a &&& b
  | .addw => sext32 (lo32 a + lo32 b)
  | .subw => sext32 (lo32 a - lo32 b)
  | .sllw => sext32 (lo32 a <<< sh32)
  | .srlw => sext32 (lo32 a >>> sh32)
  | .sraw => sext32 ((lo32 a).sshiftRight sh32)
  | .mul => a * b
  | .mulh => mulHigh (a.signExtend 128) (b.signExtend 128)
  | .mulhsu => mulHigh (a.signExtend 128) (b.setWidth 128)
  | .mulhu => mulHigh (a.setWidth 128) (b.setWidth 128)
  | .div => sdivW a b
  | .divu => udivW a b
  | .rem => sremW a b
  | .remu => uremW a b
  | .mulw => sext32 (lo32 a * lo32 b)
  | .divw => sext32 (sdivW (lo32 a) (lo32 b))
  | .divuw => sext32 (udivW (lo32 a) (lo32 b))
  | .remw => sext32 (sremW (lo32 a) (lo32 b))
  | .remuw => sext32 (uremW (lo32 a) (lo32 b))
  | .addUw => b + uw 0
  | .sh1add => b + (a <<< 1)
  | .sh2add => b + (a <<< 2)
  | .sh3add => b + (a <<< 3)
  | .sh1addUw => b + uw 1
  | .sh2addUw => b + uw 2
  | .sh3addUw => b + uw 3
  | .andn => a &&& ~~~b
  | .orn => a ||| ~~~b
  | .xnor => ~~~(a ^^^ b)
  | .max => if a.slt b then b else a
  | .maxu => if a.ult b then b else a
  | .min => if b.slt a then b else a
  | .minu => if b.ult a then b else a
  | .rol => rotL a sh
  | .ror => rotR a sh
  | .rolw => sext32 (rotL (lo32 a) sh32)
  | .rorw => sext32 (rotR (lo32 a) sh32)

/-- Leading zeros of the low w bits. -/
def leadZeros (w v : Nat) : Nat := if v = 0 then w else w - 1 - Nat.log2 v

/-- Trailing zeros of the low w bits. -/
def trailZeros (w v : Nat) : Nat := ((List.range w).find? fun i => v.testBit i).getD w

def popCount (w v : Nat) : Nat := ((List.range w).filter fun i => v.testBit i).length

/-- Each byte of a word mapped by its index and value. -/
def mapBytes (a : W64) (f : Nat → Nat → Nat) : W64 :=
  BitVec.ofNat 64 (((List.range 8).map fun i => f i (a.toNat / 2 ^ (8 * i) % 256)).sum)

/-- One-register operations. -/
def rvUnary (k : RvUnary) (a : W64) : W64 :=
  match k with
  | .clz => BitVec.ofNat 64 (leadZeros 64 a.toNat)
  | .ctz => BitVec.ofNat 64 (trailZeros 64 a.toNat)
  | .cpop => BitVec.ofNat 64 (popCount 64 a.toNat)
  | .clzw => BitVec.ofNat 64 (leadZeros 32 (lo32 a).toNat)
  | .ctzw => BitVec.ofNat 64 (trailZeros 32 (lo32 a).toNat)
  | .cpopw => BitVec.ofNat 64 (popCount 32 (lo32 a).toNat)
  | .sextB => (a.setWidth 8).signExtend 64
  | .sextH => (a.setWidth 16).signExtend 64
  | .zextH => (a.setWidth 16).setWidth 64
  | .orcB => mapBytes a fun i b => if b = 0 then 0 else 255 * 2 ^ (8 * i)
  | .rev8 => mapBytes a fun i b => b * 2 ^ (8 * (7 - i))

/-- Operations with an immediate. -/
def rvImm (k : RvImm) (a : W64) (imm : BitVec 12) : W64 :=
  let i : W64 := imm.signExtend 64
  match k with
  | .addi => a + i
  | .slti => boolW (a.slt i)
  | .sltiu => boolW (a.ult i)
  | .xori => a ^^^ i
  | .ori => a ||| i
  | .andi => a &&& i
  | .addiw => sext32 (lo32 a + lo32 i)

/-- Shifts by an immediate. -/
def rvShift (k : RvShift) (a : W64) (sh : BitVec 6) : W64 :=
  let n := sh.toNat
  match k with
  | .slli => a <<< n
  | .srli => a >>> n
  | .srai => a.sshiftRight n
  | .rori => rotR a n
  | .slliw => sext32 (lo32 a <<< (n % 32))
  | .srliw => sext32 (lo32 a >>> (n % 32))
  | .sraiw => sext32 ((lo32 a).sshiftRight (n % 32))
  | .roriw => sext32 (rotR (lo32 a) n)
  | .slliUw => (lo32 a).setWidth 64 <<< n

def rvBranch (k : RvBranch) (a b : W64) : Bool :=
  match k with
  | .beq => a == b
  | .bne => a != b
  | .blt => a.slt b
  | .bge => !a.slt b
  | .bltu => a.ult b
  | .bgeu => !a.ult b

/-- Size of a load, and whether it is sign-extended. -/
def rvLoad (k : RvLoad) : Nat × Bool :=
  match k with
  | .lb => (1, true)
  | .lh => (2, true)
  | .lw => (4, true)
  | .ld => (8, false)
  | .lbu => (1, false)
  | .lhu => (2, false)
  | .lwu => (4, false)

def rvStore (k : RvStore) : Nat :=
  match k with
  | .sb => 1
  | .sh => 2
  | .sw => 4
  | .sd => 8

/-- A loaded value of n bytes as a register holds it. -/
def extended (n : Nat) (signed : Bool) (v : Nat) : W64 :=
  if signed then BitVec.ofInt 64 (toSigned (8 * n) v) else BitVec.ofNat 64 v

/-- The new value of an AMO on w bits. -/
def amoNew (k : AmoOp) (w o x : Nat) : Nat :=
  match k with
  | .swap => x
  | .add => (o + x) % 2 ^ w
  | .xor => o ^^^ x
  | .and => o &&& x
  | .or => o ||| x
  | .min => if toSigned w x < toSigned w o then x else o
  | .max => if toSigned w o < toSigned w x then x else o
  | .minu => if x < o then x else o
  | .maxu => if o < x then x else o

end Sys2Proof.Machine
end

