-- ==== Sys2Proof/Machine/TeamInt.lean ====
section
/-! DEFINITION. Team integer, bitwise, predicate and hash instructions (R126 to R130, R137, R143 to R146, R152, R153). -/

namespace Sys2Proof.Machine

/-! ## Element operations (R126, R128, R129) -/

def clamp (lo hi x : Int) : Int := if x < lo then lo else if hi < x then hi else x

/-- Clamp to the signed range of width w, as an unsigned number. -/
def clampS (w : Nat) (x : Int) : Nat := wrap w (clamp (-(2 ^ (w - 1))) (2 ^ (w - 1) - 1) x)

/-- Clamp to the unsigned range. -/
def clampZ (w : Nat) (x : Int) : Nat := wrap w (clamp 0 (2 ^ w - 1) x)

def elAdd (w a b : Nat) : Nat := (a + b) % 2 ^ w
def elSub (w a b : Nat) : Nat := (a + (2 ^ w - b)) % 2 ^ w
def elMul (w a b : Nat) : Nat := a * b % 2 ^ w
def elMulhS (w a b : Nat) : Nat := wrap w (toSigned w a * toSigned w b / 2 ^ w)
def elMulhZ (w a b : Nat) : Nat := a * b / 2 ^ w
def elMinS (w a b : Nat) : Nat := if toSigned w a ≤ toSigned w b then a else b
def elMinZ (_w a b : Nat) : Nat := if a ≤ b then a else b
def elMaxS (w a b : Nat) : Nat := if toSigned w a ≤ toSigned w b then b else a
def elMaxZ (_w a b : Nat) : Nat := if a ≤ b then b else a
def elAddsS (w a b : Nat) : Nat := clampS w (toSigned w a + toSigned w b)
def elAddsZ (w a b : Nat) : Nat := clampZ w (Int.ofNat a + Int.ofNat b)
def elSubsS (w a b : Nat) : Nat := clampS w (toSigned w a - toSigned w b)
def elSubsZ (w a b : Nat) : Nat := clampZ w (Int.ofNat a - Int.ofNat b)
def elAbs (w a : Nat) : Nat := wrap w (Int.ofNat (toSigned w a).natAbs)
def elNeg (w a : Nat) : Nat := (2 ^ w - a) % 2 ^ w

def elAnd (_w a b : Nat) : Nat := a &&& b
def elOr (_w a b : Nat) : Nat := a ||| b
def elXor (_w a b : Nat) : Nat := a ^^^ b
def elAndn (w a b : Nat) : Nat := a &&& (2 ^ w - 1 - b)

/-- The count of a shift: the low log2(w) bits of b. -/
def elShl (w a b : Nat) : Nat := a * 2 ^ (b % w) % 2 ^ w
def elShrZ (w a b : Nat) : Nat := a / 2 ^ (b % w)
def elShrS (w a b : Nat) : Nat := wrap w (toSigned w a / 2 ^ (b % w))
def elRotl (w a b : Nat) : Nat := (a * 2 ^ (b % w) + a / 2 ^ (w - b % w)) % 2 ^ w

def elPopc (w a : Nat) : Nat := ((List.range w).filter fun i => a.testBit i).length
def elClz (w a : Nat) : Nat := if a = 0 then w else w - 1 - Nat.log2 a
def elBrev (w a : Nat) : Nat := ((List.range w).map fun i => if a.testBit i then 2 ^ (w - 1 - i) else 0).sum
def elMov (_w a : Nat) : Nat := a

/-- A comparison by the condition code of R92. -/
def icmpCond (w c a b : Nat) : Bool :=
  match c with
  | 0 => decide (a = b)
  | 1 => decide (a ≠ b)
  | 2 => decide (toSigned w a < toSigned w b)
  | 3 => decide (toSigned w a ≤ toSigned w b)
  | 4 => decide (toSigned w b < toSigned w a)
  | 5 => decide (toSigned w b ≤ toSigned w a)
  | 6 => decide (a < b)
  | 7 => decide (a ≤ b)
  | 8 => decide (b < a)
  | _ => decide (b ≤ a)

/-! ## Shapes -/

/-- Elements of two operands of type t. -/
def packed2 (t : BitVec 2) (op : Nat → Nat → Nat → Nat) (x y : Nat) : Nat :=
  packElems (tWidth t) (fun i => op (tWidth t) (elem (tWidth t) i x) (elem (tWidth t) i y)) (tElems t)

def packed1 (t : BitVec 2) (op : Nat → Nat → Nat) (x : Nat) : Nat :=
  packElems (tWidth t) (fun i => op (tWidth t) (elem (tWidth t) i x)) (tElems t)

/-- The new team of an integer operation d := a op b of type t. -/
def Team.int2 (tm : Team) (u : Bool) (d a b : BitVec 7) (t : BitVec 2) (op : Nat → Nat → Nat → Nat) : Team :=
  tm.alu u always d.toNat (tCount t) fun l =>
    (packed2 t op (tm.rd u l a.toNat (tCount t)) (tm.rd u l b.toNat (tCount t)), 0)

/-- The new team of d := op a. -/
def Team.int1 (tm : Team) (u : Bool) (d a : BitVec 7) (t : BitVec 2) (op : Nat → Nat → Nat) : Team :=
  tm.alu u always d.toNat (tCount t) fun l => (packed1 t op (tm.rd u l a.toNat (tCount t)), 0)

/-- The new team of d := a op i of 32 bits. -/
def Team.imm1 (tm : Team) (u : Bool) (d a : BitVec 7) (op : Nat → Nat) : Team :=
  tm.alu u always d.toNat 1 fun l => (op (tm.rd u l a.toNat 1), 0)

/-- A 10-bit immediate, sign-extended to 32 bits (R130). -/
def sext10 (i : BitVec 10) : Nat := (i.signExtend 32).toNat

/-! ## R126 -/

def execIadd (u : Bool) (d a b : BitVec 7) (t : BitVec 2) (s : State) : Host.Outcome State Fault Refusal :=
  aluInstr (.iadd u d a b t) s fun tm => tm.int2 u d a b t elAdd

def execIsub (u : Bool) (d a b : BitVec 7) (t : BitVec 2) (s : State) : Host.Outcome State Fault Refusal :=
  aluInstr (.isub u d a b t) s fun tm => tm.int2 u d a b t elSub

def execImul (u : Bool) (d a b : BitVec 7) (t : BitVec 2) (s : State) : Host.Outcome State Fault Refusal :=
  aluInstr (.imul u d a b t) s fun tm => tm.int2 u d a b t elMul

def execImulhS (u : Bool) (d a b : BitVec 7) (t : BitVec 2) (s : State) : Host.Outcome State Fault Refusal :=
  aluInstr (.imulhS u d a b t) s fun tm => tm.int2 u d a b t elMulhS

def execImulhZ (u : Bool) (d a b : BitVec 7) (t : BitVec 2) (s : State) : Host.Outcome State Fault Refusal :=
  aluInstr (.imulhZ u d a b t) s fun tm => tm.int2 u d a b t elMulhZ

def execIminS (u : Bool) (d a b : BitVec 7) (t : BitVec 2) (s : State) : Host.Outcome State Fault Refusal :=
  aluInstr (.iminS u d a b t) s fun tm => tm.int2 u d a b t elMinS

def execIminZ (u : Bool) (d a b : BitVec 7) (t : BitVec 2) (s : State) : Host.Outcome State Fault Refusal :=
  aluInstr (.iminZ u d a b t) s fun tm => tm.int2 u d a b t elMinZ

def execImaxS (u : Bool) (d a b : BitVec 7) (t : BitVec 2) (s : State) : Host.Outcome State Fault Refusal :=
  aluInstr (.imaxS u d a b t) s fun tm => tm.int2 u d a b t elMaxS

def execImaxZ (u : Bool) (d a b : BitVec 7) (t : BitVec 2) (s : State) : Host.Outcome State Fault Refusal :=
  aluInstr (.imaxZ u d a b t) s fun tm => tm.int2 u d a b t elMaxZ

def execIaddsS (u : Bool) (d a b : BitVec 7) (t : BitVec 2) (s : State) : Host.Outcome State Fault Refusal :=
  aluInstr (.iaddsS u d a b t) s fun tm => tm.int2 u d a b t elAddsS

def execIaddsZ (u : Bool) (d a b : BitVec 7) (t : BitVec 2) (s : State) : Host.Outcome State Fault Refusal :=
  aluInstr (.iaddsZ u d a b t) s fun tm => tm.int2 u d a b t elAddsZ

def execIsubsS (u : Bool) (d a b : BitVec 7) (t : BitVec 2) (s : State) : Host.Outcome State Fault Refusal :=
  aluInstr (.isubsS u d a b t) s fun tm => tm.int2 u d a b t elSubsS

def execIsubsZ (u : Bool) (d a b : BitVec 7) (t : BitVec 2) (s : State) : Host.Outcome State Fault Refusal :=
  aluInstr (.isubsZ u d a b t) s fun tm => tm.int2 u d a b t elSubsZ

def execIabs (u : Bool) (d a : BitVec 7) (t : BitVec 2) (s : State) : Host.Outcome State Fault Refusal :=
  aluInstr (.iabs u d a t) s fun tm => tm.int1 u d a t elAbs

def execIneg (u : Bool) (d a : BitVec 7) (t : BitVec 2) (s : State) : Host.Outcome State Fault Refusal :=
  aluInstr (.ineg u d a t) s fun tm => tm.int1 u d a t elNeg

/-! ## R127 -/

def execIcmp (u : Bool) (c : BitVec 4) (p : BitVec 3) (a b : BitVec 7) (t : BitVec 2) (s : State) :
    Host.Outcome State Fault Refusal :=
  aluInstr (.icmp u c p a b t) s fun tm => tm.aluPred u p.toNat fun l =>
    (icmpCond (tWidth t) c.toNat (tm.rd u l a.toNat (tCount t)) (tm.rd u l b.toNat (tCount t)), 0)

def execIcmpi (u : Bool) (c : BitVec 4) (p : BitVec 3) (a : BitVec 7) (i : BitVec 10) (s : State) :
    Host.Outcome State Fault Refusal :=
  aluInstr (.icmpi u c p a i) s fun tm => tm.aluPred u p.toNat fun l =>
    (icmpCond 32 c.toNat (tm.rd u l a.toNat 1) (sext10 i), 0)

/-! ## R128, R129 -/

def execAnd (u : Bool) (d a b : BitVec 7) (t : BitVec 2) (s : State) : Host.Outcome State Fault Refusal :=
  aluInstr (.and u d a b t) s fun tm => tm.int2 u d a b t elAnd

def execOr (u : Bool) (d a b : BitVec 7) (t : BitVec 2) (s : State) : Host.Outcome State Fault Refusal :=
  aluInstr (.or u d a b t) s fun tm => tm.int2 u d a b t elOr

def execXor (u : Bool) (d a b : BitVec 7) (t : BitVec 2) (s : State) : Host.Outcome State Fault Refusal :=
  aluInstr (.xor u d a b t) s fun tm => tm.int2 u d a b t elXor

def execAndn (u : Bool) (d a b : BitVec 7) (t : BitVec 2) (s : State) : Host.Outcome State Fault Refusal :=
  aluInstr (.andn u d a b t) s fun tm => tm.int2 u d a b t elAndn

def execShl (u : Bool) (d a b : BitVec 7) (t : BitVec 2) (s : State) : Host.Outcome State Fault Refusal :=
  aluInstr (.shl u d a b t) s fun tm => tm.int2 u d a b t elShl

def execShrZ (u : Bool) (d a b : BitVec 7) (t : BitVec 2) (s : State) : Host.Outcome State Fault Refusal :=
  aluInstr (.shrZ u d a b t) s fun tm => tm.int2 u d a b t elShrZ

def execShrS (u : Bool) (d a b : BitVec 7) (t : BitVec 2) (s : State) : Host.Outcome State Fault Refusal :=
  aluInstr (.shrS u d a b t) s fun tm => tm.int2 u d a b t elShrS

def execRotl (u : Bool) (d a b : BitVec 7) (t : BitVec 2) (s : State) : Host.Outcome State Fault Refusal :=
  aluInstr (.rotl u d a b t) s fun tm => tm.int2 u d a b t elRotl

def execPopc (u : Bool) (d a : BitVec 7) (t : BitVec 2) (s : State) : Host.Outcome State Fault Refusal :=
  aluInstr (.popc u d a t) s fun tm => tm.int1 u d a t elPopc

def execClz (u : Bool) (d a : BitVec 7) (t : BitVec 2) (s : State) : Host.Outcome State Fault Refusal :=
  aluInstr (.clz u d a t) s fun tm => tm.int1 u d a t elClz

def execBrev (u : Bool) (d a : BitVec 7) (t : BitVec 2) (s : State) : Host.Outcome State Fault Refusal :=
  aluInstr (.brev u d a t) s fun tm => tm.int1 u d a t elBrev

def execMov (u : Bool) (d a : BitVec 7) (t : BitVec 2) (s : State) : Host.Outcome State Fault Refusal :=
  aluInstr (.mov u d a t) s fun tm => tm.int1 u d a t elMov

/-! ## R130 -/

def execIaddi (u : Bool) (d a : BitVec 7) (i : BitVec 10) (s : State) : Host.Outcome State Fault Refusal :=
  aluInstr (.iaddi u d a i) s fun tm => tm.imm1 u d a fun x => elAdd 32 x (sext10 i)

def execAndi (u : Bool) (d a : BitVec 7) (i : BitVec 10) (s : State) : Host.Outcome State Fault Refusal :=
  aluInstr (.andi u d a i) s fun tm => tm.imm1 u d a fun x => elAnd 32 x (sext10 i)

def execOri (u : Bool) (d a : BitVec 7) (i : BitVec 10) (s : State) : Host.Outcome State Fault Refusal :=
  aluInstr (.ori u d a i) s fun tm => tm.imm1 u d a fun x => elOr 32 x (sext10 i)

def execXori (u : Bool) (d a : BitVec 7) (i : BitVec 10) (s : State) : Host.Outcome State Fault Refusal :=
  aluInstr (.xori u d a i) s fun tm => tm.imm1 u d a fun x => elXor 32 x (sext10 i)

def execShli (u : Bool) (d a : BitVec 7) (c : BitVec 5) (s : State) : Host.Outcome State Fault Refusal :=
  aluInstr (.shli u d a c) s fun tm => tm.imm1 u d a fun x => elShl 32 x c.toNat

def execShriZ (u : Bool) (d a : BitVec 7) (c : BitVec 5) (s : State) : Host.Outcome State Fault Refusal :=
  aluInstr (.shriZ u d a c) s fun tm => tm.imm1 u d a fun x => elShrZ 32 x c.toNat

def execShriS (u : Bool) (d a : BitVec 7) (c : BitVec 5) (s : State) : Host.Outcome State Fault Refusal :=
  aluInstr (.shriS u d a c) s fun tm => tm.imm1 u d a fun x => elShrS 32 x c.toNat

def execRotli (u : Bool) (d a : BitVec 7) (c : BitVec 5) (s : State) : Host.Outcome State Fault Refusal :=
  aluInstr (.rotli u d a c) s fun tm => tm.imm1 u d a fun x => elRotl 32 x c.toNat

def execImuli (u : Bool) (d a : BitVec 7) (i : BitVec 10) (s : State) : Host.Outcome State Fault Refusal :=
  aluInstr (.imuli u d a i) s fun tm => tm.imm1 u d a fun x => elMul 32 x (sext10 i)

def execMovi (u : Bool) (d : BitVec 7) (i : BitVec 10) (s : State) : Host.Outcome State Fault Refusal :=
  aluInstr (.movi u d i) s fun tm => tm.imm1 u d 0 fun _ => sext10 i

/-! ## The accumulating integer forms of R137 -/

/-- a x b + d per element of type t. -/
def Team.mac (tm : Team) (u : Bool) (d a b c : BitVec 7) (t : BitVec 2) (g : Guard) : Team :=
  tm.alu u g d.toNat (tCount t) fun l =>
    let k := tCount t
    let w := tWidth t
    (packElems w (fun i => elAdd w (elMul w (elem w i (tm.rd u l a.toNat k)) (elem w i (tm.rd u l b.toNat k)))
      (elem w i (tm.rd u l c.toNat k))) (tElems t), 0)

def execImac (u : Bool) (d a b : BitVec 7) (t : BitVec 2) (s : State) : Host.Outcome State Fault Refusal :=
  aluInstr (.imac u d a b t) s fun tm => tm.mac u d a b d t always

def execImad (u : Bool) (t : BitVec 2) (d a b c : BitVec 7) (gd : Guard) (s : State) :
    Host.Outcome State Fault Refusal :=
  aluInstr (.imad u t d a b c gd) s fun tm => tm.mac u d a b c t gd

/-- The signed 8-bit dot product added to d, modulo 2^32. -/
def dot4 (x y z : Nat) : Nat :=
  wrap 32 (((List.range 4).map fun i => toSigned 8 (elem 8 i x) * toSigned 8 (elem 8 i y)).sum + Int.ofNat z)

def execIdot4 (u : Bool) (d a b : BitVec 7) (s : State) : Host.Outcome State Fault Refusal :=
  aluInstr (.idot4 u d a b) s fun tm => tm.alu u always d.toNat 1 fun l =>
    (dot4 (tm.rd u l a.toNat 1) (tm.rd u l b.toNat 1) (tm.rd u l d.toNat 1), 0)

/-! ## Predicates (R143, R144) and the hash (R86, R145) -/

/-- Bit 2a + b of a truth table. -/
def plogBit (f : BitVec 4) (a b : Bool) : Bool := bit f (2 * a.toNat + b.toNat)

def execPlog (u : Bool) (f : BitVec 4) (d a b : BitVec 3) (s : State) : Host.Outcome State Fault Refusal :=
  aluInstr (.plog u f d a b) s fun tm => tm.aluPred u d.toNat fun l =>
    (plogBit f (tm.prd u l a.toNat) (tm.prd u l b.toNat), 0)

/-- The eight predicates of a lane or of the team as a number; bit 7 is always 1. -/
def Team.predByte (t : Team) (u : Bool) (l : Nat) : Nat :=
  ((List.range 8).map fun i => if t.prd u l i then 2 ^ i else 0).sum

def execPmovToReg (u : Bool) (d : BitVec 7) (s : State) : Host.Outcome State Fault Refusal :=
  aluInstr (.pmovToReg u d) s fun tm => tm.alu u always d.toNat 1 fun l => (tm.predByte u l, 0)

/-- Predicates 0 to 6 from the bits of a register; n counts down. -/
def Team.predsFrom (t : Team) (u : Bool) (f : Nat → Nat) : Nat → Team
  | 0 => t
  | n + 1 => (t.aluPred u n fun l => ((f l).testBit n, 0)).predsFrom u f n

def execPmovFromReg (u : Bool) (a : BitVec 7) (s : State) : Host.Outcome State Fault Refusal :=
  aluInstr (.pmovFromReg u a) s fun tm => tm.predsFrom u (fun l => tm.rd u l a.toNat 1) 7

/-- Hrnd (R86). -/
def hrndWord (key counter : Nat) : Nat :=
  let m (x : Nat) : Nat := x % 2 ^ 32
  let x := key ^^^ elRotl 32 (m (counter * 0x9E3779B1)) 13
  let x := m (x * 0x85EBCA6B)
  let x := x ^^^ x / 2 ^ 16
  let x := m (x * 0xC2B2AE35)
  let x := x ^^^ x / 2 ^ 13
  let x := m (x + counter)
  x ^^^ x / 2 ^ 16

def execHrnd (u : Bool) (d a b : BitVec 7) (s : State) : Host.Outcome State Fault Refusal :=
  aluInstr (.hrnd u d a b) s fun tm => tm.alu u always d.toNat 1 fun l =>
    (hrndWord (tm.rd u l a.toNat 1) (tm.rd u l b.toNat 1), 0)

/-! ## EXT: selection, bit fields, bytes, immediates, addresses (R149 to R153) -/

/-- The unguarded forms act on every active lane. -/
def execSel (u : Bool) (t : BitVec 2) (d a b : BitVec 7) (gd : Guard) (s : State) :
    Host.Outcome State Fault Refusal :=
  aluInstr (.sel u t d a b gd) s fun tm => tm.alu u always d.toNat (tCount t) fun l =>
    (if tm.guardOk u l gd then tm.rd u l a.toNat (tCount t) else tm.rd u l b.toNat (tCount t), 0)

/-- The field of len bits at pos. -/
def fieldOf (v pos len : Nat) : Nat := v / 2 ^ pos % 2 ^ len

def execBfeS (u : Bool) (t : BitVec 2) (d a : BitVec 7) (gd : Guard) (len : BitVec 7) (pos : BitVec 6) (s : State) :
    Host.Outcome State Fault Refusal :=
  aluInstr (.bfeS u t d a gd len pos) s fun tm => tm.alu u gd d.toNat (tCount t) fun l =>
    (wrap (tWidth t) (toSigned len.toNat (fieldOf (tm.rd u l a.toNat (tCount t)) pos.toNat len.toNat)), 0)

def execBfeZ (u : Bool) (t : BitVec 2) (d a : BitVec 7) (gd : Guard) (len : BitVec 7) (pos : BitVec 6) (s : State) :
    Host.Outcome State Fault Refusal :=
  aluInstr (.bfeZ u t d a gd len pos) s fun tm => tm.alu u gd d.toNat (tCount t) fun l =>
    (fieldOf (tm.rd u l a.toNat (tCount t)) pos.toNat len.toNat, 0)

/-- a with the field of len bits at pos replaced by the low bits of b. -/
def insertField (a b pos len : Nat) : Nat :=
  a / 2 ^ (pos + len) * 2 ^ (pos + len) + b % 2 ^ len * 2 ^ pos + a % 2 ^ pos

def execBfi (u : Bool) (t : BitVec 2) (d a b : BitVec 7) (gd : Guard) (len : BitVec 7) (pos : BitVec 6) (s : State) :
    Host.Outcome State Fault Refusal :=
  aluInstr (.bfi u t d a b gd len pos) s fun tm => tm.alu u gd d.toNat (tCount t) fun l =>
    (insertField (tm.rd u l a.toNat (tCount t)) (tm.rd u l b.toNat (tCount t)) pos.toNat len.toNat, 0)

/-- Byte k of the result of bmix (R151). -/
def bmixByte (zb : Bool) (sel : BitVec 12) (a b k : Nat) : Nat :=
  let j := sel.toNat / 8 ^ k % 8
  if j < 4 then elem 8 j a else if zb then 0 else elem 8 (j - 4) b

def execBmix (u : Bool) (d a b : BitVec 7) (gd : Guard) (zb : Bool) (sel : BitVec 12) (s : State) :
    Host.Outcome State Fault Refusal :=
  aluInstr (.bmix u d a b gd zb sel) s fun tm => tm.alu u gd d.toNat 1 fun l =>
    (packElems 8 (bmixByte zb sel (tm.rd u l a.toNat 1) (tm.rd u l b.toNat 1)) 4, 0)

def execMovi32 (u : Bool) (d : BitVec 7) (imm : W32) (s : State) : Host.Outcome State Fault Refusal :=
  aluInstr (.movi32 u d imm) s fun tm => tm.imm1 u d 0 fun _ => imm.toNat

def execIaddi32 (u : Bool) (d a : BitVec 7) (imm : W32) (s : State) : Host.Outcome State Fault Refusal :=
  aluInstr (.iaddi32 u d a imm) s fun tm => tm.imm1 u d a fun x => elAdd 32 x imm.toNat

/-- A 32-bit value extended to 64 bits, signed or not. -/
def ext64 (sx : Bool) (x : Nat) : Nat := if sx then wrap 64 (toSigned 32 x) else x

def execLea (u : Bool) (d a b : BitVec 7) (gd : Guard) (sx : Bool) (sh : BitVec 3) (s : State) :
    Host.Outcome State Fault Refusal :=
  aluInstr (.lea u d a b gd sx sh) s fun tm => tm.alu u gd d.toNat 2 fun l =>
    (elAdd 64 (tm.rd u l a.toNat 2) (ext64 sx (tm.rd u l b.toNat 1) * 2 ^ sh.toNat), 0)

def execMadW (u : Bool) (d a b c : BitVec 7) (gd : Guard) (sx : Bool) (s : State) :
    Host.Outcome State Fault Refusal :=
  aluInstr (.madW u d a b c gd sx) s fun tm => tm.alu u gd d.toNat 2 fun l =>
    (elAdd 64 (ext64 sx (tm.rd u l a.toNat 1) * ext64 sx (tm.rd u l b.toNat 1)) (tm.rd u l c.toNat 2), 0)

end Sys2Proof.Machine
end

