-- ==== Sys2Proof/Machine/TeamFp.lean ====
section
/-! DEFINITION. Team floating-point instructions (R131 to R137, R148, R154). -/

namespace Sys2Proof.Machine

/-- The new team of an FP operation on the elements of one operand of type t. -/
def Team.fp1 (tm : Team) (u : Bool) (d a : BitVec 7) (t : BitVec 2) (op : Fmt → Nat → Nat × W32) : Team :=
  tm.alu u always d.toNat (tCount t) fun l =>
    packFlags (tFpWidth t) (fun i => op (fpFmt t) (elem (tFpWidth t) i (tm.rd u l a.toNat (tCount t)))) (tFpElems t)

/-- Of two operands. -/
def Team.fp2 (tm : Team) (u : Bool) (d a b : BitVec 7) (t : BitVec 2) (op : Fmt → Nat → Nat → Nat × W32) : Team :=
  let w := tFpWidth t
  let k := tCount t
  tm.alu u always d.toNat k fun l =>
    packFlags w (fun i => op (fpFmt t) (elem w i (tm.rd u l a.toNat k)) (elem w i (tm.rd u l b.toNat k))) (tFpElems t)

/-- Of three operands, under a guard. -/
def Team.fp3 (tm : Team) (u : Bool) (d a b c : BitVec 7) (t : BitVec 2) (g : Guard)
    (op : Fmt → Nat → Nat → Nat → Nat × W32) : Team :=
  let w := tFpWidth t
  let k := tCount t
  tm.alu u g d.toNat k fun l =>
    packFlags w (fun i => op (fpFmt t) (elem w i (tm.rd u l a.toNat k)) (elem w i (tm.rd u l b.toNat k))
      (elem w i (tm.rd u l c.toNat k))) (tFpElems t)

/-! ## R131, R132, R133 -/

def execFadd (u : Bool) (d a b : BitVec 7) (t : BitVec 2) (s : State) : Host.Outcome State Fault Refusal :=
  aluInstr (.fadd u d a b t) s fun tm => tm.fp2 u d a b t addCode

def execFsub (u : Bool) (d a b : BitVec 7) (t : BitVec 2) (s : State) : Host.Outcome State Fault Refusal :=
  aluInstr (.fsub u d a b t) s fun tm => tm.fp2 u d a b t subCode

def execFmul (u : Bool) (d a b : BitVec 7) (t : BitVec 2) (s : State) : Host.Outcome State Fault Refusal :=
  aluInstr (.fmul u d a b t) s fun tm => tm.fp2 u d a b t mulCode

def minCode (f : Fmt) (x y : Nat) : Nat × W32 := minMaxCode f false x y
def maxCode (f : Fmt) (x y : Nat) : Nat × W32 := minMaxCode f true x y

def execFmin (u : Bool) (d a b : BitVec 7) (t : BitVec 2) (s : State) : Host.Outcome State Fault Refusal :=
  aluInstr (.fmin u d a b t) s fun tm => tm.fp2 u d a b t minCode

def execFmax (u : Bool) (d a b : BitVec 7) (t : BitVec 2) (s : State) : Host.Outcome State Fault Refusal :=
  aluInstr (.fmax u d a b t) s fun tm => tm.fp2 u d a b t maxCode

/-- fabs and fneg: a NaN gives the canonical NaN, an sNaN sets NV (R131, R61). -/
def signCode (neg : Bool) (f : Fmt) (x : Nat) : Nat × W32 :=
  let top := 2 ^ (f.ew + f.mw)
  match f.decode x with
  | .nan sig => (f.nanCode, if sig then fNV else 0)
  | _ => (if neg then (if x.testBit (f.ew + f.mw) then x - top else x + top) else x % top, 0)

def execFabs (u : Bool) (d a : BitVec 7) (t : BitVec 2) (s : State) : Host.Outcome State Fault Refusal :=
  aluInstr (.fabs u d a t) s fun tm => tm.fp1 u d a t (signCode false)

def execFneg (u : Bool) (d a : BitVec 7) (t : BitVec 2) (s : State) : Host.Outcome State Fault Refusal :=
  aluInstr (.fneg u d a t) s fun tm => tm.fp1 u d a t (signCode true)

def execFcmp (u : Bool) (c : BitVec 4) (p : BitVec 3) (a b : BitVec 7) (t : BitVec 2) (s : State) :
    Host.Outcome State Fault Refusal :=
  aluInstr (.fcmp u c p a b t) s fun tm => tm.aluPred u p.toNat fun l =>
    fcmpCode (fpFmt t) c.toNat (tm.rd u l a.toNat (tCount t)) (tm.rd u l b.toNat (tCount t))

/-! ## R134 -/

def execFrcp (u : Bool) (d a : BitVec 7) (t : BitVec 2) (s : State) : Host.Outcome State Fault Refusal :=
  aluInstr (.frcp u d a t) s fun tm => tm.fp1 u d a t frcpCode

def execFrsq (u : Bool) (d a : BitVec 7) (t : BitVec 2) (s : State) : Host.Outcome State Fault Refusal :=
  aluInstr (.frsq u d a t) s fun tm => tm.fp1 u d a t frsqCode

def execFsqrt (u : Bool) (d a : BitVec 7) (t : BitVec 2) (s : State) : Host.Outcome State Fault Refusal :=
  aluInstr (.fsqrt u d a t) s fun tm => tm.fp1 u d a t fsqrtCode

def execFexp2 (u : Bool) (d a : BitVec 7) (t : BitVec 2) (s : State) : Host.Outcome State Fault Refusal :=
  aluInstr (.fexp2 u d a t) s fun tm => tm.fp1 u d a t fexp2Code

def execFlog2 (u : Bool) (d a : BitVec 7) (t : BitVec 2) (s : State) : Host.Outcome State Fault Refusal :=
  aluInstr (.flog2 u d a t) s fun tm => tm.fp1 u d a t flog2Code

def execFsin (u : Bool) (d a : BitVec 7) (t : BitVec 2) (s : State) : Host.Outcome State Fault Refusal :=
  aluInstr (.fsin u d a t) s fun tm => tm.fp1 u d a t (ftrigCode 5)

def execFcos (u : Bool) (d a : BitVec 7) (t : BitVec 2) (s : State) : Host.Outcome State Fault Refusal :=
  aluInstr (.fcos u d a t) s fun tm => tm.fp1 u d a t (ftrigCode 6)

/-! ## R135, R136 -/

def execFrnd (u : Bool) (d a : BitVec 7) (m : BitVec 3) (t : BitVec 2) (s : State) :
    Host.Outcome State Fault Refusal :=
  aluInstr (.frnd u d a m t) s fun tm => tm.fp1 u d a t fun f x => rndCode f m.toNat x

/-- An integer result as 32 bits. -/
def intWord (r : Int × W32) : Nat × W32 := (wrap 32 r.1, r.2)

/-- A value converted to a format from another. -/
def convCode (dst src : Fmt) (mode x : Nat) : Nat × W32 :=
  let v := src.decode x
  let (c, f) := dst.round mode false 0 v
  (c, f ||| snanFlag [v])

/-- fcvt (R136): code, mode, source register, old destination. -/
def fcvtCode (c mode x old : Nat) : Nat × W32 :=
  match c with
  | 0 => intWord (roundInt mode (-(2 ^ 31)) (2 ^ 31 - 1) (f32.decode x))
  | 1 => intWord (roundInt mode 0 (2 ^ 32 - 1) (f32.decode x))
  | 2 => f32.round mode false 0 (Val.ofInt (toSigned 32 x))
  | 3 => f32.round mode false 0 (Val.ofInt (Int.ofNat x))
  | 4 => let (y, f) := convCode f16 f32 mode x; (old / 2 ^ 16 * 2 ^ 16 + y, f)
  | 5 => convCode f32 f16 mode (x % 2 ^ 16)
  | 6 => let (y, f) := convCode bf16 f32 mode x; (old / 2 ^ 16 * 2 ^ 16 + y, f)
  | 7 => convCode f32 bf16 mode (x % 2 ^ 16)
  | 8 => packFlags 16 (fun i => convCode bf16 f16 mode (elem 16 i x)) 2
  | _ => packFlags 16 (fun i => convCode f16 bf16 mode (elem 16 i x)) 2

def execFcvt (u : Bool) (d a : BitVec 7) (c : BitVec 4) (m : BitVec 3) (s : State) :
    Host.Outcome State Fault Refusal :=
  aluInstr (.fcvt u d a c m) s fun tm => tm.alu u always d.toNat 1 fun l =>
    fcvtCode c.toNat m.toNat (tm.rd u l a.toNat 1) (tm.rd u l d.toNat 1)

/-! ## R137, R148 -/

def execFmac (u : Bool) (d a b : BitVec 7) (t : BitVec 2) (s : State) : Host.Outcome State Fault Refusal :=
  aluInstr (.fmac u d a b t) s fun tm => tm.fp3 u d a b d t always fmaCode

def execFma (u : Bool) (t : BitVec 2) (d a b c : BitVec 7) (gd : Guard) (s : State) :
    Host.Outcome State Fault Refusal :=
  aluInstr (.fma u t d a b c gd) s fun tm => tm.fp3 u d a b c t gd fmaCode

/-- NV for opposite infinities among the terms of one exact sum, whatever else is among them (R137). -/
def oppositeFlag (vs : List Val) : W32 := if vs.contains (.inf false) && vs.contains (.inf true) then fNV else 0

/-- Round(a0 b0 + a1 b1 + c, f32), exact before the one rounding (R137). -/
def dot2Code (f : Fmt) (x y z : Nat) : Nat × W32 :=
  let (p0, f0) := mulVal (f.decode (elem 16 0 x)) (f.decode (elem 16 0 y))
  let (p1, f1) := mulVal (f.decode (elem 16 1 x)) (f.decode (elem 16 1 y))
  let (q, f2) := addVal 0 p0 p1
  let (r, f3) := addVal 0 q (f32.decode z)
  let (c, f4) := f32.round 0 false 0 r
  (c, f0 ||| f1 ||| f2 ||| f3 ||| f4 ||| oppositeFlag [p0, p1, f32.decode z])

def execFdot2 (u : Bool) (d a b : BitVec 7) (t : BitVec 2) (s : State) : Host.Outcome State Fault Refusal :=
  aluInstr (.fdot2 u d a b t) s fun tm => tm.alu u always d.toNat 1 fun l =>
    dot2Code (fpFmt t) (tm.rd u l a.toNat 1) (tm.rd u l b.toNat 1) (tm.rd u l d.toNat 1)

/-- fmin(fmax(a, b), c) (R148). -/
def clampCode (f : Fmt) (x y z : Nat) : Nat × W32 :=
  let (m, f1) := maxCode f x y
  let (r, f2) := minCode f m z
  (r, f1 ||| f2)

def execFclamp (u : Bool) (t : BitVec 2) (d a b c : BitVec 7) (gd : Guard) (s : State) :
    Host.Outcome State Fault Refusal :=
  aluInstr (.fclamp u t d a b c gd) s fun tm => tm.fp3 u d a b c t gd clampCode

/-- Round(a_i b_j + c, f32) (R148). -/
def mixCode (f : Fmt) (i j : Bool) (x y z : Nat) : Nat × W32 :=
  let (v, g) := fmaVal 0 (f.decode (elem 16 i.toNat x)) (f.decode (elem 16 j.toNat y)) (f32.decode z)
  let (c, h) := f32.round 0 false 0 v
  (c, g ||| h)

def execFmaMix (u : Bool) (t : BitVec 2) (d a b c : BitVec 7) (gd : Guard) (j i : Bool) (s : State) :
    Host.Outcome State Fault Refusal :=
  aluInstr (.fmaMix u t d a b c gd j i) s fun tm => tm.alu u gd d.toNat 1 fun l =>
    mixCode (fpFmt t) i j (tm.rd u l a.toNat 1) (tm.rd u l b.toNat 1) (tm.rd u l c.toNat 1)

/-! ## R154 -/

/-- The value of a code in a format of R154 (and of the copy engine). -/
def decodeX (src x : Nat) : Val :=
  match src with
  | 0 => f32.decode x
  | 1 => f16.decode x
  | 2 => bf16.decode x
  | 3 => e4m3.decode x
  | 4 => e5m2.decode x
  | 5 => e2m1.decode x
  | 6 => Val.ofInt (toSigned 8 x)
  | 7 => Val.ofInt (toSigned 4 x)
  | 9 => f64.decode x
  | 10 => Val.ofInt (toSigned 32 x)
  | 11 => Val.ofInt (Int.ofNat x)
  | 12 => e5m3.decode x
  | _ => e8m0 x

/-- Round of R76 into a format of R154. -/
def roundX (dst mode : Nat) (sat : Bool) (r : Nat) (v : Val) : Nat × W32 :=
  match dst with
  | 0 => f32.round mode sat r v
  | 1 => f16.round mode sat r v
  | 2 => bf16.round mode sat r v
  | 3 => e4m3.round mode sat r v
  | 4 => e5m2.round mode sat r v
  | 5 => e2m1.round mode sat r v
  | 6 => let (i, f) := roundInt mode (-128) 127 v; (wrap 8 i, f)
  | 7 => let (i, f) := roundInt mode (-8) 7 v; (wrap 4 i, f)
  | 9 => f64.round mode sat r v
  | 10 => intWord (roundInt mode (-(2 ^ 31)) (2 ^ 31 - 1) v)
  | 11 => intWord (roundInt mode 0 (2 ^ 32 - 1) v)
  | _ => roundE5M3 mode v

/-- Bits of an element of a format of R154. -/
def widthX (c : Nat) : Nat :=
  match c with
  | 0 => 32
  | 1 => 16
  | 2 => 16
  | 5 => 4
  | 7 => 4
  | 9 => 64
  | 10 => 32
  | 11 => 32
  | _ => 8

def execFcvtX (u : Bool) (d a b : BitVec 7) (di si : BitVec 3) (gd : Guard) (sat : Bool) (mode : BitVec 3)
    (dst src : BitVec 4) (s : State) : Host.Outcome State Fault Refusal :=
  aluInstr (.fcvtX u d a b di si gd sat mode dst src) s fun tm =>
    let kd := if dst = 9 then 2 else 1
    let ks := if src = 9 then 2 else 1
    let w := widthX dst.toNat
    tm.alu u gd d.toNat kd fun l =>
      let v := decodeX src.toNat (elem (widthX src.toNat) si.toNat (tm.rd u l a.toNat ks))
      let (y, f) := roundX dst.toNat mode.toNat sat (tm.rd u l b.toNat 1 % 2 ^ 16) v
      (insertField (tm.rd u l d.toNat kd) y (w * di.toNat) w, f ||| snanFlag [v])

end Sys2Proof.Machine
end

