-- ==== Sys2Proof/Machine/RvFp.lean ====
section
/-! DEFINITION. The results of the RISC-V F and D operations (R240): NaN boxes, rounding modes, flags. Subnormals are
kept, NaN results are canonical (R61). -/

namespace Sys2Proof.Machine

def rvFmt (dbl : Bool) : Fmt := if dbl then f64 else f32

/-- A single-precision value in a 64-bit register. -/
def nanBox (v : Nat) : W64 := BitVec.ofNat 64 (v % 2 ^ 32 + 0xFFFFFFFF * 2 ^ 32)

/-- The value of a floating-point register; a single that is not boxed reads as the canonical NaN. -/
def unbox (dbl : Bool) (v : W64) : Nat :=
  if dbl then v.toNat else if v.toNat / 2 ^ 32 = 0xFFFFFFFF then v.toNat % 2 ^ 32 else 0x7FC00000

def boxed (dbl : Bool) (v : Nat) : W64 := if dbl then BitVec.ofNat 64 v else nanBox v

/-- The rounding mode of R76 for an rm field: none for 5 to 7 (an frm of 5 to 7 among them). -/
def rvMode (x : Slot) (rm : BitVec 3) : Option Nat :=
  let m := if rm = 7 then ((x.fcsr >>> 5) &&& 7).toNat else rm.toNat
  match m with
  | 0 => some 0
  | 1 => some 1
  | 2 => some 3
  | 3 => some 2
  | 4 => some 5
  | _ => none

def rvRound (dbl : Bool) (mode : Nat) (r : Val × W32) : Nat × W32 :=
  let (c, g) := (rvFmt dbl).round mode false 0 r.1
  (c, r.2 ||| g)

/-- fadd, fsub, fmul, fdiv, fsgnj*, fmin, fmax. -/
def rvFop (k : RvFop) (dbl : Bool) (mode x y : Nat) : Nat × W32 :=
  let f := rvFmt dbl
  let a := f.decode x
  let b := f.decode y
  let top := 2 ^ (f.width - 1)
  match k with
  | .add => rvRound dbl mode (addVal mode a b)
  | .sub => rvRound dbl mode (addVal mode a b.neg)
  | .mul => rvRound dbl mode (mulVal a b)
  | .div => rvRound dbl mode (divVal 60 a b)
  | .sgnj => (x % top + y / top * top, 0)
  | .sgnjn => (x % top + (1 - y / top) * top, 0)
  | .sgnjx => (x % top + (x / top + y / top) % 2 * top, 0)
  | .min => minMaxCode f false x y
  | .max => minMaxCode f true x y

/-- The operations whose result depends on the rounding mode. -/
def fopRounds : RvFop → Bool
  | .add | .sub | .mul | .div => true
  | _ => false

/-- fmadd, fmsub, fnmsub, fnmadd. -/
def rvFma (k : RvFma) (dbl : Bool) (mode x y z : Nat) : Nat × W32 :=
  let f := rvFmt dbl
  let a := f.decode x
  let b := f.decode y
  let c := f.decode z
  match k with
  | .madd => rvRound dbl mode (fmaVal mode a b c)
  | .msub => rvRound dbl mode (fmaVal mode a b c.neg)
  | .nmsub => rvRound dbl mode (fmaVal mode a.neg b c)
  | .nmadd => rvRound dbl mode (fmaVal mode a.neg b c.neg)

def rvSqrt (dbl : Bool) (mode x : Nat) : Nat × W32 := rvRound dbl mode (sqrtVal 60 ((rvFmt dbl).decode x))

/-- feq, flt, fle. -/
def rvFcmp (k : RvFcmp) (dbl : Bool) (x y : Nat) : Bool × W32 :=
  match k with
  | .eq => fcmpCode (rvFmt dbl) 0 x y
  | .lt => fcmpCode (rvFmt dbl) 2 x y
  | .le => fcmpCode (rvFmt dbl) 3 x y

/-- fclass: one bit of ten. -/
def rvClass (dbl : Bool) (x : Nat) : Nat :=
  let f := rvFmt dbl
  let neg := x.testBit (f.width - 1)
  let e := x / 2 ^ f.mw % 2 ^ f.ew
  match f.decode x with
  | .nan s => if s then 0x100 else 0x200
  | .inf n => if n then 0x001 else 0x080
  | .fin _ m _ =>
    if m = 0 then (if neg then 0x008 else 0x010)
    else if e = 0 then (if neg then 0x004 else 0x020)
    else (if neg then 0x002 else 0x040)

/-- The range of an integer type. -/
def rvRange (k : RvInt) : Int × Int :=
  match k with
  | .w => (-(2 ^ 31), 2 ^ 31 - 1)
  | .wu => (0, 2 ^ 32 - 1)
  | .l => (-(2 ^ 63), 2 ^ 63 - 1)
  | .lu => (0, 2 ^ 64 - 1)

/-- A float to an integer type: out of range and NaN give NV and the nearest end (a NaN the upper one). -/
def rvToInt (k : RvInt) (dbl : Bool) (mode x : Nat) : W64 × W32 :=
  let (lo, hi) := rvRange k
  let put (i : Int) : W64 :=
    match k with
    | .w | .wu => sext32 (BitVec.ofInt 32 i)
    | .l | .lu => BitVec.ofInt 64 i
  match (rvFmt dbl).decode x with
  | .nan _ => (put hi, fNV)
  | .inf n => (put (if n then lo else hi), fNV)
  | .fin n m e =>
    let (v, inexact) := roundAt mode n 0 m e 0
    let y := sgnInt n v
    if y < lo then (put lo, fNV) else if hi < y then (put hi, fNV) else (put y, if inexact then fNX else 0)

/-- The integer that a register holds for a type. -/
def rvIntOf (k : RvInt) (v : W64) : Int :=
  match k with
  | .w => (lo32 v).toInt
  | .wu => Int.ofNat (lo32 v).toNat
  | .l => v.toInt
  | .lu => Int.ofNat v.toNat

def rvFromInt (k : RvInt) (dbl : Bool) (mode : Nat) (v : W64) : Nat × W32 :=
  rvRound dbl mode (Val.ofInt (rvIntOf k v), 0)

/-- fcvt.s.d (toDbl false) and fcvt.d.s (toDbl true). -/
def rvConvert (toDbl : Bool) (mode x : Nat) : Nat × W32 :=
  let v := (rvFmt (!toDbl)).decode x
  rvRound toDbl mode (v, snanFlag [v])

end Sys2Proof.Machine
end

