-- ==== Sys2Proof/Machine/RvBase.lean ====
section
/-! DEFINITION. The ordinary RISC-V instructions of a scalar thread, with fences, atomics and the system words
(R240, R241, R298). -/

namespace Sys2Proof.Machine

/-- A floating-point result: flags accrue in fcsr (R42). -/
def Slot.raiseF (x : Slot) (f : W32) : Slot := { x with fcsr := x.fcsr ||| (f &&& 0x1F) }

/-- The body of an instruction that writes only its thread's registers. -/
def State.done (s : State) (k : Nat) (x : Slot) : Except KTrap State := .ok (s.retireSlot k x)

/-- An instruction that needs a rounding mode: a reserved one is illegal (R240). -/
def State.withMode (s : State) (x : Slot) (rm : BitVec 3) (f : Nat → Except KTrap State) : Except KTrap State :=
  match rvMode x rm with
  | some m => f m
  | none => .error s.illegal

/-- A result in a floating-point register. -/
def State.doneF (s : State) (k : Nat) (x : Slot) (dbl : Bool) (rd : BitVec 5) (r : Nat × W32) : Except KTrap State :=
  s.done k ((x.setF rd (boxed dbl r.1)).raiseF r.2)

/-- The effect of one ordinary instruction. -/
def State.rvBody (s : State) (op : RvOp) (k : Nat) (x : Slot) : Except KTrap State :=
  let fval (dbl : Bool) (r : BitVec 5) : Nat := unbox dbl (x.freg r)
  match op with
  | .lui rd imm => s.done k (x.setX rd (sext32 (imm ++ (0 : BitVec 12))))
  | .auipc rd imm => s.done k (x.setX rd (x.pc + sext32 (imm ++ (0 : BitVec 12))))
  | .jal rd imm => .ok (s.setSlot k { x.setX rd (s.nextPc x) with pc := x.pc + imm.signExtend 64 })
  | .jalr rd rs1 imm =>
    .ok (s.setSlot k { x.setX rd (s.nextPc x) with pc := (x.xreg rs1 + imm.signExtend 64) &&& ~~~1 })
  | .branch b rs1 rs2 imm =>
    if rvBranch b (x.xreg rs1) (x.xreg rs2) then .ok (s.setSlot k { x with pc := x.pc + imm.signExtend 64 })
    else s.done k x
  | .load l rd rs1 imm =>
    let (n, sg) := rvLoad l
    s.scalarLoad k x (x.xreg rs1 + imm.signExtend 64).toNat n fun v s =>
      s.done k ((s.slot k).setX rd (extended n sg v))
  | .store t rs1 rs2 imm =>
    s.scalarStore k x (x.xreg rs1 + imm.signExtend 64).toNat (rvStore t) (x.xreg rs2).toNat fun s => s.done k x
  | .alu a rd rs1 rs2 => s.done k (x.setX rd (rvAlu a (x.xreg rs1) (x.xreg rs2)))
  | .unary u rd rs1 => s.done k (x.setX rd (rvUnary u (x.xreg rs1)))
  | .aluImm i rd rs1 imm => s.done k (x.setX rd (rvImm i (x.xreg rs1) imm))
  | .shift h rd rs1 sh => s.done k (x.setX rd (rvShift h (x.xreg rs1) sh))
  | .csr c rd rs1 num => s.zicsr k x c rd num (x.xreg rs1) (rs1 == 0)
  | .csrI c rd z num => s.zicsr k x c rd num (z.setWidth 64) (z == 0)
  | .fload dbl rd rs1 imm =>
    let n := if dbl then 8 else 4
    s.scalarLoad k x (x.xreg rs1 + imm.signExtend 64).toNat n fun v s =>
      s.done k ((s.slot k).setF rd (boxed dbl v))
  | .fstore dbl rs1 rs2 imm =>
    s.scalarStore k x (x.xreg rs1 + imm.signExtend 64).toNat (if dbl then 8 else 4) (x.freg rs2).toNat fun s => s.done k x
  | .fma m dbl rm rd rs1 rs2 rs3 =>
    s.withMode x rm fun mode => s.doneF k x dbl rd (rvFma m dbl mode (fval dbl rs1) (fval dbl rs2) (fval dbl rs3))
  | .fop f dbl rm rd rs1 rs2 =>
    if fopRounds f then
      s.withMode x rm fun mode => s.doneF k x dbl rd (rvFop f dbl mode (fval dbl rs1) (fval dbl rs2))
    else s.doneF k x dbl rd (rvFop f dbl 0 (fval dbl rs1) (fval dbl rs2))
  | .fsqrt dbl rm rd rs1 => s.withMode x rm fun mode => s.doneF k x dbl rd (rvSqrt dbl mode (fval dbl rs1))
  | .fcmp c dbl rd rs1 rs2 =>
    let r := rvFcmp c dbl (fval dbl rs1) (fval dbl rs2)
    s.done k ((x.setX rd (boolW r.1)).raiseF r.2)
  | .fclass dbl rd rs1 => s.done k (x.setX rd (BitVec.ofNat 64 (rvClass dbl (fval dbl rs1))))
  | .fcvtToInt i dbl rm rd rs1 =>
    s.withMode x rm fun mode =>
      let r := rvToInt i dbl mode (fval dbl rs1)
      s.done k ((x.setX rd r.1).raiseF r.2)
  | .fcvtFromInt i dbl rm rd rs1 => s.withMode x rm fun mode => s.doneF k x dbl rd (rvFromInt i dbl mode (x.xreg rs1))
  | .fcvtSD rm rd rs1 => s.withMode x rm fun mode => s.doneF k x false rd (rvConvert false mode (fval true rs1))
  | .fcvtDS rm rd rs1 => s.withMode x rm fun mode => s.doneF k x true rd (rvConvert true mode (fval false rs1))
  | .fmvToInt dbl rd rs1 => s.done k (x.setX rd (if dbl then x.freg rs1 else sext32 (lo32 (x.freg rs1))))
  | .fmvFromInt dbl rd rs1 => s.done k (x.setF rd (boxed dbl (x.xreg rs1).toNat))

def execRiscvBaseOp (op : RvOp) (s : State) : Host.Outcome State Fault Refusal :=
  slotInstr (.riscvBaseOp op) s (s.rvBody op)

/-! ## Fences (R240, R289, R298) -/

/-- A full fence on the LS path at package scope: stores performed, swarm cache dropped. -/
def State.fullFence (s : State) (k : Nat) : State :=
  let s := (s.drainStores k).observeReads k
  (s.fenceReveal pathLS pathLS 4 (s.slot k).observed).slotAcquire k

def execFence (fm pred succ : BitVec 4) (s : State) : Host.Outcome State Fault Refusal :=
  slotInstr (.fence fm pred succ) s fun k _ =>
    let s := s.fullFence k
    .ok (s.retireSlot k (s.slot k))

/-- fence.i: the thread's own stores are performed, and the instruction cache of the swarms drops what it holds, so that its
later fetches see them (R240, R289). -/
def execFenceI (s : State) : Host.Outcome State Fault Refusal :=
  slotInstr .fenceI s fun k x =>
    .ok (((s.drainStores k).invalidateAll (swarmCodeNo (slotCluster k))).retireSlot k x)

/-! ## Atomics (R240, R241) -/

/-- The release side of .rl and the acquire side of .aq, at package scope. -/
def State.releaseIf (s : State) (k : Nat) (rl : Bool) : State := if rl then s.drainStores k else s
def State.acquireIf (s : State) (k : Nat) (aq : Bool) : State := if aq then s.slotAcquire k else s

def execAmo (op : AmoOp) (dbl aq rl : Bool) (rd rs1 rs2 : BitVec 5) (s : State) : Host.Outcome State Fault Refusal :=
  slotInstr (.amo op dbl aq rl rd rs1 rs2) s fun k x =>
    let n := if dbl then 8 else 4
    let v := (x.xreg rs2).toNat % 2 ^ (8 * n)
    let old (o : Nat) : W64 := extended n (!dbl) o
    (s.releaseIf k rl).scalarRmw k x needAtomic (x.xreg rs1).toNat n (fun o => some (amoNew op (8 * n) o v)) fun o s =>
      let s := (s.acquireIf k aq).noteRead k x (x.xreg rs1).toNat n aq
      s.done k ((s.slot k).setX rd (old o))

/-- Memory that LR and SC support: local store, and cacheable BACKED and LODGED pages (R241). -/
def State.lrMemory (_s : State) (ps : List Piece) : Bool :=
  ps.all fun p => keyKind p.key == 1 || ((keyKind p.key == 0 || keyKind p.key == 2) && p.cacheable)

/-- LR and SC as far as their place: the pieces, or how the instruction ends. LR needs the rights of R48 too. -/
def State.reserved (s : State) (k : Nat) (x : Slot) (va n : Nat) (mis unsup pf : BitVec 8)
    (f : Nat → Bool → State → Except KTrap State) : Except KTrap State :=
  s.scalarCheck x needAtomic va n n mis fun l =>
    match s.piecesOf (slotWho k x) .atomic l va n with
    | (.error p, s) => State.scalarDone k va pf (p.done, s) fun _ s => .ok s
    | (.ok ps, s) =>
      if s.lrMemory ps then f (keyBlock 64 ((ps.map fun p => p.key).headD 0)) l (s.drainMeeting k ps)
      else s.trapNow k unsup va

def execLr (dbl aq rl : Bool) (rd rs1 : BitVec 5) (s : State) : Host.Outcome State Fault Refusal :=
  slotInstr (.lr dbl aq rl rd rs1) s fun k x =>
    let n := if dbl then 8 else 4
    let va := (x.xreg rs1).toNat
    (s.releaseIf k rl).reserved k x va n 4 5 13 fun set l s =>
      State.scalarDone k va 13 (s.readPast (slotWho k x) (swarmNo (slotCluster k)) va n l) fun v s =>
        let s := (s.acquireIf k aq).noteRead k x va n aq
        s.done k { (s.slot k).setX rd (extended n (!dbl) v) with resv := some set }

/-- SC: writes and returns 0 while the reservation of its set holds; 1 otherwise. Any SC ends the reservation. -/
def execSc (dbl aq rl : Bool) (rd rs1 rs2 : BitVec 5) (s : State) : Host.Outcome State Fault Refusal :=
  slotInstr (.sc dbl aq rl rd rs1 rs2) s fun k x =>
    let n := if dbl then 8 else 4
    let va := (x.xreg rs1).toNat
    (s.releaseIf k rl).reserved k x va n 6 7 15 fun set l s =>
      if (s.slot k).resv = some set then
        State.scalarDone k va 15
          (s.writeRange (slotWho k x) s.nextOp (some (swarmNo (slotCluster k))) .atomic va
            (toBytes n (x.xreg rs2).toNat) l) fun _ s =>
          (s.acquireIf k aq).done k { x.setX rd 0 with resv := none }
      else (s.acquireIf k aq).done k { x.setX rd 1 with resv := none }

/-! ## System words (R240, R251) -/

def execEcall (s : State) : Host.Outcome State Fault Refusal :=
  slotInstr .ecall s fun _ _ => .error (KTrap.mk 8 0)

def execEbreak (s : State) : Host.Outcome State Fault Refusal :=
  slotInstr .ebreak s fun _ _ => .error (KTrap.mk 3 0)

/-- xwait on a mask: the bits found are cleared and written to rd, an acquire; with none set the thread WAITS, and its
reservation is lost (R241, R251). -/
def State.waitEvent (s : State) (k : Nat) (x : Slot) (m : W32) (rd : BitVec 5) : State :=
  let hit := x.events &&& m
  if hit = 0 then s.setSlot k { x with st := .waiting, wait := .event m rd.toNat, resv := none }
  else (s.slotAcquire k).retireSlot k ({ x with events := x.events &&& ~~~hit }.setX rd (hit.setWidth 64))

/-- wfi acts as xwait x0 with every bit (R240). -/
def execWfi (s : State) : Host.Outcome State Fault Refusal :=
  slotInstr .wfi s fun k x => .ok (s.waitEvent k x 0xFFFFFFFF 0)

end Sys2Proof.Machine
end

