-- ==== Sys2Proof/Machine/Threads.lean ====
section
/-! DEFINITION. Scalar threads: creation, retirement and stops (R22, R23, R26, R256, R318), messages and events (R247 to
R252, R310, R323), yielding and the steal domain (R260). -/

namespace Sys2Proof.Machine

/-! ## Handles (R26) -/

def mkHandle (kind vcl unit sub : Nat) (seq : W32) : W64 :=
  BitVec.ofNat 64 (kind % 16 * 2 ^ 60 + vcl % 256 * 2 ^ 48 + unit % 256 * 2 ^ 40 + sub % 256 * 2 ^ 32 + seq.toNat)

def handleKind (h : W64) : Nat := bits h.toNat 63 60
def handleVcl (h : W64) : Nat := bits h.toNat 55 48
def handleUnit (h : W64) : Nat := bits h.toNat 47 40
def handleSub (h : W64) : Nat := bits h.toNat 39 32
def handleSeq (h : W64) : W32 := h.setWidth 32

/-- The identity handle of a thread of a launch in slot k with an occupancy count. -/
def State.handleOf (s : State) (launch k : Nat) (seq : W32) : W64 :=
  mkHandle 0 ((s.launch launch).vcl (slotCluster k)) (slotCore k % 16) (slotIndex k) seq

/-! ## Creation (R22) -/

/-- What a thread starts with: steps 1 and 2 of R22, then the arguments. -/
def startRegs (args : List (Nat × W64)) : Tbl W64 :=
  args.foldl (fun t e => Tbl.set t 0 e.1 e.2) (Tbl.set [] 0 1 Config.retireAddress)

/-- Arguments from register a0 on. -/
def argRegs (l : List W64) : List (Nat × W64) := (List.range l.length).map fun i => (10 + i, l.getD i 0)

/-- FMT and SCLP of an entry of a launch's format table. -/
def Launch.format (l : Launch) (i : Nat) : W32 × W64 := l.fmts.getD i (0, 0)

/-- A slot with a new thread in it: a new occupancy and handle. -/
def State.newThread (s : State) (k launch : Nat) (pc : W64) (x f : Tbl W64) (fmt : W32) (sclp : W64) (sg : Tbl W128) :
    State :=
  s.modSlot k fun o =>
    let seq := o.seq + 1
    let h := s.handleOf launch k seq
    { o with
      st := .ready, wait := .none, x := x, f := f, pc := pc, fcsr := 0, sg := sg, events := 0, inbox := []
      fmt := fmt, sclp := sclp, seq := seq, handle := h, origin := h, launch := some launch
      kcause := 0xFF, ktval := 0, reserved := false, stop := none, ring := false, saved := none, resv := none
      range := none, sdom := (s.launch launch).sdom, notBefore := 0, observed := [], glimpsed := [] }

/-- A thread with the launch's templates and a format. -/
def State.launchThread (s : State) (k launch : Nat) (pc : W64) (args : List (Nat × W64)) (fmt : W32 × W64) : State :=
  s.newThread k launch pc (startRegs args) [] fmt.1 fmt.2 (s.launch launch).scalarSegs

/-- A slot without its thread (R23, R319): inbox, events and range are discarded; queued messages and an armed
deadline stay. -/
def Slot.freed (x : Slot) : Slot :=
  { x with
    st := .free, wait := .none, events := 0, inbox := [], range := none, resv := none, stop := none, launch := none
    ring := false, kcause := 0xFF, ktval := 0, notBefore := 0, observed := [], glimpsed := [] }

/-! ## Ranges (R25, R256) -/

/-- The unclaimed chunks. -/
def Range.chunks (r : Range) : Nat :=
  if r.lo.toNat < r.hi.toNat ∧ 1 ≤ r.grain.toNat then (r.hi.toNat - r.lo.toNat + r.grain.toNat - 1) / r.grain.toNat
  else 0

/-- Claim: the chunk and the range without it. -/
def Range.claim (r : Range) : Option (W64 × W64 × Range) :=
  if r.lo.toNat < r.hi.toNat then
    let high := BitVec.ofNat 64 (Nat.min (r.lo.toNat + r.grain.toNat) r.hi.toNat)
    some (r.lo, high, { r with lo := high })
  else none

/-- The split point of R25. -/
def Range.split (r : Range) : W64 := r.lo + BitVec.ofNat 64 (r.chunks / 2) * r.grain

/-- The bytes of a RANGE frame. -/
def Range.bytes (r : Range) : List Byte :=
  toBytes 8 r.head.toNat ++ toBytes 8 r.body.toNat ++ toBytes 8 r.lo.toNat ++ toBytes 8 r.hi.toNat
    ++ toBytes 8 r.grain.toNat ++ ((List.range 3).flatMap fun i => toBytes 8 (r.args.getD i 0).toNat)

/-- A write by the core itself in a launch's context, without a segment check: done, or the state untouched. The copies
of its cluster's swarm cache follow. -/
def State.tryWrite (s : State) (cl launch va : Nat) (bs : List Byte) : Option State :=
  match s.writeRange (Who.mk cl launch pathLS none) 0 (some (swarmNo cl)) .write va bs true with
  | (.value _, s') => some s'
  | _ => none

def State.tryRead (s : State) (cl launch va len : Nat) : Option (Nat × State) :=
  match s.readRange (Who.mk cl launch pathLS none) va len true with
  | (.value v, s') => some (v, s')
  | _ => none

/-- F.lo and F.hi as a frame holds them. -/
def Range.bounds (r : Range) : List Byte := toBytes 8 r.lo.toNat ++ toBytes 8 r.hi.toNat

/-- Where F.lo and F.hi lie. -/
def Range.boundsAt (r : Range) : Nat := r.frame.ptr.toNat + 16

/-- F.lo and F.hi written to the frame by the core, as one unit (R256). -/
def State.putBounds (s : State) (cl : Nat) (r : Range) : Done × State :=
  s.writeRange (Who.mk cl r.frame.launch pathLS none) 0 (some (swarmNo cl)) .write r.boundsAt r.bounds true

/-- A write by the core that poisoned data stops too (R258). -/
def State.tryWriteClean (s : State) (cl launch va : Nat) (bs : List Byte) : Option State :=
  match s.piecesOf (Who.mk cl launch pathLS none) .write true va bs.length with
  | (.ok ps, _) => if s.piecesPoisoned ps then none else s.tryWrite cl launch va bs
  | _ => none

/-- The arguments of a RANGE thread: chunk, frame address, frame words. -/
def Range.regs (r : Range) (lo hi : W64) : Tbl W64 := startRegs (argRegs (lo :: hi :: r.frame.ptr :: r.args))

/-! ## Retirement (R23) -/

/-- A thread with its next chunk: what R256 names is reset, its inbox entries in memory included. Its segments, its FMT and
SCLP and its steal domain stay as the thread left them, since R256 does not name them (DEDUCED, log 105). -/
def Slot.restart (x : Slot) (lo hi : W64) (r : Range) : Slot :=
  { x with
    x := r.regs lo hi, f := [], pc := r.body, fcsr := 0, events := 0, inbox := [], range := some r
    st := .ready, wait := .none, resv := none, ring := false }

/-- A thread at its retire address retires, its buffered stores performed; one with a current range first takes the next
chunk, as the same thread. The claim's write of F.lo and F.hi parks or traps it there like an access of the thread (R36,
R361; the cause 15 of a write, DEDUCED, log 105): nothing is claimed then. -/
def State.retireThread (s : State) (k : Nat) : State :=
  let x := s.slot k
  match x.range.bind Range.claim with
  | some (lo, hi, r) =>
    match s.putBounds (slotCluster k) r with
    | (.value _, s) => s.setSlot k (x.restart lo hi r)
    | (.park token, s) => s.parkSlot k (.fault token 15 (BitVec.ofNat 64 r.boundsAt))
    | (.stall, s) => s
    | (.fail, s) | (.poisoned, s) => s.keeperTrap k 15 (BitVec.ofNat 64 r.boundsAt)
  | none => (s.drainStores k).setSlot k x.freed

/-- A thread that leaves by its last instruction goes to its retire address (R23). -/
def State.leaveThread (s : State) (k : Nat) : State :=
  (s.modSlot k fun x => { x with st := .ready, wait := .none, pc := Config.retireAddress }).retireThread k

/-! ## Stops (R318, R323) -/

/-- A stop of a user slot: at once, or at the end of a park; same tells that the trap value does not depend on the
state. -/
def State.stopSlot (s : State) (k : Nat) (code : BitVec 8) (tval : W64) (same : Bool) : State :=
  let x := s.slot k
  let value (v : W64) : W64 := if same then tval else v
  match x.st, x.wait with
  | .ready, _ => s.keeperTrap k code tval
  | .waiting, _ => s.keeperTrap k code (value 2)
  | .parked, .fe _ _ _ _ => s.keeperTrap k code (value 3)
  | .parked, .join _ _ => s.keeperTrap k code (value 2)
  | .parked, _ => s.setSlot k { x with stop := some (code, tval) }
  | _, _ => s

/-- A park ends: the slot is READY; a stop that waited for it acts before the next instruction. -/
def Slot.unpark (x : Slot) : Slot := { x with st := .ready, wait := .none }

/-- A stop that waited, taken at an instruction boundary. -/
def State.takeStop (s : State) (k : Nat) : State :=
  let x := s.slot k
  match x.stop with
  | some (code, tval) => (s.setSlot k { x with stop := none }).keeperTrap k code tval
  | none => s

/-! ## Messages (R247, R248, R323) -/

/-- The slot that a handle of a launch names. -/
def State.slotOfHandle (s : State) (launch : Nat) (h : W64) : Nat :=
  slotNo ((s.launch launch).grid.getD (handleVcl h) 0) (handleUnit h) (handleSub h)

/-- Whether the message's handle names the thread that the slot holds or is reserved for (R26, R319). -/
def Slot.isTarget (x : Slot) (m : Msg) : Bool :=
  x.launch == some m.launch && handleSeq x.handle == handleSeq m.target && (x.st != .free || x.reserved)

/-- A message into the core's spill queue (R323). -/
def State.spill (s : State) (k : Nat) (m : Msg) : State :=
  (s.modCore (slotCore k) fun c => { c with spillQ := c.spillQ ++ [m] }).keeperEvent k 0x20000000

/-- Whether the spill queue holds a DATA for a handle. -/
def Core.holdsData (c : Core) (h : W64) : Bool := c.spillQ.any fun m => m.cls == .data && m.target == h

/-- Whether a message goes to the spill queue. -/
def State.spills (s : State) (k : Nat) (x : Slot) (m : Msg) : Bool :=
  let held := (s.core (slotCore k)).holdsData m.target || (x.st == .free && x.reserved)
  match m.cls with
  | .data => held || x.st == .trapped || decide (4 ≤ x.inbox.length) || x.ring
  | _ => held

/-- A message taken by its target. -/
def Slot.take (x : Slot) (m : Msg) : Slot :=
  match m.cls with
  | .data => { x with inbox := x.inbox ++ [m], events := x.events ||| 1 }
  | _ => { x with events := x.events ||| m.payload.getD 0 0 }

/-- The lowest FREE, unreserved user slot of a core. -/
def State.freeSlot (s : State) (core : Nat) : Option Nat :=
  if s.quiesced (s.cluster (core / 16)).part then none
  else ((List.range 15).map fun i => core * 16 + i).find? fun k => (s.slot k).st == .free && !(s.slot k).reserved

/-- The core that a SPAWN names: VCL and UNIT of its handle (R247). -/
def State.spawnCore (s : State) (m : Msg) : Nat :=
  (s.launch m.launch).grid.getD (handleVcl m.target) 0 * 16 + handleUnit m.target

/-- The places of the SPAWNs that wait in the network for a core. -/
def State.spawnPlaces (s : State) (core : Nat) : List Nat :=
  s.slots.flatMap fun e => e.2.sendQ.filterMap fun m =>
    if m.cls = .spawn ∧ s.spawnCore m = core then m.waits else none

/-- Whether a SPAWN that waits for the same core comes first (R431). -/
def State.spawnBehind (s : State) (m : Msg) : Bool :=
  (s.spawnPlaces (s.spawnCore m)).any fun n => m.waits.all fun own => decide (n < own)

/-- A SPAWN makes its thread (R22, R431): none while it has to wait. -/
def State.spawn (s : State) (m : Msg) : Option State :=
  let core := s.spawnCore m
  if (s.cluster (core / 16)).pendThreads ≠ [] ∨ s.spawnBehind m = true then none else
  match s.freeSlot core with
  | none => none
  | some k =>
    let w (i : Nat) : W64 := (m.payload.getD i 0).setWidth 64
    let pc : W64 := m.payload.getD 5 0 ++ m.payload.getD 4 0
    some ((s.launchThread k m.launch pc (argRegs [w 0, w 1, w 2, w 3]) ((s.launch m.launch).format 0)).slotAcquire k)

/-- The arrival of a DATA or SIGNAL; none while it waits in the network for room in the spill queue, which stops its
target (R323). A DATA that is spilled has not arrived at the thread: it sets no event bit (R248, R422; DEDUCED, log 51). -/
def State.arriveMsg (s : State) (m : Msg) : Option State × State :=
  let k := s.slotOfHandle m.launch m.target
  let x := s.slot k
  if x.isTarget m then
    if s.spills k x m then
      if (s.core (slotCore k)).spillQ.length < 32 then (some (s.spill k m), s)
      else (none, s.stopSlot k 28 m.sender true)
    else (some (s.setSlot k (x.take m)), s)
  else (some s, s)

/-- The send queue once a message has left it; a thread that waits for room tries again. -/
def Slot.sent (x : Slot) (q : List Msg) : Slot :=
  let x := { x with sendQ := q }
  if x.st = .parked ∧ x.wait = .send then x.unpark else x

/-- Whether two messages have one target: a core for SPAWN, else a thread (R247, R248). -/
def Msg.sameTarget (a b : Msg) : Bool :=
  if a.cls = .spawn then b.cls == .spawn && handleVcl a.target == handleVcl b.target && handleUnit a.target == handleUnit b.target
  else b.cls != .spawn && a.target == b.target

/-- A message that has to wait; a SPAWN takes its place among those that wait in the network. -/
def State.await (s : State) (m : Msg) : Msg × State :=
  if m.cls = .spawn ∧ m.waits = none then ({ m with waits := some s.sent }, { s with sent := s.sent + 1 }) else (m, s)

/-- The oldest message of a slot's send queue that need not wait arrives. waiting are the ones before the rest: none
behind one of them to the same target may pass it (log 45). -/
def State.deliverFrom (s : State) (idx : Nat) (waiting : List Msg) : List Msg → State
  | [] => s.modSlot idx fun x => { x with sendQ := waiting }
  | m :: r =>
    if waiting.any fun w => w.sameTarget m then s.deliverFrom idx (waiting ++ [m]) r
    else
      match if m.cls = .spawn then (s.spawn m, s) else s.arriveMsg m with
      | (some s', _) => s'.modSlot idx fun x => x.sent (waiting ++ r)
      | (none, s') =>
        let (m, s') := s'.await m
        s'.deliverFrom idx (waiting ++ [m]) r

/-- MESSAGE_DELIVERY. -/
def execMessageDelivery (idx : Nat) (s : State) : Host.Outcome State Fault Refusal :=
  .next (s.deliverFrom idx [] (s.slot idx).sendQ)

/-! ## Message instructions -/

/-- Whether a handle may be sent to (R247). -/
def State.sendable (s : State) (launch : Nat) (h : W64) (spawn : Bool) : Bool :=
  handleKind h == 0 && decide (handleVcl h < (s.launch launch).grid.length) && decide (handleUnit h ≤ 15)
    && (spawn || decide (handleSub h ≤ 14))

def lowWord (v : W64) : W32 := v.setWidth 32
def highWord (v : W64) : W32 := (v >>> 32).setWidth 32

/-- The four payload words in a2 and a3. -/
def Slot.payload (x : Slot) : List W32 :=
  [lowWord (x.xreg 12), highWord (x.xreg 12), lowWord (x.xreg 13), highWord (x.xreg 13)]

/-- A send: status 1, a park on a full queue, or the message in the queue. The sender's handle that the message carries is
its identity handle, which it can be answered at, also where ORIGIN names another party (R42, R248, R252; DEDUCED,
log 106). -/
def State.sendMsg (s : State) (k : Nat) (x : Slot) (rd : BitVec 5) (m : Msg) : Except KTrap State :=
  if s.sendable x.launchNo m.target (m.cls == .spawn) then
    if 4 ≤ x.sendQ.length then .ok (s.parkSlot k .send)
    else
      let s := s.drainStores k
      let x := s.slot k
      let m := { m with sent := s.sent, launch := x.launchNo, sender := x.handle }
      let s := { s with sent := s.sent + 1 }
      s.done k { x.setX rd 0 with sendQ := x.sendQ ++ [m] }
  else s.done k (x.setX rd 1)

def execXsend (t r d : BitVec 5) (s : State) : Host.Outcome State Fault Refusal :=
  slotInstr (.xsend t r d) s fun k x =>
    match (x.xreg t).toNat with
    | 0 => s.sendMsg k x d { cls := .data, target := x.xreg r, payload := x.payload }
    | 1 => s.sendMsg k x d { cls := .signal, target := x.xreg r, payload := x.payload }
    | _ => .error s.illegal

def execXspawnm (t r d : BitVec 5) (s : State) : Host.Outcome State Fault Refusal :=
  slotInstr (.xspawnm t r d) s fun k x =>
    if x.xreg t = 0 then
      s.sendMsg k x d { cls := .spawn, target := x.xreg r
                        payload := x.payload ++ [lowWord (x.xreg 14), highWord (x.xreg 14)] }
    else .error s.illegal

/-- The registers a received message fills. -/
def Slot.received (x : Slot) (m : Msg) : Slot :=
  ((x.setX 12 (m.words 0)).setX 13 (m.words 2)).setX 14 m.sender

/-- Entry k of an inbox ring, and the message it holds (R374). -/
def ringEntry (area k : Nat) : Nat := area + 0x318 + 24 * (k % 9)
def ringMsg (v : Nat) : Msg :=
  { payload := (List.range 4).map fun i => BitVec.ofNat 32 (v / 2 ^ (32 * i)), sender := BitVec.ofNat 64 (v / 2 ^ 128) }

/-- The core's own accesses to a context area, in the keeper's context and without a segment check. One that faults parks
or traps the slot whose instruction asks for it (log 30). -/
def State.areaRead (s : State) (k by_ va len : Nat) (f : Nat → State → Except KTrap State) : Except KTrap State :=
  let w := Who.mk (slotCluster k) (s.slot (keeperOf k)).launchNo pathLS none
  State.scalarDone by_ va 13 (s.readRange w va len true) f

def State.areaWrite (s : State) (k by_ va : Nat) (bs : List Byte) (f : State → Except KTrap State) : Except KTrap State :=
  let w := Who.mk (slotCluster k) (s.slot (keeperOf k)).launchNo pathLS none
  State.scalarDone by_ va 15 (s.writeRange w s.nextOp (some (swarmNo (slotCluster k))) .write va bs true) fun _ s => f s

/-- The ring entry RRD of a slot, taken with RRD advanced (R377): none when the slot is not in the ring state or the ring
is empty. -/
def State.popRing (s : State) (k : Nat) (f : Option Msg → State → Except KTrap State) : Except KTrap State :=
  let x := s.slot k
  let area := x.karea.toNat
  if x.ring && decide (area ≠ 0) then
    s.areaRead k k (area + 0x310) 8 fun v s =>
      let rrd := v % 2 ^ 32
      if rrd = v / 2 ^ 32 then f none s
      else
        s.areaRead k k (ringEntry area rrd) 24 fun e s =>
          s.areaWrite k k (area + 0x310) (toBytes 4 (rrd + 1)) fun s => f (some (ringMsg e)) s
  else f none s

/-- xrecv (R252): the oldest inbox entry, an acquire; with the on-chip entries taken, the ring's. -/
def execXrecv (d : BitVec 5) (s : State) : Host.Outcome State Fault Refusal :=
  slotInstr (.xrecv d) s fun k x =>
    if d = 12 ∨ d = 13 ∨ d = 14 then .error s.illegal
    else
      match x.inbox with
      | m :: r => (s.slotAcquire k).done k ({ x.received m with inbox := r }.setX d 1)
      | [] =>
        s.popRing k fun m s =>
          match m with
          | some m => (s.slotAcquire k).done k (((s.slot k).received m).setX d 1)
          | none => s.done k ({ s.slot k with ring := false }.setX d 0)

/-- xwait (R250). -/
def execXwait (r d : BitVec 5) (s : State) : Host.Outcome State Fault Refusal :=
  slotInstr (.xwait r d) s fun k x =>
    if lowWord (x.xreg r) = 0 then s.done k (x.setX d 0) else .ok (s.waitEvent k x (lowWord (x.xreg r)) d)

/-- xevt (R249). Bits 31 to 28 of the keeper's event word are the core's alone (R310). -/
def execXevt (r d : BitVec 5) (s : State) : Host.Outcome State Fault Refusal :=
  slotInstr (.xevt r d) s fun k x =>
    let own : W32 := if slotIndex k = 15 then 0x0FFFFFFF else 0xFFFFFFFF
    s.done k ({ x with events := x.events ||| (lowWord (x.xreg r) &&& own) }.setX d (x.events.setWidth 64))

/-- XWAIT_WAKE (R250). -/
def execXwaitWake (slot : Nat) (s : State) : Host.Outcome State Fault Refusal :=
  let x := s.slot slot
  match x.st, x.wait with
  | .waiting, .event m rd =>
    if x.events &&& m = 0 then .next s
    else .next (s.waitEvent slot x.unpark m (BitVec.ofNat 5 rd))
  | _, _ => .next s

/-! ## Yield and steal domain (R260) -/

/-- The end of the k-th own phase of a slot after a cycle. -/
def phaseEnd (clock index k : Nat) : Nat :=
  let wait := (index + 16 - clock % 16) % 16
  clock + (if wait = 0 then 16 else wait) + 16 * (k - 1) + 1

def execXyield (r : BitVec 5) (s : State) : Host.Outcome State Fault Refusal :=
  slotInstr (.xyield r) s fun k x =>
    let v := (x.xreg r).toNat
    if v < 2 ^ 16 then
      s.done k { x with notBefore := phaseEnd (s.clock (slotCluster k)) (slotIndex k) (Nat.max 1 v) }
    else .error s.illegal

/-- XYIELD_END. -/
def execXyieldEnd (slot : Nat) (s : State) : Host.Outcome State Fault Refusal :=
  let x := s.slot slot
  if x.notBefore ≤ s.clock (slotCluster slot) then .next (s.setSlot slot { x with notBefore := 0 }) else .next s

def execXsdom (r d : BitVec 5) (s : State) : Host.Outcome State Fault Refusal :=
  slotInstr (.xsdom r d) s fun k x =>
    let v := (x.xreg r).toNat
    if v < 4 then
      let dom : BitVec 2 := BitVec.ofNat 2 (Nat.min v (s.launch x.launchNo).sdom.toNat)
      s.done k ({ x with sdom := dom }.setX d (dom.setWidth 64))
    else .error s.illegal

/-! ## Timers and queues of the keeper (R310, R311, R318, R323, R324) -/

/-- XTIMER_EXPIRY: an armed deadline that TIME has reached. -/
def execXtimerExpiry (slot : Nat) (s : State) : Host.Outcome State Fault Refusal :=
  let x := s.slot slot
  if x.timer ≠ 0 ∧ x.timer.toNat ≤ s.time.toNat then
    let s := s.setSlot slot { x with timer := 0 }
    if slotIndex slot = 15 then .next (s.keeperEvent slot 0x40000000)
    else .next (s.stopSlot slot 29 0 false)
  else .next s

def execKpendClear (core : Nat) (v : W64) (s : State) : Host.Outcome State Fault Refusal :=
  .next (s.keeperWrite core 0x5C0 0 v)

def execSpillQueuePop (core : Nat) (s : State) : Host.Outcome State Fault Refusal := .next (s.popSpill core).2

def execPoisonQueuePop (cl : Nat) (s : State) : Host.Outcome State Fault Refusal := .next (s.popPoison cl).2

end Sys2Proof.Machine
end

