-- ==== Sys2Proof/Machine/Tasks.lean ====
section
/-! DEFINITION. Deques, task frames, ranges and steals (R24, R25, R253 to R259, R312, R430). -/

namespace Sys2Proof.Machine

/-! ## The spill ring of a deque (R253, R312)

Entries are counted from the far end: entry 0 is the oldest. The deque's launches in the ring are kept newest first. -/

def Core.deque (c : Core) (d : Nat) : List Frame := Tbl.get c.deques [] d
def Core.ringCount (c : Core) (d : Nat) : Nat := (Tbl.get c.dqcnt 0 d).toNat
def Core.ringLaunches (c : Core) (d : Nat) : List Nat := Tbl.get c.dqlaunch [] d
def Core.ringSize (c : Core) (d : Nat) : Nat :=
  let log := ((Tbl.get c.dqring 0 d) &&& 0x1F).toNat
  if log = 0 then 0 else 2 ^ log

/-- Where entry i of the ring lies. -/
def Core.ringAt (c : Core) (d i : Nat) : Nat :=
  ((Tbl.get c.dqring 0 d) &&& 0xFFFFFFFFFFFFF000).toNat + 32 * ((Tbl.get c.dqhead 0 d + i) % c.ringSize d)

def Core.setDeque (c : Core) (d : Nat) (l : List Frame) : Core := { c with deques := Tbl.set c.deques [] d l }

/-- The ring with n entries from position head on. -/
def Core.setRingState (c : Core) (d head n : Nat) (ls : List Nat) : Core :=
  { c with
    dqhead := Tbl.set c.dqhead 0 d (head % Nat.max 1 (c.ringSize d)), dqcnt := Tbl.set c.dqcnt 0 d (BitVec.ofNat 32 n)
    dqlaunch := Tbl.set c.dqlaunch [] d ls }

/-- The bytes of a ring entry. -/
def Frame.bytes (f : Frame) : List Byte :=
  toBytes 8 f.ptr.toNat ++ toBytes 4 f.fmt.toNat ++ toBytes 4 0 ++ toBytes 8 f.sclp.toNat ++ toBytes 8 0

/-- The frame that a ring entry names; an FMT or SCLP there that may not be stored counts as 0 (R54, R55). -/
def frameOf (v launch : Nat) : Frame :=
  Frame.mk (BitVec.ofNat 64 v) (installFmt 0 (BitVec.ofNat 32 (v / 2 ^ 64)))
    (installSclp 0 (BitVec.ofNat 64 (v / 2 ^ 128))) launch

/-- Whose access a ring access is: the context of a launch, on a cluster. -/
def ringWho (cl launch : Nat) : Who := Who.mk cl launch pathLS none

/-- A ring access that failed: what it ended in, its address and its cause (R312, R314). -/
structure RingFail where
  done : Done
  addr : Nat
  cause : BitVec 8
  deriving DecidableEq, Repr

/-- Whether n entries of the ring from entry i on can be accessed: the first one that cannot ends the operation before
anything changes, in a park on its page, or in a trap. -/
def State.ringSpan (s : State) (w : Who) (core d : Nat) (write : Bool) (i : Nat) : Nat → Option RingFail × State
  | 0 => (none, s)
  | n + 1 =>
    let va := (s.core core).ringAt d i
    let cause : BitVec 8 := if write then 15 else 13
    match s.piecesOf w (if write then .write else .read) true va 32 with
    | (.error p, s) => (some (RingFail.mk p.done va cause), s)
    | (.ok ps, s) =>
      if write then
        if s.linesFit w.launch (s.newLines ps) then s.ringSpan w core d write (i + 1) n
        else
          let (e, s) := s.parkFull w .write va
          (some (RingFail.mk e va cause), s)
      else if s.piecesPoisoned ps then (some (RingFail.mk .poisoned va cause), s)
      else s.ringSpan w core d write (i + 1) n

/-- Entry i of the ring. -/
def State.ringEntry (s : State) (w : Who) (core d i : Nat) : Frame :=
  let c := s.core core
  let l := (c.ringLaunches d).getD (c.ringCount d - 1 - i) 0
  match s.tryRead w.cl w.launch (c.ringAt d i) 32 with
  | some (v, _) => frameOf v l
  | none => frameOf 0 l

def State.putRingEntry (s : State) (w : Who) (core d i : Nat) (f : Frame) : State :=
  (s.tryWrite w.cl w.launch ((s.core core).ringAt d i) f.bytes).getD s

/-- n entries above i each move one place towards the far end. -/
def State.closeRing (s : State) (w : Who) (core d i : Nat) : Nat → State
  | 0 => s
  | n + 1 => (s.putRingEntry w core d i (s.ringEntry w core d (i + 1))).closeRing w core d (i + 1) n

/-- The ring without entry i. -/
def State.dropRingEntry (s : State) (w : Who) (core d i : Nat) : State :=
  let c := s.core core
  let n := c.ringCount d
  let ls := (c.ringLaunches d).eraseIdx (n - 1 - i)
  let head := Tbl.get c.dqhead 0 d
  if i = 0 then s.modCore core fun c => c.setRingState d (head + 1) (n - 1) ls
  else (s.closeRing w core d i (n - 1 - i)).modCore core fun c => c.setRingState d head (n - 1) ls

/-- Entry i taken out of the ring; the newer entries close up, unless it is the oldest. -/
def State.takeRing (s : State) (w : Who) (core d i : Nat) : Except RingFail Frame × State :=
  let moved := if i = 0 then 0 else (s.core core).ringCount d - 1 - i
  match s.ringSpan w core d false i (moved + 1) with
  | (some e, s) => (.error e, s)
  | (none, s) =>
    match s.ringSpan w core d true i moved with
    | (some e, s) => (.error e, s)
    | (none, s) => (.ok (s.ringEntry w core d i), s.dropRingEntry w core d i)

/-- The entries left on chip; when there are none, the newest entries of the ring come in. -/
def State.putOnChip (s : State) (w : Who) (core d : Nat) (rest : List Frame) : Option RingFail × State :=
  let c := s.core core
  let n := c.ringCount d
  if rest = [] ∧ 0 < n then
    let k := Nat.min 32 n
    match s.ringSpan w core d false (n - k) k with
    | (some e, s) => (some e, s)
    | (none, s) =>
      let l := (List.range k).map fun j => s.ringEntry w core d (n - 1 - j)
      (none, s.modCore core fun c =>
        (c.setDeque d l).setRingState d (Tbl.get c.dqhead 0 d) (n - k) ((c.ringLaunches d).drop k))
  else (none, s.setCore core (c.setDeque d rest))

/-! ## Pushes (R253, R254) -/

/-- What a push ends in. -/
inductive Pushed where
  | done
  | full
  | failed (e : RingFail)
  deriving DecidableEq, Repr

/-- A push to a deque of a core ends the parks in xjoin there (R259). -/
def Slot.seePush (x : Slot) : Slot :=
  match x.wait with
  | .join key _ => { x with wait := .join key true }
  | _ => x

def State.seePush (s : State) (core : Nat) : State :=
  { s with slots := s.slots.map fun e => (e.1, if slotCore e.1 = core then e.2.seePush else e.2) }

/-- A push at the near end; the oldest of 32 on-chip entries goes to the ring. -/
def State.push (s : State) (core d : Nat) (f : Frame) : Pushed × State :=
  let c := s.core core
  let on := c.deque d
  if on.length < 32 then (.done, (s.setCore core (c.setDeque d (f :: on))).seePush core)
  else if c.ringSize d ≤ c.ringCount d then (.full, s)
  else
    let n := c.ringCount d
    let w := ringWho (core / 16) f.launch
    match s.ringSpan w core d true n 1 with
    | (none, s) =>
      let old := on.getLastD f
      let s := s.putRingEntry w core d n old
      let s := s.modCore core fun c =>
        (c.setDeque d (f :: on.dropLast)).setRingState d (Tbl.get c.dqhead 0 d) (n + 1) (old.launch :: c.ringLaunches d)
      (.done, s.seePush core)
    | (some e, s) => (.failed e, s)

/-! ## Pops (R253, R255, R430) -/

/-- Whether an entry is one that a party may take: of one launch, or any. -/
def wants (launch : Option Nat) (l : Nat) : Bool := launch.all fun w => w == l

def Core.holds (c : Core) (launch : Option Nat) (d : Nat) : Bool :=
  ((c.deque d).any fun f => wants launch f.launch) || (c.ringLaunches d).any fun l => wants launch l

/-- The near-most entry of a deque that a party may take, without it. -/
def State.popFrom (s : State) (core launchOf d : Nat) (launch : Option Nat) : Except RingFail (Option Frame) × State :=
  let c := s.core core
  let w := ringWho (core / 16) launchOf
  match (c.deque d).find? fun f => wants launch f.launch with
  | some f =>
    match s.putOnChip w core d ((c.deque d).erase f) with
    | (none, s) => (.ok (some f), s)
    | (some e, s) => (.error e, s)
  | none =>
    match (c.ringLaunches d).findIdx? fun l => wants launch l with
    | some j =>
      match s.takeRing w core d (c.ringCount d - 1 - j) with
      | (.ok f, s) => (.ok (some f), s)
      | (.error e, s) => (.error e, s)
    | none => (.ok none, s)

/-- The near-end pop of a core's deques of priorities 0 to p, the highest priority first. -/
def State.pop (s : State) (core launchOf p : Nat) (launch : Option Nat) : Except RingFail (Option Frame) × State :=
  match (List.range (p + 1)).find? fun d => (s.core core).holds launch d with
  | some d => s.popFrom core launchOf d launch
  | none => (.ok none, s)

/-! ## Frames (R24) -/

/-- What reading a frame gives. -/
inductive FrameRead where
  | words (v : Nat)
  | rejected (code : BitVec 8)
  | park (token : Nat)
  | stall
  deriving DecidableEq, Repr

/-- The 64 bytes of a frame, read by a slot in the frame's launch, checked against that launch's scalar segments. -/
def State.readFrame (s : State) (k : Nat) (f : Frame) : FrameRead × State :=
  let l := s.launch f.launch
  match checkSearch l f.launch l.scalarSegs needRead f.ptr.toNat 64 64 with
  | (.ok, lo) =>
    match s.readRange (Who.mk (slotCluster k) f.launch pathLS (some k)) f.ptr.toNat 64 lo with
    | (.value v, s) => (.words v, s)
    | (.park t, s) => (.park t, s)
    | (.stall, s) => (.stall, s)
    | (.fail, s) => (.rejected 13, s)
    | (.poisoned, s) => (.rejected 27, s)
  | _ => (.rejected 24, s)

def frameWord (v i : Nat) : W64 := BitVec.ofNat 64 (v / 2 ^ (64 * i))
def frameKind (v : Nat) : Nat := v % 256
def frameSel (v : Nat) : Nat := bits v 10 8

/-- A header with a KIND of 1 or 2 and its reserved bits zero. -/
def frameOk (v : Nat) : Bool := (frameKind v == 1 || frameKind v == 2) && bits v 63 11 == 0

/-- The range that a RANGE frame describes. -/
def rangeOf (f : Frame) (v : Nat) : Range :=
  { frame := f, head := frameWord v 0, body := frameWord v 1, lo := frameWord v 2, hi := frameWord v 3
    grain := frameWord v 4, args := [frameWord v 5, frameWord v 6, frameWord v 7] }

/-- The format of a frame's thread (R24, R56). -/
def State.frameFormat (s : State) (f : Frame) (v : Nat) : W32 × W64 :=
  if frameSel v = 0 then (f.fmt, f.sclp) else (s.launch f.launch).format (frameSel v)

/-- A slot that traps at dispatch: a context formed under steps 1 and 2 of R22. -/
def State.rejectFrame (s : State) (k : Nat) (f : Frame) (code : BitVec 8) (pc : W64) : State :=
  (s.launchThread k f.launch pc [] ((s.launch f.launch).format 0)).keeperTrap k code f.ptr

/-- Dispatch of a frame into a FREE slot (R24, R256). None while the read is held at the translation port (R361): the
frame is not taken yet. A RANGE frame with a chunk becomes the slot's current range, and its thread begins with the claim
that a thread at the retire address makes. -/
def State.dispatch (s : State) (k : Nat) (f : Frame) : Option State :=
  match s.readFrame k f with
  | (.words v, s) =>
    if frameOk v then
      if frameKind v = 1 then
        let args := argRegs [frameWord v 2, frameWord v 3, frameWord v 4, frameWord v 5, frameWord v 6, frameWord v 7, f.ptr]
        some ((s.launchThread k f.launch (frameWord v 1) args (s.frameFormat f v)).slotAcquire k)
      else
        let r := rangeOf f v
        if 1 ≤ r.chunks then
          let s := s.launchThread k f.launch Config.retireAddress [] (s.frameFormat f v)
          some (((s.modSlot k fun x => { x with range := some r }).slotAcquire k).retireThread k)
        else some s
    else some (s.rejectFrame k f 2 (frameWord v 1))
  | (.rejected code, s) => some (s.rejectFrame k f code 0)
  | (.park t, s) =>
    some ((s.launchThread k f.launch 0 [] ((s.launch f.launch).format 0)).modSlot k fun x =>
      { x with st := .parked, wait := .dispatch f t })
  | (.stall, _) => none

/-- A frame that a slot holds parked is dispatched once its fault is resolved: into the slot as it was, FREE, and so it is
again after a frame without chunks. A stop that came meanwhile waits for the thread (R318). -/
def State.redispatch (s : State) (k : Nat) (f : Frame) : State :=
  let x := s.slot k
  match (s.setSlot k { x.freed with seq := x.seq - 1 }).dispatch k f with
  | some s => s.modSlot k fun y => if y.st = .free then y else { y with stop := x.stop }
  | none => s

/-- Whether the group of a token is in a replay table. -/
def State.waitsOnGroup (s : State) (token : Nat) : Bool := s.clusters.any fun e => e.2.replay.any fun g => g.token == token

/-! ## Steals (R258) -/

/-- The two sides of the own cluster's ring of cores at distance k, nearer numbers first. -/
def ownVictims (c : Nat) : List Nat :=
  (List.range 8).flatMap fun j =>
    let k := j + 1
    if k = 8 then [(c + 8) % 16] else [(c + k) % 16, (c + 16 - k) % 16]

/-- The clusters of a virtual die by Manhattan distance from (x, y), lower index first. -/
def nearClusters (l : Launch) (vd x y : Nat) : List Nat :=
  let n := l.gridW * l.gridH
  (List.range 16).flatMap fun dist =>
    (List.range n).filterMap fun i =>
      let cx := i % l.gridW
      let cy := i / l.gridW
      if (cx - x) + (x - cx) + (cy - y) + (y - cy) = dist then some (vd * n + i) else none

/-- The victim cores of a steal, by physical core number, in order. -/
def State.victims (s : State) (launch core dom : Nat) : List Nat :=
  let l := s.launch launch
  let cl := core / 16
  let v := l.vcl cl
  let n := Nat.max 1 (l.gridW * l.gridH)
  let vd := v / n
  let x := v % n % Nat.max 1 l.gridW
  let y := v % n / Nat.max 1 l.gridW
  let coresOf (c : Nat) : List Nat := (List.range 16).map fun i => l.grid.getD c 0 * 16 + i
  let own := if 1 ≤ dom then (ownVictims (core % 16)).map fun c => cl * 16 + c else []
  let die := if 2 ≤ dom then ((nearClusters l vd x y).filter fun c => c != v).flatMap coresOf else []
  let far := if 3 ≤ dom then
      (List.range (l.gridD - 1)).flatMap fun j => (nearClusters l ((vd + j + 1) % l.gridD) x y).flatMap coresOf
    else []
  own ++ die ++ far

/-- A copy of a range from its split point on, in the thief's steal frame; then the victim's range is cut. None when
either cannot be written, or meets poisoned data: then neither is. -/
def State.splitInto (s : State) (k : Nat) (area : W64) (r : Range) : Option (Range × State) :=
  let copy := { r with lo := r.split }
  let left := { r with hi := r.split }
  let cl := slotCluster k
  (s.tryWriteClean cl r.frame.launch area.toNat copy.bytes).bind fun s =>
    (s.tryWriteClean cl r.frame.launch r.boundsAt left.bounds).map fun s => (left, s)

/-- What one victim core gives. -/
inductive Theft where
  | frame (f : Frame)
  | nothing
  | failed (e : RingFail)
  deriving DecidableEq, Repr

/-- The far-most entry of a launch on a deque, as an index counted from the far end. -/
def Core.farEntry (c : Core) (launch d : Nat) : Option Nat :=
  ((c.ringLaunches d).reverse ++ ((c.deque d).map fun f => f.launch).reverse).findIdx? fun l => l == launch

/-- The entry at an index counted from the far end. -/
def State.readFar (s : State) (w : Who) (core d i : Nat) : Except RingFail Frame × State :=
  let c := s.core core
  let n := c.ringCount d
  if i < n then
    match s.ringSpan w core d false i 1 with
    | (some e, s) => (.error e, s)
    | (none, s) => (.ok (s.ringEntry w core d i), s)
  else (.ok ((c.deque d).reverse.getD (i - n) {}), s)

/-- That entry taken. -/
def State.takeFar (s : State) (w : Who) (core d i : Nat) (f : Frame) : Theft × State :=
  let c := s.core core
  let n := c.ringCount d
  if i < n then
    match s.takeRing w core d i with
    | (.ok f, s) => (.frame f, s)
    | (.error e, s) => (.failed e, s)
  else
    match s.putOnChip w core d ((c.deque d).eraseIdx ((c.deque d).length - 1 - (i - n))) with
    | (none, s) => (.frame f, s)
    | (some e, s) => (.failed e, s)

/-- A steal from a deque entry, in the context of the thief's launch. A frame that the thief cannot read shows no chunks
and is taken whole: its dispatch or its new owner meets the fault (R25; DESIGN CHOICE, log 110). -/
def State.stealEntry (s : State) (k core launch d i : Nat) : Theft × State :=
  let w := ringWho (slotCluster k) launch
  match s.readFar w core d i with
  | (.error e, s) => (.failed e, s)
  | (.ok f, s) =>
    match s.tryRead (slotCluster k) launch f.ptr.toNat 64 with
    | none => s.takeFar w core d i f
    | some (v, s') =>
      let r := rangeOf f v
      if frameOk v && frameKind v == 2 && decide (2 ≤ r.chunks) then
        let area := (s.slot k).ksteal
        if area = 0 then (.nothing, s) else
        match s'.splitInto k area r with
        | none => (.nothing, s)
        | some (_, s'') => (.frame { f with ptr := area }, s'')
      else s.takeFar w core d i f

/-- A steal from a current range. -/
def State.stealRange (s : State) (k victim : Nat) (r : Range) : Theft × State :=
  let area := (s.slot k).ksteal
  if area = 0 then (.nothing, s) else
  match s.splitInto k area r with
  | none => (.nothing, s)
  | some (left, s') => (.frame { r.frame with ptr := area }, s'.modSlot victim fun x => { x with range := some left })

/-- The first slot of a core whose current range a launch may split. -/
def State.rangeVictim (s : State) (core launch : Nat) : Option (Nat × Range) :=
  ((List.range 15).map fun i => core * 16 + i).findSome? fun k =>
    match (s.slot k).range with
    | some r => if r.frame.launch = launch ∧ 2 ≤ r.chunks then some (k, r) else none
    | none => none

/-- The probe of one victim core. -/
def State.probe (s : State) (k core launch : Nat) : Theft × State :=
  match (List.range 4).find? fun d => (s.core core).holds (some launch) d with
  | some d =>
    match (s.core core).farEntry launch d with
    | some i => s.stealEntry k core launch d i
    | none => (.nothing, s)
  | none =>
    match s.rangeVictim core launch with
    | some (v, r) => s.stealRange k v r
    | none => (.nothing, s)

/-- One steal: the first victim that yields a frame. -/
def State.steal (s : State) (k launch : Nat) : List Nat → Theft × State
  | [] => (.nothing, s)
  | c :: r =>
    match s.probe k c launch with
    | (.nothing, s) => s.steal k launch r
    | x => x

/-! ## Instructions -/

/-- A ring access of a thread that met a page fault parks it or traps it like an access (R312). -/
def State.ringFault (s : State) (k : Nat) (e : RingFail) : Except KTrap State :=
  State.scalarDone k e.addr e.cause (e.done, s) fun _ s => .ok s

/-- The end of a push: status 0, or 1 when the ring is full. -/
def State.pushDone (k : Nat) (rd : BitVec 5) (r : Pushed × State) : Except KTrap State :=
  match r with
  | (.done, s) => s.done k ((s.slot k).setX rd 0)
  | (.full, s) => s.done k ((s.slot k).setX rd 1)
  | (.failed e, s) => s.ringFault k e

/-- The frame that a thread pushes (R56, R430). -/
def Slot.frame (x : Slot) (ptr : W64) : Frame := Frame.mk ptr x.fmt x.sclp x.launchNo

/-- Operands of a push: the deque, and a 64-byte-aligned frame. -/
def pushOperands (s : State) (x : Slot) (t r : BitVec 5) (f : Nat → Except KTrap State) : Except KTrap State :=
  if 4 ≤ (x.xreg t).toNat then .error s.illegal
  else if (x.xreg r).toNat % 64 ≠ 0 then .error (KTrap.mk 6 (x.xreg r))
  else f (x.xreg t).toNat

def execXspawn (t r d : BitVec 5) (s : State) : Host.Outcome State Fault Refusal :=
  slotInstr (.xspawn t r d) s fun k x =>
    pushOperands s x t r fun q =>
      let s := s.drainStores k
      State.pushDone k d (s.push (slotCore k) q (x.frame (x.xreg r)))

def execXrange (t r d : BitVec 5) (s : State) : Host.Outcome State Fault Refusal :=
  slotInstr (.xrange t r d) s fun k x =>
    pushOperands s x t r fun q =>
      s.scalarRead k x needRead (x.xreg r).toNat 64 64 fun v s =>
        let f := x.frame (x.xreg r)
        if frameOk v && frameKind v == 2 then
          if (rangeOf f v).chunks = 0 then s.done k (x.setX d 2)
          else
            let s := s.drainStores k
            State.pushDone k d (s.push (slotCore k) q f)
        else .error s.illegal

/-- xpop (R255): an acquire when it returns a frame. -/
def execXpop (r d : BitVec 5) (s : State) : Host.Outcome State Fault Refusal :=
  slotInstr (.xpop r d) s fun k x =>
    if 4 ≤ (x.xreg r).toNat then .error s.illegal
    else
      match s.pop (slotCore k) x.launchNo (x.xreg r).toNat (some x.launchNo) with
      | (.ok (some f), s) => (s.slotAcquire k).done k (x.setX d f.ptr)
      | (.ok none, s) => s.done k (x.setX d 0)
      | (.error e, s) => s.ringFault k e

/-- xsplit (R257). Its operands are checked before the cases that it answers with a status, which R257 does not order
(DEDUCED, log 123). Both writes have to be possible before either is made. -/
def execXsplit (t r d : BitVec 5) (s : State) : Host.Outcome State Fault Refusal :=
  slotInstr (.xsplit t r d) s fun k x =>
    pushOperands s x t r fun q =>
      match x.range with
      | none => s.done k (x.setX d 2)
      | some g =>
        if g.chunks < 2 then s.done k (x.setX d 2)
        else
          let c := s.core (slotCore k)
          let full := decide (32 ≤ (c.deque q).length)
          if full && decide (c.ringSize q ≤ c.ringCount q) then s.done k (x.setX d 1)
          else
            match s.ringSpan (ringWho (slotCluster k) x.launchNo) (slotCore k) q true (c.ringCount q) full.toNat with
            | (none, s) =>
              let left := { g with hi := g.split }
              let cut (s : State) := State.scalarDone k left.boundsAt 15 (s.putBounds (slotCluster k) left)
              cut s fun _ _ =>
                s.scalarWrite k x needWrite (x.xreg r).toNat 64 { g with lo := g.split }.bytes fun s =>
                  cut s fun _ s =>
                    let s := s.modSlot k fun x => { x with range := some left }
                    State.pushDone k d (s.push (slotCore k) q (x.frame (x.xreg r)))
            | (some e, s) => s.ringFault k e

/-- xsteal (R258). -/
def execXsteal (d : BitVec 5) (s : State) : Host.Outcome State Fault Refusal :=
  slotInstr (.xsteal d) s fun k x =>
    match s.steal k x.launchNo (s.victims x.launchNo (slotCore k) x.sdom.toNat) with
    | (.frame f, s) => (s.slotAcquire k).done k ((s.slot k).setX d f.ptr)
    | (.nothing, s) => s.done k (x.setX d 0)
    | (.failed e, s) => s.ringFault k e

/-- The pops and the steal of xjoin, and its park. -/
def State.joinTake (s : State) (k : Nat) (x : Slot) (rd : BitVec 5) (key : Nat) : Except KTrap State :=
  match s.pop (slotCore k) x.launchNo 3 (some x.launchNo) with
  | (.ok (some f), s) => (s.slotAcquire k).done k (x.setX rd f.ptr)
  | (.error e, s) => s.ringFault k e
  | (.ok none, s) =>
    match s.steal k x.launchNo (s.victims x.launchNo (slotCore k) x.sdom.toNat) with
    | (.frame f, s) => (s.slotAcquire k).done k ((s.slot k).setX rd f.ptr)
    | (.failed e, s) => s.ringFault k e
    | (.nothing, s) => .ok (s.parkSlot k (.join key false))

/-- xjoin (R259). -/
def execXjoin (r d : BitVec 5) (s : State) : Host.Outcome State Fault Refusal :=
  slotInstr (.xjoin r d) s fun k x =>
    let va := (x.xreg r).toNat
    s.scalarRead k x needRead va 8 8 fun v s =>
      let s := (s.slotAcquire k).noteRead k x va 8 true
      let x := s.slot k
      if v = 0 then s.done k (x.setX d 0)
      else
        match s.piecesOf (slotWho k x) .read true va 8 with
        | (.ok (p :: _), s) => s.joinTake k x d p.key
        | (_, s) => .ok s

/-- XJOIN_WAKE: a thread whose park in xjoin is over tries again. -/
def execXjoinWake (slot : Nat) (s : State) : Host.Outcome State Fault Refusal :=
  match (s.slot slot).wait with
  | .join _ true => .next (s.modSlot slot Slot.unpark)
  | _ => .next s

/-! ## Dispatch (R256, R430, R431) -/

/-- The SPAWNs that wait in the network for a core (log 45). -/
def State.waitingSpawns (s : State) (core : Nat) : List (Nat × Msg) :=
  s.slots.flatMap fun e =>
    (e.2.sendQ.filter fun m => m.cls == .spawn && m.waits.isSome && s.spawnCore m == core).map fun m => (e.1, m)

/-- The teams of a cluster whose leave has lanes left, the oldest first. -/
def State.waitingLeaves (s : State) (cl : Nat) : List (Nat × Team) :=
  s.teams.filter fun e => e.2.cl == cl &&
    match e.2.wait with
    | .leave _ _ => true
    | _ => false

/-- Whether work that R431 places before frames waits for a slot. -/
def State.earlierWork (s : State) (k : Nat) : Bool :=
  (s.cluster (slotCluster k)).pendThreads != [] || s.waitingSpawns (slotCore k) != []
    || s.waitingLeaves (slotCluster k) != []

/-- Whether a slot may take a frame (R256). -/
def State.takesFrames (s : State) (k : Nat) : Bool :=
  let x := s.slot k
  decide (slotIndex k < 15) && x.st == .free && x.opened && !x.reserved && !s.earlierWork k
    && !s.quiesced (s.cluster (slotCluster k)).part

/-- Whether a group waits that a token names, in state s: a FREE slot whose ring access parks joins no group twice. -/
def Done.waitsIn (e : Done) (s : State) : Bool :=
  match e with
  | .park t => s.waitsOnGroup t
  | _ => false

/-- A FREE slot whose ring access failed: the group and the record of a page fault stand, and the slot looks again. -/
def State.afterFail (s : State) (e : RingFail) (s' : State) : State := if e.done.waitsIn s then s else s'

/-- The near-end entry of the core's own deques, whatever its launch, goes to a slot that takes frames. Its launch is the
context of the accesses that the pop makes (DEDUCED, log 110). -/
def State.takeFrame (s : State) (slot : Nat) : State :=
  if s.takesFrames slot then
    let core := slotCore slot
    let launchOf := match (List.range 4).find? fun d => (s.core core).holds none d with
      | some d => (((s.core core).deque d).map fun f => f.launch).headD (((s.core core).ringLaunches d).headD 0)
      | none => 0
    match s.pop core launchOf 3 none with
    | (.ok (some f), s') => (s'.dispatch slot f).getD s
    | (.ok none, s') => s'
    | (.error e, s') => s.afterFail e s'
  else s

/-- FRAME_DISPATCH: a frame that the slot holds and whose fault is resolved, or the next one of the core's deques. -/
def execFrameDispatch (slot : Nat) (s : State) : Host.Outcome State Fault Refusal :=
  match (s.slot slot).wait with
  | .dispatch f n => .next (if s.waitsOnGroup n then s else s.redispatch slot f)
  | _ => .next (s.takeFrame slot)

/-- The resident launch that a FREE slot steals for next (R430): its context slot and number. -/
def Cluster.nextSteal (c : Cluster) (after : Nat) : Option (Nat × Nat) :=
  ((List.range 4).map fun j => (after + 1 + j) % 4).findSome? fun i => (Tbl.find? c.ctx i).map fun l => (i, l)

/-- STEAL_PROBE: one steal for the next resident launch. -/
def execStealProbe (slot : Nat) (s : State) : Host.Outcome State Fault Refusal :=
  let core := slotCore slot
  if s.takesFrames slot && !((List.range 4).any fun d => (s.core core).holds none d) then
    match (s.cluster (slotCluster slot)).nextSteal (s.slot slot).stealCtx with
    | none => .next s
    | some (i, launch) =>
      let s := s.modSlot slot fun x => { x with stealCtx := i }
      match s.steal slot launch (s.victims launch core (s.launch launch).sdom.toNat) with
      | (.frame f, s') => .next ((s'.dispatch slot f).getD s)
      | (.nothing, s') => .next s'
      | (.failed e, s') => .next (s.afterFail e s')
  else .next s

end Sys2Proof.Machine
end

