-- ==== Sys2Proof/Machine/Discard.lean ====
section
/-! DEFINITION. Discard and cache maintenance, for lanes and threads (R176, R263, R264, R281). -/

namespace Sys2Proof.Machine

/-- The buffered stores into a line are performed before the line is freed: it does not end unallocated with the bytes
of a store (R282; DEDUCED, log 99). -/
def State.settleLine (s : State) (k : Nat) : State :=
  s.performStores (s.ops.filter fun e => storeMeets [Piece.mk k 0 256 false false none] e.2)

/-- A lodged line returns to unallocated (R281): its charge is released, its bytes read zero, its copies and its
poison are gone. Reservations in it end, but that of the thread that discards it (R241). -/
def State.freeLine (s : State) (self : Option Nat) (k : Nat) : State :=
  let s := (s.settleLine k).breakResv self k 256
  let s := s.dropVeils fun c => keyBlock 256 c == k
  let s := { s with lines := Tbl.erase s.lines k, mem := s.mem.filter fun c => keyBlock 256 c.1 != k }
  (s.dropBlock 256 k).setPoison k false

/-- Discard line by line: whole lodged lines are freed, everything else is written with zeros. The answer names the
address at which it cannot go on. -/
def State.discardPart (s : State) (w : Who) (op : Nat) (own : Option Nat) (lodged : Bool) (va len n : Nat) :
    Except Nat State :=
  match n with
  | 0 => .ok s
  | m + 1 =>
    if len = 0 then .ok s else
    let here := Nat.min len (256 - va % 256)
    let r : Done × State :=
      if here = 256 then
        match s.place w va here .write lodged with
        | (.at_ p, s') =>
          if keyKind p.key = 2 then (.value 0, (s'.dirty w.cl [p]).freeLine w.self p.key)
          else s'.writeRange w op own .write va (List.replicate here 0) lodged
        | (p, s') => (p.done, s')
      else s.writeRange w op own .write va (List.replicate here 0) lodged
    match r with
    | (.value _, s) => s.discardPart w op own lodged (va + here) (len - here) m
    | _ => .error va

/-- Discard of a range: no byte changes where a page of it cannot be reached, or where a line that it has to allocate
does not fit the reservation (R168, R281). -/
def State.discardRange (s : State) (w : Who) (op : Nat) (own : Option Nat) (lodged : Bool) (va len : Nat) :
    Done × State :=
  match s.piecesOf w .write lodged va len with
  | (.error p, s) => (p.done, s)
  | (.ok _, s) =>
    match s.discardPart w op own lodged va len (len / 256 + 2) with
    | .ok s => (.value 0, s)
    | .error at_ => s.parkFull w .write at_

/-- The caches that a predicate names drop their copies of a 256-byte line. -/
def State.dropLine (s : State) (inScope : Nat → Bool) (k : Nat) : State :=
  { s with caches := s.caches.map fun e =>
      if inScope e.1 then (e.1, e.2.filter fun c => keyBlock 256 c.1 != keyBlock 256 k) else e }

/-- The L1s that cmaint acts on (R176). -/
def l1Scope (own cl scope cache : Nat) : Bool :=
  decide (cacheUnit cache < 4) &&
    (if scope < 2 then cache == own
     else if scope = 2 then cacheCluster cache == cl
     else if scope = 3 then dieOf (cacheCluster cache) == dieOf cl
     else true)

/-- The caches that xcmaint acts on (R264). -/
def swarmScope (cl scope cache : Nat) : Bool :=
  if scope < 3 then cache == swarmNo cl
  else decide (cacheUnit cache < 5) && (scope != 3 || dieOf (cacheCluster cache) == dieOf cl)

end Sys2Proof.Machine
end

