-- ==== Sys2Proof/Machine/Xmem.lean ====
section
/-! DEFINITION. The Xaelain memory, segment, format and special-register instructions (R261 to R269). -/

namespace Sys2Proof.Machine

/-! ## Full/empty words (R261) -/

/-- The key of a full/empty word of a thread, its own earlier stores to the word performed (R287, R293); an address
outside the windows is a segment violation. -/
def State.feKey (s : State) (k : Nat) (x : Slot) (va : Nat) (mis : BitVec 8) (f : Nat → State → Except KTrap State) :
    Except KTrap State :=
  s.scalarCheck x needBoth va 8 8 mis fun _ =>
    match inWindows va, (s.launch x.launchNo).windowKey x.launchNo va with
    | true, some key => f key (s.drainMeeting k [Piece.mk key va 8 false false none])
    | _, _ => .error (KTrap.mk 24 (BitVec.ofNat 64 va))

/-- A word read by a full/empty operation: every LS reader has seen what is taken (R274). -/
def State.takeFe (s : State) (self : Option Nat) (key : Nat) : Nat × State :=
  let s := s.liftKeys pathLS (Tbl.keys (cellsAt key (toBytes 8 0)))
  (s.readKey key 8, (s.breakResv self key 8).setFull key false)

/-- A word written by a full/empty operation, a release at system scope (R289, R296). -/
def State.fillFe (s : State) (self : Option Nat) (key v : Nat) : State :=
  let s := (s.releaseHost 5).breakResv self key 8
  ((s.putBytes pathLS 0 key (toBytes 8 v)).setPoison key false).setFull key true

/-- The take of a full word: an acquire that observes the copies of its past phases (R292). -/
def State.feTake (s : State) (k : Nat) (x : Slot) (key : Nat) (rd : BitVec 5) : State :=
  let (v, s) := s.takeFe (some k) key
  (s.slotAcquire k).retireSlot k
    { x.setX rd (BitVec.ofNat 64 v) with observed := x.observed ++ Tbl.get s.phases [] key }

/-- The fill of an empty word. -/
def State.feFill (s : State) (k : Nat) (x : Slot) (key : Nat) (v : W64) : State :=
  (s.fillFe (some k) key v.toNat).retireSlot k x

/-- A wait that begins. -/
def State.feWait (s : State) (k : Nat) (op : FeOp) (va : Nat) : State :=
  { s.parkSlot k (.fe op (BitVec.ofNat 64 va) (s.feUntil (slotCluster k)) s.nextOp) with nextOp := s.nextOp + 1 }

/-- Whether a request waits for a word to be in a state, FULL or EMPTY, that reached the local store before a place, or at all
(R274). -/
def State.feAhead (s : State) (key : Nat) (load : Bool) (before : Option Nat) : Bool :=
  let first (n : Nat) : Bool := before.all fun b => decide (n < b)
  (s.ops.any fun e =>
    match e.2.kind, e.2.party with
    | .mem op _ _ us, .team t =>
      ((op == .ldFe && load) || (op == .stFe && !load)) && e.2.places.any fun p =>
        e.2.todo.contains p.1 && first p.2
          && (s.launch (s.team t).launch).windowKey (s.team t).launch ((us.getD p.1 (Unit1.mk 0 0 0 0 false)).addr.toNat) == some key
    | _, _ => false)
  || s.slots.any fun e =>
    match e.2.wait with
    | .fe op va _ order =>
      (match op with | .load _ => load | .store _ => !load) && first order
        && (s.launch e.2.launchNo).windowKey e.2.launchNo va.toNat == some key
    | _ => false

def execXldfe (r d : BitVec 5) (s : State) : Host.Outcome State Fault Refusal :=
  slotInstr (.xldfe r d) s fun k x =>
    let va := (x.xreg r).toNat
    s.feKey k x va 4 fun key s =>
      if s.isFull key && !s.feAhead key true none then
        if s.isPoisoned key then .error (KTrap.mk 27 (x.xreg r)) else .ok (s.feTake k x key d)
      else .ok (s.feWait k (.load d.toNat) va)

def execXstfe (t r : BitVec 5) (s : State) : Host.Outcome State Fault Refusal :=
  slotInstr (.xstfe t r) s fun k x =>
    let va := (x.xreg r).toNat
    s.feKey k x va 6 fun key s =>
      let s := s.drainStores k
      if !s.isFull key && !s.feAhead key false none then .ok (s.feFill k (s.slot k) key (x.xreg t))
      else .ok (s.feWait k (.store (x.xreg t)) va)

def execXfeset (t r : BitVec 5) (s : State) : Host.Outcome State Fault Refusal :=
  slotInstr (.xfeset t r) s fun k x =>
    if 2 ≤ (x.xreg t).toNat then .error s.illegal
    else s.feKey k x (x.xreg r).toNat 6 fun key s => s.done k x |>.map fun s => s.changeFull (some k) key (x.xreg t == 1)

/-! ## Acquire, release, discard, maintenance (R262 to R265) -/

def execXlda (e : BitVec 3) (z : BitVec 2) (r d : BitVec 5) (s : State) : Host.Outcome State Fault Refusal :=
  slotInstr (.xlda e z r d) s fun k x =>
    let n := 2 ^ z.toNat
    let va := (x.xreg r).toNat
    s.scalarRead k x needRead va n n fun v s =>
      let s := (s.acquireIf k (2 ≤ e.toNat)).noteRead k x va n (2 ≤ e.toNat)
      s.done k ((s.slot k).setX d (BitVec.ofNat 64 v))

def execXstr (t r : BitVec 5) (e : BitVec 3) (z : BitVec 2) (s : State) : Host.Outcome State Fault Refusal :=
  slotInstr (.xstr t r e z) s fun k x =>
    let n := 2 ^ z.toNat
    (if 5 ≤ e.toNat then (s.drainStores k).releaseHost e.toNat else s).scalarWrite k x needWrite (x.xreg r).toNat n
      (toBytes n (x.xreg t).toNat) fun s => s.done k x

def execXdiscard (t r : BitVec 5) (s : State) : Host.Outcome State Fault Refusal :=
  slotInstr (.xdiscard t r) s fun k x =>
    let va := (x.xreg r).toNat
    let len := (x.xreg t).toNat
    if len = 0 then s.done k x
    else s.scalarCheck x needWrite va len 1 6 fun l =>
      let s := s.drainStores k
      State.scalarDone k va 15
        (s.discardRange (slotWho k x) s.nextOp (some (swarmNo (slotCluster k))) l va len) fun _ s => s.done k x

def execXcmaint (o : BitVec 2) (e : BitVec 3) (r : BitVec 5) (s : State) : Host.Outcome State Fault Refusal :=
  slotInstr (.xcmaint o e r) s fun k x =>
    let va := (x.xreg r).toNat
    s.scalarCheck x needRead va 256 256 6 fun l =>
      match s.place (slotWho k x) va 256 .read l with
      | (.at_ p, s) =>
        let s := if o = 0 then s else s.dropLine (swarmScope (slotCluster k) e.toNat) p.key
        s.done k x
      | (p, s) => State.scalarDone k va 13 (p.done, s) fun _ s => .ok s

/-- xfence (R265). From the NI path it waits until the messages that the thread has sent are delivered (R286). -/
def execXfence (f g c : BitVec 3) (s : State) : Host.Outcome State Fault Refusal :=
  slotInstr (.xfence f g c) s fun k x =>
    if pathIn f.toNat pathNI && x.sendQ != [] then .ok s else
    let acquires := pathIn g.toNat pathLS && decide (2 ≤ c.toNat)
    let s := if pathIn f.toNat pathLS then (s.drainStores k).releaseHost c.toNat else s
    let s := if acquires && pathIn f.toNat pathLS then s.observeReads k else s
    let s := (s.fenceReveal f.toNat g.toNat c.toNat (s.slot k).observed).fenceNodes (slotCluster k) g.toNat c.toNat
    let s := if acquires then s.slotAcquire k else s
    s.done k (s.slot k)

/-! ## Segments (R266) -/

def execXsgnar (t r : BitVec 5) (n : BitVec 3) (s : State) : Host.Outcome State Fault Refusal :=
  slotInstr (.xsgnar t r n) s fun k x =>
    let c := x.xreg t
    let base := (x.xreg r).toNat
    if bits c.toNat 58 57 ≠ 0 then .error s.illegal
    else
      let limit := bits c.toNat 56 0
      let rights : BitVec 5 :=
        BitVec.ofNat 5 ((List.range 5).map fun i => if c.getLsbD (63 - i) then 2 ^ (4 - i) else 0).sum
      if narrowOk (Tbl.get x.sg 0 n.toNat) base limit rights then
        s.done k { x with sg := Tbl.set x.sg 0 n.toNat (segOf base limit rights) }
      else .error (KTrap.mk 24 (x.xreg r))

def execXsgrd (r d : BitVec 5) (s : State) : Host.Outcome State Fault Refusal :=
  slotInstr (.xsgrd r d) s fun k x =>
    let v := (x.xreg r).toNat
    if 16 ≤ v then .error s.illegal
    else
      let g := Tbl.get x.sg 0 (v % 8)
      s.done k (x.setX d (if 8 ≤ v then g.extractLsb' 64 64 else g.extractLsb' 0 64))

/-! ## Formats, energy, special registers (R267 to R269) -/

def execXfmt (t r : BitVec 5) (s : State) : Host.Outcome State Fault Refusal :=
  slotInstr (.xfmt t r) s fun k x =>
    if fmtOk (lowWord (x.xreg r)) && sclpOk (x.xreg t) then
      s.done k { x with fmt := lowWord (x.xreg r), sclp := x.xreg t }
    else .error s.illegal

def execXenergy (r d : BitVec 5) (s : State) : Host.Outcome State Fault Refusal :=
  slotInstr (.xenergy r d) s fun k x =>
    let l := s.launch x.launchNo
    match (x.xreg r).toNat with
    | 0 => s.done k (x.setX d l.energy)
    | 1 => s.done k (x.setX d (Tbl.get l.shares 0 (slotCluster k)))
    | 2 => s.done k (x.setX d (Tbl.get l.arrayShares 0 (slotCluster k)))
    | _ => .error s.illegal

/-- A special register as a thread reads it (R57). -/
def State.slotSpecial (s : State) (k : Nat) (x : Slot) (i : Nat) : Nat :=
  match i with
  | 0 => 0
  | 1 => 0xFFFFFFFF
  | 2 => 1
  | 3 => 0xFFFFFFFF
  | 12 => x.fmt.toNat
  | 13 => x.sclp.toNat
  | 14 => x.origin.toNat
  | 15 => slotCore k % 16 * 16 + slotIndex k
  | _ => s.special (slotCluster k) (s.launch x.launchNo) i

def execXsread (r d : BitVec 5) (s : State) : Host.Outcome State Fault Refusal :=
  slotInstr (.xsread r d) s fun k x =>
    if 17 ≤ (x.xreg r).toNat then .error s.illegal
    else s.done k (x.setX d (BitVec.ofNat 64 (s.slotSpecial k x (x.xreg r).toNat)))

end Sys2Proof.Machine
end

