-- ==== Sys2Proof/Machine/Keeper.lean ====
section
/-! DEFINITION. The keeper-only instructions (R315 to R322), the context areas and the Cloakroom (R373 to R378), and the
steps by which firmware and the keeper change them. -/

namespace Sys2Proof.Machine

/-! ## The selected slot -/

/-- The slot that ksel names, 15 included (R311). -/
def State.target (s : State) (k : Nat) : Nat := slotCore k * 16 + (s.core (slotCore k)).ksel.toNat

/-- The bits of rd that refuse (R315). -/
def refusedState : W64 := 0x100
def refusedOperand : W64 := 0x200

/-- rd receives an answer; the keeper goes on. -/
def State.answer (s : State) (k : Nat) (rd : BitVec 5) (v : W64) : Except KTrap State := s.done k ((s.slot k).setX rd v)

/-- xtimer (R316, R318). -/
def execXtimer (r d : BitVec 5) (s : State) : Host.Outcome State Fault Refusal :=
  keeperInstr (.xtimer r d) s fun k x =>
    let y := s.slot (s.target k)
    (s.setSlot (s.target k) { y with timer := x.xreg r }).answer k d y.timer

/-! ## xslot (R319) -/

/-- The state of a slot before the instruction, with OPEN and reserved. -/
def Slot.code (x : Slot) : W64 :=
  let st : W64 := match x.st with
    | .free => 0
    | .ready => 1
    | .waiting => 2
    | .parked => 3
    | _ => 4
  st ||| (if x.opened then 8 else 0) ||| (if x.reserved then 16 else 0)

/-- An xslot operation: slot 15 selected or an operand that names no operation gives bit 9 alone, a slot in a state
that the operation does not take gives bit 8. -/
def xslotInstr (i : Instr) (r d : BitVec 5) (s : State) (accepts : Slot → Bool)
    (effect : Nat → Slot → (State → Except KTrap State) → Except KTrap State) : Host.Outcome State Fault Refusal :=
  keeperInstr i s fun k x =>
    let y := s.slot (s.target k)
    if slotIndex (s.target k) = 15 ∨ 6 ≤ (x.xreg r).toNat then s.answer k d refusedOperand
    else if accepts y then effect (s.target k) y fun s => s.answer k d y.code
    else s.answer k d (y.code ||| refusedState)

def execXslotQuery (r d : BitVec 5) (s : State) : Host.Outcome State Fault Refusal :=
  xslotInstr (.xslotQuery r d) r d s (fun _ => true) fun _ _ f => f s

def execXslotStop (r d : BitVec 5) (s : State) : Host.Outcome State Fault Refusal :=
  xslotInstr (.xslotStop r d) r d s (fun y => y.st == .ready || y.st == .waiting || y.st == .parked)
    fun k _ f => f (s.stopSlot k 29 1 false)

/-- The Cloakroom entry that an area is bound to (R373): none outside the window or while EN is 0. -/
def Cluster.cloakEntry (c : Cluster) (area : Nat) : Option Nat :=
  let base := (c.kckbase &&& 0xFFFFFFFFFFFF0000).toNat
  if c.kckbase.getLsbD 0 ∧ base ≤ area ∧ area < base + 0x10000 ∧ area % 1024 = 0 then some ((area - base) / 1024)
  else none

/-- UNBOUND set in the area of a slot's context (R376); a page fault of the area parks or traps the keeper. -/
def State.unbind (s : State) (k area : Nat) (f : State → Except KTrap State) : Except KTrap State :=
  s.areaRead k (keeperOf k) (area + 0x20C) 4 fun v s =>
    s.areaWrite k (keeperOf k) (area + 0x20C) (toBytes 4 (v / 2 * 2 + 1)) f

/-- RELEASE: the context of a TRAPPED slot is gone; a reservation is cleared, and its context in the Cloakroom may go
to any slot (R319, R376). -/
def State.release (s : State) (k : Nat) (y : Slot) (f : State → Except KTrap State) : Except KTrap State :=
  let left (s : State) : State := (s.drainStores k).setSlot k { y.freed with reserved := false, saved := none }
  let cloaked (area : W64) : Bool := ((s.cluster (slotCluster k)).cloakEntry area.toNat).isSome
  match y.saved with
  | some (area, _) =>
    if y.st ≠ .trapped ∧ cloaked area = true then s.unbind k area.toNat fun s => f (left s) else f (left s)
  | none => f (left s)

def execXslotRelease (r d : BitVec 5) (s : State) : Host.Outcome State Fault Refusal :=
  xslotInstr (.xslotRelease r d) r d s (fun y => y.st == .trapped || (y.st == .free && y.reserved))
    fun k y f => s.release k y f

def execXslotOpen (r d : BitVec 5) (s : State) : Host.Outcome State Fault Refusal :=
  xslotInstr (.xslotOpen r d) r d s (fun _ => true) fun k y f => f (s.setSlot k { y with opened := true })

def execXslotClose (r d : BitVec 5) (s : State) : Host.Outcome State Fault Refusal :=
  xslotInstr (.xslotClose r d) r d s (fun _ => true) fun k y f => f (s.setSlot k { y with opened := false })

/-- VACATE: the slot is FREE and reserved; event bits that came after the snapshot go to the spill queue (R319). -/
def State.vacate (s : State) (k : Nat) (y : Slot) : State :=
  let left := y.events &&& ~~~(y.saved.map fun e => e.2).getD 0
  let s := (s.drainStores k).setSlot k
    { y.freed with reserved := true, launch := y.launch, range := y.range, saved := y.saved }
  if left = 0 then s
  else s.spill k { cls := .signal, target := y.handle, payload := [left, 0, 0, 0], launch := y.launchNo }

def execXslotVacate (r d : BitVec 5) (s : State) : Host.Outcome State Fault Refusal :=
  xslotInstr (.xslotVacate r d) r d s (fun y => y.st == .trapped && y.saved.isSome) fun k y f => f (s.vacate k y)

/-! ## Context areas (R320, R374) -/

/-- Part 0: the pc and x1 to x31. -/
def Slot.part0 (x : Slot) : List Byte :=
  toBytes 8 x.pc.toNat ++ (List.range 31).flatMap fun n => toBytes 8 (Tbl.get x.x 0 (n + 1)).toNat

/-- An inbox entry: four payload words and the sender's handle. -/
def Msg.entry (m : Msg) : List Byte :=
  ((List.range 4).flatMap fun i => toBytes 4 (m.payload.getD i 0).toNat) ++ toBytes 8 m.sender.toNat

/-- Bytes 0x000 to 0x30F of the area of a slot's context. -/
def Slot.area (x : Slot) : List Byte :=
  x.part0 ++ ((List.range 32).flatMap fun n => toBytes 8 (Tbl.get x.f 0 n).toNat)
    ++ toBytes 4 x.fcsr.toNat ++ toBytes 4 x.events.toNat ++ toBytes 4 x.fmt.toNat ++ toBytes 4 (2 * x.inbox.length)
    ++ toBytes 8 x.handle.toNat ++ toBytes 8 x.origin.toNat ++ toBytes 8 x.sclp.toNat ++ toBytes 8 0
    ++ ((List.range 8).flatMap fun n => toBytes 16 (Tbl.get x.sg 0 n).toNat)
    ++ (List.range 4).flatMap fun i => (x.inbox.getD i {}).entry

/-- n bytes at an offset of an area that was read as a number. -/
def areaField (v off n : Nat) : Nat := v / 2 ^ (8 * off) % 2 ^ (8 * n)

/-- Registers from a function of their number. -/
def regTable (n : Nat) (f : Nat → W64) : Tbl W64 := (List.range n).foldl (fun t i => Tbl.set t 0 i (f i)) []

/-- x1 to x31 of an area. -/
def areaX (v : Nat) : Tbl W64 := regTable 32 fun i => if i = 0 then 0 else BitVec.ofNat 64 (areaField v (8 * i) 8)

/-- On-chip inbox entry i of an area. -/
def areaMsg (v i : Nat) : Msg :=
  { payload := (List.range 4).map fun j => BitVec.ofNat 32 (areaField v (0x2B0 + 24 * i + 4 * j) 4)
    sender := BitVec.ofNat 64 (areaField v (0x2B0 + 24 * i + 16) 8) }

/-- The slot's context replaced by that of an area; reserved bits read zero (R5), and values that FMT and SCLP may not hold
are not installed (R54; log 104). -/
def Slot.fromArea (x : Slot) (v : Nat) : Slot :=
  { x with
    x := areaX v, pc := BitVec.ofNat 64 (areaField v 0 8)
    f := regTable 32 fun i => BitVec.ofNat 64 (areaField v (0x100 + 8 * i) 8)
    fcsr := BitVec.ofNat 32 (areaField v 0x200 1), events := BitVec.ofNat 32 (areaField v 0x204 4)
    fmt := installFmt x.fmt (BitVec.ofNat 32 (areaField v 0x208 4))
    sclp := installSclp x.sclp (BitVec.ofNat 64 (areaField v 0x220 8))
    origin := BitVec.ofNat 64 (areaField v 0x218 8)
    sg := (List.range 8).foldl (fun t n => Tbl.set t 0 n (segStored (BitVec.ofNat 128 (areaField v (0x230 + 16 * n) 16)))) []
    inbox := (List.range (Nat.min 4 (areaField v 0x20C 1 / 2 % 8))).map (areaMsg v) }

/-- At xkret and a load the core looks at the inbox ring of the slot's karea, before the keeper's instruction has another
effect (R377): the slot enters the ring state where RRD and RWR differ. A karea of 0 gives an empty ring. -/
def State.checkRing (s : State) (k : Nat) (karea : W64) (f : (Slot → Slot) → State → Except KTrap State) :
    Except KTrap State :=
  if karea = 0 then f (fun x => { x with ring := false }) s
  else
    s.areaRead k (keeperOf k) (karea.toNat + 0x310) 8 fun v s =>
      f (fun x => if v % 2 ^ 32 = v / 2 ^ 32 then x else { x with ring := true }) s

/-- What xctx.sv part 1 leaves: the snapshot, the Cloakroom entry HELD, the launch of the context (log 28). -/
def State.savedTo (s : State) (k : Nat) (y : Slot) (area : Nat) : State :=
  let s := s.modSlot k fun x => { x with saved := some (BitVec.ofNat 64 area, y.events) }
  s.modCluster (slotCluster k) fun c =>
    let c := { c with areaLaunch := Tbl.put c.areaLaunch area y.launchNo }
    match c.cloakEntry area with
    | some e => { c with cloak := Tbl.put c.cloak e .held, cloakReady := c.cloakReady.filter fun x => x != e }
    | none => c

def execXctxSv (t r d : BitVec 5) (s : State) : Host.Outcome State Fault Refusal :=
  keeperInstr (.xctxSv t r d) s fun k x =>
    let area := (x.xreg r).toNat
    let y := s.slot (s.target k)
    if area % 256 ≠ 0 ∨ 2 ≤ (x.xreg t).toNat then s.answer k d refusedOperand
    else if y.st ≠ .trapped then s.answer k d refusedState
    else if x.xreg t = 0 then s.scalarWrite k x needWrite area 256 y.part0 fun s => s.answer k d 0
    else
      let s := s.drainStores (s.target k)
      s.scalarWrite k x needWrite area 256 y.area fun s => (s.savedTo (s.target k) y area).answer k d 0

/-- The launch of a context that is loaded into a slot not reserved for it (log 28). -/
def State.launchOfArea (s : State) (cl area : Nat) : Option Nat :=
  match Tbl.find? (s.cluster cl).areaLaunch area with
  | some l => some l
  | none => ((s.cluster cl).ctx.map fun e => e.2).head?

/-- Whether an area's context may go into a FREE slot (R320, R376); unbound ones into any slot that is not reserved. -/
def Slot.admits (y : Slot) (k v : Nat) : Bool :=
  let h : W64 := BitVec.ofNat 64 (areaField v 0x210 8)
  if areaField v 0x20C 4 % 2 = 1 then !y.reserved
  else if y.reserved then y.handle == h
  else handleSub h == slotIndex k && handleSeq h == y.seq + 1

/-- karea after a load: its reserved bits read zero (R373). -/
def kareaOf (area : Nat) : W64 := BitVec.ofNat 64 area &&& 0xFFFFFFFFFFFFFC00

/-- The slot TRAPPED with a loaded context (R320, R376, R377). The load creates the thread of an area that leave wrote,
which is an acquire (R277, R289). -/
def State.loaded (s : State) (k v area : Nat) : State :=
  let y := s.slot k
  let h : W64 := BitVec.ofNat 64 (areaField v 0x210 8)
  let unbound := areaField v 0x20C 4 % 2 == 1
  let launch := if y.reserved then y.launch else s.launchOfArea (slotCluster k) area
  let seq := if y.reserved then y.seq else y.seq + 1
  let handle := if unbound then s.handleOf (launch.getD 0) k seq else h
  let z := y.fromArea v
  let s := s.setSlot k { z with
    st := .trapped, wait := .none, seq := seq, handle := handle
    origin := if unbound && h != 0 then handle else z.origin
    launch := launch, kcause := 0xFE, ktval := 0, stop := none, reserved := false, ring := false, saved := none
    resv := none, range := if y.reserved then y.range else none
    sdom := if y.reserved then y.sdom else (s.launch (launch.getD 0)).sdom
    karea := kareaOf area, notBefore := 0, observed := [], glimpsed := [] }
  let s := if unbound && h == 0 then s.slotAcquire k else s
  let s := s.modCore (slotCore k) fun c => { c with kpend := c.kpend ||| BitVec.ofNat 64 (2 ^ slotIndex k) }
  let s := s.keeperEvent k 0x80000000
  s.modCluster (slotCluster k) fun c =>
    match c.cloakEntry area with
    | some e => c.freeCloak e
    | none => c

def execXctxLd (t r d : BitVec 5) (s : State) : Host.Outcome State Fault Refusal :=
  keeperInstr (.xctxLd t r d) s fun k x =>
    let area := (x.xreg r).toNat
    let z := s.target k
    let y := s.slot z
    if area % 256 ≠ 0 ∨ 2 ≤ (x.xreg t).toNat then s.answer k d refusedOperand
    else if x.xreg t = 0 then
      if y.st ≠ .trapped then s.answer k d refusedState
      else s.scalarRead k x needRead area 256 256 fun v s =>
        s.checkRing z y.karea fun ring s =>
          (s.modSlot z fun y => ring { y with x := areaX v, pc := BitVec.ofNat 64 (areaField v 0 8) }).answer k d 0
    else if y.st ≠ .free then s.answer k d refusedState
    else s.scalarRead k x needRead area 0x310 256 fun v s =>
      if y.admits z v then s.checkRing z (kareaOf area) fun ring s => ((s.loaded z v area).modSlot z ring).answer k d 0
      else s.answer k d refusedState

/-- xkret (R321, R377). -/
def execXkret (d : BitVec 5) (s : State) : Host.Outcome State Fault Refusal :=
  keeperInstr (.xkret d) s fun k _ =>
    let z := s.target k
    let y := s.slot z
    if y.st = .trapped then
      s.checkRing z y.karea fun ring s =>
        (s.setSlot z (ring { y with st := .ready, wait := .none, kcause := 0xFF, saved := none })).answer k d 0
    else s.answer k d refusedState

/-! ## Segments, translations, items (R316, R322) -/

/-- Whether xsgset may write the segments of a slot. -/
def Slot.takesSegs (y : Slot) (k : Nat) : Bool := y.st == .trapped || slotIndex k == 15

def execXsgset (t r : BitVec 5) (n : BitVec 3) (s : State) : Host.Outcome State Fault Refusal :=
  keeperInstr (.xsgset t r n) s fun k x =>
    let z := s.target k
    let y := s.slot z
    let s := if y.takesSegs z then s.setSlot z { y with sg := Tbl.set y.sg 0 n.toNat (segStored (x.xreg t ++ x.xreg r)) } else s
    s.done k (s.slot k)

/-- Whether xtlbi drops a leaf. -/
def tlbiHits (p : Part) (kind ctx va : Nat) (l : Leaf) : Bool :=
  match kind with
  | 0 => l.ctx == ctx && l.page == va % 2 ^ 57 / 2 ^ levelShift l.level
  | 1 => l.ctx == ctx
  | _ => decide (p.ctxlo ≤ l.ctx) && decide (l.ctx ≤ p.ctxhi)

/-- Every translation cache drops the leaves that a predicate names. -/
def State.dropLeaves (s : State) (hits : Leaf → Bool) : State :=
  { s with clusters := s.clusters.map fun e => (e.1, { e.2 with tlb := e.2.tlb.filter fun l => !hits l }) }

def execXtlbi (t r : BitVec 5) (s : State) : Host.Outcome State Fault Refusal :=
  keeperInstr (.xtlbi t r) s fun k x =>
    let v := (x.xreg t).toNat
    let kind := bits v 13 12
    if 2 ^ 14 ≤ v ∨ kind = 3 then .error s.illegal
    else
      let p := s.part (s.cluster (slotCluster k)).part
      (s.dropLeaves (tlbiHits p kind (bits v 11 0) (x.xreg r).toNat)).done k x

/-- An item of a slot. -/
def Slot.item (y : Slot) (i : Nat) : Option W64 :=
  if i < 32 then some (y.xreg (BitVec.ofNat 5 i))
  else if i < 64 then some (y.freg (BitVec.ofNat 5 (i - 32)))
  else match i with
    | 64 => some y.pc
    | 65 => some (y.fcsr.setWidth 64)
    | 66 => some (y.events.setWidth 64)
    | 67 => some (y.fmt.setWidth 64)
    | 68 => some y.sclp
    | 69 => some y.origin
    | 70 => some (BitVec.ofNat 64 y.inbox.length)
    | _ => none

def execXpeek (r d : BitVec 5) (s : State) : Host.Outcome State Fault Refusal :=
  keeperInstr (.xpeek r d) s fun k x =>
    let y := s.slot (s.target k)
    match y.item (x.xreg r).toNat with
    | some v => s.answer k d (if y.st = .trapped then v else refusedOperand)
    | none => s.answer k d refusedOperand

/-- An item written; the read-only ones ignore it. -/
def Slot.setItem (y : Slot) (i : Nat) (v : W64) : Slot :=
  if i < 32 then y.setX (BitVec.ofNat 5 i) v
  else if i < 64 then y.setF (BitVec.ofNat 5 (i - 32)) v
  else match i with
    | 64 => { y with pc := v }
    | 65 => { y with fcsr := lowWord v &&& 0xFF }
    | 66 => { y with events := lowWord v }
    | 67 => if fmtOk (lowWord v) then { y with fmt := lowWord v } else y
    | 68 => if sclpOk v then { y with sclp := v } else y
    | _ => y

def execXpoke (t r : BitVec 5) (s : State) : Host.Outcome State Fault Refusal :=
  keeperInstr (.xpoke t r) s fun k x =>
    let z := s.target k
    let y := s.slot z
    let s := if y.st = .trapped then s.setSlot z (y.setItem (x.xreg r).toNat (x.xreg t)) else s
    s.done k (s.slot k)

/-! ## Steps of the Cloakroom, the Waymark partition and the keeper -/

def execCloakroomReadyPop (cl : Nat) (s : State) : Host.Outcome State Fault Refusal := .next (s.popCloak cl).2

def execCloakroomEntryFree (cl : Nat) (v : W64) (s : State) : Host.Outcome State Fault Refusal :=
  .next (s.modCluster cl fun c => c.freeCloaks v)

def execWmpartWrite (cl : Nat) (v : W32) (s : State) : Host.Outcome State Fault Refusal :=
  .next (s.modCluster cl fun c => c.setWmpart v)

/-- Firmware starts a halted keeper with the code, the registers and the segments that it gives (R309). -/
def execKeeperRestart (core : Nat) (s : State) : Host.Outcome State Fault Refusal :=
  let k := core * 16 + 15
  let x := s.slot k
  let c := s.core core
  if x.st = .halted then
    .next (s.setSlot k { x with
      st := .ready, wait := .none, pc := c.fwPc, x := c.fwX, sg := c.fwSg, stop := none, resv := none
      launch := some ((s.cluster (core / 16)).fwLaunch.getD (keeperLaunch (core / 16))) })
  else .next s

end Sys2Proof.Machine
end

