-- ==== Sys2Proof/Machine/Drover.lean ====
section
/-! DEFINITION. Operations that complete (R53, R103), new teams (R44), and the Drover: admission, batches, drains and
deadlines of records (R26 to R32, R348 to R352). -/

namespace Sys2Proof.Machine

/-! ## Completion (R53, R103, R292) -/

def State.op (s : State) (id : Nat) : Op := Tbl.get s.ops {} id
def State.setOp (s : State) (id : Nat) (o : Op) : State := { s with ops := Tbl.put s.ops id o }

/-- The path that an operation works on (R96). -/
def OpKind.path : OpKind → Nat
  | .mem (.gath _) _ _ _ => pathNI
  | .mem (.scat _) _ _ _ => pathNI
  | .copy .. => pathAC
  | .conv _ => pathAC
  | .mat _ => pathMX
  | .rtrace _ _ => pathRY
  | .rcommit _ _ => pathRY
  | .rgen _ _ _ => pathRY
  | _ => pathLS

/-- A team without one operation: its counter falls, and flags reach TSTAT unless the team has ended (R21). -/
def Team.complete (t : Team) (id : Nat) (o : Op) : Team :=
  let t := t.setCounter o.flag (t.counter o.flag - 1)
  let t := if t.st = .retiring then t else { t with tstat := t.tstat ||| (o.flags &&& 0x3F) }
  if o.kind.path = pathLS then t else { t with finished := t.finished ++ [(id, o.flag)] }

/-- Whether an acquire fence of the team, executed while an operation was in flight, covers the operation's reads (R289). -/
def Team.acquiredAfter (t : Team) (id : Nat) (k : OpKind) : Bool :=
  t.fences.any fun f => decide (id < f.at_) && pathIn f.src k.path && pathIn f.dst pathLS && decide (2 ≤ f.scope)

/-- An operation is complete. The copies that came into the cache of the team between an acquire fence and the reads
that it covers go with the completion (R277, R289, R290). -/
def State.finishOp (s : State) (id : Nat) : State :=
  let o := s.op id
  let s := { s with ops := Tbl.erase s.ops id }
  match o.party with
  | .team t =>
    let s := if (s.team t).acquiredAfter id o.kind then s.teamAcquire (s.team t) else s
    s.modTeam t fun tm => tm.complete id o
  | _ => s

/-- A long-latency instruction with a false uniform guard: it counts and completes at once (R433). -/
def State.issueNothing (s : State) (t : Nat) (tm : Team) (f : Bool) : Except Trap State :=
  match tm.flag f with
  | none => .error (wordTrap s 0x01)
  | some c => if 63 ≤ tm.counter c then .ok s else .ok (s.retireTeam t tm)

/-! ## New teams (R44, R352, R381) -/

/-- Whether a team holds a spill index: from its first engine on, through park and restore (R381). -/
def Team.holdsIndex (t : Team) : Bool := t.resident || t.frame != 0

/-- The lowest spill index that no other team of the launch on the cluster holds. -/
def State.spillIndex (s : State) (launch cl : Nat) : Nat :=
  let used := (s.teams.filter fun e => e.2.launch == launch && e.2.cl == cl && e.2.holdsIndex).map fun e => e.2.spillIdx
  ((List.range (used.length + 1)).find? fun i => !used.contains i).getD 0

/-- A team enters ADMITTING. -/
def State.newTeam (s : State) (t : Team) : State :=
  let t := { t with
    st := .admitting, entered := s.clock t.cl, issued := s.clock t.cl
    mask := t.allLanes, live := t.allLanes, prev := t.pc
    sg := (s.launch t.launch).teamSegs, tclass := (s.launch t.launch).thresh }
  { s with teams := Tbl.put s.teams s.nextTeam t, nextTeam := s.nextTeam + 1 }

/-! ## The Drover's records -/

def State.drover (s : State) (cl launch : Nat) : Drover := Tbl.get (s.cluster cl).drover {} launch

def State.modDrover (s : State) (cl launch : Nat) (f : Drover → Drover) : State :=
  s.modCluster cl fun c => { c with drover := Tbl.set c.drover {} launch (f (Tbl.get c.drover {} launch)) }

/-- The records that a node holds unreleased. -/
def Drover.heldBy (d : Drover) (n : Nat) : List Held := d.held.filter fun h => h.record.node == n

/-- Every accepted record whose team has not been created. -/
def Drover.accepted (d : Drover) : List Held := d.held ++ d.batches.flatMap fun b => b.records

/-- Free slots (R348): an accepted record holds one until its team has been created. -/
def Drover.free (d : Drover) (l : Launch) : Nat := l.lslots - d.accepted.length

/-- What the other nodes have reserved and do not hold. -/
def Drover.reserved (d : Drover) (l : Launch) (n : Nat) : Nat :=
  ((l.nodes.filter fun e => e.1 != n).map fun e => e.2.reserve - (d.heldBy e.1).length).sum

/-- The admission condition of R348. -/
def Drover.admits (d : Drover) (l : Launch) (n : Nat) : Bool := decide (1 + d.reserved l n ≤ d.free l)

def Launch.node (l : Launch) (n : Nat) : NodeDesc := Tbl.get l.nodes {} n

/-- Whether an arrival of priority p would pass a waiting record that the order places ahead of it. -/
def Drover.ahead (d : Drover) (l : Launch) (p : Nat) : Bool := d.waiting.any fun w => decide ((l.node w.record.node).prio ≤ p)

/-- A node is starved while a record for it waits (R349). -/
def Drover.starved (d : Drover) (n : Nat) : Bool := d.waiting.any fun w => w.record.node == n

/-- Whether a starved successor holds back the batches of a node. -/
def Drover.heldBack (d : Drover) (l : Launch) (n : Nat) : Bool :=
  !l.draining && (List.range 64).any fun i => (l.node n).next.testBit i && d.starved i

/-! ## Batches (R350, R352) -/

/-- The words that a record gives lane l of its team (R27, R31). -/
def Rec.regs (r : Rec) (lane : Nat) : List (Nat × W32) :=
  (vKey lane 0, r.origin.setWidth 32) :: (vKey lane 1, (r.origin >>> 32).setWidth 32)
    :: (List.range r.words.length).map fun i => (vKey lane (r.first + i), r.words.getD i 0)

/-- The lane registers of a batch. -/
def batchRegs (rs : List Rec) : Tbl W32 :=
  ((List.range rs.length).flatMap fun i => (rs.getD i {}).regs i).foldl (fun t e => Tbl.set t 0 e.1 e.2) []

/-- The errors that the team of a batch takes at its first header, for the records that an uncorrectable error hit
(R410). No instruction made the access: its address and that of the data are free. -/
def State.recordErrors (s : State) (order : Nat) : List (Nat × Rec) → List Deferred × State
  | [] => ([], s)
  | (lane, r) :: l =>
    if r.bad then
      let (vs, s) := s.free 2
      let (es, s) := s.recordErrors order l
      (Deferred.mk 0x0C order (vs.getD 0 0) (BitVec.ofNat 32 lane) (vs.getD 1 0) false :: es, s)
    else s.recordErrors order l

/-- The oldest k records of a node released as a batch, which awaits its team. -/
def State.releaseBatch (s : State) (cl launch n k : Nat) : State :=
  let out := ((s.drover cl launch).heldBy n).take k
  let c := s.cluster cl
  (s.setCluster cl { c with batchSeq := c.batchSeq + 1 }).modDrover cl launch fun d =>
    { d with held := d.held.filter fun h => !out.contains h, batches := d.batches ++ [Batch.mk c.batchSeq n out] }

/-- The team of a batch (R27, R31, R57, R352): its records hold their slots no longer. -/
def State.batchTeam (s : State) (cl launch : Nat) (b : Batch) : State :=
  let l := s.launch launch
  let nd := l.node b.node
  let rs := b.records.map fun h => h.record
  let s := s.modDrover cl launch fun d => { d with batches := d.batches.filter fun x => x.seq != b.seq }
  let (es, s) := s.recordErrors s.nextOp ((List.range rs.length).map fun i => (i, rs.getD i {}))
  s.newTeam {
    deferred := es, launch := launch, cl := cl, lanes := rs.length, n := nd.regs, prio := Nat.max l.prio nd.prio
    number := BitVec.ofNat 32 (0x80000000 + l.vcl cl * 0x10000 + b.seq % 0x10000), node := BitVec.ofNat 32 b.node
    v := batchRegs rs, g := nd.g, gp := nd.gp, pc := nd.entry, fmt := nd.fmt, sclp := nd.sclp
    origin := (List.range rs.length).foldl (fun t i => Tbl.set t 0 i (rs.getD i {}).origin) [] }

/-- The batches of a cluster that await their teams, with their launches. -/
def Cluster.awaiting (c : Cluster) : List (Nat × Batch) := c.drover.flatMap fun e => e.2.batches.map fun b => (e.1, b)

/-- The batch of a cluster that was released first becomes a team; when that happens is not architectural (DEDUCED, log 57). -/
def State.createTeam (s : State) (cl : Nat) : State :=
  match (s.cluster cl).awaiting.foldl (fun best e =>
    match best with
    | none => some e
    | some (b : Nat × Batch) => if e.2.seq < b.2.seq then some e else some b) none with
  | some (launch, b) => s.batchTeam cl launch b
  | none => s

/-- Records discarded, and counted in DROP. -/
def State.dropRecords (s : State) (cl launch : Nat) (out : List Held) : State :=
  let left (hs : List Held) : List Held := hs.filter fun h => !out.contains h
  let s := s.modDrover cl launch fun d => { d with
    held := left d.held
    batches := (d.batches.map fun b => { b with records := left b.records }).filter fun b => b.records != [] }
  s.setLaunch launch { s.launch launch with drops := (s.launch launch).drops + out.length }

/-- Whether the oldest record of a node has been held for the node's TIMEOUT. -/
def Drover.timedOut (d : Drover) (l : Launch) (n now : Nat) : Bool :=
  (d.heldBy n).head?.any fun h => decide ((l.node n).timeout ≤ now - h.since)

/-- Whether a node's records leave in this cycle: a full batch, a timed-out one, or a drain. -/
def Drover.ready (d : Drover) (l : Launch) (now n : Nat) : Bool :=
  (l.draining || decide ((l.node n).batch ≤ (d.heldBy n).length) || d.timedOut l n now) && d.heldBy n != [] && !d.heldBack l n

/-- The held records of a cluster whose nodes release, with their launches. -/
def State.releasable (s : State) (cl : Nat) : List (Nat × Held) :=
  (s.cluster cl).drover.flatMap fun e =>
    (e.2.held.filter fun h => e.2.ready (s.launch e.1) (s.clock cl) h.record.node).map fun h => (e.1, h)

/-- The record whose node releases next, of all contexts of the cluster: node priority, then the age of its oldest record. -/
def State.nextRelease (s : State) (cl : Nat) : Option (Nat × Held) :=
  let prio (e : Nat × Held) : Nat := ((s.launch e.1).node e.2.record.node).prio
  (s.releasable cl).foldl (fun best e =>
    match best with
    | none => some e
    | some b => if prio e < prio b ∨ (prio e = prio b ∧ e.2.seq < b.2.seq) then some e else some b) none

/-- Every batch of a cluster that can be released, at most n times. -/
def State.releaseAll (s : State) (cl : Nat) : Nat → State
  | 0 => s
  | n + 1 =>
    match s.nextRelease cl with
    | none => s
    | some (launch, h) =>
      let l := s.launch launch
      let nd := l.node h.record.node
      let s :=
        if l.draining && nd.opt then s.dropRecords cl launch ((s.drover cl launch).heldBy h.record.node)
        else s.releaseBatch cl launch h.record.node (Nat.max 1 nd.batch)
      s.releaseAll cl n

def State.releaseReady (s : State) (cl : Nat) : State :=
  s.releaseAll cl ((s.cluster cl).drover.map fun e => e.2.held.length).sum

/-! ## Acceptance (R32, R348) -/

/-- A record held by its node from now on, on chip or in a Larder slot. -/
def State.hold (s : State) (cl launch : Nat) (r : Rec) (notBefore : Nat) (larder : Option Nat) : State :=
  let c := s.cluster cl
  let h : Held := { record := r, seq := c.accepted, since := s.clock cl, notBefore := notBefore, larder := larder }
  let s := s.setCluster cl { c with accepted := c.accepted + 1 }
  (s.modDrover cl launch fun d => { d with held := d.held ++ [h] }).releaseReady cl

/-- The records of all contexts in the on-chip buffer of a cluster. -/
def Cluster.onChip (c : Cluster) : Nat := (c.drover.map fun e => (e.2.accepted.filter fun h => h.larder == none).length).sum

/-- The lowest Larder slot that holds no record. -/
def Drover.larderSlot (d : Drover) (l : Launch) : Nat :=
  ((List.range l.lslots).find? fun i => d.accepted.all fun h => h.larder != some i).getD 0

/-- A record put into a Larder slot: what its 128 bytes hold is not architectural, so they are free values, written where
the memory can be reached (R348; DESIGN CHOICE, log 114). -/
def State.fillLarder (s : State) (cl launch i : Nat) : State :=
  let l := s.launch launch
  let (vs, s) := s.free 16
  let at_ := l.larder.toNat + 128 * (l.vcl cl * l.lslots + i)
  (s.tryWrite cl launch at_ (vs.flatMap fun v => toBytes 8 v.toNat)).getD s

/-- A record is accepted: into the on-chip buffer of 1,024 records while it has room, else into the Larder. -/
def State.accept (s : State) (cl launch : Nat) (r : Rec) (notBefore : Nat) : State :=
  if (s.cluster cl).onChip < 1024 then s.hold cl launch r notBefore none
  else
    let i := (s.drover cl launch).larderSlot (s.launch launch)
    (s.fillLarder cl launch i).hold cl launch r notBefore (some i)

/-- Whether a new record is accepted at once. -/
def State.acceptsNow (s : State) (cl launch : Nat) (r : Rec) : Bool :=
  let l := s.launch launch
  let d := s.drover cl launch
  d.admits l r.node && !d.ahead l (l.node r.node).prio

/-- A post: accepted, or waiting in the Drover's queue. -/
def State.post (s : State) (cl launch : Nat) (r : Rec) (p : Poster) : Bool × State :=
  if s.acceptsNow cl launch r then (true, s.accept cl launch r 0)
  else (false, s.modDrover cl launch fun d => { d with waiting := d.waiting ++ [WaitRec.mk r p] })

/-- Several records of one party in their order; whether every one was accepted. -/
def State.postAll (s : State) (cl launch : Nat) (p : Poster) (all : Bool) : List Rec → Bool × State
  | [] => (all, s)
  | r :: rest =>
    let (ok, s) := s.post cl launch r p
    s.postAll cl launch p (all && ok) rest

/-- The first waiting record: node priority, then age. -/
def Drover.first (d : Drover) (l : Launch) : Option WaitRec :=
  d.waiting.foldl (fun best w =>
    match best with
    | none => some w
    | some b => if (l.node w.record.node).prio < (l.node b.record.node).prio then some w else some b) none

/-- The party whose record was accepted goes on, once none of its records waits. An emit yielded when it issued (R105). -/
def State.wakePoster (s : State) (cl launch : Nat) (p : Poster) : State :=
  if (s.drover cl launch).waiting.any fun w => w.poster == p then s else
  match p with
  | .post k =>
    let x := s.slot k
    match x.wait with
    | .post rd => s.setSlot k ({ x.unpark with pc := x.pc + 4 }.setX (BitVec.ofNat 5 rd) 0)
    | _ => s
  | .mig k => if (s.slot k).wait = .mig then s.leaveThread k else s
  | .team t =>
    let tm := s.team t
    match tm.wait with
    | .emit => s.setTeam t { Team.advance { tm with st := .ready, wait := .none } 2 with yielded := false }
    | .regroup => s.setTeam t tm.retire
    | _ => s
  | .raster _ => s

/-- The launch in a launch-context slot of a cluster. -/
def State.resident (s : State) (cl ctx : Nat) : Option Nat := Tbl.find? (s.cluster cl).ctx ctx

/-- RECORD_ADMIT: the first waiting record, when its need is met. -/
def execRecordAdmit (cl ctx : Nat) (s : State) : Host.Outcome State Fault Refusal :=
  match s.resident cl ctx with
  | none => .next s
  | some launch =>
    let l := s.launch launch
    let d := s.drover cl launch
    match d.first l with
    | none => .next s
    | some w =>
      if d.admits l w.record.node then
        let s := s.modDrover cl launch fun d => { d with waiting := d.waiting.erase w }
        .next ((s.accept cl launch w.record 0).wakePoster cl launch w.poster)
      else .next s

/-! ## Timeouts, deadlines (R350, R351) -/

/-- BATCH_TIMEOUT: with the batch of the node, all that are due leave, in the order of R350. -/
def execBatchTimeout (cl ctx node : Nat) (s : State) : Host.Outcome State Fault Refusal :=
  match s.resident cl ctx with
  | none => .next s
  | some launch =>
    if (s.drover cl launch).ready (s.launch launch) (s.clock cl) node then .next (s.releaseReady cl) else .next s

/-- A deadline that has passed, under the node's POLICY. -/
def State.expire (s : State) (cl launch : Nat) (h : Held) : State :=
  let nd := (s.launch launch).node h.record.node
  match nd.policy with
  | 0 => s
  | 2 =>
    if 1 ≤ h.record.quality ∧ ((s.launch launch).node nd.degn).qmin ≤ h.record.quality - 1 then
      let s := s.modDrover cl launch fun d => { d with held := d.held.filter fun x => x != h }
      s.hold cl launch { h.record with node := nd.degn, quality := h.record.quality - 1 } (s.time.toNat + 1000) h.larder
    else s.dropRecords cl launch [h]
  | _ => s.dropRecords cl launch [h]

/-- RECORD_DEADLINE: one held record; the batch releases of the same cycle come first. -/
def execRecordDeadline (cl ctx idx : Nat) (s : State) : Host.Outcome State Fault Refusal :=
  match s.resident cl ctx with
  | none => .next s
  | some launch =>
    let s := s.releaseReady cl
    match (s.drover cl launch).held[idx]? with
    | none => .next s
    | some h =>
      match h.record.deadline with
      | none => .next s
      | some t =>
        if t.toNat < s.time.toNat ∧ h.notBefore ≤ s.time.toNat then .next (s.expire cl launch h) else .next s

end Sys2Proof.Machine
end

