-- ==== Sys2Proof/Machine/Work.lean ====
section
/-! DEFINITION. The instructions that post records and that turn lanes into threads (R28 to R31, R183 to R186, R244 to
R246), retirement of teams (R21), and the grant of free slots (R29, R431). -/

namespace Sys2Proof.Machine

/-! ## Records of scalar threads (R244 to R246) -/

/-- The payload of a post: register halves from a0 on (R28). -/
def Slot.recordWords (x : Slot) (n : Nat) : List W32 :=
  (List.range n).map fun w =>
    let v := Tbl.get x.x 0 (10 + w / 2)
    if w % 2 = 0 then lowWord v else highWord v

/-- The record that xpost and xpostn post; the node must be declared. -/
def State.postOperands (s : State) (x : Slot) (t r : BitVec 5) (f : Rec → Except KTrap State) : Except KTrap State :=
  let v := (x.xreg r).toNat
  match Tbl.find? (s.launch x.launchNo).nodes (bits v 5 0) with
  | none => .error s.illegal
  | some nd =>
    if 2 ^ 10 ≤ v then .error s.illegal
    else f { node := bits v 5 0, origin := x.handle, words := x.recordWords nd.payload, quality := bits v 9 6
             deadline := if x.xreg t = 0 then none else some (x.xreg t) }

def execXpost (t r d : BitVec 5) (s : State) : Host.Outcome State Fault Refusal :=
  slotInstr (.xpost t r d) s fun k x =>
    s.postOperands x t r fun rc =>
      match (s.drainStores k).post (slotCluster k) x.launchNo rc (.post k) with
      | (true, s) => s.answer k d 0
      | (false, s) => .ok (s.parkSlot k (.post d.toNat))

def execXpostn (t r d : BitVec 5) (s : State) : Host.Outcome State Fault Refusal :=
  slotInstr (.xpostn t r d) s fun k x =>
    s.postOperands x t r fun rc =>
      if s.acceptsNow (slotCluster k) x.launchNo rc then
        ((s.drainStores k).accept (slotCluster k) x.launchNo rc 0).answer k d 0
      else s.answer k d 1

/-- The whole register file of a thread as v2 to v127 (R27). -/
def Slot.fileWords (x : Slot) : List W32 :=
  ((List.range 31).flatMap fun n => [lowWord (Tbl.get x.x 0 (n + 1)), highWord (Tbl.get x.x 0 (n + 1))])
    ++ (List.range 32).flatMap fun n => [lowWord (Tbl.get x.f 0 n), highWord (Tbl.get x.f 0 n)]

def execXmig (r : BitVec 5) (s : State) : Host.Outcome State Fault Refusal :=
  slotInstr (.xmig r) s fun k x =>
    let v := (x.xreg r).toNat
    match Tbl.find? (s.launch x.launchNo).nodes v with
    | none => .error s.illegal
    | some nd =>
      if nd.mig = false ∨ 64 ≤ v then .error s.illegal
      else
        let rc : Rec := { node := v, origin := x.handle, words := x.fileWords, first := 2 }
        match (s.drainStores k).post (slotCluster k) x.launchNo rc (.mig k) with
        | (true, s) => .ok (s.leaveThread k)
        | (false, s) => .ok (s.parkSlot k .mig)

/-- Records held for a node and free slots, of a launch on a cluster. -/
def State.queueDepth (s : State) (cl launch n : Nat) : Nat × Nat :=
  let d := s.drover cl launch
  ((d.heldBy n).length, d.free (s.launch launch))

def execXnodeq (r d : BitVec 5) (s : State) : Host.Outcome State Fault Refusal :=
  slotInstr (.xnodeq r d) s fun k x =>
    let v := (x.xreg r).toNat
    if 64 ≤ v ∨ (Tbl.find? (s.launch x.launchNo).nodes v).isNone then .error s.illegal
    else
      let (q, f) := s.queueDepth (slotCluster k) x.launchNo v
      s.done k (x.setX d (BitVec.ofNat 64 (q % 2 ^ 32 + f * 2 ^ 32)))

/-! ## Records of teams (R30, R183, R184) -/

/-- The team goes on after its posts, or waits for their acceptance. -/
def State.afterPosts (s : State) (t : Nat) (tm : Team) (all : Bool) (done : Team) (wait : TeamWait) : State :=
  s.setTeam t (if all then done else { tm with st := .parked, wait := wait })

/-- emit; its acceptance is a release, so it stands still while LS writes of the team are in flight (R289). -/
def execEmit (dl : Bool) (a c : BitVec 7) (gd : Guard) (q : BitVec 4) (node : BitVec 6) (s : State) :
    Host.Outcome State Fault Refusal :=
  teamInstr (.emit dl a c gd q node) s fun t tm =>
    match Tbl.find? (s.launch tm.launch).nodes node.toNat with
    | none => .error (wordTrap s 0x02)
    | some nd =>
      if tm.n < a.toNat + nd.payload then .error (wordTrap s 0x02)
      else if s.lsWrites (.team t) then .ok s
      else
        let recs := (tm.acting gd).map fun l =>
          { node := node.toNat, origin := Tbl.get tm.origin 0 l, quality := q.toNat
            words := (List.range nd.payload).map fun i => tm.vreg l (a.toNat + i)
            deadline := if dl then some (BitVec.ofNat 64 (tm.gpair c.toNat)) else none : Rec }
        let (all, s) := s.postAll tm.cl tm.launch (.team t) true recs
        .ok (s.afterPosts t tm all (tm.advance 2) .emit)

/-- regroup; a node that is not declared fails like one with too few registers (DEDUCED, log 32). -/
def execRegroup (node : BitVec 6) (k : BitVec 8) (s : State) : Host.Outcome State Fault Refusal :=
  teamInstr (.regroup node k) s fun t tm =>
    if tm.divDepth ≠ 0 then .error (wordTrap s 0x0D)
    else if tm.drained = false then .error (wordTrap s 0x06)
    else
      match Tbl.find? (s.launch tm.launch).nodes node.toNat with
      | none => .error (wordTrap s 0x02)
      | some nd =>
        if tm.n < k.toNat ∨ nd.regs < k.toNat then .error (wordTrap s 0x02)
        else
          let recs := tm.active.map fun l =>
            { node := node.toNat, origin := Tbl.get tm.origin 0 l, first := 2
              words := (List.range (k.toNat - 2)).map fun i => tm.vreg l (2 + i) : Rec }
          let (all, s) := s.postAll tm.cl tm.launch (.team t) true recs
          .ok (s.afterPosts t { tm with calls := [], callSpilled := 0 } all tm.retire .regroup)

/-- nodeq (R186, R433). -/
def execNodeq (d : BitVec 7) (gd : Guard) (f : Bool) (node : BitVec 6) (s : State) : Host.Outcome State Fault Refusal :=
  teamInstr (.nodeq d gd f node) s fun t tm =>
    if tm.guardOk true 0 gd then
      if d = 63 ∨ (Tbl.find? (s.launch tm.launch).nodes node.toNat).isNone then .error (wordTrap s 0x02)
      else s.issueLong t tm f (.nodeq d.toNat node.toNat) 1
    else s.issueNothing t tm f

/-- nodeq completes with both values of one moment; the registers of a team that has ended are gone (R21). -/
def State.nodeqDone (s : State) (id : Nat) (d node t : Nat) : State :=
  let tm := s.team t
  let (q, f) := s.queueDepth tm.cl tm.launch node
  (if tm.st = .retiring then s
    else s.setTeam t ((tm.setG d (BitVec.ofNat 32 q)).setG (d + 1) (BitVec.ofNat 32 f))).finishOp id

/-! ## leave (R27 to R29, R185) -/

/-- A scalar register from two lane registers; those at or above n give zeros (R28). -/
def Team.pairOf (tm : Team) (lane lo : Nat) : W64 :=
  let half (r : Nat) : W32 := if r < tm.n then tm.vreg lane r else 0
  half (lo + 1) ++ half lo

/-- The registers of the thread that a lane becomes. -/
def Team.threadX (tm : Team) (lane : Nat) : Tbl W64 := regTable 32 fun i => if i = 0 then 0 else tm.pairOf lane (2 * i)
def Team.threadF (tm : Team) (lane : Nat) : Tbl W64 := regTable 32 fun i => tm.pairOf lane (64 + 2 * i)

/-- The user slot that a lane takes: the lowest free one of a core that no earlier work of R431 waits for. -/
def State.slotForLane (s : State) (cl : Nat) : Option Nat :=
  if (s.cluster cl).pendThreads ≠ [] then none
  else ((List.range 16).map fun i => cl * 16 + i).findSome? fun c => if s.waitingSpawns c = [] then s.freeSlot c else none

/-- The thread of a lane in a slot. -/
def State.laneToSlot (s : State) (tm : Team) (lane : Nat) (pc : W64) (k : Nat) : State :=
  let s := s.newThread k tm.launch pc (tm.threadX lane) (tm.threadF lane) tm.fmt tm.sclp tm.sg
  (s.modSlot k fun x => { x with origin := Tbl.get tm.origin 0 lane }).slotAcquire k

/-- The lowest FREE entry of the Cloakroom; none while EN is 0 (R29). -/
def Cluster.freeEntry (c : Cluster) : Option Nat :=
  if c.kckbase.getLsbD 0 then (List.range 64).find? fun e => (Tbl.find? c.cloak e).isNone else none

/-- The context of a lane as a Cloakroom entry holds it: UNBOUND, with an empty ring and no identity handle (R375). -/
def Team.laneArea (tm : Team) (lane : Nat) (pc : W64) : List Byte :=
  let x : Slot := { pc := pc, x := tm.threadX lane, f := tm.threadF lane, fmt := tm.fmt, sclp := tm.sclp, sg := tm.sg
                    origin := Tbl.get tm.origin 0 lane }
  x.area.set 0x20C 1 ++ toBytes 8 0

/-- A lane in a Cloakroom entry, READY, with the SIGNAL of R373 to the keeper of core 0; none where the area cannot
be written. -/
def State.laneToCloak (s : State) (tm : Team) (lane : Nat) (pc : W64) (e : Nat) : Option State :=
  let cl := tm.cl
  let c := s.cluster cl
  let area := (c.cloakArea e).toNat
  match s.tryWrite cl (s.slot (slotNo cl 0 15)).launchNo area (tm.laneArea lane pc) with
  | none => none
  | some s =>
    let s := s.modCluster cl fun c => { c with
      cloak := Tbl.put c.cloak e .ready, cloakReady := c.cloakReady ++ [e]
      areaLaunch := Tbl.put c.areaLaunch area tm.launch }
    let bit := bits c.kckbase.toNat 5 1
    some (if bit = 0 then s else s.keeperEvent (slotNo cl 0 0) (BitVec.ofNat 32 (2 ^ bit)))

/-- A lane placed: in a slot, else in the Cloakroom. -/
def State.placeLane (s : State) (tm : Team) (lane : Nat) (pc : W64) : Option State :=
  match s.slotForLane tm.cl with
  | some k => some (s.laneToSlot tm lane pc k)
  | none => (s.cluster tm.cl).freeEntry.bind fun e => s.laneToCloak tm lane pc e

/-- Lanes placed in their order; the answer holds those left. -/
def State.placeLanes (s : State) (tm : Team) (pc : W64) : List Nat → List Nat × State
  | [] => ([], s)
  | l :: r =>
    match s.placeLane tm l pc with
    | some s => s.placeLanes tm pc r
    | none => (l :: r, s)

/-- The team retires, or waits with the lanes that are left. -/
def State.afterLeave (s : State) (t : Nat) (tm : Team) (pc : W64) (left : List Nat) : State :=
  s.setTeam t (if left = [] then tm.retire else { tm with st := .parked, wait := .leave left pc, calls := [], callSpilled := 0 })

def execLeave (a : BitVec 7) (s : State) : Host.Outcome State Fault Refusal :=
  teamInstr (.leave a) s fun t tm =>
    if tm.divDepth ≠ 0 then .error (wordTrap s 0x0D)
    else if tm.drained = false then .error (wordTrap s 0x06)
    else
      let pc := BitVec.ofNat 64 (tm.gpair a.toNat)
      let (left, s) := if s.waitingLeaves tm.cl = [] then s.placeLanes tm pc tm.active else (tm.active, s)
      .ok (s.afterLeave t tm pc left)

/-- The next lane of a parked leave. -/
def State.nextLane (s : State) (t : Nat) : State :=
  let tm := s.team t
  match tm.wait with
  | .leave (l :: r) pc =>
    match s.placeLane tm l pc with
    | some s => s.afterLeave t tm pc r
    | none => s
  | _ => s

/-- The parked leave that is served first: the one that issued first. -/
def State.firstLeave (s : State) (cl : Nat) : Option Nat :=
  ((s.waitingLeaves cl).foldl (fun best e =>
    match best with
    | none => some e
    | some b => if e.2.issued < b.2.issued then some e else some b) (none : Option (Nat × Team))).map fun e => e.1

/-- LEAVE_LANE_PLACE. -/
def execLeaveLanePlace (team : Nat) (s : State) : Host.Outcome State Fault Refusal :=
  if s.firstLeave (s.team team).cl = some team then .next (s.nextLane team) else .next s

/-! ## The grant of a free slot (R431) -/

/-- A waiting launch thread in a slot: its index goes to a0 (R22). -/
def State.grantThread (s : State) (k launch idx : Nat) : State :=
  let l := s.launch launch
  let s := s.modCluster (slotCluster k) fun c => { c with pendThreads := c.pendThreads.drop 1 }
  s.launchThread k launch l.sentry (argRegs [BitVec.ofNat 64 idx]) (l.format 0)

/-- The SPAWN that has waited longest of those that wait for a core. -/
def State.firstSpawn (s : State) (core : Nat) : Option (Nat × Msg) :=
  (s.waitingSpawns core).foldl (fun best e =>
    match best with
    | none => some e
    | some b => if e.2.waits.getD 0 < b.2.waits.getD 0 then some e else some b) none

/-- SLOT_GRANT: a free slot goes to a launch thread, a SPAWN, a lane, or a frame, in this order. -/
def execSlotGrant (slot : Nat) (s : State) : Host.Outcome State Fault Refusal :=
  let x := s.slot slot
  if slotIndex slot = 15 ∨ x.st ≠ .free ∨ x.reserved then .next s
  else
    match (s.cluster (slotCluster slot)).pendThreads with
    | (launch, idx) :: _ => .next (s.grantThread slot launch idx)
    | [] =>
      match s.firstSpawn (slotCore slot) with
      | some (k, m) => .next ((s.spawn m).elim s fun s => s.modSlot k fun x => x.sent (x.sendQ.filter fun n => n != m))
      | none =>
        match s.firstLeave (slotCluster slot) with
        | some t => .next (s.nextLane t)
        | none => .next (s.takeFrame slot)

/-! ## Retirement of a team (R21) -/

/-- TEAM_RETIRE: a team that has ended leaves once its counters are zero; its room and its ray state are free. -/
def execTeamRetire (team : Nat) (s : State) : Host.Outcome State Fault Refusal :=
  let tm := s.team team
  if tm.st = .retiring ∧ tm.drained = true then
    .next { s with teams := Tbl.erase s.teams team, rays := s.rays.filter fun e => e.1 / 1024 != team }
  else .next s

end Sys2Proof.Machine
end

