-- ==== Sys2Proof/Machine/MemEvents.lean ====
section
/-! DEFINITION. The accesses of M-class instructions (R166 to R176): their order, what each does, deferred errors (R168),
full/empty waits (R170, R274, R275), and the ends of clause waits and barrier waits (R102, R163). -/

namespace Sys2Proof.Machine

/-! ## Atomics (R172) -/

/-- The new value of an atomic of a width w on the old value o with operand x. -/
def atomNew (code w o x : Nat) : Nat :=
  match code with
  | 0 => elAdd w o x
  | 1 => elMinS w o x
  | 2 => elMinZ w o x
  | 3 => elMaxS w o x
  | 4 => elMaxZ w o x
  | 5 => elAnd w o x
  | 6 => elOr w o x
  | 7 => elXor w o x
  | 8 => x
  | 9 => if x ≤ o then 0 else o + 1
  | 10 => if o = 0 ∨ x < o then x else o - 1
  | 11 => (addCode f32 o x).1
  | 12 => (minCode f32 o x).1
  | _ => (maxCode f32 o x).1

/-! ## What an operation does to memory, and its order (R166, R171, R287, R289, R290) -/

def MemOp.reads : MemOp → Bool
  | .store _ | .stFe | .feSet _ | .stRel _ _ | .discard | .cmaint _ _ | .scat _ => false
  | _ => true

def MemOp.writes : MemOp → Bool
  | .load _ _ | .loadNc | .ldFe | .ldAcq _ _ | .cmaint _ _ | .gath _ => false
  | _ => true

/-- The bytes that a lane's part covers. -/
def MemOp.span (m : MemOp) (u : Unit1) : Nat :=
  match m with
  | .load n _ | .store n | .ldAcq n _ | .stRel n _ | .atom _ n _ | .cas n | .gath n | .scat n => n
  | .loadNc => 4
  | .ldFe | .stFe | .feSet _ => 8
  | .discard => u.data
  | .cmaint _ _ => 256

/-- Both windows name the same local store. -/
def plainAddr (va : Nat) : Nat := if inAlias va then va - (Config.aliasBase - Config.plainBase) else va

/-- Whether two lanes' parts share a byte. -/
def unitsMeet (m : MemOp) (u : Unit1) (m' : MemOp) (u' : Unit1) : Bool :=
  let a := plainAddr u.addr.toNat
  let b := plainAddr u'.addr.toNat
  decide (a < b + m'.span u') && decide (b < a + m.span u)

def unit0 : Unit1 := Unit1.mk 0 0 0 0 false

/-- The parts of an operation that are not done. -/
def Op.pending (o : Op) : List Nat := o.todo ++ o.held.map fun e => e.1

/-- Whether two parts belong to one lane; a uniform one belongs to all. -/
def sameLane (uni : Bool) (u : Unit1) (uni' : Bool) (u' : Unit1) : Bool := uni || uni' || u.lane == u'.lane

/-- The earlier operations of the party. -/
def State.earlierOps (s : State) (id : Nat) : List (Nat × Op) :=
  s.ops.filter fun e => decide (e.1 < id) && e.2.party == (s.op id).party

/-- Whether some part of an earlier operation of the same path that a predicate names is not done. -/
def State.earlierUnit (s : State) (id : Nat) (test : MemOp → Bool → Unit1 → Bool) : Bool :=
  (s.earlierOps id).any fun e =>
    match e.2.kind with
    | .mem m uni _ us =>
      e.2.kind.path == (s.op id).kind.path && e.2.pending.any fun j => test m uni (us.getD j unit0)
    | _ => false

def OpKind.reads : OpKind → Bool
  | .mem m _ _ _ => m.reads
  | .slotStore _ _ _ | .done | .rgen _ _ _ | .rast _ _ _ _ _ | .nodeq _ _ => false
  | _ => true

def OpKind.writes : OpKind → Bool
  | .mem m _ _ _ => m.writes
  | .slotStore _ _ _ | .copy .. | .conv _ | .mat _ => true
  | _ => false

/-- A full/empty load, an acquire. -/
def OpKind.isLdFe : OpKind → Bool
  | .mem .ldFe _ _ _ => true
  | _ => false

/-- Whether what an earlier read of the team observes counts for a fence behind it: that of an acquire, and that of any LS
read with an acquire fence in between (R290, R292). -/
def observesFor (fs : List Fence) (f : Fence) (e : Nat × Op) : Bool :=
  e.2.kind.isLdFe
    || (e.2.kind.path == pathLS && e.2.kind.reads
      && fs.any fun a => decide (e.1 < a.at_) && decide (a.at_ ≤ f.at_) && a.acquires && pathIn a.src pathLS)

/-- The fences of the team that an operation has to wait for: earlier LS writes before its writes, earlier reads on
the from-path before its reads (R289); and what observes a release for a fence that passes data from one path to another
(R292). -/
def State.fenced (s : State) (id : Nat) : Bool :=
  match (s.op id).party with
  | .team t =>
    let k := (s.op id).kind
    (s.team t).fences.any fun f =>
      decide (f.at_ ≤ id) && (s.earlierOps id).any fun e =>
        decide (e.1 < f.at_) &&
          ((k.writes && pathIn f.dst k.path && pathIn f.src pathLS && e.2.kind.path == pathLS && e.2.kind.writes)
            || (k.reads && pathIn f.dst pathLS && pathIn f.src e.2.kind.path && e.2.kind.reads)
            || (pathIn f.dst k.path && (f.src != pathLS || k.path != pathLS) && observesFor (s.team t).fences f e))
  | _ => false

/-- Whether a lane's part may be performed now. -/
def State.unitReady (s : State) (id i : Nat) : Bool :=
  let o := s.op id
  match o.kind with
  | .mem m uni _ us =>
    let u := us.getD i unit0
    o.todo.contains i
      && !(o.pending.any fun j => decide (j < i) && unitsMeet m u m (us.getD j unit0))
      && !s.earlierUnit id (fun m' uni' u' =>
          sameLane uni u uni' u' &&
            (unitsMeet m u m' u'
              || (m'.writes && match m with | .stRel _ _ | .stFe => true | _ => false)
              || (m.reads && match m' with | .ldFe | .ldAcq _ _ => true | _ => false)))
      && !s.fenced id
  | _ => false

/-! ## One lane's access (R167, R169 to R176) -/

/-- A result in the registers of a lane or of the team; those of a team that has ended are gone (R21). -/
def State.putResult (s : State) (t lane : Nat) (uni : Bool) (d k v : Nat) : State :=
  s.modTeam t fun tm =>
    if tm.st = .retiring then tm else if uni then tm.setGs d k v else tm.setVs lane d k v

/-- A team's acquire at a range, at cluster scope or wider (R277, R292). -/
def State.teamAcquireAt (s : State) (t va n : Nat) : State :=
  let s := s.teamAcquire (s.team t)
  s.modTeam t fun tm => { tm with observed := tm.observed ++ s.phasesIn tm.launch va n }

/-- A read that is no acquire at cluster scope: what it shows of barrier phases is left to the next acquire fence
(R290). -/
def State.glimpse (s : State) (t va n : Nat) : State :=
  match s.phasesIn (s.team t).launch va n with
  | [] => s
  | ps => s.modTeam t fun tm => { tm with glimpsed := tm.glimpsed ++ ps }

/-- A window word taken or filled by a team. -/
def State.teamFe (s : State) (t lane : Nat) (uni : Bool) (d : Nat) (u : Unit1) (load : Bool) : Done × State :=
  let tm := s.team t
  match (s.launch tm.launch).windowKey tm.launch u.addr.toNat with
  | none => (.fail, s)
  | some key =>
    if load then
      if s.isPoisoned key then (.poisoned, s)
      else
        let (v, s) := s.takeFe none key
        (.value v, (s.putResult t lane uni d 2 v).teamAcquireAt t u.addr.toNat 8)
    else (.value 0, s.fillFe none key u.data)

/-- The access of one part. -/
def State.access (s : State) (id : Nat) (t : Nat) (m : MemOp) (uni : Bool) (d : Nat) (u : Unit1) : Done × State :=
  let tm := s.team t
  let va := u.addr.toNat
  let w := tm.who pathLS
  let own := some (s.l1Of tm)
  let put (k : Nat) (f : Nat → Nat) (r : Done × State) : Done × State :=
    match r with
    | (.value v, s) => (.value v, (s.putResult t u.lane uni d k (f v)).glimpse t va (m.span u))
    | r => r
  let s := if m.writes then s.releaseFenced id t pathLS else s
  match m with
  | .load n sg =>
    put (regsOf n) (fun v => if sg then wrap 32 (toSigned (8 * n) v) else v) (s.loadRange w (s.l1Of tm) va n u.lodged)
  | .loadNc => put 1 (fun v => v) (s.readPast w (s.l1Of tm) va 4 u.lodged)
  | .store n => s.writeRange w id own .write va (toBytes n u.data) u.lodged
  | .ldFe => s.teamFe t u.lane uni d u true
  | .stFe => s.teamFe t u.lane uni d u false
  | .feSet full =>
    match (s.launch tm.launch).windowKey tm.launch va with
    | some key => (.value 0, s.changeFull none key full)
    | none => (.fail, s)
  | .ldAcq n scope =>
    match s.readPast w (s.l1Of tm) va n u.lodged with
    | (.value v, s') =>
      if 2 ≤ scope then (.value v, (s'.putResult t u.lane uni d (regsOf n) v).teamAcquireAt t va n)
      else put (regsOf n) (fun v => v) (.value v, s')
    | r => r
  | .stRel n scope => (s.releaseHost scope).writeRange w id own .write va (toBytes n u.data) u.lodged
  | .atom code n ret =>
    put (if ret then regsOf n else 0) (fun v => v)
      (s.rmwRange w id own va n (fun o => some (atomNew code (8 * n) o u.data)) u.lodged)
  | .cas n =>
    put (regsOf n) (fun v => v) (s.rmwRange w id own va n (fun o => if o = u.data then some u.data2 else none) u.lodged)
  | .discard => s.discardRange w id own u.lodged va u.data
  | .cmaint op scope =>
    match s.place w va 256 .read u.lodged with
    | (.at_ p, s) =>
      (.value 0, if op = 0 then s else s.dropLine (l1Scope (s.l1Of tm) tm.cl scope) p.key)
    | (p, s) => (p.done, s)
  | .gath n =>
    match s.readRange (tm.who pathNI) va n u.lodged with
    | (.value v, s) => (.value v, s.putResult t u.lane uni d (regsOf n) v)
    | r => r
  | .scat n => (s.releaseFenced id t pathNI).writeRange (tm.who pathNI) id none .write va (toBytes n u.data) u.lodged

/-! ## The end of a part (R168) -/

/-- A part is no longer to do; with the last one the operation is complete, and what it has read counts for the fences
behind it. -/
def State.dropUnit (s : State) (id i : Nat) : State :=
  let o := s.op id
  let s := s.setOp id { o with todo := o.todo.filter fun j => j != i, held := o.held.filter fun e => e.1 != i }
  if (s.op id).pending = [] then (if o.kind.reads then s.refence id o else s).finishOp id else s

/-- A team stopped at a header, in CLAUSE-WAIT or PARKED on a counter. -/
def Team.atHeader (t : Team) : Bool := t.st == .clauseWait || (t.st == .parked && t.wait == .none)

/-- A deferred error is taken at once by a team that is stopped at a header. -/
def State.takeAtHeader (s : State) (t : Nat) : State :=
  let tm := s.team t
  if tm.atHeader then
    match tm.dueError with
    | some e => s.takeDeferred t tm.hdrWord e
    | none => s
  else s

/-- An error of one part: its access has no effect, the rest completes. -/
def State.deferError (s : State) (id i : Nat) (code : BitVec 8) : State :=
  let o := s.op id
  match o.party, o.kind with
  | .team t, .mem _ uni _ us =>
    let u := us.getD i unit0
    let lane : W32 := if uni then 0xFFFFFFFF else BitVec.ofNat 32 u.lane
    let e := Deferred.mk code id o.pc lane u.addr o.handler
    let s := s.modTeam t fun tm => if tm.st = .retiring then tm else { tm with deferred := tm.deferred ++ [e] }
    ((s.setOp id { o with failed := true }).dropUnit id i).takeAtHeader t
  | _, _ => s

/-- A part waits in the replay table; a team that waits for the counter is PARKED (R168). -/
def State.holdUnit (s : State) (id i token : Nat) : State :=
  let o := s.op id
  let s := s.setOp id { o with todo := o.todo.filter fun j => j != i, held := o.held ++ [(i, token)] }
  match o.party with
  | .team t =>
    s.modTeam t fun tm =>
      if tm.st = .clauseWait ∧ (fld tm.hdrWord 14 12).getLsbD o.flag then { tm with st := .parked, wait := .none } else tm
  | _ => s

/-- What an access ends in, for its part. -/
def State.endUnit (id i : Nat) (r : Done × State) : State :=
  match r with
  | (.value _, s') => s'.dropUnit id i
  | (.park token, s') => s'.holdUnit id i token
  | (.stall, s') => s'
  | (.fail, s') => s'.deferError id i 0x0E
  | (.poisoned, s') => s'.deferError id i 0x0C

/-- Whether an access ended with an error. -/
def Done.isError : Done → Bool
  | .fail | .poisoned => true
  | _ => false

/-! ## Full/empty words in turn (R274) -/

/-- The request of a unit reaches the local store: it may be performed, and those of the lanes before it have arrived
(R170, R274). When it arrives is the memory's choice. -/
def State.feArrive (s : State) (id i : Nat) : State :=
  let o := s.op id
  let arrived (j : Nat) : Bool := (Tbl.find? o.places j).isSome
  if s.unitReady id i && !arrived i && o.todo.all fun j => decide (i ≤ j) || arrived j then
    { s.setOp id { o with places := Tbl.put o.places i s.nextOp } with nextOp := s.nextOp + 1 }
  else s

/-- Whether a part finds its word in the state it needs, with no earlier request for it; only full/empty loads and stores
need one, and only once they have arrived. -/
def State.feUnitReady (s : State) (id i : Nat) : Bool :=
  let o := s.op id
  let word (t : Nat) (load : Bool) (u : Unit1) : Bool :=
    match (s.launch (s.team t).launch).windowKey (s.team t).launch u.addr.toNat, Tbl.find? o.places i with
    | some key, some n => s.isFull key == load && !s.feAhead key load (some n)
    | _, _ => false
  match o.kind, o.party with
  | .mem op _ _ us, .team t =>
    match op with
    | .ldFe => word t true (us.getD i unit0)
    | .stFe => word t false (us.getD i unit0)
    | _ => true
  | _, _ => false

/-- One part performed, where it may be; want tells which ends count. -/
def State.runUnit (s : State) (id i : Nat) (want : Done → Bool) : State :=
  let o := s.op id
  match o.kind, o.party with
  | .mem m uni d us, .team t =>
    if s.unitReady id i && s.feUnitReady id i then
      let r := s.access id t m uni d (us.getD i unit0)
      if want r.1 then State.endUnit id i r else s
    else s
  | _, _ => s

def MemOp.waitsFe : MemOp → Bool
  | .ldFe | .stFe => true
  | _ => false

/-- An operation that waits for a full/empty word. -/
def OpKind.waitsFe : OpKind → Bool
  | .mem m _ _ _ => m.waitsFe
  | _ => false

/-- An operation of the asynchronous engines, which ASYNC_COMPLETE performs. -/
def OpKind.isAsync : OpKind → Bool
  | .mem (.gath _) _ _ _ => true
  | .mem (.scat _) _ _ _ => true
  | .copy .. => true
  | .conv _ => true
  | .nodeq _ _ => true
  | _ => false

/-- MEM_ACCESS_COMPLETE: one lane's access; an instruction without lanes completes. -/
def execMemAccessComplete (op unit : Nat) (s : State) : Host.Outcome State Fault Refusal :=
  let o := s.op op
  if (Tbl.find? s.ops op).isNone ∨ o.kind.isAsync = true ∨ o.kind.waitsFe = true then
    if o.kind.waitsFe ∧ o.pending = [] then .next (s.finishOp op) else .next s
  else
    match o.kind with
    | .slotStore _ _ _ =>
      match o.party with
      | .slot k =>
        if (s.pendingStores k).all fun e => e.1 ≥ op || !storesMeet e.2 o then .next (s.performStore op o) else .next s
      | _ => .next s
    | .done => .next (s.finishOp op)
    | .mem _ _ _ _ => .next (if o.pending = [] then s.finishOp op else s.runUnit op unit fun d => !d.isError)
    | _ => .next s
where
  /-- Two buffered stores of one thread to a common byte take effect in their order. -/
  storesMeet (a b : Op) : Bool :=
    match b.kind with
    | .slotStore ps _ _ => storeMeets ps a
    | _ => false

/-- DEFERRED_ERROR_ARRIVAL: one lane's access that ends with an error. -/
def execDeferredErrorArrival (op unit : Nat) (s : State) : Host.Outcome State Fault Refusal :=
  if (s.op op).kind.isAsync then .next s else .next (s.runUnit op unit Done.isError)

/-! ## Waits that end -/

/-- A thread's full/empty word in the state it needs, with no earlier request. -/
def State.feSlotServe (s : State) (k : Nat) : State :=
  let x := s.slot k
  match x.st, x.wait with
  | .parked, .fe op va _ order =>
    match (s.launch x.launchNo).windowKey x.launchNo va.toNat with
    | none => s
    | some key =>
      match op with
      | .load rd =>
        if s.isFull key && !s.feAhead key true (some order) then
          if s.isPoisoned key then s.keeperTrap k 27 va else s.feTake k x.unpark key (BitVec.ofNat 5 rd)
        else s
      | .store v => if !s.isFull key && !s.feAhead key false (some order) then s.feFill k x.unpark key v else s
  | _, _ => s

/-- Whether the phase that a team waits for has come (R163). -/
def State.sbarOver (s : State) (tm : Team) (va : W64) (ph : Bool) : Bool :=
  match (s.launch tm.launch).windowKey tm.launch va.toNat with
  | none => false
  | some k => (bits (s.readKey k 8) 32 32 == 1) != ph

/-- sbar.wt ends when the phase differs; it yielded when it issued (R105). -/
def State.sbarServe (s : State) (t : Nat) : State :=
  let tm := s.team t
  match tm.st, tm.wait with
  | .parked, .sbar va ph _ =>
    match (s.launch tm.launch).windowKey tm.launch va.toNat with
    | none => s
    | some k =>
      if s.isPoisoned k then s.teamTrap t (Trap.mk 0x0C 0 0xFFFFFFFF va)
      else if (bits (s.readKey k 8) 32 32 == 1) != ph then
        ((s.seeWord k).endSbar t tm k).modTeam t fun x => { x with yielded := false }
      else s
  | _, _ => s

/-- FE_WAIT_SERVED. -/
def execFeWaitServed (w : WaitRef) (s : State) : Host.Outcome State Fault Refusal :=
  match w with
  | .op id unit => if (s.op id).kind.waitsFe then .next ((s.feArrive id unit).runUnit id unit fun _ => true) else .next s
  | .slot k => .next (s.feSlotServe k)
  | .team t => .next (s.sbarServe t)

/-- SBAR_WAKE. -/
def execSbarWake (team : Nat) (s : State) : Host.Outcome State Fault Refusal := .next (s.sbarServe team)

/-- Whether a wait that is abandoned from a cycle on is over. -/
def State.waitOver (s : State) (cl until_ : Nat) : Bool := until_ != 0 && decide (until_ ≤ s.clock cl)

/-- FERETRY_EXPIRY: the wait is abandoned with cause 0x0A, or keeper cause 25 (R170, R261, R275). -/
def execFeretryExpiry (w : WaitRef) (s : State) : Host.Outcome State Fault Refusal :=
  match w with
  | .op id unit =>
    let o := s.op id
    match o.party with
    | .team t =>
      if o.kind.waitsFe && o.todo.contains unit && !s.feUnitReady id unit && s.waitOver (s.team t).cl o.until_ then
        .next (s.deferError id unit 0x0A)
      else .next s
    | _ => .next s
  | .slot k =>
    let x := s.slot k
    match x.st, x.wait with
    | .parked, .fe _ va until_ _ =>
      if s.waitOver (slotCluster k) until_ then .next (s.keeperTrap k 25 va) else .next s
    | _, _ => .next s
  | .team t =>
    let tm := s.team t
    match tm.st, tm.wait with
    | .parked, .sbar va ph until_ =>
      if s.waitOver tm.cl until_ && !s.sbarOver tm va ph then .next (s.teamTrap t (Trap.mk 0x0A 0 0xFFFFFFFF va))
      else .next s
    | _, _ => .next s

/-- CLAUSE_WAIT_END: every counter that the header names is zero. -/
def execClauseWaitEnd (team : Nat) (s : State) : Host.Outcome State Fault Refusal :=
  let tm := s.team team
  if tm.atHeader && tm.waitOver (fld tm.hdrWord 14 12) then .next (s.setTeam team { tm with st := .ready }) else .next s

end Sys2Proof.Machine
end

