-- ==== Sys2Proof/Machine/Blocks.lean ====
section
/-! DEFINITION. Blocks of 32 elements with a scale (R64 to R68), entropy-coded blocks (R69 to R73), and the conversion of
a block (R181). -/

namespace Sys2Proof.Machine

/-- A number below n that a free value picks; 0 for n = 0. -/
def pickBelow (v : W64) (n : Nat) : Nat := v.toNat % n

/-- A list in an order that free values pick: every order is possible. -/
def freeOrder {α : Type} (l : List α) (vs : List W64) : List α :=
  match l, vs with
  | x :: r, v :: vs =>
    let o := freeOrder r vs
    o.insertIdx (pickBelow v (o.length + 1)) x
  | l, _ => l

/-! ## Scales and elements -/

/-- The value of a scale code: kind 1 E8M0, 2 E5M3 (R65, R66). -/
def scaleVal (kind code : Nat) : Val := if kind = 1 then e8m0 code else e5m3.decode code

/-- The bytes of a block of a format. -/
def blockBytes (fmt : Nat) : Nat := 4 * widthX fmt

/-- Element t of a block held as a number (R64). -/
def blockElem (fmt v t : Nat) : Nat := elem (widthX fmt) t v

/-- Element times scale (R67): NaN for a NaN on either side; infinity times zero sets NV. -/
def scaledVal (s x : Val) : Val × W32 :=
  match s, x with
  | .nan _, _ => (.nan false, 0)
  | _, .nan _ => (.nan false, 0)
  | _, _ => mulVal s x

/-- A block as it is read: 32 values, with flags. -/
structure Block where
  vals : List Val
  flags : W32 := 0
  deriving DecidableEq, Repr

def nanBlock : Block := Block.mk (List.replicate 32 (.nan false)) 0

/-- An element read from storage, times its scale, with its flags (R61, R67). -/
def scaledElem (scale : Option Val) (x : Val) : Val × W32 :=
  match scale with
  | none => (x, snanFlag [x])
  | some s => ((scaledVal s x).1, snanFlag [x] ||| (scaledVal s x).2)

/-- Elements under their scale; a signalling NaN among them sets NV (R61). -/
def scaledBlock (scale : Option Val) (xs : List Val) : Block :=
  match scale with
  | none => Block.mk xs (snanFlag xs)
  | some s =>
    let r := xs.map fun x => scaledVal s x
    Block.mk (r.map fun e => e.1) ((r.map fun e => e.2).foldl (fun a b => a ||| b) (snanFlag xs))

/-- The values of a plain or scaled block. -/
def readBlock (fmt v : Nat) (scale : Option Val) : Block :=
  scaledBlock scale ((List.range 32).map fun t => decodeX fmt (blockElem fmt v t))

/-! ## ECB8 (R69 to R73) -/

/-- The flag that a malformed block sets (R72): bit 5 of TSTAT. -/
def fECB8 : W32 := 32

/-- A field of a block that begins at a byte of its chunk; none where it would need byte 896 (R73). -/
def ecbField (chunk off p w : Nat) : Option Nat :=
  if 8 * off + p + w ≤ 7168 then some (chunk / 2 ^ (8 * off + p) % 2 ^ w) else none

/-- The ones at the head of a token, at most k more; none where the chunk ends. -/
def ecbOnes (chunk off : Nat) (n pos : Nat) : Nat → Option Nat × Nat
  | 0 => (some n, pos)
  | k + 1 =>
    match ecbField chunk off pos 1 with
    | none => (none, pos)
    | some 1 => ecbOnes chunk off (n + 1) (pos + 1) k
    | some _ => (some n, pos)

/-- The change of exponent that a short token names (R70). -/
def ecbDelta : Nat → Int
  | 0 => 0
  | 1 => 1
  | 2 => -1
  | 3 => 2
  | _ => -2

/-- One exponent token: the exponent, or none for a malformed block, and the position reached. -/
def ecbToken (chunk off base ew pos : Nat) : Option Nat × Nat :=
  match ecbOnes chunk off 0 pos 5 with
  | (none, pos) => (none, pos)
  | (some n, pos) =>
    if n < 5 then
      let e := Int.ofNat base + ecbDelta n
      if 432 < pos + 1 ∨ e < 0 ∨ 2 ^ ew - 1 < e then (none, pos + 1) else (some e.toNat, pos + 1)
    else
      match ecbField chunk off pos ew with
      | none => (none, pos)
      | some e => if 432 < pos + ew then (none, pos + ew) else (some e, pos + ew)

/-- The tokens of n elements. -/
def ecbTokens (chunk off base ew pos : Nat) : Nat → Option (List Nat) × Nat
  | 0 => (some [], pos)
  | n + 1 =>
    match ecbToken chunk off base ew pos with
    | (none, pos) => (none, pos)
    | (some e, pos) =>
      match ecbTokens chunk off base ew pos n with
      | (some r, pos) => (some (e :: r), pos)
      | (none, pos) => (none, pos)

/-- The sign and mantissa fields of n elements. -/
def ecbPlane (chunk off w pos : Nat) : Nat → Option (List Nat) × Nat
  | 0 => (some [], pos)
  | n + 1 =>
    match ecbField chunk off pos w with
    | none => (none, pos)
    | some f =>
      match ecbPlane chunk off w (pos + w) n with
      | (some r, pos) => (some (f :: r), pos)
      | (none, pos) => (none, pos)

/-- A decoded block: scale code, whether its elements are E5M2, and element codes; none for a malformed one. pos is
the stream position reached. -/
structure Ecb where
  body : Option (Nat × Bool × List Nat)
  pos : Nat
  deriving DecidableEq, Repr

/-- DecodeECB8 of R71 on the block at a byte of its chunk. A block malformed by stream bits 14 and 15 has reached
position 16, the end of the fields that the decoder has read (DEDUCED, log 97). -/
def ecbDecode (chunk off : Nat) : Ecb :=
  match ecbField chunk off 0 16 with
  | none => Ecb.mk none 0
  | some h =>
    if bits h 15 14 ≠ 0 then Ecb.mk none 16
    else
      let wide := bits h 13 13 == 1
      let ew := if wide then 5 else 4
      let mw := if wide then 2 else 3
      match ecbPlane chunk off (mw + 1) 16 32 with
      | (none, pos) => Ecb.mk none pos
      | (some sm, pos) =>
        match ecbTokens chunk off (bits h 12 8) ew pos 32 with
        | (none, pos) => Ecb.mk none pos
        | (some es, pos) =>
          let code (i : Nat) : Nat :=
            let f := sm.getD i 0
            f / 2 ^ mw * 128 + es.getD i 0 * 2 ^ mw + f % 2 ^ mw
          Ecb.mk (some (bits h 7 0, wide, (List.range 32).map code)) pos

/-- Offset k of a chunk. -/
def chunkOffset (chunk k : Nat) : Nat := chunk / 2 ^ (16 * k) % 2 ^ 16

/-- The block at offset k; one whose offset lies outside the chunk decodes nothing. -/
def chunkEcb (chunk k : Nat) : Ecb :=
  if 896 ≤ chunkOffset chunk k then Ecb.mk none 0 else ecbDecode chunk (chunkOffset chunk k)

/-- The end of block k (R73). -/
def chunkEnd (chunk k : Nat) : Nat := Nat.min 896 (chunkOffset chunk k + ((chunkEcb chunk k).pos + 7) / 8)

/-- Block k of a chunk: well formed under R73, or none. -/
def chunkBlock (chunk k : Nat) : Option (Nat × Bool × List Nat) :=
  let o := chunkOffset chunk k
  let b := chunkEcb chunk k
  if o < 32 ∨ (0 < k ∧ o ≤ chunkOffset chunk (k - 1)) ∨ (k < 15 ∧ chunkOffset chunk (k + 1) < o + (b.pos + 7) / 8) then
    none
  else b.body

/-- The values of block k of a chunk; a malformed one reads as NaNs and sets the flag (R72). -/
def readEcb (chunk k : Nat) : Block :=
  match chunkBlock chunk k with
  | none => { nanBlock with flags := fECB8 }
  | some (scale, wide, es) =>
    let fmt := if wide then 4 else 3
    scaledBlock (some (e5m3.decode scale)) (es.map fun e => decodeX fmt e)

/-! ## ConvertBlock (R181) -/

/-- Fmax of a destination format. -/
def fmaxVal (fmt : Nat) : Val :=
  match fmt with
  | 3 => Val.ofInt 448
  | 4 => Val.ofInt 57344
  | 5 => Val.ofInt 6
  | 6 => Val.ofInt 127
  | _ => Val.ofInt 7

def Val.abs : Val → Val
  | .fin _ m e => .fin false m e
  | .inf _ => .inf false
  | v => v

/-- The largest of the magnitudes. -/
def maxAbs (vs : List Val) : Val :=
  vs.foldl (fun m v => if cmpVal m v.abs = .lt then v.abs else m) (Val.ofInt 0)

/-- The least scale code of a kind with M / s at most Fmax; the greatest value where none is. -/
def scaleFor (kind fmt : Nat) (m : Val) : Nat :=
  let first := if kind = 1 then 0 else 1
  let fits (code : Nat) : Bool := cmpVal m (mulVal (fmaxVal fmt) (scaleVal kind code)).1 != .gt
  ((List.range (255 - first)).map fun i => first + i).find? fits |>.getD 254

/-- What ConvertBlock writes: the scale code, the element codes, and the flags. -/
structure Encoded where
  scale : Nat
  codes : List Nat
  flags : W32
  deriving DecidableEq, Repr

/-- The elements rounded, with their flags. FMT.SAT saturates every floating-point destination, f32, f16 and bf16
among them (DEDUCED, log 98). -/
def encodeWith (fmt rnd : Nat) (sat : Bool) (scale : Nat) (vs : List Val) : Encoded :=
  let r := vs.map fun v => roundX fmt rnd sat 0 v
  Encoded.mk scale (r.map fun e => e.1) ((r.map fun e => e.2).foldl (fun a b => a ||| b) 0)

/-- ConvertBlock; kind is SCK. It rounds by RND, also where R67 names RNE for a value delivered in a wider format: R75 and
R181 give the conversion its mode (DEDUCED, log 124). -/
def convertBlock (kind fmt rnd : Nat) (sat : Bool) (vs : List Val) : Encoded :=
  if kind = 0 then encodeWith fmt rnd sat 0 vs
  else if vs.any fun v => match v with | .fin _ _ _ => false | _ => true then
    Encoded.mk 255 (List.replicate 32 0) 0
  else
    let m := maxAbs vs
    let code := if cmpVal m (Val.ofInt 0) = .eq then (if kind = 1 then 127 else 0x78) else scaleFor kind fmt m
    encodeWith fmt rnd sat code (vs.map fun v => (divVal 80 v (scaleVal kind code)).1)

/-- The bytes of 32 element codes. -/
def blockOf (fmt : Nat) (codes : List Nat) : List Byte :=
  toBytes (blockBytes fmt) (packElems (widthX fmt) (fun i => codes.getD i 0) 32)

end Sys2Proof.Machine
end

