-- ==== Sys2Proof/Machine/Async.lean ====
section
/-! DEFINITION. The asynchronous engines: cpy, cpy.2d, cpy.mx, gath, scat, and the completion of their operations
(R177 to R182, R427, R433). -/

namespace Sys2Proof.Machine

/-! ## Issue -/

/-- A once-per-team long-latency instruction: nothing while an ld.acq is outstanding (R171); with a false guard it
only counts, and needs no unit (R433). -/
def guardedUnit (i : Instr) (gd : Guard) (f : Bool) (absent : Team → Bool) (s : State)
    (body : Nat → Team → Except Trap State) : Host.Outcome State Fault Refusal :=
  unitInstr i (fun tm => tm.guardOk true 0 gd && absent tm) s fun t tm =>
    if s.acqPending t then .ok s
    else if tm.guardOk true 0 gd then body t tm
    else s.issueNothing t tm f

/-- One that needs no optional unit. -/
def guardedInstr (i : Instr) (gd : Guard) (f : Bool) (s : State) (body : Nat → Team → Except Trap State) :
    Host.Outcome State Fault Refusal :=
  guardedUnit i gd f (fun _ => false) s body

/-- The check of a range of a once-per-team instruction (R49). An empty range accesses nothing. -/
def State.checkRange (s : State) (tm : Team) (sg : BitVec 3) (need : Need) (first : Int) (size align : Nat)
    (k : Except Trap State) : Except Trap State :=
  if size = 0 then k else
  let bad (code : BitVec 8) : Except Trap State := .error (Trap.mk code 0 0xFFFFFFFF (BitVec.ofInt 64 first))
  match checkNamed (s.launch tm.launch) tm.launch (Tbl.get tm.sg 0 sg.toNat) need first size align with
  | .ok => k
  | .violation => bad 0x03
  | .misaligned => bad 0x04

/-- Rows of a two-dimensional range, every one checked. -/
def State.checkRows (s : State) (tm : Team) (sg : BitVec 3) (need : Need) (first : Int) (bytes pitch : Nat)
    (k : Except Trap State) : Nat → Except Trap State
  | 0 => k
  | n + 1 => s.checkRange tm sg need first bytes 1 (s.checkRows tm sg need (first + Int.ofNat pitch) bytes pitch k n)

/-- The first range that reaches a lodged page through a segment without L, row by row (R51). -/
def State.lodgedRow (s : State) (tm : Team) (sg : BitVec 3) (a : Acc) (first bytes pitch rows : Nat) : Option (Acc × Nat) :=
  (((List.range rows).map fun i => first + i * pitch).find? fun va => s.lodgedBarred tm sg a va bytes).map fun va => (a, va)

/-- A once-per-team operation of the AC path that reaches such a page traps at the instruction (R326). -/
def State.unlessLodged (s : State) (t : Nat) (tm : Team) (bad : List (Option (Acc × Nat)))
    (k : Except Trap State) : Except Trap State :=
  match bad.findSome? (fun (e : Option (Acc × Nat)) => e) with
  | some (a, va) => .ok (s.lsegTrap t tm pathAC a 0xFFFFFFFF va)
  | none => k

/-- The pieces of one row: source, destination and length of each; none crosses a 256-byte boundary of the
destination (R178). n is the fuel. -/
def rowPieces (src dst len : Nat) : Nat → List (Nat × Nat × Nat)
  | 0 => []
  | n + 1 =>
    if len = 0 then []
    else
      let here := Nat.min len (256 - dst % 256)
      (src, dst, here) :: rowPieces (src + here) (dst + here) (len - here) n

/-- The pieces of a copy. -/
def copyPieces (src dst bytes rows spitch dpitch : Nat) : List (Nat × Nat × Nat) :=
  (List.range rows).flatMap fun i => rowPieces (src + i * spitch) (dst + i * dpitch) bytes (bytes / 256 + 2)

/-- A copy in flight. -/
def State.issueCopy (s : State) (t : Nat) (tm : Team) (f : Bool) (d a : BitVec 7) (bytes rows spitch dpitch : Nat)
    (dseg sseg : BitVec 3) (bar : Option Nat) : Except Trap State :=
  let src := tm.gpair a.toNat
  let dst := tm.gpair d.toNat
  s.checkRows tm sseg needRead (Int.ofNat src) bytes spitch
    (s.checkRows tm dseg needWrite (Int.ofNat dst) bytes dpitch
      (s.unlessLodged t tm
        [s.lodgedRow tm sseg .read src bytes spitch rows, s.lodgedRow tm dseg .write dst bytes dpitch rows] <|
      s.issueLong t tm f
        (.copy (BitVec.ofNat 64 src) (BitVec.ofNat 64 dst) bytes rows spitch dpitch
          (segL (Tbl.get tm.sg 0 sseg.toNat)) (segL (Tbl.get tm.sg 0 dseg.toNat)) bar)
        (copyPieces src dst bytes rows spitch dpitch).length) rows) rows

def execCpy (bar : Bool) (d a b c : BitVec 7) (gd : Guard) (f : Bool) (dseg sseg : BitVec 3) (s : State) :
    Host.Outcome State Fault Refusal :=
  guardedInstr (.cpy bar d a b c gd f dseg sseg) gd f s fun t tm =>
    let bytes := (tm.greg b.toNat).toNat
    if bar then
      match s.barrierKey tm (BitVec.ofNat 64 (tm.gpair c.toNat)) with
      | .error e => .error e
      | .ok k => s.issueCopy t tm f d a bytes 1 0 0 dseg sseg (some k)
    else s.issueCopy t tm f d a bytes 1 0 0 dseg sseg none

def execCpy2d (d a b c : BitVec 7) (gd : Guard) (f : Bool) (dseg sseg : BitVec 3) (s : State) :
    Host.Outcome State Fault Refusal :=
  guardedInstr (.cpy2d d a b c gd f dseg sseg) gd f s fun t tm =>
    s.issueCopy t tm f d a (tm.greg b.toNat).toNat (tm.greg (b.toNat + 1)).toNat (tm.greg c.toNat).toNat
      (tm.greg (c.toNat + 1)).toNat dseg sseg none

/-! ## cpy.mx (R180, R427) -/

/-- A format code of a descriptor, inherited where it is 15. -/
def inheritFmt (code own : Nat) : Nat := if code = 15 then own else code

/-- A format code that exists (R54). -/
def fmtCode (c : Nat) : Bool := decide (c ≤ 8)

/-- Formats that take scales. -/
def scalable (c : Nat) : Bool := decide (3 ≤ c) && decide (c ≤ 7)

/-- Whether the read of a scale pair has to wait as an ld.nc of the team would: for earlier accesses of the team to its
bytes, for a full/empty load, which is an acquire, and for what its acquire fences cover (R166, R289, R427). -/
def State.pairBlocked (s : State) (t va : Nat) : Bool :=
  let mine := s.ops.filter fun e => e.2.party == .team t
  (mine.any fun e =>
    match e.2.kind with
    | .mem m _ _ us =>
      e.2.kind.isLdFe || e.2.kind.path == pathLS &&
        e.2.pending.any fun j => unitsMeet m (us.getD j unit0) (.load 16 false) { unit0 with addr := BitVec.ofNat 64 va }
    | _ => false)
  || (s.team t).fences.any fun f =>
    pathIn f.dst pathLS && mine.any fun e => decide (e.1 < f.at_) && pathIn f.src e.2.kind.path && e.2.kind.reads

/-- The scale pair read at issue (R427): 16 bytes on the LS path, checked like a fetch but with RD. -/
def State.scalePair (s : State) (t : Nat) (tm : Team) (va : Nat) (k : Nat → State → Except Trap State) :
    Except Trap State :=
  let bad (code : BitVec 8) : Except Trap State := .error (Trap.mk code 0 0xFFFFFFFF (BitVec.ofNat 64 va))
  match checkSearch (s.launch tm.launch) tm.launch tm.sg needRead va 16 16 with
  | (.violation, _) => bad 0x03
  | (.misaligned, _) => bad 0x04
  | (.ok, l) =>
    if s.pairBlocked t va then .ok s
    else State.issueDone t va (s.readPast (tm.who pathLS) (s.l1Of tm) va 16 l) k

/-- The descriptor of cpy.mx, decoded: none for one that R180 rejects. The source and destination stand in pairs. With INH
set the fields SAT, RND, SCK and ASCK of the descriptor are not used, and a reserved code in them rejects nothing (DEDUCED,
log 100). -/
def Team.convOf (tm : Team) (d a c : BitVec 7) (sl dl : Bool) : Option Conv :=
  let w := (tm.greg c.toNat).toNat
  let inh := bits w 24 24 == 1
  let fm := tm.fmt.toNat
  let afmt := inheritFmt (bits w 7 4) (bits fm 7 4)
  let cfmt := inheritFmt (bits w 15 12) (bits fm 15 12)
  let sck := if inh then bits fm 19 18 else bits w 19 18
  let asck := if inh then bits fm 19 18 else bits w 17 16
  let rnd := if inh then bits fm 22 20 else bits w 22 20
  let sat := (if inh then bits fm 23 23 else bits w 23 23) == 1
  let zeros := bits w 31 25 == 0 && bits w 11 8 == 0 && bits w 3 0 == 0
  if zeros && fmtCode afmt && decide (cfmt ≤ 7) && decide (rnd < 4) && decide (sck < 3) && decide (asck < 3)
      && (asck == 0 || scalable afmt) && (sck == 0 || scalable cfmt) then
    some { src := BitVec.ofNat 64 (tm.gpair a.toNat), dst := BitVec.ofNat 64 (tm.gpair d.toNat)
           count := (tm.greg (c.toNat + 1)).toNat, afmt := afmt, asck := asck, abase := 0
           cfmt := cfmt, sck := sck, cbase := 0, rnd := rnd, sat := sat, sl := sl, dl := dl }
  else none

/-- The bytes of the source range. -/
def Conv.sourceBytes (c : Conv) : Nat :=
  if c.afmt = 8 then (c.count + 15) / 16 * 896 else c.count * blockBytes c.afmt

/-- cpy.mx. A zero scale pair address with a scale kind set raises cause 0x02 also when COUNT is 0 (DEDUCED, log 101). -/
def execCpyMx (d a c : BitVec 7) (gd : Guard) (f : Bool) (dseg sseg : BitVec 3) (s : State) :
    Host.Outcome State Fault Refusal :=
  guardedInstr (.cpyMx d a c gd f dseg sseg) gd f s fun t tm =>
    match tm.convOf d a c (segL (Tbl.get tm.sg 0 sseg.toNat)) (segL (Tbl.get tm.sg 0 dseg.toNat)) with
    | none => .error (wordTrap s 0x02)
    | some cv =>
      let own := tm.gpair (c.toNat + 2)
      let pair := if own = 0 then tm.sclp.toNat else own
      let scaled := cv.asck != 0 || cv.sck != 0
      if scaled && pair == 0 then .error (wordTrap s 0x02)
      else
        s.checkRange tm sseg needRead (Int.ofNat cv.src.toNat) cv.sourceBytes 1
          (s.checkRange tm dseg needWrite (Int.ofNat cv.dst.toNat) (cv.count * blockBytes cv.cfmt) 1
            (s.unlessLodged t tm
              [s.lodgedRow tm sseg .read cv.src.toNat cv.sourceBytes 0 1,
                s.lodgedRow tm dseg .write cv.dst.toNat (cv.count * blockBytes cv.cfmt) 0 1] <|
            if scaled && cv.count != 0 then
              s.scalePair t tm pair fun v s =>
                let cv := { cv with abase := BitVec.ofNat 64 v, cbase := BitVec.ofNat 64 (v / 2 ^ 64) }
                let na := if cv.asck = 0 then 0 else cv.count
                let nc := if cv.sck = 0 then 0 else cv.count
                s.checkRange tm sseg needRead (Int.ofNat cv.abase.toNat) na 1
                  (s.checkRange tm dseg needWrite (Int.ofNat cv.cbase.toNat) nc 1
                    (s.unlessLodged t tm
                      [s.lodgedRow tm sseg .read cv.abase.toNat na 0 1, s.lodgedRow tm dseg .write cv.cbase.toNat nc 0 1]
                      (s.issueLong t tm f (.conv cv) cv.count)))
            else s.issueLong t tm f (.conv cv) cv.count))

/-! ## gath and scat (R182) -/

/-- A per-lane instruction of the NI path. -/
def laneAsync (i : Instr) (gd : Guard) (f : Bool) (form : Team → MemForm) (s : State) :
    Host.Outcome State Fault Refusal :=
  teamInstr i s fun t tm =>
    if s.acqPending t then .ok s
    else
      let m := form tm
      let lanes := tm.acting gd
      match s.checkLanes tm m lanes with
      | some tr => .error tr
      | none =>
        match s.lodgedLane tm m lanes with
        | some l => .ok (s.lsegTrap t tm pathNI m.op.acc (BitVec.ofNat 32 l) (m.first tm l).toNat)
        | none =>
        let units := lanes.map fun l =>
          Unit1.mk l (BitVec.ofInt 64 (m.first tm l)) (m.data l) 0 (segL (Tbl.get tm.sg 0 m.sg.toNat))
        s.issueLong t tm f (.mem m.op false m.d.toNat units) lanes.length

def execGath (d a : BitVec 7) (gd : Guard) (f : Bool) (z : BitVec 2) (sg : BitVec 3) (s : State) :
    Host.Outcome State Fault Refusal :=
  let n := 4 * 2 ^ z.toNat
  laneAsync (.gath d a gd f z sg) gd f (loadForm (.gath n) n false d a sg 0) s

def execScat (d a : BitVec 7) (gd : Guard) (f : Bool) (z : BitVec 2) (sg : BitVec 3) (s : State) :
    Host.Outcome State Fault Refusal :=
  let n := 4 * 2 ^ z.toNat
  laneAsync (.scat d a gd f z sg) gd f (storeForm (.scat n) n false d a sg 0) s

/-! ## Pieces of a copy (R178) -/

/-- The units of storage that the bytes of the pieces i.. stand in, where the source byte is poisoned. -/
def poisonedBytes (s : State) (ps : List Piece) : List Bool :=
  ps.flatMap fun p => (List.range p.len).map fun i => s.isPoisoned (keyAdd p.key i)

/-- Poison carried to the destination bytes. -/
def State.carryPoison (s : State) (ps : List Piece) (bad : List Bool) : State :=
  match ps with
  | [] => s
  | p :: r =>
    let s := (List.range p.len).foldl
      (fun (s : State) i => if bad.getD i false then s.setPoison (keyAdd p.key i) true else s) s
    s.carryPoison r (bad.drop p.len)

/-- Whether a byte of the destination lies in a source row: what it holds afterwards is not architectural (R178). -/
def overlapped (src bytes rows spitch va : Nat) : Bool :=
  (List.range rows).any fun i =>
    decide (plainAddr (src + i * spitch) ≤ plainAddr va) && decide (plainAddr va < plainAddr (src + i * spitch) + bytes)

/-- One piece: the answer, the address that an error names. open names the destination bytes that lie in the source: they
keep what they hold until the copy is complete, so that every other byte is copied from the source as it was. -/
def State.copyPiece (s : State) (id : Nat) (w : Who) (src dst len : Nat) (sl dl : Bool) (open_ : Nat → Bool) :
    Done × Nat × State :=
  match s.piecesOf w .read sl src len with
  | (.error p, s) => (p.done, src, s)
  | (.ok ps, s) =>
    match s.piecesOf w .write dl dst len with
    | (.error p, s) => (p.done, dst, s)
    | (.ok qs, s) =>
      let bs := s.readPieces w.path ps
      let old := qs.flatMap fun q => s.bytesAt q.key q.len
      let bytes := (List.range len).map fun i => if open_ (dst + i) then old.getD i 0 else bs.getD i 0
      let bad := (poisonedBytes s ps).mapIdx fun i b => b && !open_ (dst + i)
      let late := ((pieceKeys qs).zipIdx.filter fun e => open_ (dst + e.2)).map fun e => e.1
      match s.writeAt w id none .write dst qs bytes with
      | (.value v, s) =>
        let o := s.op id
        (.value v, dst, (s.setOp id { o with late := o.late ++ late }).carryPoison qs bad)
      | (r, s) => (r, dst, s)

/-- The overlapped destination bytes of a copy that is complete hold free values (R178). -/
def State.openLate (s : State) (id : Nat) : State :=
  let live := ((s.op id).late.eraseDups).filter fun k => keyKind k != 2 || (Tbl.find? s.lines (keyBlock 256 k)).isSome
  let (vs, s) := s.free live.length
  s.putCells pathAC id (live.zip (vs.map fun v => v.setWidth 8))

/-! ## Blocks of cpy.mx (R73, R180, R181) -/

/-- What reading a source block gives, with the address that an error names. -/
inductive BlockRead where
  | block (b : Block)
  | failed (d : Done) (va : Nat)
  deriving DecidableEq, Repr

/-- The 896 bytes of a chunk, not looked at for poison. -/
def State.chunkAt (s : State) (w : Who) (l : Bool) (va : Nat) : Except Place (List Piece × Nat) × State :=
  match s.piecesOf w .read l va 896 with
  | (.error p, s) => (.error p, s)
  | (.ok ps, s) => (.ok (ps, ofBytes (s.readPieces w.path ps)), s)

/-- Whether the bytes of a chunk that decoding block k looks at are poisoned. -/
def State.chunkPoisoned (s : State) (ps : List Piece) (chunk k : Nat) : Bool :=
  let bad := poisonedBytes s ps
  let o := chunkOffset chunk k
  (bad.take 32).any id || ((bad.drop o).take (((chunkEcb chunk k).pos + 7) / 8)).any id

/-- Where chunk j begins: the first multiple of 32 bytes at or after the end of the chunk before it (R180). -/
def State.chunkBase (s : State) (w : Who) (l : Bool) (src : Nat) : Nat → BlockRead × Nat × State
  | 0 => (.block nanBlock, src, s)
  | j + 1 =>
    match s.chunkBase w l src j with
    | (.block b, va, s) =>
      match s.chunkAt w l va with
      | (.error p, s) => (.failed p.done va, va, s)
      | (.ok (ps, chunk), s) =>
        if s.chunkPoisoned ps chunk 15 then (.failed .poisoned va, va, s)
        else (.block b, src + (va - src + chunkEnd chunk 15 + 31) / 32 * 32, s)
    | r => r

/-- The chunk that holds block i of an ECB8 array, or how reading it ends and where. -/
def State.chunkFor (s : State) (w : Who) (l : Bool) (src i : Nat) : Except (Done × Nat) Nat × State :=
  match s.chunkBase w l src (i / 16) with
  | (.block _, va, s) =>
    match s.chunkAt w l va with
    | (.error p, s) => (.error (p.done, va), s)
    | (.ok (ps, chunk), s) => if s.chunkPoisoned ps chunk (i % 16) then (.error (.poisoned, va), s) else (.ok chunk, s)
  | (.failed d va, _, s) => (.error (d, va), s)

/-- Block i of an ECB8 array. -/
def State.readEcbAt (s : State) (w : Who) (l : Bool) (src i : Nat) : BlockRead × State :=
  match s.chunkFor w l src i with
  | (.ok chunk, s) => (.block (readEcb chunk (i % 16)), s)
  | (.error (d, va), s) => (.failed d va, s)

/-- Block i of a plain or scaled array: elements, then the scale byte (R67). -/
def State.readBlockAt (s : State) (w : Who) (l : Bool) (src fmt sck sbase i : Nat) : BlockRead × State :=
  if fmt = 8 then s.readEcbAt w l src i
  else
    let va := src + i * blockBytes fmt
    match s.readRange w va (blockBytes fmt) l with
    | (.value v, s) =>
      if sck = 0 then (.block (readBlock fmt v none), s)
      else
        match s.readRange w (sbase + i) 1 l with
        | (.value c, s) => (.block (readBlock fmt v (some (scaleVal sck c))), s)
        | (r, s) => (.failed r (sbase + i), s)
    | (r, s) => (.failed r va, s)

/-- A block and its scale written as one unit (R68): nothing where either cannot be written. -/
def State.writeBlock (s : State) (id : Nat) (w : Who) (l : Bool) (va : Nat) (bs : List Byte) (scale : Option (Nat × Nat)) :
    Done × Nat × State :=
  match scale with
  | none =>
    let (r, s) := s.writeRange w id none .write va bs l
    (r, va, s)
  | some (sva, code) => s.writeTwo w id none va bs sva (toBytes 1 code) l

/-- One block converted; the answer carries its flags. -/
def State.convBlock (s : State) (id : Nat) (w : Who) (c : Conv) (i : Nat) : Done × Nat × State :=
  match s.readBlockAt w c.sl c.src.toNat c.afmt c.asck c.abase.toNat i with
  | (.failed d va, s) => (d, va, s)
  | (.block b, s) =>
    let e := convertBlock c.sck c.cfmt c.rnd c.sat b.vals
    let scale := if c.sck = 0 then none else some (c.cbase.toNat + i, e.scale)
    match s.writeBlock id w c.dl (c.dst.toNat + i * blockBytes c.cfmt) (blockOf c.cfmt e.codes) scale with
    | (.value _, va, s) => (.value (b.flags ||| e.flags).toNat, va, s)
    | r => r

/-- Whether an address lies on a page of an Ultra Ethernet peer, which no block conversion may name (R397). -/
def State.namesUe (s : State) (w : Who) (va : Nat) : Bool :=
  let l := s.launch w.launch
  match (s.cluster w.cl).lookup l.ctx va with
  | some f => leafType f.entry.toNat == 2 && s.peerKind l.part f.entry.toNat va 1 f.level == some 2
  | none => false

/-- The pages that block i of a conversion touches. -/
def Conv.pages (c : Conv) (i : Nat) : List Nat :=
  (if c.afmt = 8 then pagesOf c.src.toNat c.sourceBytes else pagesOf (c.src.toNat + i * blockBytes c.afmt) (blockBytes c.afmt))
    ++ pagesOf (c.dst.toNat + i * blockBytes c.cfmt) (blockBytes c.cfmt)
    ++ (if c.asck = 0 then [] else [c.abase.toNat + i]) ++ (if c.sck = 0 then [] else [c.cbase.toNat + i])

/-- A block of cpy.mx, or the error of one that names an Ultra Ethernet peer. -/
def State.convUnit (s : State) (id : Nat) (w : Who) (c : Conv) (i : Nat) : Done × Nat × State :=
  let r := s.convBlock id w c i
  match (c.pages i).find? fun va => !inWindows va && r.2.2.namesUe w va with
  | some va => (.fail, va, s)
  | none => r

/-! ## Completion (R168, R177, R178) -/

/-- A deferred error of a once-per-team operation; a team stopped at a header takes it at once (R168). -/
def State.noteError (s : State) (id : Nat) (code : BitVec 8) (va : Nat) : State :=
  let o := s.op id
  match o.party with
  | .team t =>
    let e := Deferred.mk code id o.pc 0xFFFFFFFF (BitVec.ofNat 64 va) o.handler
    let s := (s.setOp id { o with failed := true }).modTeam t fun tm =>
      if tm.st = .retiring then tm else { tm with deferred := tm.deferred ++ [e] }
    s.takeAtHeader t
  | _ => s

/-- A unit of a once-per-team operation has ended: done with flags, waiting in the replay table, held at the port, or
with an error. -/
def State.settleUnit (id i : Nat) (r : Done × Nat × State) : State :=
  let gone (s : State) (flags : W32) : State :=
    let o := s.op id
    s.setOp id { o with todo := o.todo.filter fun j => j != i, flags := o.flags ||| flags }
  match r with
  | (.value v, _, s) => gone s (BitVec.ofNat 32 v)
  | (.park token, _, s) => s.holdUnit id i token
  | (.stall, _, s) => s
  | (.fail, va, s) => (gone s 0).noteError id 0x0E va
  | (.poisoned, va, s) => (gone s 0).noteError id 0x0C va

/-- Unit i of a copy or conversion. -/
def State.asyncUnit (s : State) (id : Nat) (t : Nat) (i : Nat) : Done × Nat × State :=
  let w := (s.team t).who pathAC
  match (s.op id).kind with
  | .copy src dst bytes rows sp dp sl dl _ =>
    match (copyPieces src.toNat dst.toNat bytes rows sp dp)[i]? with
    | some (a, b, n) => s.copyPiece id w a b n sl dl (overlapped src.toNat bytes rows sp)
    | none => (.value 0, 0, s)
  | .conv c => s.convUnit id w c i
  | _ => (.value 0, 0, s)

def State.asyncUnits (s : State) (id t : Nat) : List Nat → State
  | [] => s
  | i :: r => (State.settleUnit id i (s.asyncUnit id t i)).asyncUnits id t r

/-- The units of an operation in an order in which any of them can come last: which of two overlapping rows remains is
not architectural (R179). -/
def State.unitOrder (s : State) (id : Nat) : List Nat × State :=
  let todo := (s.op id).todo
  let (vs, s) := s.free 1
  let k := pickBelow (vs.getD 0 0) todo.length
  (todo.drop k ++ todo.take k, s)

/-- The end of a copy: the bytes it leaves open, the arrival on its barrier, whatever the word holds (log 22), then its
counter (R178). -/
def State.finishAsync (s : State) (id : Nat) : State :=
  let o := s.op id
  if o.pending = [] then
    let s := match o.kind with
      | .copy _ _ _ _ _ _ _ _ bar =>
        let s := s.openLate id
        match bar, o.party with
        | some k, .team t => (s.releaseFenced id t pathAC).arrive k (some id)
        | _, _ => s
      | _ => s
    s.finishOp id
  else s

/-- The byte ranges of an operation of the AC path. -/
def OpKind.acRanges : OpKind → List (Nat × Nat)
  | .copy src dst bytes rows sp dp _ _ _ =>
    (List.range rows).flatMap fun i => [(src.toNat + i * sp, bytes), (dst.toNat + i * dp, bytes)]
  | .conv c =>
    [(c.src.toNat, c.sourceBytes), (c.dst.toNat, c.count * blockBytes c.cfmt),
      (c.abase.toNat, if c.asck = 0 then 0 else c.count), (c.cbase.toNat, if c.sck = 0 then 0 else c.count)]
  | _ => []

/-- Whether an earlier operation of the team on the AC path touches the same bytes (R287). -/
def State.acBlocked (s : State) (id : Nat) : Bool :=
  let mine := (s.op id).kind.acRanges
  (s.earlierOps id).any fun e => e.2.kind.path == pathAC &&
    e.2.kind.acRanges.any fun a => mine.any fun b =>
      decide (plainAddr a.1 < plainAddr b.1 + b.2) && decide (plainAddr b.1 < plainAddr a.1 + a.2)

/-- The lanes of a gath or scat, in their order (R182). -/
def State.laneUnits (s : State) (id : Nat) : List Nat → State
  | [] => s
  | i :: r => (s.runUnit id i fun _ => true).laneUnits id r

/-- ASYNC_COMPLETE: every unit that waits for nothing is performed; with the last one the operation is complete. -/
def execAsyncComplete (op : Nat) (s : State) : Host.Outcome State Fault Refusal :=
  match Tbl.find? s.ops op with
  | none => .next s
  | some o =>
    match o.party with
    | .team t =>
      match o.kind with
      | .nodeq d node => .next (s.nodeqDone op d node t)
      | .mem _ _ _ _ =>
        if o.kind.isAsync then .next (if o.pending = [] then s.finishOp op else s.laneUnits op o.todo)
        else .next s
      | .copy .. | .conv _ =>
        if s.fenced op || s.acBlocked op then .next s
        else
          let (order, s) := (s.releaseFenced op t pathAC).unitOrder op
          .next ((s.asyncUnits op t order).finishAsync op)
      | _ => .next s
    | _ => .next s

end Sys2Proof.Machine
end

