-- ==== Sys2Proof/Machine/Matrix.lean ====
section
/-! DEFINITION. The matrix array: the array queue, the Loft, mfill, mloop in its three dataflows, mdrain and mzero, and
the row groups (R187 to R205, R82 to R84). -/

namespace Sys2Proof.Machine

/-! ## Banks and Loft (R187, R190, R410) -/

def bankKey (bank row col : Nat) : Nat := 8192 * bank + 64 * row + col
def loftKey (col off : Nat) : Nat := 98304 * col + off

/-- A cell that nothing has written since the grant was given holds a free value, or zero. Loft cells are told from
accumulators by the bit above both. -/
def Cluster.bankAt (c : Cluster) (k : Nat) : W32 :=
  Tbl.get c.bank (if c.cellSeed = 0 then 0 else Config.freeCell c.cellSeed k) k

def Cluster.loftByte (c : Cluster) (k : Nat) : Byte :=
  Tbl.get c.loft (if c.cellSeed = 0 then 0 else (Config.freeCell c.cellSeed (2 ^ 32 + k)).setWidth 8) k

/-- n bytes of a column slice, as a number. -/
def Cluster.loftRead (c : Cluster) (col off n : Nat) : Nat :=
  ofBytes ((List.range n).map fun i => c.loftByte (loftKey col off + i))

/-- Whether a word of n bytes of a column slice is poisoned. -/
def Cluster.loftBad (c : Cluster) (col off n : Nat) : Bool :=
  (List.range n).any fun i => Tbl.get c.loftPoison false ((loftKey col off + i) / 8)

/-- The size of a Loft block (R190). -/
def loftBlockBytes (fmt : Nat) : Nat := 8 + blockBytes fmt

/-- Formats that the Loft holds. -/
def loftFmt (c : Nat) : Bool := decide (1 ≤ c) && decide (c ≤ 7)

/-- Bytes of a Loft block: scale code, format and kind, six zero bytes, elements. -/
def loftBlock (fmt kind scale elems : Nat) : List Byte :=
  toBytes 8 (scale % 256 + 256 * (fmt + 16 * kind)) ++ toBytes (blockBytes fmt) elems

def putAll (t : Tbl Byte) (k : Nat) : List Byte → Tbl Byte
  | [] => t
  | b :: r => putAll (Tbl.put t k b) (k + 1) r

/-- A Loft block written; the words it covers lose their poison. -/
def Cluster.putLoft (c : Cluster) (col off : Nat) (bs : List Byte) : Cluster :=
  let k := loftKey col off
  { c with
    loft := putAll c.loft k bs
    loftPoison := c.loftPoison.filter fun e => !(decide (k / 8 ≤ e.1) && decide (e.1 < (k + bs.length) / 8)) }

/-- B block s of a column at a Loft offset: its values times scale, and whether its header names another format. -/
def Cluster.bBlock (c : Cluster) (col off fmt : Nat) : List Val × Bool :=
  let head := c.loftRead col off 8
  let kind := bits head 13 12
  if bits head 11 8 = fmt then
    let v := c.loftRead col (off + 8) (blockBytes fmt)
    ((readBlock fmt v (if kind = 0 then none else some (scaleVal kind (bits head 7 0)))).vals, false)
  else (nanBlock.vals, true)

/-! ## Accumulation (R82, R83) -/

/-- An exact zero takes part as +0. -/
def Val.plus : Val → Val
  | .fin n m e => if m = 0 then .fin false 0 0 else .fin n m e
  | v => v

/-- The exact sum of products. -/
def dotVal : List Val → List Val → Val
  | a :: as, b :: bs => (addVal 0 (mulVal a b).1 (dotVal as bs)).1
  | _, _ => .fin false 0 0

/-- acc := Round(acc + x, f32, RNE), with the flags of R61 and R76. -/
def accumulateX (acc : W32) (x : Val) : W32 × W32 :=
  let v := addVal 0 (f32.decode acc.toNat) x
  let r := f32.round 0 false 0 v.1
  (BitVec.ofNat 32 r.1, v.2 ||| r.2)

def accumulate (acc : W32) (x : Val) : W32 := (accumulateX acc x).1

/-- One block of 32 products added at once (R82). -/
def accBlock (acc : W32) (a b : List Val) : W32 := accumulate acc (dotVal a b).plus

/-- A block of the 16-bit class, two products at a time (R83). -/
def accPairs (acc : W32) (a b : List Val) : W32 :=
  (List.range 16).foldl
    (fun c t => accumulate c (dotVal ((a.drop (2 * t)).take 2) ((b.drop (2 * t)).take 2)).plus) acc

/-- The class of a format (R195): 16-bit, 8-bit, FP4, INT8, INT4. -/
def fmtClass (f : Nat) : Nat :=
  match f with
  | 1 | 2 => 1
  | 3 | 4 | 8 => 2
  | 5 => 3
  | 6 => 4
  | 7 => 5
  | _ => 0

/-- Rows 0 to n - 1 of a bank set to +0. -/
def Cluster.clearRows (c : Cluster) (bank n : Nat) : Cluster :=
  let row (k : Nat) : Bool := decide (bankKey bank 0 0 ≤ k) && decide (k < bankKey bank n 0)
  let keys := (List.range (64 * n)).map fun i => bankKey bank 0 0 + i
  { c with
    bank := keys.foldl (fun t k => Tbl.put t k 0) c.bank
    bankPoison := c.bankPoison.filter fun e => !row e.1 }

/-! ## Issue (R187, R188, R192, R194, R200) -/

/-- Whether the team's launch holds the matrix grant of its cluster (R187). -/
def State.holdsGrant (s : State) (tm : Team) : Bool := (s.cluster tm.cl).grant == some tm.launch

/-- The frame of a MAT instruction: its launch must hold the grant (cause 0x05). -/
def matInstr (i : Instr) (gd : Guard) (f : Bool) (s : State) (body : Nat → Team → Except Trap State) :
    Host.Outcome State Fault Refusal :=
  guardedUnit i gd f (fun tm => !s.holdsGrant tm) s body

/-- Whether an entry that begins in a cycle on an engine goes before another of the queue: those of one cycle are in the
order of their engines (R353). One that has begun stays. -/
def State.entersBefore (s : State) (now eng id : Nat) : Bool :=
  let o := s.op id
  match o.party with
  | .team u => o.cycle == now && decide (eng < (s.team u).eng) && o.held == [] && o.written == []
  | _ => false

/-- The queue as it becomes, with the TIME at which its head got there. -/
def Cluster.withQueue (c : Cluster) (q : List Nat) (now : Nat) : Cluster :=
  { c with arrayQ := q, headAt := if c.arrayQ.head? = q.head? then c.headAt else now }

/-- An entry put into the queue. -/
def State.insertMat (s : State) (cl eng id : Nat) : State :=
  let now := s.clock cl
  let q := (s.cluster cl).arrayQ
  let tail := (q.reverse.takeWhile (s.entersBefore now eng)).reverse
  (s.setOp id { s.op id with cycle := now }).modCluster cl fun c =>
    c.withQueue (q.take (q.length - tail.length) ++ id :: tail) s.time.toNat

/-- An entry joins the queue; a full queue holds the team. -/
def State.enqueueMat (s : State) (t : Nat) (tm : Team) (f : Bool) (m : MatOp) : Except Trap State :=
  match tm.flag f with
  | none => .error (wordTrap s 0x01)
  | some c =>
    if 4 ≤ (s.cluster tm.cl).arrayQ.length ∨ 63 ≤ tm.counter c then .ok s
    else (s.issueLong t tm f (.mat m) 1).map fun s' => s'.insertMat tm.cl tm.eng s.nextOp

/-- The segment check of every range (R49 steps 1 to 4). -/
def State.checkAll (s : State) (tm : Team) (sg : BitVec 3) (need : Need) (k : Except Trap State) :
    List (Int × Nat) → Except Trap State
  | [] => k
  | (a, n) :: r => s.checkRange tm sg need a n 1 (s.checkAll tm sg need k r)

/-- The segment field of a descriptor. -/
def descSeg (w : Nat) : BitVec 3 := BitVec.ofNat 3 (bits w 25 23)

/-- The blocks of mfill's source, as ranges: for ECB8 the chunks of a column. -/
def fillRanges (src fmt nblk cstr : Nat) : List (Int × Nat) :=
  (List.range 64).flatMap fun j =>
    let col := Int.ofNat (src + j * 32 * cstr)
    if fmt = 8 then [(col, (nblk + 15) / 16 * 896)]
    else (List.range nblk).map fun i => (col + Int.ofNat (i * blockBytes fmt), blockBytes fmt)

/-- n bytes from an address, one range each. -/
def byteRanges (base n : Nat) : List (Int × Nat) := (List.range n).map fun i => (Int.ofNat (base + i), 1)

/-- The pair of scale bases: of the instruction when sp, else SCLP. -/
def Team.scaleAddr (tm : Team) (sp : Bool) (b : BitVec 7) : Nat := if sp then tm.gpair b.toNat else tm.sclp.toNat

/-- A scale kind of a descriptor, inherited where it is 3. -/
def inheritSck (code own : Nat) : Nat := if code = 3 then own else code

/-- The rest of an issue that uses scales: the pair is read, its base checked for its bytes. -/
def State.withScales (s : State) (t : Nat) (tm : Team) (pair : Nat) (second : Bool) (sg : BitVec 3) (need : Need)
    (ranges : Nat → List (Int × Nat)) (k : Nat → State → Except Trap State) : Except Trap State :=
  s.scalePair t tm pair fun v s =>
    let base := if second then v / 2 ^ 64 % 2 ^ 64 else v % 2 ^ 64
    s.checkAll tm sg need (k base s) (ranges base)

/-- The descriptor of mfill: format, scale kind; none where a rule of R192 fails. -/
def Team.fillOf (tm : Team) (a : BitVec 7) (window : Nat) : Option (Nat × Nat) :=
  let w := (tm.greg (a.toNat + 2)).toNat
  let v := (tm.greg (a.toNat + 3)).toNat
  let fmt := inheritFmt (bits w 31 28) (bits tm.fmt.toNat 11 8)
  let sck := inheritSck (bits w 27 26) (bits tm.fmt.toNat 19 18)
  let held := if fmt = 8 then 3 else fmt
  if bits w 22 17 = 0 ∧ bits w 2 0 = 0 ∧ 1 ≤ bits v 31 20 ∧ 1 ≤ fmt ∧ fmt ≤ 8 ∧ sck < 3 ∧ (sck = 0 ∨ scalable fmt = true)
      ∧ bits w 16 0 + bits v 31 20 * loftBlockBytes held ≤ window then some (fmt, sck)
  else none

def execMfill (a b : BitVec 7) (gd : Guard) (f : Bool) (sp : Bool) (s : State) : Host.Outcome State Fault Refusal :=
  matInstr (.mfill a b gd f sp) gd f s fun t tm =>
    match tm.fillOf a (s.launch tm.launch).mgw with
    | none => .error (wordTrap s 0x02)
    | some (fmt, sck) =>
      let w := (tm.greg (a.toNat + 2)).toNat
      let v := (tm.greg (a.toNat + 3)).toNat
      let src := tm.gpair a.toNat
      let sg := descSeg w
      let nblk := bits v 31 20
      let cstr := bits v 19 0
      let op (base : Nat) : MatOp :=
        .fill (BitVec.ofNat 64 src) fmt sck (bits w 16 0) nblk cstr (BitVec.ofNat 64 base)
          (segL (Tbl.get tm.sg 0 sg.toNat))
      if sck = 0 then s.checkAll tm sg needRead (s.enqueueMat t tm f (op 0)) (fillRanges src fmt nblk cstr)
      else if tm.scaleAddr sp b = 0 then .error (wordTrap s 0x02)
      else
        s.checkAll tm sg needRead
          (s.withScales t tm (tm.scaleAddr sp b) true sg needRead (fun base => byteRanges base (64 * nblk))
            fun base s => s.enqueueMat t tm f (op base))
          (fillRanges src fmt nblk cstr)

/-- Fields of an mloop descriptor. -/
structure Loop where
  addr : Nat
  w2 : Nat
  w3 : Nat
  w4 : Nat
  w5 : Nat
  w6 : Nat
  w7 : Nat
  deriving DecidableEq, Repr

def Team.loopOf (tm : Team) (a : BitVec 7) : Loop :=
  let g (i : Nat) : Nat := (tm.greg (a.toNat + i)).toNat
  Loop.mk (tm.gpair a.toNat) (g 2) (g 3) (g 4) (g 5) (g 6) (g 7)

def Loop.steps (d : Loop) : Nat := bits d.w5 31 20
def Loop.boff (d : Loop) : Nat := bits d.w3 16 0
def Loop.bank (d : Loop) : Nat := bits d.w4 0 0
def Loop.clr (d : Loop) : Bool := bits d.w5 15 15 == 1
def Loop.rows (d : Loop) : Nat := bits d.w5 7 0 + 1
def Loop.seg (d : Loop) : BitVec 3 := descSeg d.w2

/-- The Loft format of a descriptor. -/
def Team.loopBfmt (tm : Team) (d : Loop) : Nat := inheritFmt (bits d.w3 31 28) (bits tm.fmt.toNat 11 8)

/-- The fields that ip and rw share, with the window check of R194. -/
def Loop.bOk (d : Loop) (bfmt window : Nat) : Bool :=
  bits d.w3 27 17 == 0 && bits d.w4 31 1 == 0 && decide (1 ≤ d.steps) && d.boff % 8 == 0 && loftFmt bfmt
    && decide (d.boff + d.steps * loftBlockBytes bfmt ≤ window)

/-- The descriptor of ip: A format and scale kind; none where a rule of R193 or R195 fails. A row above 127 does not
exist (DEDUCED, log 33). SPAIR without SSRC must be 0, also where ASCK is 0, and SSTR, SSRC and an SPAIR that goes with SSRC
are not looked at then (DEDUCED, log 119). -/
def Team.ipOf (tm : Team) (d : Loop) (window : Nat) : Option (Nat × Nat) :=
  let afmt := inheritFmt (bits d.w2 31 28) (bits tm.fmt.toNat 7 4)
  let asck := inheritSck (bits d.w2 27 26) (bits tm.fmt.toNat 19 18)
  let bfmt := tm.loopBfmt d
  let same := if fmtClass afmt = 2 then fmtClass bfmt == 2 else bfmt == afmt
  if bits d.w5 19 16 = 0 ∧ bits d.w5 14 8 = 0 ∧ bits d.w7 15 6 = 0 ∧ fmtClass afmt ≠ 0 ∧ asck < 3 ∧ d.rows ≤ 128
      ∧ (bits d.w7 31 31 = 1 ∨ bits d.w7 5 0 = 0) ∧ bits d.w7 0 0 = 0 ∧ (afmt = 8 → d.w6 = 0) ∧ same = true
      ∧ (asck = 0 ∨ (scalable afmt = true)) ∧ d.bOk bfmt window = true then some (afmt, asck)
  else none

/-- Where block s of row i of a plain A lies (R196). -/
def aBlockAt (a : Nat) (astr ainc i s : Nat) : Int := Int.ofNat (a + i * astr) + Int.ofNat s * toSigned 32 ainc

/-- The ranges of A. -/
def aRanges (a afmt astr ainc rows steps : Nat) : List (Int × Nat) :=
  (List.range rows).flatMap fun i =>
    if afmt = 8 then [(Int.ofNat (a + i * astr), (steps + 15) / 16 * 896)]
    else (List.range steps).map fun s => (aBlockAt a astr ainc i s, blockBytes afmt)

/-- The scale bytes of A. -/
def aScaleRanges (rows steps sstr base : Nat) : List (Int × Nat) :=
  (List.range rows).flatMap fun i => byteRanges (base + i * sstr) steps

def execMloopIp (a : BitVec 7) (gd : Guard) (f : Bool) (s : State) : Host.Outcome State Fault Refusal :=
  matInstr (.mloopIp a gd f) gd f s fun t tm =>
    let d := tm.loopOf a
    match tm.ipOf d (s.launch tm.launch).mgw with
    | none => .error (wordTrap s 0x02)
    | some (afmt, asck) =>
      let astr := bits d.w2 22 0
      let sstr := bits d.w7 30 16
      let op (base : Nat) : MatOp :=
        .ip (BitVec.ofNat 64 d.addr) afmt asck astr d.w6 (tm.loopBfmt d) d.boff d.bank d.steps d.rows d.clr
          (BitVec.ofNat 64 base) sstr (segL (Tbl.get tm.sg 0 d.seg.toNat))
      let pair := tm.scaleAddr (bits d.w7 31 31 == 1) (BitVec.ofNat 7 (bits d.w7 5 0))
      let ranges := aRanges d.addr afmt astr d.w6 d.rows d.steps
      if asck = 0 then s.checkAll tm d.seg needRead (s.enqueueMat t tm f (op 0)) ranges
      else if pair = 0 then .error (wordTrap s 0x02)
      else
        s.checkAll tm d.seg needRead
          (s.withScales t tm pair false d.seg needRead (aScaleRanges d.rows d.steps sstr)
            fun base s => s.enqueueMat t tm f (op base)) ranges

/-- The check of a header of op or rw. -/
def State.checkHeader (s : State) (tm : Team) (d : Loop) (k : Except Trap State) : Except Trap State :=
  if d.addr % 64 ≠ 0 then .error (Trap.mk 0x03 0 0xFFFFFFFF (BitVec.ofNat 64 d.addr))
  else s.checkRange tm d.seg needRead (Int.ofNat d.addr) 64 1 k

def execMloopOp (a : BitVec 7) (gd : Guard) (f : Bool) (s : State) : Host.Outcome State Fault Refusal :=
  guardedUnit (.mloopOp a gd f) gd f (fun tm => !s.hasMerge || !s.holdsGrant tm) s fun t tm =>
    let d := tm.loopOf a
    if bits d.w2 31 26 = 0 ∧ bits d.w2 22 0 = 0 ∧ d.w3 = 0 ∧ d.w4 = 0 ∧ bits d.w5 19 0 = 0 ∧ d.w6 = 0 ∧ d.w7 = 0
        ∧ 1 ≤ d.steps then
      s.checkHeader tm d
        (s.enqueueMat t tm f (.op (BitVec.ofNat 64 d.addr) d.steps (Tbl.get tm.sg 0 d.seg.toNat)))
    else .error (wordTrap s 0x02)

def execMloopRw (a : BitVec 7) (gd : Guard) (f : Bool) (s : State) : Host.Outcome State Fault Refusal :=
  matInstr (.mloopRw a gd f) gd f s fun t tm =>
    let d := tm.loopOf a
    let bfmt := tm.loopBfmt d
    if bits d.w2 31 26 = 0 ∧ bits d.w2 22 0 = 0 ∧ bits d.w5 19 16 = 0 ∧ bits d.w5 14 0 = 0 ∧ d.w6 = 0 ∧ d.w7 = 0
        ∧ d.bOk bfmt (s.launch tm.launch).mgw = true then
      s.checkHeader tm d
        (s.enqueueMat t tm f
          (.rw (BitVec.ofNat 64 d.addr) bfmt d.boff d.bank d.steps d.clr (Tbl.get tm.sg 0 d.seg.toNat)))
    else .error (wordTrap s 0x02)

/-- The descriptor of mdrain: format, scale kind, rounding, saturation; none where a rule of R200 fails. -/
def Team.drainOf (tm : Team) (a : BitVec 7) : Option (Nat × Nat × Nat × Bool) :=
  let w := (tm.greg (a.toNat + 2)).toNat
  let v := (tm.greg (a.toNat + 3)).toNat
  let fm := tm.fmt.toNat
  let fmt := inheritFmt (bits w 31 28) (bits fm 15 12)
  let sck := inheritSck (bits w 27 26) (bits fm 19 18)
  let rnd := if bits w 22 20 = 7 then bits fm 22 20 else bits w 22 20
  let sat := if bits w 19 18 = 2 then bits fm 23 23 else bits w 19 18
  if bits w 17 0 = 0 ∧ bits v 31 25 = 0 ∧ fmt ≤ 7 ∧ sck < 3 ∧ rnd < 4 ∧ sat < 2 ∧ (sck = 0 ∨ scalable fmt = true) then
    some (fmt, sck, rnd, sat == 1)
  else none

/-- The output blocks of mdrain. -/
def drainRanges (dst fmt dstr : Nat) : List (Int × Nat) :=
  (List.range 128).flatMap fun i =>
    (List.range 2).map fun b => (Int.ofNat (dst + i * dstr + b * blockBytes fmt), blockBytes fmt)

def execMdrain (a b : BitVec 7) (gd : Guard) (f : Bool) (sp : Bool) (s : State) : Host.Outcome State Fault Refusal :=
  matInstr (.mdrain a b gd f sp) gd f s fun t tm =>
    match tm.drainOf a with
    | none => .error (wordTrap s 0x02)
    | some (fmt, sck, rnd, sat) =>
      let v := (tm.greg (a.toNat + 3)).toNat
      let dst := tm.gpair a.toNat
      let sg := descSeg (tm.greg (a.toNat + 2)).toNat
      let op (base : Nat) : MatOp :=
        .drain (BitVec.ofNat 64 dst) fmt sck rnd sat (bits v 24 24) (bits v 23 0) (BitVec.ofNat 64 base)
          (segL (Tbl.get tm.sg 0 sg.toNat))
      let ranges := drainRanges dst fmt (bits v 23 0)
      if sck = 0 then s.checkAll tm sg needWrite (s.enqueueMat t tm f (op 0)) ranges
      else if tm.scaleAddr sp b = 0 then .error (wordTrap s 0x02)
      else
        s.checkAll tm sg needWrite
          (s.withScales t tm (tm.scaleAddr sp b) true sg needWrite (fun base => byteRanges base 256)
            fun base s => s.enqueueMat t tm f (op base)) ranges

def execMzero (gd : Guard) (f : Bool) (bank : Bool) (s : State) : Host.Outcome State Fault Refusal :=
  matInstr (.mzero gd f bank) gd f s fun t tm => s.enqueueMat t tm f (.zero bank.toNat)

/-! ## What the sequencer does with an entry (R189)

Each function works on a copy of the cluster's banks and Loft and answers with it. An entry that meets a page fault
that can be resolved changes nothing of them and is executed again once the fault is resolved. -/

/-- How an entry ends. -/
inductive MatEnd where
  | done
  /-- it waits: a group's token, or the port -/
  | wait (d : Done)
  /-- deferred errors: cause and address -/
  | errors (l : List (BitVec 8 × Nat))
  deriving DecidableEq, Repr

/-- What an entry leaves: the cluster's array, flags for TSTAT, bits for MSTAT. -/
structure MatRun where
  c : Cluster
  fin : MatEnd := .done
  flags : W32 := 0
  mstat : W32 := 0
  /-- what it has written, for an entry that has to wait -/
  written : List Nat := []
  deriving DecidableEq, Repr

/-- An access that does not give its value. -/
def matFail (d : Done) (va : Nat) : MatEnd :=
  match d with
  | .fail => .errors [(0x0E, va)]
  | .poisoned => .errors [(0x0C, va)]
  | d => .wait d

/-- MSTAT (R202). -/
def mSperr : W32 := 4
def mBtag : W32 := 2
def mEcb8 : W32 := 1

/-- Errors of two parts of an entry. -/
def MatEnd.add (a : MatEnd) (b : MatEnd) : MatEnd :=
  match a, b with
  | .errors l, .errors k => .errors (l ++ k)
  | .errors l, _ => .errors l
  | _, b => b

/-! ### mfill (R192) -/

/-- Source block s of column j as a Loft block, with its flags. -/
def State.fillBlock (s : State) (w : Who) (l : Bool) (src fmt sck scale nblk cstr j i : Nat) :
    Except (Done × Nat) (List Byte × W32) × State :=
  let col := src + j * 32 * cstr
  if fmt = 8 then
    match s.chunkFor w l col i with
    | (.error e, s) => (.error e, s)
    | (.ok chunk, s) =>
      match chunkBlock chunk (i % 16) with
      | none => (.ok (loftBlock 3 2 0xFF (packElems 8 (fun _ => 0x7F) 32), fECB8), s)
      | some (scale, wide, es) =>
        (.ok (loftBlock (if wide then 4 else 3) 2 scale (packElems 8 (fun t => es.getD t 0) 32), 0), s)
  else
    let va := col + i * blockBytes fmt
    match s.readRange w va (blockBytes fmt) l with
    | (.value v, s) =>
      if sck = 0 then (.ok (loftBlock fmt 0 0 v, 0), s)
      else
        match s.readRange w (scale + j * nblk + i) 1 l with
        | (.value c, s) => (.ok (loftBlock fmt sck c v, 0), s)
        | (d, s) => (.error (d, scale + j * nblk + i), s)
    | (d, s) => (.error (d, va), s)

/-- mfill over a list of columns and blocks. A block that cannot be read is not written, every other one is. -/
def State.runFill (s : State) (w : Who) (l : Bool) (src fmt sck scale nblk cstr boff : Nat) (r : MatRun) :
    List (Nat × Nat) → MatRun × State
  | [] => (r, s)
  | (j, i) :: rest =>
    match s.fillBlock w l src fmt sck scale nblk cstr j i with
    | (.ok (bs, flags), s) =>
      let r := { r with
        c := r.c.putLoft j (boff + i * loftBlockBytes (if fmt = 8 then 3 else fmt)) bs
        flags := r.flags ||| flags, mstat := if flags = 0 then r.mstat else r.mstat ||| mEcb8 }
      s.runFill w l src fmt sck scale nblk cstr boff r rest
    | (.error (d, va), s) =>
      match matFail d va with
      | .wait d => ({ r with fin := .wait d }, s)
      | e => s.runFill w l src fmt sck scale nblk cstr boff { r with fin := r.fin.add e } rest

/-! ### mloop.ip (R196) -/

/-- A block s of row i of A, times its scale. -/
def State.aBlock (s : State) (w : Who) (l : Bool) (a : Nat) (afmt asck astr ainc scale sstr i k : Nat) :
    BlockRead × State :=
  if afmt = 8 then s.readEcbAt w l (a + i * astr) k
  else s.readBlockAt w l (aBlockAt a astr ainc i k).toNat afmt asck (scale + i * sstr + k) 0

/-- The A blocks of one step. -/
def State.aBlocks (s : State) (w : Who) (l : Bool) (a : Nat) (afmt asck astr ainc scale sstr k : Nat) :
    List Nat → Except MatEnd (List Block) × State
  | [] => (.ok [], s)
  | i :: r =>
    match s.aBlock w l a afmt asck astr ainc scale sstr i k with
    | (.failed d va, s) => (.error (matFail d va), s)
    | (.block b, s) =>
      match s.aBlocks w l a afmt asck astr ainc scale sstr k r with
      | (.ok bs, s) => (.ok (b :: bs), s)
      | (.error e, s) => (.error e, s)

/-- One step applied to every row and column. -/
def Cluster.ipStep (c : Cluster) (bank bfmt off : Nat) (pairs : Bool) (as : List Block) : MatRun :=
  let bs := (List.range 64).map fun j => c.bBlock j off bfmt
  let cells := (List.range as.length).flatMap fun i => (List.range 64).map fun j => (i, j)
  let put (t : Tbl W32) (e : Nat × Nat) : Tbl W32 :=
    let a := (as.getD e.1 nanBlock).vals
    let b := (bs.getD e.2 ([], false)).1
    let k := bankKey bank e.1 e.2
    Tbl.put t k (if pairs then accPairs (c.bankAt k) a b else accBlock (c.bankAt k) a b)
  let ecb := as.any fun b => b.flags &&& fECB8 != 0
  { c := { c with bank := cells.foldl put c.bank }, flags := if ecb then fECB8 else 0
    mstat := (if bs.any fun b => b.2 then mBtag else 0) ||| (if ecb then mEcb8 else 0) }

/-- The steps from k on, n of them. -/
def State.ipSteps (s : State) (w : Who) (l : Bool) (a : Nat) (afmt asck astr ainc scale sstr bfmt boff bank rows : Nat)
    (k : Nat) (r : MatRun) : Nat → MatRun × State
  | 0 => (r, s)
  | n + 1 =>
    let off := boff + k * loftBlockBytes bfmt
    match s.aBlocks w l a afmt asck astr ainc scale sstr k (List.range rows) with
    | (.error e, s) => ({ r with fin := e }, s)
    | (.ok as, s) =>
      if (List.range 64).any fun j => r.c.loftBad j off (loftBlockBytes bfmt) then
        ({ r with fin := .errors [(0x0C, 0)] }, s)
      else
        let x := r.c.ipStep bank bfmt off (fmtClass afmt == 1) as
        let r := { x with flags := r.flags ||| x.flags, mstat := r.mstat ||| x.mstat }
        s.ipSteps w l a afmt asck astr ainc scale sstr bfmt boff bank rows (k + 1) r n

/-! ### mloop.rw (R197) -/

/-- A read of an array that a header names: checked as the sequencer reaches it (cause 0x03). -/
def State.arrayRead (s : State) (w : Who) (sg : W128) (va : Int) (n : Nat) : Except MatEnd Nat × State :=
  match checkNamed (s.launch w.launch) w.launch sg needRead va n 1 with
  | .ok =>
    match s.readRange w va.toNat n (segL sg) with
    | (.value v, s) => (.ok v, s)
    | (d, s) => (.error (matFail d va.toNat), s)
  | _ => (.error (.errors [(0x03, va.toNat)]), s)

/-- A u32 of an array. -/
def State.arrayWord (s : State) (w : Who) (sg : W128) (base i : Nat) : Except MatEnd Nat × State :=
  s.arrayRead w sg (Int.ofNat (base + 4 * i)) 4

/-- The size of a value of a sparse matrix: f32, f16, bf16. -/
def valueBytes (vfmt : Nat) : Nat := if vfmt = 0 then 4 else 2

/-- The nonzeros of a row that lie within the Loft region: index of the Loft row and value. n entries from p on. -/
def State.rowEntries (s : State) (w : Who) (sg : W128) (coli val vfmt kb span p : Nat) :
    Nat → Except MatEnd (List (Nat × Val)) × State
  | 0 => (.ok [], s)
  | n + 1 =>
    match s.arrayWord w sg coli p with
    | (.error e, s) => (.error e, s)
    | (.ok k, s) =>
      let rest (s : State) := s.rowEntries w sg coli val vfmt kb span (p + 1) n
      if kb ≤ k ∧ k < kb + span then
        match s.arrayRead w sg (Int.ofNat (val + p * valueBytes vfmt)) (valueBytes vfmt) with
        | (.error e, s) => (.error e, s)
        | (.ok v, s) =>
          match rest s with
          | (.ok r, s) => (.ok ((k - kb, decodeX vfmt v) :: r), s)
          | (.error e, s) => (.error e, s)
      else rest s

/-- Element k of column j of the Loft region, times its scale, with its flags (R61, R67); none where the block's header names
another format. -/
def Cluster.bElem (c : Cluster) (bfmt boff j k : Nat) : Option (Val × W32) :=
  let off := boff + k / 32 * loftBlockBytes bfmt
  let head := c.loftRead j off 8
  let kind := bits head 13 12
  if bits head 11 8 = bfmt then
    some (scaledElem (if kind = 0 then none else some (scaleVal kind (bits head 7 0)))
      (decodeX bfmt (blockElem bfmt (c.loftRead j (off + 8) (blockBytes bfmt)) (k % 32))))
  else none

/-- One nonzero added into an element: its product with element k of column j of B is exact (R197). -/
def Cluster.rwAdd (c : Cluster) (bfmt boff j : Nat) (acc : W32 × W32) (e : Nat × Val) : W32 × W32 :=
  let b := (c.bElem bfmt boff j e.1).getD (.nan false, 0)
  let p := mulVal e.2 b.1
  let x := accumulateX acc.1 p.1
  (x.1, acc.2 ||| b.2 ||| p.2 ||| x.2)

/-- One row of the tile: the nonzeros are added in an order that is not architectural (R85). The flags of its additions go
to TSTAT: R196 keeps those of mloop.ip alone from it (DEDUCED, log 118). -/
def Cluster.rwRow (c : Cluster) (bank bfmt boff row : Nat) (es : List (Nat × Val)) (vs : List W64) : MatRun :=
  let put (t : Tbl W32 × W32) (j : Nat) : Tbl W32 × W32 :=
    let k := bankKey bank row j
    let x := (freeOrder es (vs.drop (j * es.length))).foldl (c.rwAdd bfmt boff j) (c.bankAt k, 0)
    (Tbl.put t.1 k x.1, t.2 ||| x.2)
  let tag := es.any fun e => (List.range 64).any fun j => (c.bElem bfmt boff j e.1).isNone
  let r := (List.range 64).foldl put (c.bank, 0)
  { c := if es = [] then c else { c with bank := r.1 }, flags := if es = [] then 0 else r.2, mstat := if tag then mBtag else 0 }

/-- An error that ends an op or rw entry, with SPERR where R202 says so. -/
def MatRun.stop (r : MatRun) (e : MatEnd) : MatRun :=
  let seg := match e with
    | .errors ((code, _) :: _) => code == 0x03
    | _ => true
  { r with fin := e, mstat := if seg then r.mstat else r.mstat ||| mSperr }

/-- The rows of the tile from row on, n of them. -/
def State.rwRows (s : State) (w : Who) (sg : W128) (rowp coli val vfmt kb span bank bfmt boff row : Nat) (r : MatRun) :
    Nat → MatRun × State
  | 0 => (r, s)
  | n + 1 =>
    match s.arrayWord w sg rowp row with
    | (.error e, s) => (r.stop e, s)
    | (.ok lo, s) =>
      match s.arrayWord w sg rowp (row + 1) with
      | (.error e, s) => (r.stop e, s)
      | (.ok hi, s) =>
        if hi < lo then (r.stop (.errors [(0x02, rowp + 4 * (row + 1))]), s)
        else
          match s.rowEntries w sg coli val vfmt kb span lo (hi - lo) with
          | (.error e, s) => (r.stop e, s)
          | (.ok es, s) =>
            if es.any fun e => (List.range 64).any fun j =>
                r.c.loftBad j (boff + e.1 / 32 * loftBlockBytes bfmt) (loftBlockBytes bfmt) then
              (r.stop (.errors [(0x0C, 0)]), s)
            else
              let (vs, s) := s.free (64 * es.length)
              let x := r.c.rwRow bank bfmt boff (row % 128) es vs
              let r := { x with flags := r.flags ||| x.flags, mstat := r.mstat ||| x.mstat }
              s.rwRows w sg rowp coli val vfmt kb span bank bfmt boff (row + 1) r n

/-- mloop.rw: the header, then the rows. -/
def State.runRw (s : State) (w : Who) (hdr : Nat) (bfmt boff bank steps : Nat) (clr : Bool) (sg : W128) (c : Cluster) :
    MatRun × State :=
  let r : MatRun := { c := if clr then c.clearRows bank 128 else c }
  match s.readRange w hdr 64 (segL sg) with
  | (.value v, s) =>
    let q (o : Nat) : Nat := bits v (8 * o + 63) (8 * o)
    let d (o : Nat) : Nat := bits v (8 * o + 31) (8 * o)
    if d 24 % 128 = 0 ∧ 1 ≤ d 28 ∧ d 28 ≤ 128 ∧ d 36 ≤ 2 ∧ bits v 511 320 = 0 then
      s.rwRows w sg (q 0) (q 8) (q 16) (d 36) (d 32) (32 * steps) bank bfmt boff (d 24) r (d 28)
    else (r.stop (.errors [(0x02, hdr)]), s)
  | (d, s) => (r.stop (matFail d hdr), s)

/-! ### mloop.op (R198, R199) -/

/-- What an outer product ends with short of an error: its STATUS. -/
inductive OpEnd where
  | status (n : Nat)
  | fails (e : MatEnd)
  deriving DecidableEq, Repr

/-- The index and value pairs p to p + n - 1 of a compressed matrix. -/
def State.pairsOf (s : State) (w : Who) (sg : W128) (idx val vfmt p : Nat) :
    Nat → Except MatEnd (List (Nat × Val)) × State
  | 0 => (.ok [], s)
  | n + 1 =>
    match s.arrayWord w sg idx p with
    | (.error e, s) => (.error e, s)
    | (.ok k, s) =>
      match s.arrayRead w sg (Int.ofNat (val + p * valueBytes vfmt)) (valueBytes vfmt) with
      | (.error e, s) => (.error e, s)
      | (.ok v, s) =>
        match s.pairsOf w sg idx val vfmt (p + 1) n with
        | (.ok r, s) => (.ok ((k, decodeX vfmt v) :: r), s)
        | (.error e, s) => (.error e, s)

/-- One compressed column or row; excess is the STATUS for too many nonzeros. -/
def State.compressed (s : State) (w : Who) (sg : W128) (ptr idx val vfmt k most excess : Nat) :
    Except OpEnd (List (Nat × Val)) × State :=
  match s.arrayWord w sg ptr k with
  | (.error e, s) => (.error (.fails e), s)
  | (.ok lo, s) =>
    match s.arrayWord w sg ptr (k + 1) with
    | (.error e, s) => (.error (.fails e), s)
    | (.ok hi, s) =>
      if hi < lo then (.error (.status 5), s)
      else if most < hi - lo then (.error (.status excess), s)
      else
        match s.pairsOf w sg idx val vfmt lo (hi - lo) with
        | (.ok l, s) => (.ok l, s)
        | (.error e, s) => (.error (.fails e), s)

/-- The sorted partial sums of the merge engine, keyed by 2^32 x row + column, the number of products and the flags of their
additions. -/
structure Merge where
  sums : Tbl W32 := []
  count : Nat := 0
  flags : W32 := 0
  deriving DecidableEq, Repr

/-- A product into the partial sums (R84), with the flags of R61 and R76 (DEDUCED, log 118). -/
def Merge.add (m : Merge) (k : Nat) (p : Val × W32) : Merge :=
  let x := match Tbl.find? m.sums k with
    | none => let r := f32.round 0 false 0 p.1; (BitVec.ofNat 32 r.1, r.2)
    | some c => accumulateX c p.1
  { sums := Tbl.put m.sums k x.1, count := m.count + 1, flags := m.flags ||| p.2 ||| x.2 }

/-- The products of one k. -/
def Merge.step (m : Merge) (as bs : List (Nat × Val)) : Merge :=
  (as.flatMap fun a => bs.map fun b => (a.1 * 2 ^ 32 + b.1, mulVal a.2 b.2)).foldl (fun (m : Merge) e => m.add e.1 e.2) m

/-- The partial sums of k to k + n - 1, or how an array ends it. -/
def State.opSums (s : State) (w : Who) (sg : W128) (h : Nat) (k : Nat) (m : Merge) :
    Nat → Option OpEnd × Merge × State
  | 0 => (none, m, s)
  | n + 1 =>
    let q (o : Nat) : Nat := bits h (8 * o + 63) (8 * o)
    match s.compressed w sg (q 0) (q 8) (q 16) (bits h 483 480) k 128 3 with
    | (.error e, s) => (some e, m, s)
    | (.ok as, s) =>
      match s.compressed w sg (q 24) (q 32) (q 40) (bits h 487 484) k 64 4 with
      | (.error e, s) => (some e, m, s)
      | (.ok bs, s) => s.opSums w sg h (k + 1) (m.step as bs) n

/-- A write of the merge engine, checked against the entry's segment (log 34). -/
def State.arrayWrite (s : State) (id : Nat) (w : Who) (sg : W128) (va : Nat) (bs : List Byte) : MatEnd × State :=
  if bs = [] then (.done, s) else
  match checkNamed (s.launch w.launch) w.launch sg needWrite (Int.ofNat va) bs.length 1 with
  | .ok =>
    match s.writeRange w id none .write va bs (segL sg) with
    | (.value _, s) => (.done, s)
    | (d, s) => (matFail d va, s)
  | _ => (.errors [(0x03, va)], s)

/-- The bytes of an output entry. -/
def opEntry (e : Nat × W32) : List Byte :=
  toBytes 4 (e.1 / 2 ^ 32) ++ toBytes 4 (e.1 % 2 ^ 32) ++ toBytes 4 e.2.toNat ++ toBytes 4 0

/-- Entries written one after the other, from number i on; the answer says how many stand. -/
def State.putEntries (s : State) (id : Nat) (w : Who) (sg : W128) (ent i : Nat) :
    List (Nat × W32) → MatEnd × Nat × State
  | [] => (.done, i, s)
  | e :: r =>
    match s.arrayWrite id w sg (ent + 16 * i) (opEntry e) with
    | (.done, s) => s.putEntries id w sg ent (i + 1) r
    | (x, s) => (x, i, s)

/-- The bytes of spill that a merge needs: none while the buffer holds the sums, else a free number of at most 16 bytes
for each product. -/
def State.spillNeed (s : State) (sums count : Nat) : Nat × State :=
  if sums ≤ 32768 then (0, s)
  else
    let (vs, s) := s.free 1
    (pickBelow (vs.getD 0 0) (16 * count + 1), s)

/-- CNT and STATUS written, in this order, and the error that a STATUS other than 0 reports. -/
def State.opFinish (s : State) (id : Nat) (w : Who) (sg : W128) (r : MatRun) (out cnt status : Nat) : MatRun × State :=
  match s.arrayWrite id w sg (out + 12) (toBytes 4 cnt) with
  | (.done, s) =>
    match s.arrayWrite id w sg (out + 28) (toBytes 4 status) with
    | (.done, s) => if status = 0 then (r, s) else (r.stop (.errors [(0x02, out)]), s)
    | (e, s) => (r.stop e, s)
  | (e, s) => (r.stop e, s)

/-- An entry that an error ends: CNT = 0, STATUS unwritten. A wait leaves CNT alone, and an entry that has to wait for CNT
ends once it is written. -/
def State.opStop (s : State) (id : Nat) (w : Who) (sg : W128) (r : MatRun) (out : Nat) (e : MatEnd) : MatRun × State :=
  match e with
  | .wait _ => (r.stop e, s)
  | _ =>
    match s.arrayWrite id w sg (out + 12) (toBytes 4 0) with
    | (.wait d, s) => (r.stop (.wait d), s)
    | (_, s) => (r.stop e, s)

/-- The result of the merge written out: spill area, entries, CNT and STATUS. What stands from before a wait is not
written again. -/
def State.opOutput (s : State) (id : Nat) (w : Who) (sg : W128) (r : MatRun) (out o : Nat) (t : Tbl W32) (count : Nat) :
    MatRun × State :=
  let ent := bits o 63 0
  let cap := bits o 95 64
  let spill := bits o 191 128
  let scap := bits o 223 192
  let (first, need, s) := match (s.op id).written with
    | [i, need] => (i, need, s)
    | _ =>
      let (need, s) := s.spillNeed t.length count
      (0, need, s)
  let (vs, s) := if first = 0 then s.free (Nat.min need scap) else ([], s)
  match s.arrayWrite id w sg spill (vs.map fun v => v.setWidth 8) with
  | (.done, s) =>
    if scap < need then s.opFinish id w sg { r with written := [first, need] } out 0 2
    else
      let (e, i, s) := s.putEntries id w sg ent first ((t.take cap).drop first)
      let r := { r with written := [i, need] }
      match e with
      | .done => s.opFinish id w sg r out (Nat.min cap t.length) (if cap < t.length then 1 else 0)
      | e => s.opStop id w sg r out e
  | (e, s) => s.opStop id w sg { r with written := [first, need] } out e

/-- mloop.op: both headers, the products, the output. Reserved header bits that are not zero end it like an error of an
array, with cause 0x02 (DEDUCED, log 34). -/
def State.runOp (s : State) (id : Nat) (w : Who) (hdr steps : Nat) (sg : W128) (c : Cluster) : MatRun × State :=
  let r : MatRun := { c := c }
  match s.readRange w hdr 64 (segL sg) with
  | (.value h, s) =>
    let out := bits h 447 384
    match s.arrayRead w sg (Int.ofNat out) 64 with
    | (.error e, s) => (r.stop e, s)
    | (.ok o, s) =>
      if 2 < bits h 483 480 ∨ 2 < bits h 487 484 ∨ bits h 511 488 ≠ 0 ∨ bits o 511 256 ≠ 0 then
        s.opStop id w sg r out (.errors [(0x02, hdr)])
      else
        let x := s.opSums w sg h (bits h 479 448) {} steps
        let s := x.2.2
        let r := { r with flags := x.2.1.flags }
        match x.1 with
        | some (.status n) => s.opFinish id w sg r out 0 n
        | some (.fails e) => s.opStop id w sg r out e
        | none => s.opOutput id w sg r out o x.2.1.sums x.2.1.count
  | (d, s) => (r.stop (matFail d hdr), s)

/-! ### mdrain (R200, R410) -/

/-- One output block with its scale; poisoned elements make it poisoned data. -/
def State.drainBlock (s : State) (id : Nat) (w : Who) (l : Bool) (c : Cluster) (bank row b dst fmt sck rnd : Nat)
    (sat : Bool) (scale : Nat) : Except MatEnd W32 × State :=
  let keys := (List.range 32).map fun t => bankKey bank row (32 * b + t)
  let vals := keys.map fun k => f32.decode (c.bankAt k).toNat
  let e := convertBlock sck fmt rnd sat vals
  let flags := snanFlag vals ||| e.flags
  let sc := if sck = 0 then none else some (scale + 2 * row + b, e.scale)
  match s.writeBlock id w l dst (blockOf fmt e.codes) sc with
  | (.value _, _, s) =>
    if keys.any fun k => Tbl.get c.bankPoison false k then
      match s.piecesOf w .write l dst (blockBytes fmt) with
      | (.ok ps, s) => (.ok flags, s.carryPoison ps (List.replicate (blockBytes fmt) true))
      | (.error _, s) => (.ok flags, s)
    else (.ok flags, s)
  | (d, va, s) => (.error (matFail d va), s)

/-- The blocks in their order, but for those written before a wait; one that cannot be written ends nothing else. -/
def State.runDrain (s : State) (id : Nat) (w : Who) (l : Bool) (bank dst dstr fmt sck rnd : Nat) (sat : Bool)
    (scale : Nat) (r : MatRun) : List (Nat × Nat) → MatRun × State
  | [] => (r, s)
  | (i, b) :: rest =>
    if r.written.contains (2 * i + b) then s.runDrain id w l bank dst dstr fmt sck rnd sat scale r rest else
    let x := s.drainBlock id w l r.c bank i b (dst + i * dstr + b * blockBytes fmt) fmt sck rnd sat scale
    match x.1 with
    | .ok flags =>
      x.2.runDrain id w l bank dst dstr fmt sck rnd sat scale
        { r with flags := r.flags ||| flags, written := (2 * i + b) :: r.written } rest
    | .error (.wait d) => ({ r with fin := .wait d }, x.2)
    | .error e => x.2.runDrain id w l bank dst dstr fmt sck rnd sat scale { r with fin := r.fin.add e } rest

/-! ## The sequencer (R188, R189, R205) -/

/-- Pairs of indices, the first slower. -/
def grid2 (n m : Nat) : List (Nat × Nat) := (List.range n).flatMap fun i => (List.range m).map fun j => (i, j)

/-- An entry executed on the cluster's array. -/
def State.runMat (s : State) (id : Nat) (w : Who) (m : MatOp) : MatRun × State :=
  let c := s.cluster w.cl
  match m with
  | .fill src fmt sck boff nblk cstr scale l =>
    s.runFill w l src.toNat fmt sck scale.toNat nblk cstr boff { c := c } (grid2 64 nblk)
  | .ip a afmt asck astr ainc bfmt boff bank steps rows clr scale sstr l =>
    let r : MatRun := { c := if clr then c.clearRows bank rows else c }
    s.ipSteps w l a.toNat afmt asck astr ainc scale.toNat sstr bfmt boff bank rows 0 r steps
  | .op hdr steps sg => s.runOp id w hdr.toNat steps sg c
  | .rw hdr bfmt boff bank steps clr sg => s.runRw w hdr.toNat bfmt boff bank steps clr sg c
  | .drain dst fmt sck rnd sat bank dstr scale l =>
    s.runDrain id w l bank dst.toNat dstr fmt sck rnd sat scale.toNat { c := c, written := (s.op id).written } (grid2 128 2)
  | .zero bank => ({ c := c.clearRows bank 128 }, s)

/-- Deferred errors of an operation. -/
def State.noteErrors (s : State) (id : Nat) : List (BitVec 8 × Nat) → State
  | [] => s
  | (code, va) :: r => (s.noteError id code va).noteErrors id r

/-- The rows that must be enabled for an entry to execute (R205): none but for mloop. rows is NROWS of a tile, which
the sequencer finds in its header. -/
def MatOp.rowsNeeded (m : MatOp) (tile : Nat) : Nat :=
  match m with
  | .ip _ _ _ _ _ _ _ _ _ rows _ _ _ _ => rows
  | .rw _ _ _ _ _ _ _ => Nat.max 1 (Nat.min 128 tile)
  | .op _ _ _ => 1
  | _ => 0

/-- NROWS of a tile's header, where it can be read. -/
def State.tileRows (s : State) (w : Who) (m : MatOp) : Nat :=
  match m with
  | .rw hdr _ _ _ _ _ sg =>
    match s.readRange w hdr.toNat 64 (segL sg) with
    | (.value v, _) => bits v 255 224
    | _ => 1
  | _ => 1

/-- The array's results put into the cluster; the rest of the cluster is as the accesses left it. -/
def Cluster.withArray (c r : Cluster) (mstat : W32) : Cluster :=
  { c with bank := r.bank, bankPoison := r.bankPoison, loft := r.loft, loftPoison := r.loftPoison
           mstat := c.mstat ||| mstat }

/-- MTHR with another ramp state. -/
def setRamp (m : W32) (v : Nat) : W32 := (m &&& ~~~0x300) ||| BitVec.ofNat 32 (v * 256)

/-- Whether an entry is an mloop. -/
def MatOp.isLoop : MatOp → Bool
  | .ip .. | .rw .. | .op .. => true
  | _ => false

/-- With an empty queue the ramp goes down (R205). -/
def Cluster.emptied (c : Cluster) (now : Nat) : Cluster :=
  if c.arrayQ = [] then { c with mthr := setRamp c.mthr (if c.rows = 0 then 0 else 3), rowsAt := now } else c

/-- An entry leaves the head of the queue. -/
def Cluster.dequeue (c : Cluster) (now : Nat) : Cluster := (c.withQueue (c.arrayQ.drop 1) now).emptied now

/-- An mloop that begins with every row enabled holds them; with fewer, rows are on the way up. -/
def Cluster.beginLoop (c : Cluster) (m : MatOp) : Cluster :=
  if m.isLoop then { c with mthr := setRamp c.mthr (if c.rows = 8 then 2 else 1) } else c

/-- The end of the entry at the head of the queue. -/
def State.endMat (s : State) (cl id t : Nat) (m : MatOp) (r : MatRun) : State :=
  let s := s.modCluster cl fun c => ((c.withArray r.c r.mstat).beginLoop m).dequeue s.time.toNat
  let o := s.op id
  let s := s.setOp id { o with flags := o.flags ||| r.flags, todo := [], held := [] }
  let s := match r.fin with
    | .errors l => s.noteErrors id l
    | _ => s
  (s.finishOp id).takeAtHeader t

/-- What an entry that has to wait has written, with the flags of it. -/
def State.noteWritten (s : State) (id : Nat) (r : MatRun) : State :=
  let o := s.op id
  s.setOp id { o with written := r.written, flags := if r.written = [] then o.flags else o.flags ||| r.flags }

/-- MAT_ENTRY_EXECUTE: the entry at the head of the queue. -/
def execMatEntryExecute (cl : Nat) (s : State) : Host.Outcome State Fault Refusal :=
  match (s.cluster cl).arrayQ with
  | [] => .next s
  | id :: _ =>
    let o := s.op id
    match o.kind, o.party with
    | .mat m, .team t =>
      let w := (s.team t).who pathMX
      if o.held ≠ [] ∨ s.fenced id = true ∨ 16 * (s.cluster cl).rows < m.rowsNeeded (s.tileRows w m) then .next s
      else
        match { s.releaseFenced id t pathMX with failing := o.fails }.runMat id w m with
        | (r, s') =>
          let s' := { s' with failing := [] }
          match r.fin with
          | .wait (.park token) => .next ((s'.noteWritten id r).holdUnit id 0 token)
          | .wait _ => .next (s'.noteWritten id r)
          | _ => .next (s'.endMat cl id t m r)
    | _, _ => .next s

/-! ## Row groups (R205, R407) -/

/-- Whether the package budget of the interval has room for one more change (R407). -/
def State.rampRoom (s : State) : Bool :=
  s.power.rampAt == s.time.toNat / 1000 && decide ((s.power.rampUsed + 1) * s.power.rowAmps ≤ 100 * s.power.slew)

/-- Whether an eighth of a ramp time has passed since a TIME; times are in units of 0.1 us, not below the floor of 4. -/
def State.rampStep (s : State) (since units : Nat) : Bool :=
  decide (25 * Nat.max 4 units ≤ 2 * (s.time.toNat - since))

/-- A change of the number of enabled groups, with the ramp state. -/
def State.setRows (s : State) (cl n ramp : Nat) : State :=
  let s := s.modCluster cl fun c => { c with rows := n, rowsAt := s.time.toNat, mthr := setRamp c.mthr ramp }
  { s with power := { s.power with rampUsed := s.power.rampUsed + 1 } }

/-- Whether the entry at the head of the queue is an mloop. -/
def State.loopAtHead (s : State) (cl : Nat) : Bool :=
  match (s.cluster cl).arrayQ with
  | [] => false
  | id :: _ =>
    match (s.op id).kind with
    | .mat m => m.isLoop
    | _ => false

/-- Whether rows are on the way up. -/
def Cluster.rampingUp (c : Cluster) : Bool := fld c.mthr 8 2 == 1

/-- What a cluster asks the package budget for, with the TIME of the request in units of half a ns (R407): to enable a group
once its mloop is at the head of the queue, a further one IRAMP.UP/8 us after the last; to disable one, IRAMP.DN/8 us after
the last, with an empty queue. -/
def State.rowRequest (s : State) (cl : Nat) : Option Nat :=
  let c := s.cluster cl
  if c.arrayQ == [] then
    if decide (0 < c.rows) && s.rampStep c.rowsAt s.power.rampDn then
      some (2 * c.rowsAt + 25 * Nat.max 4 s.power.rampDn)
    else none
  else if decide (c.rows < 8) then
    if c.rampingUp then
      if s.rampStep c.rowsAt s.power.rampUp then some (2 * c.rowsAt + 25 * Nat.max 4 s.power.rampUp) else none
    else if s.loopAtHead cl then some (2 * c.headAt) else none
  else none

/-- Whether the budget goes to a cluster's request: there is room, and no other request is older, or as old on a lower die or
a lower physical cluster of the die (R407). -/
def State.rowGrant (s : State) (cl : Nat) : Bool :=
  match s.rowRequest cl with
  | none => false
  | some a =>
    s.rampRoom && s.clusters.all fun e =>
      match s.rowRequest e.1 with
      | none => true
      | some b => decide (a < b) || (decide (a = b) && decide (cl ≤ e.1))

/-- ROW_GROUP_ENABLE: the next group; the first at once, a further one IRAMP.UP/8 us later. -/
def execRowGroupEnable (cl : Nat) (s : State) : Host.Outcome State Fault Refusal :=
  let c := s.cluster cl
  if c.arrayQ != [] && s.rowGrant cl then .next (s.setRows cl (c.rows + 1) (if c.rows + 1 = 8 then 2 else 1)) else .next s

/-- ROW_GROUP_DISABLE: with an empty queue, one group each IRAMP.DN/8 us, highest first. While entries that need no rows stand
in the queue it pauses, and its interval begins anew when they are gone (DEDUCED, log 120). -/
def execRowGroupDisable (cl : Nat) (s : State) : Host.Outcome State Fault Refusal :=
  let c := s.cluster cl
  if c.arrayQ == [] && s.rowGrant cl then .next (s.setRows cl (c.rows - 1) (if c.rows = 1 then 0 else 3)) else .next s

/-- RAMP_BUDGET_INTERVAL: the next interval of the package budget begins. -/
def execRampBudgetInterval (s : State) : Host.Outcome State Fault Refusal :=
  let k := s.time.toNat / 1000
  if s.power.rampAt = k then .next s else .next { s with power := { s.power with rampUsed := 0, rampAt := k } }

end Sys2Proof.Machine
end

