-- ==== Sys2Proof/Machine/Ray.lean ====
section
/-! DEFINITION. The ray unit: hierarchies in memory, the walk, any-hit, and the Waymark table (R206 to R233). The walk
visits every child that passes R208: Beyond is nowhere true (R219, R220; log 36). -/

namespace Sys2Proof.Machine

/-! ## Exact numbers -/

/-- The exact number of a value that is no NaN. -/
def Ext.ofVal : Val → Ext
  | .inf n => if n then .ninf else .pinf
  | .fin n m e => if 0 ≤ e then .quot (sgnInt n m * 2 ^ e.toNat) 1 else .quot (sgnInt n m) (2 ^ (-e).toNat)
  | .nan _ => .quot 0 1

def Ext.le (a b : Ext) : Bool :=
  match a, b with
  | .ninf, _ => true
  | _, .pinf => true
  | .quot n d, .quot m e => decide (n * Int.ofNat e ≤ m * Int.ofNat d)
  | _, _ => false

def Ext.min (a b : Ext) : Ext := if a.le b then a else b
def Ext.max (a b : Ext) : Ext := if a.le b then b else a

/-- A value that stands for the code of a bound, with the open number where the code is a NaN. -/
def openVal (c : Nat) : Val :=
  match f32.decode c with
  | .nan _ =>
    match f32.decode (Config.slabOpen c 0 0).toNat with
    | .nan _ => .fin false 0 0
    | v => v
  | v => v

/-- (bound - o) / d, exactly; the open number where infinities leave it undefined. -/
def slabEnd (bound o d : Nat) : Ext :=
  let undef := Ext.ofVal (openVal (Config.slabOpen bound o d).toNat)
  match addVal 0 (openVal bound) (openVal o).neg, openVal d with
  | (.nan _, _), _ => undef
  | (.inf _, _), .inf _ => undef
  | (.inf x, _), v => if x != v.sign then .ninf else .pinf
  | (.fin _ _ _, _), .inf _ => .quot 0 1
  | (.fin x m e, _), .fin y k f =>
    if f ≤ e then .quot (sgnInt (x != y) (m * 2 ^ (e - f).toNat)) (Nat.max 1 k)
    else .quot (sgnInt (x != y) m) (Nat.max 1 (k * 2 ^ (f - e).toNat))
  | _, _ => undef

/-! ## Nodes (R206 to R210) -/

/-- The ray of a level: origin and direction by axis, as codes. -/
structure LRay where
  o : List Nat
  d : List Nat
  deriving DecidableEq, Repr

def LRay.at_ (l : List Nat) (a : Nat) : Nat := l.getD a 0

def RayReq.level (r : RayReq) : LRay :=
  LRay.mk [r.ox.toNat, r.oy.toNat, r.oz.toNat] [r.dx.toNat, r.dy.toNat, r.dz.toNat]

def nodeByte (v k : Nat) : Nat := bits v (8 * k + 7) (8 * k)
def nodeWord (v k : Nat) : Nat := bits v (8 * k + 31) (8 * k)
def nodeQuad (v k : Nat) : Nat := bits v (8 * k + 63) (8 * k)

/-- KIND of child c: 0 empty, 1 inner, 2 leaf. -/
def childKind (v c : Nat) : Nat := bits (nodeByte v 15) (2 * c + 1) (2 * c)

/-- An inner node that breaks R207 or R208. -/
def innerMalformed (v : Nat) : Bool :=
  (List.range 4).any (fun c =>
    childKind v c == 3
      || (childKind v c == 0 && (bits v (8 * (22 + 6 * c) - 1) (8 * (16 + 6 * c)) != 0 || nodeWord v (48 + 4 * c) != 0))
      || (List.range 3).any fun a => decide (nodeByte v (17 + 6 * c + 2 * a) < nodeByte v (16 + 6 * c + 2 * a)))
    || nodeQuad v 40 % 64 != 0

/-- A bound of a child on an axis, as a code: rounded down (mode 3) or up (mode 2). -/
def childBound (v c a : Nat) (hi : Bool) : Nat :=
  let q := nodeByte v (16 + 6 * c + 2 * a + hi.toNat)
  (f32.round (if hi then 2 else 3) false 0
    (addVal 0 (f32.decode (nodeWord v (4 * a))) (.fin false q (toSigned 8 (nodeByte v (12 + a))))).1).1

/-- The ends of an axis, smaller first: none where the box is missed, no ends where the axis only passes. -/
def axisEnds (v c a : Nat) (r : LRay) : Option (Option (Ext × Ext)) :=
  let lo := childBound v c a false
  let hi := childBound v c a true
  let o := LRay.at_ r.o a
  let d := LRay.at_ r.d a
  match openVal d with
  | .fin _ 0 _ =>
    let x := Ext.ofVal (openVal o)
    if (Ext.ofVal (openVal lo)).le x && x.le (Ext.ofVal (openVal hi)) then some none else none
  | _ =>
    let p := slabEnd lo o d
    let q := slabEnd hi o d
    some (some (p.min q, p.max q))

/-- The entry of a child that passes (R208). -/
def childEntry (v c : Nat) (r : LRay) (tmin tmax : Ext) : Option Ext :=
  let ends := (List.range 3).map fun a => axisEnds v c a r
  if ends.any Option.isNone then none
  else
    let e := ends.filterMap fun x => x.bind id
    let entry := e.foldl (fun m p => m.max p.1) tmin
    let exit := e.foldl (fun m p => m.min p.2) tmax
    if entry.le exit then some entry else none

/-- A child to be visited. -/
structure Child where
  entry : Ext
  leaf : Bool
  addr : Int
  deriving DecidableEq, Repr

/-- A child placed after those with the same or a smaller entry. -/
def insertChild (c : Child) : List Child → List Child
  | [] => [c]
  | x :: r => if x.entry.le c.entry then x :: insertChild c r else c :: x :: r

/-- Children(node), by entry and then slot. -/
def childrenOf (v : Nat) (r : LRay) (tmin tmax : Ext) : List Child :=
  (List.range 4).foldl (fun l c =>
    if childKind v c = 0 then l
    else
      match childEntry v c r tmin tmax with
      | none => l
      | some e =>
        insertChild (Child.mk e (childKind v c == 2) (Int.ofNat (nodeQuad v 40 + 64 * nodeWord v (48 + 4 * c)))) l) []

def instMalformed (v : Nat) : Bool :=
  nodeQuad v 48 % 64 != 0 || bits v 511 488 != 0 || bits v 487 483 != 0 || bits v 481 480 == 3

def triMalformed (v : Nat) : Bool := bits v 383 353 != 0

/-! ## The object ray and the triangle test (R215, R216) -/

def m32 (a b : Nat) : Nat := (mulCode f32 a b).1
def a32 (a b : Nat) : Nat := (addCode f32 a b).1
def s32 (a b : Nat) : Nat := (subCode f32 a b).1
def d32 (a b : Nat) : Nat := (f32.round 0 false 0 (divVal 40 (f32.decode a) (f32.decode b)).1).1

/-- The object ray of an instance leaf. -/
def objectRay (v : Nat) (r : LRay) : LRay :=
  let m (i j : Nat) : Nat := nodeWord v (16 * i + 4 * j)
  let o (i : Nat) : Nat :=
    a32 (a32 (a32 (m32 (m i 0) (LRay.at_ r.o 0)) (m32 (m i 1) (LRay.at_ r.o 1))) (m32 (m i 2) (LRay.at_ r.o 2))) (m i 3)
  let d (i : Nat) : Nat :=
    a32 (a32 (m32 (m i 0) (LRay.at_ r.d 0)) (m32 (m i 1) (LRay.at_ r.d 1))) (m32 (m i 2) (LRay.at_ r.d 2))
  LRay.mk [o 0, o 1, o 2] [d 0, d 1, d 2]

/-- The axis of the largest magnitude, the lowest on ties. -/
def largestAxis (d : List Nat) : Nat :=
  let m (a : Nat) : Nat := LRay.at_ d a % 2 ^ 31
  if m 1 ≤ m 0 then (if m 2 ≤ m 0 then 0 else 2) else (if m 2 ≤ m 1 then 1 else 2)

/-- Round in RNE to f64, as a value. -/
def r64 (v : Val) : Val := f64.decode (f64.round 0 false 0 v).1

def mul64 (a b : Val) : Val := r64 (mulVal a b).1
def add64 (a b : Val) : Val := r64 (addVal 0 a b).1

/-- A value below, or above, zero. -/
def Val.isNeg (v : Val) : Bool := !v.isNan && cmpVal v (.fin false 0 0) == .lt
def Val.isPos (v : Val) : Bool := !v.isNan && cmpVal v (.fin false 0 0) == .gt

/-- A vertex in the space of the ray: x, y, z as codes. -/
def shear (r : LRay) (kx ky kz sx sy sz : Nat) (p : List Nat) : Nat × Nat × Nat :=
  let px := s32 (LRay.at_ p kx) (LRay.at_ r.o kx)
  let py := s32 (LRay.at_ p ky) (LRay.at_ r.o ky)
  let pz := s32 (LRay.at_ p kz) (LRay.at_ r.o kz)
  (s32 px (m32 sx pz), s32 py (m32 sy pz), m32 sz pz)

/-- The difference of two products of f32 numbers, exact before one rounding to f64. -/
def cross64 (a b c d : Nat) : Val :=
  r64 (addVal 0 (mulVal (f32.decode a) (f32.decode b)).1 (mulVal (f32.decode c) (f32.decode d)).1.neg).1

/-- TriTest: t, u, v and front. -/
def triTest (r : LRay) (tmin tmax : Nat) (v0 v1 v2 : List Nat) : Option (Nat × Nat × Nat × Bool) :=
  let kz := largestAxis r.d
  let dz := LRay.at_ r.d kz
  let swap := (f32.decode dz).isNeg
  let k1 := (kz + 1) % 3
  let k2 := (kz + 2) % 3
  let kx := if swap then k2 else k1
  let ky := if swap then k1 else k2
  let sx := d32 (LRay.at_ r.d kx) dz
  let sy := d32 (LRay.at_ r.d ky) dz
  let sz := d32 0x3F800000 dz
  let (ax, ay, az) := shear r kx ky kz sx sy sz v0
  let (bx, by_, bz) := shear r kx ky kz sx sy sz v1
  let (cx, cy, cz) := shear r kx ky kz sx sy sz v2
  let u := cross64 cx by_ cy bx
  let v := cross64 ax cy ay cx
  let w := cross64 bx ay by_ ax
  if u.isNan || v.isNan || w.isNan then none
  else if (u.isNeg || v.isNeg || w.isNeg) && (u.isPos || v.isPos || w.isPos) then none
  else
    let det := add64 (add64 u v) w
    if cmpVal det (.fin false 0 0) = .eq ∧ det.isNan = false then none
    else
      let t := add64 (add64 (mul64 u (f32.decode az)) (mul64 v (f32.decode bz))) (mul64 w (f32.decode cz))
      let div32 (x : Val) : Nat := (f32.round 0 false 0 (divVal 60 x det).1).1
      let tc := div32 t
      let tv := f32.decode tc
      if tv.isNan || cmpVal tv (f32.decode tmin) == .lt || cmpVal tv (f32.decode tmax) == .gt then none
      else some (tc, div32 v, div32 w, det.isPos)

/-! ## Hits (R217, R218) -/

def compareNat (a b : Nat) (k : Ordering) : Ordering := if a < b then .lt else if b < a then .gt else k

/-- Keys in their order. -/
def RayHit.compare (a b : RayHit) : Ordering :=
  match cmpVal (f32.decode a.t.toNat) (f32.decode b.t.toNat) with
  | .eq => compareNat a.inst b.inst (compareNat a.geom b.geom (compareNat a.prim b.prim .eq))
  | o => o

def RayHit.below (a : RayHit) (b : Option RayHit) : Bool := b.all fun x => a.compare x == .lt
def RayHit.above (a : RayHit) (b : Option RayHit) : Bool := b.all fun x => a.compare x == .gt

/-- The hit of a triangle leaf under an instance leaf: tested, and not culled. -/
def hitOf (rq : RayReq) (r : LRay) (inst tri : Nat) (ia ta : Int) : Option RayHit :=
  let p (i : Nat) : List Nat := (List.range 3).map fun a => nodeWord tri (12 * i + 4 * a)
  match triTest r rq.tmin.toNat rq.tmax.toNat (p 0) (p 1) (p 2) with
  | none => none
  | some (t, u, v, front) =>
    let noCull := bits inst 482 482 == 1
    if !noCull && ((rq.flags.getLsbD 10 && !front) || (rq.flags.getLsbD 11 && front)) then none
    else
      let opq :=
        if rq.flags.getLsbD 8 then true else if rq.flags.getLsbD 9 then false
        else if bits inst 480 480 = 1 then true else if bits inst 481 481 = 1 then false else bits tri 352 352 == 1
      some { t := BitVec.ofNat 32 t, inst := bits inst 471 448, geom := nodeWord tri 36, prim := nodeWord tri 40
             u := BitVec.ofNat 32 u, v := BitVec.ofNat 32 v, front := front, opq := opq
             ta := BitVec.ofInt 64 ta, ia := BitVec.ofInt 64 ia }

/-- An instance is entered when the masks meet. -/
def maskMeets (rq : RayReq) (inst : Nat) : Bool := (rq.flags.toNat % 256) &&& bits inst 479 472 != 0

/-! ## Poison of nodes (R226, R324) -/

/-- A poison record for the keeper of core 0 of a cluster; records of one line merge, and a full queue marks the
loss. -/
def State.postPoison (s : State) (cl va : Nat) : State :=
  let line : W64 := BitVec.ofNat 64 (va / 256 * 256)
  let q := (s.cluster cl).poisonQ
  if q.any fun a => a &&& ~~~1 == line then s
  else if 16 ≤ q.length then
    s.modCluster cl fun c => { c with poisonQ := c.poisonQ.modify 15 fun a => a ||| 1 }
  else (s.modCluster cl fun c => { c with poisonQ := c.poisonQ ++ [line] }).keeperEvent (slotNo cl 0 0) 0x10000000

/-- The Waymark entries of a launch's context whose leaves lie in the 256-byte line of an address are dropped on every
cluster. -/
def State.dropWaymark (s : State) (ctx va : Nat) : State :=
  let on (c : Cluster) (e : WmEntry) : Bool :=
    (Tbl.find? c.ctx e.lc).any (fun l => (s.launch l).ctx == ctx)
      && (e.ta.toNat / 256 == va / 256 || e.ia.toNat / 256 == va / 256)
  { s with clusters := s.clusters.map fun x => (x.1, { x.2 with waymark := x.2.waymark.filter fun e => !on x.2 e.2 }) }

/-- A node fetch that found an uncorrectable error. -/
def State.poisonedNode (s : State) (w : Who) (va : Nat) : State :=
  let s := (s.dropWaymark (s.launch w.launch).ctx va).postPoison w.cl va
  { s with ras := s.ras ++ [(.poison, va / 256 * 256)] }

/-! ## The walk (R219, R220, R225) -/

/-- What a walk has found. -/
structure Walked where
  hits : List RayHit := []
  notes : List RayNote := []
  deriving DecidableEq, Repr

/-- A walk goes on with what it found, or waits. -/
abbrev WalkEnd := Except Done Walked × State

/-- What reading a node gives: its 64 bytes, a note, or a wait. -/
inductive NodeRead where
  | node (v : Nat)
  | bad (k : NoteKind)
  | wait (d : Done)
  deriving DecidableEq, Repr

def State.readNode (s : State) (w : Who) (sg : W128) (va : Int) (malformed : Nat → Bool) : NodeRead × State :=
  match checkNamed (s.launch w.launch) w.launch sg needRead va 64 1 with
  | .ok =>
    match s.loadRange w (nodeNo w.cl) va.toNat 64 (segL sg) with
    | (.value v, s) => (if malformed v then .bad .malformed else .node v, s)
    | (.poisoned, s) => (.bad .poison, s.poisonedNode w va.toNat)
    | (.fail, s) => (.bad .fault, s)
    | (d, s) => (.wait d, s)
  | _ => (.bad .segment, s)

def noteOf (k : NoteKind) (entry : Ext) (va : Int) : Walked :=
  Walked.mk [] [RayNote.mk k entry (BitVec.ofInt 64 va)]

/-- Children visited in their order. -/
def walkAll (f : Child → State → WalkEnd) : List Child → State → WalkEnd
  | [], s => (.ok {}, s)
  | c :: r, s =>
    match f c s with
    | (.error d, s) => (.error d, s)
    | (.ok a, s) =>
      match walkAll f r s with
      | (.error d, s) => (.error d, s)
      | (.ok b, s) => (.ok (Walked.mk (a.hits ++ b.hits) (a.notes ++ b.notes)), s)

/-- The walk of the inner node at an address, with n levels left; leaf visits a leaf child. -/
def walkNode (w : Who) (rq : RayReq) (r : LRay) (leaf : Child → State → WalkEnd) (entry : Ext) (va : Int) (s : State) :
    Nat → WalkEnd
  | 0 => (.ok (noteOf .depth entry va), s)
  | n + 1 =>
    match s.readNode w rq.sg va innerMalformed with
    | (.wait d, s) => (.error d, s)
    | (.bad k, s) => (.ok (noteOf k entry va), s)
    | (.node v, s) =>
      walkAll (fun c s => if c.leaf then leaf c s else walkNode w rq r leaf c.entry c.addr s n)
        (childrenOf v r (Ext.ofVal (f32.decode rq.tmin.toNat)) (Ext.ofVal (f32.decode rq.tmax.toNat))) s

/-- A triangle leaf under an instance. -/
def visitTri (w : Who) (rq : RayReq) (r : LRay) (inst : Nat) (ia : Int) (c : Child) (s : State) : WalkEnd :=
  match s.readNode w rq.sg c.addr triMalformed with
  | (.wait d, s) => (.error d, s)
  | (.bad k, s) => (.ok (noteOf k c.entry c.addr), s)
  | (.node v, s) => (.ok (Walked.mk (hitOf rq r inst v ia c.addr).toList []), s)

/-- An instance leaf: its bottom level is walked when the masks meet. -/
def visitInst (w : Who) (rq : RayReq) (c : Child) (s : State) : WalkEnd :=
  match s.readNode w rq.sg c.addr instMalformed with
  | (.wait d, s) => (.error d, s)
  | (.bad k, s) => (.ok (noteOf k c.entry c.addr), s)
  | (.node v, s) =>
    if maskMeets rq v then
      let r := objectRay v rq.level
      walkNode w rq r (visitTri w rq r v c.addr) (Ext.ofVal (f32.decode rq.tmin.toNat)) (Int.ofNat (nodeQuad v 48)) s 32
    else (.ok {}, s)

/-- The whole walk of a ray. -/
def State.walkRay (s : State) (w : Who) (rq : RayReq) : WalkEnd :=
  walkNode w rq rq.level (visitInst w rq) (Ext.ofVal (f32.decode rq.tmin.toNat)) (Int.ofNat rq.root.toNat) s 32

/-- A degenerate ray (R214). -/
def RayReq.degenerate (r : RayReq) : Bool :=
  let v (c : W32) : Val := f32.decode c.toNat
  let zero (c : W32) : Bool := c &&& 0x7FFFFFFF == 0
  [r.ox, r.oy, r.oz, r.tmin, r.dx, r.dy, r.dz, r.tmax].any (fun c => (v c).isNan)
    || (zero r.dx && zero r.dy && zero r.dz) || cmpVal (v r.tmin) (v r.tmax) == .gt

/-! ## The Waymark table (R227 to R232) -/

/-- The launch-context slot of a launch on a cluster. -/
def Cluster.slotOf (c : Cluster) (launch : Nat) : Nat := ((List.find? (fun e => e.2 == launch) c.ctx).map fun e => e.1).getD 0

def Cluster.wmSetting (c : Cluster) (lc hc : Nat) : WmCtx := Tbl.get c.wmCtx {} (16 * lc + hc)

def isFinite (c : W32) : Bool := c &&& 0x7F800000 != 0x7F800000

/-- floor(v x 2^-e), for a finite v. -/
def floorScaled (v : Val) (e : Int) : Int :=
  match v with
  | .fin n m x => if e ≤ x then sgnInt n m * 2 ^ (x - e).toNat else Int.fdiv (sgnInt n m) (2 ^ (e - x).toNat)
  | _ => 0

/-- A direction as integers of one scale. -/
def dirInt (r : RayReq) (c : W32) : Int :=
  let exp (c : W32) : Int := match f32.decode c.toNat with | .fin _ _ e => e | _ => 0
  scaled (f32.decode c.toNat) (min (exp r.dx) (min (exp r.dy) (exp r.dz)))

/-- K of a ray under a grid exponent (R227). -/
def RayReq.wmKey (r : RayReq) (e : BitVec 7) : Nat :=
  let q (c : W32) : Nat := wrap 10 (floorScaled (f32.decode c.toNat) e.toInt)
  let x := dirInt r r.dx
  let y := dirInt r r.dy
  let z := dirInt r r.dz
  let sum := Int.ofNat (x.natAbs + y.natAbs + z.natAbs)
  let sg (a : Int) : Int := if a < 0 then -1 else 1
  let px := if z < 0 then (sum - Int.ofNat y.natAbs) * sg x else x
  let py := if z < 0 then (sum - Int.ofNat x.natAbs) * sg y else y
  let cell (p : Int) : Nat := Nat.min 63 (Int.fdiv ((p + sum) * 32) sum).toNat
  q r.ox + q r.oy * 2 ^ 10 + q r.oz * 2 ^ 20 + cell px * 2 ^ 30 + cell py * 2 ^ 36

/-- The set of a key. -/
def wmSet (k hc lc : Nat) : Nat := hrndWord (k % 2 ^ 32) (bits k 41 32 + hc * 2 ^ 10 + lc * 2 ^ 14) % 2 ^ 11

/-- The lookup conditions of R228. -/
def Cluster.wmLooks (c : Cluster) (r : RayReq) (lc : Nat) : Bool :=
  !r.degenerate && [r.ox, r.oy, r.oz, r.dx, r.dy, r.dz].all isFinite && !r.flags.getLsbD 12
    && !(c.wmSetting lc r.hc).off && wmQuota c.wmpart lc != 0

/-- The ways of a set that belong to a launch context, as keys of the table. -/
def Cluster.wmWays (c : Cluster) (set lc : Nat) : List Nat :=
  ((List.range 4).filter fun w => wayOwner c.wmpart w == some lc).map fun w => 4 * set + w

/-- The counts of a ray. A read shows them from some moment on within 1 us, which is free (R232; log 115). -/
def State.countRay (s : State) (launch : Nat) (look hit use : Bool) : State :=
  if look then
    let (vs, s) := s.free 1
    let l := s.launch launch
    let now := s.time.toNat
    s.setLaunch launch { l with
      wmstat := l.wmShown now
      wmLate := (l.wmLate.filter fun e => decide (now < e.1)) ++ [(now + pickBelow (vs.getD 0 0) 1001, look, hit, use)] }
  else s

/-- The hit that a pair of leaves gives a ray, without a note or a wait: a fetch that fails gives none. One that finds an
uncorrectable error does all that R226 says. -/
def State.tryLeaves (s : State) (w : Who) (rq : RayReq) (ia ta : W64) : Option (Option RayHit) × State :=
  let failed (r : NodeRead × State) : Option (Option RayHit) × State :=
    match r with
    | (.bad .poison, s') => (none, s')
    | _ => (none, s)
  match s.readNode w rq.sg (Int.ofNat ia.toNat) instMalformed with
  | (.node i, s1) =>
    match s1.readNode w rq.sg (Int.ofNat ta.toNat) triMalformed with
    | (.node t, s2) =>
      (some (if maskMeets rq i then hitOf rq (objectRay i rq.level) i t (Int.ofNat ia.toNat) (Int.ofNat ta.toNat) else none), s2)
    | r => failed r
  | r => failed r

/-- What a lookup comes to: whether it was made and whether it hit, and the opaque hit that it foretells. -/
structure Foretold where
  look : Bool := false
  hit : Bool := false
  best : Option RayHit := none
  deriving DecidableEq, Repr

/-- Predict (R228), with the lookup in a state of the table; an entry that is still there is used, or is dropped where a
fetch fails. -/
def State.predict (s : State) (w : Who) (rq : RayReq) (table : Tbl WmEntry) : Foretold × State :=
  let c := s.cluster w.cl
  let lc := c.slotOf w.launch
  if c.wmLooks rq lc then
    let set := c.wmSetting lc rq.hc
    let k := rq.wmKey set.e
    let found := (c.wmWays (wmSet k rq.hc lc) lc).find? fun i =>
      (Tbl.find? table i).any fun e => e.k == k && e.lc == lc && e.hc == rq.hc && e.gen == set.gen
    match found.bind fun i => (Tbl.find? table i).map fun e => (i, e) with
    | none => (Foretold.mk true false none, s)
    | some (i, e) =>
      let (h, s) := s.tryLeaves w rq e.ia e.ta
      let there (c : Cluster) : Bool := Tbl.find? c.waymark i == Tbl.find? table i
      let s := s.modCluster w.cl fun c =>
        if there c = false then c
        else if h.isSome then { c with waymark := Tbl.put c.waymark i { e with used := c.wmUses + 1 }, wmUses := c.wmUses + 1 }
        else { c with waymark := Tbl.erase c.waymark i }
      (Foretold.mk true true ((h.getD none).filter fun h => h.opq), s)
  else ({}, s)

/-- The entry that a write to a set replaces (R229). -/
def Cluster.wmVictim (c : Cluster) (ways : List Nat) (k lc hc : Nat) : Option Nat :=
  let same (i : Nat) : Bool := (Tbl.find? c.waymark i).any fun e => e.k == k && e.lc == lc && e.hc == hc
  let free (i : Nat) : Bool := (Tbl.find? c.waymark i).all fun e => e.gen != (c.wmSetting e.lc e.hc).gen
  let age (i : Nat) : Nat := ((Tbl.find? c.waymark i).map fun e => e.used).getD 0
  match ways.find? same with
  | some i => some i
  | none =>
    match ways.find? free with
    | some i => some i
    | none => ways.foldl (fun b i =>
        match b with
        | none => some i
        | some j => if age i < age j then some i else some j) none

/-- The write after a FINAL_HIT whose primitive is opaque. -/
def State.wmWrite (s : State) (w : Who) (rq : RayReq) (h : RayHit) : State :=
  s.modCluster w.cl fun c =>
    let lc := c.slotOf w.launch
    if h.opq && c.wmLooks rq lc then
      let set := c.wmSetting lc rq.hc
      let k := rq.wmKey set.e
      match c.wmVictim (c.wmWays (wmSet k rq.hc lc) lc) k lc rq.hc with
      | none => c
      | some i =>
        { c with waymark := Tbl.put c.waymark i (WmEntry.mk k lc rq.hc set.gen h.ta h.ia (c.wmUses + 1)), wmUses := c.wmUses + 1 }
    else c

/-! ## Any-hit (R221, R222, R225) -/

/-- What a lane's ray comes to: a wait, a result block with the state the unit keeps, or a team cause. -/
inductive RayEnd where
  | wait (d : Done)
  | block (words : List W32) (keep : Option RayLane)
  | error (code : BitVec 8) (addr : W64)
  deriving DecidableEq, Repr

def missBlock (status : W32) : List W32 := [0x7F800000, 0xFFFFFFFF, 0xFFFFFFFF, 0xFFFFFFFF, 0, 0, status]

def hitBlock (h : RayHit) (status : W32) : List W32 :=
  [h.t, BitVec.ofNat 32 h.prim, BitVec.ofNat 32 h.geom, BitVec.ofNat 32 h.inst, h.u, h.v,
    status ||| (if h.front then 16 else 0)]

/-- A hit placed by key; one with a key already there is not added. -/
def insertHit (h : RayHit) : List RayHit → List RayHit
  | [] => [h]
  | x :: r =>
    match h.compare x with
    | .lt => h :: x :: r
    | .eq => x :: r
    | .gt => x :: insertHit h r

/-- The best opaque hit and the candidate buffer after a walk. -/
def RayLane.gather (a : RayLane) (w : Walked) : RayLane :=
  let best := (w.hits.filter fun h => h.opq).foldl (fun b h => if h.below b then some h else b) a.best
  let cs := (w.hits.filter fun h => !h.opq && h.above a.lo && h.below best).foldl (fun l h => insertHit h l) []
  { a with best := best, buf := cs.take 16, more := decide (16 < cs.length), notes := a.notes ++ w.notes }

/-- The outcome of a finished ray (R225). Of several due notes of the deciding kind the first in the order of the walk gives
the address (DEDUCED, log 127). -/
def RayLane.outcome (a : RayLane) : Option RayNote :=
  let tf := Ext.ofVal (f32.decode (match a.best with | some h => h.t.toNat | none => a.ray.tmax.toNat))
  let due := a.notes.filter fun n => n.entry.le tf
  [NoteKind.segment, .fault, .malformed, .poison, .depth].findSome? fun k => due.find? fun n => n.kind == k

/-- Finish: the result block, or the cause of a noted node. -/
def State.finishRay (s : State) (w : Who) (a : RayLane) : RayEnd × State :=
  match a.outcome with
  | some n =>
    match n.kind with
    | .segment => (.error 0x03 n.addr, s)
    | .fault => (.error 0x0E n.addr, s)
    | .malformed => (.error 0x02 n.addr, s)
    | .poison => (.block (missBlock 3) none, s)
    | .depth => (.block (missBlock 4) none, s)
  | none =>
    match a.best with
    | none => (.block (missBlock 0) none, s)
    | some h => (.block (hitBlock h 1) none, s.wmWrite w a.ray h)

/-- The next candidate is presented, or the ray is finished. -/
def State.present (s : State) (w : Who) (a : RayLane) : RayEnd × State :=
  match a.buf with
  | h :: _ => (.block (hitBlock h 2) (some a), s)
  | [] => s.finishRay w a

/-- A new ray, with its lookup in a state of the table. -/
def State.startRay (s : State) (w : Who) (rq : RayReq) (table : Tbl WmEntry) : RayEnd × State :=
  if rq.degenerate then (.block (missBlock 0) none, s)
  else
    match s.walkRay w rq with
    | (.error d, s) => (.wait d, s)
    | (.ok x, s) =>
      let (p, s) := s.predict w rq table
      let sure := p.best.any fun h => x.hits.any fun y => y.ta == h.ta && y.ia == h.ia
      (s.countRay w.launch p.look p.hit sure).present w (RayLane.gather (RayLane.mk rq none [] false none []) x)

/-- A lane resumed by rcommit. -/
def State.resumeRay (s : State) (w : Who) (a : RayLane) (accept : Bool) : RayEnd × State :=
  match a.buf with
  | [] => s.finishRay w a
  | h :: r =>
    if accept then s.finishRay w { a with best := some h, buf := [], more := false }
    else
      let a := { a with lo := some h, buf := r }
      if r = [] ∧ a.more = true then
        match s.walkRay w a.ray with
        | (.error d, s) => (.wait d, s)
        | (.ok x, s) => s.present w (a.gather x)
      else s.present w a

/-! ## Completion (R223, R224, R230) -/

def rayKey (t lane : Nat) : Nat := 1024 * t + lane

/-- What a lane's ray came to, for unit i of its operation. -/
def State.settleRay (s : State) (id i t lane d : Nat) (e : RayEnd) : State :=
  match e with
  | .wait (.park token) => s.holdUnit id i token
  | .wait _ => s
  | .block ws keep =>
    let s := s.putResult t lane false d 7 (packElems 32 (fun k => (ws.getD k 0).toNat) 7)
    let s := { s with rays := match keep with
                        | some a => Tbl.put s.rays (rayKey t lane) a
                        | none => Tbl.erase s.rays (rayKey t lane) }
    let o := s.op id
    s.setOp id { o with todo := o.todo.filter fun j => j != i }
  | .error code addr =>
    let o := s.op id
    let s := { s with rays := Tbl.erase s.rays (rayKey t lane) }
    let s := s.setOp id { o with todo := o.todo.filter fun j => j != i, failed := true }
    s.modTeam t fun tm =>
      if tm.st = .retiring then tm
      else { tm with deferred := tm.deferred ++ [Deferred.mk code id o.pc (BitVec.ofNat 32 lane) addr o.handler] }

/-- The lane of unit i of a RAY operation. -/
def OpKind.rayLane (k : OpKind) (i : Nat) : Nat :=
  match k with
  | .rtrace _ rays => ((rays[i]?).map fun e => e.1).getD 0
  | .rcommit _ answers => ((answers[i]?).map fun e => e.1).getD 0
  | _ => 0

/-- The lanes of a cluster whose rays the unit keeps state of, each once: those that hold a candidate, and those in flight
that wait for a node (R223). A lane that has ended is none of them. -/
def State.rayLoad (s : State) (cl : Nat) : Nat :=
  let waits := s.ops.flatMap fun e =>
    match e.2.party with
    | .team t => if e.2.kind.path = pathRY then e.2.held.map fun h => rayKey t (e.2.kind.rayLane h.1) else []
    | _ => []
  (((Tbl.keys s.rays ++ waits).eraseDups).filter fun key =>
    (s.team (key / 1024)).cl == cl && (s.team (key / 1024)).live.testBit (key % 1024)).length

/-- Whether the unit has room for a lane: 4,096 of the cluster, those beyond wait (R223). -/
def State.rayRoom (s : State) (t lane : Nat) : Bool :=
  (Tbl.find? s.rays (rayKey t lane)).isSome || decide (s.rayLoad (s.team t).cl < 4096)

/-- One lane of a RAY operation; a new ray looks into the table given. -/
def State.rayUnit (s : State) (id t i : Nat) (table : Tbl WmEntry) : State :=
  let w := (s.team t).who pathRY
  match (s.op id).kind with
  | .rtrace d rays =>
    match rays[i]? with
    | none => s
    | some (lane, rq) =>
      if s.rayRoom t lane then
        let (e, s) := s.startRay w rq table
        s.settleRay id i t lane d e
      else s
  | .rcommit d answers =>
    match answers[i]? with
    | none => s
    | some (lane, yes) =>
      match Tbl.find? s.rays (rayKey t lane) with
      | none =>
        let o := s.op id
        s.setOp id { o with todo := o.todo.filter fun j => j != i }
      | some a =>
        let (e, s) := s.resumeRay w a yes
        s.settleRay id i t lane d e
  | _ => s

/-- Lanes one after the other. Each looks into the table as it was when the first began, or as it is at its own turn. -/
def State.rayUnits (s : State) (id t : Nat) (first : Tbl WmEntry) : List (Nat × Bool) → State
  | [] => s
  | (i, early) :: r =>
    (s.rayUnit id t i (if early then first else (s.cluster (s.team t).cl).waymark)).rayUnits id t first r

/-- The lanes that wait for nothing, in a free order, each with a free choice of when its lookup is made: both depend on
the unit's timing (R228, R229, R233; log 115). -/
def State.traceLanes (s : State) (id t : Nat) (todo : List Nat) : State :=
  let (vs, s) := s.free (2 * todo.length)
  let order := freeOrder todo vs
  let early := (vs.drop todo.length).map fun v => v.getLsbD 0
  s.rayUnits id t (s.cluster (s.team t).cl).waymark (order.zip early)

/-- A new generation of a hierarchy context on a cluster. -/
def Cluster.newGeneration (c : Cluster) (lc h e : Nat) (off : Bool) : Cluster :=
  let gen := ((c.wmSetting lc h).gen + 1) % 2 ^ 16
  let c := { c with wmCtx := Tbl.put c.wmCtx (16 * lc + h) (WmCtx.mk gen (BitVec.ofNat 7 e) off) }
  if gen = 0 then { c with waymark := c.waymark.filter fun x => !(x.2.lc == lc && x.2.hc == h) } else c

/-- rgen on every cluster of the launch, with the launch's lines in their node caches. -/
def State.rgenAll (s : State) (launch h e : Nat) (off : Bool) : List Nat → State
  | [] => s
  | cl :: r =>
    let s' := s.modCluster cl fun c => c.newGeneration (c.slotOf launch) h e off
    (s'.forgetCtx (nodeNo cl) (s.launch launch).ctx).rgenAll launch h e off r

/-- Whether an earlier RAY operation of the team is not complete. -/
def State.rayBlocked (s : State) (id : Nat) : Bool :=
  (s.earlierOps id).any fun e =>
    match e.2.kind with
    | .rtrace _ _ => true
    | .rcommit _ _ => true
    | _ => false

/-- RAY_TRACE_COMPLETE: the lanes of an rtrace or rcommit that wait for nothing; or an rgen. A lane's error is taken at
once by a team that is stopped at a header (R168). -/
def execRayTraceComplete (op : Nat) (s : State) : Host.Outcome State Fault Refusal :=
  match Tbl.find? s.ops op with
  | none => .next s
  | some o =>
    match o.party, o.kind with
    | .team t, .rgen h e off =>
      let launch := (s.team t).launch
      .next ((s.rgenAll launch h e off (s.launch launch).grid).finishOp op)
    | .team t, k =>
      if k.path = pathRY then
        if s.rayBlocked op || s.fenced op then .next s
        else
          let s := { { s with failing := o.fails }.traceLanes op t o.todo with failing := [] }
          .next ((if (s.op op).pending = [] then s.finishOp op else s).takeAtHeader t)
      else .next s
    | _, _ => .next s

/-! ## Instructions (R211, R212, R222, R230) -/

/-- The frame of a per-lane RAY instruction: cause 0x05 without the unit, and nothing behind an ld.acq. -/
def rayInstr (i : Instr) (s : State) (body : Nat → Team → Except Trap State) : Host.Outcome State Fault Refusal :=
  unitInstr i (fun _ => !s.hasRay) s fun t tm => if s.acqPending t then .ok s else body t tm

/-- The ray block of a lane. -/
def Team.rayReq (tm : Team) (lane a : Nat) (root : Nat) (sg : W128) (hc : Nat) : RayReq :=
  let v (i : Nat) : W32 := tm.vreg lane (a + i)
  { ox := v 0, oy := v 1, oz := v 2, tmin := v 3, dx := v 4, dy := v 5, dz := v 6, tmax := v 7, flags := v 8
    root := BitVec.ofNat 64 root, sg := sg, hc := hc }

/-- Ray flags that R212 rejects. -/
def badFlags (f : W32) : Bool := f &&& 0xFFFFE000 != 0 || f &&& 0x300 == 0x300

def execRtrace (d a b : BitVec 7) (gd : Guard) (f : Bool) (h : BitVec 4) (sg : BitVec 3) (s : State) :
    Host.Outcome State Fault Refusal :=
  rayInstr (.rtrace d a b gd f h sg) s fun t tm =>
    let root := tm.gpair b.toNat
    let lanes := tm.acting gd
    let seg := Tbl.get tm.sg 0 sg.toNat
    if root % 64 ≠ 0 then .error (wordTrap s 0x02)
    else
      s.checkRange tm sg needRead (Int.ofNat root) 64 1
        (match lanes.find? fun l => badFlags (tm.vreg l (a.toNat + 8)) with
        | some l => .error { wordTrap s 0x02 with lane := BitVec.ofNat 32 l }
        | none =>
          s.issueLong t tm f
            (.rtrace d.toNat (lanes.map fun l => (l, tm.rayReq l a.toNat root seg h.toNat))) lanes.length)

def execRcommit (d : BitVec 7) (p : BitVec 3) (gd : Guard) (f : Bool) (s : State) : Host.Outcome State Fault Refusal :=
  rayInstr (.rcommit d p gd f) s fun t tm =>
    let lanes := tm.acting gd
    s.issueLong t tm f (.rcommit d.toNat (lanes.map fun l => (l, tm.preg l p.toNat))) lanes.length

def execRgen (gd : Guard) (f : Bool) (off : Bool) (e : BitVec 7) (h : BitVec 4) (s : State) :
    Host.Outcome State Fault Refusal :=
  guardedUnit (.rgen gd f off e h) gd f (fun _ => !s.hasRay) s fun t tm =>
    s.issueLong t tm f (.rgen h.toNat e.toNat off) 1

end Sys2Proof.Machine
end

