-- ==== Sys2Proof/Machine/Raster.lean ====
section
/-! DEFINITION. The raster path: tclass, rast and the die rasteriser (R234 to R238). -/

namespace Sys2Proof.Machine

/-! ## Classification (R234) -/

/-- A 16.8 coordinate: none where bits 31..23 are not all equal. -/
def coord (x : W32) : Option Int :=
  let top := bits x.toNat 31 23
  if top = 0 ∨ top = 511 then some (toSigned 24 x.toNat) else none

/-- Six coordinates from a lane's registers. -/
def Team.coords (tm : Team) (lane a : Nat) : Option (List Int) := (List.range 6).mapM fun i => coord (tm.vreg lane (a + i))

/-- Twice the signed area. -/
def twiceArea (c : List Int) : Int :=
  let p (i : Nat) : Int := c.getD i 0
  (p 2 - p 0) * (p 5 - p 1) - (p 4 - p 0) * (p 3 - p 1)

/-- What tclass writes: the area and the predicate. -/
def Team.classify (tm : Team) (lane a : Nat) : Nat × Bool :=
  match tm.coords lane a with
  | none => (0, false)
  | some c =>
    let a2 := twiceArea c
    let th := tm.tclass.toNat
    (wrap 64 a2, th != 0xFFFFFFFF && decide (th * 2 ^ 16 ≤ a2.natAbs))

/-- The results of tclass in the acting lanes, all taken from the registers before it. -/
def Team.classifyAll (tm : Team) (old : Team) (d a p : Nat) : List Nat → Team
  | [] => tm
  | l :: r => (((tm.setVs l d 2 (old.classify l a).1).setP l p (old.classify l a).2).classifyAll old d a p r)

def execTclass (d a : BitVec 7) (p : BitVec 3) (gd : Guard) (s : State) : Host.Outcome State Fault Refusal :=
  rayInstr (.tclass d a p gd) s fun t tm =>
    .ok (s.retireTeam t (tm.classifyAll tm d.toNat a.toNat p.toNat (tm.acting gd)))

/-! ## rast (R236) -/

/-- The triangle that a lane sends: none where a coordinate fails or the area is zero. -/
def Team.triOf (tm : Team) (lane a : Nat) : Option Tri :=
  match tm.coords lane a with
  | none => none
  | some c =>
    if twiceArea c = 0 then none
    else
      let p (i : Nat) : Int := c.getD i 0
      let z (i : Nat) : W32 := tm.vreg lane (a + 6 + i)
      some (Tri.mk (p 0) (p 1) (p 2) (p 3) (p 4) (p 5) (z 0) (z 1) (z 2) (tm.vreg lane (a + 9)))

/-- rast. A die's rasteriser takes the operations of all teams in the order in which they issued (DEDUCED, log 128). -/
def execRast (a c : BitVec 7) (gd : Guard) (f : Bool) (node : BitVec 6) (s : State) :
    Host.Outcome State Fault Refusal :=
  unitInstr (.rast a c gd f node) (fun _ => !s.hasRast) s fun t tm =>
    if s.acqPending t then .ok s
    else
      let draw := tm.greg (c.toNat + 1)
      let nd := Tbl.find? (s.launch tm.launch).nodes node.toNat
      if (nd.map fun n => n.payload) ≠ some 8 ∨ 256 ≤ draw.toNat then .error (wordTrap s 0x02)
      else
        let tris := (tm.acting gd).filterMap fun l => (tm.triOf l a.toNat).map fun x => (l, x)
        let size := (tm.greg c.toNat).toNat
        (s.issueLong t tm f (.rast node.toNat (bits size 15 0) (bits size 31 16) draw.toNat tris) 1).map fun s' =>
          if s'.nextOp = s.nextOp then s'
          else
            let die := dieOf tm.cl
            { s' with rasterQ := Tbl.put s'.rasterQ die (Tbl.get s'.rasterQ [] die ++ [s.nextOp]) }

/-! ## The rasteriser (R237) -/

/-- The triangle with a positive area. -/
def Tri.oriented (t : Tri) : Tri :=
  if twiceArea [t.x0, t.y0, t.x1, t.y1, t.x2, t.y2] < 0 then
    { t with x1 := t.x2, y1 := t.y2, x2 := t.x1, y2 := t.y1, z1 := t.z2, z2 := t.z1 }
  else t

/-- E_ij at a point. -/
def edge (xi yi xj yj px py : Int) : Int := (xj - xi) * (py - yi) - (yj - yi) * (px - xi)

/-- Whether an edge covers a point. -/
def edgeCovers (xi yi xj yj px py : Int) : Bool :=
  let e := edge xi yi xj yj px py
  decide (0 < e) || (e == 0 && (decide (yj < yi) || (yj == yi && decide (xi < xj))))

/-- Whether the oriented triangle covers a pixel. -/
def Tri.covers (t : Tri) (x y : Nat) : Bool :=
  let px := Int.ofNat (256 * x + 128)
  let py := Int.ofNat (256 * y + 128)
  edgeCovers t.x0 t.y0 t.x1 t.y1 px py && edgeCovers t.x1 t.y1 t.x2 t.y2 px py && edgeCovers t.x2 t.y2 t.x0 t.y0 px py

/-- The depth of a covered pixel, rounded once. Infinite and NaN depths follow the IEEE rules of the operations (DEDUCED,
log 126). -/
def Tri.depth (t : Tri) (x y : Nat) : W32 :=
  let px := Int.ofNat (256 * x + 128)
  let py := Int.ofNat (256 * y + 128)
  let a2 := twiceArea [t.x0, t.y0, t.x1, t.y1, t.x2, t.y2]
  let z (c : W32) : Val := f32.decode c.toNat
  let part (e : Int) (c : W32) : Val := (mulVal (Val.ofInt e) (addVal 0 (z c) (z t.z0).neg).1).1
  let sum := (addVal 0 (addVal 0 (mulVal (Val.ofInt a2) (z t.z0)).1 (part (edge t.x2 t.y2 t.x0 t.y0 px py) t.z1)).1
    (part (edge t.x0 t.y0 t.x1 t.y1 px py) t.z2)).1
  BitVec.ofNat 32 (f32.round 0 false 0 (divVal 60 sum.plus (Val.ofInt a2)).1).1

/-- The pixels of the quad at even (x, y), within the scissor. -/
def quadPixels (x y width height : Nat) : List (Option (Nat × Nat)) :=
  [(x, y), (x + 1, y), (x, y + 1), (x + 1, y + 1)].map fun p => if p.1 < width ∧ p.2 < height then some p else none

/-- The record of a quad (R238): none where it covers nothing. -/
def Tri.quad (t : Tri) (node width height draw : Nat) (origin : W64) (x y : Nat) : Option Rec :=
  let px := quadPixels x y width height
  let on := px.map fun p => p.any fun p => t.covers p.1 p.2
  if on.any id then
    let cover := (List.range 4).foldl (fun m i => if on.getD i false then m + 2 ^ i else m) 0
    let depth := (List.range 4).map fun i =>
      match px.getD i none with
      | some p => if on.getD i false then t.depth p.1 p.2 else 0
      | none => 0
    some { node := node, origin := origin
           words := [BitVec.ofNat 32 (x + y * 2 ^ 16), BitVec.ofNat 32 cover] ++ depth ++ [t.number, BitVec.ofNat 32 draw] }
  else none

/-- The even coordinates from the pixel of one coordinate to that of another, below a limit. -/
def evenSpan (lo hi : Int) (limit : Nat) : List Nat :=
  let a := lo.toNat / 256 / 2
  let b := Nat.min (hi.toNat / 256) (limit - 1) / 2
  if hi < 0 ∨ limit = 0 then [] else (List.range (b + 1 - a)).map fun i => 2 * (a + i)

/-- The covered quads, in increasing y and then x. -/
def Tri.quads (t : Tri) (node width height draw : Nat) (origin : W64) : List Rec :=
  let t := t.oriented
  let xs := evenSpan (min t.x0 (min t.x1 t.x2)) (max t.x0 (max t.x1 t.x2)) width
  let ys := evenSpan (min t.y0 (min t.y1 t.y2)) (max t.y0 (max t.y1 t.y2)) height
  ys.flatMap fun y => xs.filterMap fun x => t.quad node width height draw origin x y

/-! ## The steps of the rasteriser (R238) -/

/-- Whether records of an operation wait in the Drover of its cluster. -/
def State.rasterWaits (s : State) (cl launch id : Nat) : Bool :=
  (s.drover cl launch).waiting.any fun w => w.poster == .raster id

/-- The operation at the head of a die's queue is complete. -/
def State.endRast (s : State) (die id : Nat) : State :=
  { s.finishOp id with rasterQ := Tbl.put s.rasterQ die ((Tbl.get s.rasterQ [] die).drop 1) }

/-- RASTER_TRIANGLE: the next triangle of the operation at the head of the die's queue, once the Drover has accepted
the records of those before it; with the last one accepted the operation is complete. -/
def execRasterTriangle (die : Nat) (s : State) : Host.Outcome State Fault Refusal :=
  match Tbl.get s.rasterQ [] die with
  | [] => .next s
  | id :: _ =>
    let o := s.op id
    match o.kind, o.party with
    | .rast node width height draw tris, .team t =>
      let tm := s.team t
      if s.rasterWaits tm.cl tm.launch id then .next s
      else
        match tris with
        | [] => .next (s.endRast die id)
        | (_, tri) :: rest =>
          let origin := mkHandle 3 ((s.launch tm.launch).vcl tm.cl) 0 draw tri.number
          let s := s.setOp id { o with kind := .rast node width height draw rest }
          let (_, s) := s.postAll tm.cl tm.launch (.raster id) true (tri.quads node width height draw origin)
          .next (if rest = [] && !s.rasterWaits tm.cl tm.launch id then s.endRast die id else s)
    | _, _ => .next s

end Sys2Proof.Machine
end

