-- ==== Sys2Proof/Machine/Faults.lean ====
section
/-! DEFINITION. Parked requests that go on or fail (R361 to R363), shootdowns (R365, R386), and what moves lodged pages:
forced eviction, late frames, migration, DROP (R366 to R371). -/

namespace Sys2Proof.Machine

/-! ## Waking a group (R361, R363) -/

def insertNat (n : Nat) : List Nat → List Nat
  | [] => [n]
  | m :: r => if n ≤ m then n :: m :: r else m :: insertNat n r

/-- The units of an operation that wait for a token. -/
def Op.heldBy (o : Op) (token : Nat) : List Nat := (o.held.filter fun e => e.2 == token).map fun e => e.1

/-- They are to be performed again. -/
def Op.wake (token : Nat) (o : Op) : Op :=
  { o with todo := (o.heldBy token).foldl (fun l i => insertNat i l) o.todo, held := o.held.filter fun e => e.2 != token }

/-- A team at a header that no longer waits on a fault is in CLAUSE-WAIT (R168). -/
def State.settleHeaders (s : State) : State :=
  { s with teams := s.teams.map fun e =>
      if e.2.st == .parked && e.2.wait == .none && !s.waitsOnFault e.1 (fld e.2.hdrWord 14 12) then
        (e.1, { e.2 with st := .clauseWait })
      else e }

/-- A team whose instruction, or whose engine's access to its frame, waits for a token tries again. -/
def Team.wake (token : Nat) (t : Team) : Team :=
  let t := if t.engineWait = some token then { t with engineWait := none } else t
  match t.wait with
  | .fault k _ _ => if k = token ∧ t.st = .parked then { t with st := .ready, wait := .none } else t
  | _ => t

/-- A slot whose instruction, or whose dispatch, waits for a token tries again. -/
def State.wakeSlot (s : State) (token k : Nat) : State :=
  let x := s.slot k
  match x.wait with
  | .fault n _ _ => if n = token then s.setSlot k x.unpark else s
  | .dispatch f n =>
    if n = token then s.redispatch k f else s
  | _ => s

def State.wakeSlots (s : State) (token : Nat) : List Nat → State
  | [] => s
  | k :: r => (s.wakeSlot token k).wakeSlots token r

/-- Whether a token is that of a page in EVICTWAIT: its one LODGE_OVERFLOW group stays, and the accesses that come back to
the page join it again (R369, R371; DEDUCED, log 107). -/
def State.evictToken (s : State) (token : Nat) : Bool :=
  s.lpages.any fun e =>
    match e.2 with
    | .evictwait _ n _ => n == token
    | _ => false

/-- The requests of a group leave the replay tables, and the group with them. -/
def State.dropGroup (s : State) (token : Nat) : State :=
  let left (gs : List Group) : List Group :=
    if s.evictToken token then gs.map fun g => if g.token = token then { g with reqs := 0 } else g
    else gs.filter fun g => g.token != token
  { s with clusters := s.clusters.map fun e => (e.1, { e.2 with replay := left e.2.replay }) }

/-- Every request of a group translates afresh. -/
def State.retryToken (s : State) (token : Nat) : State :=
  let s := s.dropGroup token
  let s := { s with
    ops := s.ops.map fun (e : Nat × Op) => (e.1, e.2.wake token)
    teams := s.teams.map fun (e : Nat × Team) => (e.1, e.2.wake token) }
  (s.wakeSlots token (Tbl.keys s.slots)).settleHeaders

def State.retryTokens (s : State) : List Nat → State
  | [] => s
  | t :: r => (s.retryToken t).retryTokens r

/-- The groups of the package that a predicate names, by token. -/
def State.groups (s : State) (p : Group → Bool) : List Nat :=
  (s.clusters.flatMap fun (e : Nat × Cluster) => e.2.replay.filter p).map fun g => g.token

/-- Requests that parked without a record translate afresh. -/
def State.wakeSilent (s : State) : State := s.retryTokens (s.groups fun g => g.kind == 0)

/-! ## Failing a group -/

/-- The address of a copy's unit that lies on a page. -/
def pageAddr (as : List Nat) (page : Nat) : Nat := (as.find? fun a => a / 0x10000 == page).getD (page * 0x10000)

/-- A unit of a copy that writes nothing. -/
def State.failCopy (s : State) (id i va : Nat) : State :=
  let s := State.settleUnit id i (.fail, va, s)
  match (s.op id).party with
  | .team _ => s.finishAsync id
  | _ => s

def State.modOp (s : State) (id : Nat) (f : Op → Op) : State := s.setOp id (f (s.op id))

/-- A unit whose request is unresolvable. -/
def State.failUnit (s : State) (id i page : Nat) (g : Nat × Nat × Nat) : State :=
  let o := s.op id
  match o.kind with
  | .mem _ _ _ _ => s.deferError id i 0x0E
  | .copy src dst bytes rows sp dp _ _ _ =>
    let as := match (copyPieces src.toNat dst.toNat bytes rows sp dp)[i]? with
      | some (a, b, n) => pagesOf a n ++ pagesOf b n
      | none => []
    s.failCopy id i (pageAddr as page)
  | .conv c => s.failCopy id i (pageAddr (c.pages i) page)
  | _ => s.setOp id { o with todo := insertNat i o.todo, fails := o.fails ++ [g] }

def State.failUnits (s : State) (id page : Nat) (g : Nat × Nat × Nat) : List Nat → State
  | [] => s
  | i :: r =>
    ((s.modOp id fun o => { o with held := o.held.filter fun e => e.1 != i }).failUnit id i page g).failUnits id page g r

def State.failOps (s : State) (token page : Nat) (g : Nat × Nat × Nat) : List (Nat × Op) → State
  | [] => s
  | (id, o) :: r => (s.failUnits id page g (o.heldBy token)).failOps token page g r

/-- A claimed frame is free again where that write can be made (R428). -/
def State.unclaim (s : State) (t : Nat) : State :=
  let tm := s.team t
  if tm.claimed = 0 then s
  else
    ((s.tryWrite tm.cl tm.launch tm.claimed.toNat (toBytes 4 0)).getD s).setTeam t { tm with claimed := 0, engineWait := none }

/-- A park-off is given up: the steward learns it, and the team stays resident (R428). -/
def State.abandonPark (s : State) (t : Nat) : State :=
  let s := s.unclaim t
  { s.setTeam t { s.team t with engineWait := none } with ras := s.ras ++ [(.parkArea, t)] }

/-- A team whose instruction cannot be resolved: cause 0x0E at the instruction, or its end when the trap-handler table
cannot be read (R326, R332). An access of the engine to its frame that cannot be resolved ends the park-off, or the team
that it restores (R428). -/
def State.failTeam (s : State) (token t : Nat) : State :=
  let tm := s.team t
  if tm.engineWait = some token then
    if tm.frame = 0 then s.abandonPark t else (s.setTeam t { tm with engineWait := none }).killTeam t 0xFFFD
  else
  match tm.wait with
  | .fault k va table =>
    if k = token ∧ tm.st = .parked then
      let s := s.setTeam t { tm with st := .ready, wait := .none }
      if table then s.killTeam t 0xFFFF else s.teamTrap t (Trap.mk 0x0E 0 0xFFFFFFFF va)
    else s
  | _ => s

def State.failTeams (s : State) (token : Nat) : List Nat → State
  | [] => s
  | t :: r => (s.failTeam token t).failTeams token r

/-- A slot whose access is unresolvable traps (R314); a frame is rejected with cause 13. -/
def State.failSlot (s : State) (token k : Nat) : State :=
  let x := s.slot k
  match x.wait with
  | .fault n code va => if n = token then (s.setSlot k x.unpark).keeperTrap k code va else s
  | .dispatch f n => if n = token then (s.setSlot k x.unpark).keeperTrap k 13 f.ptr else s
  | _ => s

def State.failSlots (s : State) (token : Nat) : List Nat → State
  | [] => s
  | k :: r => (s.failSlot token k).failSlots token r

/-- Every request of a group is unresolvable. -/
def State.failGroup (s : State) (g : Group) : State :=
  let s := s.dropGroup g.token
  let s := s.failOps g.token g.page (g.ctx, g.page, g.kind) s.ops
  let s := s.failTeams g.token (Tbl.keys s.teams)
  (s.failSlots g.token (Tbl.keys s.slots)).settleHeaders

/-! ## Pages and partitions -/

/-- Whether a context belongs to a partition. -/
def Part.hasCtx (p : Part) (ctx : Nat) : Bool := decide (p.ctxlo ≤ ctx) && decide (ctx ≤ p.ctxhi)

/-- The partition of a context. -/
def State.partOf (s : State) (ctx : Nat) : Option Nat := (List.find? (fun e => e.2.hasCtx ctx) s.parts).map fun e => e.1

/-- The group that a token names, of a partition and with a record. -/
def State.groupOf (s : State) (part token : Nat) : Option Group :=
  List.find? (fun g => g.token == token && g.kind != 0 && (s.part part).hasCtx g.ctx)
    (s.clusters.flatMap fun (e : Nat × Cluster) => e.2.replay)

/-- The leaf of an address in the tables: level, where it stands, entry. -/
def State.leafOf (s : State) (part ctx va : Nat) : Option (Nat × Nat × Nat) :=
  match s.contextEntry part ctx with
  | none => none
  | some c =>
    match s.walkFrom 3 (s.readKey (keyHbm c) 8 - 1) va with
    | .leaf level at_ e => some (level, at_, e)
    | _ => none

/-- Whether a key is a byte of the page at a level that holds an address. -/
def inPage (ctx level va k : Nat) : Bool :=
  keyKind k == 2 && keyPlace k / 2 ^ levelShift level == (ctx * 2 ^ 57 + va % 2 ^ 57) / 2 ^ levelShift level

/-- The page's cached leaves are gone from every cluster. -/
def State.shootPage (s : State) (ctx va : Nat) : State :=
  s.dropLeaves fun l => l.ctx == ctx && l.page == va % 2 ^ 57 / 2 ^ levelShift l.level

/-! ### Drains (R368, R413) -/

/-- The stack of a partition's drain, by its number 2 x die + stack. -/
def Part.stackNo (p : Part) : Nat := 2 * p.hdie + p.hstack

/-- The partitions that drain a stack change. -/
def State.drainers (s : State) (n : Nat) (f : Part → Part) : State :=
  { s with parts := s.parts.map fun (e : Nat × Part) => (e.1, if e.2.hdrain ≠ 0 ∧ e.2.stackNo = n then f e.2 else e.2) }

/-- Whether a page that was forced out of a die is still there. -/
def LPage.leaving (die : Nat) : LPage → Bool
  | .writeback _ home => home == die
  | .evictwait _ _ home => home == die
  | .moving _ _ home was _ => was.isSome && home == die
  | .normal => false

/-- The level of a page in a state other than NORMAL. -/
def LPage.level : LPage → Nat
  | .moving level _ _ _ _ => level
  | .evictwait level _ _ => level
  | _ => 0

/-- The page in a state other than NORMAL that holds an address, with its level: what its state says, and not the leaf, which
software may have changed (R369, R370). -/
def State.pageOf (s : State) (ctx va : Nat) : Option (Nat × LPage) :=
  ([0, 1] : List Nat).findSome? fun level =>
    match Tbl.get s.lpages .normal (lodgedPage ctx level va) with
    | .normal => none
    | p => if p.level = level then some (level, p) else none

/-! ### Room for lodged lines (R366 to R368) -/

/-- Carried lines of a partition on a die. -/
def State.carried (s : State) (part die : Nat) : Nat :=
  (s.lines.filter fun e =>
    e.2.home == die && e.2.charge.isNone && (s.part part).hasCtx (keyPlace e.1 / 2 ^ 57)).length
    + ((s.takenOn die).filter fun e => e.2.isNone && (s.part part).hasCtx (keyPlace e.1 / 2 ^ 57)).length

/-- Whether a launch has clusters on a die. -/
def Launch.onDie (l : Launch) (die : Nat) : Bool := l.grid.any fun c => dieOf c == die

/-- The reservations of a partition's resident launches on a die, in bytes. -/
def State.reservations (s : State) (part die : Nat) : Nat :=
  ((s.launches.filter fun e => e.2.part == part && e.2.st == .resident && e.2.onDie die).map fun e => e.2.lodge).sum

/-- The free quota of R366. -/
def State.freeQuota (s : State) (part die : Nat) : Nat :=
  (Tbl.get (s.part part).lquota 0 die).toNat - s.reservations part die - 256 * s.carried part die

/-- The L2 of a partition on a die, in bytes (R279, R399): of its ways those in service, 256 KiB in each slice in service;
half of the slices go with a stack that is drained (R368). -/
def State.l2Bytes (s : State) (part die : Nat) : Nat :=
  let mine := Tbl.get (s.part part).ways 0 die
  let out := Tbl.get s.waysOut 0 die
  let ways := ((List.range 16).filter fun i => mine.testBit i && !out.testBit i).length
  let up := ((List.range 2).filter fun i => Tbl.get s.hbmStacks 0 (2 * die + i) == 0).length
  ways * (32 * up) * 0x40000

/-- Whether the page of a lodged line of a partition is on its way out of a die. -/
def State.lineLeaving (s : State) (die k : Nat) : Bool :=
  match s.pageOf (keyPlace k / 2 ^ 57) (signedPlace (keyPlace k % 2 ^ 57)) with
  | some (_, p) => p.leaving die
  | none => false

/-- The carried lines of a partition on a die that stay there. -/
def State.staying (s : State) (part die : Nat) : Nat :=
  s.carried part die - (s.lines.filter fun e =>
    e.2.home == die && e.2.charge.isNone && (s.part part).hasCtx (keyPlace e.1 / 2 ^ 57) && s.lineLeaving die e.1).length

/-- Whether a number of bytes on a die holds the reservations and the carried lines that stay. -/
def State.holds (s : State) (part die bytes : Nat) : Bool :=
  decide (s.reservations part die + 256 * s.staying part die ≤ bytes)

/-- Whether an event that forces lodged lines out is in progress on a die for a partition: a drain of one of its stacks, ways
out of service, ways that the partition loses (R368; a quota that shrinks forces pages at once). -/
def State.evicting (s : State) (part die : Nat) : Bool :=
  Tbl.get s.hbmStacks 0 (2 * die) == 1 || Tbl.get s.hbmStacks 0 (2 * die + 1) == 1 || Tbl.get s.waysOut 0 die != 0
    || Tbl.get (s.part part).waysLost 0 die != 0

/-- Whether a line of a partition has to leave a die: an event affects it, and what stays in service does not hold the
reservations and carried lines, so that it cannot be moved within the die (R368). -/
def State.mustLeave (s : State) (part die k : Nat) : Bool :=
  s.evicting part die && !s.holds part die (s.l2Bytes part die) && !s.lineLeaving die k

/-- Whether lines of a die still have to leave it, or pages forced out of it are still there (R368). -/
def State.eviction (s : State) (die : Nat) : Bool :=
  (s.lpages.any fun (e : Nat × LPage) => e.2.leaving die)
    || s.lines.any fun e => e.2.home == die && s.parts.any fun p =>
      p.2.hasCtx (keyPlace e.1 / 2 ^ 57) && s.mustLeave p.1 die e.1

/-- Once every partition has left the stack, and every line that is forced out of its die is gone (R368), it goes
OFFLINE. -/
def State.checkDrain (s : State) (n : Nat) : State :=
  if Tbl.get s.hbmStacks 0 n = 1
      ∧ (s.parts.all fun (e : Nat × Part) => e.2.hdrain == 0 || e.2.stackNo != n || e.2.hdone)
      ∧ s.eviction (n / 2) = false then
    { s.drainers n (fun p => { p with hdrain := 2 }) with hbmStacks := Tbl.set s.hbmStacks 0 n 2 }
  else s

/-- A change of a partition's ways is complete on the dies that nothing has to leave any more (R368). -/
def State.checkWays (s : State) : State :=
  { s with parts := s.parts.map fun (e : Nat × Part) =>
      (e.1, { e.2 with waysLost := e.2.waysLost.filter fun w => s.eviction w.1 }) }

def State.checkDrains (s : State) : State := ((List.range 8).foldl (fun (s : State) n => s.checkDrain n) s).checkWays

def State.setPage (s : State) (ctx level va : Nat) (p : LPage) : State :=
  { s with lpages := Tbl.set s.lpages .normal (lodgedPage ctx level va) p }

/-- A page is in state NORMAL, or is lodged no more. -/
def State.settlePage (s : State) (ctx level va : Nat) : State := (s.setPage ctx level va .normal).checkDrains

/-- Groups of a page translate afresh. -/
def State.wakePage (s : State) (ctx level va : Nat) : State :=
  s.retryTokens (s.groups fun g => g.ctx == ctx && g.page * 0x10000 / 2 ^ levelShift level == va / 2 ^ levelShift level)

/-- The cluster that posts the records of a partition's pages: its lowest enabled one (MODEL, log 37). -/
def State.recordCluster (s : State) (part : Nat) : Nat := (s.enabled.find? fun c => (s.cluster c).part == part).getD 0

/-! ## Lodged lines and quotas (R366, R367) -/

/-- The lines of a page, their charges released and their bytes, copies and poison gone. -/
def State.freeLines (s : State) : List Nat → State
  | [] => s
  | k :: r => (s.freeLine none k).freeLines r

def State.linesOf (s : State) (ctx level va : Nat) : List Nat := (Tbl.keys s.lines).filter (inPage ctx level va)

def State.freePage (s : State) (ctx level va : Nat) : State := s.freeLines (s.linesOf ctx level va)

/-- The stores that threads have buffered into a page are performed: accesses that were translated before the page leaves
NORMAL complete (R316, R370). -/
def State.settleStores (s : State) (ctx level va : Nat) : State :=
  s.performStores (s.ops.filter fun e =>
    match e.2.kind with
    | .slotStore ps _ _ => ps.any fun p => inPage ctx level va p.key
    | _ => false)

/-! ## Late frames (R369) -/

/-- The next frame of a partition's pool, taken. -/
def State.takeLateFrame (s : State) (part : Nat) : Option (Nat × State) :=
  let p := s.part part
  if p.lfrd = p.lfwr then none
  else
    let i := p.lfrd.toNat % 2 ^ (p.lfctl &&& 0xF).toNat
    some (s.readKey (keyHbm (p.lfbase.toNat + 8 * i)) 8, s.setPart part { p with lfrd := p.lfrd + 1 })

/-- A page of 64 KiB copied from its lines to a frame: bytes and poison. -/
def State.copyToFrame (s : State) (ctx va frame : Nat) : State :=
  let base := (ctx * 2 ^ 57 + va % 2 ^ 57) / 0x10000 * 0x10000
  let moved := s.mem.filter fun c => inPage ctx 0 va c.1
  let bad := s.poison.filter fun c => inPage ctx 0 va c.1
  let inFrame (k : Nat) : Bool := keyKind k == 0 && keyPlace k / 0x10000 == frame / 0x10000
  let s := { s with
    mem := s.mem.filter fun c => !inFrame c.1
    poison := s.poison.filter fun c => !inFrame c.1
    caches := s.caches.map fun e => (e.1, e.2.filter fun c => !inFrame c.1) }
  let s := moved.foldl (fun (s : State) (c : Host.Cell) => s.setByte (keyHbm (frame + (keyPlace c.1 - base))) c.2) s
  (bad.flatMap fun (c : Nat × Bool) => (List.range 8).map fun i => keyHbm (frame + (keyPlace c.1 - base) + 32 * i)).foldl
    (fun (s : State) k => s.setPoison k true) s

/-- The leaf of a converted page (R369 step 3): LTYPE, FRAME, HOME and POL change. -/
def lateLeaf (e frame : Nat) : Nat :=
  e - bits e 4 2 * 4 - bits e 12 11 * 2048 - bits e 15 15 * 0x8000 - bits e 55 16 * 0x10000
    + frame / Config.dieBytes * 2048 + frame / 0x10000 * 0x10000

/-- The end of a conversion. The leaf is compared with a LODGED one and rewritten as it stands; where software has changed
it to another, nothing is rewritten, and the accesses that wait translate afresh (R369; DEDUCED, log 109). -/
def State.finishLate (s : State) (part ctx va frame : Nat) : State :=
  match s.leafOf part ctx va with
  | some (0, at_, e) =>
    if leafType e ≠ 1 then (s.settlePage ctx 0 va).wakePage ctx 0 va
    else
      let s := s.copyToFrame ctx va frame
      let s := s.writeKey (keyHbm at_) 8 (lateLeaf e frame)
      let s := ((s.shootPage ctx va).freePage ctx 0 va).settlePage ctx 0 va
      (s.wakePage ctx 0 va).postFault (s.recordCluster part)
        (FaultRec.mk part (BitVec.ofNat 64 (va / 0x10000 * 0x10000)) ctx 10 0 0 (BitVec.ofNat 64 frame))
  | _ => (s.settlePage ctx 0 va).wakePage ctx 0 va

/-- A forced page without a late frame: EVICTWAIT, with one LODGE_OVERFLOW record. An event's completion is looked at
again. -/
def State.enterEvictwait (s : State) (part ctx level va home : Nat) : State :=
  let cl := s.recordCluster part
  let (token, s) := s.newToken cl
  let base := va / 2 ^ levelShift level * 2 ^ levelShift level
  let s := s.modCluster cl fun c => { c with replay := c.replay ++ [Group.mk ctx (base / 0x10000) 5 token 0] }
  (s.setPage ctx level va (.evictwait level token home)).postFault cl (FaultRec.mk part (BitVec.ofNat 64 base) ctx 5 0 token 0)

/-- A page forced out: a late frame when its leaf allows one and the pool has one. -/
def State.forcePage (s : State) (part ctx va level e : Nat) (late : Bool) : State :=
  let waiting := match Tbl.get s.lpages .normal (lodgedPage ctx level va) with
    | .evictwait _ _ _ => true
    | _ => false
  match (if late then s.takeLateFrame part else none) with
  | some (frame, s) => (s.settleStores ctx level va).setPage ctx level va (.writeback frame (leafHome e))
  | none => if waiting || leafType e != 1 then s else s.enterEvictwait part ctx level va (leafHome e)

/-! ## Migration (R370) -/

/-- The charge of a line that moves to a die: its launch's when that is resident there and has room, else carried. n is
the number of lines already charged to that launch in this move. -/
def State.moveCharge (s : State) (dest : Nat) (x : Line) (n : Nat) : Option Nat :=
  match x.charge with
  | some l =>
    let a := s.launch l
    if a.st = .resident ∧ a.onDie dest = true ∧ 256 * (s.charged l dest + n + 1) ≤ a.lodge then some l else none
  | none => none

/-- The lines of a page as they are charged on another die. -/
def State.moveLines (s : State) (dest : Nat) (acc : List (Nat × Line)) : List (Nat × Line) → List (Nat × Line)
  | [] => acc.reverse
  | (k, x) :: r =>
    let n := (acc.filter fun e => e.2.charge == x.charge).length
    s.moveLines dest ((k, Line.mk dest (s.moveCharge dest x n)) :: acc) r

/-- The moved lines of a page, where they find room. -/
def State.migration (s : State) (part ctx level va dest : Nat) : Option (List (Nat × Line)) :=
  let moved := s.moveLines dest [] (s.lines.filter fun e => inPage ctx level va e.1)
  let carry := (moved.filter fun e => e.2.charge.isNone).length
  if carry = 0 ∨ 256 * carry ≤ s.freeQuota part dest then some moved else none

/-- The end of a migration, with its result: the lines hold the charges that it took on DEST. HOME is switched in the leaf
as it stands, where that is still a LODGED leaf of the same home; otherwise the page is left as it was (R370; DEDUCED,
log 109). -/
def State.finishMove (s : State) (part ctx level va dest home : Nat) (was : Option Nat)
    (charges : List (Nat × Option Nat)) : State :=
  let fin (s : State) (r : BitVec 3) : State := s.setPart part { s.part part with mres := r, busy := false }
  let back := match was with
    | some token => LPage.evictwait level token home
    | none => .normal
  match s.leafOf part ctx va with
  | some (l, at_, e) =>
    if l = level ∧ leafType e = 1 ∧ leafHome e = home then
      let s := { s with lines := charges.foldl (fun (t : Tbl Line) (e : Nat × Option Nat) =>
        if (Tbl.find? t e.1).isSome then Tbl.put t e.1 (Line.mk dest e.2) else t) s.lines }
      let s := s.writeKey (keyHbm at_) 8 (e - bits e 12 11 * 2048 + dest * 2048)
      fin (((s.shootPage ctx va).settlePage ctx level va).wakePage ctx level va) 0
    else fin ((s.setPage ctx level va back).wakePage ctx level va) 1
  | none => fin ((s.setPage ctx level va back).wakePage ctx level va) 4

/-- A page whose state is WRITEBACK or MOVING. -/
def LPage.onTheWay : LPage → Bool
  | .writeback _ _ => true
  | .moving _ _ _ _ _ => true
  | _ => false

/-- The token of a page in EVICTWAIT. -/
def LPage.token : LPage → Option Nat
  | .evictwait _ token _ => some token
  | _ => none

/-- TMIGC: DEST and CTX, and with GO the migration of the page at TMIGA begins; it ends at a later step of the page. -/
def execTmigcMigrate (part : Nat) (v : W64) (s : State) : Host.Outcome State Fault Refusal :=
  let p := s.part part
  let ctx := bits v.toNat 11 0
  let dest := bits v.toNat 13 12
  s.asked part <|
  if v.getLsbD 63 && p.busy then .next s
  else
    let s := s.setPart part { p with tmigc := v &&& 0x3FFF }
    let res (r : BitVec 3) : State := s.setPart part { s.part part with mres := r }
    if v.getLsbD 63 = false then .next s
    else
      let va := p.tmiga.toNat
      match (if p.hasCtx ctx then s.leafOf part ctx va else none) with
      | none => .next (res 4)
      | some (level, _, e) =>
        if leafType e ≠ 1 ∨ leafHome e = dest then .next (res 1)
        else if (Tbl.get s.lpages .normal (lodgedPage ctx level va)).onTheWay then .next (res 3)
        else
          let s := s.settleStores ctx level va
          match s.migration part ctx level va dest with
          | none => .next (s.setPart part { s.part part with mres := 2 })
          | some moved =>
            let was := (Tbl.get s.lpages .normal (lodgedPage ctx level va)).token
            .next ((s.setPart part { s.part part with busy := true }).setPage ctx level va
              (.moving level dest (leafHome e) was (moved.map fun e => (e.1, e.2.charge))))

/-! ## Forced eviction (R368, R369) -/

/-- FORCED_EVICTION: a lodged page with a line that has to leave its die is forced out; a page on the way ends its
conversion or migration. -/
def execForcedEviction (ctx : Nat) (va : W64) (s : State) : Host.Outcome State Fault Refusal :=
  match s.partOf ctx with
  | none => .next s
  | some part =>
    match s.pageOf ctx va.toNat with
    | some (_, .writeback frame _) => .next (s.finishLate part ctx va.toNat frame)
    | some (level, .moving _ dest home was cs) => .next (s.finishMove part ctx level va.toNat dest home was cs)
    | some _ => .next s
    | none =>
      match s.leafOf part ctx va.toNat with
      | none => .next s
      | some (level, _, e) =>
        if leafType e = 1 ∧ ((s.linesOf ctx level va.toNat).any fun k => s.mustLeave part (leafHome e) k) = true then
          .next (s.forcePage part ctx va.toNat level e (level == 0 && bits e 15 15 == 1))
        else .next s

/-- A carried line of a partition on a die whose page, in state NORMAL, can be forced out: its context, address, level
and leaf. -/
def State.carriedPage (s : State) (part die : Nat) (e : Nat × Line) : Option (Nat × Nat × Nat × Nat) :=
  let ctx := keyPlace e.1 / 2 ^ 57
  let va := signedPlace (keyPlace e.1 % 2 ^ 57)
  if e.2.home = die ∧ e.2.charge = none ∧ (s.part part).hasCtx ctx = true then
    match s.leafOf part ctx va with
    | some (level, _, x) =>
      if leafType x = 1 ∧ Tbl.get s.lpages .normal (lodgedPage ctx level va) = .normal then some (ctx, va, level, x) else none
    | none => none
  else none

/-- Carried pages forced out in increasing (context, address), until the quota holds. Lines that the ways of the partition
have room for beyond all reservations and carried lines are moved there and stay (R368). -/
def State.shrinkQuota (s : State) (part die : Nat) : Nat → State
  | 0 => s
  | n + 1 =>
    if s.holds part die (Tbl.get (s.part part).lquota 0 die).toNat then s
    else
      match s.lines.findSome? (s.carriedPage part die) with
      | some (ctx, va, level, e) =>
        if s.reservations part die + 256 * (s.staying part die + (s.linesOf ctx level va).length) ≤ s.l2Bytes part die then s
        else (s.forcePage part ctx va level e (level == 0 && bits e 15 15 == 1)).shrinkQuota part die n
      | none => s

/-- Firmware gives a partition its ways of the L2 of a die; lines in ways that it loses leave them (R368, R399). -/
def State.setWays (s : State) (part die v : Nat) : State :=
  let p := s.part part
  let old := Tbl.get p.ways 0 die
  let lost := (List.range 16).any fun i => old.testBit i && !v.testBit i
  (s.setPart part { p with
    ways := Tbl.set p.ways 0 die (v % 0x10000)
    waysLost := if lost then Tbl.set p.waysLost 0 die (old % 0x10000) else p.waysLost }).checkWays

/-- Ways of the L2 of a die taken out of service, for repair or for good; they come back only when what had to leave them is
gone (R368). -/
def State.setWaysOut (s : State) (die v : Nat) : State :=
  let old := Tbl.get s.waysOut 0 die
  if ((List.range 16).any fun i => old.testBit i && !v.testBit i) && s.eviction die then s
  else { s with waysOut := Tbl.set s.waysOut 0 die (v % 0x10000) }

/-- Firmware sets a lodged quota; one below what is held forces carried pages out (R368). -/
def State.setQuota (s : State) (part die : Nat) (v : W64) : State :=
  let p := s.part part
  (s.setPart part { p with lquota := Tbl.set p.lquota 0 die v }).shrinkQuota part die s.lines.length

/-- Whether the deadline for the pages forced out of a die has not come: `HDDL` while a stack of the die is drained (R413);
for another event the deadline is firmware's own, and the step tells of it. -/
def State.beforeDeadline (s : State) (part die : Nat) : Bool :=
  let p := s.part part
  p.hdrain == 1 && p.hdie == die && decide (s.time.toNat < p.hddl.toNat)

/-- The leaf of a lodged page, where it still is one, is rewritten with KIND 0 (R369). -/
def State.unmapPage (s : State) (part ctx level va : Nat) : State :=
  match s.leafOf part ctx va with
  | some (l, at_, e) => if l = level ∧ leafType e = 1 then s.writeKey (keyHbm at_) 8 (e - bits e 1 0) else s
  | none => s

/-- EVICTWAIT_DEADLINE: the page is unmapped, its lines are released, its accesses fail, and a LOST record tells. -/
def execEvictwaitDeadline (ctx : Nat) (va : W64) (s : State) : Host.Outcome State Fault Refusal :=
  match s.partOf ctx with
  | none => .next s
  | some part =>
    match s.pageOf ctx va.toNat with
    | some (level, .evictwait _ token home) =>
      if s.beforeDeadline part home then .next s
      else
        let base := va.toNat / 2 ^ levelShift level * 2 ^ levelShift level
        let s := s.unmapPage part ctx level va.toNat
        let s := ((s.shootPage ctx va.toNat).freePage ctx level va.toNat).settlePage ctx level va.toNat
        let s := s.failGroup (Group.mk ctx (base / 0x10000) 5 token 0)
        .next (s.postFault (s.recordCluster part) (FaultRec.mk part (BitVec.ofNat 64 base) ctx 11 0 0 0))
    | _ => .next s

/-! ## TWAKE (R363) -/

/-- The records that a partition's clusters hold go to their rings as far as these have room (R362). -/
def State.recheckRings (s : State) (part : Nat) : List Nat → State
  | [] => s
  | cl :: r => (if (s.cluster cl).part = part then s.flushFaults cl else s).recheckRings part r

def State.recheck (s : State) (part : Nat) : State := s.recheckRings part (Tbl.keys s.clusters)

def execFaultQueueRecheck (part : Nat) (s : State) : Host.Outcome State Fault Refusal := s.asked part (.next (s.recheck part))

def execTwakeRetry (part token : Nat) (s : State) : Host.Outcome State Fault Refusal :=
  s.asked part <|
  let s := s.recheck part
  match s.groupOf part token with
  | some g => .next (s.retryToken g.token)
  | none => .next s

def execTwakeFail (part token : Nat) (s : State) : Host.Outcome State Fault Refusal :=
  s.asked part <|
  let s := s.recheck part
  match s.groupOf part token with
  | some g => .next (s.failGroup g)
  | none => .next s

def execTwakeRetryctx (part ctx : Nat) (s : State) : Host.Outcome State Fault Refusal :=
  s.asked part <|
  let s := s.recheck part
  if (s.part part).hasCtx ctx then .next (s.retryTokens (s.groups fun g => g.ctx == ctx && g.kind != 0)) else .next s

/-- LATE: the group's page begins its conversion, whose end wakes the group; for a page that is not LODGED with a 64 KiB
leaf, or without a frame, as RETRY. -/
def execTwakeLate (part token : Nat) (s : State) : Host.Outcome State Fault Refusal :=
  s.asked part <|
  let s := s.recheck part
  match s.groupOf part token with
  | none => .next s
  | some g =>
    let va := g.page * 0x10000
    match s.leafOf part g.ctx va with
    | some (0, _, e) =>
      let st := Tbl.get s.lpages .normal (lodgedPage g.ctx 0 va)
      if leafType e = 1 ∧ st.onTheWay = false then
        let s := s.forcePage part g.ctx va 0 e true
        if (Tbl.get s.lpages .normal (lodgedPage g.ctx 0 va)).onTheWay then .next s
        else if g.kind = 5 then .next s else .next (s.retryToken g.token)
      else .next (s.retryToken g.token)
    | _ => .next (s.retryToken g.token)

/-- DROP: every line of the group's lodged page is unallocated, then RETRY. -/
def execTwakeDrop (part token : Nat) (s : State) : Host.Outcome State Fault Refusal :=
  s.asked part <|
  let s := s.recheck part
  match s.groupOf part token with
  | none => .next s
  | some g =>
    let va := g.page * 0x10000
    match s.leafOf part g.ctx va with
    | some (level, _, e) =>
      if leafType e = 1 then
        let s := s.freePage g.ctx level va
        let s := match Tbl.get s.lpages .normal (lodgedPage g.ctx level va) with
          | .evictwait _ _ _ => s.settlePage g.ctx level va
          | _ => s
        .next (s.retryToken g.token)
      else .next (s.retryToken g.token)
    | none => .next (s.retryToken g.token)

/-! ## Walks and shootdowns (R358, R365, R386) -/

/-- TRANSLATION_WALK: a walk of a memory port ahead of an access. It caches a leaf with the rights asked for; a walk
that ends in a fault leaves nothing, since no request parks (log 38). -/
def execTranslationWalk (cl ctx : Nat) (va : W64) (write exec : Bool) (s : State) : Host.Outcome State Fault Refusal :=
  let a : Acc := if write then .write else if exec then .fetch else .read
  match (s.cluster cl).lookup ctx va.toNat with
  | some _ => .next s
  | none =>
    match s.walkMiss cl (s.cluster cl).part ctx va.toNat 1 a a.code true with
    | (.ok _, s') => .next s'
    | _ => .next s

/-- Whether a byte lies in a page of a K leaf: the only kinds that two contexts can share are HBM and host memory. -/
def State.kLeafHas (s : State) (part level e k : Nat) : Bool :=
  let first := bits e 55 16
  let inFrame (page : Nat) : Bool := decide (first ≤ page) && decide (page < first + 2 ^ (levelShift level - 16))
  leafK e &&
    match leafType e, keyKind k with
    | 0, 0 => inFrame (keyPlace k / 0x10000)
    | 3, 3 =>
      if (s.part part).ats then (s.part part).atsMap.any fun h => inFrame h.1 && h.2 == keyPlace k / 0x10000
      else inFrame (keyPlace k / 0x10000)
    | _, _ => false

/-- Whether a table of a level, or one below it, has a K leaf whose page holds a byte. -/
def State.kTableHas (s : State) (part : Nat) (k : Nat) : Nat → Nat → Bool
  | 0, table =>
    (List.range 8192).any fun i =>
      let e := s.readKey (keyHbm (table + 8 * i)) 8
      bits e 1 0 == 2 && s.kLeafHas part 0 e k
  | n + 1, table =>
    (List.range (if n = 2 then 4 else 8192)).any fun i =>
      let e := s.readKey (keyHbm (table + 8 * i)) 8
      match bits e 1 0 with
      | 1 => s.kTableHas part k n (bits e 55 16 * 0x10000)
      | 2 => s.kLeafHas part (n + 1) e k
      | _ => false

/-- Whether a byte lies in a K page of a context: by the leaves that are cached, or by its tables. -/
def State.kPageHas (s : State) (part ctx k : Nat) : Bool :=
  (s.clusters.any fun (c : Nat × Cluster) => c.2.tlb.any fun l => l.ctx == ctx && s.kLeafHas part l.level l.entry.toNat k)
    || match s.contextEntry part ctx with
      | some c => s.kTableHas part k 3 (s.readKey (keyHbm c) 8 - 1)
      | none => false

/-- The contexts whose K lines a TINVC shootdown drops: those of the partition that KIND and CTX name (R365). -/
def Part.named (p : Part) (kind ctx : Nat) : List Nat :=
  if kind = 2 then (List.range (p.ctxhi + 1 - p.ctxlo)).map fun i => p.ctxlo + i else if p.hasCtx ctx then [ctx] else []

/-- Every line of the K pages of some contexts leaves every cache: the lines that they have read, and those of the pages that
they map, whoever has read them (R365; log 39). -/
def State.dropKLines (s : State) (part : Nat) (ctxs : List Nat) : State :=
  let gone (k : Nat) (c : Copy) : Bool := c.k && ctxs.any fun ctx => c.ctxs.contains ctx || s.kPageHas part ctx k
  { s with caches := s.caches.map fun e => (e.1, e.2.filter fun c => !gone c.1 c.2) }

/-- TINVC: KINV, KIND and CTX, and with GO a shootdown for the address in TINVA. -/
def execTinvcShootdown (part : Nat) (v : W64) (s : State) : Host.Outcome State Fault Refusal :=
  let p := s.part part
  let go := v.getLsbD 63
  let kind := bits v.toNat 13 12
  s.asked part <|
  if go && p.busy then .next s
  else
    let s := s.setPart part { p with tinvc := v &&& 0x7FFF }
    if go = false ∨ kind = 3 then .next s
    else
      let ctx := bits v.toNat 11 0
      let s := if v.getLsbD 14 then s.dropKLines part (p.named kind ctx) else s
      .next (s.dropLeaves fun l => p.hasCtx l.ctx && tlbiHits p kind ctx p.tinva.toNat l)

/-- The 64 KiB pages of the host that an address names under the HOST leaves that map it, cached or in the tables. -/
def State.hostPages (s : State) (part ctx va : Nat) : List Nat :=
  let page (level e : Nat) : List Nat :=
    if leafType e = 3 then [(bits e 55 16 * 0x10000 + va % 2 ^ levelShift level) / 0x10000] else []
  (match s.leafOf part ctx va with
    | some (level, _, e) => page level e
    | none => [])
    ++ s.clusters.flatMap fun (c : Nat × Cluster) =>
      match c.2.lookup ctx va with
      | some l => page l.level l.entry.toNat
      | none => []

/-- Whether a leaf that is cached holds the host's translation of a page. -/
def State.atsCached (s : State) (part page : Nat) : Bool :=
  s.clusters.any fun (c : Nat × Cluster) =>
    c.2.tlb.any fun l => (s.part part).hasCtx l.ctx && (Tbl.find? l.ats page).isSome

/-- ATS_INVALIDATION: the answer follows a shootdown of the page, so that no leaf keeps the host's translation of it. The
host may have changed that translation, and any that no leaf holds (R386; log 108). -/
def execAtsInvalidation (part ctx : Nat) (va : W64) (s : State) : Host.Outcome State Fault Refusal :=
  let p := s.part part
  if p.hasCtx ctx then
    let gone := s.hostPages part ctx va.toNat
    let s := s.shootPage ctx va.toNat
    .next (s.setPart part { s.part part with atsMap := p.atsMap.filter fun e => !gone.contains e.1 && s.atsCached part e.1 })
  else .next s

end Sys2Proof.Machine
end

