-- ==== Sys2Proof/Machine/Sched.lean ====
section
/-! DEFINITION. Launch queues, launch records, placement and the end of a launch (R335 to R346, R432), and drains
(R350). -/

namespace Sys2Proof.Machine

/-! ## Queues (R335, R336) -/

def queueAtReset : Queue := {}
def State.queue (s : State) (q : Nat) : Queue := Tbl.get s.queues queueAtReset q
def State.setQueue (s : State) (q : Nat) (x : Queue) : State := { s with queues := Tbl.put s.queues q x }

/-- WR - RD modulo 2^32. -/
def Queue.depth (x : Queue) : Nat := (x.wr - x.rd).toNat

/-- ERROR with a code; the first code stays. -/
def Queue.fail (x : Queue) (err : Nat) : Queue := if x.st = 2 then x else { x with st := 2, err := err }

/-- A queue whose indices stand too far apart enters ERROR. -/
def Queue.check (x : Queue) : Queue := if 2 ^ x.log2n < x.depth then x.fail 1 else x

/-- Whether the interface of a partition reaches the registers of a queue: one of the 64, assigned to it (R335). -/
def State.reaches (s : State) (part q : Nat) : Bool := decide (q < 64) && (s.queue q).part == part

/-- QUEUE_DOORBELL: QWR, written through the interface of a partition. -/
def execQueueDoorbell (q : QueueRef) (v : W32) (s : State) : Host.Outcome State Fault Refusal :=
  s.asked q.part
    (.next (if s.reaches q.part q.queue then s.setQueue q.queue (Queue.check { s.queue q.queue with wr := v }) else s))

/-- Whether the queue's interface is in RUN. -/
def State.queueRuns (s : State) (q : Nat) : Bool := (s.part (s.queue q).part).tdisp == .run

/-- The write of QCTL: LOG2N and CTX are kept while EN is 1; EN from 0 to 1 ends ERROR, but for the one of R401 outside
RUN. -/
def Queue.enable (x : Queue) (runs : Bool) (v : W32) : Queue :=
  let n := v.toNat
  let x' := { x with prio := bits n 30 29, peerOk := bits n 28 28 == 1 }
  let x' := if x.en then x' else { x' with log2n := bits n 27 24, ctx := bits n 23 12 }
  if x.err = 3 ∧ x.st = 2 ∧ runs = false then x'
  else if v.getLsbD 31 && !x.en && x.st == 2 then { x' with en := true, st := 0, err := 0, rd := x.wr }
  else Queue.check { x' with en := v.getLsbD 31 }

/-- QUEUE_ENABLE: QCTL, written through the interface of a partition. -/
def execQueueEnable (q : QueueRef) (v : W32) (s : State) : Host.Outcome State Fault Refusal :=
  s.asked q.part
    (.next (if s.reaches q.part q.queue then s.setQueue q.queue ((s.queue q.queue).enable (s.queueRuns q.queue) v) else s))

/-- QSTAT.STATE: RUN while records stand in the ring or the head waits to be placed (log 40). -/
def Queue.state (x : Queue) : Nat := if x.st = 2 then 2 else if x.en && (x.depth != 0 || x.head.isSome) then 1 else 0

/-! ## Reading for a launch -/

/-- Where the device stands when it reads or writes for a launch that has no cluster yet. -/
def State.deviceWho (s : State) (n : Nat) : Who := Who.mk (s.recordCluster (s.launch n).part) n pathLS none

/-- A read whose unresolvable fault, or poison, leaves the value open: free values then; none while it waits. -/
def State.readOpen (s : State) (w : Who) (va len : Nat) : Option Nat × State :=
  match s.readRange w va len true with
  | (.value v, s) => (some v, s)
  | (.park _, s) => (none, s)
  | (.stall, s) => (none, s)
  | (_, s) =>
    let (vs, s) := s.free (len / 8 + 1)
    (some (ofBytes ((vs.flatMap fun v => toBytes 8 v.toNat).take len)), s)

/-- A field of a number read from memory: n bytes at an offset. -/
def fieldAt (v off n : Nat) : Nat := v / 2 ^ (8 * off) % 2 ^ (8 * n)
def wordAt (v off : Nat) : W64 := BitVec.ofNat 64 (fieldAt v off 8)

/-! ## The launch record (R337, R338) -/

/-- What stands in a record where no field does. -/
def recordZeros (v : Nat) : Bool :=
  bits v 15 14 == 0 && bits v 31 28 == 0 && bits v 63 48 == 0 && fieldAt v 8 8 / 512 == 0
    && (let w := fieldAt v 24 4; bits w 15 11 == 0 && bits w 31 24 == 0)
    && fieldAt v 44 4 == 0 && fieldAt v 74 2 == 0 && fieldAt v 124 4 / 32 == 0 && fieldAt v 144 8 / 8 == 0
    && fieldAt v 176 80 == 0

/-- W, H and D that a record asks for (R11). -/
def State.gridOf (s : State) (v : Nat) : Nat × Nat × Nat :=
  let g := fieldAt v 8 2
  if bits g 8 8 = 1 then if s.dies = 2 then (4, 8, 2) else (6, 6, 4)
  else (bits g 2 0 + 1, bits g 5 3 + 1, bits g 7 6 + 1)

/-- The enabled clusters of a die. -/
def State.enabledOn (s : State) (d : Nat) : List Nat := s.enabled.filter fun c => dieOf c == d

/-- Whether the package holds a grid (R11, R412). -/
def State.holdsGrid (s : State) (g : Nat × Nat × Nat) : Bool :=
  decide (g.1 ≤ 8) && decide (g.2.1 ≤ 8)
    && decide (g.2.2 ≤ ((List.range s.dies).filter fun d => decide (g.1 * g.2.1 ≤ (s.enabledOn d).length)).length)

/-- The launch that a record describes. -/
def State.launchOf (s : State) (v q : Nat) : Launch :=
  let x := s.queue q
  let g := s.gridOf v
  { st := .waiting, queue := q, index := x.rd, number := fieldAt v 4 2, ctx := x.ctx, prio := bits v 9 8, part := x.part
    lsBytes := fieldAt v 124 4 % 32 * 0x10000, gridW := g.1, gridH := g.2.1, gridD := g.2.2
    maxGrid := bits (fieldAt v 8 2) 8 8 == 1, drainIdle := bits v 10 10 == 1, fused := bits v 11 11 == 1
    sdom := BitVec.ofNat 2 (bits v 13 12), tentry := wordAt v 16, tlanes := bits (fieldAt v 24 4) 10 0
    tregs := bits (fieldAt v 24 4) 23 16, teams := fieldAt v 28 4, sentry := wordAt v 32, threads := fieldAt v 40 4
    segt := wordAt v 48, ublk := wordAt v 56, lslots := fieldAt v 76 4, larder := wordAt v 80, trapt := wordAt v 96
    lodge := fieldAt v 128 8, mgw := fieldAt v 136 4, wmq := fieldAt v 144 1, done := wordAt v 152
    waita := wordAt v 160, waitv := wordAt v 168, park := wordAt v 88, spill := wordAt v 112
    spsz := BitVec.ofNat 32 (fieldAt v 120 4), thresh := BitVec.ofNat 32 (fieldAt v 140 4)
    peer := Tbl.find? x.peers x.rd.toNat, since := s.time.toNat }

/-- The descriptor of a node, and whether it keeps R347 and R20 (nn is NNODES). -/
def nodeOf (v : Nat) : NodeDesc :=
  let a := fieldAt v 8 4
  let b := fieldAt v 12 4
  { entry := wordAt v 0, batch := bits a 10 0, payload := bits a 15 11, regs := bits a 23 16, prio := bits a 25 24
    opt := bits a 26 26 == 1, mig := bits a 27 27 == 1, policy := bits a 29 28, timeout := bits b 23 0
    qmin := bits b 27 24, degn := fieldAt v 16 4 % 64, reserve := fieldAt v 20 4, next := fieldAt v 24 8
    ginit := wordAt v 32 }

def nodeOk (v nn lslots : Nat) : Bool :=
  let d := nodeOf v
  decide (1 ≤ d.batch) && decide (d.batch ≤ 1024) && decide (d.payload ≤ 16) && decide (36 ≤ d.regs)
    && decide (d.regs ≤ 128) && (!d.mig || d.regs == 128) && decide (d.policy ≤ 2) && decide (1 ≤ d.timeout)
    && decide (d.degn < nn) && decide (d.next < 2 ^ nn) && decide (d.reserve ≤ lslots)
    && bits (fieldAt v 8 4) 31 30 == 0 && bits (fieldAt v 12 4) 31 28 == 0 && fieldAt v 16 4 / 64 == 0
    && fieldAt v 40 24 == 0

/-- A node table as a number: whether it is sound. -/
def nodesOk (v nn lslots : Nat) : Bool :=
  ((List.range nn).all fun n => nodeOk (fieldAt v (64 * n) 64) nn lslots)
    && decide (((List.range nn).map fun n => (nodeOf (fieldAt v (64 * n) 64)).reserve).sum ≤ lslots)

/-- The nodes, each with format registers of its own that its descriptor does not hold: any that R54 and R55 allow
(log 31). -/
def State.nodesFrom (s : State) (v : Nat) : Nat → Tbl NodeDesc × State
  | 0 => ([], s)
  | n + 1 =>
    let (t, s) := s.nodesFrom v n
    let (vs, s) := s.free 2
    let d := { nodeOf (fieldAt v (64 * n) 64) with fmt := installFmt 0 ((vs.getD 0 0).setWidth 32), sclp := installSclp 0 (vs.getD 1 0) }
    (Tbl.put t n d, s)

/-- The format table as a number: the entries, and whether they keep R54 and R55. -/
def formatsOf (v : Nat) : List (W32 × W64) :=
  (List.range 8).map fun i => (BitVec.ofNat 32 (fieldAt v (16 * i) 4), wordAt v (16 * i + 8))

def formatsOk (v : Nat) : Bool :=
  ((formatsOf v).all fun e => fmtOk e.1 && sclpOk e.2) && (List.range 8).all fun i => fieldAt v (16 * i + 4) 4 == 0

/-- Values out of range: code 5. -/
def recordRanges (v : Nat) (l : Launch) : Bool :=
  decide (0x10000 ≤ l.lsBytes) && decide (l.lsBytes ≤ 0x100000) && decide (l.lodge % 256 = 0)
    && decide (l.lodge ≤ 0x8000000) && decide (l.mgw ≤ 98304) && decide (l.mgw % 8 = 0) && decide (l.wmq ≤ 4)
    && decide (l.threads ≤ 240) && decide (fieldAt v 72 2 ≤ 64) && (fieldAt v 72 2 == 0 || l.lslots != 0)
    && decide (1 ≤ l.tlanes) && decide (l.tlanes ≤ 1024) && decide (1 ≤ l.tregs) && decide (l.tregs ≤ 128)

/-- The checks of R338 that need the record alone; the first that fails, by its code (log 41). 0 for none. -/
def State.recordCode (s : State) (v : Nat) (l : Launch) : Nat :=
  let p := s.part l.part
  if v % 256 ≠ 1 ∨ recordZeros v = false ∨ l.sdom = 0 ∨ (l.maxGrid = true ∧ fieldAt v 8 1 ≠ 0) then 1
  else if s.holdsGrid (s.gridOf v) = false then 2
  else if bits v 27 16 ≠ l.ctx ∨ p.hasCtx l.ctx = false then 3
  else if recordRanges v l = false then 5
  else 0

/-! ## Completion words and residency reports (R340, R346) -/

/-- The completion word of a launch that ran. -/
def Launch.word (l : Launch) : W64 :=
  BitVec.ofNat 64 (2 ^ 63 + (if l.kteams = 0 then 0 else 2 ^ 61) + Nat.min l.drops 0xFFFF * 2 ^ 32
    + Nat.min l.kteams 0xFFFF * 2 ^ 16 + l.code.toNat % 0x10000)

def rejectWord (code : Nat) : W64 := BitVec.ofNat 64 (2 ^ 63 + 2 ^ 62 + code)

/-- The completion word written; none while the write waits on a page fault. One that cannot be made is not made. -/
def State.writeDone (s : State) (n : Nat) (word : W64) : Bool × State :=
  let l := s.launch n
  if l.done = 0 then (true, s)
  else
    match s.writeRange (s.deviceWho n) s.nextOp none .write l.done.toNat (toBytes 8 word.toNat) true with
    | (.park _, s) => (false, s)
    | (.stall, s) => (false, s)
    | (_, s) => (true, s)

/-- A residency report to a peer. -/
def State.report (s : State) (peer q event index lnum : Nat) (word : W64) : State :=
  let bs := toBytes 4 (q % 64 + event * 256) ++ toBytes 4 index ++ toBytes 2 lnum ++ toBytes 6 0
    ++ toBytes 8 s.time.toNat ++ toBytes 8 word.toNat
  { s with reports := s.reports ++ [(peer, bs)] }

/-- A report on a launch, when a packet brought it. -/
def State.reportLaunch (s : State) (n event : Nat) (word : W64) : State :=
  let l := s.launch n
  match l.peer with
  | some p => s.report p l.queue event l.index.toNat l.number word
  | none => s

/-! ## Consumption (R336, R338) -/

/-- RD passes the record. -/
def Queue.consumed (x : Queue) (head : Option Nat) : Queue :=
  { x with rd := x.rd + 1, head := head, peers := Tbl.erase x.peers x.rd.toNat }

/-- A rejected launch: its completion word, its report, and the queue moves on. -/
def State.reject (s : State) (q n code : Nat) : State :=
  match s.writeDone n (rejectWord code) with
  | (true, s) =>
    let s := s.reportLaunch n 2 (rejectWord code)
    { s.setQueue q ((s.queue q).consumed none) with launches := Tbl.erase s.launches n }
  | (false, s) => { s with launches := Tbl.erase s.launches n }

/-- A launch that passed every check heads its queue. -/
def State.headLaunch (s : State) (q n : Nat) (l : Launch) : State :=
  (s.setLaunch n l).setQueue q ((s.queue q).consumed (some n))

/-- A table of a record read in the launch's context; one that cannot be read breaks its rule (log 41). -/
def State.readTable (s : State) (n va len : Nat) (k : Option Nat → State → State) : State :=
  if len = 0 then k (some 0) s
  else
    match s.readRange (s.deviceWho n) va len true with
    | (.value v, s) => k (some v) s
    | (.park _, s) => { s with launches := Tbl.erase s.launches n }
    | (.stall, s) => { s with launches := Tbl.erase s.launches n }
    | (_, s) => k none s

/-- The record in v, checked in the order of the codes: nodes are 4, ranges 5, formats 6. -/
def State.consume (s : State) (q n v : Nat) : State :=
  let l := s.launchOf v q
  let s := s.setLaunch n l
  let code := s.recordCode v l
  let nn := fieldAt v 72 2
  if 1 ≤ code ∧ code ≤ 3 then s.reject q n code
  else
    s.readTable n (fieldAt v 64 8) (if nn ≤ 64 then 64 * nn else 0) fun nodes s =>
      if (nodes.map fun t => nodesOk t (if nn ≤ 64 then nn else 0) l.lslots) ≠ some true then s.reject q n 4
      else if code ≠ 0 then s.reject q n code
      else
        s.readTable n (fieldAt v 104 8) 128 fun fmts s =>
          if (fmts.map formatsOk) ≠ some true then s.reject q n 6
          else
            let (t, s) := s.nodesFrom (nodes.getD 0) nn
            s.headLaunch q n { l with nodes := t, fmts := formatsOf (fmts.getD 0) }

/-- Whether a queue may consume: enabled, not in ERROR, its interface in RUN with a host attached, no head. -/
def State.queueReady (s : State) (q : Nat) : Bool :=
  let x := s.queue q
  let p := s.part x.part
  x.en && x.st != 2 && x.depth != 0 && x.head.isNone && p.attach == 2 && p.tdisp == .run && !s.idle x.part

/-- Whether a token is that of requests that wait without a record. -/
def State.silentToken (s : State) (token : Nat) : Bool := (s.groups fun g => g.kind == 0).contains token

/-- LAUNCH_CONSUME. A ring read that meets a fault or poison puts the queue in ERROR; one of HBM out of service
waits. -/
def execLaunchConsume (q : Nat) (s : State) : Host.Outcome State Fault Refusal :=
  if s.queueReady q then
    let x := s.queue q
    let n := s.nextLaunch
    let at_ := x.base.toNat + 256 * (x.rd.toNat % 2 ^ x.log2n)
    let s' := s.setLaunch n { st := .waiting, ctx := x.ctx, part := x.part }
    match s'.readRange (s'.deviceWho n) at_ 256 true with
    | (.value v, s') => .next ({ s' with nextLaunch := n + 1 }.consume q n v)
    | (.stall, _) => .next s
    | (.park token, s') => .next (if s'.silentToken token then s else s.setQueue q (x.fail 2))
    | _ => .next (s.setQueue q (x.fail 2))
  else .next s

/-! ## Remote launch packets (R345) -/

/-- A packet that is not stored: REFUSED. -/
def State.refuse (s : State) (q peer : Nat) (v : Nat) : State := s.report peer q 1 0xFFFFFFFF (fieldAt v 4 2) 0

/-- A packet to a queue that takes none: its launch is rejected with code 7. The report's ring index is open. -/
def State.rejectPacket (s : State) (q peer v : Nat) : State :=
  let n := s.nextLaunch
  let s := s.setLaunch n { s.launchOf v q with peer := none }
  match s.writeDone n (rejectWord 7) with
  | (true, s) =>
    let (vs, s) := s.free 1
    ({ s with launches := Tbl.erase s.launches n, nextLaunch := n + 1 }).report peer q 2 ((vs.getD 0 0).toNat % 2 ^ 32)
      (fieldAt v 4 2) (rejectWord 7)
  | (false, s) => { s with launches := Tbl.erase s.launches n }

/-- PEER_LAUNCH_PACKET. The record is written in the queue's context; where it cannot be, the packet is refused. -/
def execPeerLaunchPacket (q peer : Nat) (bytes : List Byte) (s : State) : Host.Outcome State Fault Refusal :=
  let x := s.queue q
  let rc := (bytes ++ List.replicate 256 0).take 256
  let v := ofBytes rc
  if x.peerOk = false then .next (s.rejectPacket q peer v)
  else if x.en = false ∨ 2 ^ x.log2n ≤ x.depth ∨ (s.part x.part).stopped = true then .next (s.refuse q peer v)
  else
    let n := s.nextLaunch
    let s' := s.setLaunch n { st := .waiting, ctx := x.ctx, part := x.part }
    let at_ := x.base.toNat + 256 * (x.wr.toNat % 2 ^ x.log2n)
    match s'.writeRange (s'.deviceWho n) s.nextOp none .write at_ rc true with
    | (.value _, s') =>
      let s' := { s' with launches := Tbl.erase s'.launches n }
      let s' := s'.setQueue q { x with wr := x.wr + 1, peers := Tbl.put x.peers x.wr.toNat peer }
      .next (s'.report peer q 0 x.wr.toNat (fieldAt v 4 2) 0)
    | (.park _, s') => .next { s' with launches := Tbl.erase s'.launches n }
    | (.stall, _) => .next s
    | _ => .next (s.refuse q peer v)

/-! ## Placement (R339, R341 to R344) -/

/-- The launches resident on a cluster. -/
def State.residents (s : State) (cl : Nat) : List Launch := (s.cluster cl).ctx.map fun e => s.launch e.2

/-- Whether a launch uses team engines (R278). -/
def Launch.usesTeams (l : Launch) : Bool := (l.tentry != 0 && l.teams != 0) || l.nodes != []

/-- Whether a cluster has what a launch asks of it (R343): it and ways of the L2 of its die belong to the partition. The dies
are the partition's by its clusters (DEDUCED, log 122). -/
def State.clusterFits (s : State) (l : Launch) (cl : Nat) : Bool :=
  let c := s.cluster cl
  let rs := s.residents cl
  s.enabled.contains cl && c.part == l.part && Tbl.get (s.part l.part).ways 0 (dieOf cl) != 0 && decide (c.ctx.length < 4)
    && decide ((rs.map fun r => r.lsBytes).sum + l.lsBytes ≤ 0x100000) && (l.mgw == 0 || c.grant.isNone)
    && (if l.fused then rs.all fun r => !r.usesTeams else rs.all fun r => !r.fused)

/-- Whether a die has the lodged bytes that a launch reserves. -/
def State.dieFits (s : State) (l : Launch) (d : Nat) : Bool := l.lodge == 0 || decide (l.lodge ≤ s.freeQuota l.part d)

/-- The priority of a launch whose placement begins now (R342). -/
def State.launchPrio (s : State) (q n : Nat) : Nat := Nat.max (s.launch n).prio (s.queue q).prio

/-- The resident launches of a partition at a priority, which firmware's limits bound (R343). -/
def State.peersOf (s : State) (part prio : Nat) : List Launch :=
  (s.launches.filter fun e => e.2.st == .resident && e.2.part == part && e.2.prio == prio).map fun e => e.2

/-- The lodged bytes that a launch reserves on all its dies. -/
def Launch.lodgedTotal (l : Launch) : Nat := l.lodge * l.gridD

/-- Whether firmware's limits allow a launch on a grid: contexts, clusters and lodged bytes (R343, log 54). -/
def State.limitsAllow (s : State) (l : Launch) (prio : Nat) (g : List Nat) : Bool :=
  let m := Tbl.get (s.part l.part).limits {} prio
  let rs := s.peersOf l.part prio
  let grids := rs.flatMap fun r => r.grid
  let under (lim : Option Nat) (n : Nat) : Bool := (lim.map fun b => decide (n ≤ b)).getD true
  under m.contexts (grids.length + g.length) && under m.clusters (grids ++ g).eraseDups.length
    && under m.lodged ((rs.map Launch.lodgedTotal).sum + l.lodgedTotal)

/-- The clusters of a die that fit, those that the partition uses at the priority already ahead of the others: they
count once under a limit of clusters. -/
def State.fitting (s : State) (l : Launch) (prio d : Nat) : List Nat :=
  let used := if (Tbl.get (s.part l.part).limits {} prio).clusters.isSome then (s.peersOf l.part prio).flatMap fun r => r.grid else []
  let fit := if s.dieFits l d then (s.enabledOn d).filter (s.clusterFits l) else []
  (fit.filter fun c => used.contains c) ++ fit.filter fun c => !used.contains c

/-- How many clusters of a list the partition does not use yet at the priority. -/
def State.newOnes (s : State) (l : Launch) (prio : Nat) (g : List Nat) : Nat :=
  let used := (s.peersOf l.part prio).flatMap fun r => r.grid
  if (Tbl.get (s.part l.part).limits {} prio).clusters.isSome then (g.filter fun c => !used.contains c).length else 0

/-- A grid that a launch could take: none where it cannot be placed. It takes as few clusters as it can that count anew
under a limit. -/
def State.firstGrid (s : State) (l : Launch) (prio : Nat) : Option (List Nat) :=
  let n := l.gridW * l.gridH
  let ds := (List.range s.dies).filter fun d => decide (n ≤ (s.fitting l prio d).length)
  let ds := (List.range (n + 1)).flatMap fun k => ds.filter fun d => s.newOnes l prio ((s.fitting l prio d).take n) == k
  let g := (ds.take l.gridD).flatMap fun d => (s.fitting l prio d).take n
  if l.gridD ≤ ds.length ∧ s.limitsAllow l prio g = true then some g else none

/-- Whether a list of clusters is a grid for a launch: every virtual die on a die of its own (R12, R13). -/
def State.gridFits (s : State) (l : Launch) (prio : Nat) (g : List Nat) : Bool :=
  let n := l.gridW * l.gridH
  let dieAt (i : Nat) : Nat := dieOf (g.getD (i * n) 0)
  g.length == n * l.gridD && decide g.Nodup && (g.all (s.clusterFits l))
    && ((List.range g.length).all fun i => dieOf (g.getD i 0) == dieAt (i / n))
    && decide ((List.range l.gridD).map dieAt).Nodup && s.limitsAllow l prio g
    && (List.range l.gridD).all fun i => s.dieFits l (dieAt i)

/-- The gate word of a launch, read at system scope: whether it has reached its value. -/
def State.gateOpen (s : State) (n : Nat) : Bool × State :=
  let l := s.launch n
  if l.waita = 0 then (true, s)
  else
    match s.readRange (s.deviceWho n) l.waita.toNat 8 true with
    | (.value v, s) => (decide (l.waitv.toNat ≤ v), s)
    | (_, s) => (false, s)

/-- The ungated heads of the enabled queues, by queue. -/
def State.heads (s : State) : List Nat → List (Nat × Nat) × State
  | [] => ([], s)
  | q :: r =>
    let x := s.queue q
    match x.head with
    | some n =>
      if x.en && !s.idle x.part then
        let (o, s) := s.gateOpen n
        let (t, s) := s.heads r
        (if o then (q, n) :: t else t, s)
      else s.heads r
    | none => s.heads r

/-- A head that has waited longer than firmware's aging limit. -/
def State.aged (s : State) (n : Nat) : Bool := s.aging != 0 && decide (s.aging < s.time.toNat - (s.launch n).since)

/-- The place of a head in the order: effective priority, then rotation (R341). -/
def State.headPrio (s : State) (e : Nat × Nat) : Nat := if s.aged e.2 then 0 else (s.queue e.1).prio
def State.headRank (s : State) (e : Nat × Nat) : Nat :=
  let p := s.headPrio e
  p * 64 + (e.1 + 63 - Tbl.get s.served 63 p) % 64

/-- The head of least rank. -/
def leastHead (rank : Nat × Nat → Nat) (hs : List (Nat × Nat)) : Option (Nat × Nat) :=
  hs.foldl (fun best e =>
    match best with
    | none => some e
    | some b => if rank e < rank b then some e else some b) none

/-- The head that is placed next. While an aged head cannot be placed, the oldest aged head comes before every other;
launches are numbered as their records were consumed (R341; DEDUCED, log 102). -/
def State.nextHead (s : State) (hs : List (Nat × Nat)) : Option (Nat × Nat) :=
  let fits (e : Nat × Nat) : Bool := (s.firstGrid (s.launch e.2) (s.launchPrio e.1 e.2)).isSome
  let aged := hs.filter fun e => s.aged e.2
  if aged.any fun e => !fits e then (leastHead (fun e => e.2) aged).filter fits
  else leastHead s.headRank (hs.filter fits)

/-- 64 uniform registers and gp0 to gp6, from a block in memory. -/
def uniformOf (v : Nat) : Tbl W32 × Nat :=
  ((List.range 64).foldl (fun t i => Tbl.set t 0 i (BitVec.ofNat 32 (fieldAt v (4 * i) 4))) [], fieldAt v 256 1 % 128)

/-- A uniform block; zeros without one. None while the read waits. -/
def State.uniformBlock (s : State) (w : Who) (va : W64) : Option (Tbl W32 × Nat) × State :=
  if va = 0 then (some ([], 0), s)
  else
    let (v, s) := s.readOpen w va.toNat 257
    (v.map uniformOf, s)

/-- The initial uniform blocks of the nodes (log 29). -/
def State.nodeBlocks (s : State) (w : Who) : Tbl NodeDesc → Option (Tbl NodeDesc) × State
  | [] => (some [], s)
  | (n, d) :: r =>
    match s.uniformBlock w d.ginit with
    | (some u, s) =>
      let (t, s) := s.nodeBlocks w r
      (t.map fun t => (n, { d with g := u.1, gp := u.2 }) :: t, s)
    | (none, s) => (none, s)

/-- The eight segments at an offset of a template block. -/
def segsAt (v off : Nat) : Tbl W128 :=
  (List.range 8).foldl (fun t i => Tbl.set t 0 i (segStored (BitVec.ofNat 128 (fieldAt v (off + 16 * i) 16)))) []

/-- The lowest free launch-context slot. -/
def Cluster.freeCtx (c : Cluster) : Nat := ((List.range 4).find? fun i => (Tbl.find? c.ctx i).isNone).getD 0

/-- WMPART when a launch is admitted in a context slot (R344): the others that are resident keep their quotas. -/
def Cluster.admitWays (c : Cluster) (slot wmq : Nat) : W32 :=
  let q (i : Nat) : Nat := if i ≠ slot ∧ (Tbl.find? c.ctx i).isSome then wmQuota c.wmpart i else 0
  let others := q 0 + q 1 + q 2 + q 3
  let own := Nat.min wmq (4 - others)
  BitVec.ofNat 32 (((List.range 4).map fun i => (if i = slot then own else q i) * 8 ^ i).sum)

/-- The matrix grant given to a launch (R187; log 14). -/
def Cluster.giveGrant (c : Cluster) (n part seed : Nat) : Cluster :=
  let scrub := (c.grantPart.map fun p => p != part) == some true
  { c with grant := some n, grantPart := some part, bank := [], bankPoison := [], loft := [], loftPoison := []
           cellSeed := if scrub then 0 else seed }

/-- A launch admitted on a cluster: its context slot, its Waymark ways and contexts, its grant. -/
def Cluster.takeLaunch (c : Cluster) (n : Nat) (l : Launch) (seed : Nat) : Cluster :=
  let slot := c.freeCtx
  let ways := c.admitWays slot l.wmq
  let c := if l.mgw = 0 then c else c.giveGrant n l.part seed
  let c := { c with
    waymark := c.waymark.filter fun e => e.2.lc != slot, wmCtx := c.wmCtx.filter fun e => e.1 / 16 != slot }
  Cluster.setWmpart { c with ctx := Tbl.put c.ctx slot n } ways

/-- The caches of a cluster at a launch boundary (R277, R224): the first reads of the launch observe what was visible at
system scope (R297). -/
def State.boundary (s : State) (cl : Nat) : State :=
  let s := s.showSystem
  (clusterCaches cl).foldl (fun (s : State) c => s.invalidateAll c) s

/-- A launch admitted on the clusters of its grid. -/
def State.admitAll (s : State) (n : Nat) (l : Launch) : List Nat → State
  | [] => s
  | cl :: r =>
    let s := (s.boundary cl).modCluster cl fun c => c.takeLaunch n l (s.fresh + 1)
    ({ s with fresh := s.fresh + 1 } : State).admitAll n l r

/-- Where the image of a record stands, by the queue of the record and its index there (log 103). -/
def imageNo (queue index : Nat) : Nat := index * 64 + queue

/-- The .lstore image that the loader gave with the record: 8-byte words by their number (R344; log 103). -/
def State.imageOf (s : State) (l : Launch) : Tbl W64 := Tbl.get s.images [] (imageNo l.queue l.index.toNat)

/-- The image written to the local store of every virtual cluster, from number v on, through the plain window: no word
becomes full (R272). The parties see it. -/
def State.loadImages (s : State) (n : Nat) (l : Launch) (v : Nat) : List Nat → State
  | [] => s
  | _ :: r =>
    ((s.imageOf l).foldl (fun (s : State) e => s.writeKey (keyLocal n v (8 * e.1)) 8 e.2.toNat) s).loadImages n l (v + 1) r

/-- A launch team (R44, R344). -/
def State.launchTeam (s : State) (n : Nat) (l : Launch) (u : Tbl W32 × Nat) (cl v i : Nat) : State :=
  let number := v * l.teams + i
  let origin (lane : Nat) : W64 :=
    mkHandle 2 v (l.number / 256) (l.number % 256) (BitVec.ofNat 32 (number * 1024 + lane))
  let f := l.format 0
  s.newTeam {
    launch := n, cl := cl, lanes := l.tlanes, n := l.tregs, prio := l.prio, number := BitVec.ofNat 32 number
    g := u.1, gp := u.2, pc := l.tentry, fmt := f.1, sclp := f.2
    origin := (List.range l.tlanes).foldl (fun t k => Tbl.set t 0 k (origin k)) [] }

def State.launchTeams (s : State) (n : Nat) (l : Launch) (u : Tbl W32 × Nat) (cl v : Nat) : Nat → State
  | 0 => s
  | i + 1 => (s.launchTeams n l u cl v i).launchTeam n l u cl v i

/-- The parties of a launch on the clusters of its grid: its teams enter ADMITTING, its threads wait for the slots that
SLOT_GRANT gives (R344, R431). -/
def State.parties (s : State) (n : Nat) (l : Launch) (u : Tbl W32 × Nat) (v : Nat) : List Nat → State
  | [] => s
  | cl :: r =>
    let s := if l.tentry = 0 then s else State.launchTeams s n l u cl v l.teams
    let s := if l.sentry = 0 then s else s.modCluster cl fun c => { c with
      pendThreads := c.pendThreads ++ (List.range l.threads).map fun i => (n, v * l.threads + i) }
    s.parties n l u (v + 1) r

/-- A launch placed on a grid. -/
def State.placeOn (s : State) (q n : Nat) (g : List Nat) : State :=
  let l := s.launch n
  let p := s.headPrio (q, n)
  let l := { l with st := .resident, grid := g, prio := s.launchPrio q n, energy := 0 }
  let w := Who.mk (g.getD 0 0) n pathLS none
  match s.readOpen w l.segt.toNat 256 with
  | (none, s) => s
  | (some segs, s) =>
    match s.uniformBlock w (if l.tentry == (0 : W64) then 0 else l.ublk) with
    | (none, s) => s
    | (some u, s) =>
      match s.nodeBlocks w l.nodes with
      | (none, s) => s
      | (some nodes, s) =>
        let l := { l with teamSegs := segsAt segs 0, scalarSegs := segsAt segs 128, nodes := nodes }
        let s := (s.setLaunch n l).setQueue q { s.queue q with head := none }
        let s := { s with served := Tbl.put s.served p q }
        (((s.admitAll n l g).loadImages n l 0 g).parties n l u 0 g).reportLaunch n 3 0

/-- LAUNCH_PLACE: the head that the order chooses, on the given grid where that is one for it, on the first possible
grid otherwise. -/
def execLaunchPlace (grid : List Nat) (s : State) : Host.Outcome State Fault Refusal :=
  let (hs, s) := s.heads (List.range 64)
  match s.nextHead hs with
  | none => .next s
  | some (q, n) =>
    let l := s.launch n
    let p := s.launchPrio q n
    if s.gridFits l p grid then .next (s.placeOn q n grid)
    else .next (s.placeOn q n ((s.firstGrid l p).getD []))

/-! ## Drains and the end of a launch (R350, R432) -/

/-- Whether a launch has a thread or a reserved slot, or a frame as a current range. -/
def State.hasSlot (s : State) (n : Nat) : Bool :=
  s.slots.any fun e => slotIndex e.1 != 15 && e.2.launch == some n

/-- Whether the Cloakroom holds a context of a launch, or a thread of it waits for a slot. -/
def Cluster.hasThread (c : Cluster) (n : Nat) : Bool :=
  (c.cloak.any fun e => Tbl.find? c.areaLaunch (c.cloakArea e.1).toNat == some n) || c.pendThreads.any fun e => e.1 == n

/-- Whether a core holds a frame of a launch, or a message of it that waits to be spilled (R323). -/
def Core.hasFrame (c : Core) (n : Nat) : Bool :=
  (c.deques.any fun e => e.2.any fun f => f.launch == n) || (c.dqlaunch.any fun e => e.2.contains n)
    || (c.spillQ.any fun m => m.launch == n) || (c.spillLatch.map fun m => m.launch) == some n

/-- Whether an operation belongs to a launch. -/
def State.opOf (s : State) (n : Nat) (o : Op) : Bool :=
  match o.party with
  | .team t => (s.team t).launch == n
  | .slot k => (s.slot k).launch == some n
  | .none => false

/-- Whether a launch has a party other than records in the Drover. -/
def State.hasParty (s : State) (n : Nat) : Bool :=
  (s.teams.any fun e => e.2.launch == n) || s.hasSlot n || (s.clusters.any fun e => e.2.hasThread n)
    || (s.cores.any fun e => e.2.hasFrame n) || (s.ops.any fun e => s.opOf n e.2)
    || (s.slots.any fun e => e.2.sendQ.any fun m => m.launch == n)
    || s.clusters.any fun e => let d := Tbl.get e.2.drover {} n; d.waiting != [] || d.batches != []

def State.hasHeld (s : State) (n : Nat) : Bool := s.clusters.any fun e => (Tbl.get e.2.drover {} n).held != []

/-- Every cluster of a launch releases or drops what its nodes hold. -/
def State.drainOn (s : State) : List Nat → State
  | [] => s
  | cl :: r => (s.releaseReady cl).drainOn r

/-- LAUNCH_DRAIN: a launch that the host ends drains for good; one with DRAIN while it has no party other than held
records. -/
def execLaunchDrain (launch : Nat) (s : State) : Host.Outcome State Fault Refusal :=
  let l := s.launch launch
  if l.st ≠ .resident then .next s
  else if l.draining then .next (s.drainOn l.grid)
  else if l.drainIdle && !s.hasParty launch && s.hasHeld launch then
    let s := (s.setLaunch launch { l with draining := true }).drainOn l.grid
    .next (s.setLaunch launch { s.launch launch with draining := false })
  else .next s

/-- The local store of a launch is gone. -/
def State.dropStores (s : State) (n : Nat) : State :=
  let own (k : Nat) : Bool := keyKind k == 1 && keyPlace k / 0x10000000 == n
  { s.dropVeils own with
    mem := s.mem.filter fun e => !own e.1
    fe := s.fe.filter fun e => !own e.1
    poison := s.poison.filter fun e => !own e.1
    arrivals := s.arrivals.filter fun e => !own e.1
    phases := s.phases.filter fun e => !own e.1 }

/-- A cluster without a launch: its context slot, its grant and its records are free. -/
def Cluster.leave (c : Cluster) (n : Nat) : Cluster :=
  { c with
    ctx := c.ctx.filter fun e => e.2 != n
    grant := if c.grant = some n then none else c.grant
    drover := Tbl.erase c.drover n
    pendThreads := c.pendThreads.filter fun e => e.1 != n }

/-- The charges of a launch on a page that moves become carried with its lines. -/
def LPage.release (n : Nat) : LPage → LPage
  | .moving l d h w cs => .moving l d h w (cs.map fun e => if e.2 = some n then (e.1, none) else e)
  | p => p

/-- What a launch held is released; its lodged lines are carried (R366, R367). -/
def State.leaveGrid (s : State) (n : Nat) : State :=
  let l := s.launch n
  let s := (s.setLaunch n { l with st := .ended }).dropStores n
  let p := s.part l.part
  let s := s.setPart l.part { p with ended := (n :: p.ended).take 256 }
  { s with
    lines := s.lines.map fun (e : Nat × Line) =>
      (e.1, if e.2.charge = some n then { e.2 with charge := none } else e.2)
    lpages := s.lpages.map fun (e : Nat × LPage) => (e.1, e.2.release n)
    clusters := s.clusters.map fun (e : Nat × Cluster) => (e.1, e.2.leave n) }

/-- The completion word of a launch that is ended from outside before it ran, or for security. -/
def Launch.endWord (l : Launch) (drops : Nat) (code : Nat) : W64 :=
  BitVec.ofNat 64 (2 ^ 63 + 2 ^ 61 + Nat.min drops 0xFFFF * 2 ^ 32 + Nat.min l.kteams 0xFFFF * 2 ^ 16 + code)

/-- A launch that was removed from its queue ends with its completion word (R388); while that write waits, it is still to
end. -/
def State.closeLaunch (s : State) (n : Nat) : State :=
  let word := (s.launch n).endWord 0 0xFFFC
  match s.writeDone n word with
  | (false, s) => s
  | (true, s) => (s.leaveGrid n).reportLaunch n 4 word

/-- LAUNCH_END. Every write of the launch is visible (R297; log 42), then its completion word is written. -/
def execLaunchEnd (launch : Nat) (s : State) : Host.Outcome State Fault Refusal :=
  let l := s.launch launch
  if l.st = .closing then .next (s.closeLaunch launch)
  else if l.st ≠ .resident ∨ (Tbl.find? s.launches launch).isNone ∨ s.hasParty launch = true ∨ s.hasHeld launch = true then
    .next s
  else
    let s := s.showAll
    match s.writeDone launch l.word with
    | (false, s) => .next s
    | (true, s) => .next ((s.leaveGrid launch).reportLaunch launch 4 l.word)

end Sys2Proof.Machine
end

