-- ==== Sys2Proof/Machine/Park.lean ====
section
/-! DEFINITION. Teams that leave their engine for a frame and come back, and admission (R8, R352, R379 to R383, R428,
R429). -/

namespace Sys2Proof.Machine

/-! ## Room on an engine (R8, R352) -/

/-- The bytes of vector registers that a team takes. -/
def Team.room (t : Team) : Nat := t.n * 32 * t.words * 4

def State.onEngine (s : State) (cl eng : Nat) : List (Nat × Team) :=
  s.teams.filter fun e => e.2.cl == cl && e.2.eng == eng && e.2.resident

def State.engineFits (s : State) (t : Team) (eng : Nat) : Bool :=
  let ts := s.onEngine t.cl eng
  decide (ts.length < 16) && decide ((ts.map fun e => e.2.room).sum + t.room ≤ 0x80000)

/-- The engine a team takes: the given one when it has room, else the lowest that has. -/
def State.engineFor (s : State) (t : Team) (eng : Nat) : Option Nat :=
  if eng < 4 ∧ s.engineFits t eng = true then some eng else (List.range 4).find? (s.engineFits t)

/-- Whether one waiting team comes before another: priority, then age. -/
def Team.before (a b : Team) : Bool := decide (a.prio < b.prio) || (a.prio == b.prio && decide (a.entered < b.entered))

/-- The first team of a list in the order of R352. -/
def firstTeam (l : List (Nat × Team)) : Option (Nat × Team) :=
  l.foldl (fun best e =>
    match best with
    | none => some e
    | some b => if e.2.before b.2 then some e else some b) none

/-- The teams of a cluster that wait in ADMITTING. -/
def State.admitting (s : State) (cl : Nat) : List (Nat × Team) :=
  s.teams.filter fun e => e.2.cl == cl && e.2.st == .admitting && !s.idle (s.launch e.2.launch).part

/-- The team that is admitted next: the first that fits, or the first of all once it has waited 65,536 cycles. -/
def State.nextAdmit (s : State) (cl : Nat) : Option (Nat × Team) :=
  let l := s.admitting cl
  match firstTeam l with
  | none => none
  | some e =>
    if 65536 ≤ s.clock cl - e.2.entered then if (s.engineFor e.2 4).isSome then some e else none
    else firstTeam (l.filter fun e => (s.engineFor e.2 4).isSome)

/-! ## Accesses of the park area (R428) -/

/-- The engine's access for a team waits in a group (R168, R361). -/
def State.waitEngine (s : State) (t token : Nat) : State := s.setTeam t { s.team t with engineWait := some token }

/-- How a park-off goes on after an access: a fault that can be resolved is waited for, another one ends it. -/
def State.parkDone (t : Nat) (r : Done × State) (k : Nat → State → State) : State :=
  match r with
  | (.value v, s) => k v s
  | (.park token, s) => s.waitEngine t token
  | (.stall, s) => s
  | (_, s) => s.abandonPark t

/-- How a restore goes on: another fault ends the team with 0xFFFD. -/
def State.restoreDone (t : Nat) (r : Done × State) (k : Nat → State → State) : State :=
  match r with
  | (.value v, s) => k v s
  | (.park token, s) => s.waitEngine t token
  | (.stall, s) => s
  | (_, s) => s.killTeam t 0xFFFD

/-- Several ranges written, up to the first that cannot be. -/
def State.writeParts (s : State) (w : Who) (own base : Nat) : List (Nat × List Byte) → Done × State
  | [] => (.value 0, s)
  | (o, bs) :: r =>
    match s.writeRange w 0 (some own) .write (base + o) bs true with
    | (.value _, s) => s.writeParts w own base r
    | e => e

/-- Several ranges read, up to the first that cannot be; the answer is them one after the other. -/
def State.readParts (s : State) (w : Who) (base : Nat) : List (Nat × Nat) → Done × State
  | [] => (.value 0, s)
  | (o, n) :: r =>
    match s.readRange w (base + o) n true with
    | (.value v, s) =>
      match s.readParts w base r with
      | (.value u, s) => (.value (v + 2 ^ (8 * n) * u), s)
      | e => e
    | e => e

/-! ## The frame (R380) -/

/-- FLG. -/
def Team.flg (t : Team) : Nat :=
  let park := match t.wait with
    | .tpark _ _ => 4
    | _ => 0
  t.hnd.toNat + (if t.deferred = [] then 0 else 2) + park + t.prio % 4 * 8

/-- The word and the destination of tpark; zeros after a pre-emption. -/
def Team.parkWord (t : Team) : W64 × Nat :=
  match t.wait with
  | .tpark va d => (va, d)
  | _ => (0, 0)

/-- Where the predicates and the vector registers stand in a frame. -/
def framePreds : Nat := 0x480
def Team.frameRegs (t : Team) : Nat := 0x480 + 256 * ((t.lanes + 255) / 256)

/-- Eight segments. -/
def segBytes (g : Tbl W128) : List Byte := (List.range 8).flatMap fun i => toBytes 16 (Tbl.get g 0 i).toNat

/-- p0 to p6 of a lane. -/
def Team.predBits (t : Team) (lane : Nat) : Nat := ((List.range 7).map fun r => if t.preg lane r then 2 ^ r else 0).sum

/-- The vector registers: register, then lane, to full mask words. -/
def Team.vecBytes (t : Team) : List Byte :=
  (List.range t.n).flatMap fun r => (List.range (32 * t.words)).flatMap fun l => toBytes 4 (t.vreg l r).toNat

/-- What a frame holds, but for STATE; held is the word of a deferred error, which has no layout. -/
def Team.frameParts (t : Team) (mstat : W32) (held : Nat) : List (Nat × List Byte) :=
  [(0x004, toBytes 4 t.number.toNat ++ toBytes 8 t.pc.toNat ++ toBytes 2 t.lanes ++ toBytes 1 t.n ++ toBytes 1 t.flg
      ++ toBytes 4 t.divDepth ++ toBytes 4 t.callDepth ++ toBytes 4 t.spillIdx ++ toBytes 4 t.fmt.toNat
      ++ toBytes 4 t.tstat.toNat ++ toBytes 4 t.tclass.toNat),
    (0x030, toBytes 8 t.sclp.toNat ++ toBytes 8 t.parkWord.1.toNat ++ toBytes 1 t.parkWord.2 ++ toBytes 1 mstat.toNat),
    (0x080, segBytes t.sg ++ segBytes t.sgSaved),
    (0x180, toBytes 4 t.tcause.toNat ++ toBytes 8 t.tepc.toNat ++ toBytes 4 t.tinfo.toNat ++ toBytes 4 t.tlane.toNat
      ++ toBytes 8 t.taddr.toNat ++ toBytes 4 t.tcls.toNat ++ toBytes 4 t.tret.toNat ++ toBytes 4 held),
    (0x200, ((List.range 64).flatMap fun i => toBytes 4 (t.greg i).toNat) ++ toBytes 1 (t.gp % 128)),
    (0x380, toBytes (4 * t.words) t.mask), (0x400, toBytes (4 * t.words) t.tmask),
    (framePreds, (List.range t.lanes).flatMap fun l => toBytes 1 (t.predBits l)), (t.frameRegs, t.vecBytes)]

/-- The ranges that a restore reads, in the order of restored. -/
def Team.frameRanges (t : Team) : List (Nat × Nat) :=
  [(0x008, 8), (0x020, 12), (0x030, 17), (0x080, 256), (0x180, 36), (0x200, 257), (0x380, 4 * t.words),
    (0x400, 4 * t.words), (framePreds, t.lanes), (t.frameRegs, 128 * t.n * t.words)]

/-- The predicates of a frame: p0 to p6 by lane. -/
def predsOf (v lanes : Nat) : Tbl Nat :=
  (List.range 7).foldl (fun t r =>
    Tbl.set t 0 r (maskOf ((List.range lanes).filter fun l => (fieldAt v l 1).testBit r))) []

/-- The vector registers of a frame. -/
def vecOf (v lanes words n : Nat) : Tbl W32 :=
  ((List.range lanes).flatMap fun l => (List.range n).map fun r => (l, r)).foldl
    (fun t e => Tbl.set t 0 (vKey e.1 e.2) (BitVec.ofNat 32 (fieldAt v (4 * (e.2 * (32 * words) + e.1)) 4))) []

/-- The clause of TCLS once the frame gives other words for it than the trap left: TEPC lies behind POS words of it (R327,
R429; DEDUCED, log 111). -/
def clauseOfTcls (tcls : W32) (tepc : W64) (c : Option Clause) : Option Clause :=
  if tcls = 0 then none
  else
    some (Clause.mk (tepc - BitVec.ofNat 64 (4 * ((fld tcls 0 4).toNat + 1))) (fld tcls 12 4) (fld tcls 8 4)
      (fld tcls 4 4).toNat ((c.map fun c => c.hint).getD 0))

/-- A team with what the restore takes from its frame (R429). TSTAT.HND stays the engine's; reserved bits read zero (R5),
and values that FMT and SCLP may not hold are not installed (R54; log 104). -/
def Team.restored (t : Team) (v : Nat) : Team :=
  let m := 0x24A + 8 * t.words
  let mask := fieldAt v 0x24A (4 * t.words) % 2 ^ t.lanes
  let w (o : Nat) : W32 := BitVec.ofNat 32 (fieldAt v o 4)
  let tcls := w 321 &&& 0xFFFF
  { t with
    pc := wordAt v 0, fmt := installFmt t.fmt (w 8), tstat := (w 12 &&& 0x3F) ||| (t.tstat &&& 0x40), tclass := w 16
    sclp := installSclp t.sclp (wordAt v 20)
    wait := match t.wait with
      | .tpark va _ => .tpark va (fieldAt v 36 1 % 64)
      | x => x
    sg := segsAt v 37, sgSaved := segsAt v 165, tcause := w 293 &&& 0x00FFF0FF, tepc := wordAt v 297, tinfo := w 305
    tlane := w 309, taddr := wordAt v 313, tcls := tcls, tret := w 325 &&& 1
    tclause := if tcls = t.tcls then t.tclause else clauseOfTcls tcls (wordAt v 297) t.tclause
    g := (uniformOf (v / 2 ^ (8 * 329))).1, gp := (uniformOf (v / 2 ^ (8 * 329))).2
    mask := mask, live := t.live ||| mask
    tmask := fieldAt v (0x24A + 4 * t.words) (4 * t.words)
    p := predsOf (v / 2 ^ (8 * m)) t.lanes, v := vecOf (v / 2 ^ (8 * (m + t.lanes))) t.lanes t.words t.n }

/-! ## The stacks (R381) -/

/-- The base of a team's spill area, with the frames of the park area's header. -/
def State.spillBase (s : State) (t : Team) (nfr : Nat) : Nat :=
  let l := s.launch t.launch
  l.spill.toNat + (l.vcl t.cl * (64 + nfr) + t.spillIdx) * l.spsz.toNat

/-- The on-chip entries of both stacks at their places in the spill area. -/
def Team.stackParts (t : Team) (spsz : Nat) : List (Nat × List Byte) :=
  let divs := t.divs.reverse
  let calls := t.calls.reverse
  ((List.range divs.length).map fun i =>
    (t.divAt 0 (t.divSpilled + i), t.divEntryBytes (divs.getD i (DivEntry.mk false 0 0))))
    ++ (List.range calls.length).map fun i =>
      (callAt 0 spsz (t.callSpilled + i), callEntryBytes (calls.getD i (CallEntry.mk 0 0)))

/-- The top 16 entries of both stacks read back. -/
def State.refillStacks (s : State) (t base spsz : Nat) (tm : Team) (k : Team → State → State) : State :=
  let w := tm.who pathLS
  let nd := Nat.min 16 tm.divSpilled
  let nc := Nat.min 16 tm.callSpilled
  let size := 8 + 4 * tm.words
  State.restoreDone t
    (s.readParts w base ((List.range nd).map fun i => (tm.divAt 0 (tm.divSpilled - 1 - i), size))) fun dv s =>
    State.restoreDone t
      (s.readParts w base ((List.range nc).map fun i => (callAt 0 spsz (tm.callSpilled - 1 - i), 16))) fun cv s =>
      k { tm with
        divs := (List.range nd).map fun i => tm.divOf (fieldAt dv (size * i) size), divSpilled := tm.divSpilled - nd
        calls := (List.range nc).map fun i => callOf (fieldAt cv (16 * i) 16), callSpilled := tm.callSpilled - nc } s

/-! ## Leaving the engine (R379, R382) -/

/-- The claim of the lowest free frame from i on, of n left, by a compare-and-swap of its STATE: its address, or 0. A
claimed frame shows 2, the one value of R380 that is neither free nor parked (DEDUCED, log 112). -/
def State.claimFrame (s : State) (w : Who) (own base fsz i : Nat) : Nat → Done × State
  | 0 => (.value 0, s)
  | n + 1 =>
    match s.rmwRange w 0 (some own) (base + i * fsz) 4 (fun old => if old = 0 then some 2 else none) true with
    | (.value 0, s) => (.value (base + i * fsz), s)
    | (.value _, s) => s.claimFrame w own base fsz (i + 1) n
    | r => r

/-- The team as it is while it is PARKED-OFF. -/
def Team.off (t : Team) (frame : Nat) : Team :=
  { t with
    st := .parkedOff, frame := BitVec.ofNat 64 frame, divs := [], divSpilled := t.divDepth, calls := []
    callSpilled := t.callDepth, claimed := 0, engineWait := none }

/-- The frame of a park-off: the one that it has claimed before, or a new claim. -/
def State.parkFrame (s : State) (tm : Team) (w : Who) (own base fsz nfr : Nat) : Done × State :=
  if tm.claimed = 0 then s.claimFrame w own base fsz 0 nfr else (.value tm.claimed.toNat, s)

/-- The park-off of R382. The stacks fit the spill area, since every push tests it (R381). -/
def State.parkOff (s : State) (t : Nat) : State :=
  let tm := s.team t
  let l := s.launch tm.launch
  let w := tm.who pathLS
  let own := s.l1Of tm
  State.parkDone t (s.readRange w l.park.toNat 8 true) fun h s =>
    let fsz := h % 2 ^ 32
    let nfr := h / 2 ^ 32
    State.parkDone t (s.writeParts w own (s.spillBase tm nfr) (tm.stackParts l.spsz.toNat)) fun _ s =>
      State.parkDone t (s.parkFrame tm w own (l.park.toNat + 256 + l.vcl tm.cl * nfr * fsz) fsz nfr) fun frame s =>
        if frame = 0 then s
        else
          let (vs, s) := (s.setTeam t { s.team t with claimed := BitVec.ofNat 64 frame }).free 1
          let held := if tm.deferred = [] then 0 else (vs.getD 0 0).toNat
          State.parkDone t (s.writeParts w own frame (tm.frameParts (s.cluster tm.cl).mstat held)) fun _ s =>
            State.parkDone t (s.writeParts w own frame [(0, toBytes 4 1)]) fun _ s => s.setTeam t (tm.off frame)

/-- The key of the word that a team in tpark waits for. -/
def State.parkKey (s : State) (tm : Team) : Option Nat :=
  match tm.wait with
  | .tpark va _ => (s.launch tm.launch).windowKey tm.launch va.toNat
  | _ => none

/-- Whether that word is FULL. -/
def State.parkWordFull (s : State) (tm : Team) : Bool := (s.parkKey tm).any s.isFull

/-- Whether a team stands at a header of its own: the boundary at which a pre-emption is honoured. -/
def Team.atBoundary (t : Team) : Bool :=
  (t.st == .ready && t.clause.isNone && t.rep.isNone) || t.st == .clauseWait || (t.st == .parked && t.wait == .none)

/-- A pre-emption honoured. -/
def Team.yieldEngine (t : Team) : Team := { t with st := .parked, wait := .preempt, preempt := false }

/-- Whether a pre-emption means nothing to a team: it is off its engine, ends, or has been pre-empted. -/
def Team.hasYielded (t : Team) : Bool := !t.resident || t.st == .retiring || t.st == .retired || t.wait == .preempt

/-- A pre-emption asked of a team: honoured at once at a boundary, else at the next one. -/
def Team.askYield (tm : Team) : Team :=
  if tm.hasYielded then tm else if tm.atBoundary then tm.yieldEngine else { tm with preempt := true }

/-- PREEMPT_REQUEST. -/
def execPreemptRequest (team : Nat) (s : State) : Host.Outcome State Fault Refusal :=
  .next (if (Tbl.find? s.teams team).isNone || (s.team team).hasYielded then s
    else s.setTeam team (s.team team).askYield)

/-- Whether a team is on an engine with its restore from a frame not over yet. -/
def Team.returning (t : Team) : Bool := t.st == .parked && t.frame != 0

/-- TEAM_PARK_OFF: once the counters are zero, and while no access of the engine waits. A tpark word that is FULL by then
is taken instead (R331). -/
def execTeamParkOff (team : Nat) (s : State) : Host.Outcome State Fault Refusal :=
  let tm := s.team team
  if tm.st = .parked ∧ tm.drained = true ∧ tm.frame = 0 ∧ tm.engineWait = none then
    match tm.wait with
    | .tpark _ d =>
      match s.parkKey tm with
      | some k => if s.isFull k then .next ((s.unclaim team).takeWord team k d) else .next (s.parkOff team)
      | none => .next s
    | .preempt => .next (s.parkOff team)
    | _ => .next s
  else .next s

/-! ## Coming back (R383, R429) -/

/-- A parked team goes on: the tpark word is taken, or waited for again. A frame that a park-off has claimed is free. -/
def State.resumeTeam (s : State) (t : Nat) : State :=
  let s := s.unclaim t
  let tm := s.team t
  match tm.wait with
  | .tpark _ d =>
    match s.parkKey tm with
    | some k => if s.isFull k then s.takeWord t k d else s
    | none => s
  | _ => s.setTeam t { tm with st := .ready, wait := .none }

/-- The pc of a restored team is a header, or the team takes cause 0x09 (R429); where its word cannot be fetched yet, the
test comes with the fetch of the team's next instruction. -/
def State.checkResume (s : State) (t : Nat) : State :=
  let tm := s.team t
  let bad (code : BitVec 8) : State := s.teamTrap t (Trap.mk code 0 0xFFFFFFFF tm.pc)
  match s.fetchWord t tm.pc.toNat with
  | (.word w, s) =>
    if isHeader w then (s.setTeam t { s.team t with resumed := false }).resumeTeam t
    else s.teamTrap t (Trap.mk 0x09 0 0xFFFFFFFF tm.pc)
  | (.violation, _) => bad 0x03
  | (.failed (.park token), s) =>
    match tm.wait with
    | .tpark _ _ => s.resumeTeam t
    | _ => s.parkTeam t token tm.pc.toNat
  | (.failed .stall, s) => s.resumeTeam t
  | (.failed .poisoned, s) => s.teamTrap t (Trap.mk 0x0C 0 0xFFFFFFFF tm.pc)
  | (.failed _, s) => s.teamTrap t (Trap.mk 0x0E 0 0xFFFFFFFF tm.pc)

/-- A restore from the moment its frame shows STATE 2 (R383). -/
def State.restoreRest (s : State) (t : Nat) : State :=
  let tm := s.team t
  let l := s.launch tm.launch
  let frame := tm.frame.toNat
  let w := tm.who pathLS
  State.restoreDone t (s.readRange w (l.park.toNat + 4) 4 true) fun nfr s =>
    let s := s.teamAcquire tm
    State.restoreDone t (s.readParts w frame tm.frameRanges) fun v s =>
      s.refillStacks t (s.spillBase tm nfr) l.spsz.toNat (tm.restored v) fun back s =>
        State.restoreDone t (s.writeParts w (s.l1Of back) frame [(0, toBytes 4 0)]) fun _ s =>
          (s.setTeam t { back with
            frame := 0, restoring := false, resumed := true, clause := none, rep := none }).checkResume t

/-- The restore of a frame on the engine that a team has taken room on. -/
def State.restoreOn (s : State) (t : Nat) : State :=
  let tm := s.team t
  let frame := tm.frame.toNat
  let w := tm.who pathLS
  if tm.restoring then s.restoreRest t
  else
    State.restoreDone t (s.readRange w frame 4 true) fun st s =>
      if st ≠ 1 then s.killTeam t 0xFFFD
      else
        State.restoreDone t (s.writeParts w (s.l1Of tm) frame [(0, toBytes 4 2)]) fun _ s =>
          (s.setTeam t { s.team t with restoring := true }).restoreRest t

/-- A new team on an engine, with its spill index (R381): one from a batch reads what others wrote before (R277). The age of
R34, which the manual counts from a team's last issue, is counted for one that has never issued from this moment on (DESIGN
CHOICE, log 72). -/
def State.startOn (s : State) (t eng : Nat) : State :=
  let tm := s.team t
  let tm := { tm with st := .ready, eng := eng, issued := s.clock tm.cl, spillIdx := s.spillIndex tm.launch tm.cl }
  let s := s.setTeam t tm
  if tm.number.getLsbD 31 then s.teamAcquire tm else s

/-- A waiting team on an engine: its room there is taken (R8), and it starts or is restored. -/
def State.admitOn (s : State) (t eng : Nat) : State :=
  if (s.team t).frame = 0 then s.startOn t eng
  else (s.setTeam t { s.team t with st := .parked, eng := eng }).restoreOn t

/-- TEAM_ADMIT: the batch that has awaited its team longest becomes one, and the first team in turn is admitted. -/
def execTeamAdmit (cl eng : Nat) (s : State) : Host.Outcome State Fault Refusal :=
  let s := s.createTeam cl
  match s.nextAdmit cl with
  | none => .next s
  | some (t, tm) =>
    match s.engineFor tm eng with
    | some e => .next (s.admitOn t e)
    | none => .next s

/-- TEAM_RESTORE: a team whose word is FULL, or whose pre-emption firmware ends. One that is off its engine waits in
ADMITTING, and takes room at once when it is first in turn. A restore that had to wait goes on. -/
def execTeamRestore (team eng : Nat) (s : State) : Host.Outcome State Fault Refusal :=
  let tm := s.team team
  let due := tm.wait == .preempt || s.parkWordFull tm
  if s.idle (s.launch tm.launch).part = true then .next s
  else if tm.returning then .next (if tm.engineWait = none then s.restoreOn team else s)
  else if due = false then .next s
  else
    match tm.st with
    | .parked => if tm.drained || tm.wait == .preempt then .next (s.resumeTeam team) else .next s
    | .parkedOff =>
      let s := s.setTeam team { tm with st := .admitting, entered := s.clock tm.cl }
      match s.nextAdmit tm.cl with
      | some (t, x) =>
        if t = team then
          match s.engineFor x eng with
          | some e => .next (s.admitOn t e)
          | none => .next s
        else .next s
      | none => .next s
    | _ => .next s

end Sys2Proof.Machine
end

