-- ==== Sys2Proof/Machine/HostEvents.lean ====
section
/-! DEFINITION. What the host, the peers and the owner of a partition do: ending launches (R388), detach and re-attach
(R393, R394), doors and HDM (R385, R386), peer requests (R396, R398), TDISP and SPDM (R399 to R403). -/

namespace Sys2Proof.Machine

/-! ## LEND (R388) -/

/-- Every team of a launch ends with a code. -/
def State.killTeams (s : State) (n : Nat) (code : W32) : List (Nat × Team) → State
  | [] => s
  | (t, tm) :: r =>
    (if tm.launch = n ∧ tm.st ≠ .retiring ∧ tm.st ≠ .retired then s.killTeam t code else s).killTeams n code r

/-- Every thread of a launch is released: in slots, in the Cloakroom, and those that wait for a slot. -/
def State.releaseThreads (s : State) (n : Nat) : List Nat → State
  | [] => s
  | k :: r =>
    let x := s.slot k
    (if slotIndex k ≠ 15 ∧ x.launch = some n then
      (s.drainStores k).setSlot k { x.freed with reserved := false, saved := none }
    else s).releaseThreads n r

def Cluster.releaseLaunch (c : Cluster) (n : Nat) : Cluster :=
  let own := (Tbl.keys c.cloak).filter fun e => Tbl.find? c.areaLaunch (c.cloakArea e).toNat == some n
  let c := { c with pendThreads := c.pendThreads.filter fun e => e.1 != n }
  own.foldl (fun c e => c.freeCloak e) c

/-- The end of every team and thread of a launch, and the drain of its records. -/
def State.killLaunch (s : State) (n : Nat) (code : W32) : State :=
  let s := (s.killTeams n code s.teams).releaseThreads n (Tbl.keys s.slots)
  let s := { s with clusters := s.clusters.map fun (e : Nat × Cluster) => (e.1, e.2.releaseLaunch n) }
  let l := s.launch n
  (s.setLaunch n { l with draining := true }).drainOn l.grid

/-- A launch that has not been placed leaves its queue. -/
def State.removeHead (s : State) (n : Nat) : State :=
  let l := s.launch n
  let s := s.setQueue l.queue { s.queue l.queue with head := none }
  (s.setLaunch n { l with st := .closing }).closeLaunch n

/-- Whether a LEND write may name a launch. -/
def State.lendable (s : State) (part n : Nat) : Bool :=
  match Tbl.find? s.launches n with
  | some l => l.part == part && l.st != .ended && l.st != .closing
  | none => false

/-- LEND_DRAIN. -/
def execLendDrain (part launch : Nat) (s : State) : Host.Outcome State Fault Refusal :=
  let l := s.launch launch
  s.asked part <|
  if s.lendable part launch = false then .next s
  else if l.st = .waiting then .next (s.removeHead launch)
  else .next ((s.setLaunch launch { l with draining := true }).drainOn l.grid)

/-- LEND KILL. -/
def State.lendKill (s : State) (part n : Nat) : State :=
  if s.lendable part n = false then s
  else if (s.launch n).st = .waiting then s.removeHead n
  else s.killLaunch n 0xFFFC

def execLendKill (part launch : Nat) (s : State) : Host.Outcome State Fault Refusal :=
  s.asked part (.next (s.lendKill part launch))

/-! ## Bytes written by the host (R273, R296) -/

/-- A write of the host or of a peer to consecutive keys; va tells the alias window. -/
def State.hostWrite (s : State) (key va : Nat) (bs : List Byte) : State :=
  let p := Piece.mk key va bs.length false false none
  (s.clearPoison (coveredUnits [p])).writePieces (Who.mk 0 0 pathHX none) s.nextOp none [p] bs

/-- The launch that a number names among the resident ones of a partition. -/
def State.launchNamed (s : State) (part : Nat) (p : Launch → Bool) : Option Nat :=
  (List.find? (fun e => e.2.part == part && e.2.st == .resident && p e.2) s.launches.reverse).map fun e => e.1

/-! ## Doors and HBM ranges (R385, R386, R393, R398) -/

/-- What a read returned. -/
def State.answerHost (s : State) (part : Nat) (bs : List Byte) : State := { s with answers := s.answers ++ [(part, bs)] }

/-- The resident launch that a door is bound to (R387). -/
def State.boundLaunch (s : State) (part door : Nat) : Option Nat :=
  let d := Tbl.get (s.part part).doors {} door
  s.launchNamed part fun l => l.ctx == d.ctx && l.number == d.lnum

/-- The launch that a door reaches: none where the door is closed or its launch is not resident. -/
def State.doorLaunch (s : State) (part door : Nat) : Option Nat :=
  if (Tbl.get (s.part part).doors {} door).en then s.boundLaunch part door else none

/-- The window address of an offset within a door. -/
def doorVa (off : Nat) : Nat :=
  if off < 0x10000000 then Config.plainBase + off else Config.aliasBase + (off - 0x10000000)

/-- The key that an access of n bytes through a door begins at. -/
def State.doorKey (s : State) (part door off n : Nat) : Option Nat :=
  (s.doorLaunch part door).bind fun l =>
    let a := s.launch l
    if n = 0 ∨ 0x20000000 < off + n ∨ off % 0x100000 + n > 0x100000 ∨ (a.windowKey l (doorVa (off + n - 1))).isNone then none
    else a.windowKey l (doorVa off)

/-- An access of the host or of a peer to consecutive keys. An atomic answers with the value before it. -/
def State.hxAccess (s : State) (part key va : Nat) (op : PeerOp) (bs : List Byte) : State :=
  let old := s.seenBytes pathHX key bs.length
  match op with
  | .read => s.answerHost part old
  | .write => s.hostWrite key va bs
  | .atomic code =>
    (s.answerHost part old).hostWrite key va (toBytes bs.length (atomNew code (8 * bs.length) (ofBytes old) (ofBytes bs)))

/-- An access that reaches nothing: a read gives ones, and a write is discarded (R385). -/
def State.hxNothing (s : State) (r : HxReq) : State :=
  if r.op = .read then s.answerHost r.part (List.replicate r.bytes.length 0xFF) else s

/-- Whether an access to the HBM range of a partition, at an offset within it, lies within it. -/
def State.inRange (s : State) (part addr n : Nat) : Bool := decide ((s.part part).hbmLo + addr + n ≤ (s.part part).hbmHi)

/-- An access of the host or of a peer performed. -/
def State.hxPerform (s : State) (r : HxReq) : State :=
  match r.place with
  | .door d off =>
    match s.doorKey r.part d off r.bytes.length with
    | some k => s.hxAccess r.part k (doorVa off) r.op r.bytes
    | none => s.hxNothing r
  | .range a =>
    let at_ := (s.part r.part).hbmLo + a
    if s.inRange r.part a r.bytes.length then s.hxAccess r.part (keyHbm at_) at_ r.op r.bytes else s

/-- Whether an access waits: while the host is away (R393), for an HBM stack out of service (R413), or behind an earlier one of
its agent, whose accesses are performed in their order (R296, R398). What was accepted before the interface left RUN is
performed (R402). -/
def State.hxWaits (s : State) (r : HxReq) : Bool :=
  ((s.part r.part).attach != 2 && !(s.part r.part).stopped)
    || (s.hxHeld.any fun h => h.part == r.part && h.peer == r.peer)
    || match r.place with
      | .range a =>
        let at_ := (s.part r.part).hbmLo + a
        s.stackOut at_ || s.stackOut (at_ + r.bytes.length - 1)
      | .door _ _ => false

/-- An access that the device accepts. -/
def State.hxArrive (s : State) (r : HxReq) : State :=
  if s.hxWaits r then { s with hxHeld := s.hxHeld ++ [r] } else s.hxPerform r

/-- The accesses that wait, tried again in their order. -/
def State.serveHx (s : State) : State := s.hxHeld.foldl State.hxArrive { s with hxHeld := [] }

/-- HOST_DOOR_ACCESS. -/
def execHostDoorAccess (part door off : Nat) (write : Bool) (bytes : List Byte) (s : State) :
    Host.Outcome State Fault Refusal :=
  s.asked part (.next (s.hxArrive (HxReq.mk part none (.door door off) (if write then .write else .read) bytes)))

/-- HOST_HDM_ACCESS. -/
def execHostHdmAccess (part addr : Nat) (write : Bool) (bytes : List Byte) (s : State) :
    Host.Outcome State Fault Refusal :=
  s.asked part (.next (s.hxArrive (HxReq.mk part none (.range addr) (if write then .write else .read) bytes)))

/-- PEER_REQUEST: an offset outside the range is refused, and nothing is accessed. -/
def execPeerRequest (part peer addr : Nat) (op : PeerOp) (bytes : List Byte) (s : State) :
    Host.Outcome State Fault Refusal :=
  s.asked part
    (.next (if s.inRange part addr bytes.length then s.hxArrive (HxReq.mk part (some peer) (.range addr) op bytes)
      else { s with reports := s.reports ++ [(peer, [])] }))

/-! ## Detach and re-attach (R393, R394) -/

/-- A partition that is not ATTACHED any more; the 30 s of R394 count from the moment it left that state. -/
def Part.detached (p : Part) (st : BitVec 2) (now : Nat) : Part :=
  { p with attach := st, claims := [], detachedAt := if p.attach = 2 then now else p.detachedAt }

/-- HOST_LINK_DOWN. -/
def execHostLinkDown (part : Nat) (s : State) : Host.Outcome State Fault Refusal :=
  .next (s.setPart part ((s.part part).detached 0 s.time.toNat))

/-- ATTACH_BEGIN. -/
def execAttachBegin (part : Nat) (s : State) : Host.Outcome State Fault Refusal :=
  s.asked part (.next (s.setPart part ((s.part part).detached 1 s.time.toNat)))

/-- ATTACH_CLAIM. -/
def execAttachClaim (part : Nat) (v : W64) (s : State) : Host.Outcome State Fault Refusal :=
  let p := s.part part
  s.asked part <|
  if p.attach = 1 then
    .next (s.setPart part { p with claims := p.claims ++ [(v.getLsbD 15, bits v.toNat 5 0, bits v.toNat 31 16)] })
  else .next s

/-- The launches that a queue has consumed and that have not ended end as by KILL. -/
def State.killQueue (s : State) (part q : Nat) : List Nat → State
  | [] => s
  | n :: r => (if (s.launch n).queue = q then s.lendKill part n else s).killQueue part q r

/-- A queue that was not claimed. -/
def State.resetQueue (s : State) (part q : Nat) : State :=
  let s := s.killQueue part q (Tbl.keys s.launches)
  let x := s.queue q
  s.setQueue q { x with en := false, st := 0, err := 0, rd := x.wr, gen := (x.gen + 1) % 0x10000 }

/-- The physical address of slot j of a service ring. -/
def ringSlot (header j : Nat) : Nat := header + 128 + 64 * j

/-- The status RESET for the requester of a published slot. -/
def State.resetSlot (s : State) (part header j : Nat) : State :=
  let at_ := ringSlot header j
  let lnum := s.readKey (keyHbm (at_ + 18)) 2
  let rloc := s.readKey (keyHbm (at_ + 20)) 4
  match s.launchNamed part fun l => l.number == lnum with
  | none => s
  | some n =>
    let va := Config.aliasBase + bits rloc 27 0
    match (s.launch n).windowKey n va with
    | some k => s.hostWrite k va (toBytes 2 0xFFFF)
    | none => s

/-- The slots of a ring from j on: those not yet consumed are answered, and every SEQ is zeroed. -/
def State.resetSlots (s : State) (part header size tail cur j : Nat) : Nat → State
  | 0 => s
  | n + 1 =>
    let q := s.readKey (keyHbm (ringSlot header j)) 8
    let due := decide (1 ≤ q) && decide ((q - 1) % size = j) && decide (cur ≤ q - 1) && decide (q - 1 < tail)
    let s := if due then s.resetSlot part header j else s
    (s.writeKey (keyHbm (ringSlot header j)) 8 0).resetSlots part header size tail cur (j + 1) n

/-- The slots and the indices of a ring that is registered. -/
def State.resetRingAt (s : State) (part h : Nat) : State :=
  let size := 2 ^ Nat.min 12 (s.readKey (keyHbm (h + 8)) 1)
  let s := s.resetSlots part h size (s.readKey (keyHbm h) 8) (s.readKey (keyHbm (h + 64)) 8) 0 size
  (s.writeKey (keyHbm h) 8 0).writeKey (keyHbm (h + 64)) 64 0

/-- A service ring that was not claimed. -/
def State.resetRing (s : State) (part i : Nat) (r : Svc) : State :=
  let s := if r.en then s.resetRingAt part r.addr.toNat else s
  let p := s.part part
  s.setPart part { p with svcs := Tbl.put p.svcs i { r with en := false, gen := (r.gen + 1) % 0x10000 } }

/-- Queues and rings that no claim names with its generation. -/
def State.resetQueues (s : State) (part : Nat) (claims : List (Bool × Nat × Nat)) : List Nat → State
  | [] => s
  | q :: r =>
    let x := s.queue q
    (if x.part = part ∧ claims.contains (false, q, x.gen) = false then s.resetQueue part q else s).resetQueues part claims r

def State.resetRings (s : State) (part : Nat) (claims : List (Bool × Nat × Nat)) : List Nat → State
  | [] => s
  | i :: r =>
    let x := Tbl.get (s.part part).svcs {} i
    (if claims.contains (true, i, x.gen) then s else s.resetRing part i x).resetRings part claims r

/-- The groups that wait for the host, of a partition. -/
def State.hostGroups (s : State) (part : Nat) : List Group :=
  (s.clusters.flatMap fun (e : Nat × Cluster) => e.2.replay).filter fun g =>
    g.kind == 0 && (s.part part).hasCtx g.ctx &&
      match s.leafOf part g.ctx (g.page * 0x10000) with
      | some (_, _, e) => leafType e == 3
      | none => false

def State.failGroups (s : State) : List Group → State
  | [] => s
  | g :: r => (s.failGroup g).failGroups r

/-- The accesses of the host that wait for a launch of a context among some: they reach nothing. -/
def State.failHx (s : State) (part : Nat) (ctxs : List Nat) : State :=
  let gone (r : HxReq) : Bool :=
    match r.place with
    | .door d _ => r.part == part && ctxs.contains (Tbl.get (s.part part).doors {} d).ctx
    | .range _ => false
  (s.hxHeld.filter gone).foldl State.hxNothing { s with hxHeld := s.hxHeld.filter fun r => !gone r }

/-- COMMIT with claims: what is not claimed is reset; parked accesses of reset contexts fail, the others translate afresh;
held interrupts are delivered. -/
def State.commit (s : State) (part : Nat) (claims : List (Bool × Nat × Nat)) : State :=
  let reset := (List.range 64).filter fun q =>
    (s.queue q).part == part && !claims.contains (false, q, (s.queue q).gen)
  let ctxs := reset.map fun q => (s.queue q).ctx
  let s := s.setPart part { s.part part with attach := 2, claims := [] }
  let s := (s.resetQueues part claims (List.range 64)).resetRings part claims (List.range 8)
  let s := (s.failGroups ((s.hostGroups part).filter fun g => ctxs.contains g.ctx)).failHx part ctxs
  let s := { s with
    msix := s.msix ++ s.msixHeld.filter fun (e : Nat × Nat) => e.1 == part
    msixHeld := s.msixHeld.filter fun (e : Nat × Nat) => e.1 != part }
  s.wakeSilent.serveHx

/-- ATTACH_COMMIT. -/
def execAttachCommit (part : Nat) (s : State) : Host.Outcome State Fault Refusal :=
  let p := s.part part
  s.asked part (.next (if p.attach = 1 then s.commit part p.claims else s))

/-- REATTACH_TIMEOUT: 30 s without a COMMIT. -/
def execReattachTimeout (part : Nat) (s : State) : Host.Outcome State Fault Refusal :=
  let p := s.part part
  if p.attach ≠ 2 ∧ 30000000000 ≤ s.time.toNat - p.detachedAt then .next (s.commit part []) else .next s

/-! ## Peers (R396, R397) -/

/-- Whether an address of a team lies on a page of a type, by the leaf that its cluster holds. -/
def State.onType (s : State) (tm : Team) (ty va : Nat) : Bool :=
  match (s.cluster tm.cl).lookup (s.launch tm.launch).ctx va with
  | some l => !inWindows va && leafType l.entry.toNat == ty
  | none => false

/-- Whether an address of a team lies on a page of a UALink peer, whose accesses are acknowledged (R396); a copy to an Ultra
Ethernet peer has no limit of time (R397). -/
def State.onUalink (s : State) (tm : Team) (va : Nat) : Bool :=
  let l := s.launch tm.launch
  match (s.cluster tm.cl).lookup l.ctx va with
  | some x => s.onType tm 2 va && s.peerField l.part x.entry.toNat 0 1 == 1
  | none => false

/-- A buffered store to a peer that is never acknowledged: the thread traps, at the end of its park when it is parked. -/
def State.storeTimeout (s : State) (id k : Nat) (ps : List Piece) : State :=
  if ps.any fun p => keyKind p.key == 4 then
    ({ s with ops := Tbl.erase s.ops id, ras := s.ras ++ [(RasKind.link, id)] } : State).stopSlot k 15
      (BitVec.ofNat 64 ((ps.map fun p => p.va).headD 0)) true
  else s

/-- A unit of an operation that is never acknowledged. -/
def State.opTimeout (s : State) (op unit : Nat) : State :=
  let o := s.op op
  let s' := { s with ras := s.ras ++ [(RasKind.link, op)] }
  match o.party, o.kind with
  | .team t, .mem _ _ _ us =>
    if o.pending.contains unit && s.onUalink (s.team t) (us.getD unit unit0).addr.toNat then s'.deferError op unit 0x0E else s
  | .team t, .copy src dst bytes rows sp dp _ _ _ =>
    match (copyPieces src.toNat dst.toNat bytes rows sp dp)[unit]? with
    | some (a, b, _) =>
      if o.pending.contains unit && (s.onUalink (s.team t) a || s.onUalink (s.team t) b) then
        s'.failCopy op unit (if s.onUalink (s.team t) a then a else b)
      else s
    | none => s
  | .team t, .conv c =>
    match (c.pages unit).find? (s.onUalink (s.team t)) with
    | some a => if o.pending.contains unit then s'.failCopy op unit a else s
    | none => s
  | .slot k, .slotStore ps _ _ => s.storeTimeout op k ps
  | _, _ => s

/-- PEER_ACK_TIMEOUT: an access to a peer becomes unresolvable, without a fault record. A load or an atomic of a thread is
that of its next instruction, which traps (log 117). -/
def execPeerAckTimeout (a : AckRef) (unit : Nat) (s : State) : Host.Outcome State Fault Refusal :=
  match a with
  | .op id => .next (s.opTimeout id unit)
  | .slot k => .next (s.modSlot k fun x => { x with unacked := true })

/-! ## TDISP (R399, R401, R403) -/

/-- A response to the owner. Codes: 1 measurements, 2 key exchange, 3 finish, 4 heartbeat, 5 key update, 6 a changed
measurement, 7 the interface report, 8 the interface has stopped (log 79). -/
def State.reply (s : State) (r : Reply) : State := { s with replies := s.replies ++ [r] }

/-- What a partition is assigned (R399). -/
def State.interfaceReport (s : State) (part : Nat) : IfReport :=
  let p := s.part part
  { clusters := s.enabled.filter fun cl => (s.cluster cl).part == part
    ctxlo := p.ctxlo, ctxhi := p.ctxhi, hbmLo := p.hbmLo, hbmHi := p.hbmHi, ways := p.ways, lquota := p.lquota
    queues := (List.range 64).filter fun q => (s.queue q).part == part }

/-- LOCK_INTERFACE: what the partition is assigned is frozen, and reported (log 79). -/
def execLockInterface (part : Nat) (s : State) : Host.Outcome State Fault Refusal :=
  let p := s.part part
  if p.tdisp = .unlocked then
    .next ((s.setPart part { p with tdisp := .locked }).reply
      { part := part, code := 7, report := some (s.interfaceReport part) })
  else .next s

/-- START_INTERFACE. -/
def execStartInterface (part : Nat) (s : State) : Host.Outcome State Fault Refusal :=
  let p := s.part part
  if p.tdisp = .locked then .next (s.setPart part { p with tdisp := .run }) else .next s

/-- Whether a cluster belongs to a partition. -/
def State.owns (s : State) (part cl : Nat) : Bool := (s.cluster cl).part == part

/-- Whether an operation belongs to a partition. -/
def State.opIn (s : State) (part : Nat) (o : Op) : Bool :=
  match o.party with
  | .team t => (s.launch (s.team t).launch).part == part
  | .slot k => s.owns part (slotCluster k)
  | .none => false

/-- An operation of the asynchronous units, which a security abort completes. -/
def OpKind.abortable : OpKind → Bool
  | .mem (.gath _) _ _ _ => true
  | .mem (.scat _) _ _ _ => true
  | .mem _ _ _ _ => false
  | .slotStore _ _ _ => false
  | _ => true

/-- Accesses to HOST and PEER pages are dropped: those of an operation that its units name. -/
def State.dropOutside (s : State) (id t : Nat) (us : List Unit1) : List Nat → State
  | [] => s
  | i :: r =>
    let a := (us.getD i unit0).addr.toNat
    (if s.onType (s.team t) 3 a || s.onType (s.team t) 2 a then s.deferError id i 0x0E else s).dropOutside id t us r

/-- The operations of a partition at the abort: asynchronous ones complete with status SECURITY_ABORT, writes not yet made are
never made; accesses to the host and to peers complete as unresolvable. -/
def State.abortOps (s : State) (part : Nat) : List (Nat × Op) → State
  | [] => s
  | (id, o) :: r =>
    (if s.opIn part o = false then s
    else if o.kind.abortable then { s.finishOp id with aborted := s.aborted ++ [id] }
    else
      match o.party, o.kind with
      | .team t, .mem _ _ _ us => s.dropOutside id t us o.pending
      | _, .slotStore ps _ _ => if ps.any fun p => decide (3 ≤ keyKind p.key) then { s with ops := Tbl.erase s.ops id } else s
      | _, _ => s).abortOps part r

/-- A team stopped for good. -/
def Team.abort (t : Team) : Team := { t with st := .parked, wait := .aborted, tcause := 0x0E }

/-- Teams that stand at a clause boundary stop; the others stop there when they reach it. -/
def State.abortTeams (s : State) (part : Nat) : State :=
  { s with teams := s.teams.map fun (e : Nat × Team) =>
      (e.1, if (s.launch e.2.launch).part = part ∧ e.2.atBoundary = true then e.2.abort else e.2) }

/-- A slot stops issuing, and stays PARKED. -/
def Slot.abort (x : Slot) : Slot := if x.st = .free then x else { x with st := .parked, wait := .none }

def State.abortSlots (s : State) (part : Nat) : State :=
  { s with slots := s.slots.map fun (e : Nat × Slot) => (e.1, if s.owns part (slotCluster e.1) then e.2.abort else e.2) }

/-- The records of a launch that the Drovers have accepted. -/
def State.heldOf (s : State) (n : Nat) : Nat :=
  (s.clusters.map fun (e : Nat × Cluster) => (Tbl.get e.2.drover {} n).accepted.length).sum

/-- The completion word of an aborted launch, where it lies in device memory; every write that was made is visible before
it (R297). -/
def State.abortWord (s : State) (n : Nat) : State :=
  let s := s.showAll
  let l := s.launch n
  if l.done = 0 then s
  else
    match s.piecesOf (s.deviceWho n) .write true l.done.toNat 8 with
    | (.ok ps, _) =>
      if ps.all fun p => decide (keyKind p.key ≤ 2) then (s.writeDone n (l.endWord (l.drops + s.heldOf n) 0x5EC0)).2 else s
    | _ => s

/-- Every launch of a partition ends (R401). -/
def State.abortLaunches (s : State) (part : Nat) : List (Nat × Launch) → State
  | [] => s
  | (n, l) :: r =>
    (if l.part = part ∧ l.st ≠ .ended then
      let s := s.abortWord n
      let p := s.part part
      (s.setLaunch n { s.launch n with st := .ended }).setPart part { p with ended := (n :: p.ended).take 256 }
    else s).abortLaunches part r

/-- The queues of a partition enter ERROR with code 3. -/
def State.abortQueues (s : State) (part : Nat) : List Nat → State
  | [] => s
  | q :: r =>
    let x := s.queue q
    (if x.part = part then s.setQueue q { x with st := 2, err := 3 } else s).abortQueues part r

/-- The interface leaves RUN (R401). -/
def State.leaveRun (s : State) (part : Nat) : State :=
  if (s.part part).tdisp = .run then
    let s := (s.setPart part { s.part part with tdisp := .error, stopped := true }).serveHx
    let s := (s.abortQueues part (List.range 64)).abortOps part s.ops
    let gone (id : Nat) : Bool := (Tbl.find? s.ops id).isNone
    let s := { s with
      clusters := s.clusters.map fun (e : Nat × Cluster) =>
        (e.1, if e.2.arrayQ.all fun id => !gone id then e.2
          else (e.2.withQueue (e.2.arrayQ.filter fun id => !gone id) s.time.toNat).emptied s.time.toNat)
      rasterQ := s.rasterQ.map fun (e : Nat × List Nat) => (e.1, e.2.filter fun id => !gone id) }
    ((s.abortTeams part).abortSlots part).abortLaunches part s.launches
  else s

/-- STOP_INTERFACE: the response comes last. -/
def execStopInterface (part : Nat) (s : State) : Host.Outcome State Fault Refusal :=
  .next ((s.leaveRun part).reply { part := part, code := 8 })

def execIdeIntegrityFailure (part : Nat) (s : State) : Host.Outcome State Fault Refusal :=
  .next (State.leaveRun s part)

/-- A cluster of a partition, zeroed: only its clock, its owner, the requests of the power controller and firmware's scale
stay, and the rows that are on: their ramp-down goes on (R205). -/
def Cluster.scrub (c : Cluster) : Cluster :=
  { part := c.part, fwMhz := c.fwMhz, clockBase := c.clockBase, clockAt := c.clockAt, mhz := c.mhz, mthr := c.mthr
    rows := c.rows, rowsAt := c.rowsAt
    reqCap := c.reqCap, reqRamp := c.reqRamp, reqThermal := c.reqThermal, reqFw := c.reqFw, reqAt := c.reqAt
    energyScale := c.energyScale, grantPart := c.grantPart, replayGen := c.replayGen }

/-- Whether a byte is in the HBM range of a partition, or in a lodged page of one of its contexts. -/
def Part.holdsKey (p : Part) (k : Nat) : Bool :=
  match keyKind k with
  | 0 => decide (p.hbmLo ≤ keyPlace k) && decide (keyPlace k < p.hbmHi)
  | 2 => p.hasCtx (keyPlace k / 2 ^ 57)
  | _ => false

/-- The stores of the launches of a partition. -/
def State.dropAllStores (s : State) (part : Nat) : List (Nat × Launch) → State
  | [] => s
  | (n, l) :: r => (if l.part = part then s.dropStores n else s).dropAllStores part r

/-- The stores of the keepers of a partition's clusters. -/
def State.dropKeeperStores (s : State) (part : Nat) : List (Nat × Cluster) → State
  | [] => s
  | (cl, c) :: r => (if c.part = part then s.dropStores (keeperLaunch cl) else s).dropKeeperStores part r

/-- The registers of a partition, zeroed: what firmware has assigned to it stays, with its state, its session, a drain of its
stacks, and PENRG, which never decreases (R403, R404). -/
def Part.scrub (p : Part) : Part :=
  { ctxlo := p.ctxlo, ctxhi := p.ctxhi, hbmLo := p.hbmLo, hbmHi := p.hbmHi, lquota := p.lquota, ways := p.ways
    peert := p.peert, peern := p.peern, limits := p.limits, penrg := p.penrg, tdisp := p.tdisp, session := p.session
    beatPeriod := p.beatPeriod, beatAt := p.beatAt, hdrain := p.hdrain, hdie := p.hdie, hstack := p.hstack
    hdone := p.hdone, hddl := p.hddl }

/-- Everything that a partition held is zero (R403). -/
def State.scrub (s : State) (part : Nat) : State :=
  let p := s.part part
  let mine (cl : Nat) : Bool := s.owns part cl
  let myTeam (t : Nat) : Bool := (s.launch (s.team t).launch).part == part
  let s := (s.dropAllStores part s.launches).dropKeeperStores part s.clusters
  let s := s.setPart part p.scrub
  let s := s.dropVeils p.holdsKey
  { s with
    ops := s.ops.filter fun (e : Nat × Op) => !s.opIn part e.2
    rays := s.rays.filter fun (e : Nat × RayLane) => !myTeam (e.1 / 1024)
    teams := s.teams.filter fun (e : Nat × Team) => !myTeam e.1
    slots := s.slots.filter fun (e : Nat × Slot) => !mine (slotCluster e.1)
    cores := s.cores.filter fun (e : Nat × Core) => !mine (e.1 / 16)
    clusters := s.clusters.map fun (e : Nat × Cluster) => (e.1, if e.2.part = part then e.2.scrub else e.2)
    caches := (s.caches.filter fun (e : Nat × Tbl Copy) => !mine (cacheCluster e.1)).map fun (e : Nat × Tbl Copy) =>
      (e.1, e.2.filter fun (c : Nat × Copy) => !p.holdsKey c.1)
    mem := s.mem.filter fun (e : Host.Cell) => !p.holdsKey e.1
    poison := s.poison.filter fun (e : Nat × Bool) => !p.holdsKey e.1
    lines := s.lines.filter fun (e : Nat × Line) => !p.holdsKey e.1
    lpages := s.lpages.filter fun (e : Nat × LPage) => !p.holdsKey e.1
    hxHeld := s.hxHeld.filter fun r => r.part != part
    msixHeld := s.msixHeld.filter fun (e : Nat × Nat) => e.1 != part
    launches := s.launches.filter fun (e : Nat × Launch) => e.2.part != part }

/-- A queue of a partition that re-enters CONFIG_UNLOCKED (R336). -/
def State.unlockQueues (s : State) (part : Nat) : List Nat → State
  | [] => s
  | q :: r =>
    let x := s.queue q
    (if x.part = part then
      s.setQueue q (if x.err = 3 then { x with en := false, st := 0, err := 0, rd := x.wr, head := none }
        else { x with head := none })
    else s).unlockQueues part r

/-- CONFIG_UNLOCK. -/
def execConfigUnlock (part : Nat) (s : State) : Host.Outcome State Fault Refusal :=
  if (s.part part).tdisp = .unlocked ∨ (s.part part).tdisp = .run then .next s
  else
    let s := (s.scrub part).unlockQueues part (List.range 64)
    .next (s.setPart part { s.part part with tdisp := .unlocked })

/-! ## SPDM (R400) -/

def State.steward (s : State) (die : Nat) : Steward := Tbl.get s.stewards {} die

/-- The digest of the image that runs. -/
def Steward.digest (x : Steward) : Nat := Tbl.get x.digests 0 x.active

/-- What the configuration of a partition is measured over: what firmware has assigned to it. -/
def IfReport.words (r : IfReport) : List Nat :=
  [r.ctxlo, r.ctxhi, r.hbmLo, r.hbmHi, r.clusters.length, r.queues.length] ++ r.clusters ++ r.queues
    ++ (List.range 4).map (Tbl.get r.ways 0) ++ (List.range 4).map fun d => (Tbl.get r.lquota 0 d).toNat

/-- The measurements that a partition's owner gets: the digests of the firmware of every die, and of the configuration. -/
def State.measurements (s : State) (part : Nat) : List Nat :=
  ((List.range s.dies).map fun d => (s.steward d).digest) ++ [Config.configDigest (s.interfaceReport part).words]

/-- GET_MEASUREMENTS. -/
def execGetMeasurements (part : Nat) (s : State) : Host.Outcome State Fault Refusal :=
  .next (s.reply { part := part, code := 1, digests := s.measurements part })

/-- KEY_EXCHANGE: the owner sets the period of the heartbeat. -/
def execKeyExchange (k : KeyRef) (s : State) : Host.Outcome State Fault Refusal :=
  let p := s.part k.part
  if p.session = .none then
    .next ((s.setPart k.part { p with session := .exchanged, beatPeriod := k.period }).reply { part := k.part, code := 2 })
  else .next s

def execFinish (part : Nat) (s : State) : Host.Outcome State Fault Refusal :=
  let p := s.part part
  if p.session = .exchanged then
    .next ((s.setPart part { p with session := .established, beatAt := s.time.toNat }).reply { part := part, code := 3 })
  else .next s

def execHeartbeat (part : Nat) (s : State) : Host.Outcome State Fault Refusal :=
  let p := s.part part
  if p.session = .established then
    .next ((s.setPart part { p with beatAt := s.time.toNat }).reply { part := part, code := 4 })
  else .next s

/-- The session is over, and the interface leaves RUN. -/
def State.expireSession (s : State) (part : Nat) : State :=
  (s.setPart part { s.part part with session := .none }).leaveRun part

/-- Two periods without a heartbeat. -/
def execSessionExpiry (part : Nat) (s : State) : Host.Outcome State Fault Refusal :=
  let p := s.part part
  if p.session = .established ∧ p.beatPeriod ≠ 0 ∧ p.beatAt + 2 * p.beatPeriod ≤ s.time.toNat then
    .next (s.expireSession part)
  else .next s

def execKeyUpdate (part : Nat) (ok : Bool) (s : State) : Host.Outcome State Fault Refusal :=
  if (s.part part).session = .none then .next s
  else if ok then .next (s.reply { part := part, code := 5 })
  else .next (s.expireSession part)

def execSessionEnd (part : Nat) (s : State) : Host.Outcome State Fault Refusal :=
  if (s.part part).session = .none then .next s else .next (State.expireSession s part)

end Sys2Proof.Machine
end

