-- ==== Sys2Proof/Machine/Power.lean ====
section
/-! DEFINITION. Power, throttle and clock (R9, R405, R406), energy (R408, R409), errors and poison (R372, R410, R411),
replacement (R412 to R414), firmware, reset and checkpoints (R415 to R417). -/

namespace Sys2Proof.Machine

/-! ## Clocks (R9, R405) -/

/-- A cluster at a clock: CLOCK goes on from its value now. -/
def State.setMhz (s : State) (cl mhz : Nat) : State :=
  let now := s.clock cl
  s.modCluster cl fun c => { c with clockBase := now, clockAt := s.time.toNat, mhz := mhz }

/-- The clock that a cluster has: firmware's, half of it while the clamp is on. -/
def State.applyClock (s : State) (cl : Nat) : State :=
  let f := (s.cluster cl).fwMhz
  s.setMhz cl (if s.power.clamped then f / 2 else f)

def State.applyClocks (s : State) : List Nat → State
  | [] => s
  | cl :: r => (s.applyClock cl).applyClocks r

def State.setClamp (s : State) (b : Bool) : State :=
  if s.power.clamped = b then s
  else ({ s with power := { s.power with clamped := b } } : State).applyClocks s.enabled

/-- CLOCK_CLAMP: the 1 ms average of package power. -/
def execClockClamp (pwr : Nat) (s : State) : Host.Outcome State Fault Refusal :=
  let s := { s with power := { s.power with pwr := pwr % 0x10000 } }
  if s.power.most < pwr then .next (s.setClamp true)
  else if pwr < s.power.most - 100 then .next (s.setClamp false)
  else .next s

/-- FIRMWARE_CLOCK_CHANGE: at most the full clock of 3.0 GHz. -/
def execFirmwareClockChange (cl mhz : Nat) (s : State) : Host.Outcome State Fault Refusal :=
  .next ((s.modCluster cl fun c => { c with fwMhz := Nat.min 3000 mhz }).applyClock cl)

/-! ## Throttle steps (R204, R406) -/

/-- The largest request. -/
def Cluster.request (c : Cluster) : Nat := Nat.max (Nat.max c.reqThermal c.reqCap) (Nat.max c.reqRamp c.reqFw)

/-- Its source: thermal, power cap, current ramp, firmware; 0 with no request. -/
def Cluster.cause (c : Cluster) : Nat :=
  let m := c.request
  if m = 0 then 0 else if c.reqThermal = m then 3 else if c.reqCap = m then 1 else if c.reqRamp = m then 2 else 4

/-- Requests changed; the cycle is kept in which the largest did. -/
def State.setRequests (s : State) (cl : Nat) (f : Cluster → Cluster) : State :=
  let c := s.cluster cl
  let c' := f c
  s.setCluster cl (if c'.request = c.request then c' else { c' with reqAt := s.clock cl })

def State.setAllRequests (s : State) (f : Cluster → Cluster) : List Nat → State
  | [] => s
  | cl :: r => (s.setRequests cl f).setAllRequests f r

/-- MTHR with a step and a cause; a new step counts in CHG. -/
def mthrWith (m : W32) (step cause : Nat) : W32 :=
  let chg := if bits m.toNat 2 0 = step then bits m.toNat 31 16 else (bits m.toNat 31 16 + 1) % 0x10000
  BitVec.ofNat 32 (chg * 0x10000 + cause * 1024 + bits m.toNat 9 8 * 256 + step)

/-- THROTTLE_STEP_CHANGE: from the first cycle that is a multiple of 8 after the cycle of the change. -/
def execThrottleStepChange (cl : Nat) (s : State) : Host.Outcome State Fault Refusal :=
  let c := s.cluster cl
  if c.reqAt / 8 < s.clock cl / 8 then .next (s.setCluster cl { c with mthr := mthrWith c.mthr c.request c.cause })
  else .next s

/-- Whether a time since the last change of the cap request has passed. -/
def State.capDue (s : State) (last ns : Nat) : Bool := last == 0 || decide (last + ns ≤ s.time.toNat + 1)

/-- CAP_REQUEST_RAISE: the 100 us average of package power. -/
def execCapRequestRaise (pwr : Nat) (s : State) : Host.Outcome State Fault Refusal :=
  if s.power.pcap < pwr ∧ s.capDue s.power.raisedAt 10000 = true then
    let s := s.setAllRequests (fun c => { c with reqCap := Nat.min 7 (c.reqCap + 1) }) s.enabled
    .next { s with power := { s.power with raisedAt := s.time.toNat + 1 } }
  else .next s

/-- CAP_REQUEST_LOWER: the 1 ms average. -/
def execCapRequestLower (pwr : Nat) (s : State) : Host.Outcome State Fault Refusal :=
  let s := { s with power := { s.power with pwr := pwr % 0x10000 } }
  if 100 * pwr < 95 * s.power.pcap ∧ s.capDue s.power.loweredAt 100000 = true then
    let s := s.setAllRequests (fun c => { c with reqCap := c.reqCap - 1 }) s.enabled
    .next { s with power := { s.power with loweredAt := s.time.toNat + 1 } }
  else .next s

/-- THERMAL_LIMIT: the die reached firmware's limit, or is below it again. -/
def execThermalLimit (die : Nat) (hot : Bool) (s : State) : Host.Outcome State Fault Refusal :=
  .next (s.setAllRequests (fun c => { c with reqThermal := if hot then 7 else 0 }) (s.enabledOn die))

/-- THERMAL_TRIP: the die issues nothing more until a package reset. -/
def execThermalTrip (die : Nat) (s : State) : Host.Outcome State Fault Refusal :=
  .next (if s.tripped.contains die then s else { s with tripped := s.tripped ++ [die] })

/-! ## Energy (R408, R409) -/

/-- Energy in uJ with no launch to charge: to the partition that owns the cluster. -/
def State.chargeNone (s : State) (cl uj : Nat) : State :=
  let p := (s.cluster cl).part
  s.setPart p { s.part p with penrg := (s.part p).penrg + BitVec.ofNat 64 uj }

/-- Energy in uJ that a cluster charges to a launch, and to its partition (log 89); array tells that its array spent it. A
launch that has ended keeps its final value (R409). -/
def State.charge (s : State) (cl n uj : Nat) (array : Bool) : State :=
  match Tbl.find? s.launches n with
  | none => s.chargeNone cl uj
  | some l =>
    if l.st = .resident then
      let add (t : Tbl W64) : Tbl W64 := Tbl.set t 0 cl (Tbl.get t 0 cl + BitVec.ofNat 64 uj)
      let s := s.setPart l.part { s.part l.part with penrg := (s.part l.part).penrg + BitVec.ofNat 64 uj }
      s.setLaunch n { l with
        energy := l.energy + BitVec.ofNat 64 uj, shares := add l.shares
        arrayShares := if array then add l.arrayShares else l.arrayShares }
    else s.chargeNone cl uj

/-- Static energy, divided among launches in proportion to LSSZ, as long as each has its own part; what the division leaves
goes to none. total is the sum of the LSSZ. -/
def State.chargeStatic (s : State) (cl uj total : Nat) : List Nat → State
  | [] => s
  | n :: r =>
    (s.charge cl n (uj * (s.launch n).lsBytes / total) false).chargeStatic cl uj total r

/-- The static energy of a cluster in 1 us: its resident launches share it. -/
def State.chargeRest (s : State) (cl uj : Nat) : State :=
  let ns := (s.cluster cl).ctx.map fun e => e.2
  let sizes := ns.map fun n => (s.launch n).lsBytes
  let total := sizes.sum
  if total = 0 then s.chargeNone cl uj
  else
    let given := (sizes.map fun b => uj * b / total).sum
    (s.chargeStatic cl uj total ns).chargeNone cl (uj - given)

/-- One estimate charged, after firmware's scale (R408). -/
def State.chargeUse (s : State) (cl : Nat) : Energy → State
  | .array uj =>
    let uj := uj * (s.cluster cl).energyScale / 1000
    match (s.cluster cl).grant with
    | none => s.chargeNone cl uj
    | some n => s.charge cl n uj true
  | .work none uj => s.chargeNone cl (uj * (s.cluster cl).energyScale / 1000)
  | .work (some n) uj => s.charge cl n (uj * (s.cluster cl).energyScale / 1000) false
  | .static uj => s.chargeRest cl (uj * (s.cluster cl).energyScale / 1000)

def State.charges (s : State) (cl : Nat) : List Energy → State
  | [] => s
  | e :: r => (s.chargeUse cl e).charges cl r

/-- ENERGY_UPDATE: the activity of 1 us, as the cluster's model estimates it. -/
def execEnergyUpdate (cl : Nat) (uses : List Energy) (s : State) : Host.Outcome State Fault Refusal :=
  .next (s.charges cl uses)

/-- ENERGY_RESCALE: the scale of later intervals, in thousandths. -/
def execEnergyRescale (cl scale : Nat) (s : State) : Host.Outcome State Fault Refusal :=
  .next (s.modCluster cl fun c => { c with energyScale := scale })

/-! ## Errors (R372, R410, R411) -/

/-- An uncorrectable error in a lodged line: POISON, its record, and one to the poison queue of core 0 of the cluster that
detects it. -/
def State.poisonLine (s : State) (cl k : Nat) : State :=
  let line := keyBlock 256 k
  if (Tbl.find? s.lines line).isNone then s
  else
    let ctx := keyPlace line / 2 ^ 57
    let va := signedPlace (keyPlace line % 2 ^ 57)
    let s := s.setPoison line true
    match s.partOf ctx with
    | none => s
    | some p =>
      (s.postFault cl (FaultRec.mk p (BitVec.ofNat 64 va) ctx 6 0 0 0)).postPoison cl va

/-- Whether an address of a context lies in the 256-byte line of HBM that holds a physical address, by its leaf. -/
def State.onLine (s : State) (part ctx va place : Nat) : Bool :=
  match s.leafOf part ctx va with
  | some (level, _, e) => leafType e == 0 && leafOffset level e va / 256 == place / 256
  | none => false

/-- The Waymark entries whose leaves lie in a line of HBM are dropped on every cluster (R226, R411). -/
def State.dropWaymarkAt (s : State) (place : Nat) : State :=
  let on (c : Cluster) (e : WmEntry) : Bool :=
    match Tbl.find? c.ctx e.lc with
    | some n =>
      let l := s.launch n
      s.onLine l.part l.ctx e.ta.toNat place || s.onLine l.part l.ctx e.ia.toNat place
    | none => false
  { s with clusters := s.clusters.map fun (x : Nat × Cluster) => (x.1, { x.2 with waymark := x.2.waymark.filter fun e => !on x.2 e.2 }) }

/-- Sectors of HBM that the patrol could not correct, with the records of R226; the poison record names the physical line,
since no access has named another address (DEDUCED, log 84). -/
def State.patrolled (s : State) (det : Nat) (places : List Nat) : State :=
  let place := places.headD 0
  let s := places.foldl (fun (s : State) a => s.setPoison (keyHbm a) true) s
  { (s.dropWaymarkAt place).postPoison det place with ras := s.ras ++ [(RasKind.poison, place / 256 * 256)] }

/-- The sectors of a 256-byte line. -/
def lineSectors (a : Nat) : List Nat := (List.range 8).map fun i => a / 256 * 256 + 32 * i

/-- An uncorrectable error in storage, by the kind and the place of what it hit. 0: a sector of HBM; 1: a word of local store;
2: a lodged line; 3 and 5: a word of the Loft, an element of a bank (place 2^32 times the cluster, plus the number of the word
or the element); 4: a record in a Drover (place 2^32 times the cluster, 2^20 times the launch, its index among the held);
6: a register of a slot; 7: a register of a team. det is the cluster that detects it. -/
def State.hardError (s : State) (det addr : Nat) : State :=
  let place := keyPlace addr
  let cl := place / 2 ^ 32
  let n := place % 2 ^ 32
  match keyKind addr with
  | 0 => s.setPoison addr true
  | 1 => s.setPoison addr true
  | 2 => s.poisonLine det addr
  | 3 => s.modCluster cl fun c => { c with loftPoison := Tbl.set c.loftPoison false n true }
  | 4 => s.modDrover cl (n / 2 ^ 20) fun d =>
      { d with held := d.held.modify (n % 2 ^ 20) fun (h : Held) => { h with record := { h.record with bad := true } } }
  | 5 => s.modCluster cl fun c => { c with bankPoison := Tbl.set c.bankPoison false n true }
  | 6 => if (s.slot place).st = .free ∨ (s.slot place).st = .trapped then s else s.keeperTrap place 27 0
  | _ =>
    match Tbl.find? s.teams place with
    | some t => if t.st = .retiring ∨ t.st = .retired then s else s.killTeam place 0xFFFB
    | none => s

/-- Every partition leaves ATTACHED as the host link goes down (R393). -/
def State.detachAll (s : State) : State :=
  { s with parts := s.parts.map fun (e : Nat × Part) => (e.1, e.2.detached 0 s.time.toNat) }

/-- The host link without a path is down (R393); what goes over another link that has none becomes unresolvable when it is
tried (R396, R414). -/
def State.afterLink (s : State) (n : Nat) : State := if n = hostLink ∧ s.linkUp n = false then s.detachAll else s

/-- What an error does where it is found (R410). A parity error drops an entry, which is built anew, whether or not it was
correctable; a corrected error elsewhere does nothing. -/
def State.placeError (s : State) (det : Nat) (corrected : Bool) : ErrorPlace → State
  | .leaf cl idx => s.modCluster cl fun c => { c with tlb := c.tlb.eraseIdx idx }
  | .waymark cl idx => s.modCluster cl fun c => { c with waymark := Tbl.erase c.waymark idx }
  | .replay token => s.retryToken token
  | .storage key => if corrected then s else s.hardError det key
  | .l2 a => if corrected then s else (lineSectors a).foldl (fun (s : State) a => s.setPoison (keyHbm a) true) s
  | .cached cache key => if corrected then s else s.uncache cache fun k => keyBlock 256 k == keyBlock 256 key
  | .link n => if corrected then s else ({ s with deadLinks := n :: s.deadLinks } : State).afterLink n

/-- The place of an error in its RAS record, whose layout is firmware's. -/
def placeNumber : ErrorPlace → Nat
  | .storage key => key
  | .l2 a => keyHbm a
  | .leaf cl _ => cl
  | .waymark cl _ => cl
  | .replay token => token
  | .cached _ key => key
  | .link n => n

/-- ECC_ERROR: each error sends a RAS record. -/
def execEccError (e : ErrorRef) (corrected : Bool) (s : State) : Host.Outcome State Fault Refusal :=
  .next (({ s with ras := s.ras ++ [(RasKind.ecc, placeNumber e.place)] } : State).placeError e.cl corrected e.place)

/-- PATROL_SCRUB: a sector of HBM, a line of the L2 or a lodged line found bad. -/
def execPatrolScrub (e : ErrorRef) (bad : Bool) (s : State) : Host.Outcome State Fault Refusal :=
  if bad = false then .next s
  else
    match e.place with
    | .l2 a => .next (s.patrolled e.cl (lineSectors a))
    | .storage k =>
      match keyKind k with
      | 0 => .next (s.patrolled e.cl [keyPlace k])
      | 2 => .next { s.poisonLine e.cl k with ras := s.ras ++ [(RasKind.poison, k)] }
      | _ => .next s
    | _ => .next s

/-! ## A cluster retired (R412) -/

/-- A table under other keys. -/
def rekey {α : Type} (f : Nat → Nat) (t : Tbl α) : Tbl α := t.foldl (fun u e => Tbl.put u (f e.1) e.2) []

/-- The key of a byte of a keeper's own local store that moves with its cluster. -/
def moveKey (a b k : Nat) : Nat :=
  if keyKind k = 1 ∧ keyPlace k / 0x10000000 = keeperLaunch a then
    (keyPlace k % 0x10000000 + keeperLaunch b * 0x10000000) * 8 + 1
  else k

/-- The number of a thing of one cluster, n of them in each, on another. -/
def moveNo (n a b k : Nat) : Nat := if k / n = a then b * n + k % n else k

def Poster.move (a b : Nat) : Poster → Poster
  | .post k => .post (moveNo 256 a b k)
  | .mig k => .mig (moveNo 256 a b k)
  | p => p

def Drover.move (a b : Nat) (d : Drover) : Drover :=
  { d with waiting := d.waiting.map fun (w : WaitRec) => { w with poster := w.poster.move a b } }

/-- A cluster as it stands on the spare: its Waymark table and its translation cache start empty. -/
def Cluster.move (a b : Nat) (c : Cluster) : Cluster :=
  { c with
    waymark := [], tlb := []
    drover := c.drover.map fun (e : Nat × Drover) => (e.1, e.2.move a b) }

/-- Party and launch of something of a keeper's. -/
def Party.move (a b : Nat) : Party → Party
  | .slot k => .slot (moveNo 256 a b k)
  | p => p

def Slot.move (a b : Nat) (x : Slot) : Slot :=
  { x with launch := if x.launch = some (keeperLaunch a) then some (keeperLaunch b) else x.launch }

def Launch.move (a b : Nat) (l : Launch) : Launch :=
  { l with
    grid := l.grid.map fun c => if c = a then b else c
    shares := rekey (moveNo 1 a b) l.shares, arrayShares := rekey (moveNo 1 a b) l.arrayShares }

/-- Everything of cluster a on cluster b. -/
def State.moveCluster (s : State) (a b : Nat) : State :=
  { s with
    clusters := Tbl.put (Tbl.erase s.clusters a) b ((s.cluster a).move a b)
    cores := rekey (moveNo 16 a b) (s.cores.filter fun e => e.1 / 16 != b)
    slots := rekey (moveNo 256 a b) ((s.slots.filter fun e => slotCluster e.1 != b).map fun (e : Nat × Slot) =>
      (e.1, if slotCluster e.1 = a then e.2.move a b else e.2))
    teams := s.teams.map fun (e : Nat × Team) => (e.1, if e.2.cl = a then { e.2 with cl := b } else e.2)
    ops := s.ops.map fun (e : Nat × Op) => (e.1, { e.2 with party := e.2.party.move a b })
    launches := s.launches.map fun (e : Nat × Launch) => (e.1, e.2.move a b)
    mem := rekey (moveKey a b) s.mem
    fe := rekey (moveKey a b) s.fe
    poison := rekey (moveKey a b) s.poison
    veils := s.veils.map fun (v : Veil) => { v with old := rekey (moveKey a b) v.old }
    arrivals := rekey (moveKey a b) s.arrivals
    phases := rekey (moveKey a b) s.phases
    caches := s.caches.filter fun e => cacheCluster e.1 != a && cacheCluster e.1 != b
    enabled := s.enabled.map fun c => if c = a then b else c
    spares := s.spares.filter fun c => c != b }

/-- Whether a launch has a party on a cluster. -/
def State.partyOn (s : State) (cl n : Nat) : Bool :=
  (s.teams.any fun (e : Nat × Team) => e.2.cl == cl && e.2.launch == n && e.2.st != .retired)
    || (s.slots.any fun (e : Nat × Slot) => slotCluster e.1 == cl && slotIndex e.1 != 15 && e.2.launch == some n)
    || (s.cluster cl).hasThread n
    || s.cores.any fun (e : Nat × Core) => e.1 / 16 == cl && e.2.hasFrame n

def State.killOn (s : State) (cl : Nat) : List Nat → State
  | [] => s
  | n :: r => (if s.partyOn cl n then s.killLaunch n 0xFFFA else s).killOn cl r

/-- Records of a cluster that cannot be read are dropped as it is retired, and counted in DROP (R35, R412). -/
def State.dropUnreadable (s : State) (cl : Nat) : State :=
  (s.cluster cl).drover.foldl (fun (s : State) (e : Nat × Drover) =>
    s.dropRecords cl e.1 (e.2.accepted.filter fun h => h.record.bad)) s

/-- Teams that cannot be read end with 0xFFFA, threads as by xslot RELEASE (R412). -/
def State.endTeams (s : State) (cl : Nat) (ts : List Nat) : State :=
  ts.foldl (fun (s : State) t =>
    let tm := s.team t
    if tm.cl ≠ cl ∨ tm.st = .retiring ∨ tm.st = .retired ∨ (Tbl.find? s.teams t).isNone then s else s.killTeam t 0xFFFA) s

def State.endThreads (s : State) (cl : Nat) (ks : List Nat) : State :=
  ks.foldl (fun (s : State) k =>
    if slotCluster k ≠ cl ∨ slotIndex k = 15 then s
    else (s.drainStores k).setSlot k { (s.slot k).freed with reserved := false, saved := none }) s

/-- The state of a cluster that cannot be read ends its owners. -/
def State.endUnreadable (s : State) (cl : Nat) (r : SpareRef) : State :=
  ((s.dropUnreadable cl).endTeams cl r.teams).endThreads cl r.slots

/-- CLUSTER_RETIRE: to a spare of the same die; with none free, the launches on the cluster are killed and it is
disabled. -/
def execClusterRetire (cl : Nat) (spare : SpareRef) (s : State) : Host.Outcome State Fault Refusal :=
  if s.enabled.contains cl = false then .next s
  else if s.spares.contains spare.cl = true ∧ dieOf spare.cl = dieOf cl then
    .next { (s.endUnreadable cl spare).moveCluster cl spare.cl with ras := s.ras ++ [(RasKind.cluster, cl)] }
  else if s.spares.any fun c => dieOf c == dieOf cl then .next s
  else
    let s := s.killOn cl ((s.cluster cl).ctx.map fun e => e.2)
    .next { s with enabled := s.enabled.filter fun c => c != cl, ras := s.ras ++ [(RasKind.cluster, cl)] }

/-! ## Draining a stack of HBM (R413) -/

/-- Firmware starts a drain in every partition whose range meets the stack. -/
def State.startDrain (s : State) (n : Nat) : State :=
  let lo := n * 0xC00000000
  let s := { s with
    hbmStacks := Tbl.set s.hbmStacks 0 n 1
    parts := s.parts.map fun (e : Nat × Part) =>
      (e.1, if e.2.hbmLo < lo + 0xC00000000 ∧ lo < e.2.hbmHi then
        { e.2 with hdrain := 1, hdie := n / 2, hstack := n % 2, hdone := false } else e.2) }
  s.checkDrain n

/-- HDRAIN written by a partition. -/
def State.drainDone (s : State) (part : Nat) (v : W64) : State :=
  let p := s.part part
  if v.getLsbD 61 && p.hdrain == 1 then (s.setPart part { p with hdone := true }).checkDrain p.stackNo else s

/-- HDRAIN_DONE. -/
def execHdrainDone (part : Nat) (v : W64) (s : State) : Host.Outcome State Fault Refusal :=
  s.asked part (.next (s.drainDone part v))

/-- HBM_STACK_RETURN: from OFFLINE to RETURNING, and from there back into service. -/
def execHbmStackReturn (stack : Nat) (s : State) : Host.Outcome State Fault Refusal :=
  match Tbl.get s.hbmStacks 0 stack with
  | 2 => .next { s.drainers stack (fun p => { p with hdrain := 3 }) with hbmStacks := Tbl.set s.hbmStacks 0 stack 3 }
  | 3 =>
    let s := s.drainers stack fun p => { p with hdrain := 0, hdone := false }
    let s := ({ s with hbmStacks := Tbl.erase s.hbmStacks stack } : State).wakeSilent.serveHx
    .next ((Tbl.keys s.clusters).foldl State.flushFaults s)
  | _ => .next s

/-- HDRAIN_DEADLINE: TIME has passed HDDL before every partition was done. -/
def execHdrainDeadline (part : Nat) (s : State) : Host.Outcome State Fault Refusal :=
  let p := s.part part
  if p.hdrain = 1 ∧ p.hddl < s.time then
    let s' := s.drainers p.stackNo fun p => { p with hdrain := 0, hdone := false }
    .next { s' with hbmStacks := Tbl.erase s.hbmStacks p.stackNo }
  else .next s

/-- LINK_LANE_FAILURE: a retrain, in which a spare lane takes the place of one that has failed; no flit is lost. -/
def execLinkLaneFailure (link lane : Nat) (s : State) : Host.Outcome State Fault Refusal :=
  let lanes := Tbl.get s.links [] link
  .next (({ s with
    links := Tbl.put s.links link (if lanes.contains lane then lanes else lanes ++ [lane])
    ras := s.ras ++ [(RasKind.link, link * 64 + lane)] } : State).afterLink link)

/-! ## Firmware (R415) -/

def State.setSteward (s : State) (die : Nat) (x : Steward) : State := { s with stewards := Tbl.put s.stewards die x }

/-- Every session gets a measurement-change event. -/
def State.measured (s : State) : List (Nat × Part) → State
  | [] => s
  | (p, x) :: r => (if x.session = .established then s.reply { part := p, code := 6, digests := s.measurements p } else s).measured r

/-- What bring-up finds in a slot that an image was written to (R416). -/
def BringUp.setSlot (b : BringUp) (slot : Nat) (verified : Bool) : BringUp :=
  { b with slots := if verified then b.slots.filter fun n => n != slot else slot :: b.slots.filter fun n => n != slot }

/-- FIRMWARE_UPDATE: the image lands in the inactive slot, and is activated when its signature and its version pass. A device
that has enumerated without partitions takes nothing but a signed image. -/
def execFirmwareUpdate (die : Nat) (image : List Byte) (version : Nat) (signed : Bool) (s : State) :
    Host.Outcome State Fault Refusal :=
  let x := s.steward die
  let slot := 1 - x.active
  let y := { x with digests := Tbl.put x.digests slot (Config.imageDigest image), versions := Tbl.put x.versions slot version }
  let passes := signed && decide (x.counter ≤ version)
  if s.recovery = true ∧ signed = false then .next s
  else
    let s := { s with bringUp := s.bringUp.setSlot (2 * die + slot) passes }
    if passes then
      .next ((s.setSteward die { y with active := slot, since := s.time.toNat, healthy := false }).measured s.parts)
    else .next (s.setSteward die y)

/-- FIRMWARE_HEALTH_TIMEOUT: 10 s without a report. -/
def execFirmwareHealthTimeout (die : Nat) (s : State) : Host.Outcome State Fault Refusal :=
  let x := s.steward die
  if x.healthy = false ∧ x.since + 10000000000 ≤ s.time.toNat then
    .next ((s.setSteward die { x with active := 1 - x.active, since := s.time.toNat, healthy := true }).measured s.parts)
  else .next s

/-- ROLLBACK_COUNTER_ADVANCE: after 24 h of health. -/
def execRollbackCounterAdvance (die : Nat) (s : State) : Host.Outcome State Fault Refusal :=
  let x := s.steward die
  if x.healthy ∧ x.since + 86400000000000 ≤ s.time.toNat then
    .next (s.setSteward die { x with counter := Nat.max x.counter (Tbl.get x.versions 0 x.active) })
  else .next s

/-! ## Bring-up (R416) -/

/-- The firmware slot that a die boots from: the active one where it verifies, else the other; none where both fail. -/
def State.bootSlot (s : State) (die : Nat) : Option Nat :=
  let a := (s.steward die).active
  let good (i : Nat) : Bool := !s.bringUp.slots.contains (2 * die + i)
  if good a then some a else if good (1 - a) then some (1 - a) else none

/-- The clusters of a die that pass their test. -/
def State.goodClusters (s : State) (die : Nat) : List Nat :=
  ((List.range (s.package.clusters + 4)).map fun c => die * 64 + c).filter fun c => !s.bringUp.clusters.contains c

/-- Whether a die has what a variant asks of it: itself, both stacks, and the clusters (R10; DEDUCED, log 88). -/
def State.dieServes (s : State) (v : Variant) (die : Nat) : Bool :=
  !s.bringUp.dies.contains die && !s.bringUp.hbm.contains (2 * die) && !s.bringUp.hbm.contains (2 * die + 1)
    && decide (v.clusters ≤ (s.goodClusters die).length)

/-- The variant that the package presents: the one it was built as, or of an X4 the X2 that its first two dies make; none where
it can present no variant (DEDUCED, log 88). -/
def State.variant (s : State) : Option Variant :=
  let serves (v : Variant) : Bool := (List.range v.dies).all (s.dieServes v)
  if serves s.package then some s.package else if s.package = .x4 ∧ serves .x2 = true then some .x2 else none

/-- The state that bring-up reaches. -/
def State.broughtUp (s : State) : State :=
  let ds := List.range s.package.dies
  match (if ds.all fun d => (s.bootSlot d).isSome then s.variant else none) with
  | some v =>
    { v.reset with
      enabled := (List.range v.dies).flatMap fun d => (s.goodClusters d).take v.clusters
      spares := (List.range v.dies).flatMap fun d => (s.goodClusters d).drop v.clusters
      stewards := s.stewards.map fun (e : Nat × Steward) => (e.1, { e.2 with active := (s.bootSlot e.1).getD e.2.active }) }
  | none => { Variant.x4.reset with caps := 0, enabled := [], spares := [], recovery := true, stewards := s.stewards }

/-- PACKAGE_RESET: the package after bring-up (R1, R15, R416). What is not the package's stays: memories of the host and of
peers, the safe tier, what the package was built as and what its parts do; so do the agenda and the supply of free values
(MODEL, log 88). -/
def execPackageReset (s : State) : Host.Outcome State Fault Refusal :=
  .next { s.broughtUp with
    agenda := s.agenda, fresh := s.fresh, tier := s.tier, tierPoison := s.tierPoison
    package := s.package, bringUp := s.bringUp, links := s.links
    mem := s.mem.filter fun c => decide (3 ≤ keyKind c.1)
    poison := s.poison.filter fun c => decide (3 ≤ keyKind c.1) }

/-! ## Checkpoints (R417) -/

/-- Whether an operation is of a partition that a checkpoint quiets. -/
def State.opQuiesced (s : State) (o : Op) : Bool :=
  match o.party with
  | .team t => s.quiesced (s.launch (s.team t).launch).part
  | .slot k => s.quiesced (s.cluster (slotCluster k)).part
  | .none => false

/-- Whether a user thread is at rest: not in a slot, trapped, or waiting for room in the Drover. -/
def Slot.atRest (x : Slot) : Bool :=
  match x.st, x.wait with
  | .free, _ => true
  | .trapped, _ => true
  | .parked, .post _ => true
  | .parked, .mig => true
  | _, _ => false

/-- Whether no team and no thread of the partitions that take part can act, nothing of them is in flight, and their queues
are empty. -/
def State.quiet (s : State) : Bool :=
  (s.ops.all fun (e : Nat × Op) => !s.opQuiesced e.2)
    && (s.teams.all fun (e : Nat × Team) =>
      !s.quiesced (s.launch e.2.launch).part || e.2.st == .parkedOff || e.2.st == .admitting || e.2.st == .retired)
    && s.slots.all fun (e : Nat × Slot) =>
      !s.quiesced (s.cluster (slotCluster e.1)).part || (e.2.sendQ.isEmpty && (slotIndex e.1 == 15 || e.2.atRest))

/-- Whether a user thread can be held between two of its instructions. -/
def Slot.holdable (x : Slot) : Bool :=
  match x.st, x.wait with
  | .ready, _ => true
  | .waiting, _ => true
  | .parked, .fe _ _ _ _ => true
  | .parked, .join _ _ => true
  | _, _ => false

/-- A thread of a partition that is quieted goes to a FREE entry of its Cloakroom, which is HELD then; its slot stays reserved
for it, as after a save and VACATE (R319, R375; DEDUCED, log 55). -/
def State.holdThread (s : State) (k : Nat) : State :=
  let x := s.slot k
  let cl := slotCluster k
  let c := s.cluster cl
  if slotIndex k = 15 ∨ s.quiesced c.part = false ∨ x.holdable = false then s
  else
    match c.freeEntry with
    | none => s
    | some e =>
      let area := (c.cloakArea e).toNat
      match (s.drainStores k).tryWrite cl (s.slot (keeperOf k)).launchNo area (x.area ++ toBytes 8 0) with
      | none => s
      | some s =>
        (s.setSlot k { x.freed with reserved := true, launch := x.launch, range := x.range, saved := some (BitVec.ofNat 64 area, x.events) }).modCluster cl
          fun c => { c with cloak := Tbl.put c.cloak e .held, areaLaunch := Tbl.put c.areaLaunch area x.launchNo }

/-- Teams leave their engines and threads their slots. -/
def State.quiesce (s : State) : State :=
  let s := { s with teams := s.teams.map fun (e : Nat × Team) =>
    (e.1, if s.quiesced (s.launch e.2.launch).part then e.2.askYield else e.2) }
  (Tbl.keys s.slots).foldl State.holdThread s

/-- Whether every die has a peer port with a path to the tier: the eight ports by the dies, in order (DEDUCED, log 55). -/
def State.portsUp (s : State) : Bool :=
  let n := 8 / Nat.max 1 s.dies
  (List.range s.dies).all fun d => (List.range n).any fun i => s.linkUp (portLink (d * n + i))

/-- CHECKPOINT. The first asks every partition that takes part to rest; once all is quiet HBM is on its way to the safe tier,
and the next tells that the tier has acknowledged every byte, poison with it: the work goes on as restores and keepers let
it (R383). -/
def execCheckpoint (s : State) : Host.Outcome State Fault Refusal :=
  match s.checkpoint with
  | none => .next ({ s with checkpoint := some { out := s.checkpointOut } } : State).quiesce
  | some c =>
    if c.streaming then
      if s.portsUp then
        .next { s with
          tier := s.mem.filter fun c => keyKind c.1 == 0, tierPoison := s.poison.filter fun c => keyKind c.1 == 0
          checkpoint := none }
      else .next s
    else
      let s := s.quiesce
      .next (if s.quiet then { s with checkpoint := some { c with streaming := true } } else s)

/-! ## Snoops (R384) -/

/-- CXL_CACHE_SNOOP: the host writes its line, and no cache of the device keeps a copy of it. -/
def execCxlCacheSnoop (addr : Nat) (bytes : List Byte) (s : State) : Host.Outcome State Fault Refusal :=
  let gone (k : Nat) : Bool := keyKind k == 3 && decide (addr ≤ keyPlace k) && decide (keyPlace k < addr + bytes.length)
  let s := { s with caches := s.caches.map fun (e : Nat × Tbl Copy) => (e.1, e.2.filter fun c => !gone c.1) }
  .next (s.hostWrite (keyHost addr) addr bytes)

end Sys2Proof.Machine
end

