-- ==== Sys2Proof/Machine/Registers.lean ====
section
/-! DEFINITION. The memory-mapped registers: what a write does (R5, R335, R360, R363, R387, R388, R404, R413), what a read
gives, and what firmware gives (R309, R335, R360, R387, R404 to R408). -/

namespace Sys2Proof.Machine

/-! ## Translation and attach blocks (R360, R387) -/

/-- TWAKE: the ring is read again in any case (R362), and the action acts (R363); actions 5 to 7 do no more. -/
def State.twake (s : State) (part : Nat) (v : W64) : Host.Outcome State Fault Refusal :=
  let token := bits v.toNat 31 0
  match bits v.toNat 34 32 with
  | 0 => execTwakeRetry part token s
  | 1 => execTwakeFail part token s
  | 2 => execTwakeRetryctx part (bits v.toNat 47 36) s
  | 3 => execTwakeLate part token s
  | 4 => execTwakeDrop part token s
  | _ => execFaultQueueRecheck part s

def State.writeTranslation (s : State) (part off : Nat) (v : W64) : Host.Outcome State Fault Refusal :=
  let p := s.part part
  match off with
  | 0x00 => .next (s.setPart part { p with ctxbase := v })
  | 0x10 => s.twake part v
  | 0x18 => .next (s.setPart part { p with tinva := v })
  | 0x20 => execTinvcShootdown part v s
  | 0x30 => .next (s.setPart part { p with tmiga := v })
  | 0x38 => execTmigcMigrate part v s
  | 0x40 => .next (s.setPart part { p with lfbase := v })
  | 0x48 => .next (s.setPart part { p with lfctl := v.setWidth 32 &&& 0xF })
  | 0x4C => .next (s.setPart part { p with lfwr := v.setWidth 32 })
  | _ => .next s

/-- The launch that LEND names: consumed and not ended, the latest of its number in the queue. -/
def State.lent (s : State) (part queue number : Nat) : Option Nat :=
  (List.find? (fun (e : Nat × Launch) =>
    e.2.part == part && e.2.queue == queue && e.2.number == number && e.2.st != .ended) s.launches.reverse).map fun e => e.1

def State.writeLend (s : State) (part : Nat) (v : W64) : Host.Outcome State Fault Refusal :=
  match s.lent part (bits v.toNat 21 16) (bits v.toNat 63 48), bits v.toNat 1 0 with
  | some n, 0 => execLendDrain part n s
  | some n, 1 => execLendKill part n s
  | _, _ => .next s

/-- ATTCTL: the ATS bit, then BEGIN, then COMMIT. -/
def State.writeAttctl (s : State) (part : Nat) (v : W64) : Host.Outcome State Fault Refusal :=
  let s := s.setPart part { s.part part with ats := v.getLsbD 10 }
  match (if v.getLsbD 8 then execAttachBegin part s else .next s) with
  | .next s => if v.getLsbD 9 then execAttachCommit part s else .next s
  | o => o

/-- SVCA and SVCC of service ring i. -/
def Part.writeSvc (p : Part) (i : Nat) (ctl : Bool) (v : W64) : Part :=
  let r := Tbl.get p.svcs {} i
  if ctl then { p with svcs := Tbl.put p.svcs i { r with en := v.getLsbD 15, msiv := bits v.toNat 10 0 } }
  else if r.en then p
  else { p with svcs := Tbl.put p.svcs i { r with addr := v &&& 0x00FFFFFFFFFFFFC0 } }

def Part.writeDoor (p : Part) (i : Nat) (v : W64) : Part :=
  { p with doors := Tbl.put p.doors i (Door.mk (v.getLsbD 63) (bits v.toNat 43 32) (bits v.toNat 15 0)) }

def State.writeAttach (s : State) (part off : Nat) (v : W64) : Host.Outcome State Fault Refusal :=
  let p := s.part part
  if off = 0x00 then .next (s.setPart part { p with owner := v })
  else if off = 0x08 then s.writeAttctl part v
  else if off = 0x10 then execAttachClaim part v s
  else if off = 0x18 then s.writeLend part v
  else if 0x40 ≤ off ∧ off < 0xC0 ∧ off % 8 = 0 then
    .next (s.setPart part (p.writeSvc ((off - 0x40) / 16) (off % 16 == 8) v))
  else if 0xC0 ≤ off ∧ off < 0x100 ∧ off % 8 = 0 then .next (s.setPart part (p.writeDoor ((off - 0xC0) / 8) v))
  else .next s

/-! ## Power block (R404) -/

/-- PCAP: partition 0 alone writes it, between 1,200 W and the most that the package may take, 2,400 W on an X4. -/
def Power.setCap (p : Power) (v : W64) : Power := { p with pcap := Nat.max 1200 (Nat.min p.most (bits v.toNat 15 0)) }

/-- IRAMP and LSLEW, which firmware writes. -/
def Power.setRamp (p : Power) (v : W64) : Power :=
  { p with rampUp := Nat.max 4 (bits v.toNat 7 0), rampDn := Nat.max 4 (bits v.toNat 15 8) }
def Power.setSlew (p : Power) (v : W64) : Power :=
  if bits v.toNat 31 16 = 0 then p else { p with slew := bits v.toNat 31 16 }

def State.writePower (s : State) (part off : Nat) (v : W64) : Host.Outcome State Fault Refusal :=
  match off with
  | 0x00 => .next (if part = 0 then { s with power := s.power.setCap v } else s)
  | 0x20 => .next (s.drainDone part v)
  | 0x30 => .next (s.setPart part { s.part part with leq := some (bits v.toNat 21 16, bits v.toNat 15 0) })
  | _ => .next s

/-! ## Queues (R335) -/

def State.writeQueue (s : State) (part q off : Nat) (v : W64) : Host.Outcome State Fault Refusal :=
  match off with
  | 0x00 =>
    .next (if s.reaches part q = false ∨ (s.queue q).en = true then s else s.setQueue q { s.queue q with base := v })
  | 0x08 => execQueueEnable (QueueRef.mk part q) (v.setWidth 32) s
  | 0x10 => execQueueDoorbell (QueueRef.mk part q) (v.setWidth 32) s
  | _ => .next s

/-! ## Firmware -/

/-- What firmware gives the keeper of a core (R309). -/
def State.writeImage (s : State) (core off : Nat) (v : W64) : State :=
  let seg (high : Bool) : State := s.modCore core fun c =>
    let n := (off - 32) / 2
    let g := Tbl.get c.fwSg 0 n
    let g' : W128 := if high then v ++ g.extractLsb' 0 64 else g.extractLsb' 64 64 ++ v
    { c with fwSg := Tbl.set c.fwSg 0 n (segStored g') }
  if off = 0 then s.modCore core fun c => { c with fwPc := v }
  else if off < 32 then s.modCore core fun c => { c with fwX := Tbl.set c.fwX 0 off v }
  else if off < 48 then seg (off % 2 == 1)
  else if off = 48 then s.modCluster (core / 16) fun c => { c with fwCtx := bits v.toNat 11 0 }
  else if off = 49 then s.modCluster (core / 16) fun c => { c with fwLaunch := if v = 0 then none else some v.toNat }
  else s

/-- A limit that firmware sets: all ones for none. -/
def limitOf (v : W64) : Option Nat := if v = 0xFFFFFFFFFFFFFFFF then none else some v.toNat

def State.setLimits (s : State) (part prio : Nat) (f : Limits → Limits) : State :=
  let p := s.part part
  s.setPart part { p with limits := Tbl.put p.limits prio (f (Tbl.get p.limits {} prio)) }

/-- What firmware assigns to a partition, which it does in CONFIG_UNLOCKED alone (R399). -/
def State.assign (s : State) (part : Nat) (f : Part → Part) : State :=
  let p := s.part part
  if p.tdisp = .unlocked then s.setPart part (f p) else s

/-- A queue or a cluster moves between two partitions that are both in CONFIG_UNLOCKED. -/
def State.unlocked2 (s : State) (a b : Nat) : Bool := (s.part a).tdisp == .unlocked && (s.part b).tdisp == .unlocked

/-- A lodged quota and the ways of the L2: R368 lets firmware take of them while work runs, and R399 gives more only in
CONFIG_UNLOCKED (DEDUCED, log 122). -/
def State.assignQuota (s : State) (part die : Nat) (v : W64) : State :=
  let p := s.part part
  if p.tdisp = .unlocked ∨ v ≤ Tbl.get p.lquota 0 die then s.setQuota part die v else s
def State.assignWays (s : State) (part die v : Nat) : State :=
  let p := s.part part
  if p.tdisp = .unlocked ∨ ((List.range 16).all fun i => !v.testBit i || (Tbl.get p.ways 0 die).testBit i) = true then
    s.setWays part die v
  else s

/-- A number in a list or not. -/
def mark (l : List Nat) (n : Nat) (b : Bool) : List Nat :=
  let r := l.filter fun m => m != n
  if b then n :: r else r

/-- The most that the package may take: firmware scales it on an X2, to no less than the 1,200 W that PCAP always allows
(R10; log 121). -/
def State.setMost (s : State) (v : Nat) : State :=
  if s.package = .x2 then
    let m := Nat.max 1200 v
    { s with power := { s.power with most := m, pcap := Nat.min s.power.pcap m } }
  else s

/-- The fields that only firmware writes, at their places in the device's register space, and after them what firmware
settles without a register (MODEL, log 47): the partition of a queue and of a cluster, a partition's HBM range and ways of the
L2, the ways of a die out of service, the most power of an X2, what the next bring-up finds and the partitions that a checkpoint
leaves out, the aging limit, firmware's and the current ramp's throttle requests, the thermal request, a steward's report of
health, the limits of partition n / 4 at priority n % 4; and the words of the .lstore image that the loader gives with the
record of queue n % 64 and index n / 64 (log 103). -/
def State.writeFirmware (s : State) (n off : Nat) (v : W64) : State :=
  let p := s.part n
  let low := v.toNat
  if 0x2000000 ≤ off then
    { s with images := Tbl.put s.images n (Tbl.set (Tbl.get s.images [] n) 0 ((off - 0x2000000) / 8 % 0x20000) v) }
  else
  match off with
  | 0x20008 => s.assign n fun p => { p with ctxlo := bits low 11 0, ctxhi := bits low 27 16 }
  | 0x20060 => s.assignQuota n 0 v
  | 0x20068 => s.assignQuota n 1 v
  | 0x20070 => s.assignQuota n 2 v
  | 0x20078 => s.assignQuota n 3 v
  | 0x30020 => s.setPart n { p with peert := v &&& 0x00FFFFFFFFFFFFC0 }
  | 0x30028 => s.setPart n { p with peern := bits low 7 0 }
  | 0x40010 => { s with power := s.power.setRamp v }
  | 0x40018 => { s with power := s.power.setSlew v }
  | 0x40020 => s.startDrain (bits low 2 0)
  | 0x40028 => s.setPart n { p with hddl := v }
  | 0x1000000 =>
    if n < 64 ∧ s.unlocked2 (s.queue n).part low = true then s.setQueue n { s.queue n with part := low } else s
  | 0x1000001 =>
    if s.unlocked2 (s.cluster n).part low then s.modCluster n fun c => { c with part := low } else s
  | 0x1000002 => s.assign n fun p => { p with hbmLo := low }
  | 0x1000003 => s.assign n fun p => { p with hbmHi := low }
  | 0x1000005 => { s with aging := low }
  | 0x1000006 => s.setRequests n fun c => { c with reqFw := low % 8 }
  | 0x1000007 => s.setRequests n fun c => { c with reqRamp := low % 8 }
  | 0x1000008 => s.setRequests n fun c => { c with reqThermal := low % 8 }
  | 0x1000009 => s.setSteward n { s.steward n with healthy := true }
  | 0x1000010 => s.setLimits (n / 4) (n % 4) fun m => { m with contexts := limitOf v }
  | 0x1000011 => s.setLimits (n / 4) (n % 4) fun m => { m with clusters := limitOf v }
  | 0x1000020 => s.assignWays n 0 low
  | 0x1000021 => s.assignWays n 1 low
  | 0x1000022 => s.assignWays n 2 low
  | 0x1000023 => s.assignWays n 3 low
  | 0x1000024 => if n < 4 then s.setWaysOut n low else s
  | 0x1000025 => s.setMost low
  | 0x1000026 => { s with bringUp := s.bringUp.setSlot n (low == 0) }
  | 0x1000027 => { s with bringUp := { s.bringUp with hbm := mark s.bringUp.hbm n (low != 0) } }
  | 0x1000028 => { s with bringUp := { s.bringUp with dies := mark s.bringUp.dies n (low != 0) } }
  | 0x1000029 => { s with bringUp := { s.bringUp with clusters := mark s.bringUp.clusters n (low != 0) } }
  | 0x100002A => { s with checkpointOut := mark s.checkpointOut n (low != 0) }
  | 0x1000012 => s.setLimits (n / 4) (n % 4) fun m => { m with lodged := limitOf v }
  | _ => s

/-- REGISTER_WRITE: unit is the core, the partition or the cluster. The registers of queue q stand at 0x40 x q of the
queue block, which unit, a partition's interface, reaches where the queue is its own (R335). A write of the host that comes
after the interface has left RUN is refused (R402). -/
def execRegisterWrite (blk : RegBlock) (unit off : Nat) (v : W64) (s : State) : Host.Outcome State Fault Refusal :=
  match blk with
  | .keeper => .next (s.keeperWrite unit off v v)
  | .queue => s.asked unit (s.writeQueue unit (off / 0x40) (off % 0x40) v)
  | .translation => s.asked unit (s.writeTranslation unit off v)
  | .attach => s.asked unit (s.writeAttach unit off v)
  | .power => s.asked unit (s.writePower unit off v)
  | .keeperImage => .next (s.writeImage unit off v)
  | .firmware => .next (s.writeFirmware unit off v)

/-! ## Reads -/

/-- The energy that LEV reads: of the launch that the last LEQ names, while it is resident, or of one of the last 256 that
ended; all ones for any other. -/
def State.lev (s : State) (p : Part) (part : Nat) : W64 :=
  match p.leq with
  | none => 0xFFFFFFFFFFFFFFFF
  | some (q, lnum) =>
    let named (l : Launch) : Bool := l.queue == q && l.number == lnum && l.part == part
    match List.find? (fun (e : Nat × Launch) => named e.2 && e.2.st == .resident) s.launches with
    | some e => e.2.energy
    | none =>
      match p.ended.find? fun n => named (s.launch n) with
      | some n => (s.launch n).energy
      | none => 0xFFFFFFFFFFFFFFFF

/-- LUSE: carried and allocated lodged lines of a partition on a die. -/
def State.luse (s : State) (part die : Nat) : Nat :=
  let alloc := (s.lines.filter fun e => e.2.home == die && (s.part part).hasCtx (keyPlace e.1 / 2 ^ 57)).length
  s.carried part die % 2 ^ 24 * 2 ^ 24 + alloc % 2 ^ 24

def State.readTranslation (s : State) (part off : Nat) : W64 :=
  let p := s.part part
  if off = 0x00 then p.ctxbase
  else if off = 0x08 then BitVec.ofNat 64 (p.ctxhi * 0x10000 + p.ctxlo)
  else if off = 0x18 then p.tinva
  else if off = 0x20 then p.tinvc
  else if off = 0x28 then BitVec.ofNat 64 (p.mres.toNat * 2 + p.busy.toNat)
  else if off = 0x30 then p.tmiga
  else if off = 0x38 then p.tmigc
  else if off = 0x40 then p.lfbase
  else if off = 0x48 then p.lfctl.setWidth 64
  else if off = 0x4C then p.lfwr.setWidth 64
  else if off = 0x50 then p.lfrd.setWidth 64
  else if 0x60 ≤ off ∧ off < 0x80 ∧ off % 8 = 0 then Tbl.get p.lquota 0 ((off - 0x60) / 8)
  else if 0x80 ≤ off ∧ off < 0xA0 ∧ off % 8 = 0 then BitVec.ofNat 64 (s.luse part ((off - 0x80) / 8))
  else 0

def State.readAttach (s : State) (part off : Nat) : W64 :=
  let p := s.part part
  if off = 0x00 then p.owner
  else if off = 0x08 then BitVec.ofNat 64 (p.ats.toNat * 1024 + p.attach.toNat)
  else if off = 0x20 then p.peert
  else if off = 0x28 then BitVec.ofNat 64 p.peern
  else if 0x40 ≤ off ∧ off < 0xC0 ∧ off % 8 = 0 then
    let r := Tbl.get p.svcs {} ((off - 0x40) / 16)
    if off % 16 = 0 then r.addr else BitVec.ofNat 64 (r.gen * 0x10000 + r.en.toNat * 0x8000 + r.msiv)
  else if 0xC0 ≤ off ∧ off < 0x100 ∧ off % 8 = 0 then
    let i := (off - 0xC0) / 8
    let d := Tbl.get p.doors {} i
    BitVec.ofNat 64 (d.en.toNat * 2 ^ 63 + (s.boundLaunch part i).isSome.toNat * 2 ^ 62 + d.ctx * 2 ^ 32 + d.lnum)
  else 0

def State.readPower (s : State) (part off : Nat) : W64 :=
  let p := s.part part
  let w := s.power
  match off with
  | 0x00 => BitVec.ofNat 64 w.pcap
  | 0x08 => BitVec.ofNat 64 (w.clamped.toNat * 2 ^ 31 + (s.tripped != []).toNat * 2 ^ 30 + w.pwr)
  | 0x10 => BitVec.ofNat 64 (0x40000 + w.rampDn * 256 + w.rampUp)
  | 0x18 => BitVec.ofNat 64 (w.slew * 0x10000 + w.rowAmps)
  | 0x20 => BitVec.ofNat 64 (p.hdrain.toNat * 2 ^ 62 + p.hdie * 2 + p.hstack)
  | 0x28 => p.hddl
  | 0x38 => s.lev p part
  | 0x40 => p.penrg
  | _ => 0

def State.readQueue (s : State) (part q off : Nat) : W64 :=
  let x := s.queue q
  if s.reaches part q = false then 0 else
  match off with
  | 0x00 => x.base
  | 0x08 => BitVec.ofNat 64 (x.en.toNat * 2 ^ 31 + x.prio * 2 ^ 29 + x.peerOk.toNat * 2 ^ 28 + x.log2n * 2 ^ 24 + x.ctx * 2 ^ 12)
  | 0x10 => x.wr.setWidth 64
  | 0x14 => x.rd.setWidth 64
  | 0x18 => BitVec.ofNat 64 (x.gen * 0x10000 + x.err * 256 + x.state)
  | _ => 0

/-- What a read of a register gives; write-only fields and offsets without a register read 0. -/
def State.registerRead (s : State) (blk : RegBlock) (unit off : Nat) : W64 :=
  match blk with
  | .keeper => (s.keeperRead unit off).1
  | .queue => s.readQueue unit (off / 0x40) (off % 0x40)
  | .translation => s.readTranslation unit off
  | .attach => s.readAttach unit off
  | .power => s.readPower unit off
  | .keeperImage => 0
  | .firmware => 0

end Sys2Proof.Machine
end

