-- ==== Sys2Proof/Machine/TeamLane.lean ====
section
/-! DEFINITION. Values moved between lanes, votes and reductions (R138 to R142). -/

namespace Sys2Proof.Machine

/-! ## Lane picks (R138) -/

/-- The value of an absolute source lane: zero when it lies beyond the team or is not active. -/
def Team.picked (t : Team) (a src : Nat) : Nat :=
  if src < t.lanes ∧ t.mask.testBit src then (t.vreg src a).toNat else 0

/-- A lane pick: src gives the source position from the lane's own position and the operand's low five bits. -/
def Team.pick (t : Team) (d a : BitVec 7) (operand : Nat → Nat) (src : Nat → Nat → Option Nat) : Team :=
  t.alu false always d.toNat 1 fun l =>
    match src (l % 32) (operand l % 32) with
    | some p => (t.picked a.toNat (l / 32 * 32 + p), 0)
    | none => (0, 0)

def srcIdx (_p k : Nat) : Option Nat := some k
def srcXor (p k : Nat) : Option Nat := some (p ^^^ k)
def srcRot (p k : Nat) : Option Nat := some ((p + k) % 32)
def srcFill (p k : Nat) : Option Nat := if p < k then none else some (p - k)

def execLpickIdx (d a b : BitVec 7) (s : State) : Host.Outcome State Fault Refusal :=
  aluInstr (.lpickIdx d a b) s fun tm => tm.pick d a (fun l => (tm.vreg l b.toNat).toNat) srcIdx

def execLpickXor (d a b : BitVec 7) (s : State) : Host.Outcome State Fault Refusal :=
  aluInstr (.lpickXor d a b) s fun tm => tm.pick d a (fun l => (tm.vreg l b.toNat).toNat) srcXor

def execLpickRot (d a b : BitVec 7) (s : State) : Host.Outcome State Fault Refusal :=
  aluInstr (.lpickRot d a b) s fun tm => tm.pick d a (fun l => (tm.vreg l b.toNat).toNat) srcRot

def execLpickFill (d a b : BitVec 7) (s : State) : Host.Outcome State Fault Refusal :=
  aluInstr (.lpickFill d a b) s fun tm => tm.pick d a (fun l => (tm.vreg l b.toNat).toNat) srcFill

def execLpickiIdx (d a : BitVec 7) (k : BitVec 5) (s : State) : Host.Outcome State Fault Refusal :=
  aluInstr (.lpickiIdx d a k) s fun tm => tm.pick d a (fun _ => k.toNat) srcIdx

def execLpickiXor (d a : BitVec 7) (k : BitVec 5) (s : State) : Host.Outcome State Fault Refusal :=
  aluInstr (.lpickiXor d a k) s fun tm => tm.pick d a (fun _ => k.toNat) srcXor

def execLpickiRot (d a : BitVec 7) (k : BitVec 5) (s : State) : Host.Outcome State Fault Refusal :=
  aluInstr (.lpickiRot d a k) s fun tm => tm.pick d a (fun _ => k.toNat) srcRot

def execLpickiFill (d a : BitVec 7) (k : BitVec 5) (s : State) : Host.Outcome State Fault Refusal :=
  aluInstr (.lpickiFill d a k) s fun tm => tm.pick d a (fun _ => k.toNat) srcFill

/-! ## Votes (R139 to R141) -/

/-- The active lanes that hold predicate p. -/
def Team.votes (t : Team) (p : Nat) : Nat := t.pmask p &&& t.mask

/-- Word w of a lane mask. -/
def maskWord (m w : Nat) : W32 := BitVec.ofNat 32 (m / 2 ^ (32 * w))

def Team.setMaskWords (t : Team) (d m : Nat) : Nat → Team
  | 0 => t
  | n + 1 => (t.setMaskWords d m n).setG (d + n) (maskWord m n)

def execBallot (d : BitVec 7) (p : BitVec 3) (s : State) : Host.Outcome State Fault Refusal :=
  teamInstr (.ballot d p) s fun id tm =>
    if 64 < d.toNat + tm.words then .error (wordTrap s 0x02)
    else .ok (s.retireTeam id (tm.setMaskWords d.toNat (tm.votes p.toNat) tm.words))

def execBcast (d a b : BitVec 7) (s : State) : Host.Outcome State Fault Refusal :=
  aluInstr (.bcast d a b) s fun tm =>
    let l := (tm.greg b.toNat).toNat
    tm.setG d.toNat (if l < tm.lanes then tm.vreg l a.toNat else 0)

/-- agree by mode (R141). -/
def Team.agrees (t : Team) (mode p : Nat) : Bool :=
  let yes := t.active.filter fun l => t.preg l p
  match mode with
  | 0 => decide (yes ≠ [])
  | 1 => decide (yes.length = t.active.length)
  | 2 => decide (yes = []) || decide (yes.length = t.active.length)
  | 3 => decide (yes = [])
  | _ => yes.length % 2 == 1

def execAgree (m : BitVec 4) (g p : BitVec 3) (s : State) : Host.Outcome State Fault Refusal :=
  aluInstr (.agree m g p) s fun tm => tm.setGp g.toNat (tm.agrees m.toNat p.toNat)

/-! ## Reductions (R81, R142) -/

/-- One level of the tree of R81: neighbours combined, an absent node passing the other on. -/
def lredLevel (op : Nat → Nat → Nat × W32) : List (Option Nat) → List (Option Nat) × W32
  | [] => ([], 0)
  | [a] => ([a], 0)
  | a :: c :: r =>
    let (rest, f) := lredLevel op r
    match a, c with
    | none, _ => (c :: rest, f)
    | _, none => (a :: rest, f)
    | some x, some y => (some (op x y).1 :: rest, f ||| (op x y).2)

/-- The tree, level by level; n is at least the levels. -/
def lredTree (op : Nat → Nat → Nat × W32) : Nat → List (Option Nat) → W32 → Option Nat × W32
  | 0, xs, f => (xs.head?.getD none, f)
  | n + 1, xs, f =>
    if xs.length ≤ 1 then (xs.head?.getD none, f)
    else
      let (ys, g) := lredLevel op xs
      lredTree op n ys (f ||| g)

/-- The operations of lred by code, on w bits. -/
def lredOp (w code : Nat) (x y : Nat) : Nat × W32 :=
  let f := if w = 64 then f64 else f32
  match code with
  | 0 => (elAdd w x y, 0)
  | 1 => (elMinS w x y, 0)
  | 2 => (elMinZ w x y, 0)
  | 3 => (elMaxS w x y, 0)
  | 4 => (elMaxZ w x y, 0)
  | 5 => (elAnd w x y, 0)
  | 6 => (elOr w x y, 0)
  | 7 => (elXor w x y, 0)
  | 8 => addCode f x y
  | 9 => minCode f x y
  | _ => maxCode f x y

/-- What lred gives when no lane is active (R142). -/
def lredIdentity (w code : Nat) : Nat :=
  let f := if w = 64 then f64 else f32
  match code with
  | 1 => 2 ^ (w - 1) - 1
  | 2 => 2 ^ w - 1
  | 3 => 2 ^ (w - 1)
  | 5 => 2 ^ w - 1
  | 8 => f.signBit true
  | 9 => f.infCode
  | 10 => f.signBit true + f.infCode
  | _ => 0

/-- The reduction of a team's lanes. -/
def Team.reduce (t : Team) (a k code : Nat) : Nat × W32 :=
  let xs := (List.range t.lanes).map fun l => if t.mask.testBit l then some (t.vregs l a k) else none
  let (r, f) := lredTree (lredOp (32 * k) code) 11 xs 0
  (r.getD (lredIdentity (32 * k) code), f)

def execLred (d a b : BitVec 7) (t : BitVec 2) (s : State) : Host.Outcome State Fault Refusal :=
  aluInstr (.lred d a b t) s fun tm =>
    let r := tm.reduce a.toNat (tCount t) b.toNat
    (tm.setGs d.toNat (tCount t) r.1).raise r.2

end Sys2Proof.Machine
end

