-- ==== Sys2Proof/Machine/Dispatch.lean ====
section
/-! DEFINITION. The dispatch: one arm for each instruction and step, a direct call of its meaning. -/

namespace Sys2Proof.Machine

def exec (i : Instr) (s : State) : Host.Outcome State Fault Refusal :=
  match i with
  | .iadd u d a b t => Sys2Proof.Machine.execIadd u d a b t s
  | .isub u d a b t => Sys2Proof.Machine.execIsub u d a b t s
  | .imul u d a b t => Sys2Proof.Machine.execImul u d a b t s
  | .imulhS u d a b t => Sys2Proof.Machine.execImulhS u d a b t s
  | .imulhZ u d a b t => Sys2Proof.Machine.execImulhZ u d a b t s
  | .iminS u d a b t => Sys2Proof.Machine.execIminS u d a b t s
  | .iminZ u d a b t => Sys2Proof.Machine.execIminZ u d a b t s
  | .imaxS u d a b t => Sys2Proof.Machine.execImaxS u d a b t s
  | .imaxZ u d a b t => Sys2Proof.Machine.execImaxZ u d a b t s
  | .iaddsS u d a b t => Sys2Proof.Machine.execIaddsS u d a b t s
  | .iaddsZ u d a b t => Sys2Proof.Machine.execIaddsZ u d a b t s
  | .isubsS u d a b t => Sys2Proof.Machine.execIsubsS u d a b t s
  | .isubsZ u d a b t => Sys2Proof.Machine.execIsubsZ u d a b t s
  | .iabs u d a t => Sys2Proof.Machine.execIabs u d a t s
  | .ineg u d a t => Sys2Proof.Machine.execIneg u d a t s
  | .icmp u c p a b t => Sys2Proof.Machine.execIcmp u c p a b t s
  | .and u d a b t => Sys2Proof.Machine.execAnd u d a b t s
  | .or u d a b t => Sys2Proof.Machine.execOr u d a b t s
  | .xor u d a b t => Sys2Proof.Machine.execXor u d a b t s
  | .andn u d a b t => Sys2Proof.Machine.execAndn u d a b t s
  | .shl u d a b t => Sys2Proof.Machine.execShl u d a b t s
  | .shrZ u d a b t => Sys2Proof.Machine.execShrZ u d a b t s
  | .shrS u d a b t => Sys2Proof.Machine.execShrS u d a b t s
  | .rotl u d a b t => Sys2Proof.Machine.execRotl u d a b t s
  | .popc u d a t => Sys2Proof.Machine.execPopc u d a t s
  | .clz u d a t => Sys2Proof.Machine.execClz u d a t s
  | .brev u d a t => Sys2Proof.Machine.execBrev u d a t s
  | .mov u d a t => Sys2Proof.Machine.execMov u d a t s
  | .fadd u d a b t => Sys2Proof.Machine.execFadd u d a b t s
  | .fsub u d a b t => Sys2Proof.Machine.execFsub u d a b t s
  | .fmul u d a b t => Sys2Proof.Machine.execFmul u d a b t s
  | .fmin u d a b t => Sys2Proof.Machine.execFmin u d a b t s
  | .fmax u d a b t => Sys2Proof.Machine.execFmax u d a b t s
  | .fabs u d a t => Sys2Proof.Machine.execFabs u d a t s
  | .fneg u d a t => Sys2Proof.Machine.execFneg u d a t s
  | .fcmp u c p a b t => Sys2Proof.Machine.execFcmp u c p a b t s
  | .frcp u d a t => Sys2Proof.Machine.execFrcp u d a t s
  | .frsq u d a t => Sys2Proof.Machine.execFrsq u d a t s
  | .fsqrt u d a t => Sys2Proof.Machine.execFsqrt u d a t s
  | .fexp2 u d a t => Sys2Proof.Machine.execFexp2 u d a t s
  | .flog2 u d a t => Sys2Proof.Machine.execFlog2 u d a t s
  | .fsin u d a t => Sys2Proof.Machine.execFsin u d a t s
  | .fcos u d a t => Sys2Proof.Machine.execFcos u d a t s
  | .frnd u d a m t => Sys2Proof.Machine.execFrnd u d a m t s
  | .fcvt u d a c m => Sys2Proof.Machine.execFcvt u d a c m s
  | .fmac u d a b t => Sys2Proof.Machine.execFmac u d a b t s
  | .fdot2 u d a b t => Sys2Proof.Machine.execFdot2 u d a b t s
  | .imac u d a b t => Sys2Proof.Machine.execImac u d a b t s
  | .idot4 u d a b => Sys2Proof.Machine.execIdot4 u d a b s
  | .lpickIdx d a b => Sys2Proof.Machine.execLpickIdx d a b s
  | .lpickXor d a b => Sys2Proof.Machine.execLpickXor d a b s
  | .lpickRot d a b => Sys2Proof.Machine.execLpickRot d a b s
  | .lpickFill d a b => Sys2Proof.Machine.execLpickFill d a b s
  | .ballot d p => Sys2Proof.Machine.execBallot d p s
  | .bcast d a b => Sys2Proof.Machine.execBcast d a b s
  | .agree m g p => Sys2Proof.Machine.execAgree m g p s
  | .lred d a b t => Sys2Proof.Machine.execLred d a b t s
  | .plog u f d a b => Sys2Proof.Machine.execPlog u f d a b s
  | .pmovToReg u d => Sys2Proof.Machine.execPmovToReg u d s
  | .pmovFromReg u a => Sys2Proof.Machine.execPmovFromReg u a s
  | .hrnd u d a b => Sys2Proof.Machine.execHrnd u d a b s
  | .sread u d a => Sys2Proof.Machine.execSread u d a s
  | .iaddi u d a imm => Sys2Proof.Machine.execIaddi u d a imm s
  | .andi u d a imm => Sys2Proof.Machine.execAndi u d a imm s
  | .ori u d a imm => Sys2Proof.Machine.execOri u d a imm s
  | .xori u d a imm => Sys2Proof.Machine.execXori u d a imm s
  | .shli u d a c => Sys2Proof.Machine.execShli u d a c s
  | .shriZ u d a c => Sys2Proof.Machine.execShriZ u d a c s
  | .shriS u d a c => Sys2Proof.Machine.execShriS u d a c s
  | .rotli u d a c => Sys2Proof.Machine.execRotli u d a c s
  | .imuli u d a imm => Sys2Proof.Machine.execImuli u d a imm s
  | .movi u d imm => Sys2Proof.Machine.execMovi u d imm s
  | .icmpi u c p a imm => Sys2Proof.Machine.execIcmpi u c p a imm s
  | .lpickiIdx d a k => Sys2Proof.Machine.execLpickiIdx d a k s
  | .lpickiXor d a k => Sys2Proof.Machine.execLpickiXor d a k s
  | .lpickiRot d a k => Sys2Proof.Machine.execLpickiRot d a k s
  | .lpickiFill d a k => Sys2Proof.Machine.execLpickiFill d a k s
  | .ldZ8 u d a s1 f o => Sys2Proof.Machine.execLdZ8 u d a s1 f o s
  | .ldS8 u d a s1 f o => Sys2Proof.Machine.execLdS8 u d a s1 f o s
  | .ldZ16 u d a s1 f o => Sys2Proof.Machine.execLdZ16 u d a s1 f o s
  | .ldS16 u d a s1 f o => Sys2Proof.Machine.execLdS16 u d a s1 f o s
  | .ld32 u d a s1 f o => Sys2Proof.Machine.execLd32 u d a s1 f o s
  | .ld64 u d a s1 f o => Sys2Proof.Machine.execLd64 u d a s1 f o s
  | .ld128 u d a s1 f o => Sys2Proof.Machine.execLd128 u d a s1 f o s
  | .st8 u d a s1 f o => Sys2Proof.Machine.execSt8 u d a s1 f o s
  | .st16 u d a s1 f o => Sys2Proof.Machine.execSt16 u d a s1 f o s
  | .st32 u d a s1 f o => Sys2Proof.Machine.execSt32 u d a s1 f o s
  | .st64 u d a s1 f o => Sys2Proof.Machine.execSt64 u d a s1 f o s
  | .st128 u d a s1 f o => Sys2Proof.Machine.execSt128 u d a s1 f o s
  | .ldFe u d a s1 f o => Sys2Proof.Machine.execLdFe u d a s1 f o s
  | .stFe u d a s1 f o => Sys2Proof.Machine.execStFe u d a s1 f o s
  | .feSet u d a s1 f o => Sys2Proof.Machine.execFeSet u d a s1 f o s
  | .ldAcq u d a s1 f e z => Sys2Proof.Machine.execLdAcq u d a s1 f e z s
  | .stRel u d a s1 f e z => Sys2Proof.Machine.execStRel u d a s1 f e z s
  | .atom u d a s1 f k z => Sys2Proof.Machine.execAtom u d a s1 f k z s
  | .atomNr u d a s1 f k z => Sys2Proof.Machine.execAtomNr u d a s1 f k z s
  | .atomCas u d a s1 f z => Sys2Proof.Machine.execAtomCas u d a s1 f z s
  | .pref u a s1 o => Sys2Proof.Machine.execPref u a s1 o s
  | .discard u d a s1 f => Sys2Proof.Machine.execDiscard u d a s1 f s
  | .cmaint u a s1 f k e => Sys2Proof.Machine.execCmaint u a s1 f k e s
  | .ldNc u d a s1 f o => Sys2Proof.Machine.execLdNc u d a s1 f o s
  | .bra p n imm => Sys2Proof.Machine.execBra p n imm s
  | .braU p n imm => Sys2Proof.Machine.execBraU p n imm s
  | .braD p n imm => Sys2Proof.Machine.execBraD p n imm s
  | .div imm => Sys2Proof.Machine.execDiv imm s
  | .call imm => Sys2Proof.Machine.execCall imm s
  | .loop p imm => Sys2Proof.Machine.execLoop p imm s
  | .braAny p n imm => Sys2Proof.Machine.execBraAny p n imm s
  | .braAll p n imm => Sys2Proof.Machine.execBraAll p n imm s
  | .join => Sys2Proof.Machine.execJoin s
  | .ret => Sys2Proof.Machine.execRet s
  | .exit => Sys2Proof.Machine.execExit s
  | .yield => Sys2Proof.Machine.execYield s
  | .nop => Sys2Proof.Machine.execNop s
  | .jmpu a => Sys2Proof.Machine.execJmpu a s
  | .trap c => Sys2Proof.Machine.execTrap c s
  | .sbarArv a => Sys2Proof.Machine.execSbarArv a s
  | .sbarWt a h => Sys2Proof.Machine.execSbarWt a h s
  | .brk => Sys2Proof.Machine.execBrk s
  | .sgnar n g r => Sys2Proof.Machine.execSgnar n g r s
  | .fenceX f t s1 => Sys2Proof.Machine.execFenceX f t s1 s
  | .csrr d n => Sys2Proof.Machine.execCsrr d n s
  | .csrw d n => Sys2Proof.Machine.execCsrw d n s
  | .csrs d n => Sys2Proof.Machine.execCsrs d n s
  | .csrc d n => Sys2Proof.Machine.execCsrc d n s
  | .tpark a d => Sys2Proof.Machine.execTpark a d s
  | .tkill c => Sys2Proof.Machine.execTkill c s
  | .eret => Sys2Proof.Machine.execEret s
  | .rpt l c d a b => Sys2Proof.Machine.execRpt l c d a b s
  | .hdr w a b l h => Sys2Proof.Machine.execHdr w a b l h s
  | .fma u t d a b c gd => Sys2Proof.Machine.execFma u t d a b c gd s
  | .imad u t d a b c gd => Sys2Proof.Machine.execImad u t d a b c gd s
  | .sel u t d a b gd => Sys2Proof.Machine.execSel u t d a b gd s
  | .bfeS u t d a gd len pos => Sys2Proof.Machine.execBfeS u t d a gd len pos s
  | .bfeZ u t d a gd len pos => Sys2Proof.Machine.execBfeZ u t d a gd len pos s
  | .bfi u t d a b gd len pos => Sys2Proof.Machine.execBfi u t d a b gd len pos s
  | .bmix u d a b gd zb sel => Sys2Proof.Machine.execBmix u d a b gd zb sel s
  | .movi32 u d imm => Sys2Proof.Machine.execMovi32 u d imm s
  | .iaddi32 u d a imm => Sys2Proof.Machine.execIaddi32 u d a imm s
  | .fcvtX u d a b di si gd sat mode dst src => Sys2Proof.Machine.execFcvtX u d a b di si gd sat mode dst src s
  | .fclamp u t d a b c gd => Sys2Proof.Machine.execFclamp u t d a b c gd s
  | .lea u d a b gd sx sh => Sys2Proof.Machine.execLea u d a b gd sx sh s
  | .madW u d a b c gd sx => Sys2Proof.Machine.execMadW u d a b c gd sx s
  | .fmaMix u t d a b c gd j imm => Sys2Proof.Machine.execFmaMix u t d a b c gd j imm s
  | .cpy bar d a b c gd f dseg sseg => Sys2Proof.Machine.execCpy bar d a b c gd f dseg sseg s
  | .cpy2d d a b c gd f dseg sseg => Sys2Proof.Machine.execCpy2d d a b c gd f dseg sseg s
  | .cpyMx d a c gd f dseg sseg => Sys2Proof.Machine.execCpyMx d a c gd f dseg sseg s
  | .gath d a gd f z s1 => Sys2Proof.Machine.execGath d a gd f z s1 s
  | .scat d a gd f z s1 => Sys2Proof.Machine.execScat d a gd f z s1 s
  | .mloopIp a gd f => Sys2Proof.Machine.execMloopIp a gd f s
  | .mloopOp a gd f => Sys2Proof.Machine.execMloopOp a gd f s
  | .mloopRw a gd f => Sys2Proof.Machine.execMloopRw a gd f s
  | .mfill a b gd f sp => Sys2Proof.Machine.execMfill a b gd f sp s
  | .mdrain a b gd f sp => Sys2Proof.Machine.execMdrain a b gd f sp s
  | .mzero gd f bank => Sys2Proof.Machine.execMzero gd f bank s
  | .rtrace d a b gd f h s1 => Sys2Proof.Machine.execRtrace d a b gd f h s1 s
  | .rcommit d p gd f => Sys2Proof.Machine.execRcommit d p gd f s
  | .rgen gd f off e h => Sys2Proof.Machine.execRgen gd f off e h s
  | .tclass d a p gd => Sys2Proof.Machine.execTclass d a p gd s
  | .rast a c gd f node => Sys2Proof.Machine.execRast a c gd f node s
  | .emit dl a c gd q node => Sys2Proof.Machine.execEmit dl a c gd q node s
  | .regroup node k => Sys2Proof.Machine.execRegroup node k s
  | .leave a => Sys2Proof.Machine.execLeave a s
  | .nodeq d gd f node => Sys2Proof.Machine.execNodeq d gd f node s
  | .xpost t s1 d => Sys2Proof.Machine.execXpost t s1 d s
  | .xpostn t s1 d => Sys2Proof.Machine.execXpostn t s1 d s
  | .xsend t s1 d => Sys2Proof.Machine.execXsend t s1 d s
  | .xspawnm t s1 d => Sys2Proof.Machine.execXspawnm t s1 d s
  | .xrecv d => Sys2Proof.Machine.execXrecv d s
  | .xwait s1 d => Sys2Proof.Machine.execXwait s1 d s
  | .xevt s1 d => Sys2Proof.Machine.execXevt s1 d s
  | .xmig s1 => Sys2Proof.Machine.execXmig s1 s
  | .xnodeq s1 d => Sys2Proof.Machine.execXnodeq s1 d s
  | .xspawn t s1 d => Sys2Proof.Machine.execXspawn t s1 d s
  | .xrange t s1 d => Sys2Proof.Machine.execXrange t s1 d s
  | .xpop s1 d => Sys2Proof.Machine.execXpop s1 d s
  | .xsplit t s1 d => Sys2Proof.Machine.execXsplit t s1 d s
  | .xjoin s1 d => Sys2Proof.Machine.execXjoin s1 d s
  | .xsteal d => Sys2Proof.Machine.execXsteal d s
  | .xyield s1 => Sys2Proof.Machine.execXyield s1 s
  | .xsdom s1 d => Sys2Proof.Machine.execXsdom s1 d s
  | .xldfe s1 d => Sys2Proof.Machine.execXldfe s1 d s
  | .xstfe t s1 => Sys2Proof.Machine.execXstfe t s1 s
  | .xfeset t s1 => Sys2Proof.Machine.execXfeset t s1 s
  | .xlda e z s1 d => Sys2Proof.Machine.execXlda e z s1 d s
  | .xstr t s1 e z => Sys2Proof.Machine.execXstr t s1 e z s
  | .xdiscard t s1 => Sys2Proof.Machine.execXdiscard t s1 s
  | .xsgnar t s1 n => Sys2Proof.Machine.execXsgnar t s1 n s
  | .xsgrd s1 d => Sys2Proof.Machine.execXsgrd s1 d s
  | .xcmaint k e s1 => Sys2Proof.Machine.execXcmaint k e s1 s
  | .xfence f g c => Sys2Proof.Machine.execXfence f g c s
  | .xfmt t s1 => Sys2Proof.Machine.execXfmt t s1 s
  | .xenergy s1 d => Sys2Proof.Machine.execXenergy s1 d s
  | .xsread s1 d => Sys2Proof.Machine.execXsread s1 d s
  | .xtimer s1 d => Sys2Proof.Machine.execXtimer s1 d s
  | .xslotQuery s1 d => Sys2Proof.Machine.execXslotQuery s1 d s
  | .xslotStop s1 d => Sys2Proof.Machine.execXslotStop s1 d s
  | .xslotRelease s1 d => Sys2Proof.Machine.execXslotRelease s1 d s
  | .xslotOpen s1 d => Sys2Proof.Machine.execXslotOpen s1 d s
  | .xslotClose s1 d => Sys2Proof.Machine.execXslotClose s1 d s
  | .xslotVacate s1 d => Sys2Proof.Machine.execXslotVacate s1 d s
  | .xctxSv t s1 d => Sys2Proof.Machine.execXctxSv t s1 d s
  | .xctxLd t s1 d => Sys2Proof.Machine.execXctxLd t s1 d s
  | .xkret d => Sys2Proof.Machine.execXkret d s
  | .xsgset t s1 n => Sys2Proof.Machine.execXsgset t s1 n s
  | .xtlbi t s1 => Sys2Proof.Machine.execXtlbi t s1 s
  | .xpeek s1 d => Sys2Proof.Machine.execXpeek s1 d s
  | .xpoke t s1 => Sys2Proof.Machine.execXpoke t s1 s
  | .riscvBaseOp op => Sys2Proof.Machine.execRiscvBaseOp op s
  | .fence fm pred succ => Sys2Proof.Machine.execFence fm pred succ s
  | .fenceI => Sys2Proof.Machine.execFenceI s
  | .amo k dbl aq rl rd rs1 rs2 => Sys2Proof.Machine.execAmo k dbl aq rl rd rs1 rs2 s
  | .lr dbl aq rl rd rs1 => Sys2Proof.Machine.execLr dbl aq rl rd rs1 s
  | .sc dbl aq rl rd rs1 rs2 => Sys2Proof.Machine.execSc dbl aq rl rd rs1 rs2 s
  | .ecall => Sys2Proof.Machine.execEcall s
  | .ebreak => Sys2Proof.Machine.execEbreak s
  | .wfi => Sys2Proof.Machine.execWfi s
  | .clauseWaitEnd team => Sys2Proof.Machine.execClauseWaitEnd team s
  | .memAccessComplete op unit => Sys2Proof.Machine.execMemAccessComplete op unit s
  | .deferredErrorArrival op unit => Sys2Proof.Machine.execDeferredErrorArrival op unit s
  | .feWaitServed w => Sys2Proof.Machine.execFeWaitServed w s
  | .feretryExpiry w => Sys2Proof.Machine.execFeretryExpiry w s
  | .sbarWake team => Sys2Proof.Machine.execSbarWake team s
  | .asyncComplete op => Sys2Proof.Machine.execAsyncComplete op s
  | .matEntryExecute cl => Sys2Proof.Machine.execMatEntryExecute cl s
  | .rowGroupEnable cl => Sys2Proof.Machine.execRowGroupEnable cl s
  | .rowGroupDisable cl => Sys2Proof.Machine.execRowGroupDisable cl s
  | .rayTraceComplete op => Sys2Proof.Machine.execRayTraceComplete op s
  | .rasterTriangle die => Sys2Proof.Machine.execRasterTriangle die s
  | .recordAdmit cl ctx => Sys2Proof.Machine.execRecordAdmit cl ctx s
  | .batchTimeout cl ctx node => Sys2Proof.Machine.execBatchTimeout cl ctx node s
  | .launchDrain launch => Sys2Proof.Machine.execLaunchDrain launch s
  | .recordDeadline cl ctx idx => Sys2Proof.Machine.execRecordDeadline cl ctx idx s
  | .teamAdmit cl eng => Sys2Proof.Machine.execTeamAdmit cl eng s
  | .teamRetire team => Sys2Proof.Machine.execTeamRetire team s
  | .slotGrant slot => Sys2Proof.Machine.execSlotGrant slot s
  | .leaveLanePlace team => Sys2Proof.Machine.execLeaveLanePlace team s
  | .frameDispatch slot => Sys2Proof.Machine.execFrameDispatch slot s
  | .stealProbe slot => Sys2Proof.Machine.execStealProbe slot s
  | .messageDelivery idx => Sys2Proof.Machine.execMessageDelivery idx s
  | .xwaitWake slot => Sys2Proof.Machine.execXwaitWake slot s
  | .xjoinWake slot => Sys2Proof.Machine.execXjoinWake slot s
  | .xyieldEnd slot => Sys2Proof.Machine.execXyieldEnd slot s
  | .xtimerExpiry slot => Sys2Proof.Machine.execXtimerExpiry slot s
  | .kpendClear core v => Sys2Proof.Machine.execKpendClear core v s
  | .spillQueuePop core => Sys2Proof.Machine.execSpillQueuePop core s
  | .poisonQueuePop cl => Sys2Proof.Machine.execPoisonQueuePop cl s
  | .cloakroomReadyPop cl => Sys2Proof.Machine.execCloakroomReadyPop cl s
  | .cloakroomEntryFree cl v => Sys2Proof.Machine.execCloakroomEntryFree cl v s
  | .wmpartWrite cl v => Sys2Proof.Machine.execWmpartWrite cl v s
  | .registerWrite blk unit off v => Sys2Proof.Machine.execRegisterWrite blk unit off v s
  | .preemptRequest team => Sys2Proof.Machine.execPreemptRequest team s
  | .teamParkOff team => Sys2Proof.Machine.execTeamParkOff team s
  | .teamRestore team eng => Sys2Proof.Machine.execTeamRestore team eng s
  | .queueDoorbell q v => Sys2Proof.Machine.execQueueDoorbell q v s
  | .queueEnable q v => Sys2Proof.Machine.execQueueEnable q v s
  | .launchConsume q => Sys2Proof.Machine.execLaunchConsume q s
  | .launchPlace grid => Sys2Proof.Machine.execLaunchPlace grid s
  | .launchEnd launch => Sys2Proof.Machine.execLaunchEnd launch s
  | .peerLaunchPacket q peer bytes => Sys2Proof.Machine.execPeerLaunchPacket q peer bytes s
  | .translationWalk cl ctx va write exec => Sys2Proof.Machine.execTranslationWalk cl ctx va write exec s
  | .faultQueueRecheck part => Sys2Proof.Machine.execFaultQueueRecheck part s
  | .twakeRetry part token => Sys2Proof.Machine.execTwakeRetry part token s
  | .twakeFail part token => Sys2Proof.Machine.execTwakeFail part token s
  | .twakeRetryctx part ctx => Sys2Proof.Machine.execTwakeRetryctx part ctx s
  | .twakeLate part token => Sys2Proof.Machine.execTwakeLate part token s
  | .twakeDrop part token => Sys2Proof.Machine.execTwakeDrop part token s
  | .tinvcShootdown part v => Sys2Proof.Machine.execTinvcShootdown part v s
  | .tmigcMigrate part v => Sys2Proof.Machine.execTmigcMigrate part v s
  | .forcedEviction ctx va => Sys2Proof.Machine.execForcedEviction ctx va s
  | .evictwaitDeadline ctx va => Sys2Proof.Machine.execEvictwaitDeadline ctx va s
  | .lendDrain part launch => Sys2Proof.Machine.execLendDrain part launch s
  | .lendKill part launch => Sys2Proof.Machine.execLendKill part launch s
  | .attachBegin part => Sys2Proof.Machine.execAttachBegin part s
  | .attachClaim part v => Sys2Proof.Machine.execAttachClaim part v s
  | .attachCommit part => Sys2Proof.Machine.execAttachCommit part s
  | .reattachTimeout part => Sys2Proof.Machine.execReattachTimeout part s
  | .hostLinkDown part => Sys2Proof.Machine.execHostLinkDown part s
  | .hostDoorAccess part door off write bytes => Sys2Proof.Machine.execHostDoorAccess part door off write bytes s
  | .hostHdmAccess part addr write bytes => Sys2Proof.Machine.execHostHdmAccess part addr write bytes s
  | .atsInvalidation part ctx va => Sys2Proof.Machine.execAtsInvalidation part ctx va s
  | .peerRequest part peer addr write bytes => Sys2Proof.Machine.execPeerRequest part peer addr write bytes s
  | .peerAckTimeout op unit => Sys2Proof.Machine.execPeerAckTimeout op unit s
  | .lockInterface part => Sys2Proof.Machine.execLockInterface part s
  | .startInterface part => Sys2Proof.Machine.execStartInterface part s
  | .stopInterface part => Sys2Proof.Machine.execStopInterface part s
  | .ideIntegrityFailure part => Sys2Proof.Machine.execIdeIntegrityFailure part s
  | .sessionExpiry part => Sys2Proof.Machine.execSessionExpiry part s
  | .configUnlock part => Sys2Proof.Machine.execConfigUnlock part s
  | .getMeasurements part => Sys2Proof.Machine.execGetMeasurements part s
  | .keyExchange part => Sys2Proof.Machine.execKeyExchange part s
  | .finish part => Sys2Proof.Machine.execFinish part s
  | .heartbeat part => Sys2Proof.Machine.execHeartbeat part s
  | .keyUpdate part ok => Sys2Proof.Machine.execKeyUpdate part ok s
  | .capRequestRaise pwr => Sys2Proof.Machine.execCapRequestRaise pwr s
  | .capRequestLower pwr => Sys2Proof.Machine.execCapRequestLower pwr s
  | .clockClamp pwr => Sys2Proof.Machine.execClockClamp pwr s
  | .throttleStepChange cl => Sys2Proof.Machine.execThrottleStepChange cl s
  | .thermalLimit die hot => Sys2Proof.Machine.execThermalLimit die hot s
  | .thermalTrip die => Sys2Proof.Machine.execThermalTrip die s
  | .rampBudgetInterval => Sys2Proof.Machine.execRampBudgetInterval s
  | .energyUpdate cl uj => Sys2Proof.Machine.execEnergyUpdate cl uj s
  | .energyRescale cl scale => Sys2Proof.Machine.execEnergyRescale cl scale s
  | .eccError addr corrected => Sys2Proof.Machine.execEccError addr corrected s
  | .patrolScrub addr bad => Sys2Proof.Machine.execPatrolScrub addr bad s
  | .clusterRetire cl spare => Sys2Proof.Machine.execClusterRetire cl spare s
  | .hdrainDone part v => Sys2Proof.Machine.execHdrainDone part v s
  | .hbmStackReturn stack => Sys2Proof.Machine.execHbmStackReturn stack s
  | .hdrainDeadline part => Sys2Proof.Machine.execHdrainDeadline part s
  | .linkLaneFailure link lane => Sys2Proof.Machine.execLinkLaneFailure link lane s
  | .firmwareUpdate die digest version signed => Sys2Proof.Machine.execFirmwareUpdate die digest version signed s
  | .firmwareHealthTimeout die => Sys2Proof.Machine.execFirmwareHealthTimeout die s
  | .rollbackCounterAdvance die => Sys2Proof.Machine.execRollbackCounterAdvance die s
  | .packageReset => Sys2Proof.Machine.execPackageReset s
  | .checkpoint => Sys2Proof.Machine.execCheckpoint s
  | .keeperRestart core => Sys2Proof.Machine.execKeeperRestart core s
  | .cxlCacheSnoop addr bytes => Sys2Proof.Machine.execCxlCacheSnoop addr bytes s
  | .firmwareClockChange cl mhz => Sys2Proof.Machine.execFirmwareClockChange cl mhz s
  | .sessionEnd part => Sys2Proof.Machine.execSessionEnd part s

end Sys2Proof.Machine
end

