-- ==== Sys2Proof/Machine/Turn.lean ====
section
/-! DEFINITION. Which slot a core issues (R33) and which team an engine issues (R34, R105), fetching and decoding the
instruction (R50, R100, R106 to R108, R111), and what other turns do: time, caches, paths. -/

namespace Sys2Proof.Machine

/-- What a turn comes to: it is over, or an instruction runs at a state. -/
inductive Issue where
  | over (s : State)
  | run (s : State) (i : Instr)

/-- Whether the parties of a cluster may issue: it is enabled, its die has not tripped (R406). -/
def State.issues (s : State) (cl : Nat) : Bool := s.enabled.contains cl && !s.tripped.contains (dieOf cl)

/-! ## Slots -/

/-- A slot that R33 may pick. -/
def State.slotReady (s : State) (k : Nat) : Bool :=
  (s.slot k).st == .ready && decide ((s.slot k).notBefore ≤ s.clock (slotCluster k))

/-- The slot that issues in this cycle of a core, of those it has not tried: the owner of the phase, else the next ready
one. -/
def State.pickSlot (s : State) (cl c : Nat) (tried : List Nat) : Option Nat :=
  let phase := s.clock cl % 16
  ((List.range 16).map fun i => slotNo cl c ((phase + i) % 16)).find? fun k => !tried.contains k && s.slotReady k

/-- Bytes of an instruction of a thread, as a number, through the instruction cache of the cluster's swarms (R7, R240), where
the fetch check allows it; or the state after a fetch that fails or parks: keeper causes 12 and 27. -/
def State.slotFetch (s : State) (k va len : Nat) (l : Bool) : Except State (Nat × State) :=
  let trap (s : State) (code : BitVec 8) : Except State (Nat × State) :=
    .error (s.keeperTrap k code (BitVec.ofNat 64 va))
  match s.fetchRange (slotWho k (s.slot k)) (swarmCodeNo (slotCluster k)) va len l with
  | (.value v, s) => .ok (v, s)
  | (.park token, s) => .error (s.parkSlot k (.fault token 12 (BitVec.ofNat 64 va)))
  | (.stall, s) => .error s
  | (.fail, s) => trap s 12
  | (.poisoned, s) => trap s 27

/-- The fetch check of R50 for the first len bytes at the pc. -/
def State.fetchCheck (s : State) (k len : Nat) : Check × Bool :=
  let x := s.slot k
  checkSearch (s.launch x.launchNo) x.launchNo x.sg needExec x.pc.toNat len 2

/-- The checked bytes of the instruction at the pc, of a length that is known: keeper causes 24, 0, 12 and 27. -/
def State.slotWord (s : State) (k len : Nat) : Except State (Nat × State) :=
  match s.fetchCheck k len with
  | (.violation, _) => .error (s.keeperTrap k 24 (s.slot k).pc)
  | (.misaligned, _) => .error (s.keeperTrap k 0 (s.slot k).pc)
  | (.ok, l) => s.slotFetch k (s.slot k).pc.toNat len l

/-- A decoded word of a thread, of len bytes. -/
def State.slotDecoded (s : State) (k : Nat) (w : W32) (len : Nat) (d : Except DecodeError Instr) : Issue :=
  let s := { s with cur := Cur.mk (.slot k) w 0 len }
  match d with
  | .ok i =>
    .run s (match i with
      | .xslotQuery r _ => pickXslot i ((s.slot k).xreg r)
      | i => i)
  | .error _ => .over (s.keeperTrap k 2 (w.setWidth 64))

/-- Whether the fetch check of R50 fails at the pc for an instruction of a length. -/
def State.barred (s : State) (k len : Nat) : Bool := (s.fetchCheck k len).1 != .ok

/-- The instruction at the pc, of 4 bytes or of 2. -/
def State.issueWord (s : State) (k : Nat) : Issue :=
  match s.slotWord k 4 with
  | .error s => .over s
  | .ok (w, s) => s.slotDecoded k (BitVec.ofNat 32 w) 4 (decodeScalar (BitVec.ofNat 32 w))

def State.issueHalf (s : State) (k : Nat) : Issue :=
  match s.slotWord k 2 with
  | .error s => .over s
  | .ok (h, s) => s.slotDecoded k (BitVec.ofNat 32 h) 2 (decodeC (BitVec.ofNat 16 h))

/-- The next instruction of a thread: a stop that waits comes first; the retire address is not fetched (R23). Its first two
bytes tell its length, and then the segment that holds all its bytes decides (R50, R51): the look at them asks for what one
of the two lengths is allowed. -/
def State.issueSlot (s : State) (k : Nat) : Issue :=
  let x := s.slot k
  if x.stop.isSome then .over (s.takeStop k)
  else if x.pc = Config.retireAddress ∧ slotIndex k ≠ 15 then .over (s.retireThread k)
  else if s.barred k 2 && s.barred k 4 then s.issueHalf k
  else
    match s.slotFetch k x.pc.toNat 2 ((s.fetchCheck k 2).2 || (s.fetchCheck k 4).2) with
    | .error s => .over s
    | .ok (h, s) => if h % 4 = 3 then s.issueWord k else s.issueHalf k

/-- The instructions that may leave their thread as it was: a jump to itself. -/
def mayStandStill : Instr → Bool
  | .riscvBaseOp (.jal _ _) | .riscvBaseOp (.jalr _ _ _) | .riscvBaseOp (.branch _ _ _ _) => true
  | _ => false

/-- Whether a slot did issue: not when its instruction is held, with the thread as it stood (R33): a full send or store queue,
a fence that waits, a request that is held at the port. -/
def Slot.didIssue (x y : Slot) (i : Option Instr) : Bool := !(x == y) || i.any mayStandStill

/-- The access to a peer that is never acknowledged was that of the instruction just issued (R396). -/
def State.settleAck (s : State) (k : Nat) : State :=
  if (s.slot k).unacked then s.modSlot k fun x => { x with unacked := false } else s

/-- A cycle of a core: the slots in the order of R33, until one issues. -/
def State.coreTurn (run : Instr → State → Host.Outcome State Fault Refusal) (cl c : Nat) (s : State) (tried : List Nat) :
    Nat → Host.Outcome State Fault Refusal
  | 0 => .next { s with cur := {} }
  | n + 1 =>
    match s.pickSlot cl c tried with
    | none => .next { s with cur := {} }
    | some k =>
      let on (i : Option Instr) (u : State) : Host.Outcome State Fault Refusal :=
        if (s.slot k).didIssue (u.slot k) i then .next { u.settleAck k with cur := {} } else u.coreTurn run cl c (k :: tried) n
      match s.issueSlot k with
      | .over u => on none u
      | .run u i =>
        match run i u with
        | .next u => on (some i) u
        | .fault r => .fault r
        | .refused r => .refused r

/-! ## Teams -/

/-- The ready teams of an engine. -/
def State.readyTeams (s : State) (cl eng : Nat) : List (Nat × Team) :=
  s.teams.filter fun (e : Nat × Team) => e.2.cl == cl && e.2.eng == eng && e.2.st == .ready

/-- Which of two teams issued longer ago. -/
def olderTeam (a b : Nat × Team) : Bool := decide (a.2.issued < b.2.issued)

/-- The team that comes first in an order. -/
def pickTeam (before : Nat × Team → Nat × Team → Bool) (l : List (Nat × Team)) : Option (Nat × Team) :=
  l.foldl (fun best e =>
    match best with
    | none => some e
    | some b => if before e b then some e else some b) none

/-- Whether a team that yielded still lets others go first (R105). -/
def Team.holdsBack (t : Team) (ready : List (Nat × Team)) (now : Nat) : Bool :=
  decide (now < t.yieldUntil) && ready.any fun e => t.yieldFor.contains e.1

/-- The team that an engine issues, of those it has not tried in this cycle: one that has not issued for 4,096 cycles, the
oldest first; else by priority, the oldest first within one (R34). -/
def State.selectTeam (s : State) (cl eng : Nat) (tried : List Nat) : Option (Nat × Team) :=
  let now := s.clock cl
  let ready := (s.readyTeams cl eng).filter fun e => !tried.contains e.1
  match pickTeam olderTeam (ready.filter fun e => decide (e.2.issued + 4096 ≤ now)) with
  | some e => some e
  | none =>
    pickTeam (fun a b => decide (a.2.prio < b.2.prio) || (a.2.prio == b.2.prio && olderTeam a b))
      (ready.filter fun e => !e.2.holdsBack ready now)

/-- How an issue ends that could not fetch its word. -/
def State.fetchFailed (s : State) (t : Nat) (va : W64) (d : Done) : State :=
  let bad (code : BitVec 8) : State := s.teamTrap t (Trap.mk code 0 0xFFFFFFFF va)
  match d with
  | .value _ => s
  | .park token => s.parkTeam t token va.toNat
  | .stall => s
  | .fail => bad 0x0E
  | .poisoned => bad 0x0C

/-- The clause that holds the instruction executed last: the one in force, or the one that the team has left (R327). -/
def Team.lastClause (t : Team) : Option Clause :=
  match t.clause with
  | some c => if c.hdr.toNat ≤ t.prev.toNat ∧ t.prev.toNat < c.last.toNat then some c else t.prevClause
  | none => t.prevClause

/-- A word that fails its fetch check: cause 0x03 at the instruction before it. -/
def State.fetchViolation (s : State) (t : Nat) (va : W64) : State :=
  let tm := s.team t
  s.teamTrapAt t (Trap.mk 0x03 0 0xFFFFFFFF va) false tm.prev tm.lastClause

/-- The instruction of the words w and v, in the replay that the team is in. -/
def State.teamDecoded (s : State) (t : Nat) (w v : W32) : Issue :=
  let s := { s with cur := Cur.mk (.team t) w v (4 * teamLen w) }
  match decodeTeam w v with
  | .error e =>
    let second : Bool := match e with
      | .reservedField b => b
      | .notZero b => b
      | .uniformField b => b
      | _ => false
    .over (s.teamTrap t (Trap.mk 0x01 (if second then v else w) 0xFFFFFFFF 0))
  | .ok i =>
    match (s.team t).rep with
    | none => .run s i
    | some r =>
      match r.instr i w v with
      | some j => .run s j
      | none => .over (s.teamTrap t (Trap.mk 0x02 (r.badWord i w v) 0xFFFFFFFF 0))

/-- What stands where a clause should begin: a header starts it; another word is illegal (R100), and a wrong pc right after a
restore (R429). -/
def State.notHeader (s : State) (t : Nat) (w : W32) : State :=
  let tm := s.team t
  s.teamTrap t (if tm.resumed then Trap.mk 0x09 0 0xFFFFFFFF tm.pc else Trap.mk 0x01 w 0xFFFFFFFF 0)

/-- Whether an instruction of two words at the pc runs past the end of its clause (R100). -/
def Team.overruns (t : Team) : Bool :=
  match t.clause with
  | some c => decide (c.last.toNat < t.pc.toNat + 8)
  | none => false

/-- The next instruction of a team. At a header of its own a pre-emption is honoured, and a team of a stopped partition
stops (R382, R401). Of a two-word instruction that runs past its clause the first word is the failing one, and the second
is not fetched (R108; DEDUCED, log 113). -/
def State.issueTeam (s : State) (t : Nat) : Issue :=
  let tm := s.team t
  if tm.atBoundary && tm.preempt then .over (s.setTeam t tm.yieldEngine)
  else if tm.atBoundary && (s.part (s.launch tm.launch).part).stopped then .over (s.setTeam t tm.abort)
  else
    match s.fetchWord t tm.pc.toNat with
    | (.violation, s) => .over (s.fetchViolation t tm.pc)
    | (.failed d, s) => .over (s.fetchFailed t tm.pc d)
    | (.word w, s) =>
      if tm.clause.isNone && !isHeader w then .over (s.notHeader t w)
      else
        let s := if tm.resumed then s.setTeam t { s.team t with resumed := false } else s
        if teamLen w = 2 then
          if tm.overruns then .over (s.teamTrap t (Trap.mk 0x01 w 0xFFFFFFFF 0))
          else
            match s.fetchWord t (tm.pc + 4).toNat with
            | (.violation, s) => .over (s.fetchViolation t (tm.pc + 4))
            | (.failed d, s) => .over (s.fetchFailed t (tm.pc + 4) d)
            | (.word v, s) => s.teamDecoded t w v
        else s.teamDecoded t w 0

/-- Whether the instruction that a team has issued was the last of a clause that yields: it has left the clause, or it waits
in its last word (R105). -/
def Team.yields (t : Team) : Bool :=
  t.yielded ||
    match t.clause, t.wait with
    | some c, .sbar _ _ _ => c.hint == 1 && c.last == t.pc + 4
    | some c, .emit => c.hint == 1 && c.last == t.pc + 8
    | _, _ => false

/-- A team that has issued: for R34, and the teams that go before it if it yielded (R105). -/
def State.noteIssue (s : State) (t : Nat) : State :=
  let tm := s.team t
  let now := s.clock tm.cl
  let others := ((s.readyTeams tm.cl tm.eng).map fun e => e.1).filter fun u => u != t
  { s with teams := s.teams.map fun (e : Nat × Team) =>
      if e.1 = t then
        (t, if e.2.yields then { e.2 with issued := now, yielded := false, yieldFor := others, yieldUntil := now + 64 }
          else { e.2 with issued := now })
      else (e.1, { e.2 with yieldFor := e.2.yieldFor.filter fun u => u != t }) }

/-- The end of a turn: no instruction is in hand. -/
def State.endTurn (s : State) : State :=
  let s' := match s.cur.party with
    | .team t => s.noteIssue t
    | _ => s
  { s' with cur := {} }

/-- Whether a team that an engine chose did issue: not when it stalled and stands as it stood (a full counter, a full queue,
an acquire or a fence that waits, R103), nor when it is at a header whose WAIT is not over, and so not ready (R34, R102). -/
def Team.didIssue (t u : Team) : Bool :=
  !(u == t) && u.st != .clauseWait && !(u.st == .parked && u.wait == .none)

/-- A cycle of an engine: the teams in the order of R34, until one issues. -/
def State.engineTurn (run : Instr → State → Host.Outcome State Fault Refusal) (cl eng : Nat) (s : State)
    (tried : List Nat) : Nat → Host.Outcome State Fault Refusal
  | 0 => .next { s with cur := {} }
  | n + 1 =>
    match s.selectTeam cl eng tried with
    | none => .next { s with cur := {} }
    | some (t, tm) =>
      let on (u : State) : Host.Outcome State Fault Refusal :=
        if tm.didIssue (u.team t) then .next u.endTurn else u.engineTurn run cl eng (t :: tried) n
      match ({ s with cur := { party := .team t } } : State).issueTeam t with
      | .over u => on u
      | .run u i =>
        match run i u with
        | .next u => on u
        | .fault r => .fault r
        | .refused r => .refused r

/-! ## Other turns -/

/-- Time passes (R9, R57). -/
def State.passTime (s : State) (ns : Nat) : State := { s with time := s.time + BitVec.ofNat 64 ns }

/-- A cache drops its copy of the 32-byte sector of a byte (R277). -/
def State.dropSector (s : State) (cache k : Nat) : State :=
  { s with caches := s.caches.map fun (e : Nat × Tbl Copy) =>
      if e.1 = cache then (e.1, e.2.filter fun c => keyBlock 32 c.1 != keyBlock 32 k) else e }

/-- A translation cache drops one leaf (R358). -/
def State.dropLeafAt (s : State) (cl i : Nat) : State := s.modCluster cl fun c => { c with tlb := c.tlb.eraseIdx i }

/-- A path comes to see a write, and with it the earlier ones that it meets (R287, R292). -/
def State.revealAt (s : State) (i path : Nat) : State :=
  match s.veils[i]? with
  | some v => s.lift path fun w => w == v
  | none => s

/-- The interrupt of a service ring's doorbell is delivered (R391; log 56). -/
def State.delivered (s : State) (part ring : Nat) : State :=
  let p := s.part part
  let r := Tbl.get p.svcs {} ring
  if r.rung ∧ p.attach = 2 then s.setPart part { p with svcs := Tbl.put p.svcs ring { r with rung := false } } else s

/-- A turn that comes to one instruction, or to none. -/
def Issue.finish (run : Instr → State → Host.Outcome State Fault Refusal) : Issue → Host.Outcome State Fault Refusal
  | .over s => .next s.endTurn
  | .run s i =>
    match run i s with
    | .next s => .next s.endTurn
    | .fault r => .fault r
    | .refused r => .refused r

/-- The next turn of the agenda, where run gives an instruction its meaning. With an empty agenda one nanosecond passes
(log 1). -/
def State.turn (run : Instr → State → Host.Outcome State Fault Refusal) (s : State) :
    Host.Outcome State Fault Refusal :=
  match s.agenda with
  | [] => (Issue.over (s.passTime 1)).finish run
  | t :: r =>
    let s := { s with agenda := r }
    match t with
    | .core cl c =>
      if s.issues cl && !(s.part (s.cluster cl).part).stopped then s.coreTurn run cl c [] 17 else .next s.endTurn
    | .engine cl e => if s.issues cl then s.engineTurn run cl e [] (s.teams.length + 1) else .next s.endTurn
    | .event i => (Issue.run s i).finish run
    | .pass ns => (Issue.over (s.passTime ns)).finish run
    | .dropCopy cache k => (Issue.over (s.dropSector cache k)).finish run
    | .dropLeaf cl i => (Issue.over (s.dropLeafAt cl i)).finish run
    | .reveal i path => (Issue.over (s.revealAt i path)).finish run
    | .interrupt part ring => (Issue.over (s.delivered part ring)).finish run

/-! ## A word placed where the next step fetches it (log 2) -/

/-- Where the word stands: byte 0x1000 of the local store of virtual cluster 0. -/
def fetchAt : Nat := Config.plainBase + 0x1000

/-- A segment with every right over the local store. -/
def fetchSegs : Tbl W128 := [(0, segOf Config.plainBase 0x10000 31)]

/-- The launch whose party fetches: on cluster 0 alone, with a stack spill area of 1 KiB for a team. -/
def fetchLaunch : Launch := { grid := [0], lsBytes := 0x10000, spsz := 0x400 }

/-- A team of 32 lanes and 128 registers that stands at the word: within a clause, or at it when it is a header. -/
def fetchTeam (n : Nat) (header : Bool) : Team :=
  { launch := n, lanes := 32, n := 128, pc := BitVec.ofNat 64 fetchAt, prev := BitVec.ofNat 64 (fetchAt - 4)
    sg := fetchSegs, mask := 2 ^ 32 - 1, live := 2 ^ 32 - 1
    clause := if header then none else some (Clause.mk (BitVec.ofNat 64 (fetchAt - 4)) 0 1 15 0) }

/-- Slot 15 of core 0 of cluster 0, ready at the word, in its own phase. -/
def State.fetchSlot (s : State) (n : Nat) : State :=
  let s := s.modCluster 0 fun c => { c with clockBase := 15, clockAt := s.time.toNat }
  let s := s.modSlot 15 fun x =>
    { x with
      st := .ready, wait := .none, pc := BitVec.ofNat 64 fetchAt, sg := fetchSegs, launch := some n, stop := none
      notBefore := 0 }
  { s with agenda := [.core 0 0] }

/-- The launch, resident on cluster 0, with the word in its local store. -/
def State.placeWord (s : State) (n nbits w : Nat) : State :=
  let s := (s.setLaunch n fetchLaunch).modCluster 0 fun c => { c with ctx := Tbl.put c.ctx 0 n }
  { s.writeBytes (keyLocal n 0 0x1000) (toBytes 8 (w % 2 ^ nbits)) with nextLaunch := n + 1 }

/-- The word of the table placed for the party that runs it. -/
def State.placeFetch (s : State) (nbits w : Nat) : State :=
  let n := s.nextLaunch
  let w1 : W32 := BitVec.ofNat 32 (w % 2 ^ nbits)
  let scalar : Bool := isCustom w1 && decide (nbits ≤ 32) && match decodeScalar w1 with
    | .ok _ => true
    | .error _ => false
  let s := s.placeWord n nbits w
  if scalar then s.fetchSlot n
  else
    { s with
      teams := Tbl.put s.teams s.nextTeam (fetchTeam n (isHeader w1)), nextTeam := s.nextTeam + 1
      agenda := [.engine 0 0] }

end Sys2Proof.Machine
end

