-- ==== Sys2Proof/Machine/Step.lean ====
section
/-! DEFINITION. One step: the next turn of the agenda, and the instruction it comes to. -/

namespace Sys2Proof.Machine

def step (s : State) : Host.Outcome State Fault Refusal := s.turn exec

/-- A state in which the next step fetches the instruction of the bits w (log 2). -/
def State.withFetchWord (s : State) (nbits w : Nat) : State := s.placeFetch nbits w

end Sys2Proof.Machine
end

