-- ==== Sys2Proof/Safety.lean ====
section
/-! DEFINITION. What a claim may call safe: a run that no fault and no refusal ends, in states whose tables are in their
canonical form. -/

namespace Sys2Proof.Machine

/-- The machine goes on from a state. -/
def State.goesOn (s : State) : Prop := ∃ s', step s = .next s'

/-- The tables that hold bytes and bits by address are in their canonical form: keys rise strictly, and no entry equals what
an unlisted one reads as. -/
def State.tablesWf (s : State) : Bool := Memory.wf s.mem && Tbl.wf s.fe false && Tbl.wf s.poison false

end Sys2Proof.Machine
end

