-- ==== Sys2Proof/Certificates/Slice0/Obligations.lean ====
section
/-! DEFINITION. The statements made of the machine, with the words they are made in. A statement about an instruction says
that exec answers a next state and which one: what the instruction changes, and that everything else stays. -/

namespace Sys2Proof.Claims

open Machine

/-! ## Words for instructions of a team -/

/-- Team id runs instruction i, which passes the checks of R108: it is well-formed, and the registers it names exist and
are aligned. -/
def Runs (s : State) (id : Nat) (i : Instr) : Prop :=
  s.cur.party = .team id ∧ i.illIn = none ∧ i.regsBad (s.team id).n = none

/-- The instruction completes: team id is t with control moved on by the instruction's words, and nothing else of the
machine changes. -/
def Completes (s : State) (id : Nat) (i : Instr) (t : Team) : Prop :=
  exec i s = .next (s.setTeam id (t.advance (s.cur.len / 4)))

/-- Of a team, only k registers from d on change, uniform ones (u) or those of the lanes that who names, and the flags fl
are raised. -/
def OnlyRegs (t t' : Team) (u : Bool) (d k : Nat) (who : Nat → Bool) (fl : W32) : Prop :=
  t' = { t with v := t'.v, g := t'.g, tstat := t.tstat ||| fl } ∧
  (∀ l r, r < 128 → ¬ (u = false ∧ who l = true ∧ d ≤ r ∧ r < d + k) → t'.vreg l r = t.vreg l r) ∧
  (∀ r, ¬ (u = true ∧ who 0 = true ∧ d ≤ r ∧ r < d + k) → t'.greg r = t.greg r)

/-- Element e of a value of packed elements of w bits (R62). -/
def elementOf (w e v : Nat) : BitVec w := BitVec.ofNat w (v / 2 ^ (w * e))

/-- An elementwise instruction: form, type, guard, destination, three sources (a repeated one is not read), and the element's
result. -/
structure Elementwise where
  u : Bool
  t : BitVec 2
  gd : Guard
  d : BitVec 7
  a : BitVec 7
  b : BitVec 7
  c : BitVec 7
  f : (w : Nat) → BitVec w → BitVec w → BitVec w → BitVec w

/-- What an elementwise instruction does (R62, R90, R123): in every lane that takes part, each element of d is f of the
elements of the sources as they were, no flag is raised, and nothing else changes but the flow of control. -/
def ElementsAre (s : State) (id : Nat) (i : Instr) (x : Elementwise) : Prop :=
  let tm := s.team id
  let k := tCount x.t
  let w := tWidth x.t
  ∃ tm' : Team, Completes s id i tm' ∧ OnlyRegs tm tm' x.u x.d.toNat k (tm.acts x.u x.gd) 0 ∧
    ∀ l, tm.acts x.u x.gd l = true → ∀ e, e < tElems x.t →
      elementOf w e (tm'.rd x.u l x.d.toNat k) =
        x.f w (elementOf w e (tm.rd x.u l x.a.toNat k)) (elementOf w e (tm.rd x.u l x.b.toNat k))
          (elementOf w e (tm.rd x.u l x.c.toNat k))

/-- The element results of the integer arithmetic (R126, R137). -/
def arith : Instr → Option Elementwise
  | .iadd u d a b t => some ⟨u, t, noGuard, d, a, b, b, fun _ x y _ => x + y⟩
  | .isub u d a b t => some ⟨u, t, noGuard, d, a, b, b, fun _ x y _ => x - y⟩
  | .imul u d a b t => some ⟨u, t, noGuard, d, a, b, b, fun _ x y _ => x * y⟩
  | .imulhS u d a b t => some ⟨u, t, noGuard, d, a, b, b, fun w x y _ => BitVec.ofInt w (x.toInt * y.toInt / 2 ^ w)⟩
  | .imulhZ u d a b t => some ⟨u, t, noGuard, d, a, b, b, fun w x y _ => BitVec.ofNat w (x.toNat * y.toNat / 2 ^ w)⟩
  | .iminS u d a b t => some ⟨u, t, noGuard, d, a, b, b, fun _ x y _ => if x.toInt < y.toInt then x else y⟩
  | .iminZ u d a b t => some ⟨u, t, noGuard, d, a, b, b, fun _ x y _ => if x.toNat < y.toNat then x else y⟩
  | .imaxS u d a b t => some ⟨u, t, noGuard, d, a, b, b, fun _ x y _ => if x.toInt < y.toInt then y else x⟩
  | .imaxZ u d a b t => some ⟨u, t, noGuard, d, a, b, b, fun _ x y _ => if x.toNat < y.toNat then y else x⟩
  | .iaddsS u d a b t => some ⟨u, t, noGuard, d, a, b, b, fun w x y _ =>
      BitVec.ofInt w (max (-(2 ^ (w - 1))) (min (2 ^ (w - 1) - 1) (x.toInt + y.toInt)))⟩
  | .iaddsZ u d a b t => some ⟨u, t, noGuard, d, a, b, b, fun w x y _ =>
      BitVec.ofNat w (min (2 ^ w - 1) (x.toNat + y.toNat))⟩
  | .isubsS u d a b t => some ⟨u, t, noGuard, d, a, b, b, fun w x y _ =>
      BitVec.ofInt w (max (-(2 ^ (w - 1))) (min (2 ^ (w - 1) - 1) (x.toInt - y.toInt)))⟩
  | .isubsZ u d a b t => some ⟨u, t, noGuard, d, a, b, b, fun w x y _ => BitVec.ofNat w (x.toNat - y.toNat)⟩
  | .iabs u d a t => some ⟨u, t, noGuard, d, a, a, a, fun _ x _ _ => if x.toInt < 0 then -x else x⟩
  | .ineg u d a t => some ⟨u, t, noGuard, d, a, a, a, fun _ x _ _ => -x⟩
  | .imac u d a b t => some ⟨u, t, noGuard, d, a, b, d, fun _ x y z => x * y + z⟩
  | .imad u t d a b c gd => some ⟨u, t, gd, d, a, b, c, fun _ x y z => x * y + z⟩
  | _ => none

/-- The element results of the bitwise operations, the shifts and the counts (R128, R129). -/
def bitwise : Instr → Option Elementwise
  | .and u d a b t => some ⟨u, t, noGuard, d, a, b, b, fun _ x y _ => x &&& y⟩
  | .or u d a b t => some ⟨u, t, noGuard, d, a, b, b, fun _ x y _ => x ||| y⟩
  | .xor u d a b t => some ⟨u, t, noGuard, d, a, b, b, fun _ x y _ => x ^^^ y⟩
  | .andn u d a b t => some ⟨u, t, noGuard, d, a, b, b, fun _ x y _ => x &&& ~~~ y⟩
  | .shl u d a b t => some ⟨u, t, noGuard, d, a, b, b, fun w x y _ => x <<< (y.toNat % w)⟩
  | .shrZ u d a b t => some ⟨u, t, noGuard, d, a, b, b, fun w x y _ => x >>> (y.toNat % w)⟩
  | .shrS u d a b t => some ⟨u, t, noGuard, d, a, b, b, fun w x y _ => x.sshiftRight (y.toNat % w)⟩
  | .rotl u d a b t => some ⟨u, t, noGuard, d, a, b, b, fun w x y _ => x.rotateLeft (y.toNat % w)⟩
  | .popc u d a t => some ⟨u, t, noGuard, d, a, a, a, fun w x _ _ => BitVec.ofNat w ((List.range w).countP x.getLsbD)⟩
  | .clz u d a t => some ⟨u, t, noGuard, d, a, a, a, fun _ x _ _ => x.clz⟩
  | .brev u d a t => some ⟨u, t, noGuard, d, a, a, a, fun _ x _ _ => x.reverse⟩
  | .mov u d a t => some ⟨u, t, noGuard, d, a, a, a, fun _ x _ _ => x⟩
  | _ => none

end Sys2Proof.Claims

/-- The integer arithmetic of a team, every type, lane and uniform form: each element of d is the result that R126 and R137 give
it; a lane that does not take part, every other register, every flag and all memory stay. The bitwise operations, shifts,
rotations and counts of a team (R128, R129), in the same sense. -/
def Obligations.IntegerResults : Prop :=
  (∀ s id i x, Sys2Proof.Claims.arith i = some x → Sys2Proof.Claims.Runs s id i → Sys2Proof.Claims.ElementsAre s id i x) ∧
  (∀ s id i x, Sys2Proof.Claims.bitwise i = some x → Sys2Proof.Claims.Runs s id i → Sys2Proof.Claims.ElementsAre s id i x)

namespace Sys2Proof.Claims

open Machine

/-! ## Instructions with one result of one or more registers -/

/-- The flags raised by the lanes that take part, or by the team (R46, R123). -/
def raised (t : Team) (u : Bool) (gd : Guard) (res : Nat → Nat × W32) : W32 :=
  if u then (if t.acts true gd 0 then (res 0).2 &&& 0x3F else 0)
  else ((List.range t.lanes).filter fun l => t.acts false gd l).foldr (fun l x => ((res l).2 &&& 0x3F) ||| x) 0

/-- An instruction with one result: form, guard, destination and its number of registers, and the result of a lane with
its flags, from the team as it was. -/
structure OneResult where
  u : Bool
  gd : Guard
  d : BitVec 7
  k : Nat
  res : Team → Nat → Nat × W32

/-- What it does (R123): every lane that takes part has the result in d, the flags are raised, and nothing else
changes but the flow of control. -/
def ResultIs (s : State) (id : Nat) (i : Instr) (x : OneResult) : Prop :=
  let tm := s.team id
  ∃ tm' : Team, Completes s id i tm' ∧
    OnlyRegs tm tm' x.u x.d.toNat x.k (tm.acts x.u x.gd) (raised tm x.u x.gd (x.res tm)) ∧
    ∀ l, tm.acts x.u x.gd l = true → tm'.rd x.u l x.d.toNat x.k = (x.res tm (if x.u then 0 else l)).1

/-- A register of a lane, or a uniform one. -/
def reg (t : Team) (u : Bool) (l : Nat) (r : BitVec 7) : W32 := if u then t.greg r.toNat else t.vreg l r.toNat

/-- A pair of registers (R45). -/
def pair (t : Team) (u : Bool) (l : Nat) (r : BitVec 7) : W64 := BitVec.ofNat 64 (t.rd u l r.toNat 2)

/-- A 32-bit operand extended to 64 bits (R153). -/
def extended (sx : Bool) (x : W32) : W64 := if sx then x.signExtend 64 else x.setWidth 64

/-- Byte i of bmix (R151). -/
def bmixed (a b : W32) (zb : Bool) (sel : BitVec 12) (i : Nat) : BitVec 8 :=
  let j := (sel.extractLsb' (3 * i) 3).toNat
  if j < 4 then a.extractLsb' (8 * j) 8 else if zb then 0 else b.extractLsb' (8 * (j - 4)) 8

/-- Hrnd of R86 on words. -/
def hrndOf (key counter : W32) : W32 :=
  let x0 := key ^^^ (counter * 0x9E3779B1#32).rotateLeft 13
  let x1 := x0 * 0x85EBCA6B#32
  let x2 := x1 ^^^ (x1 >>> 16)
  let x3 := x2 * 0xC2B2AE35#32
  let x4 := x3 ^^^ (x3 >>> 13)
  let x5 := x4 + counter
  x5 ^^^ (x5 >>> 16)

/-- A result of one word without flags. -/
def wordForm (u : Bool) (gd : Guard) (d : BitVec 7) (f : Team → Nat → W32) : Option OneResult :=
  some ⟨u, gd, d, 1, fun t l => ((f t l).toNat, 0)⟩

/-- The results of the 32-bit forms (R80, R86, R130, R144, R145, R151, R152). -/
def words : Instr → Option OneResult
  | .iaddi u d a i => wordForm u noGuard d fun t l => reg t u l a + i.signExtend 32
  | .andi u d a i => wordForm u noGuard d fun t l => reg t u l a &&& i.signExtend 32
  | .ori u d a i => wordForm u noGuard d fun t l => reg t u l a ||| i.signExtend 32
  | .xori u d a i => wordForm u noGuard d fun t l => reg t u l a ^^^ i.signExtend 32
  | .shli u d a c => wordForm u noGuard d fun t l => reg t u l a <<< c.toNat
  | .shriZ u d a c => wordForm u noGuard d fun t l => reg t u l a >>> c.toNat
  | .shriS u d a c => wordForm u noGuard d fun t l => (reg t u l a).sshiftRight c.toNat
  | .rotli u d a c => wordForm u noGuard d fun t l => (reg t u l a).rotateLeft c.toNat
  | .imuli u d a i => wordForm u noGuard d fun t l => reg t u l a * i.signExtend 32
  | .movi u d i => wordForm u noGuard d fun _ _ => i.signExtend 32
  | .movi32 u d i => wordForm u noGuard d fun _ _ => i
  | .iaddi32 u d a i => wordForm u noGuard d fun t l => reg t u l a + i
  | .idot4 u d a b => wordForm u noGuard d fun t l =>
      let p (e : Nat) : W32 :=
        ((reg t u l a).extractLsb' (8 * e) 8).signExtend 32 * ((reg t u l b).extractLsb' (8 * e) 8).signExtend 32
      reg t u l d + (p 0 + p 1 + p 2 + p 3)
  | .hrnd u d a b => wordForm u noGuard d fun t l => hrndOf (reg t u l a) (reg t u l b)
  | .bmix u d a b gd zb sel => wordForm u gd d fun t l =>
      let y := bmixed (reg t u l a) (reg t u l b) zb sel
      y 3 ++ y 2 ++ y 1 ++ y 0
  | .pmovToReg u d => wordForm u noGuard d fun t l =>
      BitVec.ofNat 32 (((List.range 8).map fun i => if t.prd u l i then 2 ^ i else 0).sum)
  | _ => none

/-- The results of selection, bit fields and addresses (R149, R150, R153); W is the width of the operands. -/
def fields : Instr → Option OneResult
  | .sel u t d a b gd => some ⟨u, noGuard, d, tCount t, fun tm l =>
      (if tm.prd u l gd.pred.toNat != gd.neg then tm.rd u l a.toNat (tCount t) else tm.rd u l b.toNat (tCount t), 0)⟩
  | .bfeS u t d a gd len pos => some ⟨u, gd, d, tCount t, fun tm l =>
      (((BitVec.ofNat len.toNat (tm.rd u l a.toNat (tCount t) / 2 ^ pos.toNat)).signExtend (32 * tCount t)).toNat, 0)⟩
  | .bfeZ u t d a gd len pos => some ⟨u, gd, d, tCount t, fun tm l =>
      (tm.rd u l a.toNat (tCount t) / 2 ^ pos.toNat % 2 ^ len.toNat, 0)⟩
  | .bfi u t d a b gd len pos => some ⟨u, gd, d, tCount t, fun tm l =>
      let w := 32 * tCount t
      let m : BitVec w := ((BitVec.allOnes len.toNat).setWidth w) <<< pos.toNat
      let x := BitVec.ofNat w (tm.rd u l a.toNat (tCount t))
      let y := BitVec.ofNat w (tm.rd u l b.toNat (tCount t))
      (((x &&& ~~~ m) ||| ((y <<< pos.toNat) &&& m)).toNat, 0)⟩
  | .lea u d a b gd sx sh => some ⟨u, gd, d, 2, fun tm l =>
      ((pair tm u l a + (extended sx (reg tm u l b) <<< sh.toNat)).toNat, 0)⟩
  | .madW u d a b c gd sx => some ⟨u, gd, d, 2, fun tm l =>
      ((extended sx (reg tm u l a) * extended sx (reg tm u l b) + pair tm u l c).toNat, 0)⟩
  | _ => none

/-! ## Floating point -/

/-- An elementwise operation on FP codes: its operands as above, and the code of an element's result with its flags. -/
structure FpElementwise where
  u : Bool
  t : BitVec 2
  gd : Guard
  d : BitVec 7
  a : BitVec 7
  b : BitVec 7
  c : BitVec 7
  f : Fmt → Nat → Nat → Nat → Nat × W32

/-- Element e of k registers from r on, w bits wide, as a number. -/
def fpElem (tm : Team) (u : Bool) (l : Nat) (r : BitVec 7) (t : BitVec 2) (e : Nat) : Nat :=
  tm.rd u l r.toNat (tCount t) / 2 ^ (tFpWidth t * e) % 2 ^ tFpWidth t

/-- An element's result. -/
def FpElementwise.at_ (x : FpElementwise) (tm : Team) (l e : Nat) : Nat × W32 :=
  x.f (fpFmt x.t) (fpElem tm x.u l x.a x.t e) (fpElem tm x.u l x.b x.t e) (fpElem tm x.u l x.c x.t e)

/-- The flags of a lane: those of its elements (R123). -/
def FpElementwise.flags (x : FpElementwise) (tm : Team) (l : Nat) : Nat × W32 :=
  (0, if tFpElems x.t = 2 then (x.at_ tm l 0).2 ||| (x.at_ tm l 1).2 else (x.at_ tm l 0).2)

/-- What an elementwise FP instruction does (R123, R131). -/
def FpElementsAre (s : State) (id : Nat) (i : Instr) (x : FpElementwise) : Prop :=
  let tm := s.team id
  ∃ tm' : Team, Completes s id i tm' ∧
    OnlyRegs tm tm' x.u x.d.toNat (tCount x.t) (tm.acts x.u x.gd) (raised tm x.u x.gd (x.flags tm)) ∧
    ∀ l, tm.acts x.u x.gd l = true → ∀ e, e < tFpElems x.t →
      fpElem tm' x.u l x.d x.t e = (x.at_ tm (if x.u then 0 else l) e).1 % 2 ^ tFpWidth x.t

/-- The element operations of the FP instructions (R131, R132, R134, R135, R137, R148): one rounding to nearest of the
exact result, the minimum and maximum, the signs, the approximations of R134 (free values within R79's tables), and the
rounding to an integer. -/
def fpOp : Instr → Option FpElementwise
  | .fadd u d a b t => some ⟨u, t, noGuard, d, a, b, b, fun f x y _ => addCode f x y⟩
  | .fsub u d a b t => some ⟨u, t, noGuard, d, a, b, b, fun f x y _ => subCode f x y⟩
  | .fmul u d a b t => some ⟨u, t, noGuard, d, a, b, b, fun f x y _ => mulCode f x y⟩
  | .fmin u d a b t => some ⟨u, t, noGuard, d, a, b, b, fun f x y _ => minMaxCode f false x y⟩
  | .fmax u d a b t => some ⟨u, t, noGuard, d, a, b, b, fun f x y _ => minMaxCode f true x y⟩
  | .fabs u d a t => some ⟨u, t, noGuard, d, a, a, a, fun f x _ _ => signCode false f x⟩
  | .fneg u d a t => some ⟨u, t, noGuard, d, a, a, a, fun f x _ _ => signCode true f x⟩
  | .frcp u d a t => some ⟨u, t, noGuard, d, a, a, a, fun f x _ _ => frcpCode f x⟩
  | .frsq u d a t => some ⟨u, t, noGuard, d, a, a, a, fun f x _ _ => frsqCode f x⟩
  | .fsqrt u d a t => some ⟨u, t, noGuard, d, a, a, a, fun f x _ _ => fsqrtCode f x⟩
  | .fexp2 u d a t => some ⟨u, t, noGuard, d, a, a, a, fun f x _ _ => fexp2Code f x⟩
  | .flog2 u d a t => some ⟨u, t, noGuard, d, a, a, a, fun f x _ _ => flog2Code f x⟩
  | .fsin u d a t => some ⟨u, t, noGuard, d, a, a, a, fun f x _ _ => ftrigCode 5 f x⟩
  | .fcos u d a t => some ⟨u, t, noGuard, d, a, a, a, fun f x _ _ => ftrigCode 6 f x⟩
  | .frnd u d a m t => some ⟨u, t, noGuard, d, a, a, a, fun f x _ _ => rndCode f m.toNat x⟩
  | .fmac u d a b t => some ⟨u, t, noGuard, d, a, b, d, fmaCode⟩
  | .fma u t d a b c gd => some ⟨u, t, gd, d, a, b, c, fmaCode⟩
  | .fclamp u t d a b c gd => some ⟨u, t, gd, d, a, b, c, fun f x y z =>
      let m := minMaxCode f true x y
      ((minMaxCode f false m.1 z).1, m.2 ||| (minMaxCode f false m.1 z).2)⟩
  | _ => none

/-- The results of the conversions and of the mixed forms (R136, R137, R148, R154). -/
def conversions : Instr → Option OneResult
  | .fcvt u d a c m => some ⟨u, noGuard, d, 1, fun t l =>
      fcvtCode c.toNat m.toNat (reg t u l a).toNat (reg t u l d).toNat⟩
  | .fcvtX u d a b di si gd sat mode dst src => some ⟨u, gd, d, if dst = 9 then 2 else 1, fun t l =>
      let v := decodeX src.toNat (t.rd u l a.toNat (if src = 9 then 2 else 1) / 2 ^ (widthX src.toNat * si.toNat)
        % 2 ^ widthX src.toNat)
      let r := roundX dst.toNat mode.toNat sat ((reg t u l b).toNat % 2 ^ 16) v
      (insertField (t.rd u l d.toNat (if dst = 9 then 2 else 1)) r.1 (widthX dst.toNat * di.toNat) (widthX dst.toNat),
        if v.isSnan then r.2 ||| fNV else r.2)⟩
  | .fdot2 u d a b t => some ⟨u, noGuard, d, 1, fun tm l =>
      dot2Code (fpFmt t) (reg tm u l a).toNat (reg tm u l b).toNat (reg tm u l d).toNat⟩
  | .fmaMix u t d a b c gd j i => some ⟨u, gd, d, 1, fun tm l =>
      let x := (reg tm u l a).toNat / (if i then 2 ^ 16 else 1) % 2 ^ 16
      let y := (reg tm u l b).toNat / (if j then 2 ^ 16 else 1) % 2 ^ 16
      let v := fmaVal 0 ((fpFmt t).decode x) ((fpFmt t).decode y) (f32.decode (reg tm u l c).toNat)
      ((f32.round 0 false 0 v.1).1, v.2 ||| (f32.round 0 false 0 v.1).2)⟩
  | _ => none

/-- The rational number that a finite value stands for. -/
def rational (neg : Bool) (m : Nat) (e : Int) : Rat := (if neg then -1 else 1) * (m : Rat) * (2 : Rat) ^ e

end Sys2Proof.Claims

/-- The FP instructions of a team, elementwise (R62, R123, R124): in every lane that takes part each element of d is the
instruction's function of the source elements in their format, and the flags of those lanes are raised in TSTAT; no other
register, flag or byte changes. -/
def Obligations.FloatingPoint : Prop :=
  ∀ s id i x, Sys2Proof.Claims.fpOp i = some x → Sys2Proof.Claims.Runs s id i → Sys2Proof.Claims.FpElementsAre s id i x

/-- The instructions of one 32-bit result: immediates, the byte dot product, the byte mix, the hash Hrnd (R86), and the predicates
as a number. Selection, bit fields and the address forms. The conversions, the two-element dot product and the mixed multiply-add.
In every lane that takes part the destination holds the result of the lane's own sources; no other register and no memory
changes, and only the flags of the result are raised. -/
def Obligations.WordFieldAndConversionResults : Prop :=
  (∀ s id i x, Sys2Proof.Claims.words i = some x → Sys2Proof.Claims.Runs s id i → Sys2Proof.Claims.ResultIs s id i x) ∧
  (∀ s id i x, Sys2Proof.Claims.fields i = some x → Sys2Proof.Claims.Runs s id i → Sys2Proof.Claims.ResultIs s id i x) ∧
  (∀ s id i x, Sys2Proof.Claims.conversions i = some x → Sys2Proof.Claims.Runs s id i →
     Sys2Proof.Claims.ResultIs s id i x)

/-- Sums, products and multiply-adds of finite values are the exact rational result rounded once, to nearest (R76, R80, R131,
R137), and no flag but those of the rounding is raised. Rounding a representable number changes nothing and raises no flag, in
every mode (R76): for each format, every finite code comes back from its own value. -/
def Obligations.ArithmeticRoundsOnce : Prop :=
  (∀ (f : Sys2Proof.Machine.Fmt) (x y z : Nat) (nx ny nz : Bool) (mx my mz : Nat) (ex ey ez : Int),
     f.decode x = .fin nx mx ex → f.decode y = .fin ny my ey → f.decode z = .fin nz mz ez →
     (∃ n m e, Sys2Proof.Claims.rational n m e = Sys2Proof.Claims.rational nx mx ex + Sys2Proof.Claims.rational ny my ey ∧
       Sys2Proof.Machine.addCode f x y = f.round 0 false 0 (.fin n m e)) ∧
     (∃ n m e, Sys2Proof.Claims.rational n m e = Sys2Proof.Claims.rational nx mx ex - Sys2Proof.Claims.rational ny my ey ∧
       Sys2Proof.Machine.subCode f x y = f.round 0 false 0 (.fin n m e)) ∧
     (∃ n m e, Sys2Proof.Claims.rational n m e = Sys2Proof.Claims.rational nx mx ex * Sys2Proof.Claims.rational ny my ey ∧
       Sys2Proof.Machine.mulCode f x y = f.round 0 false 0 (.fin n m e)) ∧
     (∃ n m e, Sys2Proof.Claims.rational n m e =
         Sys2Proof.Claims.rational nx mx ex * Sys2Proof.Claims.rational ny my ey + Sys2Proof.Claims.rational nz mz ez ∧
       Sys2Proof.Machine.fmaCode f x y z = f.round 0 false 0 (.fin n m e))) ∧
  (∀ f ∈ [Sys2Proof.Machine.f64, Sys2Proof.Machine.f32, Sys2Proof.Machine.f16, Sys2Proof.Machine.bf16,
       Sys2Proof.Machine.e4m3, Sys2Proof.Machine.e5m2, Sys2Proof.Machine.e2m1],
     ∀ (c mode r : Nat) (sat neg : Bool) (m : Nat) (e : Int), c < 2 ^ f.width → f.decode c = .fin neg m e →
       f.round mode sat r (f.decode c) = (c, 0))

namespace Sys2Proof.Claims

open Machine

/-! ## Predicates -/

/-- Of a team, only predicates change: predicate q of the lanes that who names, or uniform predicate q (u), takes val q l
where val q is told, and p7 and gp7 stay; the flags fl are raised. -/
def OnlyPreds (t t' : Team) (u : Bool) (who : Nat → Bool) (val : Nat → Option (Nat → Bool)) (fl : W32) : Prop :=
  t' = { t with p := t'.p, gp := t'.gp, tstat := t.tstat ||| fl } ∧
  (∀ l q, t'.preg l q =
    match val q with
    | some f => if u = false ∧ who l = true ∧ q ≠ 7 then f l else t.preg l q
    | none => t.preg l q) ∧
  (∀ q, t'.gpreg q =
    match val q with
    | some f => if u = true ∧ q ≠ 7 then f 0 else t.gpreg q
    | none => t.gpreg q)

/-- A predicate instruction: form, and what each predicate becomes in a lane, with the flags of the lane. -/
structure PredResult where
  u : Bool
  val : Team → Nat → Option (Nat → Bool)
  fl : Team → Nat → W32

/-- What it does (R123, R127, R143, R144). -/
def PredsAre (s : State) (id : Nat) (i : Instr) (x : PredResult) : Prop :=
  let tm := s.team id
  ∃ tm' : Team, Completes s id i tm' ∧
    OnlyPreds tm tm' x.u (tm.acts x.u noGuard) (x.val tm) (raised tm x.u noGuard fun l => (0, x.fl tm l))

/-- Only predicate p is written. -/
def justP (p : BitVec 3) (f : Nat → Bool) (q : Nat) : Option (Nat → Bool) := if q = p.toNat then some f else none

/-- The condition codes of R92 on words of width w: eq, ne, lt.s, le.s, gt.s, ge.s, lt.z, le.z, gt.z, ge.z. -/
def intCond (w : Nat) (c : Nat) (x y : BitVec w) : Bool :=
  match c with
  | 0 => x == y
  | 1 => x != y
  | 2 => x.slt y
  | 3 => x.sle y
  | 4 => y.slt x
  | 5 => y.sle x
  | 6 => x.ult y
  | 7 => x.ule y
  | 8 => y.ult x
  | _ => y.ule x

/-- The predicate instructions. -/
def preds : Instr → Option PredResult
  | .icmp u c p a b t => some ⟨u, fun tm => justP p fun l => intCond (tWidth t) c.toNat
      (BitVec.ofNat _ (tm.rd u l a.toNat (tCount t))) (BitVec.ofNat _ (tm.rd u l b.toNat (tCount t))), fun _ _ => 0⟩
  | .icmpi u c p a i => some ⟨u, fun tm => justP p fun l => intCond 32 c.toNat (reg tm u l a) (i.signExtend 32),
      fun _ _ => 0⟩
  | .fcmp u c p a b t => some ⟨u, fun tm => justP p fun l =>
      (fcmpCode (fpFmt t) c.toNat (tm.rd u l a.toNat (tCount t)) (tm.rd u l b.toNat (tCount t))).1,
      fun tm l => (fcmpCode (fpFmt t) c.toNat (tm.rd u l a.toNat (tCount t)) (tm.rd u l b.toNat (tCount t))).2⟩
  | .plog u f d a b => some ⟨u, fun tm => justP d fun l =>
      f.getLsbD (2 * (tm.prd u l a.toNat).toNat + (tm.prd u l b.toNat).toNat), fun _ _ => 0⟩
  | .pmovFromReg u a => some ⟨u, fun tm q => if q < 7 then some fun l => (reg tm u l a).getLsbD q else none,
      fun _ _ => 0⟩
  | _ => none

/-! ## Lanes -/

/-- The value that a lane pick reads (R138): register a of position s of the lane's own group of 32, zero where the source
lies beyond the team, is not active, or is none. -/
def pickedFrom (t : Team) (l : Nat) (a : BitVec 7) (s : Option Nat) : W32 :=
  match s with
  | none => 0
  | some s =>
    let src := 32 * (l / 32) + s
    if src < t.lanes ∧ t.mask.testBit src = true then t.vreg src a.toNat else 0

/-- The source position by the kind of the pick, from the lane's position p and the operand's low five bits k (R138). -/
def pickResult (d a : BitVec 7) (operand : Team → Nat → W32) (pos : Nat → Nat → Option Nat) : Option OneResult :=
  wordForm false noGuard d fun t l => pickedFrom t l a (pos (l % 32) ((operand t l).toNat % 32))

/-- The lane picks, register and immediate forms. -/
def picks : Instr → Option OneResult
  | .lpickIdx d a b => pickResult d a (fun t l => t.vreg l b.toNat) fun _ k => some k
  | .lpickXor d a b => pickResult d a (fun t l => t.vreg l b.toNat) fun p k => some (p ^^^ k)
  | .lpickRot d a b => pickResult d a (fun t l => t.vreg l b.toNat) fun p k => some ((p + k) % 32)
  | .lpickFill d a b => pickResult d a (fun t l => t.vreg l b.toNat) fun p k => if k ≤ p then some (p - k) else none
  | .lpickiIdx d a k => pickResult d a (fun _ _ => k.setWidth 32) fun _ k => some k
  | .lpickiXor d a k => pickResult d a (fun _ _ => k.setWidth 32) fun p k => some (p ^^^ k)
  | .lpickiRot d a k => pickResult d a (fun _ _ => k.setWidth 32) fun p k => some ((p + k) % 32)
  | .lpickiFill d a k => pickResult d a (fun _ _ => k.setWidth 32) fun p k => if k ≤ p then some (p - k) else none
  | _ => none

/-- The value of a special register for a lane (R57), by its number: the lane's own first. -/
def specialOf (s : State) (tm : Team) (lane : Nat) (x : Nat) : Nat :=
  let l := s.launch tm.launch
  match x with
  | 0 => lane
  | 1 => tm.number.toNat
  | 2 => tm.lanes
  | 3 => tm.node.toNat
  | 4 => l.vclus tm.cl
  | 5 => dieOf tm.cl
  | 6 => s.clock tm.cl % 2 ^ 64
  | 7 => s.time.toNat
  | 8 => l.energy.toNat
  | 9 => (s.cluster tm.cl).mthr.toNat
  | 10 => s.caps.toNat
  | 11 => l.prio * 2 ^ 28 + l.ctx % 4096 * 2 ^ 16 + l.number % 2 ^ 16
  | 12 => tm.fmt.toNat
  | 13 => tm.sclp.toNat
  | 14 => (Tbl.get tm.origin 0 lane).toNat
  | 15 => 0x80000000 + tm.eng
  | _ => if s.caps.getLsbD 9 then (l.wmShown s.time.toNat).toNat else 0

/-- The registers of 64 bits (R57): CLOCK, TIME, ENERGY, SCLP, ORIGIN and WMSTAT. -/
def specialRegs (x : BitVec 7) : Nat := if x.toNat ∈ [6, 7, 8, 13, 14, 16] then 2 else 1

/-- Node k of level j of the tree of R81, with the flags of the combinations below it: an absent node passes the other on. -/
def lredNode (op : Nat → Nat → Nat × W32) (x : Nat → Option Nat) : Nat → Nat → Option Nat × W32
  | 0, k => (x k, 0)
  | j + 1, k =>
    let l := lredNode op x j (2 * k)
    let r := lredNode op x j (2 * k + 1)
    match l.1, r.1 with
    | none, y => (y, l.2 ||| r.2)
    | some y, none => (some y, l.2 ||| r.2)
    | some y, some z => (some (op y z).1, l.2 ||| r.2 ||| (op y z).2)

/-- A combination of two words of w bits. -/
def onWords (w : Nat) (f : BitVec w → BitVec w → BitVec w) (x y : Nat) : Nat × W32 :=
  ((f (BitVec.ofNat w x) (BitVec.ofNat w y)).toNat, 0)

/-- The combinations of lred by code, on w bits (R91, R142): iadd, imin.s, imin.z, imax.s, imax.z, and, or, xor; fadd, fmin,
fmax, each rounded to nearest. -/
def lredCombine (w code : Nat) : Nat → Nat → Nat × W32 :=
  let fp := if w = 64 then f64 else f32
  match code with
  | 0 => onWords w fun x y => x + y
  | 1 => onWords w fun x y => if y.slt x then y else x
  | 2 => onWords w fun x y => if y.ult x then y else x
  | 3 => onWords w fun x y => if y.slt x then x else y
  | 4 => onWords w fun x y => if y.ult x then x else y
  | 5 => onWords w fun x y => x &&& y
  | 6 => onWords w fun x y => x ||| y
  | 7 => onWords w fun x y => x ^^^ y
  | 8 => addCode fp
  | 9 => minMaxCode fp false
  | _ => minMaxCode fp true

/-- The identities of R142: what lred gives when no lane is active. -/
def lredEmpty (w code : Nat) : Nat :=
  match code with
  | 1 => 2 ^ (w - 1) - 1
  | 2 | 5 => 2 ^ w - 1
  | 3 => 2 ^ (w - 1)
  | 8 => if w = 64 then 0x8000000000000000 else 0x80000000
  | 9 => if w = 64 then 0x7FF0000000000000 else 0x7F800000
  | 10 => if w = 64 then 0xFFF0000000000000 else 0xFF800000
  | _ => 0

end Sys2Proof.Claims

/-- Comparisons, predicate logic and the move into the predicates: each named predicate of every lane that takes part, or
the uniform one, has its value; p7 and gp7 stay true. -/
def Obligations.Predicates : Prop :=
  ∀ s id i x, Sys2Proof.Claims.preds i = some x → Sys2Proof.Claims.Runs s id i → Sys2Proof.Claims.PredsAre s id i x

/-- The lane picks read the register as it was before the instruction in every lane. ballot, bcast, agree and lred act once for
the team: uniform words of the active lanes that hold a predicate, one lane's register, a vote, and the reduction over the tree
of R81 with the operation and the identity of R142; the integer sum, whatever its tree, is the sum of the active lanes modulo
2^32. A ballot whose words run past g63 traps with cause 0x02 (R139). -/
def Obligations.LanePicksVotesAndReductions : Prop :=
  (∀ s id i x, Sys2Proof.Claims.picks i = some x → Sys2Proof.Claims.Runs s id i → Sys2Proof.Claims.ResultIs s id i x) ∧
  (∀ s id, let tm := s.team id
   (∀ d p, Sys2Proof.Claims.Runs s id (.ballot d p) → d.toNat + (tm.lanes + 31) / 32 ≤ 64 →
     ∃ tm' : Sys2Proof.Machine.Team, Sys2Proof.Claims.Completes s id (.ballot d p) tm' ∧ tm' = { tm with g := tm'.g } ∧
       (∀ r, ¬ (d.toNat ≤ r ∧ r < d.toNat + (tm.lanes + 31) / 32) → tm'.greg r = tm.greg r) ∧
       ∀ w j, w < (tm.lanes + 31) / 32 → j < 32 → (tm'.greg (d.toNat + w)).getLsbD j =
         (tm.mask.testBit (32 * w + j) && tm.preg (32 * w + j) p.toNat)) ∧
   (∀ d p, Sys2Proof.Claims.Runs s id (.ballot d p) → 64 < d.toNat + (tm.lanes + 31) / 32 →
     Sys2Proof.Machine.exec (.ballot d p) s =
       .next (s.teamTrap id (Sys2Proof.Machine.Trap.mk 0x02 s.cur.w1 0xFFFFFFFF 0))) ∧
   (∀ d a b, Sys2Proof.Claims.Runs s id (.bcast d a b) →
     ∃ tm' : Sys2Proof.Machine.Team, Sys2Proof.Claims.Completes s id (.bcast d a b) tm' ∧ tm' = { tm with g := tm'.g } ∧
       (∀ r, r ≠ d.toNat → tm'.greg r = tm.greg r) ∧ tm'.greg d.toNat =
         if (tm.greg b.toNat).toNat < tm.lanes then tm.vreg (tm.greg b.toNat).toNat a.toNat else 0) ∧
   (∀ m g p, Sys2Proof.Claims.Runs s id (.agree m g p) →
     ∃ tm' : Sys2Proof.Machine.Team, Sys2Proof.Claims.Completes s id (.agree m g p) tm' ∧ tm' = { tm with gp := tm'.gp } ∧
       (∀ q, q ≠ g.toNat → tm'.gpreg q = tm.gpreg q) ∧
       (g = 7 ∨ tm'.gpreg g.toNat =
         match m.toNat with
         | 0 => tm.active.any fun l => tm.preg l p.toNat
         | 1 => tm.active.all fun l => tm.preg l p.toNat
         | 2 => (tm.active.all fun l => tm.preg l p.toNat) || (tm.active.all fun l => !tm.preg l p.toNat)
         | 3 => tm.active.all fun l => !tm.preg l p.toNat
         | _ => decide ((tm.active.countP fun l => tm.preg l p.toNat) % 2 = 1))) ∧
   (∀ d a b t, Sys2Proof.Claims.Runs s id (.lred d a b t) → tm.lanes ≤ 1024 →
     let k := Sys2Proof.Machine.tCount t
     let x (l : Nat) : Option Nat := if l < tm.lanes ∧ tm.mask.testBit l = true then some (tm.vregs l a.toNat k) else none
     let r := Sys2Proof.Claims.lredNode (Sys2Proof.Claims.lredCombine (32 * k) b.toNat) x 10 0
     ∃ tm' : Sys2Proof.Machine.Team, Sys2Proof.Claims.Completes s id (.lred d a b t) tm' ∧
       Sys2Proof.Claims.OnlyRegs tm tm' true d.toNat k (fun _ => true) (r.2 &&& 0x3F) ∧
       tm'.gregs d.toNat k = r.1.getD (Sys2Proof.Claims.lredEmpty (32 * k) b.toNat) % 2 ^ (32 * k) ∧
       (t = 0 → b = 0 → tm'.greg d.toNat = (tm.active.map fun l => tm.vreg l a.toNat).foldr (· + ·) 0)))

/-- sread: each lane that takes part reads the special register in its own place; the uniform form reads those of the
lowest active lane (R58). -/
def Obligations.SpecialRegisterRead : Prop :=
  ∀ s id u d x, Sys2Proof.Claims.Runs s id (.sread u d x) →
    Sys2Proof.Claims.ResultIs s id (.sread u d x)
      ⟨u, Sys2Proof.noGuard, d, Sys2Proof.Claims.specialRegs x, fun tm l =>
        ((if u then
            match tm.active with
            | l :: _ => Sys2Proof.Claims.specialOf s tm l x.toNat
            | [] => if x.toNat = 0 then 0xFFFFFFFF else if x.toNat = 14 then 0 else
                Sys2Proof.Claims.specialOf s tm 0 x.toNat
          else Sys2Proof.Claims.specialOf s tm l x.toNat) % 2 ^ (32 * Sys2Proof.Claims.specialRegs x), 0)⟩

namespace Sys2Proof.Claims

open Machine

/-! ## The flow of control of a team -/

/-- The fetch of a header at an address succeeds and leaves state s1: the address passes the check of a fetch and the word
there is a header (R50, R100). -/
def HeaderAt (s : State) (id : Nat) (va : W64) (s1 : State) : Prop :=
  ∃ w : W32, s.fetchWord id va.toNat = (.word w, s1) ∧ w.extractLsb' 26 6 = 0x3F#6

/-- The address of the next clause: the clause's header, and after it the clause's words (R100). -/
def afterClause (c : Clause) : W64 := c.hdr + BitVec.ofNat 64 (4 * (1 + c.len))

/-- The target of a BR word (R99): 4 times the signed displacement on from the word. -/
def braTarget (tm : Team) (disp : BitVec 18) : W64 := tm.pc + disp.signExtend 64 * 4

/-- Control moves from clause c to a header: the team has left the clause, and asks to yield when the clause's HINT is 1
(R105). -/
def movedTo (tm : Team) (c : Clause) (pc : W64) : Team :=
  { tm with
    pc := pc, prev := tm.pc, clause := none, rep := none, prevClause := some c
    yielded := decide (c.hint = 1) || tm.yielded }

/-- The displacement of a BR word (R99, R155). -/
def brDisp : Instr → Option (BitVec 18)
  | .bra _ _ i | .braU _ _ i | .braD _ _ i | .div i | .call i | .loop _ i | .braAny _ _ i | .braAll _ _ i => some i
  | _ => none

/-- A transfer whose target passes the fetch check and is no header traps with cause 0x09; one whose target fails the check
traps with cause 0x03 (R50, R155, R162). -/
def TargetTraps (s : State) (id : Nat) (i : Instr) (target : W64) : Prop :=
  (∀ (w : W32) s1, s.fetchWord id target.toNat = (.word w, s1) → w.extractLsb' 26 6 ≠ 0x3F#6 →
    exec i s = .next (s.teamTrap id (Trap.mk 0x09 0 0xFFFFFFFF target))) ∧
  ((s.fetchWord id target.toNat).1 = .violation →
    exec i s = .next (s.teamTrap id (Trap.mk 0x03 0 0xFFFFFFFF target)))

/-- A conditional transfer: its displacement and when it is taken (R155): by the lowest active lane, by a uniform predicate,
by any active lane, by all of them. -/
def taken : Instr → Option (BitVec 18 × (Team → Bool))
  | .bra p n i => some (i, fun t => match t.active with
    | l :: _ => t.preg l p.toNat != n
    | [] => false)
  | .braU p n i => some (i, fun t => t.gpreg p.toNat != n)
  | .braAny p n i => some (i, fun t => t.active.any fun l => t.preg l p.toNat != n)
  | .braAll p n i => some (i, fun t => t.active.all fun l => t.preg l p.toNat != n)
  | _ => none

/-- The lanes of a mask whose predicate p, inverted by n, is true. -/
def yesLanes (t : Team) (p : BitVec 3) (n : Bool) (m : Nat) : Prop :=
  ∀ l, m.testBit l = (decide (l < t.lanes) && t.mask.testBit l && (t.preg l p.toNat != n))

end Sys2Proof.Claims

open Sys2Proof Sys2Proof.Machine Sys2Proof.Claims in
/-- The conditional branches, loop and jmpu (R155, R99, R162): whether or not it is taken, the target must be a header;
taken, control moves to it, else to the next clause; loop counts its uniform register down. No register but that one,
no stack, and nothing else of the machine beyond the fetch changes. A target that is no header traps with cause 0x09 in every
BR sub, taken or not, and in jmpu; one that cannot be fetched traps with cause 0x03 (that a branch which is not taken raises
it too is the model's reading, log 113), and so does a jmpu whose target is not canonical. -/
def Obligations.Branches : Prop :=
  ∀ s id s1 c, let tm := s.team id
  tm.clause = some c →
  (∀ i disp cond, taken i = some (disp, cond) → Runs s id i → HeaderAt s id (braTarget tm disp) s1 →
    exec i s = .next (s1.setTeam id (movedTo tm c (if cond tm then braTarget tm disp else afterClause c)))) ∧
  (∀ p disp, Runs s id (.loop p disp) → HeaderAt s id (braTarget tm disp) s1 →
    ∃ tm' : Team, exec (.loop p disp) s = .next (s1.setTeam id
        (movedTo tm' c (if tm.greg p.toNat = 1 then afterClause c else braTarget tm disp))) ∧
      tm' = { tm with g := tm'.g } ∧ ∀ r, tm'.greg r = if r = p.toNat then tm.greg p.toNat - 1 else tm.greg r) ∧
  (∀ a, Runs s id (.jmpu a) → HeaderAt s id (BitVec.ofNat 64 (tm.gpair a.toNat)) s1 →
    exec (.jmpu a) s = .next (s1.setTeam id (movedTo tm c (BitVec.ofNat 64 (tm.gpair a.toNat))))) ∧
  (∀ i disp, brDisp i = some disp → Runs s id i → TargetTraps s id i (braTarget tm disp)) ∧
  (∀ a, let target := BitVec.ofNat 64 (tm.gpair a.toNat)
    Runs s id (.jmpu a) → TargetTraps s id (.jmpu a) target ∧
      (canonical target.toNat = false →
        exec (.jmpu a) s = .next (s.teamTrap id (Trap.mk 0x03 0 0xFFFFFFFF target))))

namespace Sys2Proof.Claims

open Machine

/-! ## The stacks of a team and their spill area (R158, R381) -/

/-- The bytes of a divergence entry (R158). -/
def divSize (tm : Team) : Nat := (8 + 4 * ((tm.lanes + 31) / 32) + 15) / 16 * 16

/-- So many entries of the two stacks do not overlap in the team's spill area. -/
def StacksFit (s : State) (tm : Team) (divs calls : Nat) : Prop :=
  divs * divSize tm + calls * 16 ≤ (s.launch tm.launch).spsz.toNat

/-- The base of a team's spill area, and the state after the read of NFR that it takes where the launch has a park area
(R379, R381). -/
def SpillAt (s : State) (tm : Team) (base : Nat) (s1 : State) : Prop :=
  let l := s.launch tm.launch
  (l.park = 0 ∧ s1 = s ∧ base = l.spill.toNat + (l.grid.idxOf tm.cl * 64 + tm.spillIdx) * l.spsz.toNat) ∨
  (l.park ≠ 0 ∧ ∃ nfr, s.readRange (tm.who pathLS) (l.park.toNat + 4) 4 true = (.value nfr, s1) ∧
    base = l.spill.toNat + (l.grid.idxOf tm.cl * (64 + nfr) + tm.spillIdx) * l.spsz.toNat)

/-- The depths of the two stacks, their spilled entries counted. -/
def divCount (tm : Team) : Nat := tm.divs.length + tm.divSpilled
def callCount (tm : Team) : Nat := tm.calls.length + tm.callSpilled

/-- Entry i of the divergence stack, 0 the oldest, written to the area: 8 bytes of pc, then the mask words. -/
def WritesDiv (s : State) (tm : Team) (base i : Nat) (e : DivEntry) (s1 : State) : Prop :=
  ∃ v, s.writeRange (tm.who pathLS) 0 (some (s.l1Of tm)) .write (base + i * divSize tm)
    (toBytes (divSize tm) (e.pc.toNat + 2 ^ 64 * e.mask)) true = (.value v, s1)

/-- Entry i of the call stack written to the area, from its end down: 8 bytes of pc, then the depth. -/
def WritesCall (s : State) (tm : Team) (base i : Nat) (e : CallEntry) (s1 : State) : Prop :=
  ∃ v, s.writeRange (tm.who pathLS) 0 (some (s.l1Of tm)) .write (base + (s.launch tm.launch).spsz.toNat - 16 * (i + 1))
    (toBytes 16 (e.pc.toNat + 2 ^ 64 * e.depth)) true = (.value v, s1)

end Sys2Proof.Claims

open Sys2Proof Sys2Proof.Machine Sys2Proof.Claims in
/-- Divergence and calls (R157, R159): bra.d splits the mask, pushing the lanes that do not take it with the address of the
next clause; div pushes the reconvergence entry; call pushes the return address with the depth of the divergence stack, and
ret takes it off. The mask changes in a splitting bra.d alone. A push whose entry would overlap the other stack in the spill
area traps with cause 0x07 and has no other effect, also while the entry itself stays on chip (R158, R381; log 43). Beyond 16
entries the oldest on chip goes to the area, and a pop with none on chip reads one back (R158). ret traps with cause 0x01 on
an empty call stack and when the depth of the divergence stack differs (R159). -/
def Obligations.DivergenceAndCalls : Prop :=
  ∀ s id s1 c, let tm := s.team id
  tm.clause = some c →
  (∀ p n disp yes, Runs s id (.braD p n disp) → HeaderAt s id (braTarget tm disp) s1 → yesLanes tm p n yes →
    tm.divs.length < 16 → StacksFit s1 tm (divCount tm + 1) (callCount tm) →
    exec (.braD p n disp) s = .next (s1.setTeam id
      (if yes = tm.mask then movedTo tm c (braTarget tm disp)
       else if yes = 0 then movedTo tm c (afterClause c)
       else movedTo { tm with mask := yes, divs := DivEntry.mk false (afterClause c) (tm.mask ^^^ yes) :: tm.divs } c
         (braTarget tm disp)))) ∧
  (∀ disp, Runs s id (.div disp) → HeaderAt s id (braTarget tm disp) s1 → tm.divs.length < 16 →
    StacksFit s1 tm (divCount tm + 1) (callCount tm) →
    exec (.div disp) s = .next (s1.setTeam id
      (movedTo { tm with divs := DivEntry.mk true (braTarget tm disp) tm.mask :: tm.divs } c (afterClause c)))) ∧
  (∀ disp, Runs s id (.call disp) → HeaderAt s id (braTarget tm disp) s1 → tm.calls.length < 16 →
    StacksFit s1 tm (divCount tm) (callCount tm + 1) →
    exec (.call disp) s = .next (s1.setTeam id
      (movedTo { tm with calls := CallEntry.mk (afterClause c) (divCount tm) :: tm.calls } c (braTarget tm disp)))) ∧
  (∀ e r, Runs s id .ret → tm.calls = e :: r → e.depth = divCount tm → HeaderAt s id e.pc s1 →
    exec .ret s = .next (s1.setTeam id (movedTo { tm with calls := r } c e.pc))) ∧
  (∀ e r, Runs s id .ret → tm.calls = e :: r → e.depth ≠ divCount tm →
    exec .ret s = .next (s.teamTrap id (Trap.mk 0x01 s.cur.w1 0xFFFFFFFF 0))) ∧
  (Runs s id .ret → tm.calls = [] → tm.callSpilled = 0 →
    exec .ret s = .next (s.teamTrap id (Trap.mk 0x01 s.cur.w1 0xFFFFFFFF 0))) ∧
  (∀ p n disp yes, Runs s id (.braD p n disp) → HeaderAt s id (braTarget tm disp) s1 → yesLanes tm p n yes →
    yes ≠ tm.mask → yes ≠ 0 → ¬ StacksFit s1 tm (divCount tm + 1) (callCount tm) →
    exec (.braD p n disp) s = .next (s.teamTrap id (Trap.mk 0x07 0 0xFFFFFFFF 0))) ∧
  (∀ disp, Runs s id (.div disp) → HeaderAt s id (braTarget tm disp) s1 →
    ¬ StacksFit s1 tm (divCount tm + 1) (callCount tm) →
    exec (.div disp) s = .next (s.teamTrap id (Trap.mk 0x07 0 0xFFFFFFFF 0))) ∧
  (∀ disp, Runs s id (.call disp) → HeaderAt s id (braTarget tm disp) s1 →
    ¬ StacksFit s1 tm (divCount tm) (callCount tm + 1) →
    exec (.call disp) s = .next (s.teamTrap id (Trap.mk 0x07 0 0xFFFFFFFF 0))) ∧
  (∀ p n disp yes old rest base s2 s3, Runs s id (.braD p n disp) → HeaderAt s id (braTarget tm disp) s1 →
    yesLanes tm p n yes → yes ≠ tm.mask → yes ≠ 0 → StacksFit s1 tm (divCount tm + 1) (callCount tm) →
    tm.divs = rest ++ [old] → rest.length = 15 → SpillAt s1 tm base s2 → WritesDiv s2 tm base tm.divSpilled old s3 →
    exec (.braD p n disp) s = .next (s3.setTeam id (movedTo { tm with
      mask := yes, divs := DivEntry.mk false (afterClause c) (tm.mask ^^^ yes) :: rest
      divSpilled := tm.divSpilled + 1 } c (braTarget tm disp)))) ∧
  (∀ disp old rest base s2 s3, Runs s id (.div disp) → HeaderAt s id (braTarget tm disp) s1 →
    StacksFit s1 tm (divCount tm + 1) (callCount tm) →
    tm.divs = rest ++ [old] → rest.length = 15 → SpillAt s1 tm base s2 → WritesDiv s2 tm base tm.divSpilled old s3 →
    exec (.div disp) s = .next (s3.setTeam id (movedTo { tm with
      divs := DivEntry.mk true (braTarget tm disp) tm.mask :: rest
      divSpilled := tm.divSpilled + 1 } c (afterClause c)))) ∧
  (∀ disp old rest base s2 s3, Runs s id (.call disp) → HeaderAt s id (braTarget tm disp) s1 →
    StacksFit s1 tm (divCount tm) (callCount tm + 1) →
    tm.calls = rest ++ [old] → rest.length = 15 → SpillAt s1 tm base s2 → WritesCall s2 tm base tm.callSpilled old s3 →
    exec (.call disp) s = .next (s3.setTeam id (movedTo { tm with
      calls := CallEntry.mk (afterClause c) (divCount tm) :: rest
      callSpilled := tm.callSpilled + 1 } c (braTarget tm disp)))) ∧
  (∀ n base v s2 s3 s4, Runs s id .ret → tm.calls = [] → tm.callSpilled = n + 1 → SpillAt s tm base s2 →
    s2.readRange (tm.who pathLS) (base + (s2.launch tm.launch).spsz.toNat - 16 * (n + 1)) 16 true = (.value v, s3) →
    v / 2 ^ 64 % 2 ^ 32 = divCount tm → HeaderAt s3 id (BitVec.ofNat 64 v) s4 →
    exec .ret s = .next (s4.setTeam id (movedTo { tm with callSpilled := n } c (BitVec.ofNat 64 v)))) ∧
  (∀ n base v s2 s3, Runs s id .join → tm.divs = [] → tm.divSpilled = n + 1 → SpillAt s tm base s2 →
    s2.readRange (tm.who pathLS) (base + n * divSize tm) (8 + 4 * ((tm.lanes + 31) / 32)) true = (.value v, s3) →
    (v / 2 ^ 64 % 2 ^ (32 * ((tm.lanes + 31) / 32))) &&& tm.live ≠ 0 →
    exec .join s = .next (s3.setTeam id (movedTo { tm with
      divSpilled := n, mask := (v / 2 ^ 64 % 2 ^ (32 * ((tm.lanes + 31) / 32))) &&& tm.live } c (BitVec.ofNat 64 v))))

open Sys2Proof Sys2Proof.Machine Sys2Proof.Claims in
/-- join and exit (R157, R160, R223) over the entries on chip: exit discards the ray state of the lanes that end; entries without a live lane are popped and dropped, the first with one
gives the mask its live lanes and control its address; when no entry has one the team retires; join on an empty stack with a
live lane in the mask traps. A retiring team has no lane, no stack and no clause left, and its registers stay. Control moves
on by an instruction's words (R100, R106): outside a replay to the next word, or past the clause's last word to the next
clause; inside a replay to the next body word, or back to the first for the next execution. nop does only that; yield gives
the clause's header HINT 1 besides (R161). -/
def Obligations.JoinExitAndMovingOn : Prop :=
  (∀ s id c, let tm := s.team id
   let gone (t : Team) : Team := { t with
     st := .retiring, wait := .none, mask := 0, live := 0, divs := [], divSpilled := 0, calls := [], callSpilled := 0
     clause := none, rep := none }
   let without (live : Nat) (t : State) : State :=
     { t with rays := t.rays.filter fun e => e.1 / 1024 != id || live.testBit (e.1 % 1024) }
   tm.clause = some c →
   (∀ dead e r, Runs s id .join → tm.divs = dead ++ e :: r → (∀ x ∈ dead, x.mask &&& tm.live = 0) →
     e.mask &&& tm.live ≠ 0 →
     exec .join s = .next (s.setTeam id (movedTo { tm with divs := r, mask := e.mask &&& tm.live } c e.pc))) ∧
   (Runs s id .join → (∀ x ∈ tm.divs, x.mask &&& tm.live = 0) → tm.divSpilled = 0 →
     (tm.divs ≠ [] ∨ tm.mask &&& tm.live = 0) →
     exec .join s = .next (s.setTeam id (gone { tm with prev := tm.pc }))) ∧
   (Runs s id .join → tm.divs = [] → tm.divSpilled = 0 → tm.mask &&& tm.live ≠ 0 →
     exec .join s = .next (s.teamTrap id (Trap.mk 0x01 s.cur.w1 0xFFFFFFFF 0))) ∧
   (∀ rest, Runs s id .exit → (∀ l, rest.testBit l = (tm.live.testBit l && !tm.mask.testBit l)) →
     (∀ dead e r, tm.divs = dead ++ e :: r → (∀ x ∈ dead, x.mask &&& rest = 0) → e.mask &&& rest ≠ 0 →
       exec .exit s = .next (without rest (s.setTeam id
         (movedTo { tm with divs := r, live := rest, mask := e.mask &&& rest } c e.pc)))) ∧
     ((∀ x ∈ tm.divs, x.mask &&& rest = 0) → tm.divSpilled = 0 →
       exec .exit s = .next (without 0 (s.setTeam id (gone { tm with prev := tm.pc })))))) ∧
  ((∀ (t : Team) k, t.rep = none → (∀ c, t.clause = some c → afterClause c ≠ t.pc + BitVec.ofNat 64 (4 * k)) →
     t.advance k = { t with prev := t.pc, pc := t.pc + BitVec.ofNat 64 (4 * k) }) ∧
   (∀ (t : Team) k c, t.rep = none → t.clause = some c → afterClause c = t.pc + BitVec.ofNat 64 (4 * k) →
     t.advance k = movedTo t c (t.pc + BitVec.ofNat 64 (4 * k))) ∧
   (∀ (t : Team) k r, t.rep = some r → r.i + 1 < r.n →
     t.advance k = { t with prev := t.pc, pc := t.pc + BitVec.ofNat 64 (4 * k), rep := some { r with i := r.i + 1 } }) ∧
   (∀ (t : Team) k r, t.rep = some r → r.i + 1 = r.n → r.k + 1 < r.count →
     t.advance k = { t with prev := t.pc, pc := r.rpt + 4, rep := some { r with i := 0, k := r.k + 1 } }) ∧
   (∀ (t : Team) k r, t.rep = some r → r.i + 1 = r.n → r.k + 1 = r.count →
     (∀ c, t.clause = some c → afterClause c ≠ t.pc + BitVec.ofNat 64 (4 * k)) →
     t.advance k = { t with prev := t.pc, pc := t.pc + BitVec.ofNat 64 (4 * k), rep := none }) ∧
   (∀ s id, Runs s id .nop → Completes s id .nop (s.team id)) ∧
   (∀ s id c, Runs s id .yield → (s.team id).clause = some c →
     Completes s id .yield { s.team id with clause := some { c with hint := 1 } }))

open Sys2Proof Sys2Proof.Machine Sys2Proof.Claims in
/-- A header and rpt (R100 to R102, R106, R168): with no deferred error due, the words of the clause well placed and every
counter of WAIT at zero, the team enters the clause the header describes; with a counter above zero it waits at the header; a
clause with a word out of its place traps at that word with cause 0x01. rpt starts the replay of its body: 0 stands for 16 words
and for 64 executions. -/
def Obligations.HeadersAndReplays : Prop :=
  ∀ s id s1, let tm := s.team id
  (∀ w a b l h, Runs s id (.hdr w a b l h) → tm.dueError = none →
    (∀ i : Nat, i < 12 → w.getLsbD i = true → tm.counter i = 0) →
    s.scan id (tm.pc + BitVec.ofNat 64 (4 * (1 + l.toNat))) l.toNat (tm.pc + 4) = (.ok, s1) →
    ∃ tm' : Team, exec (.hdr w a b l h) s = .next (s1.setTeam id tm') ∧
      tm' = { tm with
        clause := some (Clause.mk tm.pc a b l.toNat h.toNat), prev := tm.pc, pc := tm.pc + 4
        observed := tm'.observed, finished := tm'.finished } ∧
      (∀ o, o ∈ tm'.observed ↔ o ∈ tm.observed ∨ ∃ f, (o, f) ∈ tm.finished ∧ w.getLsbD f = true) ∧
      (∀ e, e ∈ tm'.finished ↔ e ∈ tm.finished ∧ w.getLsbD e.2 = false)) ∧
  (∀ w a b l h, Runs s id (.hdr w a b l h) → tm.dueError = none →
    (∃ i : Nat, i < 12 ∧ w.getLsbD i = true ∧ tm.counter i ≠ 0) →
    s.scan id (tm.pc + BitVec.ofNat 64 (4 * (1 + l.toNat))) l.toNat (tm.pc + 4) = (.ok, s1) →
    ∃ st, (st = .parked ∨ st = .clauseWait) ∧
      (st = .parked ↔ ∃ e ∈ s1.ops, e.2.party = .team id ∧ w.getLsbD e.2.flag = true ∧ e.2.held ≠ []) ∧
      exec (.hdr w a b l h) s = .next (s1.setTeam id { tm with st := st, wait := .none, hdrWord := s1.cur.w1 })) ∧
  (∀ w a b l h pc x, Runs s id (.hdr w a b l h) → tm.dueError = none →
    s.scan id (tm.pc + BitVec.ofNat 64 (4 * (1 + l.toNat))) l.toNat (tm.pc + 4) = (.bad pc x, s1) →
    exec (.hdr w a b l h) s = .next (s.teamTrapAt id (Trap.mk 0x01 x 0xFFFFFFFF 0) false pc
      (some (Clause.mk tm.pc a b l.toNat h.toNat)))) ∧
  (∀ l cnt d a b c, Runs s id (.rpt l cnt d a b) → tm.clause = some c →
    let n := if l = 0 then 16 else l.toNat
    s.checkBody id (afterClause c) d.toNat a.toNat b.toNat n (tm.pc + 4) = (.ok, s1) →
    exec (.rpt l cnt d a b) s = .next (s1.setTeam id { tm with
      rep := some (Rep.mk tm.pc n (if cnt = 0 then 64 else cnt.toNat) d.toNat a.toNat b.toNat 0 0)
      prev := tm.pc, pc := tm.pc + 4 }))

namespace Sys2Proof.Claims

open Machine

/-! ## Team traps (R325 to R333) -/

/-- The instructions of teams: the opcode table lists them first, and nodeq is their last. -/
def isTeam (i : Instr) : Bool := i.ctorIdx ≤ (Instr.nodeq 0 noGuard false 0).ctorIdx

/-- The handler of a cause, from the 256 bytes v of the trap-handler table (R325): the cause's own address, or the default
at entry 0. -/
def handlerAddress (v : Nat) (code : BitVec 8) : W64 :=
  let own : W64 := BitVec.ofNat 64 (v / 2 ^ (64 * code.toNat))
  if own = 0 then BitVec.ofNat 64 v else own

/-- Team id is outside handler mode, and its trap-handler table can be read: it holds v, with a handler for the cause; s1 is
the state after the read. -/
def HandlerFor (s : State) (id : Nat) (code : BitVec 8) (v : Nat) (s1 : State) : Prop :=
  let tm := s.team id
  tm.tstat.getLsbD 6 = false ∧ s.readRange (tm.who pathLS) (s.launch tm.launch).trapt.toNat 256 true = (.value v, s1) ∧
    handlerAddress v code ≠ 0

/-- Team tm' is team tm after it entered its handler for trap tr (R327, R328): the trap registers are saved, the handler's
segments are in force (bit 57 of a word SGCTL is reserved and reads zero), HND is set and control is at the handler; every register, predicate, stack and counter is as it
was. -/
def Entered (tm tm' : Team) (tr : Trap) (v : Nat) : Prop :=
  tm' = { tm with
    tcause := tm'.tcause
    tepc := tm.pc
    tinfo := tr.info
    tlane := tr.lane
    taddr := if tr.code.toNat ∈ [0x03, 0x04, 0x09, 0x0A, 0x0C, 0x0E] then tr.addr else 0
    tcls := tm'.tcls
    tret := if tr.code.toNat = 0x08 then 1 else 0
    tmask := tm.mask
    sgSaved := tm.sg
    sg := tm'.sg
    tstat := tm.tstat ||| 0x40
    tclause := tm.clause
    trep := tm.rep
    clause := none
    rep := none
    pc := handlerAddress v tr.code
    prev := tm.pc
    st := .ready
    wait := .none } ∧
  (∀ i, i < 8 → Tbl.get tm'.sg 0 i = BitVec.ofNat 128 (v / 2 ^ (1024 + 128 * i)) &&& ~~~ ((1 : BitVec 128) <<< 121)) ∧
  tm'.tcause.extractLsb' 0 8 = tr.code ∧ tm'.tcause.extractLsb' 8 5 = 0 ∧
  (tm.rep = none → tm'.tcause.extractLsb' 13 19 = 0) ∧
  (∀ r, tm.rep = some r → r.k < 64 → r.i < 16 → tm'.tcause.extractLsb' 13 1 = 1 ∧
    (tm'.tcause.extractLsb' 14 4).toNat = r.i ∧ (tm'.tcause.extractLsb' 18 6).toNat = r.k) ∧
  (∀ c p, tm.clause = some c → tm.pc = c.hdr + BitVec.ofNat 64 (4 * (p + 1)) → p < 16 → c.len < 16 →
    tm'.tcls = (0 : BitVec 16) ++ c.fla ++ c.flb ++ BitVec.ofNat 4 c.len ++ BitVec.ofNat 4 p)

/-- The clause that a team resumes at pc: that of TCLS when the pc lies inside it (R333). -/
def resumed (tm : Team) (pc : W64) : Option Clause :=
  match tm.tclause with
  | none => none
  | some c =>
    let r := Clause.mk c.hdr (tm.tcls.extractLsb' 12 4) (tm.tcls.extractLsb' 8 4) (tm.tcls.extractLsb' 4 4).toNat c.hint
    if r.hdr.toNat < pc.toNat ∧ pc.toNat < (afterClause r).toNat then some r else none

/-- The team that eret leaves (R333), but for its clause and replay: the saved mask and segments, no HND, the pc TEPC. The
handler's clause is left, and asks to yield when its HINT is 1 (R105). -/
def restored (tm : Team) (live : Nat) : Team :=
  { tm with
    mask := tm.tmask &&& tm.live, live := live, sg := tm.sgSaved, tstat := tm.tstat &&& ~~~ 0x40, pc := tm.tepc
    prev := tm.pc, prevClause := tm.clause.or tm.prevClause
    yielded := (tm.clause.any fun c => decide (c.hint = 1)) || tm.yielded }

/-- The lanes that stay live: those of the restored mask and of the entries of the divergence stack. -/
def Reachable (tm : Team) (live : Nat) : Prop :=
  ∀ l, live.testBit l = (tm.live.testBit l && (tm.tmask.testBit l || tm.divs.any fun e => e.mask.testBit l))

/-- The instruction traps: the next state is that of the team in its handler. -/
def TrapsInto (s : State) (id : Nat) (i : Instr) (tr : Trap) (v : Nat) (s1 : State) : Prop :=
  ∃ tm' : Team, exec i s = .next (s1.setTeam id tm') ∧ Entered (s.team id) tm' tr v

end Sys2Proof.Claims

open Sys2Proof Sys2Proof.Machine Sys2Proof.Claims in
/-- trap and brk (R161, R326, R328): the team takes cause 0x08 with the code in TINFO, for brk 0x10000, and SKIP set. Checks
before any effect (R108): whatever instruction of the table of teams it is, an ill-formed one traps with cause 0x01 and the
failing word in TINFO, and one that needs no optional unit and names a register that does not exist or is not aligned with
cause 0x02; nothing else of the machine changes. -/
def Obligations.TrapsOnPurposeAndByForm : Prop :=
  (∀ s id v s1, HandlerFor s id 0x08 v s1 →
   (∀ c, Runs s id (.trap c) → TrapsInto s id (.trap c) (Trap.mk 0x08 (c.setWidth 32) 0xFFFFFFFF 0) v s1) ∧
   (Runs s id .brk → TrapsInto s id .brk (Trap.mk 0x08 0x10000 0xFFFFFFFF 0) v s1)) ∧
  (∀ s id i v s1 second, isTeam i = true → s.cur.party = .team id →
   (i.illIn = some second → HandlerFor s id 0x01 v s1 →
     TrapsInto s id i (Trap.mk 0x01 (if second then s.cur.w2 else s.cur.w1) 0xFFFFFFFF 0) v s1) ∧
   (i.ctorIdx ≤ (Instr.fmaMix false 0 0 0 0 0 noGuard false false).ctorIdx → i.illIn = none →
     i.regsBad (s.team id).n = some second → HandlerFor s id 0x02 v s1 →
     TrapsInto s id i (Trap.mk 0x02 (if second then s.cur.w2 else s.cur.w1) 0xFFFFFFFF 0) v s1))

open Sys2Proof Sys2Proof.Machine Sys2Proof.Claims in
/-- A trap taken in handler mode kills the team with code 0xFFFE and posts a fault record with the new cause and TEPC
(R329); a trap whose handler address is 0 kills it with code 0xFFFF (R325). A killed team retires, the launch counts it
and keeps the first code (R332); one that held no room on an engine still holds none. -/
def Obligations.NestedTrapsKill : Prop :=
  ∀ (s : State) (id : Nat) (tr : Trap), let tm := s.team id
  let l := s.launch tm.launch
  let dead (code : W32) (t : State) : Prop :=
    t.team id = { tm with
      st := .retiring, wait := .none, mask := 0, live := 0, divs := [], divSpilled := 0, calls := [], callSpilled := 0
      clause := none, rep := none, killed := some code
      roomless := decide (tm.st = .admitting ∨ tm.st = .parkedOff) || tm.roomless } ∧
    t.launch tm.launch = { l with
      kteams := min (l.kteams + 1) 0xFFFF, code := if l.kteams = 0 then code else l.code }
  (tm.tstat.getLsbD 6 = true →
    dead 0xFFFE (s.teamTrap id tr) ∧
    ∃ t, dead 0xFFFE t ∧ s.teamTrap id tr = t.postFault tm.cl (FaultRec.mk l.part tm.pc l.ctx 8 0 0
      (BitVec.ofNat 64 (tr.code.toNat * 2 ^ 57 + tm.pc.toNat % 2 ^ 57)))) ∧
  (∀ v s1, tm.tstat.getLsbD 6 = false → s.readRange (tm.who pathLS) l.trapt.toNat 256 true = (.value v, s1) →
    handlerAddress v tr.code = 0 → s.teamTrap id tr = s1.killTeam id 0xFFFF) ∧
  (∀ code, dead code (s.killTeam id code))

open Sys2Proof Sys2Proof.Machine Sys2Proof.Claims in
/-- The status registers (R46, R327, R330): outside handler mode only TSTAT may be named, and another traps with cause 0x0B;
inside it an unassigned number traps with cause 0x01. csrr reads the register into the uniform register; csrw, csrs and
csrc write, set and clear the bits that software may write, and leave every other register as it was. -/
def Obligations.StatusRegisters : Prop :=
  ∀ s id d n, let tm := s.team id
  let assigned : Bool := n ≤ 9 || n == 0x010 || n == 0x011 || (0x020 ≤ n && n ≤ 0x03F)
  let regs : List Instr := [.csrr d n, .csrw d n, .csrs d n, .csrc d n]
  (∀ i ∈ regs, Runs s id i → n ≠ 0 → tm.tstat.getLsbD 6 = false → 
    exec i s = .next (s.teamTrap id (Trap.mk 0x0B s.cur.w1 0xFFFFFFFF 0))) ∧
  (∀ i ∈ regs, Runs s id i → tm.tstat.getLsbD 6 = true → assigned = false →
    exec i s = .next (s.teamTrap id (Trap.mk 0x01 s.cur.w1 0xFFFFFFFF 0))) ∧
  (Runs s id (.csrr d n) → assigned = true → (n = 0 ∨ tm.tstat.getLsbD 6 = true) →
    ∃ tm' : Team, Completes s id (.csrr d n) tm' ∧ tm' = { tm with g := tm'.g } ∧
      ∀ r, tm'.greg r = if r = d.toNat then
          (match n.toNat with
          | 0x000 => tm.tstat
          | 0x001 => tm.tcause
          | 0x002 => tm.tepc.extractLsb' 0 32
          | 0x003 => tm.tepc.extractLsb' 32 32
          | 0x004 => tm.tinfo
          | 0x005 => tm.tlane
          | 0x006 => tm.taddr.extractLsb' 0 32
          | 0x007 => tm.taddr.extractLsb' 32 32
          | 0x008 => tm.tcls
          | 0x009 => tm.tret
          | 0x010 => (s.cluster tm.cl).mstat
          | 0x011 => tm.tclass
          | _ => BitVec.ofNat 32 (tm.tmask / 2 ^ (32 * (n.toNat - 0x020))))
        else tm.greg r) ∧
  (∀ i ∈ regs.tail, Runs s id i → assigned = true → (n = 0 ∨ tm.tstat.getLsbD 6 = true) →
    let x := tm.greg d.toNat
    let put (old : W32) : W32 :=
      if i = .csrw d n then x else if i = .csrs d n then old ||| x else old &&& ~~~ x
    match n.toNat with
    | 0x000 => Completes s id i { tm with tstat := (tm.tstat &&& 0x40) ||| (put tm.tstat &&& 0x3F) }
    | 0x002 => Completes s id i
        { tm with tepc := tm.tepc.extractLsb' 32 32 ++ put (tm.tepc.extractLsb' 0 32) }
    | 0x003 => Completes s id i
        { tm with tepc := put (tm.tepc.extractLsb' 32 32) ++ tm.tepc.extractLsb' 0 32 }
    | 0x009 => Completes s id i { tm with tret := put tm.tret &&& 1 }
    | 0x010 => exec i s = .next ((s.setCluster tm.cl { s.cluster tm.cl with
        mstat := if i = .csrc d n then (s.cluster tm.cl).mstat else (s.cluster tm.cl).mstat &&& ~~~ x }).setTeam id
          (tm.advance (s.cur.len / 4)))
    | 0x011 => Completes s id i { tm with tclass := put tm.tclass }
    | _ => if n.toNat < 0x020 then Completes s id i tm else
        ∃ m : Nat, Completes s id i { tm with tmask := m } ∧
          ∀ b, m.testBit b = if b / 32 = n.toNat - 0x020
            then (put (BitVec.ofNat 32 (tm.tmask / 2 ^ (32 * (n.toNat - 0x020))))).getLsbD (b % 32) && tm.live.testBit b
            else tm.tmask.testBit b)

open Sys2Proof Sys2Proof.Machine Sys2Proof.Claims in
/-- Leaving the handler (R105, R330 to R333): outside handler mode tpark, tkill and eret trap with cause 0x0B. eret gives the team
the saved mask without the lanes that ended, its own segments and the pc TEPC, past the instruction there when SKIP is
set, and the replay that TCAUSE.REP names: where a frame has set REP and no trap left a replay, that of the rpt before
TEPC in its clause, which is the model's reading (log 111); lanes that no entry can bring back end. tkill retires the
team. tpark takes a full word into its pair and goes on at the next clause, and parks the team otherwise. -/
def Obligations.LeavingTheHandler : Prop :=
  ∀ s id, let tm := s.team id
  (∀ i, ((∃ a d, i = .tpark a d) ∨ (∃ c, i = .tkill c) ∨ i = .eret) → Runs s id i → tm.tstat.getLsbD 6 = false →
    exec i s = .next (s.teamTrap id (Trap.mk 0x0B s.cur.w1 0xFFFFFFFF 0))) ∧
  (∀ c, Runs s id (.tkill c) → tm.tstat.getLsbD 6 = true →
    exec (.tkill c) s = .next (s.killTeam id (c.setWidth 32))) ∧
  (Runs s id .eret → tm.tstat.getLsbD 6 = true → tm.tret.getLsbD 0 = false → tm.divSpilled = 0 →
    tm.tmask &&& tm.live ≠ 0 → (tm.tcause.getLsbD 13 = true → tm.trep ≠ none ∨ tm.tclause = none) →
    ∃ live : Nat, exec .eret s = .next (s.setTeam id { restored tm live with
        clause := resumed tm tm.tepc
        rep := if tm.tcause.getLsbD 13 then tm.trep.map fun r => { r with
            k := (tm.tcause.extractLsb' 18 6).toNat, i := (tm.tcause.extractLsb' 14 4).toNat } else none }) ∧
      Reachable tm live) ∧
  (∀ c r, Runs s id .eret → tm.tstat.getLsbD 6 = true → tm.tret.getLsbD 0 = false → tm.divSpilled = 0 →
    tm.tmask &&& tm.live ≠ 0 → tm.tcause.getLsbD 13 = true → tm.trep = none → tm.tclause = some c →
    (s.setTeam id { tm with sg := tm.sgSaved }).findRep id tm.tepc (c.hdr + 4) none 16 = r →
    ∃ live : Nat, exec .eret s = .next (s.setTeam id { restored { tm with trep := r } live with
        clause := resumed tm tm.tepc
        rep := r.map fun r => { r with
            k := (tm.tcause.extractLsb' 18 6).toNat, i := (tm.tcause.extractLsb' 14 4).toNat } }) ∧
      Reachable tm live) ∧
  (∀ s1 w, Runs s id .eret → tm.tstat.getLsbD 6 = true → tm.tret.getLsbD 0 = true → tm.tcause.getLsbD 13 = false →
    tm.divSpilled = 0 → tm.tmask &&& tm.live ≠ 0 →
    (s.setTeam id { tm with sg := tm.sgSaved }).fetchWord id tm.tepc.toNat = (.word w, s1) →
    let next := tm.tepc + BitVec.ofNat 64 (4 * teamLen w)
    (∀ c, resumed tm tm.tepc = some c → tm.tepc.toNat < next.toNat ∧ next.toNat ≤ (afterClause c).toNat) →
    ∃ (live : Nat) (tm' : Team), exec .eret s = .next (s1.setTeam id tm') ∧
      tm' = { restored tm live with pc := next, clause := resumed tm next, rep := none } ∧
      Reachable tm live) ∧
  (Runs s id .eret → tm.tstat.getLsbD 6 = true → tm.tret.getLsbD 0 = false → tm.divs = [] → tm.divSpilled = 0 →
    tm.tmask &&& tm.live = 0 →
    ∃ tm' : Team, exec .eret s = .next (s.setTeam id tm') ∧ tm'.st = .retiring ∧ tm'.live = 0 ∧ tm'.mask = 0 ∧
      tm'.v = tm.v ∧ tm'.g = tm.g ∧ tm'.p = tm.p ∧ tm'.gp = tm.gp ∧ tm'.cf = tm.cf) ∧
  (∀ a d k, Runs s id (.tpark a d) → tm.tstat.getLsbD 6 = true →
    s.barrierKey tm (BitVec.ofNat 64 (tm.gpair a.toNat)) = .ok k → (tm.drained = false ∨ s.isFull k = false) →
    exec (.tpark a d) s = .next (s.setTeam id
      { tm.nextClause with st := .parked, wait := .tpark (BitVec.ofNat 64 (tm.gpair a.toNat)) d.toNat })) ∧
  (∀ a d k, Runs s id (.tpark a d) → tm.tstat.getLsbD 6 = true →
    s.barrierKey tm (BitVec.ofNat 64 (tm.gpair a.toNat)) = .ok k → tm.drained = true → s.isFull k = true →
    s.isPoisoned k = false →
    ∃ (s' : State) (tm' : Team), exec (.tpark a d) s = .next (s'.setTeam id tm') ∧
      tm' = { tm.nextClause with g := tm'.g, st := .ready, wait := .none } ∧
      tm'.gpair d.toNat = s.readKey k 8 ∧ (∀ r, r ≠ d.toNat → r ≠ d.toNat + 1 → tm'.greg r = tm.greg r) ∧
      s'.mem = s.mem ∧ (∀ j, s'.isFull j = if keyBlock 8 j = keyBlock 8 k then false else s.isFull j))

namespace Sys2Proof.Claims

open Machine

/-! ## Memory instructions of a team (R103, R166 to R176, R182) -/

/-- What an instruction that accesses memory lane by lane asks for: the flag, what it does, form, destination, address
pair, segment, rights, offset in accesses, size and natural alignment of a lane's access, whether it may name windows
only, the data read at issue, and the guard. -/
structure LaneAccess where
  f : Bool
  op : MemOp
  u : Bool
  d : BitVec 7
  a : BitVec 7
  sg : BitVec 3
  need : Need
  off : Int
  size : Team → Nat → Nat
  align : Nat
  window : Bool
  data : Team → Nat → Nat
  data2 : Team → Nat → Nat
  gd : Guard

/-- Loads: RD of the segment. -/
def loads (op : MemOp) (n : Nat) (u : Bool) (d a : BitVec 7) (sg : BitVec 3) (f : Bool) (o : Int) : LaneAccess :=
  ⟨f, op, u, d, a, sg, needRead, o, fun _ _ => n, n, false, fun _ _ => 0, fun _ _ => 0, noGuard⟩

/-- Stores: W of the segment, and the low n bytes of the registers from d on as data. -/
def stores (op : MemOp) (n : Nat) (u : Bool) (d a : BitVec 7) (sg : BitVec 3) (f : Bool) (o : Int) : LaneAccess :=
  ⟨f, op, u, d, a, sg, needWrite, o, fun _ _ => n, n, false,
    fun t l => t.rd u l d.toNat (if n ≤ 4 then 1 else n / 4) % 2 ^ (8 * n), fun _ _ => 0, noGuard⟩

/-- The instructions that access memory lane by lane (R93 to R96, R169 to R173, R175, R176, R182). -/
def laneAccess : Instr → Option LaneAccess
  | .ldZ8 u d a sg f o => some (loads (.load 1 false) 1 u d a sg f o.toInt)
  | .ldS8 u d a sg f o => some (loads (.load 1 true) 1 u d a sg f o.toInt)
  | .ldZ16 u d a sg f o => some (loads (.load 2 false) 2 u d a sg f o.toInt)
  | .ldS16 u d a sg f o => some (loads (.load 2 true) 2 u d a sg f o.toInt)
  | .ld32 u d a sg f o => some (loads (.load 4 false) 4 u d a sg f o.toInt)
  | .ld64 u d a sg f o => some (loads (.load 8 false) 8 u d a sg f o.toInt)
  | .ld128 u d a sg f o => some (loads (.load 16 false) 16 u d a sg f o.toInt)
  | .ldNc u d a sg f o => some (loads .loadNc 4 u d a sg f o.toInt)
  | .st8 u d a sg f o => some (stores (.store 1) 1 u d a sg f o.toInt)
  | .st16 u d a sg f o => some (stores (.store 2) 2 u d a sg f o.toInt)
  | .st32 u d a sg f o => some (stores (.store 4) 4 u d a sg f o.toInt)
  | .st64 u d a sg f o => some (stores (.store 8) 8 u d a sg f o.toInt)
  | .st128 u d a sg f o => some (stores (.store 16) 16 u d a sg f o.toInt)
  | .ldFe u d a sg f o => some { loads .ldFe 8 u d a sg f o.toInt with need := needBoth, window := true }
  | .stFe u d a sg f o => some { stores .stFe 8 u d a sg f o.toInt with need := needBoth, window := true }
  | .feSet u d a sg f o =>
    some { loads (.feSet (d == 1)) 8 u d a sg f o.toInt with need := needBoth, window := true }
  | .ldAcq u d a sg f e z => some (loads (.ldAcq (2 ^ z.toNat) e.toNat) (2 ^ z.toNat) u d a sg f 0)
  | .stRel u d a sg f e z => some (stores (.stRel (2 ^ z.toNat) e.toNat) (2 ^ z.toNat) u d a sg f 0)
  | .atom u d a sg f k z => some { stores (.atom k.toNat (4 * (z.toNat + 1)) true) (4 * (z.toNat + 1)) u d a sg f 0 with
      need := needAtomic }
  | .atomNr u d a sg f k z => some { stores (.atom k.toNat (4 * (z.toNat + 1)) false) (4 * (z.toNat + 1)) u d a sg f 0 with
      need := needAtomicNr }
  | .atomCas u d a sg f z => some { stores (.cas (4 * (z.toNat + 1))) (4 * (z.toNat + 1)) u d a sg f 0 with
      need := needAtomic, data2 := fun t l => t.rd u l (d.toNat + (z.toNat + 1)) (z.toNat + 1) }
  | .discard u d a sg f => some ⟨f, .discard, u, d, a, sg, needWrite, 0, fun t l => (reg t u l d).toNat, 1, false,
      fun t l => (reg t u l d).toNat, fun _ _ => 0, noGuard⟩
  | .cmaint u a sg f k e => some (loads (.cmaint k.toNat e.toNat) 256 u 0 a sg f 0)
  | .gath d a gd f z sg => some { loads (.gath (4 * 2 ^ z.toNat)) (4 * 2 ^ z.toNat) false d a sg f 0 with gd := gd }
  | .scat d a gd f z sg => some { stores (.scat (4 * 2 ^ z.toNat)) (4 * 2 ^ z.toNat) false d a sg f 0 with gd := gd }
  | _ => none

/-- The lanes that access: those that take part, rising; a uniform form accesses once. -/
def LaneAccess.lanes (x : LaneAccess) (t : Team) : List Nat :=
  if x.u then [0] else (List.range t.lanes).filter fun l => t.acts false x.gd l

/-- The first byte of a lane's access (R49, R93): the pair a plus the offset in accesses, exactly. -/
def LaneAccess.first (x : LaneAccess) (t : Team) (l : Nat) : Int :=
  (t.rd x.u l x.a.toNat 2 : Int) + x.off * (x.size t l : Int)

/-- The check of a lane (R49, R170); an empty range is not checked (R176). -/
def LaneAccess.check (x : LaneAccess) (s : State) (t : Team) (l : Nat) : Check :=
  if x.size t l = 0 then .ok
  else
    let r := checkNamed (s.launch t.launch) t.launch (Tbl.get t.sg 0 x.sg.toNat) x.need (x.first t l) (x.size t l) x.align
    if r ≠ .violation ∧ x.window = true ∧ inWindows (x.first t l).toNat = false then .violation else r

/-- The lanes' parts of the operation. -/
def LaneAccess.units (x : LaneAccess) (t : Team) : List Unit1 :=
  (x.lanes t).map fun l => Unit1.mk l (BitVec.ofInt 64 (x.first t l)) (x.data t l) (x.data2 t l)
    (segL (Tbl.get t.sg 0 x.sg.toNat))

/-- The machine s1 with one more operation of n parts in flight for team id, of a long-latency instruction at its pc, which
flag counter c counts, and control moved on (R103). -/
def issued (s s1 : State) (id c : Nat) (kind : OpKind) (n : Nat) : State :=
  let tm := s.team id
  ({ s1 with
    ops := Tbl.put s1.ops s1.nextOp
      { party := .team id, kind := kind, flag := c, pc := tm.pc, handler := tm.tstat.getLsbD 6
        until_ := s1.feUntil tm.cl, todo := List.range n }
    nextOp := s1.nextOp + 1 } : State).setTeam id ((tm.setCounter c (tm.counter c + 1)).advance (s1.cur.len / 4))

/-- A long-latency instruction issues (R103), where its clause's header gives its flag counter c: an operation of n parts is
in flight, the counter counts it, and control moves on; a full counter holds the team. No register and no byte of memory
changes. s1 is the machine after a read that the instruction makes at issue. -/
def IssuesAfter (s s1 : State) (id : Nat) (i : Instr) (f : Bool) (kind : OpKind) (n : Nat) : Prop :=
  let tm := s.team id
  ∀ c cl, tm.clause = some cl → (if f then cl.flb else cl.fla).toNat = c → c < 12 →
    (tm.counter c < 63 → exec i s = .next (issued s s1 id c kind n)) ∧ (63 ≤ tm.counter c → exec i s = .next s1)

def IssuesOp (s : State) (id : Nat) (i : Instr) (f : Bool) (kind : OpKind) (n : Nat) : Prop := IssuesAfter s s id i f kind n

/-- A register result is in place: k registers from d on of a lane, or uniform ones, hold v, and no other register of the
team changed. -/
def Landed (t t' : Team) (u : Bool) (l d k v : Nat) : Prop :=
  OnlyRegs t t' u d k (fun m => u || m == l) 0 ∧ t'.rd u l d k = v % 2 ^ (32 * k)

/-- The byte that a write of bs over pieces leaves at a key, where it leaves one. -/
def written (ps : List Piece) (bs : List Byte) (k : Nat) : Option Byte :=
  match ps with
  | [] => none
  | p :: r =>
    match written r (bs.drop p.len) k with
    | some b => some b
    | none =>
      if keyKind k = keyKind p.key ∧ keyPlace p.key ≤ keyPlace k ∧ keyPlace k < keyPlace p.key + p.len then
        (bs.take p.len)[keyPlace k - keyPlace p.key]?
      else none

/-- The machine once the host has been shown what a store covers as a release, at system scope (R285, R289). -/
def seenAtHost (s : State) (id t : Nat) (m : MemOp) : State :=
  match m with
  | .stRel _ scope => (s.releaseFenced id t pathLS).releaseHost scope
  | _ => s.releaseFenced id t pathLS

/-- New value of an atomic of 32 or 64 bits (R172): add, minima, maxima, bitwise, exchange, and the wrapping increment and
decrement. -/
def atomicResult (w code : Nat) (o x : BitVec w) : BitVec w :=
  match code with
  | 0 => o + x
  | 1 => if o.toInt ≤ x.toInt then o else x
  | 2 => if o ≤ x then o else x
  | 3 => if o.toInt ≤ x.toInt then x else o
  | 4 => if o ≤ x then x else o
  | 5 => o &&& x
  | 6 => o ||| x
  | 7 => o ^^^ x
  | 8 => x
  | 9 => if x ≤ o then 0 else o + 1
  | _ => if o = 0 ∨ x < o then x else o - 1

/-- Whether an f32 is a NaN. -/
abbrev IsNan32 (x : W32) : Prop := 0x7F800000 < (x &&& 0x7FFFFFFF)

/-- The order of the f32 numbers, -0 below +0. -/
def order32 (x : W32) : Int := if x.msb then -Int.ofNat (x &&& 0x7FFFFFFF).toNat - 1 else Int.ofNat x.toNat

/-- New value of an f32 atomic (R172, R61, R132): code 11 the sum, rounded to nearest and even; 12 and 13 the smaller and the
larger number, -0 below +0, or the operand that is no NaN. -/
def FloatAtomic (code : Nat) (o x new : W32) : Prop :=
  if code = 11 then
    if IsNan32 o ∨ IsNan32 x then new = 0x7FC00000
    else if o &&& 0x7FFFFFFF = 0x7F800000 then new = if x = o ^^^ 0x80000000 then 0x7FC00000 else o
    else if x &&& 0x7FFFFFFF = 0x7F800000 then new = x
    else ∀ n1 m1 e1 n2 m2 e2, f32.decode o.toNat = .fin n1 m1 e1 → f32.decode x.toNat = .fin n2 m2 e2 →
      let low := min e1 e2
      let sum := sgnInt n1 m1 * 2 ^ (e1 - low).toNat + sgnInt n2 m2 * 2 ^ (e2 - low).toNat
      new = if sum = 0 then (if o = 0x80000000 ∧ x = 0x80000000 then 0x80000000 else 0)
        else BitVec.ofNat 32 (f32.round 0 false 0 (.fin (decide (sum < 0)) sum.natAbs low)).1
  else
    if IsNan32 o ∧ IsNan32 x then new = 0x7FC00000
    else if IsNan32 o then new = x
    else if IsNan32 x then new = o
    else new = if (order32 o ≤ order32 x ↔ code = 12) then o else x

end Sys2Proof.Claims

open Sys2Proof Sys2Proof.Machine Sys2Proof.Claims in
/-- The memory instructions of teams issue when every lane's access passes its check and no acquire load is outstanding (R49,
R103, R166, R171): one operation with the lanes' addresses and data as they are now; pref moves on and changes
no register, no byte of memory and no full/empty bit (R175). An access that
fails its check traps at the instruction, before any lane accesses memory (R49, R166, R326): the lowest failing lane decides,
with cause 0x03 or 0x04, its number in TLANE and its address in TADDR. -/
def Obligations.MemoryIssueAndChecks : Prop :=
  (∀ s id i x, let tm := s.team id
   Runs s id i → s.acqPending id = false →
   (laneAccess i = some x →
     (∀ l ∈ x.lanes tm, x.check s tm l = .ok ∧
       s.lodgedBarred tm x.sg x.op.acc (x.first tm l).toNat (x.size tm l) = false) →
     IssuesOp s id i x.f (.mem x.op x.u x.d.toNat (x.units tm)) (x.lanes tm).length) ∧
   ((∃ u a sg o, i = .pref u a sg o) →
     ∃ s1 : State, exec i s = .next (s1.setTeam id (tm.advance (s.cur.len / 4))) ∧ s1.teams = s.teams ∧ s1.slots = s.slots ∧
       s1.mem = s.mem ∧ s1.fe = s.fe ∧ s1.launches = s.launches ∧ s1.ops = s.ops)) ∧
  (∀ s id i x before l after, let tm := s.team id
   let lane : W32 := if x.u then 0xFFFFFFFF else BitVec.ofNat 32 l
   Runs s id i → s.acqPending id = false → laneAccess i = some x → x.lanes tm = before ++ l :: after →
   (∀ m ∈ before, x.check s tm m = .ok) →
   (x.check s tm l = .violation →
     exec i s = .next (s.teamTrap id (Trap.mk 0x03 0 lane (BitVec.ofInt 64 (x.first tm l))))) ∧
   (x.check s tm l = .misaligned →
     exec i s = .next (s.teamTrap id (Trap.mk 0x04 0 lane (BitVec.ofInt 64 (x.first tm l))))))

open Sys2Proof Sys2Proof.Machine Sys2Proof.Claims in
/-- A lane's access is performed (R166 to R169): a load puts the bytes read, extended as the instruction says, into the
destination of its lane, unless the team is retiring: then its registers stay (R21); a store leaves exactly its own bytes of
memory changed, beside D, which is set in the leaf of its page (R359). s0 is the state after the host has been shown what a
release covers and the address was translated. -/
def Obligations.LoadsAndStores : Prop :=
  ∀ s id t uni d us i, let u := us.getD i unit0
  let w := (s.team t).who pathLS
  let own := s.l1Of (s.team t)
  (s.op id).party = .team t → s.unitReady id i = true →
  (∀ n sg v s1, (s.op id).kind = .mem (.load n sg) uni d us → s.loadRange w own u.addr.toNat n u.lodged = (.value v, s1) →
    n ∈ [1, 2, 4, 8, 16] → (uni = false → d + (if n ≤ 4 then 1 else n / 4) ≤ 128) →
    ∃ tm' : Team, exec (.memAccessComplete id i) s = .next ((s1.setTeam t { tm' with
        glimpsed := tm'.glimpsed ++ s1.phasesIn (s1.team t).launch u.addr.toNat n }).dropUnit id i) ∧
      ((s1.team t).st = .retiring → tm' = s1.team t) ∧
      ((s1.team t).st ≠ .retiring → Landed (s1.team t) tm' uni u.lane d (if n ≤ 4 then 1 else n / 4)
        (if sg then ((BitVec.ofNat (8 * n) v).signExtend 32).toNat else v))) ∧
  (∀ m n ps s0, (s.op id).kind = .mem m uni d us → (m = .store n ∨ ∃ scope, m = .stRel n scope) →
    (seenAtHost s id t m).piecesOf w .write u.lodged u.addr.toNat n = (.ok ps, s0) →
    s0.linesFit w.launch (s0.newLines ps) = true →
    ∃ s1 : State, exec (.memAccessComplete id i) s = .next (s1.dropUnit id i) ∧ s1.teams = s0.teams ∧
      ∀ k, s1.byte k = (written ps (toBytes n u.data) k).getD ((s0.dirty w.cl ps).byte k))

open Sys2Proof Sys2Proof.Machine Sys2Proof.Claims in
/-- Atomics (R172 to R174): the new values of the integer and of the f32 operations; the old value is read and the new one
written in one access, and the old value is the answer; a compare and swap writes only where the old value equals the first
datum. Bytes outside the word stay, beside D in the leaf of its page (R359). A compare and swap that does not write allocates
its lodged lines and makes its word of the alias window full all the same (R273, R281). -/
def Obligations.Atomics : Prop :=
  (∀ w code (o x : BitVec w), w ∈ [32, 64] → code < 11 →
    BitVec.ofNat w (atomNew code w o.toNat x.toNat) = atomicResult w code o x) ∧
  (∀ code (o x : W32), code ∈ [11, 12, 13] →
    FloatAtomic code o x (BitVec.ofNat 32 (atomNew code 32 o.toNat x.toNat))) ∧
  (∀ (s : State) w op own va n f lodged ps s0,
    s.piecesOf w .atomic lodged va n = (.ok ps, s0) → s0.piecesPoisoned ps = false →
    s0.linesFit w.launch (s0.newLines ps) = true →
    let old := ofBytes (ps.flatMap fun p => s0.bytesAt p.key p.len)
    (f old = none → ∃ s1 : State, s.rmwRange w op own va n f lodged = (.value old, s1) ∧ s1.teams = s0.teams ∧
      s1.mem = s0.mem ∧ (∀ p ∈ ps, inAlias p.va = true → s1.isFull p.key = true) ∧
      ∀ e ∈ s0.newLines ps, (Tbl.find? s1.lines e.1).isSome = true) ∧
    (∀ new, f old = some new →
      ∃ s1 : State, s.rmwRange w op own va n f lodged = (.value old, s1) ∧ s1.teams = s0.teams ∧
        ∀ k, s1.byte k = (written ps (toBytes n new) k).getD ((s0.dirty w.cl ps).byte k)))

open Sys2Proof Sys2Proof.Machine Sys2Proof.Claims in
/-- Full/empty words (R170, R274): a request that has arrived at the local store, ld.fe of a full word with no earlier request,
takes it and leaves it empty, st.fe of an empty one fills it; while the word is in the other state nothing but the arrival
happens, and once the limit of FERETRY has passed the wait is abandoned with cause 0x0A. s' is the state after the arrival;
a retiring team's registers stay (R21). -/
def Obligations.FullEmptyWords : Prop :=
  ∀ s id t uni d us i key, let u := us.getD i unit0
  let tm := s.team t
  let s' := s.feArrive id i
  (s.op id).party = .team t → (s.launch tm.launch).windowKey tm.launch u.addr.toNat = some key →
  (∀ n, (s.op id).kind = .mem .ldFe uni d us → s'.unitReady id i = true → s.isFull key = true →
    Tbl.find? (s'.op id).places i = some n → s'.feAhead key true (some n) = false → s.isPoisoned key = false →
    (uni = false → d + 2 ≤ 128) →
    ∃ (s1 : State) (tm' : Team), exec (.feWaitServed (.op id i)) s = .next
        (((s1.setTeam t tm').teamAcquireAt t u.addr.toNat 8).dropUnit id i) ∧
      (tm.st = .retiring → tm' = tm) ∧ (tm.st ≠ .retiring → Landed tm tm' uni u.lane d 2 (s.readKey key 8)) ∧
      s1.isFull key = false ∧ s1.mem = s.mem ∧ s1.teams = s.teams) ∧
  (∀ n, (s.op id).kind = .mem .stFe uni d us → s'.unitReady id i = true → s.isFull key = false →
    Tbl.find? (s'.op id).places i = some n → s'.feAhead key false (some n) = false →
    ∃ s1 : State, exec (.feWaitServed (.op id i)) s = .next (s1.dropUnit id i) ∧ s1.isFull key = true ∧
      s1.teams = s.teams ∧ ∀ k, s1.byte k = (written [Piece.mk key 0 8 false false none] (toBytes 8 u.data) k).getD (s.byte k)) ∧
  ((s.op id).kind = .mem .ldFe uni d us → s.isFull key = false →
    exec (.feWaitServed (.op id i)) s = .next s' ∧ s'.teams = s.teams ∧ s'.mem = s.mem ∧ s'.fe = s.fe) ∧
  ((s.op id).kind = .mem .ldFe uni d us → s.isFull key = false → i ∈ (s.op id).todo → (s.op id).until_ ≠ 0 →
    (s.op id).until_ ≤ s.clock tm.cl →
    exec (.feretryExpiry (.op id i)) s = .next (s.deferError id i 0x0A)) ∧
  (∀ n, (s.op id).kind = .mem .ldFe uni d us → s.unitReady id i = true → s.isFull key = true →
    Tbl.find? (s.op id).places i = some n → s.feAhead key true (some n) = false → s.isPoisoned key = true →
    exec (.deferredErrorArrival id i) s = .next (s.deferError id i 0x0C))

namespace Sys2Proof.Claims

open Machine

/-! ## The engines of a cluster: copies, the matrix array, rays, and the rest of the once-per-team operations -/

/-- A range that an instruction checks at issue (R49): segment, right, first byte, length; acc is the kind of access where
the range may not reach a lodged page through a segment without L either (R51). -/
structure ByteRange where
  sg : BitVec 3
  need : Need
  acc : Option Acc
  first : Int
  bytes : Nat

/-- The range passes its check; an empty range accesses nothing. -/
def ByteRange.Ok (r : ByteRange) (s : State) (tm : Team) : Prop :=
  r.bytes = 0 ∨
    (checkNamed (s.launch tm.launch) tm.launch (Tbl.get tm.sg 0 r.sg.toNat) r.need r.first r.bytes 1 = .ok ∧
      ∀ a, r.acc = some a → s.lodgedBarred tm r.sg a r.first.toNat r.bytes = false)

/-- Rows of bytes at a pitch. -/
def rows (sg : BitVec 3) (need : Need) (acc : Option Acc) (first bytes pitch n : Nat) : List ByteRange :=
  (List.range n).map fun i => ByteRange.mk sg need acc (Int.ofNat (first + i * pitch)) bytes

/-- What a once-per-team instruction of an engine asks for: guard, flag, ranges; the address of its pair of scale bases where
it takes scales, with the ranges of the scale bytes for the pair's value; the operation; its parts; and whether it enters
the array queue. -/
structure EngineOp where
  gd : Guard
  f : Bool
  ranges : List ByteRange
  pair : Option Nat
  scales : Nat → List ByteRange
  kind : Nat → OpKind
  parts : Nat
  queue : Bool

/-- The pieces of a copy of n rows (R178, R179): those of a row end at multiples of 256 of the destination. -/
def pieceCount (dst bytes pitch n : Nat) : Nat :=
  ((List.range n).map fun i => if bytes = 0 then 0 else ((dst + i * pitch) % 256 + bytes + 255) / 256).sum

def copyOp (tm : Team) (d a : BitVec 7) (gd : Guard) (f : Bool) (dseg sseg : BitVec 3) (bytes n sp dp : Nat)
    (bar : Option Nat) : EngineOp where
  gd := gd
  f := f
  ranges := rows sseg needRead (some .read) (tm.gpair a.toNat) bytes sp n ++
    rows dseg needWrite (some .write) (tm.gpair d.toNat) bytes dp n
  pair := none
  scales := fun _ => []
  kind := fun _ => .copy (BitVec.ofNat 64 (tm.gpair a.toNat)) (BitVec.ofNat 64 (tm.gpair d.toNat)) bytes n sp dp
    (segL (Tbl.get tm.sg 0 sseg.toNat)) (segL (Tbl.get tm.sg 0 dseg.toNat)) bar
  parts := pieceCount (tm.gpair d.toNat) bytes dp n
  queue := false

/-- A field of a descriptor, with the code that inherits it from a register of the team (R54). -/
def inherited (x own code : Nat) : Nat := if x = code then own else x

/-- A field of a general register. -/
def fieldOf (w : W32) (lo n : Nat) : Nat := (w.extractLsb' lo n).toNat

/-- Bytes of 32 elements of a format (R64), and of an ECB8 array of n blocks (R180). -/
def arrayBytes (fmt n : Nat) : Nat := if fmt = 8 then (n + 15) / 16 * 896 else n * blockBytes fmt

/-- cpy.mx (R180): its descriptor stands in g_c to g_c+3. -/
def convertOp (tm : Team) (d a c : BitVec 7) (gd : Guard) (f : Bool) (dseg sseg : BitVec 3) : EngineOp :=
  let w := tm.greg c.toNat
  let n := (tm.greg (c.toNat + 1)).toNat
  let own (lo k x : Nat) : Nat := if w.getLsbD 24 then fieldOf tm.fmt lo k else x
  let afmt := inherited (fieldOf w 4 4) (fieldOf tm.fmt 4 4) 15
  let cfmt := inherited (fieldOf w 12 4) (fieldOf tm.fmt 12 4) 15
  let asck := own 18 2 (fieldOf w 16 2)
  let sck := own 18 2 (fieldOf w 18 2)
  let src := tm.gpair a.toNat
  let dst := tm.gpair d.toNat
  { gd := gd
    f := f
    ranges := rows sseg needRead (some .read) src (arrayBytes afmt n) 0 1 ++
      rows dseg needWrite (some .write) dst (n * blockBytes cfmt) 0 1
    pair := if (asck = 0 ∧ sck = 0) ∨ n = 0 then none
      else some (if tm.gpair (c.toNat + 2) = 0 then tm.sclp.toNat else tm.gpair (c.toNat + 2))
    scales := fun v =>
      rows sseg needRead (some .read) (v % 2 ^ 64) (if asck = 0 then 0 else n) 0 1 ++
        rows dseg needWrite (some .write) (v / 2 ^ 64 % 2 ^ 64) (if sck = 0 then 0 else n) 0 1
    kind := fun v => .conv
      { src := BitVec.ofNat 64 src, dst := BitVec.ofNat 64 dst, count := n, afmt := afmt, asck := asck
        abase := BitVec.ofNat 64 v, cfmt := cfmt, sck := sck, cbase := BitVec.ofNat 64 (v / 2 ^ 64)
        rnd := own 20 3 (fieldOf w 20 3), sat := own 23 1 (fieldOf w 23 1) == 1
        sl := segL (Tbl.get tm.sg 0 sseg.toNat), dl := segL (Tbl.get tm.sg 0 dseg.toNat) }
    parts := n
    queue := false }

/-- Single bytes, each a range of its own. -/
def eachByte (sg : BitVec 3) (need : Need) (base n : Nat) : List ByteRange :=
  (List.range n).map fun i => ByteRange.mk sg need none (Int.ofNat (base + i)) 1

/-- The pair of scale bases of mfill and mdrain: of the instruction, or SCLP (R191). -/
def scalePairOf (tm : Team) (sp : Bool) (b : BitVec 7) : Nat := if sp then tm.gpair b.toNat else tm.sclp.toNat

/-- mfill (R191, R192). -/
def fillOp (tm : Team) (a b : BitVec 7) (gd : Guard) (f sp : Bool) : EngineOp :=
  let w := tm.greg (a.toNat + 2)
  let v := tm.greg (a.toNat + 3)
  let src := tm.gpair a.toNat
  let fmt := inherited (fieldOf w 28 4) (fieldOf tm.fmt 8 4) 15
  let sck := inherited (fieldOf w 26 2) (fieldOf tm.fmt 18 2) 3
  let sg := w.extractLsb' 23 3
  let nblk := fieldOf v 20 12
  let cstr := fieldOf v 0 20
  { gd := gd
    f := f
    ranges := (List.range 64).flatMap fun j =>
      if fmt = 8 then rows sg needRead none (src + j * 32 * cstr) (arrayBytes 8 nblk) 0 1
      else rows sg needRead none (src + j * 32 * cstr) (blockBytes fmt) (blockBytes fmt) nblk
    pair := if sck = 0 then none else some (scalePairOf tm sp b)
    scales := fun v => eachByte sg needRead (v / 2 ^ 64 % 2 ^ 64) (64 * nblk)
    kind := fun p => .mat (.fill (BitVec.ofNat 64 src) fmt sck (fieldOf w 0 17) nblk cstr
      (BitVec.ofNat 64 (p / 2 ^ 64)) (segL (Tbl.get tm.sg 0 sg.toNat)))
    parts := 1
    queue := true }

/-- mdrain (R200). -/
def drainOp (tm : Team) (a b : BitVec 7) (gd : Guard) (f sp : Bool) : EngineOp :=
  let w := tm.greg (a.toNat + 2)
  let v := tm.greg (a.toNat + 3)
  let dst := tm.gpair a.toNat
  let fmt := inherited (fieldOf w 28 4) (fieldOf tm.fmt 12 4) 15
  let sck := inherited (fieldOf w 26 2) (fieldOf tm.fmt 18 2) 3
  let sg := w.extractLsb' 23 3
  let dstr := fieldOf v 0 24
  { gd := gd
    f := f
    ranges := (List.range 128).flatMap fun i => rows sg needWrite none (dst + i * dstr) (blockBytes fmt) (blockBytes fmt) 2
    pair := if sck = 0 then none else some (scalePairOf tm sp b)
    scales := fun v => eachByte sg needWrite (v / 2 ^ 64 % 2 ^ 64) 256
    kind := fun p => .mat (.drain (BitVec.ofNat 64 dst) fmt sck (inherited (fieldOf w 20 3) (fieldOf tm.fmt 20 3) 7)
      (inherited (fieldOf w 18 2) (fieldOf tm.fmt 23 1) 2 == 1) (fieldOf v 24 1) dstr (BitVec.ofNat 64 (p / 2 ^ 64))
      (segL (Tbl.get tm.sg 0 sg.toNat)))
    parts := 1
    queue := true }

/-- mloop.ip (R193, R196): its descriptor stands in the eight registers from g_a on. -/
def loopIpOp (tm : Team) (a : BitVec 7) (gd : Guard) (f : Bool) : EngineOp :=
  let g (k : Nat) : W32 := tm.greg (a.toNat + k)
  let src := tm.gpair a.toNat
  let fmt := inherited (fieldOf (g 2) 28 4) (fieldOf tm.fmt 4 4) 15
  let sck := inherited (fieldOf (g 2) 26 2) (fieldOf tm.fmt 18 2) 3
  let sg := (g 2).extractLsb' 23 3
  let astr := fieldOf (g 2) 0 23
  let n := fieldOf (g 5) 0 8 + 1
  let steps := fieldOf (g 5) 20 12
  let sstr := fieldOf (g 7) 16 15
  { gd := gd
    f := f
    ranges := (List.range n).flatMap fun i =>
      if fmt = 8 then [ByteRange.mk sg needRead none (Int.ofNat (src + i * astr)) (arrayBytes 8 steps)]
      else (List.range steps).map fun j =>
        ByteRange.mk sg needRead none (Int.ofNat (src + i * astr) + Int.ofNat j * (g 6).toInt) (blockBytes fmt)
    pair := if sck = 0 then none else some (scalePairOf tm ((g 7).getLsbD 31) (BitVec.ofNat 7 (fieldOf (g 7) 0 6)))
    scales := fun v => (List.range n).flatMap fun i => eachByte sg needRead (v % 2 ^ 64 + i * sstr) steps
    kind := fun p => .mat (.ip (BitVec.ofNat 64 src) fmt sck astr (g 6).toNat
      (inherited (fieldOf (g 3) 28 4) (fieldOf tm.fmt 8 4) 15) (fieldOf (g 3) 0 17) (fieldOf (g 4) 0 1) steps n
      ((g 5).getLsbD 15) (BitVec.ofNat 64 p) sstr (segL (Tbl.get tm.sg 0 sg.toNat)))
    parts := 1
    queue := true }

/-- mloop.op and mloop.rw (R193): a header of 64 bytes in memory. -/
def loopHeaderOp (tm : Team) (a : BitVec 7) (gd : Guard) (f rw : Bool) : EngineOp :=
  let g (k : Nat) : W32 := tm.greg (a.toNat + k)
  let sg := (g 2).extractLsb' 23 3
  let hdr := BitVec.ofNat 64 (tm.gpair a.toNat)
  let steps := fieldOf (g 5) 20 12
  { gd := gd
    f := f
    ranges := rows sg needRead none (tm.gpair a.toNat) 64 0 1
    pair := none
    scales := fun _ => []
    kind := fun _ => .mat (if rw then
        .rw hdr (inherited (fieldOf (g 3) 28 4) (fieldOf tm.fmt 8 4) 15) (fieldOf (g 3) 0 17) (fieldOf (g 4) 0 1) steps
          ((g 5).getLsbD 15) (Tbl.get tm.sg 0 sg.toNat)
      else .op hdr steps (Tbl.get tm.sg 0 sg.toNat))
    parts := 1
    queue := true }

/-- The once-per-team instructions of the engines whose descriptors pass the checks of R178 to R180, R191 to R195, R200,
R230 and R433. W is the launch's Loft window. -/
def engineOp (s : State) (tm : Team) : Instr → Option EngineOp
  | .cpy false d a b _ gd f dseg sseg => some (copyOp tm d a gd f dseg sseg (tm.greg b.toNat).toNat 1 0 0 none)
  | .cpy true d a b c gd f dseg sseg =>
    match s.barrierKey tm (BitVec.ofNat 64 (tm.gpair c.toNat)) with
    | .ok k => some (copyOp tm d a gd f dseg sseg (tm.greg b.toNat).toNat 1 0 0 (some k))
    | .error _ => none
  | .cpy2d d a b c gd f dseg sseg =>
    some (copyOp tm d a gd f dseg sseg (tm.greg b.toNat).toNat (tm.greg (b.toNat + 1)).toNat (tm.greg c.toNat).toNat
      (tm.greg (c.toNat + 1)).toNat none)
  | .cpyMx d a c gd f dseg sseg =>
    match tm.convOf d a c false false with
    | some v =>
      if (v.asck = 0 ∧ v.sck = 0) ∨ tm.gpair (c.toNat + 2) ≠ 0 ∨ tm.sclp ≠ 0 then some (convertOp tm d a c gd f dseg sseg)
      else none
    | none => none
  | .mfill a b gd f sp => if (tm.fillOf a (s.launch tm.launch).mgw).isSome then some (fillOp tm a b gd f sp) else none
  | .mloopIp a gd f =>
    if (tm.ipOf (tm.loopOf a) (s.launch tm.launch).mgw).isSome then some (loopIpOp tm a gd f) else none
  | .mloopOp a gd f =>
    let g (k : Nat) : W32 := tm.greg (a.toNat + k)
    if g 2 &&& 0xFC7FFFFF = 0 ∧ g 3 = 0 ∧ g 4 = 0 ∧ g 5 &&& 0xFFFFF = 0 ∧ g 5 ≠ 0 ∧ g 6 = 0 ∧ g 7 = 0
        ∧ tm.gpair a.toNat % 64 = 0 then some (loopHeaderOp tm a gd f false) else none
  | .mloopRw a gd f =>
    let g (k : Nat) : W32 := tm.greg (a.toNat + k)
    let fmt := inherited (fieldOf (g 3) 28 4) (fieldOf tm.fmt 8 4) 15
    if g 2 &&& 0xFC7FFFFF = 0 ∧ g 3 &&& 0x0FFE0007 = 0 ∧ g 4 &&& 0xFFFFFFFE = 0 ∧ g 5 &&& 0xF7FFF = 0 ∧ g 6 = 0 ∧ g 7 = 0
        ∧ 1 ≤ fieldOf (g 5) 20 12 ∧ 1 ≤ fmt ∧ fmt ≤ 7
        ∧ fieldOf (g 3) 0 17 + fieldOf (g 5) 20 12 * (8 + blockBytes fmt) ≤ (s.launch tm.launch).mgw
        ∧ tm.gpair a.toNat % 64 = 0 then some (loopHeaderOp tm a gd f true) else none
  | .mdrain a b gd f sp => if (tm.drainOf a).isSome then some (drainOp tm a b gd f sp) else none
  | .mzero gd f bank =>
    some (EngineOp.mk gd f [] none (fun _ => []) (fun _ => .mat (.zero bank.toNat)) 1 true)
  | .rgen gd f off e h => some (EngineOp.mk gd f [] none (fun _ => []) (fun _ => .rgen h.toNat e.toNat off) 1 false)
  | .nodeq d gd f node =>
    if d ≠ 63 ∧ (Tbl.find? (s.launch tm.launch).nodes node.toNat).isSome then
      some (EngineOp.mk gd f [] none (fun _ => []) (fun _ => .nodeq d.toNat node.toNat) 1 false) else none
  | _ => none

/-- Whether the cluster has what the instruction needs: the matrix grant, the merge engine, the ray unit (R187, R194). -/
def HasEngine (s : State) (tm : Team) (i : Instr) : Prop :=
  match i with
  | .mfill .. | .mloopIp .. | .mloopRw .. | .mdrain .. | .mzero .. => (s.cluster tm.cl).grant = some tm.launch
  | .mloopOp .. => s.hasMerge = true ∧ (s.cluster tm.cl).grant = some tm.launch
  | .rgen .. => s.hasRay = true
  | _ => True

/-- An entry of the array queue that stays behind one that enters now from engine eng: it entered in the same cycle from an
engine of a higher number, and has not begun (R353). -/
def EntersLater (s : State) (cl eng o : Nat) : Prop :=
  (∃ u, (s.op o).party = .team u ∧ eng < (s.team u).eng) ∧ (s.op o).cycle = s.clock cl ∧ (s.op o).held = [] ∧
    (s.op o).written = []

/-- The operation issues; one for the array also enters the queue, and a full queue holds the team (R188). -/
def EngineIssues (s s1 : State) (id : Nat) (i : Instr) (x : EngineOp) (kind : OpKind) : Prop :=
  let tm := s.team id
  if x.queue then
    ∀ c cl, tm.clause = some cl → (if x.f then cl.flb else cl.fla).toNat = c → c < 12 →
      (∀ front behind, tm.counter c < 63 → (s1.cluster tm.cl).arrayQ.length < 4 →
        (s1.cluster tm.cl).arrayQ = front ++ behind →
        let s2 := issued s s1 id c kind x.parts
        (∀ o ∈ behind, EntersLater s2 tm.cl tm.eng o) → (∀ o, front.getLast? = some o → ¬ EntersLater s2 tm.cl tm.eng o) →
        exec i s = .next ((s2.setOp s1.nextOp { s2.op s1.nextOp with cycle := s1.clock tm.cl }).modCluster tm.cl fun cl =>
          { cl with
            arrayQ := front ++ s1.nextOp :: behind
            headAt := if cl.arrayQ.head? = (front ++ s1.nextOp :: behind).head? then cl.headAt else s1.time.toNat })) ∧
      (63 ≤ tm.counter c ∨ 4 ≤ (s1.cluster tm.cl).arrayQ.length → exec i s = .next s1)
  else IssuesAfter s s1 id i x.f kind x.parts

/-- The guard of an instruction that acts once per team. -/
def onceGuard : Instr → Option (Guard × Bool)
  | .cpy _ _ _ _ _ gd f _ _ => some (gd, f)
  | .cpy2d _ _ _ _ gd f _ _ => some (gd, f)
  | .cpyMx _ _ _ gd f _ _ => some (gd, f)
  | .mfill _ _ gd f _ => some (gd, f)
  | .mloopIp _ gd f => some (gd, f)
  | .mloopOp _ gd f => some (gd, f)
  | .mloopRw _ gd f => some (gd, f)
  | .mdrain _ _ gd f _ => some (gd, f)
  | .mzero gd f _ => some (gd, f)
  | .rgen gd f _ _ _ => some (gd, f)
  | .nodeq _ gd f _ => some (gd, f)
  | _ => none

/-- Whether the instruction waits for an ld.acq of its team first (R171): all but nodeq, which accesses no memory. -/
def waitsForAcquire : Instr → Bool
  | .nodeq .. => false
  | _ => true

end Sys2Proof.Claims

open Sys2Proof Sys2Proof.Machine Sys2Proof.Claims in
/-- cpy, cpy.2d, cpy.mx, mfill, mloop, mdrain, mzero, rgen and nodeq issue once per team with their descriptors as read at issue:
every range passes its check first, the scale pair is read where scales are taken (R427), once no earlier access of the team
stands before it, the operation is in flight, and a MAT entry joins the array queue, those of one cycle in the order of their
engines (R353). With a false guard an instruction that acts once per team needs no unit, enters no queue and
makes no access: it counts on its flag, completes at once, and control moves on (R188, R433). A MAT instruction of a launch
without the matrix grant, and a RAY or merge instruction without its unit, trap with cause 0x05, whatever its registers hold:
that 0x05 goes before the 0x02 of a register check is the model's reading (DEDUCED, log 44). -/
def Obligations.EnginesIssue : Prop :=
  (∀ s id i x, let tm := s.team id
   Runs s id i → (waitsForAcquire i = true → s.acqPending id = false) → engineOp s tm i = some x →
   tm.acts true x.gd 0 = true → HasEngine s tm i → (∀ r ∈ x.ranges, r.Ok s tm) →
   (x.pair = none → EngineIssues s s id i x (x.kind 0)) ∧
   (∀ pair v l s1, x.pair = some pair → pair ≠ 0 →
     checkSearch (s.launch tm.launch) tm.launch tm.sg needRead pair 16 16 = (.ok, l) →
     (s.pairBlocked id pair = true → exec i s = .next s) ∧
     (s.pairBlocked id pair = false → s.readPast (tm.who pathLS) (s.l1Of tm) pair 16 l = (.value v, s1) →
       (∀ r ∈ x.scales v, r.Ok s1 tm) → EngineIssues s s1 id i x (x.kind v)))) ∧
  (∀ s id i, let tm := s.team id
   s.cur.party = .team id → i.illIn = none →
   (∀ gd f c cl, onceGuard i = some (gd, f) → i.regsBad tm.n = none → (waitsForAcquire i = true → s.acqPending id = false) →
     tm.acts true gd 0 = false → tm.clause = some cl → (if f then cl.flb else cl.fla).toNat = c → c < 12 →
     tm.counter c < 63 → Completes s id i tm) ∧
   (∀ gd f, onceGuard i = some (gd, f) → tm.acts true gd 0 = true → ¬ HasEngine s tm i →
     exec i s = .next (s.teamTrap id (Trap.mk 0x05 s.cur.w1 0xFFFFFFFF 0))))

namespace Sys2Proof.Claims

open Machine

/-- Operation id of team t, o, is complete (R21, R53, R103): its flag counter counts it no more, and its flags stand in TSTAT
of a team that has not ended. Of the team, only that and what regs allows has changed. -/
def Counted (t t' : Team) (o : Op) (v : Tbl W32) (g : Tbl W32) : Prop :=
  t' = { t with v := v, g := g, cf := t'.cf, tstat := t'.tstat, finished := t'.finished } ∧
  t'.counter o.flag = t.counter o.flag - 1 ∧ (∀ c, c ≠ o.flag → t'.counter c = t.counter c) ∧
  t'.tstat = (if t.st = .retiring then t.tstat else t.tstat ||| (o.flags &&& 0x3F))

/-- Operation id, o, of team t is in flight, with the parts left; the team has no deferred error. -/
def InFlight (s : State) (id t : Nat) (o : Op) (left : List Nat) : Prop :=
  Tbl.find? s.ops id = some o ∧ o.party = .team t ∧ o.todo = left ∧ o.held = [] ∧ (s.team t).deferred = []

/-- Every byte of s' is that of s but where the write of bs over pieces left one. -/
def Stored (s s' : State) (ps : List Piece) (bs : List Byte) : Prop :=
  ∀ k, s'.byte k = (written ps bs k).getD (s.byte k)

/-- The 32 elements of a block of a format, packed from the low end (R64). -/
def blockData (fmt : Nat) (code : Nat → Nat) : List Byte :=
  toBytes (4 * widthX fmt)
    (((List.range 32).map fun t => code t % 2 ^ widthX fmt * 2 ^ (widthX fmt * t)).sum)

/-- Byte n of a Loft block (R190): scale code, format and kind, zeros, and from byte 8 on the elements. -/
def loftImage (fmt kind code elems n : Nat) : Byte :=
  if n = 0 then BitVec.ofNat 8 code else if n = 1 then BitVec.ofNat 8 (fmt + 16 * kind)
  else if n < 8 then 0 else BitVec.ofNat 8 (elems / 2 ^ (8 * (n - 8)))

/-- Element k of column j of B in the Loft, times its scale; NaN where the block names another format (R197). -/
def loftValue (c : Cluster) (bfmt boff j k : Nat) : Val :=
  let first := boff + k / 32 * (8 + blockBytes bfmt)
  let head := c.loftRead j first 8
  let x := decodeX bfmt (c.loftRead j (first + 8) (blockBytes bfmt) / 2 ^ (widthX bfmt * (k % 32)) % 2 ^ widthX bfmt)
  if head / 2 ^ 8 % 16 = bfmt then
    match head / 2 ^ 12 % 4 with
    | 0 => x
    | 1 => (scaledVal (e8m0 (head % 256)) x).1
    | _ => (scaledVal (e5m3.decode (head % 256)) x).1
  else .nan false

/-- What cluster cl asks the package's budget of row changes for, with the age of the request in units of half a ns (R205,
R407). -/
def RowAsk (s : State) (cl a : Nat) : Prop :=
  let c := s.cluster cl
  let waited := 2 * (s.time.toNat - c.rowsAt)
  if c.arrayQ = [] then
    0 < c.rows ∧ 25 * max 4 s.power.rampDn ≤ waited ∧ a = 2 * c.rowsAt + 25 * max 4 s.power.rampDn
  else if c.mthr.extractLsb' 8 2 = 1 then
    c.rows < 8 ∧ 25 * max 4 s.power.rampUp ≤ waited ∧ a = 2 * c.rowsAt + 25 * max 4 s.power.rampUp
  else c.rows < 8 ∧ (∃ id q m, c.arrayQ = id :: q ∧ (s.op id).kind = .mat m ∧ m.isLoop = true) ∧ a = 2 * c.headAt

/-- Ray state of a lane as rtrace reads it at issue (R212). -/
def rayOf (t : Team) (l : Nat) (a : BitVec 7) (root : W64) (sg : W128) (h : BitVec 4) : RayReq :=
  let v (k : Nat) : W32 := t.vreg l (a.toNat + k)
  { ox := v 0, oy := v 1, oz := v 2, tmin := v 3, dx := v 4, dy := v 5, dz := v 6, tmax := v 7, flags := v 8
    root := root, sg := sg, hc := h.toNat }

/-- A ray-flag word that R212 rejects. -/
def RayFlagsBad (f : W32) : Prop := f &&& 0xFFFFE000 ≠ 0 ∨ f &&& 0x300 = 0x300

/-- The lanes that take part, rising. -/
def actingLanes (t : Team) (gd : Guard) : List Nat := (List.range t.lanes).filter fun l => t.acts false gd l

/-- A 16.8 coordinate (R234): bits 31 to 23 are equal. -/
def coordOk (x : W32) : Bool := (x.extractLsb' 0 24).signExtend 32 == x

/-- Twice the signed area of the vertices in six registers from a on (R234). -/
def area2 (t : Team) (l : Nat) (a : BitVec 7) : Int :=
  let c (k : Nat) : Int := (t.vreg l (a.toNat + k)).toInt
  (c 2 - c 0) * (c 5 - c 1) - (c 4 - c 0) * (c 3 - c 1)

/-- All six coordinates of a lane are in range. -/
def coordsOk (t : Team) (l : Nat) (a : BitVec 7) : Bool := (List.range 6).all fun k => coordOk (t.vreg l (a.toNat + k))

/-- The triangle of a lane (R236). -/
def triangleOf (t : Team) (l : Nat) (a : BitVec 7) : Tri :=
  let c (k : Nat) : Int := (t.vreg l (a.toNat + k)).toInt
  let z (k : Nat) : W32 := t.vreg l (a.toNat + k)
  { x0 := c 0, y0 := c 1, x1 := c 2, y1 := c 3, x2 := c 4, y2 := c 5, z0 := z 6, z1 := z 7, z2 := z 8, number := z 9 }

/-- A triangle with vertices 1 and 2 swapped, with their depths (R237). -/
def swapped (t : Tri) : Tri := { t with x1 := t.x2, y1 := t.y2, x2 := t.x1, y2 := t.y1, z1 := t.z2, z2 := t.z1 }

/-- The edge rule of R237 for an edge from (xi, yi) to (xj, yj) at a point. -/
def OnEdge (xi yi xj yj px py : Int) : Prop :=
  let e := (xj - xi) * (py - yi) - (yj - yi) * (px - xi)
  0 < e ∨ (e = 0 ∧ (yj < yi ∨ (yj = yi ∧ xi < xj)))

end Sys2Proof.Claims

open Sys2Proof Sys2Proof.Machine Sys2Proof.Claims in
/-- Operations of the engines complete (R103, R178, R186, R188, R201): nodeq puts the records held and the free slots of one
moment into its pair; a copy of one piece leaves the source bytes at its destination and no other byte changed; an operation
with nothing left only counts; mzero sets the 128 rows of its bank to +0 and leaves the other bank alone. One step of mloop.ip
(R82, R196): in every row of A and every column, the accumulator becomes the old one plus the exact dot product of the blocks,
rounded once to f32 and to nearest even; every other accumulator stays. An entry at the head leaves the array as its run left it
and counts. A plain block of mfill stands in the Loft with its header and no other Loft byte changed (R190, R192). mdrain writes
the 32 accumulators of a block, converted, with their scale as one unit (R200). A row of mloop.rw adds each nonzero times its
element of B, in some order, to every column, rounding each time (R197); mloop.op adds each product to the sum of its row and
column in turn and keeps the sums sorted (R84, R198), writes them as entries of 16 bytes, then CNT and STATUS (R199). A block of
cpy.mx is read with its scale, converted and written with the new scale as one unit (R180, R181): the scale is the least code
that brings the greatest magnitude within the format. Row groups (R205, R407): an enable is asked for as an mloop reaches the
head of the queue and an eighth of IRAMP.UP after the last, a disable an eighth of IRAMP.DN after the last with an empty queue;
the package's budget goes to the oldest request, of equals to the lower cluster, and begins afresh each microsecond. That an
mloop's first request is as old as its place at the head, and that the way down pauses while entries without rows are queued, are
the model's readings (DEDUCED, log 120); that the additions of mloop.op and mloop.rw set flags is log 118. -/
def Obligations.EnginesComplete : Prop :=
  (∀ s id t o, let tm := s.team t
   (∀ d node, InFlight s id t o [0] → o.kind = .nodeq d node → d < 63 →
     let dv := s.drover tm.cl tm.launch
     ∃ s' : State, exec (.asyncComplete id) s = .next s' ∧ s'.ops = Tbl.erase s.ops id ∧ s'.mem = s.mem ∧
       Counted tm (s'.team t) o tm.v (s'.team t).g ∧
       (∀ r, (s'.team t).greg r =
         if tm.st = .retiring then tm.greg r else if r = d then BitVec.ofNat 32 ((dv.held.filter fun h => h.record.node == node).length)
         else if r = d + 1 then BitVec.ofNat 32
           ((s.launch tm.launch).lslots - (dv.held.length + (dv.batches.map fun b => b.records.length).sum))
         else tm.greg r)) ∧
   (∀ m uni d us, InFlight s id t o [] → o.kind = .mem m uni d us → ((∃ n, m = .gath n) ∨ ∃ n, m = .scat n) →
     ∃ s' : State, exec (.asyncComplete id) s = .next s' ∧ s'.ops = Tbl.erase s.ops id ∧ s'.mem = s.mem ∧
       Counted tm (s'.team t) o tm.v tm.g) ∧
   (∀ src dst bytes n sp dp sl dl i a b len ps s2 qs s4, InFlight s id t o [i] → o.late = [] →
     o.kind = .copy src dst bytes n sp dp sl dl none → s.fenced id = false → s.acBlocked id = false →
     (copyPieces src.toNat dst.toNat bytes n sp dp)[i]? = some (a, b, len) → 0 < len →
     (∀ j, j < len → overlapped src.toNat bytes n sp (b + j) = false) →
     ((s.releaseFenced id t pathAC).free 1).2.piecesOf (tm.who pathAC) .read sl a len = (.ok ps, s2) →
     s2.piecesOf (tm.who pathAC) .write dl b len = (.ok qs, s4) →
     s4.linesFit tm.launch (s4.newLines qs) = true →
     ∃ s' : State, exec (.asyncComplete id) s = .next s' ∧ s'.ops = Tbl.erase s.ops id ∧
       Counted tm (s'.team t) o tm.v tm.g ∧
       Stored (s4.dirty tm.cl qs) s' qs (s4.readPieces pathAC ps)) ∧
   (∀ b q, InFlight s id t o [0] → o.kind = .mat (.zero b) → s.fenced id = false → b < 2 →
     (s.cluster tm.cl).arrayQ = id :: q →
     ∃ s' : State, exec (.matEntryExecute tm.cl) s = .next s' ∧ s'.ops = Tbl.erase s.ops id ∧ s'.mem = s.mem ∧
       Counted tm (s'.team t) o tm.v tm.g ∧ (s'.cluster tm.cl).arrayQ = q ∧ (s'.cluster tm.cl).loft = (s.cluster tm.cl).loft ∧
       ∀ k, (s'.cluster tm.cl).bankAt k = if k / 8192 = b then 0 else (s.cluster tm.cl).bankAt k) ∧
   (∀ m q r s1, InFlight s id t o [0] → o.kind = .mat m → s.fenced id = false → (s.cluster tm.cl).arrayQ = id :: q →
     m.rowsNeeded (s.tileRows (tm.who pathMX) m) ≤ 16 * (s.cluster tm.cl).rows →
     ({ s.releaseFenced id t pathMX with failing := o.fails } : State).runMat id (tm.who pathMX) m = (r, s1) →
     r.fin = .done → Tbl.find? s1.ops id = some o → (s1.team t).deferred = [] →
     ∃ s' : State, exec (.matEntryExecute tm.cl) s = .next s' ∧ s'.ops = Tbl.erase s1.ops id ∧ s'.mem = s1.mem ∧
       (s'.cluster tm.cl).bank = r.c.bank ∧ (s'.cluster tm.cl).loft = r.c.loft ∧
       Counted (s1.team t) (s'.team t) { o with flags := o.flags ||| r.flags } (s1.team t).v (s1.team t).g)) ∧
  (∀ (c : Cluster) bank bfmt off as, as.length ≤ 128 → bank < 2 →
   ∀ k, (c.ipStep bank bfmt off false as).c.bankAt k =
     if k / 8192 = bank ∧ k % 8192 / 64 < as.length then
       let a := (as.getD (k % 8192 / 64) nanBlock).vals
       let b := (c.bBlock (k % 64) off bfmt).1
       let old := f32.decode (c.bankAt k).toNat
       BitVec.ofNat 32 (f32.round 0 false 0 (addVal 0 old (dotVal a b).plus).1).1
     else c.bankAt k) ∧
  (∀ (s : State) w l src fmt sck scale nblk cstr boff j i v code s1 s2 (r : MatRun), 1 ≤ fmt → fmt ≤ 7 → sck < 4 →
   let n := blockBytes fmt
   s.readRange w (src + j * 32 * cstr + i * n) n l = (.value v, s1) →
   (sck = 0 ∧ code = 0 ∧ s2 = s1 ∨ sck ≠ 0 ∧ s1.readRange w (scale + j * nblk + i) 1 l = (.value code, s2)) →
   ∃ r' : MatRun, s.runFill w l src fmt sck scale nblk cstr boff r [(j, i)] = (r', s2) ∧ r'.fin = r.fin ∧
     r'.flags = r.flags ∧ r'.c.bank = r.c.bank ∧
     ∀ k, r'.c.loftByte k =
       let first := 98304 * j + boff + i * (8 + n)
       if first ≤ k ∧ k < first + 8 + n then loftImage fmt sck code v (k - first) else r.c.loftByte k) ∧
  (∀ (s : State) id w l c bank row b dst fmt sck rnd sat scale s1, fmt ≤ 7 →
   let cell (t : Nat) : Nat := 8192 * bank + 64 * row + 32 * b + t
   (∀ t, t < 32 → Tbl.get c.bankPoison false (cell t) = false) →
   let vals := (List.range 32).map fun t => f32.decode (c.bankAt (cell t)).toNat
   let e := convertBlock sck fmt rnd sat vals
   ∀ flags, flags = snanFlag vals ||| e.flags →
   (∀ ps, sck = 0 → s.piecesOf w .write l dst (blockBytes fmt) = (.ok ps, s1) → s1.linesFit w.launch (s1.newLines ps) = true →
     ∃ s' : State, s.drainBlock id w l c bank row b dst fmt sck rnd sat scale = (.ok flags, s') ∧
       Stored (s1.dirty w.cl ps) s' ps (blockData fmt fun t => e.codes.getD t 0)) ∧
   (∀ ps qs s2, sck ≠ 0 → s.piecesOf w .write l dst (blockBytes fmt) = (.ok ps, s1) →
     s1.piecesOf w .write l (scale + 2 * row + b) 1 = (.ok qs, s2) → s2.linesFit w.launch (s2.newLines (ps ++ qs)) = true →
     ∃ s' : State, s.drainBlock id w l c bank row b dst fmt sck rnd sat scale = (.ok flags, s') ∧
       Stored (s2.dirty w.cl (ps ++ qs)) s' (ps ++ qs)
         ((blockData fmt fun t => e.codes.getD t 0) ++ [BitVec.ofNat 8 e.scale]))) ∧
  (∀ (c : Cluster) bank bfmt boff row es vs, row < 128 →
   (∀ j, j < 64 → ∃ es' : List (Nat × Val), es'.Perm es ∧
     (c.rwRow bank bfmt boff row es vs).c.bankAt (8192 * bank + 64 * row + j) =
       es'.foldl (fun acc e => BitVec.ofNat 32
           (f32.round 0 false 0 (addVal 0 (f32.decode acc.toNat) (mulVal e.2 (loftValue c bfmt boff j e.1)).1).1).1)
         (c.bankAt (8192 * bank + 64 * row + j))) ∧
   (∀ k, ¬ (8192 * bank + 64 * row ≤ k ∧ k < 8192 * bank + 64 * row + 64) →
     (c.rwRow bank bfmt boff row es vs).c.bankAt k = c.bankAt k)) ∧
  (∀ (m : Merge) as bs i j, (∀ b ∈ bs, b.1 < 2 ^ 32) → j < 2 ^ 32 →
   Tbl.find? (m.step as bs).sums (i * 2 ^ 32 + j) =
     (as.flatMap fun a => bs.filterMap fun b => if a.1 = i ∧ b.1 = j then some (mulVal a.2 b.2).1 else none).foldl
       (fun sum p => some (BitVec.ofNat 32 (f32.round 0 false 0
         (match sum with | none => p | some c => (addVal 0 (f32.decode c.toNat) p).1)).1))
       (Tbl.find? m.sums (i * 2 ^ 32 + j)) ∧
   (Tbl.rising m.sums = true → Tbl.rising (m.step as bs).sums = true)) ∧
  (∀ (s : State) id w sg, (∀ va bs ps s1, bs ≠ [] →
     checkNamed (s.launch w.launch) w.launch sg needWrite (Int.ofNat va) bs.length 1 = .ok →
     s.piecesOf w .write (segL sg) va bs.length = (.ok ps, s1) → s1.linesFit w.launch (s1.newLines ps) = true →
     ∃ s' : State, s.arrayWrite id w sg va bs = (.done, s') ∧ Stored (s1.dirty w.cl ps) s' ps bs) ∧
   (∀ ent i row col (v : W32) rest s1, row < 2 ^ 32 → col < 2 ^ 32 →
     s.arrayWrite id w sg (ent + 16 * i) (toBytes 4 row ++ toBytes 4 col ++ toBytes 4 v.toNat ++ toBytes 4 0) = (.done, s1) →
     s.putEntries id w sg ent i ((row * 2 ^ 32 + col, v) :: rest) = s1.putEntries id w sg ent (i + 1) rest) ∧
   (∀ (r : MatRun) out o (t : Tbl W32) count n s1 s2 s3, (s.op id).written = [] → t.length ≤ 32768 →
     let cap := o / 2 ^ 64 % 2 ^ 32
     s.putEntries id w sg (o % 2 ^ 64) 0 (t.take cap) = (.done, n, s1) →
     s1.arrayWrite id w sg (out + 12) (toBytes 4 (min cap t.length)) = (.done, s2) →
     s2.arrayWrite id w sg (out + 28) (toBytes 4 (if cap < t.length then 1 else 0)) = (.done, s3) →
     ∃ r' : MatRun, s.opOutput id w sg r out o t count = (r', s3) ∧ r'.c = r.c ∧
       r'.fin = if cap < t.length then .errors [(0x02, out)] else r.fin)) ∧
  (∀ (s : State) w l src fmt sck sbase i v code s1 s2, fmt ≤ 7 →
   let n := blockBytes fmt
   s.readRange w (src + i * n) n l = (.value v, s1) →
   (sck = 0 ∧ s2 = s1 ∨ sck ≠ 0 ∧ s1.readRange w (sbase + i) 1 l = (.value code, s2)) →
   ∃ b : Block, s.readBlockAt w l src fmt sck sbase i = (.block b, s2) ∧
     b.vals = (List.range 32).map fun t =>
       let x := decodeX fmt (v / 2 ^ (widthX fmt * t) % 2 ^ widthX fmt)
       if sck = 0 then x else (scaledVal (if sck = 1 then e8m0 code else e5m3.decode code) x).1) ∧
  (∀ (s : State) id w (c : Conv) i b s1,
   s.readBlockAt w c.sl c.src.toNat c.afmt c.asck c.abase.toNat i = (.block b, s1) →
   let e := convertBlock c.sck c.cfmt c.rnd c.sat b.vals
   let n := blockBytes c.cfmt
   let dst := c.dst.toNat + i * n
   ∀ flags, flags = (b.flags ||| e.flags).toNat →
   (∀ ps s2, c.sck = 0 → s1.piecesOf w .write c.dl dst n = (.ok ps, s2) → s2.linesFit w.launch (s2.newLines ps) = true →
     ∃ s' : State, s.convBlock id w c i = (.value flags, dst, s') ∧
       Stored (s2.dirty w.cl ps) s' ps (blockData c.cfmt fun t => e.codes.getD t 0)) ∧
   (∀ ps qs s2 s3, c.sck ≠ 0 → s1.piecesOf w .write c.dl dst n = (.ok ps, s2) →
     s2.piecesOf w .write c.dl (c.cbase.toNat + i) 1 = (.ok qs, s3) → s3.linesFit w.launch (s3.newLines (ps ++ qs)) = true →
     ∃ s' : State, s.convBlock id w c i = (.value flags, dst, s') ∧
       Stored (s3.dirty w.cl (ps ++ qs)) s' (ps ++ qs)
         ((blockData c.cfmt fun t => e.codes.getD t 0) ++ [BitVec.ofNat 8 e.scale]))) ∧
  (∀ kind fmt rnd sat (vals : List Val), kind ≤ 2 →
   let e := convertBlock kind fmt rnd sat vals
   let m := maxAbs vals
   let least := if kind = 1 then 0 else 1
   let fits (k : Nat) : Prop := cmpVal m (mulVal (fmaxVal fmt) (scaleVal kind k)).1 ≠ .gt
   (kind = 0 → e.codes = vals.map fun v => (roundX fmt rnd sat 0 v).1) ∧
   (kind ≠ 0 → (∃ v ∈ vals, ∀ n k x, v ≠ .fin n k x) → e.scale = 255 ∧ e.codes = List.replicate 32 0) ∧
   (kind ≠ 0 → (∀ v ∈ vals, ∃ n k x, v = .fin n k x) →
     e.codes = vals.map (fun v => (roundX fmt rnd sat 0 (divVal 80 v (scaleVal kind e.scale)).1).1) ∧
     (cmpVal m (Val.ofInt 0) = .eq → e.scale = if kind = 1 then 127 else 0x78) ∧
     (cmpVal m (Val.ofInt 0) ≠ .eq → least ≤ e.scale ∧ e.scale ≤ 254 ∧ (fits e.scale ∨ e.scale = 254) ∧
       ∀ k, least ≤ k → k < e.scale → ¬ fits k))) ∧
  (∀ s cl, let c := s.cluster cl
   let now := s.time.toNat
   let room := s.power.rampAt = now / 1000 ∧ (s.power.rampUsed + 1) * s.power.rowAmps ≤ 100 * s.power.slew
   let rowsTo (n : Nat) (ramp : BitVec 2) : State :=
     let t := s.setCluster cl { c with
       rows := n, rowsAt := now, mthr := c.mthr.extractLsb' 10 22 ++ ramp ++ c.mthr.extractLsb' 0 8 }
     { t with power := { t.power with rampUsed := t.power.rampUsed + 1 } }
   (∀ a, RowAsk s cl a → room → (∀ cl' ∈ Tbl.keys s.clusters, ∀ b, RowAsk s cl' b → a < b ∨ a = b ∧ cl ≤ cl') →
     (c.arrayQ ≠ [] → exec (.rowGroupEnable cl) s = .next (rowsTo (c.rows + 1) (if c.rows = 7 then 2 else 1))) ∧
     (c.arrayQ = [] → exec (.rowGroupDisable cl) s = .next (rowsTo (c.rows - 1) (if c.rows = 1 then 0 else 3)))) ∧
   (((∀ a, ¬ RowAsk s cl a) ∨ ¬ room ∨ ∃ a, RowAsk s cl a ∧ ∃ cl' ∈ Tbl.keys s.clusters, ∃ b, RowAsk s cl' b ∧
       (b < a ∨ b = a ∧ cl' < cl)) →
     exec (.rowGroupEnable cl) s = .next s ∧ exec (.rowGroupDisable cl) s = .next s) ∧
   (s.power.rampAt ≠ now / 1000 →
     exec .rampBudgetInterval s = .next { s with power := { s.power with rampUsed := 0, rampAt := now / 1000 } }))

open Sys2Proof Sys2Proof.Machine Sys2Proof.Claims in
/-- rtrace, rcommit and rast issue with what every lane that takes part holds, rast with its triangles of nonzero area and
in the die's raster queue; a bad flag word traps with cause 0x02 and the lowest such lane. tclass writes twice the
signed area and the comparison with TCLASS (R211, R212, R222, R234, R236). -/
def Obligations.RayAndRasterInstructions : Prop :=
  ∀ s id, let tm := s.team id
  s.acqPending id = false →
  (∀ d a b gd f h sg, let i := Instr.rtrace d a b gd f h sg
    let root := tm.gpair b.toNat
    let lanes := actingLanes tm gd
    Runs s id i → s.hasRay = true → root % 64 = 0 → (ByteRange.mk sg needRead none (Int.ofNat root) 64).Ok s tm →
    ((∀ l ∈ lanes, ¬ RayFlagsBad (tm.vreg l (a.toNat + 8))) →
      IssuesOp s id i f (.rtrace d.toNat (lanes.map fun l =>
        (l, rayOf tm l a (BitVec.ofNat 64 root) (Tbl.get tm.sg 0 sg.toNat) h))) lanes.length) ∧
    (∀ before l after, lanes = before ++ l :: after → (∀ m ∈ before, ¬ RayFlagsBad (tm.vreg m (a.toNat + 8))) →
      RayFlagsBad (tm.vreg l (a.toNat + 8)) →
      exec i s = .next (s.teamTrap id (Trap.mk 0x02 s.cur.w1 (BitVec.ofNat 32 l) 0)))) ∧
  (∀ d p gd f, let i := Instr.rcommit d p gd f
    Runs s id i → s.hasRay = true →
    IssuesOp s id i f (.rcommit d.toNat ((actingLanes tm gd).map fun l => (l, tm.preg l p.toNat)))
      (actingLanes tm gd).length) ∧
  (∀ d a p gd, let i := Instr.tclass d a p gd
    Runs s id i → s.hasRay = true → d.toNat + 1 < 128 →
    ∃ tm' : Team, Completes s id i tm' ∧ tm' = { tm with v := tm'.v, p := tm'.p } ∧
      (∀ l r, r < 128 → ¬ (l ∈ actingLanes tm gd ∧ (r = d.toNat ∨ r = d.toNat + 1)) → tm'.vreg l r = tm.vreg l r) ∧
      (∀ l q, ¬ (l ∈ actingLanes tm gd ∧ q = p.toNat ∧ q ≠ 7) → tm'.preg l q = tm.preg l q) ∧
      (∀ l ∈ actingLanes tm gd, coordsOk tm l a = true →
        tm'.rd false l d.toNat 2 = (BitVec.ofInt 64 (area2 tm l a)).toNat ∧
        (p ≠ 7 → (tm'.preg l p.toNat = true ↔
          tm.tclass ≠ 0xFFFFFFFF ∧ tm.tclass.toNat * 2 ^ 16 ≤ (area2 tm l a).natAbs))) ∧
      (∀ l ∈ actingLanes tm gd, coordsOk tm l a = false →
        tm'.rd false l d.toNat 2 = 0 ∧ (p ≠ 7 → tm'.preg l p.toNat = false))) ∧
  (∀ a c gd f node nd cnt cl tris, let i := Instr.rast a c gd f node
    let size := tm.greg c.toNat
    let draw := tm.greg (c.toNat + 1)
    Runs s id i → s.hasRast = true → Tbl.find? (s.launch tm.launch).nodes node.toNat = some nd → nd.payload = 8 →
    draw.toNat < 256 → tm.clause = some cl → (if f then cl.flb else cl.fla).toNat = cnt → cnt < 12 → tm.counter cnt < 63 →
    tris.map (fun e => e.1) = (actingLanes tm gd).filter (fun l => coordsOk tm l a && area2 tm l a != 0) →
    (∀ e ∈ tris, e.2 = triangleOf tm e.1 a) →
    let s1 := issued s s id cnt
      (.rast node.toNat (fieldOf size 0 16) (fieldOf size 16 16) draw.toNat tris) 1
    exec i s = .next { s1 with
      rasterQ := Tbl.put s1.rasterQ (dieOf tm.cl) (Tbl.get s1.rasterQ [] (dieOf tm.cl) ++ [s.nextOp]) })

open Sys2Proof Sys2Proof.Machine Sys2Proof.Claims in
/-- Rays and triangles (R214, R223, R230, R237, R238): a degenerate ray with room in the cluster's unit ends with the block of a
miss and accesses nothing; rgen gives the hierarchy context of every cluster of its launch the next generation, with its exponent and OFF; the rasteriser posts the
quads of the next triangle; a pixel is covered as the edge rule says. The nearest hit (R217, R218, R220): a new ray whose walk
found opaque hits alone, and no node it could not use, ends with FINAL_HIT and the block of a hit that comes before every
other one in the order of keys, or with MISS without hits. -/
def Obligations.RaysAndTriangles : Prop :=
  ((∀ s id t o d i rays lane rq, InFlight s id t o [i] → o.kind = .rtrace d rays → rays[i]? = some (lane, rq) →
     rq.degenerate = true → s.rayBlocked id = false → s.fenced id = false → s.rayRoom t lane = true → d + 7 ≤ 128 →
     ∃ s' : State, exec (.rayTraceComplete id) s = .next s' ∧ s'.ops = Tbl.erase s.ops id ∧ s'.mem = s.mem ∧
       Counted (s.team t) (s'.team t) o (s'.team t).v (s.team t).g ∧
       ∀ l r, r < 128 → (s'.team t).vreg l r =
         if (s.team t).st ≠ .retiring ∧ l = lane ∧ d ≤ r ∧ r < d + 7 then
           (if r = d then 0x7F800000 else if r < d + 4 then 0xFFFFFFFF else 0) else (s.team t).vreg l r) ∧
   (∀ s id t o h e off left, let grid := (s.launch (s.team t).launch).grid
     InFlight s id t o left → o.kind = .rgen h e off → grid.Nodup → h < 16 →
     ∃ s' : State, exec (.rayTraceComplete id) s = .next s' ∧ s'.ops = Tbl.erase s.ops id ∧ s'.mem = s.mem ∧
       Counted (s.team t) (s'.team t) o (s.team t).v (s.team t).g ∧
       ∀ cl ∈ grid, let lc := (s.cluster cl).slotOf (s.team t).launch
         ∀ lc' h', h' < 16 → (s'.cluster cl).wmSetting lc' h' =
           if lc' = lc ∧ h' = h then WmCtx.mk ((((s.cluster cl).wmSetting lc h).gen + 1) % 65536) (BitVec.ofNat 7 e) off
           else (s.cluster cl).wmSetting lc' h') ∧
   (∀ s die id q t o node w hgt draw lane tri rest, let tm := s.team t
     Tbl.get s.rasterQ [] die = id :: q → Tbl.find? s.ops id = some o → o.party = .team t →
     o.kind = .rast node w hgt draw ((lane, tri) :: rest) → rest ≠ [] → s.rasterWaits tm.cl tm.launch id = false →
     exec (.rasterTriangle die) s = .next ((s.setOp id { o with kind := .rast node w hgt draw rest }).postAll tm.cl tm.launch
       (.raster id) true (tri.quads node w hgt draw (mkHandle 3 ((s.launch tm.launch).vcl tm.cl) 0 draw tri.number))).2) ∧
   (∀ (t : Tri) x y, t.oriented.covers x y = true ↔
     let u := if (t.x1 - t.x0) * (t.y2 - t.y0) - (t.x2 - t.x0) * (t.y1 - t.y0) < 0 then swapped t else t
     let px := 256 * Int.ofNat x + 128
     let py := 256 * Int.ofNat y + 128
     OnEdge u.x0 u.y0 u.x1 u.y1 px py ∧ OnEdge u.x1 u.y1 u.x2 u.y2 px py ∧ OnEdge u.x2 u.y2 u.x0 u.y0 px py)) ∧
  (∀ (s : State) w rq (hits : List RayHit), (∀ h ∈ hits, h.opq = true ∧ (f32.decode h.t.toNat).isNan = false) →
   let end_ := (s.present w (RayLane.gather (RayLane.mk rq none [] false none []) (Walked.mk hits []))).1
   (hits = [] → end_ = .block [0x7F800000, 0xFFFFFFFF, 0xFFFFFFFF, 0xFFFFFFFF, 0, 0, 0] none) ∧
   (hits ≠ [] → ∃ h ∈ hits, (∀ x ∈ hits, x.compare h ≠ .lt) ∧
     end_ = .block [h.t, BitVec.ofNat 32 h.prim, BitVec.ofNat 32 h.geom, BitVec.ofNat 32 h.inst, h.u, h.v,
       1 ||| (if h.front then 16 else 0)] none))

namespace Sys2Proof.Claims

open Machine

/-! ## Barriers, segments, fences, and what a team takes at a header (R52, R163 to R165, R168) -/

/-- The barrier word after an arrival (R163): PEND counts down; the last arrival flips PH and sets PEND to EXP. -/
def arrived (w : BitVec 64) : BitVec 64 :=
  if w.extractLsb' 0 16 ≤ 1 then
    w.extractLsb' 33 31 ++ ~~~ (w.extractLsb' 32 1) ++ w.extractLsb' 16 16 ++ w.extractLsb' 16 16
  else w.extractLsb' 16 48 ++ (w.extractLsb' 0 16 - 1)

/-- The team after its barrier wait: ready behind the instruction, having observed the copies that arrived in past phases. -/
def afterBarrier (s : State) (tm : Team) (k : Nat) : Team :=
  Team.advance { tm with st := .ready, wait := .none, observed := tm.observed ++ Tbl.get s.phases [] k } 1

/-- The proposal of base, limit and rights (RD, W, X, A, L from bit 4 down) lies within segment g (R52). -/
def Narrows (g : BitVec 128) (base limit : Nat) (r : BitVec 5) : Prop :=
  segValid g = true ∧ (g.extractLsb' 0 64).toNat ≤ base ∧ 1 ≤ limit ∧
  base + limit ≤ (g.extractLsb' 0 64).toNat + (g.extractLsb' 64 57).toNat ∧
  ∀ k, k < 5 → r.getLsbD k = true → g.getLsbD (126 - k) = true

/-- A segment register as R47 lays it out, valid, with bit 57 of SGCTL zero. -/
def IsSegment (g : BitVec 128) (base limit : Nat) (r : BitVec 5) : Prop :=
  (g.extractLsb' 0 64).toNat = base ∧ (g.extractLsb' 64 57).toNat = limit ∧ g.getLsbD 121 = false ∧ g.getLsbD 127 = true ∧
  ∀ k, k < 5 → g.getLsbD (126 - k) = r.getLsbD k

end Sys2Proof.Claims

open Sys2Proof Sys2Proof.Machine Sys2Proof.Claims in
/-- Stage barriers (R163): sbar.arv makes one arrival on the word, and no other byte of memory and no full/empty bit changes;
sbar.wt goes on when PH differs from ph, and parks the team otherwise; the wait ends once PH differs, or, while it does not,
with cause 0x0A past the limit of FERETRY. Each of them makes the LS readers see every write to the word (R274). A poisoned
word gives cause 0x0C at the instruction itself: R163 is silent and R326 has 0x0C deferred; it is the model's reading (DEDUCED,
log 22). -/
def Obligations.StageBarriers : Prop :=
  ∀ s id k, let tm := s.team id
  let phase : Bool := (BitVec.ofNat 64 (s.readKey k 8)).getLsbD 32
  (∀ a, Runs s id (.sbarArv a) → s.barrierKey tm (BitVec.ofNat 64 (tm.gpair a.toNat)) = .ok k → s.isPoisoned k = false →
    s.lsWrites (.team id) = false →
    ∃ s1 : State, exec (.sbarArv a) s = .next (s1.setTeam id (tm.advance (s.cur.len / 4))) ∧ s1.teams = s.teams ∧
      (∀ j, s1.isFull j = s.isFull j) ∧
      Stored s s1 [Piece.mk k 0 8 false false none] (toBytes 8 (arrived (BitVec.ofNat 64 (s.readKey k 8))).toNat)) ∧
  (∀ a h, Runs s id (.sbarWt a h) → s.barrierKey tm (BitVec.ofNat 64 (tm.gpair a.toNat)) = .ok k →
    s.isPoisoned k = false →
    (phase ≠ h → exec (.sbarWt a h) s = .next (((s.seeWord k).teamAcquire tm).setTeam id (afterBarrier s tm k))) ∧
    (phase = h → exec (.sbarWt a h) s = .next ((s.seeWord k).setTeam id { tm with
      st := .parked
      wait := .sbar (BitVec.ofNat 64 (tm.gpair a.toNat)) h
        (if (s.cluster tm.cl).feretry = 0 then 0 else s.clock tm.cl + (s.cluster tm.cl).feretry.toNat) }))) ∧
  (∀ a i, (i = .sbarArv a ∨ ∃ h, i = .sbarWt a h) → Runs s id i →
    s.barrierKey tm (BitVec.ofNat 64 (tm.gpair a.toNat)) = .ok k → s.isPoisoned k = true →
    exec i s = .next (s.teamTrap id (Trap.mk 0x0C 0 0xFFFFFFFF (BitVec.ofNat 64 (tm.gpair a.toNat))))) ∧
  (∀ va h u, tm.st = .parked → tm.wait = .sbar va h u →
    (s.launch tm.launch).windowKey tm.launch va.toNat = some k → s.isPoisoned k = false →
    (phase ≠ h → exec (.sbarWake id) s = .next (((s.seeWord k).teamAcquire tm).setTeam id
      { afterBarrier s tm k with yielded := false })) ∧
    (phase = h → exec (.sbarWake id) s = .next s) ∧
    (phase ≠ h → exec (.feretryExpiry (.team id)) s = .next s) ∧
    (u ≠ 0 → u ≤ s.clock tm.cl → phase = h →
      exec (.feretryExpiry (.team id)) s = .next (s.teamTrap id (Trap.mk 0x0A 0 0xFFFFFFFF va))))

open Sys2Proof Sys2Proof.Machine Sys2Proof.Claims in
/-- sgnar narrows one segment register to the proposal when it lies within what the segment covers and permits, and traps with
cause 0x03 and no change otherwise (R52, R164), with TADDR 0, since it makes no access (DEDUCED, log 116). fence.x changes no byte of memory, no register and no segment (R165, R292):
the readers on its to-path see the writes on its from-path whose completion the team has observed, and, from LS at cluster
scope or wider, all that LS readers see; nothing is hidden by it; the own L1 keeps K copies alone. The host is inside system
scope alone (R285). It waits for an acquire load in flight (R171). -/
def Obligations.SegmentsAndFences : Prop :=
  ∀ s id, let tm := s.team id
  (∀ n g r, let i := Instr.sgnar n g r
    let base := tm.gpair g.toNat
    let limit := tm.gpair (g.toNat + 2)
    Runs s id i →
    (Narrows (Tbl.get tm.sg 0 n.toNat) base limit r →
      ∃ tm' : Team, Completes s id i tm' ∧ tm' = { tm with sg := tm'.sg } ∧
        IsSegment (Tbl.get tm'.sg 0 n.toNat) base limit r ∧ ∀ k, k ≠ n.toNat → Tbl.get tm'.sg 0 k = Tbl.get tm.sg 0 k) ∧
    (¬ Narrows (Tbl.get tm.sg 0 n.toNat) base limit r →
      exec i s = .next (s.teamTrap id (Trap.mk 0x03 0 0xFFFFFFFF 0)))) ∧
  (∀ f t sc, let i := Instr.fenceX f t sc
    Runs s id i → (s.acqPending id = true → exec i s = .next s) ∧ (s.acqPending id = false →
    let reads := (f = 6 ∨ f.toNat = pathLS) ∧ (t = 6 ∨ t.toNat = pathLS) ∧ 2 ≤ sc.toNat
    let observed := if reads then tm.observed ++ tm.glimpsed else tm.observed
    ∃ s1 : State, exec i s = .next (s1.setTeam id (Team.advance
        { tm with
          fences := Fence.mk f.toNat t.toNat sc.toNat s.nextOp :: tm.fences, observed := observed
          glimpsed := if reads then [] else tm.glimpsed } (s.cur.len / 4))) ∧
      s1 = { s with veils := s1.veils, caches := s1.caches } ∧
      (∀ v ∈ s1.veils, ∀ p ∈ v.blind, (t = 6 ∨ t.toNat = p) → p ∈ allPaths → (p = pathHX → 5 ≤ sc.toNat) →
        ¬ (v.writer ≠ pathLS ∧ (f = 6 ∨ f.toNat = v.writer) ∧ v.op ∈ observed) ∧
        ¬ ((f = 6 ∨ f.toNat = pathLS) ∧ 2 ≤ sc.toNat ∧ pathLS ∉ v.blind)) ∧
      (∀ v ∈ s1.veils, ∃ u ∈ s.veils, v.writer = u.writer ∧ v.op = u.op ∧ v.old = u.old ∧ ∀ p ∈ v.blind, p ∈ u.blind) ∧
      ((t = 6 ∨ t.toNat = pathLS) → 2 ≤ sc.toNat → ∀ k c, (s1.copy? (s.l1Of tm) k) = some c → c.k = true)))

open Sys2Proof Sys2Proof.Machine Sys2Proof.Claims in
/-- What a team takes at a header (R168, R328): the deferred error of the instruction issued first, the lowest lane among its
own, as a trap at that header, with the instruction's address in TINFO and bit 12 of TCAUSE set; the others are dropped.
A clause wait ends once every counter that the header's WAIT names is zero, and not before. -/
def Obligations.AtTheHeader : Prop :=
  ∀ s id, let tm := s.team id
  (∀ w a b l h e v s1, Runs s id (.hdr w a b l h) → tm.dueError = some e →
    HandlerFor s id e.cause v s1 →
    e ∈ tm.deferred ∧ (∀ x ∈ tm.deferred, e.order < x.order ∨ (e.order = x.order ∧ e.lane ≤ x.lane)) ∧
    ∃ tm' : Team, exec (.hdr w a b l h) s = .next (s1.setTeam id tm') ∧
      tm'.v = tm.v ∧ tm'.g = tm.g ∧ tm'.p = tm.p ∧ tm'.gp = tm.gp ∧ tm'.cf = tm.cf ∧ tm'.mask = tm.mask ∧
      tm'.deferred = [] ∧ tm'.tepc = tm.pc ∧ tm'.tinfo = e.pc.extractLsb' 0 32 ∧ tm'.tlane = e.lane ∧
      tm'.taddr = (if e.cause.toNat ∈ [0x03, 0x04, 0x09, 0x0A, 0x0C, 0x0E] then e.addr else 0) ∧
      tm'.tcause.extractLsb' 0 8 = e.cause ∧ tm'.tcause.getLsbD 12 = true ∧
      tm'.tstat = tm.tstat ||| 0x40 ∧ tm'.pc = handlerAddress v e.cause) ∧
  ((tm.st = .clauseWait ∨ (tm.st = .parked ∧ tm.wait = .none)) →
    let zero := ∀ i, i < 12 → tm.hdrWord.getLsbD (14 + i) = true → tm.counter i = 0
    (zero → exec (.clauseWaitEnd id) s = .next (s.setTeam id { tm with st := .ready })) ∧
    (¬ zero → exec (.clauseWaitEnd id) s = .next s))

namespace Sys2Proof.Claims

open Machine

/-! ## Records, batches and placement (R21 to R32, R183 to R186, R348 to R352, R431) -/

/-- A team that has ended: it waits for its counters (R21). -/
def ended (t : Team) : Team :=
  { t with
    st := .retiring, wait := .none, mask := 0, live := 0, divs := [], divSpilled := 0, calls := [], callSpilled := 0
    clause := none, rep := none }

/-- The active lanes of a team, rising. -/
def activeLanes (t : Team) : List Nat := (List.range t.lanes).filter fun l => t.mask.testBit l

/-- The records of emit (R183): payload from va on, the lane's origin, the quality, and the deadline of pair c. -/
def emitted (t : Team) (dl : Bool) (a c : BitVec 7) (gd : Guard) (q : BitVec 4) (node : BitVec 6) (n : Nat) : List Rec :=
  (actingLanes t gd).map fun l =>
    { node := node.toNat, origin := Tbl.get t.origin 0 l, quality := q.toNat
      words := (List.range n).map fun k => t.vreg l (a.toNat + k)
      deadline := if dl then some (BitVec.ofNat 64 (t.gpair c.toNat)) else none }

/-- The records of regroup (R30, R31): v2 to v(k-1) of every active lane, placed from v2 on. -/
def regrouped (t : Team) (node : BitVec 6) (k : BitVec 8) : List Rec :=
  (activeLanes t).map fun l =>
    { node := node.toNat, origin := Tbl.get t.origin 0 l, first := 2
      words := (List.range (k.toNat - 2)).map fun i => t.vreg l (2 + i) }

/-- A team after its posts: on to the next step when every record was accepted, parked otherwise. -/
def posted (s : State) (id : Nat) (all : Bool) (done waiting : Team) : State :=
  s.setTeam id (if all then done else { waiting with st := .parked })

/-- The thread of a lane (R27, R28): register i from lane registers 2i and 2i+1, f register i from 64+2i and 65+2i; a half
at or above n is zero. -/
def BecomesThread (t : Team) (l : Nat) (pc : W64) (x : Slot) : Prop :=
  let half (r : Nat) : W32 := if r < t.n then t.vreg l r else 0
  x.st = .ready ∧ x.pc = pc ∧ x.launch = some t.launch ∧ x.origin = Tbl.get t.origin 0 l ∧ x.sg = t.sg ∧ x.fmt = t.fmt ∧
  x.sclp = t.sclp ∧ (∀ r : BitVec 5, r ≠ 0 → x.xreg r = half (2 * r.toNat + 1) ++ half (2 * r.toNat)) ∧
  (∀ r : BitVec 5, x.freg r = half (64 + 2 * r.toNat + 1) ++ half (64 + 2 * r.toNat))

/-- The bytes that a Cloakroom entry holds of the thread that a lane becomes (R27, R28, R374, R375): UNBOUND, no identity
handle, nothing in its inbox, an empty ring. -/
def LaneArea (t : Team) (l : Nat) (pc : W64) (bs : List Byte) : Prop :=
  let half (r : Nat) : W32 := if r < t.n then t.vreg l r else 0
  let field (off n : Nat) : Nat := ofBytes ((bs.drop off).take n)
  bs.length = 0x318 ∧ field 0 8 = pc.toNat ∧
  (∀ r, 0 < r → r < 32 → field (8 * r) 8 = (half (2 * r + 1) ++ half (2 * r)).toNat) ∧
  (∀ r, r < 32 → field (0x100 + 8 * r) 8 = (half (64 + 2 * r + 1) ++ half (64 + 2 * r)).toNat) ∧
  field 0x200 4 = 0 ∧ field 0x204 4 = 0 ∧ field 0x208 4 = t.fmt.toNat ∧ field 0x20C 4 = 1 ∧ field 0x210 8 = 0 ∧
  field 0x218 8 = (Tbl.get t.origin 0 l).toNat ∧ field 0x220 8 = t.sclp.toNat ∧ field 0x228 8 = 0 ∧
  (∀ n, n < 8 → field (0x230 + 16 * n) 16 = (Tbl.get t.sg 0 n).toNat) ∧ field 0x310 8 = 0

/-- The lanes in their order, each in the slot that it finds free as its turn comes (R29): machine s' after machine s. -/
def LanesInSlots (t : Team) (pc : W64) (s s' : State) : List Nat → Prop
  | [] => s' = s
  | l :: rest => ∃ k s1, s.slotForLane t.cl = some k ∧ BecomesThread t l pc (s1.slot k) ∧ (∀ j, j ≠ k → s1.slot j = s.slot j) ∧
      s1.mem = s.mem ∧ s1.teams = s.teams ∧ LanesInSlots t pc s1 s' rest

/-- The team of a batch (R31, R350): a lane for each record, its origin in v0 and v1, its words from its first register on. -/
def IsBatch (s : State) (cl launch n : Nat) (out : List Held) (t : Team) : Prop :=
  let nd := (s.launch launch).node n
  t.st = .admitting ∧ t.launch = launch ∧ t.cl = cl ∧ t.lanes = out.length ∧ t.n = nd.regs ∧ t.pc = nd.entry ∧
  t.node = BitVec.ofNat 32 n ∧ t.prio = max (s.launch launch).prio nd.prio ∧
  ∀ l h, out[l]? = some h →
    t.vreg l 0 = h.record.origin.extractLsb' 0 32 ∧ t.vreg l 1 = h.record.origin.extractLsb' 32 32 ∧
    ∀ i, i < h.record.words.length → t.vreg l (h.record.first + i) = h.record.words.getD i 0

/-- Free slots of a Drover: an accepted record, held or in a released batch, holds one until its team is created (R348). -/
def freeSlots (l : Launch) (d : Drover) : Nat :=
  l.lslots - (d.held.length + (d.batches.map fun b => b.records.length).sum)

/-- The admission rule of R348: what other nodes have reserved and do not hold, and one more, fit the free slots. -/
def Admits (l : Launch) (d : Drover) (n : Nat) : Prop :=
  1 + ((l.nodes.filter fun e => e.1 != n).map fun e =>
    e.2.reserve - (d.held.filter fun h => h.record.node == e.1).length).sum ≤ freeSlots l d

end Sys2Proof.Claims

open Sys2Proof Sys2Proof.Machine Sys2Proof.Claims in
/-- The WORK group (R29 to R31, R183 to R185): emit posts a record of every lane that takes part and goes on, or parks until
every one has a slot; regroup posts every active lane's registers and ends the team; leave makes the active lanes
threads, in the slots that are free, one lane after the other, or, with no slot free, in the lowest free entry of the Cloakroom,
which the keeper of core 0 is told (R373, R375), and ends the team once every lane is placed. Stack and counter checks come
first: causes 0x0D and 0x06. -/
def Obligations.WorkInstructions : Prop :=
  ∀ s id, let tm := s.team id
  (∀ dl a c gd q node nd all s1, let i := Instr.emit dl a c gd q node
    Runs s id i → Tbl.find? (s.launch tm.launch).nodes node.toNat = some nd → a.toNat + nd.payload ≤ tm.n →
    s.lsWrites (.team id) = false →
    s.postAll tm.cl tm.launch (.team id) true (emitted tm dl a c gd q node nd.payload) = (all, s1) →
    exec i s = .next (posted s1 id all (tm.advance 2) { tm with wait := .emit })) ∧
  (∀ node k nd all s1, let i := Instr.regroup node k
    Runs s id i → tm.divs = [] → tm.divSpilled = 0 → tm.drained = true →
    Tbl.find? (s.launch tm.launch).nodes node.toNat = some nd → k.toNat ≤ tm.n → k.toNat ≤ nd.regs →
    s.postAll tm.cl tm.launch (.team id) true (regrouped tm node k) = (all, s1) →
    exec i s = .next (posted s1 id all (ended tm) { tm with wait := .regroup, calls := [], callSpilled := 0 })) ∧
  (∀ a l k, let i := Instr.leave a
    Runs s id i → tm.divs = [] → tm.divSpilled = 0 → tm.drained = true → activeLanes tm = [l] →
    s.waitingLeaves tm.cl = [] → s.slotForLane tm.cl = some k →
    ∃ s1 : State, exec i s = .next (s1.setTeam id (ended tm)) ∧ s1.mem = s.mem ∧ s1.teams = s.teams ∧
      BecomesThread tm l (BitVec.ofNat 64 (tm.gpair a.toNat)) (s1.slot k) ∧ ∀ j, j ≠ k → s1.slot j = s.slot j) ∧
  (∀ a l k, let i := Instr.leave a
    Runs s id i → tm.divs = [] → tm.divSpilled = 0 → tm.drained = true → activeLanes tm = l :: k →
    s.waitingLeaves tm.cl = [] → s.slotForLane tm.cl = none → (s.cluster tm.cl).kckbase.getLsbD 0 = false →
    exec i s = .next (s.setTeam id { tm with
      st := .parked, wait := .leave (l :: k) (BitVec.ofNat 64 (tm.gpair a.toNat)), calls := [], callSpilled := 0 })) ∧
  (∀ a, let i := Instr.leave a
    let pc := BitVec.ofNat 64 (tm.gpair a.toNat)
    Runs s id i → tm.divs = [] → tm.divSpilled = 0 → tm.drained = true → s.waitingLeaves tm.cl = [] →
    (s.cluster tm.cl).kckbase.getLsbD 0 = false →
    ∃ (placed left : List Nat) (s1 : State), activeLanes tm = placed ++ left ∧ LanesInSlots tm pc s s1 placed ∧
      (left ≠ [] → s1.slotForLane tm.cl = none) ∧
      exec i s = .next (s1.setTeam id (if left = [] then ended tm else
        { tm with st := .parked, wait := .leave left pc, calls := [], callSpilled := 0 }))) ∧
  (∀ a l e, let i := Instr.leave a
    let c := s.cluster tm.cl
    let keeper := 256 * tm.cl + 15
    Runs s id i → tm.divs = [] → tm.divSpilled = 0 → tm.drained = true → activeLanes tm = [l] →
    s.waitingLeaves tm.cl = [] → s.slotForLane tm.cl = none → c.kckbase.getLsbD 0 = true →
    e < 64 → Tbl.find? c.cloak e = none → (∀ j, j < e → Tbl.find? c.cloak j ≠ none) →
    ∃ bs : List Byte, LaneArea tm l (BitVec.ofNat 64 (tm.gpair a.toNat)) bs ∧
      ∀ s1, s.tryWrite tm.cl (s.slot keeper).launchNo
          ((c.kckbase &&& 0xFFFFFFFFFFFF0000) + BitVec.ofNat 64 (1024 * e)).toNat bs = some s1 →
        ∃ s2 : State, exec i s = .next (s2.setTeam id (ended tm)) ∧ s2.mem = s1.mem ∧ s2.teams = s1.teams ∧
          Tbl.find? (s2.cluster tm.cl).cloak e = some .ready ∧
          (s2.cluster tm.cl).cloakReady = (s1.cluster tm.cl).cloakReady ++ [e] ∧
          (s2.slot keeper).events = (s1.slot keeper).events |||
            (if c.kckbase.extractLsb' 1 5 = 0 then 0 else 1 <<< (c.kckbase.extractLsb' 1 5).toNat) ∧
          ∀ j, j ≠ keeper → s2.slot j = s1.slot j) ∧
  (∀ i, ((∃ node k, i = .regroup node k) ∨ ∃ a, i = .leave a) → Runs s id i →
    (tm.divs ≠ [] ∨ tm.divSpilled ≠ 0 → exec i s = .next (s.teamTrap id (Trap.mk 0x0D s.cur.w1 0xFFFFFFFF 0))) ∧
    (tm.divs = [] → tm.divSpilled = 0 → tm.drained = false →
      exec i s = .next (s.teamTrap id (Trap.mk 0x06 s.cur.w1 0xFFFFFFFF 0))))

open Sys2Proof Sys2Proof.Machine Sys2Proof.Claims in
/-- The Drover (R348 to R351): a record is accepted when the reserve rule admits it and no waiting record comes before it, and
waits otherwise; the first waiting record is admitted once it may be; a batch that is full or whose timeout has passed is
released, those due in one cycle on a cluster by node priority and then by age; the batch released first becomes a team next; a
record whose deadline has passed is dropped and counted, or goes on at lower quality, under
its node's policy. When a released batch becomes a team is not architectural: here a team admission comes with it (DEDUCED,
log 57). -/
def Obligations.RecordsAndBatches : Prop :=
  ∀ s cl ctx launch, let l := s.launch launch
  let d := s.drover cl launch
  (∀ r p, s.post cl launch r p =
    if s.acceptsNow cl launch r then (true, s.accept cl launch r 0)
    else (false, s.modDrover cl launch fun d => { d with waiting := d.waiting ++ [WaitRec.mk r p] })) ∧
  (∀ r, s.acceptsNow cl launch r = true ↔
    Admits l d r.node ∧ ∀ w ∈ d.waiting, (l.node r.node).prio < (l.node w.record.node).prio) ∧
  (Tbl.find? (s.cluster cl).ctx ctx = some launch →
    (∀ w rest, d.waiting = w :: rest → (∀ x ∈ rest, (l.node w.record.node).prio ≤ (l.node x.record.node).prio) →
      (Admits l d w.record.node →
        exec (.recordAdmit cl ctx) s = .next (((s.modDrover cl launch fun d => { d with waiting := rest }).accept cl launch
          w.record 0).wakePoster cl launch w.poster)) ∧
      (¬ Admits l d w.record.node → exec (.recordAdmit cl ctx) s = .next s)) ∧
    (∀ node h rest, let out := (h :: rest).take (max 1 (l.node node).batch)
      d.held.filter (fun x => x.record.node == node) = h :: rest → (l.node node).timeout ≤ s.clock cl - h.since →
      d.heldBack l node = false → l.draining = false → (h :: rest).length ≤ max 1 (l.node node).batch →
      Tbl.rising (s.cluster cl).drover = true → (∀ e ∈ s.releasable cl, e.1 = launch ∧ e.2.record.node = node) →
      ∃ s' : State, exec (.batchTimeout cl ctx node) s = .next s' ∧ s'.mem = s.mem ∧ s'.teams = s.teams ∧
        (s'.drover cl launch).batches = d.batches ++ [Batch.mk (s.cluster cl).batchSeq node out] ∧
        (s'.drover cl launch).waiting = d.waiting ∧
        (s'.drover cl launch).held = d.held.filter fun x => !out.contains x) ∧
    (∀ idx h t, s.nextRelease cl = none → d.held[idx]? = some h → h.record.deadline = some t → t.toNat < s.time.toNat →
      h.notBefore ≤ s.time.toNat →
      let nd := l.node h.record.node
      let gone := s.modDrover cl launch fun d => { d with held := d.held.filter fun x => x != h }
      (nd.policy = 0 → exec (.recordDeadline cl ctx idx) s = .next s) ∧
      (nd.policy = 2 → 1 ≤ h.record.quality → (l.node nd.degn).qmin < h.record.quality →
        exec (.recordDeadline cl ctx idx) s = .next (gone.hold cl launch
          { h.record with node := nd.degn, quality := h.record.quality - 1 } (s.time.toNat + 1000) h.larder)) ∧
      (nd.policy = 1 → ∃ s' : State, exec (.recordDeadline cl ctx idx) s = .next s' ∧
        s' = { s with clusters := s'.clusters, launches := s'.launches } ∧
        s'.launch launch = { l with drops := l.drops + 1 } ∧
        (s'.drover cl launch).held = d.held.filter fun x => x != h))) ∧
  (∀ n h, (n, h) ∈ s.releasable cl ↔ ∃ dv, (n, dv) ∈ (s.cluster cl).drover ∧ h ∈ dv.held ∧
    let nd := (s.launch n).node h.record.node
    let own := dv.held.filter fun x => x.record.node == h.record.node
    dv.heldBack (s.launch n) h.record.node = false ∧
      ((s.launch n).draining = true ∨ nd.batch ≤ own.length ∨ ∃ x, own.head? = some x ∧ nd.timeout ≤ s.clock cl - x.since)) ∧
  (∀ n h, let prio (e : Nat × Held) := ((s.launch e.1).node e.2.record.node).prio
    s.nextRelease cl = some (n, h) → (n, h) ∈ s.releasable cl ∧
      ∀ e ∈ s.releasable cl, prio (n, h) < prio e ∨ (prio (n, h) = prio e ∧ h.seq ≤ e.2.seq)) ∧
  (∀ n b eng, let s' := s.createTeam cl
    (n, b) ∈ (s.cluster cl).awaiting → (∀ e ∈ (s.cluster cl).awaiting, e = (n, b) ∨ b.seq < e.2.seq) →
    (∀ x ∈ b.records, x.record.bad = false ∧ 2 ≤ x.record.first ∧ x.record.first + x.record.words.length ≤ 128) →
    IsBatch s cl n b.node b.records (s'.team s.nextTeam) ∧ (∀ t, t ≠ s.nextTeam → s'.team t = s.team t) ∧ s'.mem = s.mem ∧
      (s'.drover cl n).held = (s.drover cl n).held ∧
      (s'.drover cl n).batches = (s.drover cl n).batches.filter (fun x => x.seq != b.seq) ∧
      ((s'.cluster cl).awaiting = [] → exec (.teamAdmit cl eng) s = exec (.teamAdmit cl eng) s'))

open Sys2Proof Sys2Proof.Machine Sys2Proof.Claims in
/-- Teams and threads get room (R21, R34, R44, R344, R381, R431): a waiting team starts on the engine that has room, with the
lowest spill index that no team of its launch on the cluster holds (R381 gives the index at a team's creation; that one is
created as it takes room on an engine is the model's reading: DEDUCED, log 43); a team that has ended leaves once its counters are zero; a free slot goes to a waiting launch thread, its index in a0; the lane next
in turn of the leave that waits longest takes it otherwise; a launch that the host drains releases what its nodes hold. -/
def Obligations.Placement : Prop :=
  (∀ s cl eng t tm e, (s.cluster cl).awaiting = [] → s.nextAdmit cl = some (t, tm) → s.engineFor tm eng = some e → s.team t = tm → tm.frame = 0 →
    ∃ idx : Nat, let on := { tm with st := .ready, eng := e, issued := s.clock tm.cl, spillIdx := idx }
    exec (.teamAdmit cl eng) s = .next
      (if tm.number.getLsbD 31 then (s.setTeam t on).teamAcquire on else s.setTeam t on) ∧
    (∀ x ∈ s.teams, x.2.launch = tm.launch → x.2.cl = tm.cl → x.2.holdsIndex = true → x.2.spillIdx ≠ idx) ∧
    ∀ j, j < idx → ∃ x ∈ s.teams, x.2.launch = tm.launch ∧ x.2.cl = tm.cl ∧ x.2.holdsIndex = true ∧ x.2.spillIdx = j) ∧
  (∀ s t, let tm := s.team t
    (tm.st = .retiring → (∀ e ∈ tm.cf, e.2 = 0) → ∃ s' : State, exec (.teamRetire t) s = .next s' ∧
      s' = { s with teams := Tbl.erase s.teams t, rays := s'.rays } ∧
      ∀ k, Tbl.find? s'.rays k = if k / 1024 = t then none else Tbl.find? s.rays k) ∧
    (¬ (tm.st = .retiring ∧ ∀ e ∈ tm.cf, e.2 = 0) → exec (.teamRetire t) s = .next s)) ∧
  (∀ s k launch idx rest, (s.slot k).st = .free → (s.slot k).reserved = false → k % 16 ≠ 15 →
    (s.cluster (k / 256)).pendThreads = (launch, idx) :: rest →
    ∃ s' : State, exec (.slotGrant k) s = .next s' ∧ (s'.cluster (k / 256)).pendThreads = rest ∧
      (s'.slot k).st = .ready ∧ (s'.slot k).pc = (s.launch launch).sentry ∧ (s'.slot k).launch = some launch ∧
      (∀ r : BitVec 5, (s'.slot k).xreg r =
        if r = 10 then BitVec.ofNat 64 idx else if r = 1 then Config.retireAddress else 0) ∧
      ∀ j, j ≠ k → s'.slot j = s.slot j) ∧
  (∀ s t l rest pc k, let tm := s.team t
    s.firstLeave tm.cl = some t → tm.wait = .leave (l :: rest) pc → s.slotForLane tm.cl = some k →
    ∃ s1 : State, exec (.leaveLanePlace t) s = .next (s1.setTeam t (if rest = [] then ended tm else
        { tm with st := .parked, wait := .leave rest pc, calls := [], callSpilled := 0 })) ∧
      BecomesThread tm l pc (s1.slot k) ∧ s1.teams = s.teams ∧ ∀ j, j ≠ k → s1.slot j = s.slot j) ∧
  (∀ s n, let l := s.launch n
    l.st = .resident →
    (l.draining = true → exec (.launchDrain n) s = .next (s.drainOn l.grid)) ∧
    (l.draining = false → l.drainIdle = false → exec (.launchDrain n) s = .next s))

namespace Sys2Proof.Claims

open Machine

/-! ## Scalar threads (R42, R43, R240 to R242, R309 to R315) -/

/-- The instructions of scalar threads, and the keeper-only ones among them (R315, R316): blocks of the opcode table. -/
def isScalar (i : Instr) : Bool :=
  (Instr.xpost 0 0 0).ctorIdx ≤ i.ctorIdx && i.ctorIdx ≤ Instr.wfi.ctorIdx
def isKeepers (i : Instr) : Bool :=
  (Instr.xtimer 0 0).ctorIdx ≤ i.ctorIdx && i.ctorIdx ≤ (Instr.xpoke 0 0).ctorIdx

/-- Slot k runs instruction i, whose word is well-formed (R111). -/
def Thread (s : State) (k : Nat) (i : Instr) : Prop := s.cur.party = .slot k ∧ i.wellFormed = true

/-- The machine s with slot k holding x, control moved on by the length of the instruction in hand. -/
def goneOn (s : State) (k : Nat) (x : Slot) : State := s.setSlot k { x with pc := x.pc + BitVec.ofNat 64 s.cur.len }

/-- Slot y is slot x with v in register rd; x0 keeps reading 0 (R42). -/
def PutsX (x y : Slot) (rd : BitVec 5) (v : W64) : Prop :=
  y = { x with x := y.x } ∧ ∀ r, y.xreg r = if r = rd ∧ r ≠ 0 then v else x.xreg r

/-- Slot y is slot x with v in floating-point register rd and flags raised in fcsr. -/
def PutsF (x y : Slot) (rd : BitVec 5) (v : W64) (fl : W32) : Prop :=
  y = { x with f := y.f, fcsr := x.fcsr ||| (fl &&& 0x1F) } ∧ ∀ r, y.freg r = if r = rd then v else x.freg r

/-- The instruction raises a keeper cause and does nothing else (R313). -/
def Raises (s : State) (k : Nat) (i : Instr) (code : BitVec 8) (tval : W64) : Prop :=
  exec i s = .next (s.keeperTrap k code tval)

/-- A 32-bit result in a register. -/
def wordReg (v : BitVec 32) : W64 := v.signExtend 64

/-- Results of the RISC-V operations on two registers (R240: the ratified meaning). -/
def aluResult (o : RvAlu) (a b : W64) : W64 :=
  let p : BitVec 32 := a.extractLsb' 0 32
  let q : BitVec 32 := b.extractLsb' 0 32
  let sh := (b.extractLsb' 0 6).toNat
  let shw := (b.extractLsb' 0 5).toNat
  match o with
  | .add => a + b
  | .sub => a - b
  | .sll => a <<< sh
  | .slt => if a.toInt < b.toInt then 1 else 0
  | .sltu => if a.toNat < b.toNat then 1 else 0
  | .xor => a ^^^ b
  | .srl => a >>> sh
  | .sra => a.sshiftRight sh
  | .or => a ||| b
  | .and => a &&& b
  | .addw => wordReg (p + q)
  | .subw => wordReg (p - q)
  | .sllw => wordReg (p <<< shw)
  | .srlw => wordReg (p >>> shw)
  | .sraw => wordReg (p.sshiftRight shw)
  | .mul => a * b
  | .mulh => BitVec.ofInt 64 (a.toInt * b.toInt / 2 ^ 64)
  | .mulhsu => BitVec.ofInt 64 (a.toInt * Int.ofNat b.toNat / 2 ^ 64)
  | .mulhu => BitVec.ofNat 64 (a.toNat * b.toNat / 2 ^ 64)
  | .div => if b = 0 then -1 else BitVec.ofInt 64 (a.toInt.tdiv b.toInt)
  | .divu => if b = 0 then -1 else BitVec.ofNat 64 (a.toNat / b.toNat)
  | .rem => if b = 0 then a else BitVec.ofInt 64 (a.toInt.tmod b.toInt)
  | .remu => if b = 0 then a else BitVec.ofNat 64 (a.toNat % b.toNat)
  | .mulw => wordReg (p * q)
  | .divw => wordReg (if q = 0 then -1 else BitVec.ofInt 32 (p.toInt.tdiv q.toInt))
  | .divuw => wordReg (if q = 0 then -1 else BitVec.ofNat 32 (p.toNat / q.toNat))
  | .remw => wordReg (if q = 0 then p else BitVec.ofInt 32 (p.toInt.tmod q.toInt))
  | .remuw => wordReg (if q = 0 then p else BitVec.ofNat 32 (p.toNat % q.toNat))
  | .addUw => b + p.setWidth 64
  | .sh1add => 2 * a + b
  | .sh2add => 4 * a + b
  | .sh3add => 8 * a + b
  | .sh1addUw => 2 * p.setWidth 64 + b
  | .sh2addUw => 4 * p.setWidth 64 + b
  | .sh3addUw => 8 * p.setWidth 64 + b
  | .andn => a &&& ~~~ b
  | .orn => a ||| ~~~ b
  | .xnor => ~~~ (a ^^^ b)
  | .max => if a.toInt < b.toInt then b else a
  | .maxu => if a.toNat < b.toNat then b else a
  | .min => if b.toInt < a.toInt then b else a
  | .minu => if b.toNat < a.toNat then b else a
  | .rol => a.rotateLeft sh
  | .ror => a.rotateRight sh
  | .rolw => wordReg (p.rotateLeft shw)
  | .rorw => wordReg (p.rotateRight shw)

/-- Byte k of a register, and the byte of ones or zeros that orc.b makes of it. -/
def byteOf (a : W64) (k : Nat) : BitVec 8 := a.extractLsb' (8 * k) 8
def ones (a : W64) (k : Nat) : BitVec 8 := if byteOf a k = 0 then 0 else 0xFF

/-- Results of the operations on one register. -/
def unaryResult (o : RvUnary) (a : W64) : W64 :=
  let p : BitVec 32 := a.extractLsb' 0 32
  match o with
  | .clz => a.clz
  | .ctz => a.reverse.clz
  | .cpop => BitVec.ofNat 64 ((List.range 64).countP a.getLsbD)
  | .clzw => p.clz.setWidth 64
  | .ctzw => p.reverse.clz.setWidth 64
  | .cpopw => BitVec.ofNat 64 ((List.range 32).countP p.getLsbD)
  | .sextB => (a.extractLsb' 0 8).signExtend 64
  | .sextH => (a.extractLsb' 0 16).signExtend 64
  | .zextH => (a.extractLsb' 0 16).setWidth 64
  | .orcB => ones a 7 ++ ones a 6 ++ ones a 5 ++ ones a 4 ++ ones a 3 ++ ones a 2 ++ ones a 1 ++ ones a 0
  | .rev8 => byteOf a 0 ++ byteOf a 1 ++ byteOf a 2 ++ byteOf a 3 ++ byteOf a 4 ++ byteOf a 5 ++ byteOf a 6 ++ byteOf a 7

def immResult (o : RvImm) (a : W64) (imm : BitVec 12) : W64 :=
  let i : W64 := imm.signExtend 64
  match o with
  | .addi => a + i
  | .slti => if a.toInt < imm.toInt then 1 else 0
  | .sltiu => if a.toNat < i.toNat then 1 else 0
  | .xori => a ^^^ i
  | .ori => a ||| i
  | .andi => a &&& i
  | .addiw => wordReg (a.extractLsb' 0 32 + imm.signExtend 32)

def shiftResult (o : RvShift) (a : W64) (sh : BitVec 6) : W64 :=
  let p : BitVec 32 := a.extractLsb' 0 32
  let w := (sh.extractLsb' 0 5).toNat
  match o with
  | .slli => a <<< sh.toNat
  | .srli => a >>> sh.toNat
  | .srai => a.sshiftRight sh.toNat
  | .rori => a.rotateRight sh.toNat
  | .slliw => wordReg (p <<< w)
  | .srliw => wordReg (p >>> w)
  | .sraiw => wordReg (p.sshiftRight w)
  | .roriw => wordReg (p.rotateRight w)
  | .slliUw => p.setWidth 64 <<< sh.toNat

/-- What an integer instruction of RISC-V writes: register and value. -/
def integerResult (o : RvOp) (x : Slot) : Option (BitVec 5 × W64) :=
  match o with
  | .lui rd imm => some (rd, (imm ++ (0 : BitVec 12)).signExtend 64)
  | .auipc rd imm => some (rd, x.pc + (imm ++ (0 : BitVec 12)).signExtend 64)
  | .alu a rd r1 r2 => some (rd, aluResult a (x.xreg r1) (x.xreg r2))
  | .unary u rd r1 => some (rd, unaryResult u (x.xreg r1))
  | .aluImm i rd r1 imm => some (rd, immResult i (x.xreg r1) imm)
  | .shift h rd r1 sh => some (rd, shiftResult h (x.xreg r1) sh)
  | .fmvToInt true rd r1 => some (rd, x.freg r1)
  | .fmvToInt false rd r1 => some (rd, wordReg ((x.freg r1).extractLsb' 0 32))
  | _ => none

/-- Whether a branch is taken. -/
def Taken (b : RvBranch) (u v : W64) : Prop :=
  match b with
  | .beq => u = v
  | .bne => u ≠ v
  | .blt => u.toInt < v.toInt
  | .bge => v.toInt ≤ u.toInt
  | .bltu => u.toNat < v.toNat
  | .bgeu => v.toNat ≤ u.toNat

/-- The rounding mode that an rm field names (R75, R240): frm for 7; 5 and 6, and an frm from 5 up, name none. -/
def modeOf (x : Slot) (rm : BitVec 3) : Option Nat :=
  match (if rm = 7 then x.fcsr.extractLsb' 5 3 else rm).toNat with
  | 0 => some 0
  | 1 => some 1
  | 2 => some 3
  | 3 => some 2
  | 4 => some 5
  | _ => none

/-- A single-precision value in a register (R42): NaN-boxed; one that is not boxed reads as the canonical NaN. -/
def inReg (dbl : Bool) (v : Nat) : W64 := if dbl then BitVec.ofNat 64 v else 0xFFFFFFFF#32 ++ BitVec.ofNat 32 v
def ofReg (dbl : Bool) (v : W64) : Nat :=
  if dbl then v.toNat else if v.extractLsb' 32 32 = 0xFFFFFFFF then (v.extractLsb' 0 32).toNat else 0x7FC00000

/-- What a floating-point instruction of RISC-V writes to a floating-point register, for the rounding mode it uses, if it uses
one: whether it rounds, its rm field, register, form, and the code with flags for a mode. -/
def floatResult (o : RvOp) (x : Slot) : Option (Bool × BitVec 3 × BitVec 5 × Bool × (Nat → Nat × W32)) :=
  let v (dbl : Bool) (r : BitVec 5) : Nat := ofReg dbl (x.freg r)
  match o with
  | .fma m dbl rm rd r1 r2 r3 => some (true, rm, rd, dbl, fun k => Machine.rvFma m dbl k (v dbl r1) (v dbl r2) (v dbl r3))
  | .fop f dbl rm rd r1 r2 =>
    some (f ∈ [RvFop.add, .sub, .mul, .div], rm, rd, dbl, fun k => Machine.rvFop f dbl k (v dbl r1) (v dbl r2))
  | .fsqrt dbl rm rd r1 => some (true, rm, rd, dbl, fun k => Machine.rvSqrt dbl k (v dbl r1))
  | .fcvtFromInt i dbl rm rd r1 => some (true, rm, rd, dbl, fun k => Machine.rvFromInt i dbl k (x.xreg r1))
  | .fcvtSD rm rd r1 => some (true, rm, rd, false, fun k => Machine.rvConvert false k (v true r1))
  | .fcvtDS rm rd r1 => some (true, rm, rd, true, fun k => Machine.rvConvert true k (v false r1))
  | .fmvFromInt dbl rd r1 => some (false, 0, rd, dbl, fun _ => ((x.xreg r1).toNat, 0))
  | _ => none

/-- The class bit of fclass, from sign, exponent and fraction fields. -/
def classOf (dbl : Bool) (v : Nat) : W64 :=
  let (ew, mw) := if dbl then (11, 52) else (8, 23)
  let neg := v.testBit (ew + mw)
  let e := v / 2 ^ mw % 2 ^ ew
  let m := v % 2 ^ mw
  let bit (n p : Nat) : W64 := 1 <<< (if neg then n else p)
  if e = 2 ^ ew - 1 then (if m = 0 then bit 0 7 else if m.testBit (mw - 1) then 0x200 else 0x100)
  else if e = 0 then (if m = 0 then bit 3 4 else bit 2 5)
  else bit 1 6

/-- What a floating-point instruction writes to an integer register: whether it rounds, its rm field, register, and the value
with flags for a mode. -/
def floatToInt (o : RvOp) (x : Slot) : Option (Bool × BitVec 3 × BitVec 5 × (Nat → W64 × W32)) :=
  let v (dbl : Bool) (r : BitVec 5) : Nat := ofReg dbl (x.freg r)
  match o with
  | .fcmp c dbl rd r1 r2 =>
    some (false, 0, rd, fun _ => let r := Machine.rvFcmp c dbl (v dbl r1) (v dbl r2); (if r.1 then 1 else 0, r.2))
  | .fclass dbl rd r1 => some (false, 0, rd, fun _ => (classOf dbl (v dbl r1), 0))
  | .fcvtToInt i dbl rm rd r1 => some (true, rm, rd, fun k => Machine.rvToInt i dbl k (v dbl r1))
  | _ => none

/-- A CSR instruction: what it does, register, number, the value it brings, and whether it leaves the CSR unwritten. -/
def csrForm (o : RvOp) (x : Slot) : Option (RvCsr × BitVec 5 × BitVec 12 × W64 × Bool) :=
  match o with
  | .csr c rd r1 num => some (c, rd, num, x.xreg r1, c ≠ .rw && r1 = 0)
  | .csrI c rd z num => some (c, rd, num, z.setWidth 64, c ≠ .rw && z = 0)
  | _ => none

/-- The value of a keeper CSR (R311, R312, R324, R373); a field of the selected slot is 0 while ksel is 15. -/
def keeperReads (s : State) (core n : Nat) : W64 :=
  let c := s.core core
  let k := s.cluster (core / 16)
  let sel (f : Slot → W64) : W64 := if c.ksel = 15 then 0 else f (s.slot (core * 16 + c.ksel.toNat))
  let latch (f : Msg → W64) : W64 := match c.spillLatch with | some m => f m | none => 0
  match n with
  | 0x5C0 => c.kpend
  | 0x5C1 => c.ksel.setWidth 64
  | 0x5C2 => sel fun y => if y.st = .trapped then y.kcause.setWidth 64 else 0xFF
  | 0x5C3 => sel fun y => y.pc
  | 0x5C4 => sel fun y => y.ktval
  | 0x5C5 => match c.spillQ with | m :: _ => m.target | [] => 0
  | 0x5C6 => latch fun m => m.payload.getD 1 0 ++ m.payload.getD 0 0
  | 0x5C7 => latch fun m => m.payload.getD 3 0 ++ m.payload.getD 2 0
  | 0x5C8 => latch fun m => (if m.cls = .data then 0 else 0x4000000000000000) ||| (m.sender &&& 0x3FFFFFFFFFFFFFFF)
  | 0x5C9 => if core % 16 = 0 then k.poisonQ.headD 0 else 0
  | 0x5CA => k.kckbase
  | 0x5CB => match k.cloakReady with | e :: _ => k.cloakArea e | [] => 0
  | 0x5CC => k.cloakUsed
  | 0x5CD => sel fun y => y.karea
  | 0x5D0 => Tbl.get c.dqring 0 0
  | 0x5D1 => Tbl.get c.dqring 0 1
  | 0x5D2 => Tbl.get c.dqring 0 2
  | 0x5D3 => Tbl.get c.dqring 0 3
  | 0x5D4 => (Tbl.get c.dqcnt 0 0).setWidth 64
  | 0x5D5 => (Tbl.get c.dqcnt 0 1).setWidth 64
  | 0x5D6 => (Tbl.get c.dqcnt 0 2).setWidth 64
  | 0x5D7 => (Tbl.get c.dqcnt 0 3).setWidth 64
  | 0x5D8 => sel fun y => y.ksteal
  | 0x5D9 => k.feretry.setWidth 64
  | 0x5DA => k.wmpart.setWidth 64
  | _ => 0

/-- The numbers of the keeper CSRs (R311, R312, R373). -/
def keepersCsr (num : BitVec 12) : Prop :=
  (0x5C0 ≤ num.toNat ∧ num.toNat ≤ 0x5CD) ∨ (0x5D0 ≤ num.toNat ∧ num.toNat ≤ 0x5DA)

/-- What reading a keeper CSR takes off: the oldest spill entry into the latch, the oldest poison record, the oldest READY entry of
the Cloakroom, which becomes HELD (R323, R324, R373). -/
def keeperPops (s : State) (core n : Nat) : State :=
  let c := s.core core
  let k := s.cluster (core / 16)
  if n = 0x5C5 then
    match c.spillQ with
    | m :: r => s.setCore core { c with spillQ := r, spillLatch := some m }
    | [] => s
  else if n = 0x5C9 ∧ core % 16 = 0 then
    match k.poisonQ with
    | _ :: r => s.setCluster (core / 16) { k with poisonQ := r }
    | [] => s
  else if n = 0x5CB then
    match k.cloakReady with
    | e :: r => s.setCluster (core / 16) { k with cloakReady := r, cloak := Tbl.put k.cloak e .held }
    | [] => s
  else s

/-- What writing a keeper CSR does: new is the value of a field that is written, clear the ones that clear bits. The other keeper
CSRs ignore writes. -/
def keeperWrites (s : State) (core n : Nat) (new clear : W64) : State :=
  let c := s.core core
  let k := s.cluster (core / 16)
  let sel (f : Slot → Slot) : State :=
    if c.ksel = 15 then s else s.setSlot (core * 16 + c.ksel.toNat) (f (s.slot (core * 16 + c.ksel.toNat)))
  let ring (d : Nat) : State :=
    let log := new.toNat % 32
    s.setCore core (if Tbl.get c.dqcnt 0 d = 0 ∧ (log = 0 ∨ (4 ≤ log ∧ log ≤ 16)) then
      { c with dqring := Tbl.set c.dqring 0 d (new &&& 0xFFFFFFFFFFFFF01F), dqhead := Tbl.erase c.dqhead d } else c)
  match n with
  | 0x5C0 => s.setCore core { c with kpend := c.kpend &&& ~~~ clear }
  | 0x5C1 => s.setCore core { c with ksel := new.extractLsb' 0 4 }
  | 0x5C3 => sel fun y => if y.st = .trapped then { y with pc := new } else y
  | 0x5CA => s.setCluster (core / 16) { k with
      kckbase := ((if k.cloak = [] then new else k.kckbase) &&& 0xFFFFFFFFFFFF0000) ||| (new &&& 0x3F) }
  | 0x5CC => s.setCluster (core / 16) (k.freeCloaks clear)
  | 0x5CD => sel fun y => { y with karea := new &&& 0xFFFFFFFFFFFFFC00 }
  | 0x5D0 => ring 0
  | 0x5D1 => ring 1
  | 0x5D2 => ring 2
  | 0x5D3 => ring 3
  | 0x5D8 => sel fun y => { y with ksteal := new &&& 0xFFFFFFFFFFFFFFC0 }
  | 0x5D9 => s.setCluster (core / 16) { k with feretry := new.extractLsb' 0 32 }
  | 0x5DA => s.setCluster (core / 16) (k.setWmpart (new.extractLsb' 0 32))
  | _ => s

/-- A load's bytes as a register holds them. -/
def loaded (l : RvLoad) (v : Nat) : W64 :=
  match l with
  | .lb => (BitVec.ofNat 8 v).signExtend 64
  | .lh => (BitVec.ofNat 16 v).signExtend 64
  | .lw => (BitVec.ofNat 32 v).signExtend 64
  | .ld => BitVec.ofNat 64 v
  | .lbu => BitVec.ofNat 64 v
  | .lhu => BitVec.ofNat 64 v
  | .lwu => BitVec.ofNat 64 v

def loadBytes (l : RvLoad) : Nat :=
  match l with
  | .lb | .lbu => 1
  | .lh | .lhu => 2
  | .lw | .lwu => 4
  | .ld => 8

def storeBytes (t : RvStore) : Nat :=
  match t with
  | .sb => 1
  | .sh => 2
  | .sw => 4
  | .sd => 8

/-- A load: its address and size, and the register it fills: an integer register, or a floating-point one with the value
boxed. -/
def loadForm (o : RvOp) (x : Slot) : Option (Nat × Nat × (Slot → Nat → Prop)) :=
  match o with
  | .load l rd r1 imm => some ((x.xreg r1 + imm.signExtend 64).toNat, loadBytes l, fun y v => PutsX x y rd (loaded l v))
  | .fload dbl rd r1 imm =>
    some ((x.xreg r1 + imm.signExtend 64).toNat, if dbl then 8 else 4, fun y v => PutsF x y rd (inReg dbl v) 0)
  | _ => none

/-- A store: its address, its size, and the register value whose low bytes it stores. -/
def storeForm (o : RvOp) (x : Slot) : Option (Nat × Nat × W64) :=
  match o with
  | .store t r1 r2 imm => some ((x.xreg r1 + imm.signExtend 64).toNat, storeBytes t, x.xreg r2)
  | .fstore dbl r1 r2 imm => some ((x.xreg r1 + imm.signExtend 64).toNat, if dbl then 8 else 4, x.freg r2)
  | _ => none

/-- A thread's access passes the check of R50; lod tells whether the deciding segment has L. -/
def MayAccess (s : State) (x : Slot) (need : Need) (va n : Nat) (lod : Bool) : Prop :=
  checkSearch (s.launch x.launchNo) x.launchNo x.sg need va n n = (.ok, lod)

/-- The new value of an AMO. -/
def amoResult {w : Nat} (o : AmoOp) (a x : BitVec w) : BitVec w :=
  match o with
  | .swap => x
  | .add => a + x
  | .xor => a ^^^ x
  | .and => a &&& x
  | .or => a ||| x
  | .min => if x.toInt < a.toInt then x else a
  | .max => if a.toInt < x.toInt then x else a
  | .minu => if x.toNat < a.toNat then x else a
  | .maxu => if a.toNat < x.toNat then x else a

/-- A value of n bytes, 4 or 8, sign-extended. -/
def signed (n v : Nat) : W64 := if n = 4 then (BitVec.ofNat 32 v).signExtend 64 else BitVec.ofNat 64 v

end Sys2Proof.Claims

open Sys2Proof Sys2Proof.Machine Sys2Proof.Claims in
/-- The RISC-V integer instructions of a thread (R42, R240): the register rd gets the ratified result, x0 stays 0, a jump links
the next address and goes to its target, a branch goes there when its condition holds; no other register and no memory
changes. -/
def Obligations.ScalarIntegers : Prop :=
  ∀ s k o, let x := s.slot k
  let i := Instr.riscvBaseOp o
  let next := x.pc + BitVec.ofNat 64 s.cur.len
  Thread s k i →
  (∀ rd v, integerResult o x = some (rd, v) → ∃ y : Slot, exec i s = .next (goneOn s k y) ∧ PutsX x y rd v) ∧
  (∀ rd imm, o = .jal rd imm → ∃ y : Slot, exec i s = .next (s.setSlot k { y with pc := x.pc + imm.signExtend 64 }) ∧
    PutsX x y rd next) ∧
  (∀ rd r1 imm, o = .jalr rd r1 imm → ∃ y : Slot, exec i s = .next (s.setSlot k { y with
      pc := (x.xreg r1 + imm.signExtend 64) &&& 0xFFFFFFFFFFFFFFFE }) ∧ PutsX x y rd next) ∧
  (∀ b r1 r2 imm, o = .branch b r1 r2 imm →
    (Taken b (x.xreg r1) (x.xreg r2) → exec i s = .next (s.setSlot k { x with pc := x.pc + imm.signExtend 64 })) ∧
    (¬ Taken b (x.xreg r1) (x.xreg r2) → exec i s = .next (goneOn s k x)))

open Sys2Proof Sys2Proof.Machine Sys2Proof.Claims in
/-- The F and D instructions and the CSRs of user level (R42, R43, R240): a result is NaN-boxed, its flags accrue in fcsr, a
rounding mode of 5 or 6, or an frm from 5 up, gives keeper cause 2; fflags, frm and fcsr read and write their fields; in slot 15
the keeper CSRs read, pop and write as R311 and R312 say; every other CSR gives cause 2. -/
def Obligations.ScalarFloatsAndCsrs : Prop :=
  ∀ s k o, let x := s.slot k
  let i := Instr.riscvBaseOp o
  Thread s k i →
  (∀ rounds rm rd dbl f, floatResult o x = some (rounds, rm, rd, dbl, f) →
    (∀ m, (modeOf x rm = some m ∨ (rounds = false ∧ m = 0)) →
      ∃ y : Slot, exec i s = .next (goneOn s k y) ∧ PutsF x y rd (inReg dbl (f m).1) (f m).2) ∧
    (rounds = true → modeOf x rm = none → Raises s k i 2 (s.cur.w1.setWidth 64))) ∧
  (∀ rounds rm rd f, floatToInt o x = some (rounds, rm, rd, f) →
    (∀ m, (modeOf x rm = some m ∨ (rounds = false ∧ m = 0)) →
      ∃ y : Slot, exec i s = .next (goneOn s k { y with fcsr := x.fcsr ||| ((f m).2 &&& 0x1F) }) ∧ PutsX x y rd (f m).1) ∧
    (rounds = true → modeOf x rm = none → Raises s k i 2 (s.cur.w1.setWidth 64))) ∧
  (∀ c rd num v quiet, csrForm o x = some (c, rd, num, v, quiet) →
    let field : Option (Nat × Nat) := match num.toNat with
      | 1 => some (0, 5)
      | 2 => some (5, 3)
      | 3 => some (0, 8)
      | _ => none
    (∀ lo n, field = some (lo, n) →
      ∃ y : Slot, exec i s = .next (goneOn s k y) ∧
        PutsX { x with fcsr := y.fcsr } y rd ((x.fcsr.extractLsb' lo n).setWidth 64) ∧
        ∀ j, j < 8 → y.fcsr.getLsbD j =
          if lo ≤ j ∧ j < lo + n ∧ quiet = false then
            let old := x.fcsr.getLsbD j
            let new := v.getLsbD (j - lo)
            (match c with | .rw => new | .rs => old || new | .rc => old && !new)
          else x.fcsr.getLsbD j) ∧
    (field = none → (k % 16 = 15 → ¬ keepersCsr num) → Raises s k i 2 (s.cur.w1.setWidth 64)) ∧
    (k % 16 = 15 → keepersCsr num →
      let n := num.toNat
      let core := k / 16
      let silent := c = .rw ∧ rd = 0
      let old := if silent then 0 else keeperReads s core n
      let t1 := if silent then s else keeperPops s core n
      let new := match c with | .rw => v | .rs => old ||| v | .rc => old &&& ~~~ v
      let t2 := if quiet then t1 else keeperWrites t1 core n new (if c = .rc then 0 else v)
      ∃ y : Slot, exec i s = .next (goneOn t2 k y) ∧ PutsX (t2.slot k) y rd old))

open Sys2Proof Sys2Proof.Machine Sys2Proof.Claims in
/-- Memory instructions of a thread (R50, R240 to R242): loads put the bytes read, extended, into rd; a store is buffered with
its bytes; an AMO reads the old value, writes the new one at once and answers with the old; LR reserves the 64 bytes, SC
writes and answers 0 while the reservation holds, and writes nothing and answers 1 otherwise; .rl performs the thread's
buffered stores first, .aq drops the cluster's cached copies after. What a read meets of the copies that arrived at a barrier
is observed by an acquire and noted by another read (R290, R292). Its own stores that a read performs first are writes like
others: one to the counter of an xjoin ends the waits there. -/
def Obligations.ScalarMemory : Prop :=
  ∀ s k, let x := s.slot k
  let w := slotWho k x
  let cache := some (swarmNo (k / 256))
  (∀ o va n fills lod ps s1 v s2, let i := Instr.riscvBaseOp o
    Thread s k i → loadForm o x = some (va, n, fills) → MayAccess s x needRead va n lod →
    s.scalarPieces k x .read lod va n = (.ok ps, s1) →
    s1.loadRange w (swarmNo (k / 256)) va n lod = (.value v, s2) →
    ∃ y : Slot, fills y v ∧ exec i s = .next (goneOn s2 k
      { y with wait := (s2.slot k).wait, glimpsed := y.glimpsed ++ s2.phasesIn x.launchNo va n })) ∧
  (∀ o va n v lod ps s1 s2, let i := Instr.riscvBaseOp o
    Thread s k i → storeForm o x = some (va, n, v) → MayAccess s x needWrite va n lod → (s.pendingStores k).length < 8 →
    s.piecesOf w .write lod va n = (.ok ps, s1) →
    s1.takeLines w ps va (Acc.code .write) = (.value 0, s2) →
    let t := s2.dirty w.cl ps
    exec i s = .next (goneOn { t with
      ops := Tbl.put s2.ops s2.nextOp
        { party := .slot k, todo := [0], kind := .slotStore ps (toBytes n v.toNat) (pieceLines ps) }
      nextOp := s2.nextOp + 1 } k x)) ∧
  (∀ o dbl aq rl rd r1 r2 lod ps s1 v s2, let i := Instr.amo o dbl aq rl rd r1 r2
    let n := if dbl then 8 else 4
    let va := (x.xreg r1).toNat
    let s0 := s.releaseIf k rl
    Thread s k i → MayAccess s0 x needAtomic va n lod → s0.scalarPieces k x .atomic lod va n = (.ok ps, s1) →
    s1.rmwRange w s1.nextOp cache va n (fun a => some (amoNew o (8 * n) a ((x.xreg r2).toNat % 2 ^ (8 * n)))) lod
      = (.value v, s2) →
    let ph := s2.phasesIn x.launchNo va n
    ∃ y : Slot, exec i s = .next (goneOn (s2.acquireIf k aq) k { y with
        wait := (s2.slot k).wait
        observed := if aq then y.observed ++ ph else y.observed
        glimpsed := if aq then y.glimpsed else y.glimpsed ++ ph }) ∧ PutsX x y rd (signed n v)) ∧
  (∀ o n (a b : BitVec n), n ∈ [32, 64] → BitVec.ofNat n (amoNew o n a.toNat b.toNat) = amoResult o a b) ∧
  (∀ dbl aq rl rd r1 lod ps s1 v s2, let i := Instr.lr dbl aq rl rd r1
    let n := if dbl then 8 else 4
    let va := (x.xreg r1).toNat
    let s0 := s.releaseIf k rl
    Thread s k i → MayAccess s0 x needAtomic va n lod → s0.piecesOf w .atomic lod va n = (.ok ps, s1) →
    s1.lrMemory ps = true → (s1.drainMeeting k ps).readPast w (swarmNo (k / 256)) va n lod = (.value v, s2) →
    let ph := s2.phasesIn x.launchNo va n
    ∃ y : Slot, exec i s = .next (goneOn (s2.acquireIf k aq) k { y with
        wait := (s2.slot k).wait
        resv := some (keyBlock 64 ((ps.map fun p => p.key).headD 0))
        observed := if aq then y.observed ++ ph else y.observed
        glimpsed := if aq then y.glimpsed else y.glimpsed ++ ph }) ∧ PutsX x y rd (signed n v)) ∧
  (∀ dbl aq rl rd r1 r2 lod ps s1, let i := Instr.sc dbl aq rl rd r1 r2
    let n := if dbl then 8 else 4
    let va := (x.xreg r1).toNat
    let s0 := s.releaseIf k rl
    Thread s k i → MayAccess s0 x needAtomic va n lod → s0.piecesOf w .atomic lod va n = (.ok ps, s1) →
    s1.lrMemory ps = true →
    let s2 := s1.drainMeeting k ps
    let set := keyBlock 64 ((ps.map fun p => p.key).headD 0)
    ((s2.slot k).resv = some set → ∀ s3, s2.writeRange w s2.nextOp cache .atomic va (toBytes n (x.xreg r2).toNat) lod
        = (.value 0, s3) →
      ∃ y : Slot, exec i s = .next (goneOn (s3.acquireIf k aq) k { y with resv := none }) ∧ PutsX x y rd 0) ∧
    ((s2.slot k).resv ≠ some set →
      ∃ y : Slot, exec i s = .next (goneOn (s2.acquireIf k aq) k { y with resv := none }) ∧ PutsX x y rd 1)) ∧
  (s.releaseIf k true = s.drainStores k ∧ (s.drainStores k).pendingStores k = [] ∧ s.releaseIf k false = s) ∧
  (s.acquireIf k false = s ∧
    ∀ a c, (s.acquireIf k true).copy? (swarmNo (k / 256)) a = some c → c.k = true)

open Sys2Proof Sys2Proof.Machine Sys2Proof.Claims in
/-- fence, whatever its fields, and fence.i perform the thread's buffered stores; fence drops cached copies and observes
what the earlier reads have met of barrier phases (R290), fence.i empties the cluster's instruction cache of the threads
(R240, R289); no register changes. wfi waits for any event bit, and answers x0 (R251); ecall and ebreak give keeper causes 8 and 3. A keeper
cause (R309, R311, R313): slots 0 to 14 enter TRAPPED with the cause and ktval, keep their pc and registers, lose their
reservation, and set PEND and bit 31 of the keeper's event word; slot 15 halts. No other slot and no memory changes. An ill-
formed scalar word gives cause 2 with the word in ktval, whatever its other operands. -/
def Obligations.FencesCallsAndKeeperTraps : Prop :=
  (∀ s k, let x := s.slot k
   (∀ fm p q, Thread s k (.fence fm p q) → ∃ s1 : State, exec (.fence fm p q) s = .next (goneOn s1 k
       { x with wait := (s1.slot k).wait, observed := x.observed ++ x.glimpsed, glimpsed := [] }) ∧
     s1 = { s.drainStores k with veils := s1.veils, caches := s1.caches } ∧ s1.pendingStores k = [] ∧
     ∀ a c, s1.copy? (swarmNo (k / 256)) a = some c → c.k = true) ∧
   (Thread s k .fenceI → ∃ s1 : State, exec .fenceI s = .next (goneOn s1 k x) ∧
     s1 = { s.drainStores k with caches := s1.caches } ∧ s1.pendingStores k = [] ∧
     (∀ a, s1.copy? (swarmCodeNo (k / 256)) a = none) ∧
     ∀ c a, c ≠ swarmCodeNo (k / 256) → s1.copy? c a = (s.drainStores k).copy? c a) ∧
   (Thread s k .ecall → Raises s k .ecall 8 0) ∧ (Thread s k .ebreak → Raises s k .ebreak 3 0) ∧
   (Thread s k .wfi → x.events = 0 →
     exec .wfi s = .next (s.setSlot k { x with st := .waiting, wait := .event 0xFFFFFFFF 0, resv := none })) ∧
   (Thread s k .wfi → x.events ≠ 0 → ∃ s1 : State, exec .wfi s = .next (goneOn s1 k { x with events := 0 }) ∧
     s1 = { s with caches := s1.caches })) ∧
  ((∀ (s : State) k code tval, k % 16 ≠ 15 →
     let t := s.keeperTrap k code tval
     let boss := k / 16 * 16 + 15
     t.slot k = { s.slot k with st := .trapped, wait := .none, resv := none, kcause := code, ktval := tval } ∧
     t.slot boss = { s.slot boss with events := (s.slot boss).events ||| 0x80000000 } ∧
     (∀ j, j ≠ k → j ≠ boss → t.slot j = s.slot j) ∧
     (∀ b : Nat, b < 64 → (t.core (k / 16)).kpend.getLsbD b = ((s.core (k / 16)).kpend.getLsbD b || b == k % 16)) ∧
     t = { s with slots := t.slots, cores := t.cores }) ∧
   (∀ (s : State) k code tval, k % 16 = 15 →
     let t := s.keeperTrap k code tval
     t.slot k = { s.slot k with st := .halted, wait := .none, resv := none } ∧ (∀ j, j ≠ k → t.slot j = s.slot j) ∧
     t = { s with slots := t.slots, ras := s.ras ++ [(.keeper, k)] }) ∧
   (∀ s k i, isScalar i = true → s.cur.party = .slot k → i.wellFormed = false → Raises s k i 2 (s.cur.w1.setWidth 64)) ∧
   (∀ s k i, isKeepers i = true → Thread s k i → k % 16 ≠ 15 → Raises s k i 2 (s.cur.w1.setWidth 64)))

namespace Sys2Proof.Claims

open Machine

/-! ## Messages, events, deques (R22 to R26, R244 to R260, R323) -/

/-- The low and high halves of a register. -/
def halves (v : W64) : List W32 := [v.extractLsb' 0 32, v.extractLsb' 32 32]

/-- A handle that a send accepts (R26, R247): KIND 0, a virtual cluster of the grid, a core, and for DATA and SIGNAL a user
slot. -/
def SendOk (s : State) (launch : Nat) (h : W64) (spawn : Bool) : Prop :=
  h.extractLsb' 60 4 = 0 ∧ (h.extractLsb' 48 8).toNat < (s.launch launch).grid.length ∧
  (h.extractLsb' 40 8).toNat ≤ 15 ∧ (spawn = true ∨ (h.extractLsb' 32 8).toNat ≤ 14)

/-- A message goes into the send queue of slot k with status 0, the thread's stores performed; a full queue parks the thread,
a bad handle gives status 1. m is the message but for what the queue adds. -/
def Sends (s : State) (k : Nat) (i : Instr) (rd : BitVec 5) (m : Msg) : Prop :=
  let x := s.slot k
  let spawn := m.cls == .spawn
  (SendOk s x.launchNo m.target spawn → x.sendQ.length < 4 →
    let t := s.drainStores k
    ∃ y : Slot, PutsX (t.slot k) y rd 0 ∧ exec i s = .next (goneOn { t with sent := t.sent + 1 } k
      { y with sendQ := y.sendQ ++ [{ m with sent := t.sent, launch := y.launchNo, sender := y.handle }] })) ∧
  (SendOk s x.launchNo m.target spawn → 4 ≤ x.sendQ.length →
    exec i s = .next (s.setSlot k { x with st := .parked, wait := .send })) ∧
  (¬ SendOk s x.launchNo m.target spawn → ∃ y : Slot, PutsX x y rd 1 ∧ exec i s = .next (goneOn s k y))

/-- Nothing of a core's deques stands in memory. -/
def OnChip (s : State) (core : Nat) : Prop :=
  ∀ d, (s.core core).ringCount d = 0 ∧ (s.core core).ringLaunches d = []

/-- The first frame of a launch in the deques 0 to p of a core, the near end first, with its deque. -/
def Nearest (s : State) (core p : Nat) (launch : Nat) (d : Nat) (f : Frame) : Prop :=
  d ≤ p ∧ ((s.core core).deque d).find? (fun g => g.launch == launch) = some f ∧
  ∀ e, e < d → ∀ g ∈ (s.core core).deque e, g.launch ≠ launch

/-- No deque from 0 to p of a core holds a frame of a launch. -/
def NoFrame (s : State) (core p launch : Nat) : Prop := ∀ d, d ≤ p → ∀ g ∈ (s.core core).deque d, g.launch ≠ launch

/-- The frame that a thread pushes: pointer, formats, launch (R56). -/
def framePushed (x : Slot) (ptr : W64) : Frame := Frame.mk ptr x.fmt x.sclp x.launchNo

/-- A core after a push on deque q that finds room on chip: the frame stands at the near end. -/
def pushed (s : State) (core q : Nat) (f : Frame) : State :=
  let c := s.core core
  (s.setCore core { c with deques := Tbl.set c.deques [] q (f :: Tbl.get c.deques [] q) }).seePush core

end Sys2Proof.Claims

open Sys2Proof Sys2Proof.Machine Sys2Proof.Claims in
/-- Messages and events (R247 to R252): xsend and xspawnm queue a message, park on a full queue, or give status 1; xrecv takes the
oldest inbox entry into a2 to a4; xwait clears and returns the event bits it finds, or waits; xevt reads and sets. Arrivals
(R26, R248 to R250, R323): the oldest message of a send queue arrives: DATA joins the inbox and sets event bit 0, SIGNAL sets
event bits, one whose handle names no current thread is discarded; DATA for a full inbox goes to the spill queue, and the
thread's event word stands (R422; log 51). A waiting thread wakes on a bit of its mask. The keeper's pop takes the oldest spilled
message; its xevt leaves bits 31 to 28 (R310). That a message carries the sender's identity handle, also where ORIGIN names
another party, is the model's reading (log 106). -/
def Obligations.Messages : Prop :=
  (∀ s k, let x := s.slot k
   let ill := s.cur.w1.setWidth 64
   (∀ t r d, let i := Instr.xsend t r d
     Thread s k i →
     (x.xreg t = 0 → Sends s k i d { cls := .data, target := x.xreg r, payload := halves (x.xreg 12) ++ halves (x.xreg 13) }) ∧
     (x.xreg t = 1 →
       Sends s k i d { cls := .signal, target := x.xreg r, payload := halves (x.xreg 12) ++ halves (x.xreg 13) }) ∧
     (2 ≤ (x.xreg t).toNat → Raises s k i 2 ill)) ∧
   (∀ t r d, let i := Instr.xspawnm t r d
     Thread s k i →
     (x.xreg t = 0 → Sends s k i d { cls := .spawn, target := x.xreg r
                                     payload := halves (x.xreg 12) ++ halves (x.xreg 13) ++ halves (x.xreg 14) }) ∧
     (x.xreg t ≠ 0 → Raises s k i 2 ill)) ∧
   (∀ d, let i := Instr.xrecv d
     Thread s k i →
     ((d = 12 ∨ d = 13 ∨ d = 14) → Raises s k i 2 ill) ∧
     (d ≠ 12 → d ≠ 13 → d ≠ 14 →
       (∀ m rest, x.inbox = m :: rest → ∃ (s1 : State) (y : Slot), exec i s = .next (goneOn s1 k y) ∧
         s1 = { s with caches := s1.caches } ∧ y = { x with x := y.x, inbox := rest } ∧
         ∀ r, y.xreg r = if r = d ∧ r ≠ 0 then 1 else if r = 12 then m.payload.getD 1 0 ++ m.payload.getD 0 0
           else if r = 13 then m.payload.getD 3 0 ++ m.payload.getD 2 0 else if r = 14 then m.sender else x.xreg r) ∧
       (x.inbox = [] → x.ring = false → ∃ y : Slot, exec i s = .next (goneOn s k y) ∧ PutsX x y d 0))) ∧
   (∀ r d, let i := Instr.xwait r d
     let m : W32 := (x.xreg r).extractLsb' 0 32
     Thread s k i →
     (m = 0 → ∃ y : Slot, exec i s = .next (goneOn s k y) ∧ PutsX x y d 0) ∧
     (x.events &&& m ≠ 0 → ∃ (s1 : State) (y : Slot), exec i s = .next (goneOn s1 k y) ∧ s1 = { s with caches := s1.caches } ∧
       PutsX { x with events := x.events &&& ~~~ m } y d ((x.events &&& m).setWidth 64)) ∧
     (m ≠ 0 → x.events &&& m = 0 →
       exec i s = .next (s.setSlot k { x with st := .waiting, wait := .event m d.toNat, resv := none }))) ∧
   (∀ r d, let i := Instr.xevt r d
     let own : W32 := if k % 16 = 15 then 0x0FFFFFFF else 0xFFFFFFFF
     Thread s k i → ∃ y : Slot, exec i s = .next (goneOn s k y) ∧
       PutsX { x with events := x.events ||| ((x.xreg r).extractLsb' 0 32 &&& own) } y d (x.events.setWidth 64))) ∧
  (∀ s, 
   (∀ idx m rest, (s.slot idx).sendQ = m :: rest → m.cls ≠ .spawn → (s.slot idx).st ≠ .parked →
     let j := s.slotOfHandle m.launch m.target
     let y := s.slot j
     let current := y.launch = some m.launch ∧ y.handle.extractLsb' 0 32 = m.target.extractLsb' 0 32 ∧
       (y.st ≠ .free ∨ y.reserved = true)
     j ≠ idx →
     (¬ current → exec (.messageDelivery idx) s = .next (s.setSlot idx { s.slot idx with sendQ := rest })) ∧
     (current → s.spills j y m = false → exec (.messageDelivery idx) s = .next ((s.setSlot j (if m.cls = .data then
         { y with inbox := y.inbox ++ [m], events := y.events ||| 1 }
       else { y with events := y.events ||| m.payload.getD 0 0 })).setSlot idx { s.slot idx with sendQ := rest })) ∧
     (current → s.spills j y m = true → (s.core (j / 16)).spillQ.length < 32 →
       ∃ s' : State, exec (.messageDelivery idx) s = .next s' ∧ (s'.slot idx).sendQ = rest ∧
         (s'.core (j / 16)).spillQ = (s.core (j / 16)).spillQ ++ [m] ∧ (s'.slot j).inbox = y.inbox ∧
         (j % 16 ≠ 15 → s'.slot j = y))) ∧
   (∀ k m rd, let x := s.slot k
     x.st = .waiting → x.wait = .event m rd → rd < 32 →
     (x.events &&& m = 0 → exec (.xwaitWake k) s = .next s) ∧
     (x.events &&& m ≠ 0 → ∃ (s1 : State) (y : Slot), exec (.xwaitWake k) s = .next (goneOn s1 k y) ∧
       s1 = { s with caches := s1.caches } ∧
       PutsX { x with st := .ready, wait := .none, events := x.events &&& ~~~ m } y (BitVec.ofNat 5 rd)
         ((x.events &&& m).setWidth 64))) ∧
   (∀ core m rest, (s.core core).spillQ = m :: rest →
     exec (.spillQueuePop core) s = .next (s.setCore core { s.core core with spillQ := rest, spillLatch := some m })))

open Sys2Proof Sys2Proof.Machine Sys2Proof.Claims in
/-- Records of threads (R27, R28, R244 to R246): xpost posts a0 to a7's words and answers 0 once accepted, or parks; xpostn
answers 1 instead; xmig posts the whole register file, and the thread retires as at the retire address (R23, R256); xnodeq
reads the records held and the free slots; an undeclared node, and bits of the operand above its fields, give keeper cause 2. -/
def Obligations.ThreadPosts : Prop :=
  ∀ s k, let x := s.slot k
  let cl := k / 256
  let t := s.drainStores k
  let rc (v tm : W64) (nd : NodeDesc) : Rec :=
    { node := (v.extractLsb' 0 6).toNat, origin := x.handle, quality := (v.extractLsb' 6 4).toNat
      words := (List.range nd.payload).map fun w => if w % 2 = 0 then (Tbl.get x.x 0 (10 + w / 2)).extractLsb' 0 32
        else (Tbl.get x.x 0 (10 + w / 2)).extractLsb' 32 32
      deadline := if tm = 0 then none else some tm }
  (∀ e r d nd, let i := Instr.xpost e r d
    let v := x.xreg r
    Thread s k i → v.toNat < 1024 → Tbl.find? (s.launch x.launchNo).nodes (v.extractLsb' 0 6).toNat = some nd →
    (t.acceptsNow cl x.launchNo (rc v (x.xreg e) nd) = true →
      let s1 := t.accept cl x.launchNo (rc v (x.xreg e) nd) 0
      ∃ y : Slot, exec i s = .next (goneOn s1 k y) ∧ PutsX (s1.slot k) y d 0) ∧
    (t.acceptsNow cl x.launchNo (rc v (x.xreg e) nd) = false →
      exec i s = .next ((t.post cl x.launchNo (rc v (x.xreg e) nd) (.post k)).2.modSlot k fun y =>
        { y with st := .parked, wait := .post d.toNat }))) ∧
  (∀ e r d nd, let i := Instr.xpostn e r d
    let v := x.xreg r
    Thread s k i → v.toNat < 1024 → Tbl.find? (s.launch x.launchNo).nodes (v.extractLsb' 0 6).toNat = some nd →
    (s.acceptsNow cl x.launchNo (rc v (x.xreg e) nd) = true →
      let s1 := t.accept cl x.launchNo (rc v (x.xreg e) nd) 0
      ∃ y : Slot, exec i s = .next (goneOn s1 k y) ∧ PutsX (s1.slot k) y d 0) ∧
    (s.acceptsNow cl x.launchNo (rc v (x.xreg e) nd) = false →
      ∃ y : Slot, exec i s = .next (goneOn s k y) ∧ PutsX x y d 1)) ∧
  (∀ r nd, let i := Instr.xmig r
    let n := (x.xreg r).toNat
    let file : Rec := { node := n, origin := x.handle, first := 2
                        words := ((List.range 31).flatMap fun j => halves (Tbl.get x.x 0 (j + 1))) ++
                          (List.range 32).flatMap fun j => halves (Tbl.get x.f 0 j) }
    Thread s k i → n < 64 → Tbl.find? (s.launch x.launchNo).nodes n = some nd →
    (nd.mig = false → Raises s k i 2 (s.cur.w1.setWidth 64)) ∧
    (nd.mig = true → t.acceptsNow cl x.launchNo file = true →
      exec i s = .next (((t.accept cl x.launchNo file 0).modSlot k fun y =>
        { y with st := .ready, wait := .none, pc := Config.retireAddress }).retireThread k)) ∧
    (nd.mig = true → t.acceptsNow cl x.launchNo file = false →
      exec i s = .next ((t.post cl x.launchNo file (.mig k)).2.modSlot k fun y => { y with st := .parked, wait := .mig }))) ∧
  (∀ r d nd, let i := Instr.xnodeq r d
    let n := (x.xreg r).toNat
    let dv := s.drover cl x.launchNo
    Thread s k i → n < 64 → Tbl.find? (s.launch x.launchNo).nodes n = some nd →
    ∃ y : Slot, exec i s = .next (goneOn s k y) ∧ PutsX x y d
      (BitVec.ofNat 32 (freeSlots (s.launch x.launchNo) dv) ++
        BitVec.ofNat 32 (dv.held.filter fun h => h.record.node == n).length)) ∧
  (∀ i r, ((∃ e d, i = .xpost e r d) ∨ (∃ e d, i = .xpostn e r d) ∨ i = .xmig r ∨ ∃ d, i = .xnodeq r d) → Thread s k i →
    Tbl.find? (s.launch x.launchNo).nodes ((x.xreg r).extractLsb' 0 6).toNat = none → Raises s k i 2 (s.cur.w1.setWidth 64)) ∧
  (∀ i r, ((∃ e d, i = .xpost e r d) ∨ ∃ e d, i = .xpostn e r d) → Thread s k i → 1024 ≤ (x.xreg r).toNat →
    Raises s k i 2 (s.cur.w1.setWidth 64)) ∧
  (∀ i r, (i = .xmig r ∨ ∃ d, i = .xnodeq r d) → Thread s k i → 64 ≤ (x.xreg r).toNat →
    Raises s k i 2 (s.cur.w1.setWidth 64))

open Sys2Proof Sys2Proof.Machine Sys2Proof.Claims in
/-- Deques and ranges (R24, R25, R253 to R260): xspawn and xrange push a frame at the near end with status 0; xpop takes the
nearest frame of the launch or answers 0; xsplit copies the range from its split point on, cuts the own range there in the
frame and in the slot, and pushes the copy; xjoin, an acquire that observes what its read meets of barrier phases (R292), answers 0 for a zero counter, else a frame,
else parks; xsteal answers the frame obtained; xyield gives up phases; xsdom narrows the domain. Tasks in slots (R22, R24,
R256, R259, R260, R430): an open FREE slot dispatches the near-end frame of its core: a THREAD frame starts a thread at its pc
with its words in a0 to a5 and its address in a6; without frames it steals for the next resident launch; a thread parked in
xjoin wakes after a push; a yield ends with its phases. -/
def Obligations.DequesAndTasks : Prop :=
  (∀ s k, let x := s.slot k
   let core := k / 16
   let ptr (r : BitVec 5) := x.xreg r
   (∀ e r d, let i := Instr.xspawn e r d
     let q := (x.xreg e).toNat
     Thread s k i → q < 4 → (ptr r).toNat % 64 = 0 →
     let t := s.drainStores k
     ((t.core core).deque q).length < 32 →
     let s1 := pushed t core q (framePushed x (ptr r))
     ∃ y : Slot, exec i s = .next (goneOn s1 k y) ∧ PutsX (s1.slot k) y d 0) ∧
   (∀ i e r d, (i = .xspawn e r d ∨ i = .xrange e r d ∨ i = .xsplit e r d) → Thread s k i →
     (4 ≤ (x.xreg e).toNat → Raises s k i 2 (s.cur.w1.setWidth 64)) ∧
     ((x.xreg e).toNat < 4 → (ptr r).toNat % 64 ≠ 0 → Raises s k i 6 (ptr r))) ∧
   (∀ e r d lod ps s1 v s2, let i := Instr.xrange e r d
     let q := (x.xreg e).toNat
     Thread s k i → q < 4 → (ptr r).toNat % 64 = 0 → MayAccess s x needRead (ptr r).toNat 64 lod →
     s.scalarPieces k x .read lod (ptr r).toNat 64 = (.ok ps, s1) →
     s1.readPast (slotWho k x) (swarmNo (k / 256)) (ptr r).toNat 64 lod = (.value v, s2) → v % 256 = 2 →
     v / 2 ^ 11 % 2 ^ 53 = 0 →
     ((rangeOf (framePushed x (ptr r)) v).chunks = 0 → ∃ y : Slot, exec i s = .next (goneOn s2 k y) ∧ PutsX x y d 2) ∧
     (let t := s2.drainStores k
      (rangeOf (framePushed x (ptr r)) v).chunks ≠ 0 → ((t.core core).deque q).length < 32 →
       let s3 := pushed t core q (framePushed x (ptr r))
       ∃ y : Slot, exec i s = .next (goneOn s3 k y) ∧ PutsX (s3.slot k) y d 0)) ∧
   (∀ r d, let i := Instr.xpop r d
     let p := (x.xreg r).toNat
     Thread s k i → p < 4 → OnChip s core →
     (∀ q f, Nearest s core p x.launchNo q f → ∃ (s1 : State) (y : Slot), exec i s = .next (goneOn s1 k y) ∧
       s1 = { s with cores := s1.cores, caches := s1.caches } ∧ PutsX x y d f.ptr ∧
       (∀ e, (s1.core core).deque e = if e = q then ((s.core core).deque q).erase f else (s.core core).deque e)) ∧
     (NoFrame s core p x.launchNo → ∃ y : Slot, exec i s = .next (goneOn s k y) ∧ PutsX x y d 0)) ∧
   (∀ e r d, let i := Instr.xsplit e r d
     Thread s k i → (x.xreg e).toNat < 4 → (ptr r).toNat % 64 = 0 →
     ((∀ g, x.range = some g → g.chunks < 2) → ∃ y : Slot, exec i s = .next (goneOn s k y) ∧ PutsX x y d 2) ∧
     (∀ g, x.range = some g → 2 ≤ g.chunks → 32 ≤ ((s.core core).deque (x.xreg e).toNat).length →
       (s.core core).ringSize (x.xreg e).toNat ≤ (s.core core).ringCount (x.xreg e).toNat →
       ∃ y : Slot, exec i s = .next (goneOn s k y) ∧ PutsX x y d 1) ∧
     (∀ g lod w0 s0 w s2 w' s3, let q := (x.xreg e).toNat
       let t := s.drainStores k
       let cut := g.lo + BitVec.ofNat 64 (g.chunks / 2) * g.grain
       let left := { g with hi := cut }
       let shorten (u : State) := u.writeRange (Who.mk (k / 256) g.frame.launch pathLS none) 0 (some (swarmNo (k / 256))) .write
         (g.frame.ptr.toNat + 16) (toBytes 8 g.lo.toNat ++ toBytes 8 cut.toNat) true
       x.range = some g → 2 ≤ g.chunks → ((s.core core).deque q).length < 32 → shorten s = (.value w0, s0) →
       MayAccess s x needWrite (ptr r).toNat 64 lod →
       t.writeRange (slotWho k x) t.nextOp (some (swarmNo (k / 256))) .write (ptr r).toNat { g with lo := cut }.bytes lod
         = (.value w, s2) → shorten s2 = (.value w', s3) →
       let s4 := s3.modSlot k fun y => { y with range := some left }
       ((s4.core core).deque q).length < 32 →
       let s5 := pushed s4 core q (framePushed x (ptr r))
       ∃ y : Slot, exec i s = .next (goneOn s5 k y) ∧ PutsX (s5.slot k) y d 0 ∧ y.range = some left)) ∧
   (∀ r d lod ps s1 v s2 key p ps' s3, let i := Instr.xjoin r d
     Thread s k i → MayAccess s x needRead (ptr r).toNat 8 lod →
     s.scalarPieces k x .read lod (ptr r).toNat 8 = (.ok ps, s1) →
     s1.readPast (slotWho k x) (swarmNo (k / 256)) (ptr r).toNat 8 lod = (.value v, s2) →
     let t := (s2.slotAcquire k).noteRead k x (ptr r).toNat 8 true
     t.slot k = { s2.slot k with observed := (s2.slot k).observed ++ s2.phasesIn x.launchNo (ptr r).toNat 8 } ∧
     (v = 0 → ∃ y : Slot, exec i s = .next (goneOn t k y) ∧ PutsX (t.slot k) y d 0) ∧
     (v ≠ 0 → t.piecesOf (slotWho k x) .read true (ptr r).toNat 8 = (.ok (p :: ps'), s3) → p.key = key →
       OnChip s3 core → NoFrame s3 core 3 x.launchNo → x.sdom = 0 →
       exec i s = .next (s3.modSlot k fun y => { y with st := .parked, wait := .join key false })) ∧
     (∀ q f, v ≠ 0 → t.piecesOf (slotWho k x) .read true (ptr r).toNat 8 = (.ok (p :: ps'), s3) →
       OnChip s3 core → Nearest s3 core 3 x.launchNo q f →
       ∃ (s4 : State) (y : Slot), exec i s = .next (goneOn s4 k y) ∧ PutsX (t.slot k) y d f.ptr ∧
         (s4.core core).deque q = ((s3.core core).deque q).erase f)) ∧
   (∀ d, let i := Instr.xsteal d
     let got := s.steal k x.launchNo (s.victims x.launchNo core x.sdom.toNat)
     Thread s k i →
     (∀ f s1, got = (.frame f, s1) → ∃ (s2 : State) (y : Slot), exec i s = .next (goneOn s2 k y) ∧
       s2 = { s1 with caches := s2.caches } ∧ PutsX (s1.slot k) y d f.ptr) ∧
     (∀ s1, got = (.nothing, s1) → ∃ y : Slot, exec i s = .next (goneOn s1 k y) ∧ PutsX x y d 0)) ∧
   (∀ r, let i := Instr.xyield r
     let v := (x.xreg r).toNat
     let now := s.clock (k / 256)
     Thread s k i → v < 65536 → ∃ n, exec i s = .next (goneOn s k { x with notBefore := n + 1 }) ∧ n % 16 = k % 16 ∧
       now + 16 * (max 1 v - 1) < n ∧ n ≤ now + 16 * max 1 v) ∧
   (∀ r d, let i := Instr.xsdom r d
     let v := (x.xreg r).toNat
     let dom : BitVec 2 := BitVec.ofNat 2 (min v (s.launch x.launchNo).sdom.toNat)
     Thread s k i → v < 4 →
     ∃ y : Slot, exec i s = .next (goneOn s k y) ∧ PutsX { x with sdom := dom } y d (dom.setWidth 64)) ∧
   (∀ i r, ((∃ d, i = .xpop r d) ∨ ∃ d, i = .xsdom r d) → Thread s k i → 4 ≤ (x.xreg r).toNat →
     Raises s k i 2 (s.cur.w1.setWidth 64))) ∧
  (∀ s k, let core := k / 16
   (∀ f rest d v s1, (∀ g n, (s.slot k).wait ≠ .dispatch g n) → s.takesFrames k = true → OnChip s core → d < 4 → (s.core core).deque d = f :: rest →
     (∀ e, e < d → (s.core core).deque e = []) →
     (s.setCore core { s.core core with deques := Tbl.set (s.core core).deques [] d rest }).readFrame k f = (.words v, s1) →
     v % 256 = 1 → v / 2 ^ 11 % 2 ^ 53 = 0 →
     let w (j : Nat) : W64 := BitVec.ofNat 64 (v / 2 ^ (64 * j))
     ∃ s' : State, exec (.frameDispatch k) s = .next s' ∧
       (s'.slot k).st = .ready ∧ (s'.slot k).launch = some f.launch ∧ (s'.slot k).pc = w 1 ∧
       (∀ r : BitVec 5, (s'.slot k).xreg r = if r = 1 then Config.retireAddress
         else if 10 ≤ r.toNat ∧ r.toNat < 16 then w (r.toNat - 8) else if r = 16 then f.ptr else 0) ∧
       ∀ j, j ≠ k → s'.slot j = s1.slot j) ∧
   (s.takesFrames k = true → OnChip s core → (∀ d, d < 4 → (s.core core).deque d = []) →
     (∀ i, i < 4 → Tbl.find? (s.cluster (k / 256)).ctx i = none) → exec (.stealProbe k) s = .next s) ∧
   (∀ i launch, let c := s.core core
     let t := s.modSlot k fun y => { y with stealCtx := i }
     s.takesFrames k = true → (∀ d, d < 4 → c.deque d = [] ∧ c.ringLaunches d = []) →
     (s.cluster (k / 256)).nextSteal (s.slot k).stealCtx = some (i, launch) →
     (∀ f s1, t.steal k launch (t.victims launch core (s.launch launch).sdom.toNat) = (.frame f, s1) →
       exec (.stealProbe k) s = .next ((s1.dispatch k f).getD t)) ∧
     (∀ s1, t.steal k launch (t.victims launch core (s.launch launch).sdom.toNat) = (.nothing, s1) →
       exec (.stealProbe k) s = .next s1)) ∧
   (s.takesFrames k = false → exec (.stealProbe k) s = .next s) ∧
   (∀ key, (s.slot k).wait = .join key true →
     exec (.xjoinWake k) s = .next (s.setSlot k { s.slot k with st := .ready, wait := .none })) ∧
   ((s.slot k).notBefore ≤ s.clock (k / 256) →
     exec (.xyieldEnd k) s = .next (s.setSlot k { s.slot k with notBefore := 0 })))

namespace Sys2Proof.Claims

open Machine

/-! ## Thread memory, segments and registers (R261 to R269), the keeper (R316 to R324, R373 to R378) -/

/-- A special register as a thread reads it (R57), by its number. -/
def threadSpecial (s : State) (k : Nat) (n : Nat) : Nat :=
  let x := s.slot k
  let l := s.launch x.launchNo
  let cl := k / 256
  match n with
  | 0 => 0
  | 1 => 0xFFFFFFFF
  | 2 => 1
  | 3 => 0xFFFFFFFF
  | 4 => l.vclus cl
  | 5 => dieOf cl
  | 6 => s.clock cl % 2 ^ 64
  | 7 => s.time.toNat
  | 8 => l.energy.toNat
  | 9 => (s.cluster cl).mthr.toNat
  | 10 => s.caps.toNat
  | 11 => l.prio * 2 ^ 28 + l.ctx % 4096 * 2 ^ 16 + l.number % 2 ^ 16
  | 12 => x.fmt.toNat
  | 13 => x.sclp.toNat
  | 14 => x.origin.toNat
  | 15 => k / 16 % 16 * 16 + k % 16
  | _ => if s.caps.getLsbD 9 then (l.wmShown s.time.toNat).toNat else 0

/-- A value that FMT may hold (R54): zero in its reserved fields, no reserved code, no code 15. -/
def FmtOk (v : W32) : Prop :=
  v.extractLsb' 24 8 = 0 ∧ (v.extractLsb' 20 3).toNat < 4 ∧ (v.extractLsb' 18 2).toNat < 3 ∧ v.extractLsb' 16 2 = 0 ∧
  (v.extractLsb' 12 4).toNat ≤ 8 ∧ (v.extractLsb' 8 4).toNat ≤ 8 ∧ (v.extractLsb' 4 4).toNat ≤ 8 ∧ v.extractLsb' 0 4 = 0

/-- A value that SCLP may hold (R55): 0, or a canonical address, 16-byte aligned; bit 56 is extended. -/
def SclpOk (v : W64) : Prop := v = 0 ∨ ((v.extractLsb' 0 57).signExtend 64 = v ∧ v.toNat % 16 = 0)

/-- The state of a slot as xslot reports it (R319). -/
def slotCode (x : Slot) : W64 :=
  (match x.st with | .free => 0 | .ready => 1 | .waiting => 2 | .parked => 3 | _ => 4) +
    (if x.opened then 8 else 0) + (if x.reserved then 16 else 0)

/-- An item of a slot that xpeek reads (R322). -/
def itemOf (y : Slot) (n : Nat) : Option W64 :=
  if n = 0 then some 0 else if n < 32 then some (Tbl.get y.x 0 n) else if n < 64 then some (Tbl.get y.f 0 (n - 32))
  else if n = 64 then some y.pc else if n = 65 then some (y.fcsr.setWidth 64) else if n = 66 then some (y.events.setWidth 64)
  else if n = 67 then some (y.fmt.setWidth 64) else if n = 68 then some y.sclp else if n = 69 then some y.origin
  else if n = 70 then some (BitVec.ofNat 64 y.inbox.length) else none

/-- The keeper of a core runs instruction i; z is the slot that ksel names. -/
def Keeps (s : State) (k : Nat) (i : Instr) (z : Nat) : Prop :=
  Thread s k i ∧ k % 16 = 15 ∧ z = k / 16 * 16 + (s.core (k / 16)).ksel.toNat

/-- The keeper's instruction leaves machine t, in which slot k goes on with v in rd. -/
def Answers (s : State) (k : Nat) (i : Instr) (rd : BitVec 5) (v : W64) (t : State) : Prop :=
  ∃ x : Slot, PutsX (t.slot k) x rd v ∧ exec i s = .next (goneOn t k x)

/-- Machine t is s but for slot z, which is y. -/
def OnlySlot (s t : State) (z : Nat) (y : Slot) : Prop :=
  t = { s with slots := t.slots } ∧ t.slot z = y ∧ ∀ j, j ≠ z → t.slot j = s.slot j

/-- n bytes at an offset of a context area, read as a number. -/
def areaNum (v off n : Nat) : Nat := v / 2 ^ (8 * off) % 2 ^ (8 * n)

/-- Slot x holds the context of an area (R374): the pc, x1 to x31, f0 to f31, fcsr, the event word, FMT, the origin, SCLP
and the segments, their reserved bits zero, and as many inbox entries as its count says. -/
def HoldsArea (x : Slot) (v : Nat) : Prop :=
  x.pc.toNat = areaNum v 0 8 ∧ (∀ r : BitVec 5, r ≠ 0 → (x.xreg r).toNat = areaNum v (8 * r.toNat) 8) ∧
  (∀ r : BitVec 5, (x.freg r).toNat = areaNum v (0x100 + 8 * r.toNat) 8) ∧ x.fcsr.toNat = areaNum v 0x200 1 ∧
  x.events.toNat = areaNum v 0x204 4 ∧ x.origin.toNat = areaNum v 0x218 8 ∧
  (FmtOk (BitVec.ofNat 32 (areaNum v 0x208 4)) → x.fmt.toNat = areaNum v 0x208 4) ∧
  (SclpOk (BitVec.ofNat 64 (areaNum v 0x220 8)) → x.sclp.toNat = areaNum v 0x220 8) ∧
  (∀ n, n < 8 → Tbl.get x.sg 0 n = BitVec.ofNat 128 (areaNum v (0x230 + 16 * n) 16) &&& ~~~ ((1 : BitVec 128) <<< 121)) ∧
  x.inbox.length = min 4 (areaNum v 0x20C 1 / 2 % 8) ∧
  ∀ j m, x.inbox[j]? = some m → m.sender.toNat = areaNum v (0x2B0 + 24 * j + 16) 8 ∧
    ∀ w, w < 4 → (m.payload.getD w 0).toNat = areaNum v (0x2B0 + 24 * j + 4 * w) 4

end Sys2Proof.Claims

open Sys2Proof Sys2Proof.Machine Sys2Proof.Claims in
/-- Full/empty words, acquire loads and release stores of a thread, discard, maintenance and fences (R261 to R265): xldfe of a
full word takes it, xstfe of an empty one fills it, and each parks while the word is in the other state or while an earlier
request waits; xfeset sets the state and no data, and the party comes to see the word's data (R293); xlda loads zero-extended,
xstr stores after the thread's earlier stores. -/
def Obligations.ThreadMemory : Prop :=
  ∀ s k, let x := s.slot k
  let w := slotWho k x
  let cache := some (swarmNo (k / 256))
  (∀ r key lod, let va := (x.xreg r).toNat
    MayAccess s x needBoth va 8 lod → inWindows va = true → (s.launch x.launchNo).windowKey x.launchNo va = some key →
    let u := s.drainMeeting k [Piece.mk key va 8 false false none]
    (∀ d, let i := Instr.xldfe r d
      Thread s k i →
      (u.isFull key = true → u.feAhead key true none = false → u.isPoisoned key = false →
        ∃ (s1 : State) (y : Slot), exec i s = .next (goneOn s1 k y) ∧
          PutsX { x with observed := x.observed ++ Tbl.get u.phases [] key } y d (BitVec.ofNat 64 (u.readKey key 8)) ∧
          s1 = { u with fe := s1.fe, slots := s1.slots, caches := s1.caches, veils := s1.veils } ∧ s1.isFull key = false ∧
          ∀ a, keyBlock 8 a ≠ keyBlock 8 key → s1.isFull a = u.isFull a) ∧
      (u.isFull key = true → u.feAhead key true none = false → u.isPoisoned key = true → Raises s k i 27 (x.xreg r)) ∧
      ((u.isFull key = false ∨ u.feAhead key true none = true) →
        ∃ s1 : State, exec i s = .next s1 ∧ s1 = { u with slots := s1.slots, nextOp := u.nextOp + 1 } ∧
        s1.slot k = { u.slot k with st := .parked, wait := .fe (.load d.toNat) (x.xreg r) (u.feUntil (k / 256)) u.nextOp })) ∧
    (∀ t, let i := Instr.xstfe t r
      let s0 := u.drainStores k
      Thread s k i →
      (s0.isFull key = false → s0.feAhead key false none = false →
        ∃ s1 : State, exec i s = .next (goneOn s1 k (s0.slot k)) ∧ s1.isFull key = true ∧ s1.cur = s0.cur ∧
          ∀ a, s1.byte a = (written [Piece.mk key 0 8 false false none] (toBytes 8 (x.xreg t).toNat) a).getD (s0.byte a)) ∧
      ((s0.isFull key = true ∨ s0.feAhead key false none = true) →
        ∃ s1 : State, exec i s = .next s1 ∧ s1 = { s0 with slots := s1.slots, nextOp := s0.nextOp + 1 } ∧
        s1.slot k = { s0.slot k with st := .parked, wait := .fe (.store (x.xreg t)) (x.xreg r) (s0.feUntil (k / 256)) s0.nextOp })) ∧
    (∀ t, let i := Instr.xfeset t r
      Thread s k i →
      ((x.xreg t).toNat < 2 → ∃ s1 : State, exec i s = .next s1 ∧
        s1 = { u with fe := s1.fe, slots := s1.slots, veils := s1.veils } ∧
        (∀ j, j < 8 → s1.seen pathLS (keyAdd (keyBlock 8 key) j) = s1.byte (keyAdd (keyBlock 8 key) j)) ∧
        s1.slot k = { x with pc := x.pc + BitVec.ofNat 64 s.cur.len, wait := (s1.slot k).wait } ∧
        (x.wait = .none → (s1.slot k).wait = .none) ∧ s1.isFull key = (x.xreg t == 1)) ∧
      (2 ≤ (x.xreg t).toNat → Raises s k i 2 (s.cur.w1.setWidth 64)))) ∧
  (∀ e z r d lod ps s1 v s2, let i := Instr.xlda e z r d
    let n := 2 ^ z.toNat
    let va := (x.xreg r).toNat
    Thread s k i → MayAccess s x needRead va n lod → s.scalarPieces k x .read lod va n = (.ok ps, s1) →
    s1.readPast w (swarmNo (k / 256)) va n lod = (.value v, s2) →
    let seen := s2.phasesIn x.launchNo va n
    ∃ (s3 : State) (y : Slot), exec i s = .next (goneOn s3 k y) ∧
      PutsX { s2.slot k with
        observed := (s2.slot k).observed ++ (if 2 ≤ e.toNat then seen else [])
        glimpsed := (s2.slot k).glimpsed ++ (if 2 ≤ e.toNat then [] else seen) } y d (BitVec.ofNat 64 v) ∧
      s3 = { s2 with slots := s3.slots, caches := s3.caches } ∧ (∀ j, j ≠ k → s3.slot j = s2.slot j) ∧
      (2 ≤ e.toNat → ∀ a c, s3.copy? (swarmNo (k / 256)) a = some c → c.k = true)) ∧
  (∀ t r e z lod v s1, let i := Instr.xstr t r e z
    let n := 2 ^ z.toNat
    let va := (x.xreg r).toNat
    let s0 := if 5 ≤ e.toNat then (s.drainStores k).releaseHost e.toNat else s
    let s0' := s0.drainStores k
    Thread s k i → MayAccess s0 x needWrite va n lod →
    s0'.writeRange w s0'.nextOp cache .write va (toBytes n (x.xreg t).toNat) lod = (.value v, s1) →
    exec i s = .next (goneOn s1 k x)) ∧
  (∀ t r, let i := Instr.xdiscard t r
    let va := (x.xreg r).toNat
    let len := (x.xreg t).toNat
    Thread s k i → (len = 0 → exec i s = .next (goneOn s k x)) ∧
    (∀ lod v s1, len ≠ 0 → checkSearch (s.launch x.launchNo) x.launchNo x.sg needWrite va len 1 = (.ok, lod) →
      (s.drainStores k).discardRange w (s.drainStores k).nextOp cache lod va len = (.value v, s1) →
      exec i s = .next (goneOn s1 k x))) ∧
  (∀ o e r lod p s1, let i := Instr.xcmaint o e r
    let va := (x.xreg r).toNat
    Thread s k i → MayAccess s x needRead va 256 lod → s.place w va 256 .read lod = (.at_ p, s1) →
    ∃ s2 : State, exec i s = .next (goneOn s2 k x) ∧ s2 = { s1 with caches := s2.caches } ∧
      (o = 0 → s2 = s1) ∧ (o ≠ 0 → ∀ h, keyBlock 256 h = keyBlock 256 p.key → s2.copy? (swarmNo (k / 256)) h = none)) ∧
  (∀ f g c, let i := Instr.xfence f g c
    Thread s k i →
    ((f = 6 ∨ f.toNat = pathNI) → x.sendQ ≠ [] → exec i s = .next s) ∧
    (¬ ((f = 6 ∨ f.toNat = pathNI) ∧ x.sendQ ≠ []) →
      let ls := f = 6 ∨ f.toNat = pathLS
      let s0 := if ls then s.drainStores k else s
      let reads := ls ∧ (g = 6 ∨ g.toNat = pathLS) ∧ 2 ≤ c.toNat
      let y := s0.slot k
      let observed := if reads then y.observed ++ y.glimpsed else y.observed
      ∃ s1 : State, exec i s = .next (goneOn s1 k { y with observed := observed, glimpsed := if reads then [] else y.glimpsed }) ∧
        s1 = { s0 with slots := s1.slots, veils := s1.veils, caches := s1.caches } ∧ (∀ j, j ≠ k → s1.slot j = s0.slot j) ∧
        (ls → s1.pendingStores k = []) ∧
        (∀ v ∈ s1.veils, ∀ p ∈ v.blind, (g = 6 ∨ g.toNat = p) → p ∈ allPaths → (p = pathHX → 5 ≤ c.toNat) →
          ¬ (v.writer ≠ pathLS ∧ (f = 6 ∨ f.toNat = v.writer) ∧ v.op ∈ observed) ∧
          ¬ (ls ∧ 2 ≤ c.toNat ∧ pathLS ∉ v.blind)) ∧
        (∀ v ∈ s1.veils, ∃ u ∈ s0.veils, v.writer = u.writer ∧ v.op = u.op ∧ v.old = u.old ∧ ∀ p ∈ v.blind, p ∈ u.blind) ∧
        ((g = 6 ∨ g.toNat = pathLS) → 2 ≤ c.toNat → ∀ a h, s1.copy? (swarmNo (k / 256)) a = some h → h.k = true)))

open Sys2Proof Sys2Proof.Machine Sys2Proof.Claims in
/-- Segments, formats and special registers of a thread (R266 to R269, R52 to R57): xsgnar narrows one segment or raises cause
24, where ktval is the proposed base by the model's reading (log 52); xsgrd reads half of one, xfmt sets FMT and SCLP together or neither with cause 2, xenergy and xsread read. -/
def Obligations.ThreadRegisters : Prop :=
  ∀ s k, let x := s.slot k
  let ill := s.cur.w1.setWidth 64
  (∀ t r n, let i := Instr.xsgnar t r n
    let c := x.xreg t
    let base := (x.xreg r).toNat
    let limit := (c.extractLsb' 0 57).toNat
    let rights : BitVec 5 := c.extractLsb' 59 5
    Thread s k i → (c.extractLsb' 57 2 ≠ 0 → Raises s k i 2 ill) ∧
    (c.extractLsb' 57 2 = 0 →
      (Narrows (Tbl.get x.sg 0 n.toNat) base limit rights → ∃ y : Slot, exec i s = .next (goneOn s k y) ∧
        y = { x with sg := y.sg } ∧ IsSegment (Tbl.get y.sg 0 n.toNat) base limit rights ∧
        ∀ j, j ≠ n.toNat → Tbl.get y.sg 0 j = Tbl.get x.sg 0 j) ∧
      (¬ Narrows (Tbl.get x.sg 0 n.toNat) base limit rights → Raises s k i 24 (x.xreg r)))) ∧
  (∀ r d, let i := Instr.xsgrd r d
    let v := (x.xreg r).toNat
    Thread s k i → (16 ≤ v → Raises s k i 2 ill) ∧
    (v < 16 → ∃ y : Slot, exec i s = .next (goneOn s k y) ∧
      PutsX x y d ((Tbl.get x.sg 0 (v % 8)).extractLsb' (if 8 ≤ v then 64 else 0) 64))) ∧
  (∀ t r, let i := Instr.xfmt t r
    let f : W32 := (x.xreg r).extractLsb' 0 32
    Thread s k i →
    (FmtOk f → SclpOk (x.xreg t) → exec i s = .next (goneOn s k { x with fmt := f, sclp := x.xreg t })) ∧
    (¬ (FmtOk f ∧ SclpOk (x.xreg t)) → Raises s k i 2 ill)) ∧
  (∀ r d, let i := Instr.xenergy r d
    let l := s.launch x.launchNo
    let cl := k / 256
    Thread s k i → (3 ≤ (x.xreg r).toNat → Raises s k i 2 ill) ∧
    (∀ v, ((x.xreg r = 0 ∧ v = l.energy) ∨ (x.xreg r = 1 ∧ v = Tbl.get l.shares 0 cl) ∨
        (x.xreg r = 2 ∧ v = Tbl.get l.arrayShares 0 cl)) →
      ∃ y : Slot, exec i s = .next (goneOn s k y) ∧ PutsX x y d v)) ∧
  (∀ r d, let i := Instr.xsread r d
    let n := (x.xreg r).toNat
    Thread s k i → (17 ≤ n → Raises s k i 2 ill) ∧
    (n < 17 → ∃ y : Slot, exec i s = .next (goneOn s k y) ∧ PutsX x y d (BitVec.ofNat 64 (threadSpecial s k n))))

open Sys2Proof Sys2Proof.Machine Sys2Proof.Claims in
/-- The keeper over the slots of its core (R315 to R322): xtimer sets a deadline and answers the old one; xslot answers the
state with OPEN and reserved and does its operation, or sets bit 8 in a state it does not take, bit 9 for slot 15; xkret
makes a TRAPPED slot READY; xpeek and xpoke reach the items of a TRAPPED slot; xsgset writes a segment; xtlbi drops leaves. That
a bad operand gives bit 9 alone, whatever the slot's state, and that VACATE's message joins the spill queue whatever its length,
are the model's readings (log 59, log 60). -/
def Obligations.KeeperSlots : Prop :=
  ∀ s k z i, Keeps s k i z → let x := s.slot k
  let y := s.slot z
  let slots := (s.core (k / 16)).ksel ≠ 15
  (∀ r d, i = .xtimer r d → Answers s k i d y.timer (s.setSlot z { y with timer := x.xreg r })) ∧
  (∀ r d, (i = .xslotQuery r d ∨ i = .xslotStop r d ∨ i = .xslotRelease r d ∨ i = .xslotOpen r d ∨ i = .xslotClose r d ∨
      i = .xslotVacate r d) →
    (slots → 6 ≤ (x.xreg r).toNat → Answers s k i d 0x200 s) ∧ (¬ slots → Answers s k i d 0x200 s)) ∧
  (∀ r d, slots → (x.xreg r).toNat < 6 →
    (i = .xslotQuery r d → Answers s k i d (slotCode y) s) ∧
    (i = .xslotOpen r d → Answers s k i d (slotCode y) (s.setSlot z { y with opened := true })) ∧
    (i = .xslotClose r d → Answers s k i d (slotCode y) (s.setSlot z { y with opened := false })) ∧
    (i = .xslotStop r d →
      (y.st ∉ [.ready, .waiting, .parked] → Answers s k i d (slotCode y ||| 0x100) s) ∧
      (y.st = .parked → (∀ o a b c, y.wait ≠ .fe o a b c) → (∀ a b, y.wait ≠ .join a b) →
        Answers s k i d (slotCode y) (s.setSlot z { y with stop := some (29, 1) })) ∧
      (∀ v, ((y.st = .ready ∧ v = 1) ∨ (y.st = .waiting ∧ v = 2) ∨
          (y.st = .parked ∧ (∃ o a b c, y.wait = .fe o a b c) ∧ v = 3) ∨ (y.st = .parked ∧ (∃ a b, y.wait = .join a b) ∧ v = 2)) →
        Answers s k i d (slotCode y) (s.keeperTrap z 29 v))) ∧
    (i = .xslotRelease r d →
      (¬ (y.st = .trapped ∨ (y.st = .free ∧ y.reserved = true)) → Answers s k i d (slotCode y ||| 0x100) s) ∧
      ((y.st = .trapped ∨ (y.st = .free ∧ y.reserved = true ∧ y.saved = none)) →
        ∃ (t : State) (u : Slot), Answers s k i d (slotCode y) t ∧ OnlySlot (s.drainStores z) t z u ∧
          u.st = .free ∧ u.events = 0 ∧ u.inbox = [] ∧ u.launch = none ∧ u.handle = y.handle ∧ u.opened = y.opened ∧
          u.reserved = false)) ∧
    (i = .xslotVacate r d →
      (¬ (y.st = .trapped ∧ y.saved.isSome = true) → Answers s k i d (slotCode y ||| 0x100) s) ∧
      (∀ area ev, y.st = .trapped → y.saved = some (area, ev) → let t := s.drainStores z
        ∃ t1 : State, Answers s k i d (slotCode y) t1 ∧ (t1.slot z).st = .free ∧ (t1.slot z).reserved = true ∧ (t1.slot z).handle = y.handle ∧
          (t1.slot z).launch = y.launch ∧
          (t1.core (k / 16)).spillQ = (t.core (k / 16)).spillQ ++ (if y.events &&& ~~~ ev = 0 then [] else
            [{ cls := .signal, target := y.handle, payload := [y.events &&& ~~~ ev, 0, 0, 0], launch := y.launchNo }])))) ∧
  (∀ d, i = .xkret d →
    (y.st ≠ .trapped → Answers s k i d 0x100 s) ∧
    (y.st = .trapped → y.karea = 0 →
      ∃ t : State, Answers s k i d 0 t ∧
        OnlySlot s t z { y with st := .ready, wait := .none, kcause := 0xFF, saved := none, ring := false })) ∧
  (∀ r d, i = .xpeek r d →
    (∀ v, y.st = .trapped → itemOf y (x.xreg r).toNat = some v → Answers s k i d v s) ∧
    ((y.st ≠ .trapped ∨ itemOf y (x.xreg r).toNat = none) → Answers s k i d 0x200 s)) ∧
  (∀ t r, i = .xpoke t r → let n := (x.xreg r).toNat
    let v := x.xreg t
    let w : W32 := v.extractLsb' 0 32
    (y.st ≠ .trapped → exec i s = .next (goneOn s k x)) ∧
    (y.st = .trapped → ∃ u : Slot, exec i s = .next (let t := s.setSlot z u; goneOn t k (t.slot k)) ∧
        ((n = 0 ∨ 69 ≤ n) → u = y) ∧
        (1 ≤ n → n < 32 → PutsX y u (BitVec.ofNat 5 n) v) ∧
        (32 ≤ n → n < 64 → u = { y with f := u.f } ∧ ∀ e, u.freg e = if e = BitVec.ofNat 5 (n - 32) then v else y.freg e) ∧
        (n = 64 → u = { y with pc := v }) ∧ (n = 65 → u = { y with fcsr := w &&& 0xFF }) ∧
        (n = 66 → u = { y with events := w }) ∧ (n = 67 → FmtOk w → u = { y with fmt := w }) ∧
        (n = 67 → ¬ FmtOk w → u = y) ∧ (n = 68 → SclpOk v → u = { y with sclp := v }) ∧ (n = 68 → ¬ SclpOk v → u = y))) ∧
  (∀ t r n, i = .xsgset t r n →
    (¬ (y.st = .trapped ∨ z % 16 = 15) → exec i s = .next (goneOn s k x)) ∧
    ((y.st = .trapped ∨ z % 16 = 15) →
      ∃ u : Slot, exec i s = .next (let t := s.setSlot z u; goneOn t k (t.slot k)) ∧ u = { y with sg := u.sg } ∧
        ∀ j, Tbl.get u.sg 0 j = if j = n.toNat then (x.xreg t ++ x.xreg r) &&& ~~~ ((1 : BitVec 128) <<< 121)
          else Tbl.get y.sg 0 j)) ∧
  (∀ t r, i = .xtlbi t r → let v := x.xreg t
    let kind := v.extractLsb' 12 2
    let p := s.part (s.cluster (k / 256)).part
    ((2 ^ 14 ≤ v.toNat ∨ kind = 3) → Raises s k i 2 (s.cur.w1.setWidth 64)) ∧
    (v.toNat < 2 ^ 14 → kind ≠ 3 → ∃ s1 : State, exec i s = .next (goneOn s1 k x) ∧ s1 = { s with clusters := s1.clusters } ∧
      ∀ cl, s1.cluster cl = { s.cluster cl with tlb := (s1.cluster cl).tlb } ∧ ∀ l, l ∈ (s1.cluster cl).tlb ↔
        l ∈ (s.cluster cl).tlb ∧ ¬ (if kind = 2 then p.ctxlo ≤ l.ctx ∧ l.ctx ≤ p.ctxhi else l.ctx = (v.extractLsb' 0 12).toNat ∧
          (kind = 1 ∨ l.page = (x.xreg r).toNat % 2 ^ 57 / 2 ^ levelShift l.level))))

open Sys2Proof Sys2Proof.Machine Sys2Proof.Claims in
/-- Context areas and the queues of the keeper (R318 to R324, R373 to R377): xctx.sv writes a part of the area of a TRAPPED slot
and xctx.ld gives a slot what an area holds; the timers fire, the CSRs that pop and clear do so, WMPART takes four quotas
whose sum is at most 4, and firmware starts a halted keeper. The model's choices here: operands are checked before the state
(log 59), which slot an area may go to (log 61), and the ring of an area is read in the keeper's context (log 30). -/
def Obligations.KeeperContexts : Prop :=
  (∀ s k z i, Keeps s k i z → let x := s.slot k
    let y := s.slot z
    let cl := k / 256
    let w := slotWho k x
    (∀ t r d, (i = .xctxSv t r d ∨ i = .xctxLd t r d) → ((x.xreg r).toNat % 256 ≠ 0 ∨ 2 ≤ (x.xreg t).toNat) →
      Answers s k i d 0x200 s) ∧
    (∀ t r d, let area := (x.xreg r).toNat
      i = .xctxSv t r d → area % 256 = 0 →
      ((x.xreg t).toNat < 2 → y.st ≠ .trapped → Answers s k i d 0x100 s) ∧
      (∀ lod v s1, x.xreg t = 0 → y.st = .trapped →
        checkSearch (s.launch x.launchNo) x.launchNo x.sg needWrite area 256 256 = (.ok, lod) →
        (s.drainStores k).writeRange w (s.drainStores k).nextOp (some (swarmNo cl)) .write area y.part0 lod = (.value v, s1) →
        Answers s k i d 0 s1) ∧
      (∀ lod v s1, x.xreg t = 1 → y.st = .trapped →
        let s0 := (s.drainStores z).drainStores k
        checkSearch ((s.drainStores z).launch x.launchNo) x.launchNo x.sg needWrite area y.area.length 256 = (.ok, lod) →
        s0.writeRange w s0.nextOp (some (swarmNo cl)) .write area y.area lod = (.value v, s1) →
        ∃ s2 : State, Answers s k i d 0 s2 ∧ s2 = { s1 with slots := s2.slots, clusters := s2.clusters } ∧
          s2.slot z = { s1.slot z with saved := some (BitVec.ofNat 64 area, y.events) })) ∧
    (∀ t r d, let area := (x.xreg r).toNat
      i = .xctxLd t r d → area % 256 = 0 →
      (x.xreg t = 0 → y.st ≠ .trapped → Answers s k i d 0x100 s) ∧
      (x.xreg t = 1 → y.st ≠ .free → Answers s k i d 0x100 s) ∧
      (∀ lod ps s1 v s2, x.xreg t = 0 → y.st = .trapped → y.karea = 0 →
        checkSearch (s.launch x.launchNo) x.launchNo x.sg needRead area 256 256 = (.ok, lod) →
        s.scalarPieces k x .read lod area 256 = (.ok ps, s1) →
        s1.readPast w (swarmNo cl) area 256 lod = (.value v, s2) →
        ∃ (t : State) (u : Slot), Answers s k i d 0 t ∧ OnlySlot s2 t z u ∧
          u = { s2.slot z with x := u.x, pc := BitVec.ofNat 64 (areaNum v 0 8), ring := false } ∧
          ∀ r : BitVec 5, r ≠ 0 → (u.xreg r).toNat = areaNum v (8 * r.toNat) 8) ∧
      (∀ lod ps s1 v s2, x.xreg t = 1 → y.st = .free →
        checkSearch (s.launch x.launchNo) x.launchNo x.sg needRead area 0x310 256 = (.ok, lod) →
        s.scalarPieces k x .read lod area 0x310 = (.ok ps, s1) →
        s1.readPast w (swarmNo cl) area 0x310 lod = (.value v, s2) →
        let h := areaNum v 0x210 8
        let unbound := areaNum v 0x20C 4 % 2 = 1
        let fits := if unbound then y.reserved = false else if y.reserved = true then y.handle.toNat = h
          else h / 2 ^ 32 % 2 ^ 8 = z % 16 ∧ h % 2 ^ 32 = (y.seq.toNat + 1) % 2 ^ 32
        (¬ fits → Answers s k i d 0x100 s2) ∧
        (∀ ends sr, let ring : W64 := BitVec.ofNat 64 area &&& 0xFFFFFFFFFFFFFC00
          fits → (s.core (k / 16)).ksel ≠ 15 →
          ((ring = 0 ∧ sr = s2 ∧ ends = 0) ∨ (ring ≠ 0 ∧
            s2.readRange (Who.mk cl (s2.slot (z / 16 * 16 + 15)).launchNo pathLS none) (ring.toNat + 0x310) 8 true
              = (.value ends, sr))) →
          ∃ s3 : State, Answers s k i d 0 s3 ∧ (s3.slot z).karea = ring ∧
          ((s3.slot z).ring = true ↔ ends % 2 ^ 32 ≠ ends / 2 ^ 32) ∧
          (s3.slot z).st = .trapped ∧ (s3.slot z).kcause = 0xFE ∧ (s3.slot z).reserved = false ∧
          (unbound ∨ (s3.slot z).handle.toNat = h) ∧ HoldsArea { s3.slot z with origin := BitVec.ofNat 64 (areaNum v 0x218 8) } v ∧
          (¬ unbound → (s3.slot z).origin.toNat = areaNum v 0x218 8))))) ∧
  (∀ s z, let y := s.slot z
    (¬ (y.timer ≠ 0 ∧ y.timer.toNat ≤ s.time.toNat) → exec (.xtimerExpiry z) s = .next s) ∧
    (y.timer ≠ 0 → y.timer.toNat ≤ s.time.toNat → z % 16 ≠ 15 → y.st = .ready →
      exec (.xtimerExpiry z) s = .next ((s.setSlot z { y with timer := 0 }).keeperTrap z 29 0)) ∧
    (y.timer ≠ 0 → y.timer.toNat ≤ s.time.toNat → z % 16 = 15 → ∃ t : State, exec (.xtimerExpiry z) s = .next t ∧
      OnlySlot s t z { y with timer := 0, events := y.events ||| 0x40000000 })) ∧
  (∀ s c v, exec (.kpendClear c v) s = .next (s.setCore c { s.core c with kpend := (s.core c).kpend &&& ~~~ v })) ∧
  (∀ s cl a rest, (s.cluster cl).poisonQ = a :: rest →
    exec (.poisonQueuePop cl) s = .next (s.setCluster cl { s.cluster cl with poisonQ := rest })) ∧
  (∀ s cl e rest, (s.cluster cl).cloakReady = e :: rest → ∃ t : State, exec (.cloakroomReadyPop cl) s = .next t ∧
    t = { s with clusters := t.clusters } ∧ (t.cluster cl).cloakReady = rest ∧
    Tbl.find? (t.cluster cl).cloak e = some .held) ∧
  (∀ s cl v, ∃ t : State, exec (.cloakroomEntryFree cl v) s = .next t ∧ t = { s with clusters := t.clusters } ∧
    ∀ e, e < 64 → Tbl.find? (t.cluster cl).cloak e = if v.getLsbD e then none else Tbl.find? (s.cluster cl).cloak e) ∧
  (∀ s cl v, let q (p : W32) (i : Nat) : Nat := (p.extractLsb' (3 * i) 3).toNat
    let total := q v 0 + q v 1 + q v 2 + q v 3
    ∃ t : State, exec (.wmpartWrite cl v) s = .next t ∧ t = { s with clusters := t.clusters } ∧
      (4 < total → t.cluster cl = s.cluster cl) ∧ (total ≤ 4 → (t.cluster cl).wmpart = v &&& 0xFFF)) ∧
  (∀ s c, let k := c * 16 + 15
    ((s.slot k).st ≠ .halted → exec (.keeperRestart c) s = .next s) ∧
    ((s.slot k).st = .halted → ∃ (t : State) (y : Slot), exec (.keeperRestart c) s = .next t ∧ OnlySlot s t k y ∧
      y.st = .ready ∧ y.pc = (s.core c).fwPc ∧ y.x = (s.core c).fwX ∧ y.sg = (s.core c).fwSg))

namespace Sys2Proof.Claims

open Machine

/-! ## Queues, launches, parked teams (R335 to R346, R379 to R383, R428, R429, R432) -/

/-- A queue whose indices stand at most its size apart. -/
def InReach (x : Queue) : Prop := (x.wr - x.rd).toNat ≤ 2 ^ x.log2n

/-- The interface of a partition answers (R402, R416): it has not left RUN for good, and the package has partitions. -/
def Asks (s : State) (p : Nat) : Prop := (s.part p).stopped = false ∧ s.recovery = false

/-- Work of a partition may begin and go on: its interface has not left RUN for good (R401), and no checkpoint quiets it
(R417). -/
def MayWork (s : State) (p : Nat) : Prop := (s.part p).stopped = false ∧ ∀ c, s.checkpoint = some c → p ∈ c.out

/-- A queue that may consume (R336, R387, R399): enabled, not in ERROR, records in the ring, no head, a host attached, in
RUN. -/
def MayConsume (s : State) (x : Queue) : Prop :=
  x.en = true ∧ x.st ≠ 2 ∧ x.wr ≠ x.rd ∧ x.head = none ∧ (s.part x.part).attach = 2 ∧ (s.part x.part).tdisp = .run ∧
  MayWork s x.part

/-- The bytes of a residency report (R346). -/
def reportBytes (s : State) (q event index lnum : Nat) (word : W64) : List Byte :=
  toBytes 4 (q % 64 + 256 * event) ++ toBytes 4 index ++ toBytes 2 lnum ++ List.replicate 6 0 ++ toBytes 8 s.time.toNat ++
    toBytes 8 word.toNat

/-- Memory m holds the parts of a frame of a team. -/
def FrameIn (m : Nat → Byte) (tm : Team) (mstat : W32) (held : Nat) : Prop :=
  ∀ e ∈ tm.frameParts mstat held, ∀ j b, e.2[j]? = some b → m (e.1 + j) = b

/-- What a restore reads from memory m, as one number. -/
def frameNumber (m : Nat → Byte) (tm : Team) : Nat :=
  ofBytes (tm.frameRanges.flatMap fun r => (List.range r.2).map fun j => m (r.1 + j))

end Sys2Proof.Claims

open Sys2Proof Sys2Proof.Machine Sys2Proof.Claims in
/-- The registers of a queue (R335, R336), which only the interface of its own partition reaches: a doorbell sets WR and puts a
queue whose indices stand too far apart in ERROR with code 1; QCTL sets its fields, LOG2N and CTX only while the queue is
disabled; EN from 0 to 1 ends ERROR; QBASE is kept while EN is 1. The other registers of the device take what is written, or do
what their write asks for; an interface that has left RUN answers no write (R402). The offsets of keeperImage and of firmware's
own settings are the model's (log 47), and so is that QBASE and CTXBASE keep the low bits written (log 92). Firmware moves a queue
between two partitions in CONFIG_UNLOCKED alone (R399). -/
def Obligations.QueueRegisters : Prop :=
  ∀ s, 
  (∀ p q v, (64 ≤ q ∨ (s.queue q).part ≠ p) →
    exec (.queueDoorbell ⟨p, q⟩ v) s = .next s ∧ exec (.queueEnable ⟨p, q⟩ v) s = .next s) ∧
  (∀ p, (s.part p).stopped = true → (∀ q v, exec (.queueDoorbell ⟨p, q⟩ v) s = .next s ∧ exec (.queueEnable ⟨p, q⟩ v) s = .next s) ∧
    ∀ b off v, b ∈ [.queue, .translation, .attach, .power] → exec (.registerWrite b p off v) s = .next s) ∧
  (∀ p q v, let x := s.queue q
    let y := { x with wr := v }
    Asks s p → q < 64 → x.part = p →
    (InReach y → exec (.queueDoorbell ⟨p, q⟩ v) s = .next (s.setQueue q y)) ∧
    (¬ InReach y → x.st ≠ 2 → exec (.queueDoorbell ⟨p, q⟩ v) s = .next (s.setQueue q { y with st := 2, err := 1 }))) ∧
  (∀ p q (v : W32), let x := s.queue q
    let en := v.getLsbD 31
    let held := x.st = 2 ∧ x.err = 3 ∧ (s.part x.part).tdisp ≠ .run
    Asks s p → q < 64 → x.part = p → ∃ y : Queue, exec (.queueEnable ⟨p, q⟩ v) s = .next (s.setQueue q y) ∧
      y.prio = (v.extractLsb' 29 2).toNat ∧ y.peerOk = v.getLsbD 28 ∧ y.base = x.base ∧ y.wr = x.wr ∧ y.head = x.head ∧
      (x.en = true → y.log2n = x.log2n ∧ y.ctx = x.ctx) ∧
      (x.en = false → y.log2n = (v.extractLsb' 24 4).toNat ∧ y.ctx = (v.extractLsb' 12 12).toNat) ∧
      (held → y.en = x.en ∧ y.st = 2 ∧ y.err = 3 ∧ y.rd = x.rd) ∧
      (¬ held → y.en = en) ∧
      (¬ held → x.st = 2 → x.en = false → en = true → y.st = 0 ∧ y.err = 0 ∧ y.rd = x.wr) ∧
      (x.st = 2 → (x.en = true ∨ en = false) → y.st = 2 ∧ y.err = x.err ∧ y.rd = x.rd) ∧
      (x.st ≠ 2 → y.rd = x.rd ∧ (InReach y → y.st = x.st) ∧ (¬ InReach y → y.st = 2 ∧ y.err = 1))) ∧
  (∀ p q v, let x := s.queue q
    let r (off : Nat) := exec (.registerWrite .queue p (0x40 * q + off) v) s
    Asks s p → q < 64 → x.part = p →
    (x.en = true → r 0x00 = .next s) ∧ (x.en = false → r 0x00 = .next (s.setQueue q { x with base := v })) ∧
    r 0x08 = exec (.queueEnable ⟨p, q⟩ (v.extractLsb' 0 32)) s ∧ r 0x10 = exec (.queueDoorbell ⟨p, q⟩ (v.extractLsb' 0 32)) s ∧
    r 0x14 = .next s ∧ r 0x18 = .next s) ∧
  (∀ p v, let x := s.part p
    let r (off : Nat) := exec (.registerWrite .translation p off v) s
    let token := (v.extractLsb' 0 32).toNat
    Asks s p → r 0x00 = .next (s.setPart p { x with ctxbase := v }) ∧ r 0x18 = .next (s.setPart p { x with tinva := v }) ∧
    r 0x30 = .next (s.setPart p { x with tmiga := v }) ∧ r 0x40 = .next (s.setPart p { x with lfbase := v }) ∧
    r 0x48 = .next (s.setPart p { x with lfctl := v.extractLsb' 0 32 &&& 0xF }) ∧
    r 0x4C = .next (s.setPart p { x with lfwr := v.extractLsb' 0 32 }) ∧
    r 0x20 = exec (.tinvcShootdown p v) s ∧ r 0x38 = exec (.tmigcMigrate p v) s ∧
    r 0x10 = (match (v.extractLsb' 32 3).toNat with
      | 0 => exec (.twakeRetry p token) s
      | 1 => exec (.twakeFail p token) s
      | 2 => exec (.twakeRetryctx p (v.extractLsb' 36 12).toNat) s
      | 3 => exec (.twakeLate p token) s
      | 4 => exec (.twakeDrop p token) s
      | _ => exec (.faultQueueRecheck p) s)) ∧
  (∀ p v, Asks s p → exec (.registerWrite .attach p 0x00 v) s = .next (s.setPart p { s.part p with owner := v }) ∧
    exec (.registerWrite .attach p 0x10 v) s = exec (.attachClaim p v) s) ∧
  (∀ p v, let w := (v.extractLsb' 0 16).toNat
    (p ≠ 0 → exec (.registerWrite .power p 0x00 v) s = .next s) ∧
    (Asks s 0 → exec (.registerWrite .power 0 0x00 v) s = .next { s with power := { s.power with
      pcap := max 1200 (min s.power.most w) } })) ∧ State.reset.power.most = 2400 ∧
  (∀ core n v, exec (.registerWrite .keeper core n v) s = .next (s.keeperWrite core n v v)) ∧
  (∀ core v, exec (.registerWrite .keeperImage core 0 v) s = .next (s.setCore core { s.core core with fwPc := v })) ∧
  (∀ q v, let free (p : Nat) : Prop := (s.part p).tdisp = .unlocked
    let moved := q < 64 ∧ free (s.queue q).part ∧ free v.toNat
    (moved → exec (.registerWrite .firmware q 0x1000000 v) s = .next (s.setQueue q { s.queue q with part := v.toNat })) ∧
    (¬ moved → exec (.registerWrite .firmware q 0x1000000 v) s = .next s))

open Sys2Proof Sys2Proof.Machine Sys2Proof.Claims in
/-- Consumption and peers (R336 to R338, R345, R346): a queue consumes the record at its read index; a record whose version is
not 1, and that names no completion word, is dropped and the queue moves on; one that keeps every rule heads the queue; a failed read of the ring
puts the queue in ERROR with code 2. A packet is stored at the write index, or refused with a report. -/
def Obligations.LaunchConsumption : Prop :=
  ∀ s q, let x := s.queue q
  let n := s.nextLaunch
  let s0 := s.setLaunch n { st := .waiting, ctx := x.ctx, part := x.part }
  (¬ MayConsume s x → exec (.launchConsume q) s = .next s) ∧
  (∀ s1, MayConsume s x → s0.readRange (s0.deviceWho n) (x.base.toNat + 256 * (x.rd.toNat % 2 ^ x.log2n)) 256 true = (.fail, s1) →
    exec (.launchConsume q) s = .next (s.setQueue q { x with st := 2, err := 2 })) ∧
  (∀ v s1, MayConsume s x → s0.readRange (s0.deviceWho n) (x.base.toNat + 256 * (x.rd.toNat % 2 ^ x.log2n)) 256 true
      = (.value v, s1) →
    let s2 := { s1 with nextLaunch := n + 1 }
    let l := s2.launchOf v q
    let s3 := s2.setLaunch n l
    (v % 256 ≠ 1 → v / 2 ^ (8 * 152) % 2 ^ 64 = 0 → ∃ t : State, exec (.launchConsume q) s = .next t ∧
      (t.queue q).rd = (s1.queue q).rd + 1 ∧ (t.queue q).head = none ∧ Tbl.find? t.launches n = none ∧
      ∀ j, j ≠ q → t.queue j = s1.queue j) ∧
    (∀ f s4, s3.recordCode v l = 0 → v / 2 ^ (8 * 72) % 2 ^ 16 = 0 →
      s3.readRange (s3.deviceWho n) (v / 2 ^ (8 * 104) % 2 ^ 64) 128 true = (.value f, s4) → formatsOk f = true →
      ∃ t : State, exec (.launchConsume q) s = .next t ∧ (t.queue q).rd = (s4.queue q).rd + 1 ∧ (t.queue q).head = some n ∧
        t.launch n = { l with nodes := [], fmts := formatsOf f } ∧ ∀ j, j ≠ q → t.queue j = s4.queue j)) ∧
  (∀ peer bytes, let v := ofBytes ((bytes ++ List.replicate 256 0).take 256)
    let at_ := x.base.toNat + 256 * (x.wr.toNat % 2 ^ x.log2n)
    let lnum := v / 2 ^ 32 % 2 ^ 16
    (x.peerOk = true → (x.en = false ∨ 2 ^ x.log2n ≤ (x.wr - x.rd).toNat) →
      exec (.peerLaunchPacket q peer bytes) s =
        .next { s with reports := s.reports ++ [(peer, reportBytes s q 1 0xFFFFFFFF lnum 0)] }) ∧
    (∀ u s1, x.peerOk = true → x.en = true → (s.part x.part).stopped = false → (x.wr - x.rd).toNat < 2 ^ x.log2n →
      s0.writeRange (s0.deviceWho n) s.nextOp none .write at_ ((bytes ++ List.replicate 256 0).take 256) true = (.value u, s1) →
      ∃ t : State, exec (.peerLaunchPacket q peer bytes) s = .next t ∧ (t.queue q).wr = x.wr + 1 ∧ (t.queue q).rd = x.rd ∧
        t.reports = s1.reports ++ [(peer, reportBytes s1 q 0 x.wr.toNat lnum 0)] ∧ t.mem = s1.mem))

open Sys2Proof Sys2Proof.Machine Sys2Proof.Claims in
/-- Placement and the end of a launch (R12, R13, R340 to R344, R432): the head that the order chooses is resident on the whole
grid at once, holding a context slot on each cluster; a launch without a party ends, its completion word written with DONE,
KILL and its counts, its context slots free; one that LEND took out of its queue ends with KILL and 0xFFFC (R388). -/
def Obligations.LaunchLife : Prop :=
  (∀ s grid hs s1, s.heads (List.range 64) = (hs, s1) →
    (s1.nextHead hs = none → exec (.launchPlace grid) s = .next s1) ∧
    (∀ q n segs s2 u s3 nodes s4, let l := s1.launch n
      let w := Who.mk (grid.getD 0 0) n pathLS none
      s1.nextHead hs = some (q, n) → s1.gridFits l (max l.prio (s1.queue q).prio) grid = true → s1.readOpen w l.segt.toNat 256 = (some segs, s2) →
      s2.uniformBlock w (if l.tentry = 0 then 0 else l.ublk) = (some u, s3) → s3.nodeBlocks w l.nodes = (some nodes, s4) →
      ∃ t : State, exec (.launchPlace grid) s = .next t ∧ (t.launch n).st = .resident ∧ (t.launch n).grid = grid ∧
        (t.launch n).prio = max l.prio (s1.queue q).prio ∧ (t.queue q).head = none ∧
        ∀ cl ∈ grid, ∃ i, i < 4 ∧ Tbl.find? (t.cluster cl).ctx i = some n)) ∧
  (∀ s n, let l := s.launch n
    (l.st ≠ .closing → (l.st ≠ .resident ∨ s.hasParty n = true ∨ s.hasHeld n = true) → exec (.launchEnd n) s = .next s) ∧
    (∀ s1, let word := BitVec.ofNat 64 (2 ^ 63 + 2 ^ 61 + min l.kteams 0xFFFF * 2 ^ 16 + 0xFFFC)
      l.st = .closing → (s.writeDone n word = (false, s1) → exec (.launchEnd n) s = .next s1) ∧
      (s.writeDone n word = (true, s1) → ∃ t : State, exec (.launchEnd n) s = .next t ∧ (t.launch n).st = .ended ∧
        (∀ cl i, Tbl.find? (t.cluster cl).ctx i ≠ some n) ∧ ∀ k, keyKind k ≠ 1 → t.byte k = s1.byte k)) ∧
    (∀ s1, l.st = .resident → (Tbl.find? s.launches n).isSome = true → s.hasParty n = false → s.hasHeld n = false →
      ({ s with veils := [] } : State).writeDone n l.word = (true, s1) →
      ∃ t : State, exec (.launchEnd n) s = .next t ∧ (t.launch n).st = .ended ∧
        (∀ cl i, Tbl.find? (t.cluster cl).ctx i ≠ some n) ∧ (∀ cl, (t.cluster cl).grant ≠ some n) ∧
        (∀ k, keyKind k ≠ 1 → t.byte k = s1.byte k) ∧
        ∀ k, keyKind k = 1 → keyPlace k / 0x10000000 = n → t.byte k = 0)) ∧
  (∀ l : Launch, let w := l.word
    w.getLsbD 63 = true ∧ w.getLsbD 62 = false ∧ w.getLsbD 61 = (l.kteams != 0) ∧ w.extractLsb' 48 13 = 0 ∧
    (w.extractLsb' 32 16).toNat = min l.drops 0xFFFF ∧ (w.extractLsb' 16 16).toNat = min l.kteams 0xFFFF ∧
    w.extractLsb' 0 16 = l.code.extractLsb' 0 16) ∧
  (∀ (s : State) n word, (s.launch n).done ≠ 0 →
    ∀ v s1, s.writeRange (s.deviceWho n) s.nextOp none .write (s.launch n).done.toNat (toBytes 8 word.toNat) true = (.value v, s1) →
      s.writeDone n word = (true, s1)) ∧
  (∀ (s : State) n word, (s.launch n).done = 0 → s.writeDone n word = (true, s))

open Sys2Proof Sys2Proof.Machine Sys2Proof.Claims in
/-- Pre-emption, park-off and restore (R331, R379, R382, R383): a request stops a team at its next clause boundary; a drained
parked team writes its stacks, claims the lowest free frame, writes it, STATE last, and leaves its engine, unless its word is
FULL, which it takes; a team whose word is FULL goes on where it stands, and one that is off its engine enters ADMITTING first; a
restore from a frame whose STATE is not 1 ends the team with 0xFFFD, any other sets STATE to 2 before it reads. The rest of a
restore gives the team what its frame holds (ParkFrameRoundTrip says what that is) and the top 16 entries of both stacks, makes
the frame free, and lets the team go on at a header; elsewhere it raises cause 0x09 (R429). The 2 of a claimed frame is the
model's choice (log 112). -/
def Obligations.ParkAndRestore : Prop :=
  ∀ s id, let tm := s.team id
  let l := s.launch tm.launch
  let w := tm.who pathLS
  let own := s.l1Of tm
  let atRest := tm.st = .parked ∧ tm.frame = 0 ∧ tm.engineWait = none
  let goesOn (key d : Nat) : State → Prop := fun t =>
    t.isFull key = false ∧ ∃ tm' : Team, t.team id = { tm' with st := .ready, wait := .none } ∧ tm' = { tm with g := tm'.g } ∧
      (∀ r, r < 64 → r ≠ d → r ≠ d + 1 → tm'.greg r = tm.greg r) ∧ tm'.gpair d = s.readKey key 8
  (((Tbl.find? s.teams id).isNone = true ∨ tm.st ∈ [.admitting, .parkedOff, .retiring, .retired] ∨ tm.roomless = true ∨
      tm.wait = .preempt) → exec (.preemptRequest id) s = .next s) ∧
  ((Tbl.find? s.teams id).isSome = true → tm.st ∉ [.admitting, .parkedOff, .retiring, .retired] → tm.roomless = false →
    tm.wait ≠ .preempt →
    let boundary := (tm.st = .ready ∧ tm.clause = none ∧ tm.rep = none) ∨ tm.st = .clauseWait ∨ (tm.st = .parked ∧ tm.wait = .none)
    (boundary → exec (.preemptRequest id) s =
      .next (s.setTeam id { tm with st := .parked, wait := .preempt, preempt := false })) ∧
    (¬ boundary → exec (.preemptRequest id) s = .next (s.setTeam id { tm with preempt := true }))) ∧
  ((tm.st ≠ .parked ∨ tm.drained = false ∨ tm.frame ≠ 0 ∨ tm.engineWait ≠ none) → exec (.teamParkOff id) s = .next s) ∧
  (∀ va d key, atRest → tm.claimed = 0 → tm.drained = true → tm.wait = .tpark va d → d < 63 →
    (s.launch tm.launch).windowKey tm.launch va.toNat = some key → s.isFull key = true → s.isPoisoned key = false →
    (∃ t : State, exec (.teamParkOff id) s = .next t ∧ goesOn key d t) ∧
    (MayWork s l.part → ∀ eng, ∃ t : State, exec (.teamRestore id eng) s = .next t ∧ goesOn key d t)) ∧
  (∀ h s1 s2 s3 s4 s5 s6 fr v1 v2 v3 key, atRest → tm.drained = true →
    (tm.wait = .preempt ∨ (s.parkKey tm = some key ∧ s.isFull key = false)) →
    s.readRange w l.park.toNat 8 true = (.value h, s1) →
    s1.writeParts w own (s1.spillBase tm (h / 2 ^ 32)) (tm.stackParts l.spsz.toNat) = (.value v1, s2) →
    let base := l.park.toNat + 256 + l.vcl tm.cl * (h / 2 ^ 32) * (h % 2 ^ 32)
    s2.parkFrame tm w own base (h % 2 ^ 32) (h / 2 ^ 32) = (.value fr, s3) →
    (fr = 0 → exec (.teamParkOff id) s = .next s3) ∧
    (fr ≠ 0 → ∀ held, (s3.setTeam id { s3.team id with claimed := BitVec.ofNat 64 fr }).free 1 = (held, s4) →
      s4.writeParts w own fr (tm.frameParts (s4.cluster tm.cl).mstat
        (if tm.deferred = [] then 0 else (held.getD 0 0).toNat)) = (.value v2, s5) →
      s5.writeParts w own fr [(0, toBytes 4 1)] = (.value v3, s6) →
      exec (.teamParkOff id) s = .next (s6.setTeam id { tm with
        st := .parkedOff, frame := BitVec.ofNat 64 fr, divs := [], divSpilled := tm.divDepth, calls := []
        callSpilled := tm.callDepth, claimed := 0, engineWait := none }))) ∧
  (∀ base fsz nfr i (s1 s2 : State), i < nfr → tm.claimed = 0 →
    (∀ j, j < i → ∃ v, v ≠ 0 ∧ s1.rmwRange w 0 (some own) (base + j * fsz) 4 (fun o => if o = 0 then some 2 else none) true
      = (.value v, s1)) →
    s1.rmwRange w 0 (some own) (base + i * fsz) 4 (fun o => if o = 0 then some 2 else none) true = (.value 0, s2) →
    s1.parkFrame tm w own base fsz nfr = (.value (base + i * fsz), s2)) ∧
  (tm.wait = .preempt → tm.st = .parked → tm.frame = 0 → tm.claimed = 0 → MayWork s l.part → ∀ eng,
    exec (.teamRestore id eng) s = .next (s.setTeam id { tm with st := .ready, wait := .none })) ∧
  (tm.wait ≠ .preempt → s.parkWordFull tm = false → ¬ (tm.st = .parked ∧ tm.frame ≠ 0) → ∀ eng,
    exec (.teamRestore id eng) s = .next s) ∧
  (∀ old s1, tm.st = .parked → tm.frame ≠ 0 → tm.engineWait = none → tm.restoring = false → MayWork s l.part →
    s.readRange w tm.frame.toNat 4 true = (.value old, s1) → ∀ eng,
    (old ≠ 1 → exec (.teamRestore id eng) s = .next (s1.killTeam id 0xFFFD)) ∧
    (∀ v s2, old = 1 → s1.writeParts w (s1.l1Of tm) tm.frame.toNat [(0, toBytes 4 2)] = (.value v, s2) →
      exec (.teamRestore id eng) s = .next ((s2.setTeam id { s2.team id with restoring := true }).restoreRest id))) ∧
  (∀ eng, let s1 := s.setTeam id { tm with st := .admitting, entered := s.clock tm.cl }
    (tm.wait = .preempt ∨ s.parkWordFull tm = true) → MayWork s l.part → tm.st = .parkedOff →
    (s1.nextAdmit tm.cl).map (·.1) ≠ some id → exec (.teamRestore id eng) s = .next s1) ∧
  (∀ nfr v dv cv u hw (s1 s2 s3 s4 s5 s7 : State) eng, let frame := tm.frame.toNat
    let r := tm.restored v
    let nd := min 16 r.divSpilled
    let nc := min 16 r.callSpilled
    let size := 8 + 4 * r.words
    let base := s2.spillBase tm nfr
    let back := { r with
      divs := (List.range nd).map fun i => r.divOf (dv / 2 ^ (8 * (size * i)) % 2 ^ (8 * size))
      divSpilled := r.divSpilled - nd
      calls := (List.range nc).map fun i => callOf (cv / 2 ^ (8 * (16 * i)) % 2 ^ (8 * 16))
      callSpilled := r.callSpilled - nc, frame := 0, restoring := false, clause := none, rep := none }
    MayWork s l.part → tm.st = .parked → tm.frame ≠ 0 → tm.engineWait = none → tm.restoring = true →
    s.readRange w (l.park.toNat + 4) 4 true = (.value nfr, s1) →
    (s1.invalidate (s1.l1Of tm)).readParts w frame tm.frameRanges = (.value v, s2) →
    s2.readParts w base ((List.range nd).map fun i => (r.divAt 0 (r.divSpilled - 1 - i), size)) = (.value dv, s3) →
    s3.readParts w base ((List.range nc).map fun i => (callAt 0 l.spsz.toNat (r.callSpilled - 1 - i), 16)) = (.value cv, s4) →
    s4.writeParts w (s4.l1Of tm) frame [(0, toBytes 4 0)] = (.value u, s5) →
    (s5.setTeam id { back with resumed := true }).fetchWord id r.pc.toNat = (.word hw, s7) →
    (hw.extractLsb' 26 6 = 0x3F → tm.wait = .preempt → tm.claimed = 0 → exec (.teamRestore id eng) s =
      .next (s7.setTeam id { back with resumed := false, st := .ready, wait := .none })) ∧
    (hw.extractLsb' 26 6 ≠ 0x3F → exec (.teamRestore id eng) s = .next (s7.teamTrap id (Trap.mk 0x09 0 0xFFFFFFFF r.pc))))

open Sys2Proof Sys2Proof.Machine Sys2Proof.Claims in
/-- A frame gives back what it was written from (R380, R383), to any team of the same lanes and registers, whatever that one held:
for every team whose masks name its own lanes, what a restore takes from a memory that holds the frame is, where its reserved bits
are zero, the written team's pc, FMT, SCLP, TCLASS, flags, segments, TMASK, trap registers, mask, uniform and vector registers,
predicates and the register pair of tpark; nothing else of the restored team changes. A frame whose FMT or SCLP is no value that
those hold leaves them as they were (log 104). -/
def Obligations.ParkFrameRoundTrip : Prop :=
  ∀ (m : Nat → Byte) (base tm : Team) mstat held, base.lanes = tm.lanes → base.n = tm.n → 1 ≤ tm.lanes → tm.lanes ≤ 1024 → 1 ≤ tm.n → tm.n ≤ 128 →
  tm.mask < 2 ^ tm.lanes → tm.tmask < 2 ^ (32 * tm.words) → tm.gp < 128 → FrameIn m tm mstat held →
  tm.tcause &&& 0xFF000F00 = 0 → tm.tcls &&& 0xFFFF0000 = 0 → tm.tret &&& 0xFFFFFFFE = 0 →
  (∀ r, r < 8 → (Tbl.get tm.sg 0 r).getLsbD 121 = false ∧ (Tbl.get tm.sgSaved 0 r).getLsbD 121 = false) →
  let t := base.restored (frameNumber m tm)
  t.pc = tm.pc ∧ (FmtOk tm.fmt → t.fmt = tm.fmt) ∧ (¬ FmtOk tm.fmt → t.fmt = base.fmt) ∧ (SclpOk tm.sclp → t.sclp = tm.sclp) ∧
  (¬ SclpOk tm.sclp → t.sclp = base.sclp) ∧ t.tclass = tm.tclass ∧ t.live = base.live ||| tm.mask ∧
  (∀ va va' d d', base.wait = .tpark va d → tm.wait = .tpark va' d' → d' < 64 → t.wait = .tpark va d') ∧
  t = { base with
    pc := t.pc, fmt := t.fmt, tstat := t.tstat, tclass := t.tclass, sclp := t.sclp, wait := t.wait, sg := t.sg
    sgSaved := t.sgSaved, tcause := t.tcause, tepc := t.tepc, tinfo := t.tinfo, tlane := t.tlane, taddr := t.taddr
    tcls := t.tcls, tret := t.tret, tclause := t.tclause, g := t.g, gp := t.gp, mask := t.mask, live := t.live
    tmask := t.tmask, p := t.p, v := t.v } ∧
  (∀ b : Nat, b < 6 → t.tstat.getLsbD b = tm.tstat.getLsbD b) ∧ t.mask = tm.mask ∧ t.tmask = tm.tmask ∧ t.gp = tm.gp ∧
  (∀ r, r < 8 → Tbl.get t.sg 0 r = Tbl.get tm.sg 0 r ∧ Tbl.get t.sgSaved 0 r = Tbl.get tm.sgSaved 0 r) ∧
  (∀ r, r < 64 → t.greg r = tm.greg r) ∧ t.tcause = tm.tcause ∧ t.tepc = tm.tepc ∧ t.tinfo = tm.tinfo ∧ t.tlane = tm.tlane ∧
  t.taddr = tm.taddr ∧ t.tcls = tm.tcls ∧ t.tret = tm.tret ∧
  (∀ l, l < tm.lanes → (∀ r, r < tm.n → t.vreg l r = tm.vreg l r) ∧ ∀ r, r < 7 → t.preg l r = tm.preg l r)

namespace Sys2Proof.Claims

open Machine

/-! ## Faults, lodged pages, host, peers, interfaces (R358 to R371, R384 to R403) -/

/-- A leaf of the translation cache holds an address of a context. -/
def Holds (l : Leaf) (ctx va : Nat) : Prop := l.ctx = ctx ∧ l.page = va % 2 ^ 57 / 2 ^ levelShift l.level

/-- Machine t is s but that every translation cache has lost the leaves named by a predicate. -/
def LeavesGone (s t : State) (p : Leaf → Prop) : Prop :=
  t = { s with clusters := t.clusters } ∧ ∀ cl, t.cluster cl = { s.cluster cl with tlb := (t.cluster cl).tlb } ∧
    ∀ l, l ∈ (t.cluster cl).tlb ↔ l ∈ (s.cluster cl).tlb ∧ ¬ p l

/-- No party waits for a token but slot k, if one is given. -/
def OnlyWaits (s : State) (token : Nat) (who : Option Nat) : Prop :=
  (∀ id va tb, (s.team id).wait ≠ .fault token va tb) ∧ (∀ id, (s.team id).engineWait ≠ some token) ∧
  (∀ e ∈ s.ops, ∀ i, (i, token) ∉ e.2.held) ∧
  (∀ k c va, (s.slot k).wait = .fault token c va → some k = who) ∧ ∀ k f, (s.slot k).wait ≠ .dispatch f token

/-- The bytes of a fault record (R362). -/
def faultBytes (r : FaultRec) (time : W64) : List Byte :=
  toBytes 8 r.va.toNat ++ toBytes 2 r.ctx ++ toBytes 1 r.kind ++ toBytes 1 r.acc ++ toBytes 4 r.token ++
    toBytes 8 r.info.toNat ++ toBytes 8 time.toNat

/-- No store that a thread has buffered goes to a line of a page (R242). -/
def NoStoreTo (s : State) (ctx level va : Nat) : Prop :=
  ∀ k, inPage ctx level va k = true → ∀ e ∈ s.ops, storeMeets [Piece.mk k 0 256 false false none] e.2 = false

/-- No store that a thread has buffered has a piece that begins in a page. -/
def NoStoreFrom (s : State) (ctx level va : Nat) : Prop :=
  ∀ e ∈ s.ops, ∀ ps bs ls, e.2.kind = .slotStore ps bs ls → ∀ q ∈ ps, inPage ctx level va q.key = false

/-- The state of the lodged page of an address. -/
def pageState (s : State) (ctx level va : Nat) : LPage := Tbl.get s.lpages .normal (lodgedPage ctx level va)

/-- Machine t is s but that n bytes of memory from a key on are bs, as a write of the host leaves them. -/
def HostWrote (s t : State) (key : Nat) (bs : List Byte) : Prop :=
  (∀ k, t.byte k = (written [Piece.mk key 0 bs.length false false none] bs k).getD (s.byte k)) ∧ t.teams = s.teams ∧
  t.launches = s.launches

/-- The partition's interface is in a state, or the event changes nothing. -/
def Moves (s : State) (part : Nat) (i : Instr) (a b : Tdisp) : Prop :=
  ((s.part part).tdisp = a → exec i s = .next (s.setPart part { s.part part with tdisp := b })) ∧
  ((s.part part).tdisp ≠ a → exec i s = .next s)

end Sys2Proof.Claims

open Sys2Proof Sys2Proof.Machine Sys2Proof.Claims in
/-- Walks, tokens, shootdowns (R358, R359, R362, R363, R365, R386): a walk that ends in a leaf caches it with A set; a record goes
to its ring and advances FQWR, at once or when a full ring is looked at again; TWAKE acts on the group its token names and
otherwise does nothing; shootdowns drop exactly the matching leaves of the package, with KINV the lines of K pages that the
contexts have read or map; an ATS invalidation drops the host's translation too, and those that no leaf holds. An interface that
has left RUN is refused (R402). The model's choices: a walk ahead that finds no leaf leaves no trace (log 38), which lines a
context's K lines are (log 39), a page in EVICTWAIT keeps its group over a RETRY (log 107), what the host may have changed
(log 108). -/
def Obligations.WalksAndTokens : Prop :=
  (∀ s cl ctx va write ex, let i := Instr.translationWalk cl ctx va write ex
    let a : Acc := if write then .write else if ex then .fetch else .read
    (((s.cluster cl).lookup ctx va.toNat).isSome = true → exec i s = .next s) ∧
    (∀ l s', (s.cluster cl).lookup ctx va.toNat = none →
      s.walkMiss cl (s.cluster cl).part ctx va.toNat 1 a a.code true = (.ok l, s') →
      exec i s = .next s' ∧ l.entry.getLsbD 9 = true ∧ (s'.cluster cl).lookup ctx va.toNat = some l ∧ Holds l ctx va.toNat) ∧
    (∀ x s', (s.cluster cl).lookup ctx va.toNat = none →
      s.walkMiss cl (s.cluster cl).part ctx va.toNat 1 a a.code true = (x, s') → (∀ l, x ≠ .ok l) → exec i s = .next s)) ∧
  (∀ (s : State) cl r e, let w (o n : Nat) := s.readKey (keyHbm (e + o)) n
    let size := 2 ^ w 16 4
    let slot := w 8 8 + 32 * (w 28 4 % size)
    (s.cluster cl).faultOut = [] → s.contextEntry r.part r.ctx = some e → (w 28 4 + 2 ^ 32 - w 24 4) % 2 ^ 32 ≠ size →
    s.stackOut e = false → s.stackOut slot = false → (slot + 32 ≤ e ∨ e + 64 ≤ slot) →
    let t := s.postFault cl r
    t.readKey (keyHbm (e + 28)) 4 = (w 28 4 + 1) % 2 ^ 32 ∧
    (∀ j b, (faultBytes r s.time)[j]? = some b → t.byte (keyHbm (slot + j)) = b) ∧ t.clusters = s.clusters) ∧
  (∀ s p, Asks s p → exec (.faultQueueRecheck p) s = .next (s.recheck p)) ∧
  (∀ s p, (s.part p).stopped = true → ∀ token v, ∀ i ∈ [Instr.faultQueueRecheck p, .twakeRetry p token, .twakeFail p token,
    .twakeLate p token, .twakeDrop p token, .twakeRetryctx p token, .tinvcShootdown p v], exec i s = .next s) ∧
  (∀ (s : State) p cl r e, let w (o n : Nat) := s.readKey (keyHbm (e + o)) n
    let size := 2 ^ w 16 4
    let slot := w 8 8 + 32 * (w 28 4 % size)
    (Tbl.find? s.clusters cl).isSome = true → (s.cluster cl).part = p → (s.cluster cl).faultOut = [r] →
    (∀ c, c ≠ cl → (s.cluster c).part = p → (s.cluster c).faultOut = []) → s.contextEntry r.part r.ctx = some e →
    (w 28 4 + 2 ^ 32 - w 24 4) % 2 ^ 32 ≠ size → s.stackOut e = false → s.stackOut slot = false →
    (slot + 32 ≤ e ∨ e + 64 ≤ slot) → Asks s p →
    ∃ t : State, exec (.faultQueueRecheck p) s = .next t ∧ (t.cluster cl).faultOut = [] ∧
      t.readKey (keyHbm (e + 28)) 4 = (w 28 4 + 1) % 2 ^ 32 ∧
      (∀ j b, (faultBytes r s.time)[j]? = some b → t.byte (keyHbm (slot + j)) = b) ∧
      t.slots = s.slots ∧ t.teams = s.teams ∧ t.ops = s.ops) ∧
  (∀ s p, Asks s p → (∀ cl, (s.cluster cl).part = p → (s.cluster cl).faultOut = []) → ∃ t : State,
    exec (.faultQueueRecheck p) s = .next t ∧ t = { s with clusters := t.clusters } ∧ ∀ cl, t.cluster cl = s.cluster cl) ∧
  (∀ s p token v, let s1 := s.recheck p
    Asks s p → s1.groupOf p token = none → v ∈ [Instr.twakeRetry p token, .twakeFail p token, .twakeLate p token, .twakeDrop p token] →
    exec v s = .next s1) ∧
  (∀ s p token g, let s1 := s.recheck p
    Asks s p → s1.groupOf p token = some g →
    (∀ k c va, (s1.slot k).wait = .fault token c va → OnlyWaits s1 token (some k) →
      (∃ t : State, exec (.twakeRetry p token) s = .next t ∧ t.slot k = { s1.slot k with st := .ready, wait := .none } ∧
        (∀ j, j ≠ k → t.slot j = s1.slot j) ∧
        (s1.evictToken token = false → ∀ cl, ∀ h ∈ (t.cluster cl).replay, h.token ≠ token)) ∧
      (k % 16 ≠ 15 → ∃ t : State, exec (.twakeFail p token) s = .next t ∧ (t.slot k).st = .trapped ∧ (t.slot k).kcause = c ∧
        (t.slot k).ktval = va ∧ (t.slot k).pc = (s1.slot k).pc)) ∧
    (∀ id va tb, (s1.team id).wait = .fault token va tb → (s1.team id).engineWait ≠ some token → (s1.team id).st = .parked → (∀ k f, (s1.slot k).wait ≠ .dispatch f token) →
      ∃ t : State, exec (.twakeRetry p token) s = .next t ∧ t.team id = { s1.team id with st := .ready, wait := .none }) ∧
    (∀ id i, (i, token) ∈ (s1.op id).held → (∀ k f, (s1.slot k).wait ≠ .dispatch f token) →
      ∃ t : State, exec (.twakeRetry p token) s = .next t ∧ i ∈ (t.op id).todo ∧ ∀ u ∈ (t.op id).held, u.2 ≠ token) ∧
    ((∀ l, s1.leafOf p g.ctx (g.page * 0x10000) = some l → leafType l.2.2 ≠ 1) →
      exec (.twakeLate p token) s = exec (.twakeRetry p token) s ∧ exec (.twakeDrop p token) s = exec (.twakeRetry p token) s) ∧
    (∀ level at_ e, s1.leafOf p g.ctx (g.page * 0x10000) = some (level, at_, e) → leafType e = 1 →
      (∀ k f, (s1.slot k).wait ≠ .dispatch f token) → NoStoreTo s1 g.ctx level (g.page * 0x10000) →
      ∃ t : State, exec (.twakeDrop p token) s = .next t ∧
        (∀ k, inPage g.ctx level (g.page * 0x10000) k = true → Tbl.find? t.lines k = none ∧
          ((Tbl.find? s1.lines k).isSome = true → keyBlock 256 k = k → t.byte k = 0))) ∧
    (∀ at_ e frame s2, s1.leafOf p g.ctx (g.page * 0x10000) = some (0, at_, e) → leafType e = 1 →
      pageState s1 g.ctx 0 (g.page * 0x10000) = .normal → s1.takeLateFrame p = some (frame, s2) →
      ∃ t : State, exec (.twakeLate p token) s = .next t ∧
        pageState t g.ctx 0 (g.page * 0x10000) = .writeback frame (leafHome e) ∧
        (t.part p).lfrd = (s1.part p).lfrd + 1)) ∧
  (∀ s p ctx, let s1 := s.recheck p
    Asks s p → ((s1.part p).hasCtx ctx = false → exec (.twakeRetryctx p ctx) s = .next s1) ∧
    ((s1.part p).hasCtx ctx = true → (∀ k f n, (s1.slot k).wait ≠ .dispatch f n) → ∃ t : State,
      exec (.twakeRetryctx p ctx) s = .next t ∧ ∀ cl, ∀ g ∈ (t.cluster cl).replay, g.ctx = ctx →
        g.kind = 0 ∨ s1.evictToken g.token = true)) ∧
  (∀ s p (v : W64), let x := s.part p
    let kind := (v.extractLsb' 12 2).toNat
    let ctx := (v.extractLsb' 0 12).toNat
    let s1 := s.setPart p { x with tinvc := v &&& 0x7FFF }
    Asks s p → (v.getLsbD 63 = true → x.busy = true → exec (.tinvcShootdown p v) s = .next s) ∧
    (v.getLsbD 63 = false → exec (.tinvcShootdown p v) s = .next s1) ∧
    (v.getLsbD 63 = true → x.busy = false → kind = 3 → exec (.tinvcShootdown p v) s = .next s1) ∧
    (v.getLsbD 63 = true → x.busy = false → kind ≠ 3 → ∃ t : State, exec (.tinvcShootdown p v) s = .next t ∧
      (LeavesGone s1 { t with caches := s.caches } fun l => x.hasCtx l.ctx = true ∧
        (kind = 2 → x.ctxlo ≤ l.ctx ∧ l.ctx ≤ x.ctxhi) ∧ (kind = 1 → l.ctx = ctx) ∧ (kind = 0 → Holds l ctx x.tinva.toNat)) ∧
      (v.getLsbD 14 = false → t.caches = s.caches) ∧
      (v.getLsbD 14 = true → ∀ n c, c ∈ Tbl.get t.caches [] n ↔ c ∈ Tbl.get s.caches [] n ∧
        ¬ (c.2.k = true ∧ ∃ h, x.hasCtx h = true ∧ (kind = 2 ∨ h = ctx) ∧ (h ∈ c.2.ctxs ∨ s1.kPageHas p h c.1 = true))))) ∧
  (∀ s p ctx va, ((s.part p).hasCtx ctx = false → exec (.atsInvalidation p ctx va) s = .next s) ∧
    ((s.part p).hasCtx ctx = true → ∃ t : State, exec (.atsInvalidation p ctx va) s = .next t ∧
      LeavesGone { s with parts := t.parts } t (fun l => Holds l ctx va.toNat) ∧
      t.part p = { s.part p with atsMap := (t.part p).atsMap } ∧
      ∀ e, e ∈ (t.part p).atsMap ↔ e ∈ (s.part p).atsMap ∧ e.1 ∉ s.hostPages p ctx va.toNat ∧ t.atsCached p e.1 = true))

open Sys2Proof Sys2Proof.Machine Sys2Proof.Claims in
/-- Lodged pages on the way (R368 to R371): TMIGC sets MRES or makes the page MOVING with the charges that it takes; a page is
forced out where an event makes its lines leave their die, into a late frame when its leaf allows one, or else it waits with a
token; a page in WRITEBACK is done with and its lines are gone, and the leaf of a late frame names that frame and its die; a move
ends with its lines charged on DEST, or as MRES 1 or 4 where the leaf has changed; past the deadline a waiting page is unmapped
and has no line, no cached leaf and no waiting group. The model's choices: the cluster that posts the records (log 37), a
conversion and a migration as two steps (log 69), the group that stays in EVICTWAIT (log 107), a leaf that software changed
meanwhile (log 109). -/
def Obligations.LodgedPages : Prop :=
  (∀ s p (v : W64), let x := s.part p
    let ctx := (v.extractLsb' 0 12).toNat
    let dest := (v.extractLsb' 12 2).toNat
    let y := { x with tmigc := v &&& 0x3FFF }
    let s1 := s.setPart p y
    let va := x.tmiga.toNat
    let i := Instr.tmigcMigrate p v
    let answers (r : BitVec 3) : Prop := ∃ t : State, exec i s = .next t ∧ t = { s with parts := t.parts } ∧
      t.part p = { y with mres := r }
    (x.stopped = true → exec i s = .next s) ∧
    (Asks s p → v.getLsbD 63 = false → exec i s = .next s1) ∧
    (Asks s p → v.getLsbD 63 = true → x.busy = true → exec i s = .next s) ∧
    (Asks s p → v.getLsbD 63 = true → x.busy = false → (x.hasCtx ctx = false ∨ s1.leafOf p ctx va = none) → answers 4) ∧
    (∀ level at_ e, Asks s p → v.getLsbD 63 = true → x.busy = false → x.hasCtx ctx = true →
      s1.leafOf p ctx va = some (level, at_, e) →
      let st := pageState s ctx level va
      let onTheWay := (∃ f h, st = .writeback f h) ∨ ∃ l d h w c, st = .moving l d h w c
      let s2 := s1.settleStores ctx level va
      ((leafType e ≠ 1 ∨ leafHome e = dest) → answers 1) ∧
      (leafType e = 1 → leafHome e ≠ dest → onTheWay → answers 3) ∧
      (NoStoreFrom s ctx level va → s2 = s1) ∧
      (leafType e = 1 → leafHome e ≠ dest → ¬ onTheWay → s2.migration p ctx level va dest = none →
        exec i s = .next (s2.setPart p { s2.part p with mres := 2 })) ∧
      (∀ m, leafType e = 1 → leafHome e ≠ dest → ¬ onTheWay → s2.migration p ctx level va dest = some m →
        ∃ t : State, exec i s = .next t ∧ (t.part p).busy = true ∧ t.lines = s2.lines ∧ t.mem = s2.mem ∧
          ∃ w, pageState t ctx level va = .moving level dest (leafHome e) w (m.map fun a => (a.1, a.2.charge)) ∧
            (NoStoreFrom s ctx level va → (st = .normal → w = none) ∧ ∀ l k h, st = .evictwait l k h → w = some k)))) ∧
  (∀ s ctx va, s.partOf ctx = none → exec (.forcedEviction ctx va) s = .next s ∧ exec (.evictwaitDeadline ctx va) s = .next s) ∧
  (∀ (s : State) ctx va, (pageState s ctx 0 va = .normal → pageState s ctx 1 va = .normal → s.pageOf ctx va = none) ∧
    (pageState s ctx 0 va ≠ .normal → (pageState s ctx 0 va).level = 0 → s.pageOf ctx va = some (0, pageState s ctx 0 va)) ∧
    ∀ level st, s.pageOf ctx va = some (level, st) → pageState s ctx level va = st ∧ st ≠ .normal) ∧
  (∀ s ctx (va : W64) p, s.partOf ctx = some p →
    let i := Instr.forcedEviction ctx va
    let page := s.pageOf ctx va.toNat
    let leaf := s.leafOf p ctx va.toNat
    let woken := ∀ k h n, (s.slot k).wait ≠ .dispatch h n
    let x := s.part p
    (∀ l m token h, page = some (l, .evictwait m token h) → exec i s = .next s) ∧
    (page = none → leaf = none → exec i s = .next s) ∧
    (∀ level at_ e, page = none → leaf = some (level, at_, e) → leafType e ≠ 1 → exec i s = .next s) ∧
    (∀ level at_ e, page = none → leaf = some (level, at_, e) →
      (∀ k ∈ Tbl.keys s.lines, inPage ctx level va.toNat k = true → s.mustLeave p (leafHome e) k = false) → exec i s = .next s) ∧
    (∀ die k, Tbl.get s.hbmStacks 0 (2 * die) ≠ 1 → Tbl.get s.hbmStacks 0 (2 * die + 1) ≠ 1 → Tbl.get s.waysOut 0 die = 0 →
      Tbl.get x.waysLost 0 die = 0 → s.mustLeave p die k = false) ∧
    (∀ level at_ e, page = none → leaf = some (level, at_, e) → leafType e = 1 →
      (∃ k ∈ Tbl.keys s.lines, inPage ctx level va.toNat k = true ∧ s.mustLeave p (leafHome e) k = true) →
      let late := level = 0 ∧ e.testBit 15 = true
      (∀ f s1, late → s.takeLateFrame p = some (f, s1) → NoStoreFrom s ctx level va.toNat → ∃ t : State, exec i s = .next t ∧
        pageState t ctx level va.toNat = .writeback f (leafHome e) ∧ t.lines = s.lines ∧ t.mem = s.mem ∧
        (t.part p).lfrd = x.lfrd + 1) ∧
      ((¬ late ∨ s.takeLateFrame p = none) → pageState s ctx level va.toNat = .normal →
        ∃ (t : State) (token : Nat), exec i s = .next t ∧
        pageState t ctx level va.toNat = .evictwait level token (leafHome e) ∧ t.lines = s.lines ∧
        ∃ g ∈ (t.cluster (s.recordCluster p)).replay, g.token = token ∧ g.kind = 5 ∧ g.ctx = ctx)) ∧
    (∀ f h, page = some (0, .writeback f h) → woken → ∃ t : State, exec i s = .next t ∧
      pageState t ctx 0 va.toNat = .normal ∧
      (∀ at_ e, leaf = some (0, at_, e) → leafType e = 1 → NoStoreTo s ctx 0 va.toNat →
        ∀ k, inPage ctx 0 va.toNat k = true → Tbl.find? t.lines k = none) ∧
      ((∀ at_ e, leaf = some (0, at_, e) → leafType e ≠ 1) → t.lines = s.lines ∧ t.mem = s.mem)) ∧
    (∀ level dest home was (cs : List (Nat × Option Nat)), page = some (level, .moving level dest home was cs) → woken →
      ∃ t : State, exec i s = .next t ∧ (t.part p).busy = false ∧
        (∀ at_ e, leaf = some (level, at_, e) → leafType e = 1 → leafHome e = home → (t.part p).mres = 0 ∧
          pageState t ctx level va.toNat = .normal ∧
          (∀ k, k ∉ cs.map Prod.fst → Tbl.find? t.lines k = Tbl.find? s.lines k) ∧
          ((cs.map Prod.fst).Nodup → ∀ k c, (k, c) ∈ cs → (Tbl.find? s.lines k).isSome = true →
            Tbl.find? t.lines k = some (Line.mk dest c))) ∧
        ((∀ at_ e, leaf = some (level, at_, e) → leafType e = 1 → leafHome e ≠ home) → t.lines = s.lines ∧ t.mem = s.mem ∧
          (t.part p).mres = (if leaf = none then 4 else 1) ∧
          (was = none → pageState t ctx level va.toNat = .normal) ∧
          ∀ token, was = some token → pageState t ctx level va.toNat = .evictwait level token home)) ∧
    (∀ e frame, e < 2 ^ 64 → leafType e = 1 → leafHome e < 4 → e / 2 ^ 16 % 2 ^ 40 = 0 → frame % 0x10000 = 0 →
      frame < 4 * Config.dieBytes → let n := lateLeaf e frame
      leafType n = 0 ∧ leafHome n = frame / Config.dieBytes ∧ n.testBit 15 = false ∧ n / 2 ^ 16 % 2 ^ 40 * 0x10000 = frame ∧
      ∀ b, b < 64 → ¬ (2 ≤ b ∧ b ≤ 4) → ¬ (11 ≤ b ∧ b ≤ 12) → ¬ (15 ≤ b ∧ b ≤ 55) → n.testBit b = e.testBit b) ∧
    ((∀ l m token h, page ≠ some (l, .evictwait m token h)) → exec (.evictwaitDeadline ctx va) s = .next s) ∧
    (∀ level token h, page = some (level, .evictwait level token h) →
      let early := x.hdrain = 1 ∧ x.hdie = h ∧ s.time.toNat < x.hddl.toNat
      (early → exec (.evictwaitDeadline ctx va) s = .next s) ∧
      (¬ early → OnlyWaits s token none → (s.setPage ctx level va.toNat .normal).evictToken token = false →
        NoStoreTo s ctx level va.toNat → ∃ t : State, exec (.evictwaitDeadline ctx va) s = .next t ∧
        pageState t ctx level va.toNat = .normal ∧ (∀ k, inPage ctx level va.toNat k = true → Tbl.find? t.lines k = none) ∧
        (∀ cl, ∀ g ∈ (t.cluster cl).replay, g.token ≠ token) ∧ (∀ cl, ∀ l ∈ (t.cluster cl).tlb, ¬ Holds l ctx va.toNat) ∧
        (∀ at_ e, leaf = some (level, at_, e) → leafType e = 1 → (s.cluster (s.recordCluster p)).faultOut ≠ [] →
          t.readKey (keyHbm at_) 8 = e - e % 4))))

open Sys2Proof Sys2Proof.Machine Sys2Proof.Claims in
/-- Host and peers (R385 to R388, R393 to R398, R402): doors and HDM reach local store and the partition's HBM, and a read or
write that has no place answers ones or is discarded; such accesses wait while the host is away; peers read, write and make
atomics inside the range and are refused outside it; attach and detach set their state and claims; LEND drains or kills a launch
that it names (also one that still waits: log 73); a lost acknowledgement makes the access unresolvable. That the report of a
refused request holds no bytes is the model's form (log 77). -/
def Obligations.HostAndPeers : Prop :=
  ∀ s p, let x := s.part p
  let here := x.attach = 2 ∧ s.hxHeld = []
  let away (peer : Option Nat) := x.attach ≠ 2 ∨ ∃ h ∈ s.hxHeld, h.part = p ∧ h.peer = peer
  let since := if x.attach = 2 then s.time.toNat else x.detachedAt
  (exec (.hostLinkDown p) s = .next (s.setPart p { x with attach := 0, claims := [], detachedAt := since })) ∧
  (Asks s p → exec (.attachBegin p) s = .next (s.setPart p { x with attach := 1, claims := [], detachedAt := since })) ∧
  (∀ v, Asks s p → (x.attach ≠ 1 → exec (.attachClaim p v) s = .next s) ∧ (x.attach = 1 → exec (.attachClaim p v) s =
    .next (s.setPart p { x with claims := x.claims ++
      [(v.getLsbD 15, (v.extractLsb' 0 6).toNat, (v.extractLsb' 16 16).toNat)] }))) ∧
  (Asks s p → (x.attach ≠ 1 → exec (.attachCommit p) s = .next s) ∧
    (x.attach = 1 → exec (.attachCommit p) s = .next (s.commit p x.claims))) ∧
  (x.stopped = true → ∀ v d w q n op off bs, ∀ i ∈ [Instr.attachBegin p, .attachClaim p v, .attachCommit p,
    .hostDoorAccess p d off w bs, .hostHdmAccess p off w bs, .peerRequest p q off op bs, .lendDrain p n, .lendKill p n],
    exec i s = .next s) ∧
  ((x.attach = 2 ∨ s.time.toNat - x.detachedAt < 30000000000) → exec (.reattachTimeout p) s = .next s) ∧
  (x.attach ≠ 2 → 30000000000 ≤ s.time.toNat - x.detachedAt → exec (.reattachTimeout p) s = .next (s.commit p [])) ∧
  (∀ claims, (∀ q, q < 64 → (s.queue q).part = p → (false, q, (s.queue q).gen) ∈ claims) →
    (∀ i, i < 8 → (true, i, (Tbl.get x.svcs {} i).gen) ∈ claims) → (∀ k f n, (s.slot k).wait ≠ .dispatch f n) →
    let t := s.commit p claims
    (s.hxHeld = [] → t.queues = s.queues ∧ t.launches = s.launches ∧ t.mem = s.mem ∧ t.hxHeld = [] ∧
      t.part p = { x with attach := 2, claims := [] } ∧
      (∀ v, (p, v) ∈ s.msixHeld → (p, v) ∈ t.msix ∧ (p, v) ∉ t.msixHeld)) ∧
    (∀ a bs, s.hxHeld = [HxReq.mk p none (.range a) .write bs] → x.hbmLo + a + bs.length ≤ x.hbmHi →
      s.stackOut (x.hbmLo + a) = false → s.stackOut (x.hbmLo + a + bs.length - 1) = false → t.hxHeld = [] ∧
      ∀ k, t.byte k = (written [Piece.mk (keyHbm (x.hbmLo + a)) 0 bs.length false false none] bs k).getD (s.byte k))) ∧
  (∀ q, (∀ n ∈ Tbl.keys s.launches, (s.launch n).queue ≠ q) → 
    (s.resetQueue p q).queue q = { s.queue q with en := false, st := 0, err := 0, rd := (s.queue q).wr, gen := ((s.queue q).gen + 1) % 65536 }) ∧
  (∀ d off w bs, Asks s p → away none → exec (.hostDoorAccess p d off w bs) s = .next { s with hxHeld := s.hxHeld ++
    [HxReq.mk p none (.door d off) (if w then .write else .read) bs] }) ∧
  (∀ a w bs, Asks s p → away none → exec (.hostHdmAccess p a w bs) s = .next { s with hxHeld := s.hxHeld ++
    [HxReq.mk p none (.range a) (if w then .write else .read) bs] }) ∧
  (∀ d off bs, Asks s p → here →
    (s.doorKey p d off bs.length = none →
      exec (.hostDoorAccess p d off true bs) s = .next s ∧ exec (.hostDoorAccess p d off false bs) s =
        .next { s with answers := s.answers ++ [(p, List.replicate bs.length 0xFF)] }) ∧
    (∀ k, s.doorKey p d off bs.length = some k →
      (∃ t : State, exec (.hostDoorAccess p d off true bs) s = .next t ∧ HostWrote s t k bs ∧
        (0x10000000 ≤ off → ∀ j, j < bs.length → t.isFull (keyAdd k j) = true)) ∧
      exec (.hostDoorAccess p d off false bs) s =
        .next { s with answers := s.answers ++ [(p, s.seenBytes pathHX k bs.length)] })) ∧
  (∀ d off n, ((Tbl.get x.doors {} d).en = false ∨ (∀ l ∈ s.launches, l.2.part = p → l.2.st = .resident →
    ¬ (l.2.ctx = (Tbl.get x.doors {} d).ctx ∧ l.2.number = (Tbl.get x.doors {} d).lnum))) → s.doorKey p d off n = none) ∧
  (∀ a bs q op, Asks s p → x.hbmHi < x.hbmLo + a + bs.length →
    exec (.peerRequest p q a op bs) s = .next { s with reports := s.reports ++ [(q, [])] }) ∧
  (∀ a bs q op, Asks s p → x.hbmLo + a + bs.length ≤ x.hbmHi → away (some q) →
    exec (.peerRequest p q a op bs) s = .next { s with hxHeld := s.hxHeld ++ [HxReq.mk p (some q) (.range a) op bs] }) ∧
  (∀ a bs q, Asks s p → here → let k := keyHbm (x.hbmLo + a)
    s.stackOut (x.hbmLo + a) = false → s.stackOut (x.hbmLo + a + bs.length - 1) = false →
    (x.hbmHi < x.hbmLo + a + bs.length → ∀ w, exec (.hostHdmAccess p a w bs) s = .next s) ∧
    (x.hbmLo + a + bs.length ≤ x.hbmHi →
      (∀ i ∈ [Instr.hostHdmAccess p a true bs, .peerRequest p q a .write bs],
        ∃ t : State, exec i s = .next t ∧ HostWrote s t k bs) ∧
      (∀ i ∈ [Instr.hostHdmAccess p a false bs, .peerRequest p q a .read bs],
        exec i s = .next { s with answers := s.answers ++ [(p, s.seenBytes pathHX k bs.length)] }) ∧
      ∀ code, ∃ t : State, exec (.peerRequest p q a (.atomic code) bs) s = .next t ∧
        t.answers = s.answers ++ [(p, s.seenBytes pathHX k bs.length)] ∧
        HostWrote s t k (toBytes bs.length (atomNew code (8 * bs.length) (ofBytes (s.seenBytes pathHX k bs.length)) (ofBytes bs))))) ∧
  (∀ a bs, ∃ t : State, exec (.cxlCacheSnoop a bs) s = .next t ∧
    (∀ j b, bs[j]? = some b → t.byte (keyHost (a + j)) = b ∧ ∀ n, t.copy? n (keyHost (a + j)) = none)) ∧
  (∀ n, Asks s p → s.lendable p n = false → exec (.lendDrain p n) s = .next s ∧ exec (.lendKill p n) s = .next s) ∧
  (∀ n, Asks s p → s.lendable p n = true → (s.launch n).st = .resident → let l := s.launch n
    (exec (.lendDrain p n) s = .next ((s.setLaunch n { l with draining := true }).drainOn l.grid)) ∧
    (exec (.lendKill p n) s = .next (s.killLaunch n 0xFFFC))) ∧
  (∀ n made s2, Asks s p → s.lendable p n = true → (s.launch n).st = .waiting →
    let l := s.launch n
    let s1 := (s.setQueue l.queue { s.queue l.queue with head := none }).setLaunch n { l with st := .closing }
    s1.writeDone n (l.endWord 0 0xFFFC) = (made, s2) →
    ∀ i ∈ [Instr.lendDrain p n, .lendKill p n], ∃ t : State, exec i s = .next t ∧ (s1.queue l.queue).head = none ∧
      (made = true → (t.launch n).st = .ended) ∧ (made = false → t = s2)) ∧
  (∀ op u t us m uni d, (s.op op).party = .team t → (s.op op).kind = .mem m uni d us →
    (exec (.peerAckTimeout (.op op) u) s =
      .next (if (s.op op).pending.contains u = true ∧ s.onUalink (s.team t) (us.getD u unit0).addr.toNat = true then
        ({ s with ras := s.ras ++ [(.link, op)] } : State).deferError op u 0x0E else s))) ∧
  (∀ op u t src dst bytes rows sp dp sl dl bar a b n, (s.op op).party = .team t →
    (s.op op).kind = .copy src dst bytes rows sp dp sl dl bar →
    (copyPieces src.toNat dst.toNat bytes rows sp dp)[u]? = some (a, b, n) →
    let lost (at_ : Nat) := ({ s with ras := s.ras ++ [(.link, op)] } : State).failCopy op u at_
    ((s.op op).pending.contains u = true → s.onUalink (s.team t) a = true →
      exec (.peerAckTimeout (.op op) u) s = .next (lost a)) ∧
    ((s.op op).pending.contains u = true → s.onUalink (s.team t) a = false → s.onUalink (s.team t) b = true →
      exec (.peerAckTimeout (.op op) u) s = .next (lost b)) ∧
    (s.onUalink (s.team t) a = false → s.onUalink (s.team t) b = false → exec (.peerAckTimeout (.op op) u) s = .next s)) ∧
  (∀ k u, ∃ t : State, exec (.peerAckTimeout (.slot k) u) s = .next t ∧ t = { s with slots := t.slots } ∧
    t.slot k = { s.slot k with unacked := true } ∧ ∀ j, j ≠ k → t.slot j = s.slot j)

namespace Sys2Proof.Claims

open Machine

/-! ## Interfaces, power, errors, bring-up (R399 to R417) -/

/-- What stands after the interface of a partition left RUN (R401). -/
def LeftRun (s t : State) (p : Nat) : Prop :=
  (t.part p).tdisp = .error ∧ (t.part p).stopped = true ∧
  (∀ q, q < 64 → (s.queue q).part = p → t.queue q = { s.queue q with st := 2, err := 3 }) ∧
  (∀ k, (s.cluster (k / 256)).part = p → (t.slot k).st = .free ∨ (t.slot k).st = .parked) ∧
  (∀ id tm, Tbl.find? t.teams id = some tm → (t.launch tm.launch).part = p →
    tm.st ≠ .clauseWait ∧ ¬ (tm.st = .ready ∧ tm.clause = none ∧ tm.rep = none)) ∧
  (∀ n l, Tbl.find? t.launches n = some l → l.part = p → l.st = .ended) ∧
  ∀ id o, (id, o) ∈ s.ops → s.opIn p o = true → o.kind.abortable = true → Tbl.find? t.ops id = none ∧ id ∈ t.aborted

/-- The event gives the owner an answer, and changes one thing of the partition. -/
def Replies (s : State) (i : Instr) (p : Nat) (x : Part) (r : Reply) : Prop :=
  exec i s = .next { s.setPart p x with replies := s.replies ++ [r] }

/-- The source that R406 names for the largest request. -/
def CauseIs (c : Cluster) (cause : Nat) : Prop :=
  let m := max (max c.reqThermal c.reqCap) (max c.reqRamp c.reqFw)
  (m = 0 → cause = 0) ∧
  (m ≠ 0 → (c.reqThermal = m → cause = 3) ∧ (c.reqThermal ≠ m → c.reqCap = m → cause = 1) ∧
    (c.reqThermal ≠ m → c.reqCap ≠ m → c.reqRamp = m → cause = 2) ∧
    (c.reqThermal ≠ m → c.reqCap ≠ m → c.reqRamp ≠ m → cause = 4))

/-- The requests of a cluster but for the one that changed are as they were. -/
def SameRequests (c d : Cluster) : Prop :=
  d = { c with reqCap := d.reqCap, reqThermal := d.reqThermal, reqFw := d.reqFw, reqRamp := d.reqRamp, reqAt := d.reqAt } ∧
  d.reqRamp = c.reqRamp ∧ d.reqFw = c.reqFw

end Sys2Proof.Claims

open Sys2Proof Sys2Proof.Machine Sys2Proof.Claims in
/-- Interfaces and sessions (R399 to R403): LOCK, with the report of what the partition is assigned, and START advance the state;
leaving RUN puts the queues in ERROR with code 3, stops every slot and every team at its boundary, completes the asynchronous
operations with SECURITY_ABORT and ends every launch; CONFIG_UNLOCKED is entered with everything zeroed but what firmware has
assigned; the session answers its requests in order. The forms of the answers and of what they hold, one digest for each die and
one for the configuration among them, are the model's (log 79). -/
def Obligations.InterfacesAndSessions : Prop :=
  ∀ s p, let x := s.part p
  let reply (code : Nat) : Reply := { part := p, code := code }
  Moves s p (.startInterface p) .locked .run ∧
  (x.tdisp ≠ .unlocked → exec (.lockInterface p) s = .next s) ∧
  (x.tdisp = .unlocked → ∃ r : IfReport, Replies s (.lockInterface p) p { x with tdisp := .locked }
      { part := p, code := 7, report := some r } ∧
    (∀ cl, cl ∈ r.clusters ↔ cl ∈ s.enabled ∧ (s.cluster cl).part = p) ∧ (∀ q, q ∈ r.queues ↔ q < 64 ∧ (s.queue q).part = p) ∧
    r.ctxlo = x.ctxlo ∧ r.ctxhi = x.ctxhi ∧ r.hbmLo = x.hbmLo ∧ r.hbmHi = x.hbmHi ∧ r.ways = x.ways ∧ r.lquota = x.lquota) ∧
  (x.tdisp ≠ .run → exec (.stopInterface p) s = .next { s with replies := s.replies ++ [reply 8] } ∧
    exec (.ideIntegrityFailure p) s = .next s) ∧
  (x.tdisp = .run → ∀ i ∈ [Instr.stopInterface p, .ideIntegrityFailure p], ∃ t : State, exec i s = .next t ∧ LeftRun s t p) ∧
  (∀ i, let ended := s.setPart p { x with session := .none }
    ((i = .sessionEnd p ∧ x.session ≠ .none) ∨ (i = .keyUpdate p false ∧ x.session ≠ .none) ∨
      (i = .sessionExpiry p ∧ x.session = .established ∧ x.beatPeriod ≠ 0 ∧ x.beatAt + 2 * x.beatPeriod ≤ s.time.toNat)) →
    exec i s = exec (.ideIntegrityFailure p) ended) ∧
  (x.session = .none → ∀ ok, exec (.sessionEnd p) s = .next s ∧ exec (.keyUpdate p ok) s = .next s) ∧
  ((x.session ≠ .established ∨ x.beatPeriod = 0 ∨ s.time.toNat < x.beatAt + 2 * x.beatPeriod) →
    exec (.sessionExpiry p) s = .next s) ∧
  (∃ ds : List Nat, exec (.getMeasurements p) s = .next { s with replies := s.replies ++ [{ part := p, code := 1, digests := ds }] } ∧
    ds.length = s.dies + 1 ∧ ds[s.dies]? = some (Config.configDigest (s.interfaceReport p).words) ∧
    ∀ d, d < s.dies → let w := Tbl.get s.stewards {} d
      ds[d]? = some (Tbl.get w.digests 0 w.active)) ∧
  (∀ period, (x.session = .none →
      Replies s (.keyExchange ⟨p, period⟩) p { x with session := .exchanged, beatPeriod := period } (reply 2)) ∧
    (x.session ≠ .none → exec (.keyExchange ⟨p, period⟩) s = .next s)) ∧
  (x.session = .exchanged → Replies s (.finish p) p { x with session := .established, beatAt := s.time.toNat } (reply 3)) ∧
  (x.session ≠ .exchanged → exec (.finish p) s = .next s) ∧
  (x.session = .established → Replies s (.heartbeat p) p { x with beatAt := s.time.toNat } (reply 4)) ∧
  (x.session ≠ .established → exec (.heartbeat p) s = .next s) ∧
  (x.session ≠ .none → exec (.keyUpdate p true) s = .next { s with replies := s.replies ++ [reply 5] }) ∧
  ((x.tdisp = .unlocked ∨ x.tdisp = .run) → exec (.configUnlock p) s = .next s) ∧
  ((x.tdisp = .locked ∨ x.tdisp = .error) → ∃ t : State, exec (.configUnlock p) s = .next t ∧
    (t.part p).tdisp = .unlocked ∧ (t.part p).stopped = false ∧
    (t.part p).ctxbase = 0 ∧ (t.part p).atsMap = [] ∧ (t.part p).owner = 0 ∧ (t.part p).svcs = [] ∧ (t.part p).doors = [] ∧
    (t.part p).penrg = x.penrg ∧ (t.part p).hbmLo = x.hbmLo ∧ (t.part p).hbmHi = x.hbmHi ∧
    (∀ n l k, (n, l) ∈ s.launches → l.part = p → keyKind k = 1 → keyPlace k / 0x10000000 = n → t.byte k = 0 ∧ t.isFull k = false) ∧
    (∀ cl c k, (cl, c) ∈ s.clusters → c.part = p → keyKind k = 1 → keyPlace k / 0x10000000 = keeperLaunch cl →
      t.byte k = 0 ∧ t.isFull k = false) ∧
    (∀ k, keyKind k = 0 → x.hbmLo ≤ keyPlace k → keyPlace k < x.hbmHi → t.byte k = 0) ∧
    (∀ k, keyKind k = 2 → x.hasCtx (keyPlace k / 2 ^ 57) = true → t.byte k = 0 ∧ Tbl.find? t.lines k = none) ∧
    (∀ k, (s.cluster (k / 256)).part = p → Tbl.find? t.slots k = none) ∧
    (∀ cl, (s.cluster cl).part = p → Tbl.find? s.clusters cl ≠ none → (t.cluster cl).ctx = [] ∧ (t.cluster cl).bank = [] ∧
      (t.cluster cl).loft = [] ∧ (t.cluster cl).tlb = [] ∧ (t.cluster cl).replay = [] ∧ (t.cluster cl).waymark = []) ∧
    (∀ q, q < 64 → (s.queue q).part = p → (s.queue q).err = 3 → t.queue q =
      { s.queue q with en := false, st := 0, err := 0, rd := (s.queue q).wr, head := none }))

open Sys2Proof Sys2Proof.Machine Sys2Proof.Claims in
/-- Power, throttle and clock, and energy (R9, R404 to R409): the cap request of every cluster rises and falls by one step, the
first time at once (log 90); the clamp halves the clock and gives firmware's setting back; MTHR takes the largest request as STEP,
its source as CAUSE, and counts changes of STEP; an array's energy goes to the holder of the grant, that of work to its launch
while it is resident, static energy to the launches of the cluster by their LSSZ, and what no launch has to the partition; what a
launch is charged is in its partition's PENRG too (log 89). -/
def Obligations.PowerAndEnergy : Prop :=
  ∀ s : State,
  (∀ pwr, let due := s.power.raisedAt = 0 ∨ s.power.raisedAt + 10000 ≤ s.time.toNat + 1
    (¬ (s.power.pcap < pwr ∧ due) → exec (.capRequestRaise pwr) s = .next s) ∧
    (s.power.pcap < pwr → due → s.enabled.Nodup → ∃ t : State, exec (.capRequestRaise pwr) s = .next t ∧
      t = { s with clusters := t.clusters, power := { s.power with raisedAt := s.time.toNat + 1 } } ∧
      ∀ cl, SameRequests (s.cluster cl) (t.cluster cl) ∧ (t.cluster cl).reqThermal = (s.cluster cl).reqThermal ∧
        (t.cluster cl).reqCap = if cl ∈ s.enabled then min 7 ((s.cluster cl).reqCap + 1) else (s.cluster cl).reqCap)) ∧
  (∀ pwr, let due := s.power.loweredAt = 0 ∨ s.power.loweredAt + 100000 ≤ s.time.toNat + 1
    let w := { s.power with pwr := pwr % 65536 }
    (¬ (100 * pwr < 95 * s.power.pcap ∧ due) → exec (.capRequestLower pwr) s = .next { s with power := w }) ∧
    (100 * pwr < 95 * s.power.pcap → due → s.enabled.Nodup → ∃ t : State, exec (.capRequestLower pwr) s = .next t ∧
      t = { s with clusters := t.clusters, power := { w with loweredAt := s.time.toNat + 1 } } ∧
      ∀ cl, SameRequests (s.cluster cl) (t.cluster cl) ∧ (t.cluster cl).reqThermal = (s.cluster cl).reqThermal ∧
        (t.cluster cl).reqCap = (s.cluster cl).reqCap - if cl ∈ s.enabled then 1 else 0)) ∧
  (∀ die hot, ∃ t : State, exec (.thermalLimit die hot) s = .next t ∧ t = { s with clusters := t.clusters } ∧
    ∀ cl, SameRequests (s.cluster cl) (t.cluster cl) ∧ (t.cluster cl).reqCap = (s.cluster cl).reqCap ∧
      (t.cluster cl).reqThermal = if cl ∈ s.enabled ∧ cl / 64 = die then (if hot then 7 else 0) else (s.cluster cl).reqThermal) ∧
  (∀ die, exec (.thermalTrip die) s = .next (if die ∈ s.tripped then s else { s with tripped := s.tripped ++ [die] })) ∧
  (∀ cl, let c := s.cluster cl
    (s.clock cl / 8 ≤ c.reqAt / 8 → exec (.throttleStepChange cl) s = .next s) ∧
    (c.reqAt / 8 < s.clock cl / 8 → c.reqThermal < 8 → c.reqCap < 8 → c.reqRamp < 8 → c.reqFw < 8 →
      ∃ m : W32, exec (.throttleStepChange cl) s = .next (s.setCluster cl { c with mthr := m }) ∧
        (m.extractLsb' 0 3).toNat = max (max c.reqThermal c.reqCap) (max c.reqRamp c.reqFw) ∧
        CauseIs c (m.extractLsb' 10 3).toNat ∧ m.extractLsb' 8 2 = c.mthr.extractLsb' 8 2 ∧
        m.extractLsb' 16 16 = c.mthr.extractLsb' 16 16 + if m.extractLsb' 0 3 = c.mthr.extractLsb' 0 3 then 0 else 1)) ∧
  (∀ pwr, ∃ t : State, exec (.clockClamp pwr) s = .next t ∧
    t.power = { s.power with pwr := pwr % 65536, clamped := if s.power.most < pwr then true else
      if pwr < s.power.most - 100 then false else s.power.clamped } ∧
    ∀ cl, (t.cluster cl).fwMhz = (s.cluster cl).fwMhz ∧ (t.clock cl = s.clock cl) ∧ (s.enabled.contains cl = true →
      (s.power.most < pwr → s.power.clamped = false → (t.cluster cl).mhz = (s.cluster cl).fwMhz / 2) ∧
      (pwr < s.power.most - 100 → ¬ s.power.most < pwr → s.power.clamped = true → (t.cluster cl).mhz = (s.cluster cl).fwMhz))) ∧
  (∀ cl mhz, ∃ t : State, exec (.firmwareClockChange cl mhz) s = .next t ∧ (t.cluster cl).fwMhz = min 3000 mhz ∧
    (t.cluster cl).mhz = (if s.power.clamped then min 3000 mhz / 2 else min 3000 mhz) ∧ t.clock cl = s.clock cl ∧
    ∀ j, j ≠ cl → t.cluster j = s.cluster j) ∧
  (∀ cl scale, exec (.energyRescale cl scale) s = .next (s.setCluster cl { s.cluster cl with energyScale := scale })) ∧
  (∀ cl uj, let e := BitVec.ofNat 64 (uj * (s.cluster cl).energyScale / 1000)
    let q := (s.cluster cl).part
    (∀ u ∈ [Energy.work none uj, .array uj, .static uj], (u = .array uj → (s.cluster cl).grant = none) →
      (u = .static uj → (s.cluster cl).ctx = []) →
      exec (.energyUpdate cl [u]) s = .next (s.setPart q { s.part q with penrg := (s.part q).penrg + e })) ∧
    (∀ n l (array : Bool), Tbl.find? s.launches n = some l → l.st = .resident → (array = true → (s.cluster cl).grant = some n) →
      ∃ t : State, exec (.energyUpdate cl [if array then .array uj else .work (some n) uj]) s = .next t ∧
        (t.launch n).energy = l.energy + e ∧
        (∀ j, Tbl.get (t.launch n).shares 0 j = Tbl.get l.shares 0 j + if j = cl then e else 0) ∧
        (∀ j, Tbl.get (t.launch n).arrayShares 0 j = Tbl.get l.arrayShares 0 j + if j = cl ∧ array then e else 0) ∧
        (t.part l.part).penrg = (s.part l.part).penrg + e) ∧
    (∀ n l, Tbl.find? s.launches n = some l → l.st ≠ .resident → ∃ t : State,
      exec (.energyUpdate cl [.work (some n) uj]) s = .next t ∧ t.launches = s.launches) ∧
    (∀ a b n m l k, (s.cluster cl).ctx = [(a, n), (b, m)] → n ≠ m → Tbl.find? s.launches n = some l →
      Tbl.find? s.launches m = some k → l.st = .resident → k.st = .resident → 0 < l.lsBytes + k.lsBytes →
      let u := uj * (s.cluster cl).energyScale / 1000
      ∃ t : State, exec (.energyUpdate cl [.static uj]) s = .next t ∧
        (t.launch n).energy = l.energy + BitVec.ofNat 64 (u * l.lsBytes / (l.lsBytes + k.lsBytes)) ∧
        (t.launch m).energy = k.energy + BitVec.ofNat 64 (u * k.lsBytes / (l.lsBytes + k.lsBytes))))

open Sys2Proof Sys2Proof.Machine Sys2Proof.Claims in
/-- Errors, spares, drains, firmware, reset, checkpoints (R372, R410 to R417): a corrected error in storage leaves only a RAS
record; an uncorrectable one poisons what it hit, ends a team with 0xFFFB or traps a thread with cause 27; an entry of a table with
a parity error is dropped; the patrol's find invalidates Waymark entries and posts a record; a retired cluster moves to a spare of
its die, less the records, teams and threads that cannot be read; a link dies with its last spare lane; a reset keeps the package
what it is, X4, X4N or X2, less what fails; a drained stack goes OFFLINE, RETURNING, and back; firmware activates what is signed and
new enough; a checkpoint waits until all is quiet. The model's choices: what an error event names, kinds 6 and 7 of a key, and the
cluster that detects it (log 84), one event for a cluster's move and what cannot be read there (log 87), what a reset keeps and when
a package cannot be presented (log 88), the inactive slot written also by an image that fails (log 93), the stages of a checkpoint
(log 55), the numbers of links and their spare lanes (log 117). -/
def Obligations.ErrorsAndBringUp : Prop :=
  ∀ s : State,
  (∀ cl a c, exec (.eccError ⟨cl, .storage a⟩ true) s = .next { s with ras := s.ras ++ [(.ecc, a)] } ∧
    exec (.eccError ⟨cl, .l2 a⟩ true) s = .next { s with ras := s.ras ++ [(.ecc, keyHbm a)] } ∧
    exec (.eccError ⟨cl, .cached c a⟩ true) s = .next { s with ras := s.ras ++ [(.ecc, a)] } ∧
    exec (.eccError ⟨cl, .link a⟩ true) s = .next { s with ras := s.ras ++ [(.ecc, a)] }) ∧
  (∀ cl c n ok, exec (.eccError ⟨cl, .leaf c n⟩ ok) s =
      .next (({ s with ras := s.ras ++ [(.ecc, c)] } : State).modCluster c fun x => { x with tlb := x.tlb.eraseIdx n }) ∧
    exec (.eccError ⟨cl, .waymark c n⟩ ok) s =
      .next (({ s with ras := s.ras ++ [(.ecc, c)] } : State).modCluster c fun x => { x with waymark := Tbl.erase x.waymark n }) ∧
    exec (.eccError ⟨cl, .replay n⟩ ok) s = .next (({ s with ras := s.ras ++ [(.ecc, n)] } : State).retryToken n)) ∧
  (∀ cl a, ∃ t : State, exec (.eccError ⟨cl, .l2 a⟩ false) s = .next t ∧
    t = { s with poison := t.poison, ras := s.ras ++ [(.ecc, keyHbm a)] } ∧
    ∀ j, j < 8 → t.isPoisoned (keyHbm (a / 256 * 256 + 32 * j)) = true) ∧
  (∀ cl n k, ∃ t : State, exec (.eccError ⟨cl, .cached n k⟩ false) s = .next t ∧
    t = { s with caches := t.caches, ras := s.ras ++ [(.ecc, k)] } ∧
    ∀ m j, t.copy? m j = if m = n ∧ keyBlock 256 j = keyBlock 256 k then none else s.copy? m j) ∧
  (∀ cl n, n ≠ hostLink → exec (.eccError ⟨cl, .link n⟩ false) s =
    .next { s with ras := s.ras ++ [(.ecc, n)], deadLinks := n :: s.deadLinks }) ∧
  (∀ cl, ∃ t : State, exec (.eccError ⟨cl, .link hostLink⟩ false) s = .next t ∧ t.linkUp hostLink = false ∧
    ∀ p, Tbl.find? s.parts p ≠ none → (t.part p).attach = 0) ∧
  (∀ cl a, (keyKind a = 0 ∨ keyKind a = 1) → ∃ t : State, exec (.eccError ⟨cl, .storage a⟩ false) s = .next t ∧ t.isPoisoned a = true ∧
    t = { s with poison := t.poison, ras := s.ras ++ [(.ecc, a)] }) ∧
  (∀ cl a, keyKind a = 2 → Tbl.find? s.lines (keyBlock 256 a) = none →
    exec (.eccError ⟨cl, .storage a⟩ false) s = .next { s with ras := s.ras ++ [(.ecc, a)] }) ∧
  (∀ cl a, keyKind a = 2 → Tbl.find? s.lines (keyBlock 256 a) ≠ none → ∃ t : State, exec (.eccError ⟨cl, .storage a⟩ false) s = .next t ∧
    t.isPoisoned (keyBlock 256 a) = true ∧ t.lines = s.lines ∧ ∀ c, c ≠ cl → (t.cluster c).poisonQ = (s.cluster c).poisonQ) ∧
  (∀ cl a, keyKind a = 6 → let k := keyPlace a
    let s1 : State := { s with ras := s.ras ++ [(.ecc, a)] }
    ((s.slot k).st ∈ [.free, .trapped] → exec (.eccError ⟨cl, .storage a⟩ false) s = .next s1) ∧
    ((s.slot k).st ∉ [.free, .trapped] → exec (.eccError ⟨cl, .storage a⟩ false) s = .next (s1.keeperTrap k 27 0))) ∧
  (∀ cl a tm, keyKind a = 7 → Tbl.find? s.teams (keyPlace a) = some tm → tm.st ∉ [.retiring, .retired] →
    exec (.eccError ⟨cl, .storage a⟩ false) s =
      .next (({ s with ras := s.ras ++ [(.ecc, a)] } : State).killTeam (keyPlace a) 0xFFFB)) ∧
  (∀ e, exec (.patrolScrub e false) s = .next s) ∧
  (∀ cl a, keyKind a = 0 → let place := keyPlace a
    ∃ t : State, exec (.patrolScrub ⟨cl, .storage a⟩ true) s = .next t ∧ t.isPoisoned a = true ∧ t.mem = s.mem ∧
    t.ras = s.ras ++ [(.poison, place / 256 * 256)] ∧
    ((s.cluster cl).poisonQ.length < 16 → ∃ q ∈ (t.cluster cl).poisonQ, q &&& ~~~1 = BitVec.ofNat 64 (place / 256 * 256)) ∧
    ∀ c e, e ∈ (t.cluster c).waymark → e ∈ (s.cluster c).waymark ∧ ∀ n, Tbl.find? (s.cluster c).ctx e.2.lc = some n →
      (s.setPoison a true).onLine (s.launch n).part (s.launch n).ctx e.2.ta.toNat place = false ∧
      (s.setPoison a true).onLine (s.launch n).part (s.launch n).ctx e.2.ia.toNat place = false) ∧
  (∀ cl b, cl ∉ s.enabled → exec (.clusterRetire cl b) s = .next s) ∧
  (∀ cl b id, cl ∈ s.enabled → b ∈ s.spares → b / 64 = cl / 64 → (s.dropUnreadable cl).team id = s.team id →
    (Tbl.find? (s.dropUnreadable cl).teams id).isSome = true → (s.team id).cl = cl → (s.team id).st ∉ [.retiring, .retired] →
    exec (.clusterRetire cl ⟨b, [id], []⟩) s =
      .next { ((s.dropUnreadable cl).killTeam id 0xFFFA).moveCluster cl b with ras := s.ras ++ [(.cluster, cl)] }) ∧
  (∀ cl b k, cl ∈ s.enabled → b ∈ s.spares → b / 64 = cl / 64 → k / 256 = cl → k % 16 ≠ 15 → ∃ u : State,
    exec (.clusterRetire cl ⟨b, [], [k]⟩) s = .next { u.moveCluster cl b with ras := s.ras ++ [(.cluster, cl)] } ∧
    (u.slot k).st = .free) ∧
  (∀ cl b, cl ∈ s.enabled → b ∈ s.spares → b / 64 = cl / 64 → b ∉ s.enabled → ∃ t : State,
    exec (.clusterRetire cl ⟨b, [], []⟩) s = .next t ∧ cl ∉ t.enabled ∧ b ∈ t.enabled ∧ b ∉ t.spares ∧
    (t.cluster b).part = (s.cluster cl).part ∧ (t.cluster b).bank = (s.cluster cl).bank ∧ (t.cluster b).loft = (s.cluster cl).loft ∧
    (t.cluster b).ctx = (s.cluster cl).ctx ∧ (t.cluster b).waymark = [] ∧ (t.cluster b).tlb = [] ∧
    (∀ n, ∀ h ∈ (Tbl.get (t.cluster b).drover {} n).accepted, h.record.bad = false) ∧
    (∀ id, t.team id = if (s.team id).cl = cl ∧ (Tbl.find? s.teams id).isSome = true then { s.team id with cl := b } else s.team id)) ∧
  (∀ cl b, cl ∈ s.enabled → (∀ c ∈ s.spares, c / 64 ≠ cl / 64) → ∃ t : State, exec (.clusterRetire cl b) s = .next t ∧
    ∀ c, c ∈ t.enabled ↔ c ∈ s.enabled ∧ c ≠ cl) ∧
  (∀ p v, let x := s.part p
    (x.stopped = true → exec (.hdrainDone p v) s = .next s) ∧
    (¬ (v.getLsbD 61 = true ∧ x.hdrain = 1) → exec (.hdrainDone p v) s = .next s) ∧
    (Asks s p → v.getLsbD 61 = true → x.hdrain = 1 → ∃ t : State, exec (.hdrainDone p v) s = .next t ∧ (t.part p).hdone = true ∧
      ((∀ q ∈ s.parts, q.1 ≠ p → q.2.hdrain = 0 ∨ q.2.stackNo ≠ x.stackNo ∨ q.2.hdone = true) → Tbl.rising s.parts = true →
        Tbl.get s.hbmStacks 0 x.stackNo = 1 → (s.setPart p { x with hdone := true }).eviction (x.stackNo / 2) = false →
        Tbl.get t.hbmStacks 0 x.stackNo = 2 ∧ (t.part p).hdrain = 2))) ∧
  (∀ n, let st := Tbl.get s.hbmStacks 0 n
    (st ≠ 2 → st ≠ 3 → exec (.hbmStackReturn n) s = .next s) ∧
    (st = 2 → ∃ t : State, exec (.hbmStackReturn n) s = .next t ∧ Tbl.get t.hbmStacks 0 n = 3) ∧
    (st = 3 → s.hxHeld = [] → (∀ k h m, (s.slot k).wait ≠ .dispatch h m) → ∃ t : State, exec (.hbmStackReturn n) s = .next t ∧ Tbl.get t.hbmStacks 0 n = 0)) ∧
  (∀ p, let x := s.part p
    (¬ (x.hdrain = 1 ∧ x.hddl.toNat < s.time.toNat) → exec (.hdrainDeadline p) s = .next s) ∧
    (x.hdrain = 1 → x.hddl.toNat < s.time.toNat → ∃ t : State, exec (.hdrainDeadline p) s = .next t ∧
      Tbl.get t.hbmStacks 0 x.stackNo = 0 ∧ (t.part p).hdrain = 0)) ∧
  (∀ link lane, let old := Tbl.get s.links [] link
    ∃ t : State, exec (.linkLaneFailure link lane) s = .next t ∧ t.ras = s.ras ++ [(.link, 64 * link + lane)] ∧
      Tbl.find? t.links link = some (if lane ∈ old then old else old ++ [lane]) ∧
      (link ∉ s.deadLinks → (t.linkUp link = true ↔ (if lane ∈ old then old else old ++ [lane]).length ≤ Config.spareLanes link)) ∧
      (link ≠ hostLink → t.parts = s.parts)) ∧
  (∀ die image version, s.recovery = true → exec (.firmwareUpdate die image version false) s = .next s) ∧
  (∀ die image version sg, s.recovery = false ∨ sg = true → let x := Tbl.get s.stewards {} die
    ∃ t : State, exec (.firmwareUpdate die image version sg) s = .next t ∧ let y := Tbl.get t.stewards {} die
      Tbl.get y.digests 0 (1 - x.active) = Config.imageDigest image ∧ Tbl.get y.versions 0 (1 - x.active) = version ∧ y.counter = x.counter ∧
      ((sg = true ∧ x.counter ≤ version) → y.active = 1 - x.active ∧ y.healthy = false ∧ y.since = s.time.toNat) ∧
      (¬ (sg = true ∧ x.counter ≤ version) → y.active = x.active ∧ t.replies = s.replies)) ∧
  (∀ die, let x := Tbl.get s.stewards {} die
    let late := x.healthy = false ∧ x.since + 10000000000 ≤ s.time.toNat
    (¬ late → exec (.firmwareHealthTimeout die) s = .next s) ∧
    (late → ∃ t : State, exec (.firmwareHealthTimeout die) s = .next t ∧ (Tbl.get t.stewards {} die).active = 1 - x.active)) ∧
  (∀ die, let x := Tbl.get s.stewards {} die
    let due := x.healthy = true ∧ x.since + 86400000000000 ≤ s.time.toNat
    (¬ due → exec (.rollbackCounterAdvance die) s = .next s) ∧
    (due → exec (.rollbackCounterAdvance die) s = .next { s with stewards := Tbl.put s.stewards die { x with
      counter := max x.counter (Tbl.get x.versions 0 x.active) } })) ∧
  (∃ t : State, exec .packageReset s = .next t ∧ t.slots = State.reset.slots ∧ t.teams = [] ∧ t.launches = [] ∧ t.time = 0 ∧
    t.queues = State.reset.queues ∧ t.parts = State.reset.parts ∧ t.package = s.package ∧
    (s.bringUp = {} → let v := s.package
      t.caps = v.caps ∧ t.enabled = v.enabled ∧ t.spares = v.spares ∧ t.recovery = false ∧
      ∀ d, Tbl.get t.stewards {} d = Tbl.get s.stewards {} d) ∧
    (∀ c ∈ s.bringUp.clusters, c ∉ t.enabled ∧ c ∉ t.spares) ∧
    (∀ d, d < s.package.dies → 2 * d ∈ s.bringUp.slots → 2 * d + 1 ∈ s.bringUp.slots → (Tbl.get s.stewards {} d).active < 2 →
      t.recovery = true ∧ t.enabled = []) ∧
    (∀ d, (Tbl.get s.stewards {} d).active < 2 → Tbl.find? s.stewards d ≠ none → t.recovery = false →
      2 * d + (Tbl.get s.stewards {} d).active ∈ s.bringUp.slots → d < s.package.dies →
      (Tbl.get t.stewards {} d).active = 1 - (Tbl.get s.stewards {} d).active) ∧
    (∀ k, keyKind k < 3 → t.byte k = 0) ∧ ∀ k, 3 ≤ keyKind k → t.byte k = s.byte k) ∧
  (s.checkpoint = none → ∃ t : State, exec .checkpoint s = .next t ∧
    ((∀ k ∈ Tbl.keys s.slots, k % 16 = 15 ∨ (s.slot k).st = .free) →
      t = { s with teams := t.teams, checkpoint := some { out := s.checkpointOut } } ∧
      ∀ id tm, Tbl.find? s.teams id = some tm →
        t.team id = if (s.launch tm.launch).part ∈ s.checkpointOut then tm else tm.askYield)) ∧
  (∀ c, s.checkpoint = some c → c.streaming = false → s.quiesce.quiet = false → exec .checkpoint s = .next s.quiesce) ∧
  (∀ c, s.checkpoint = some c → c.streaming = false → s.quiesce.quiet = true →
    exec .checkpoint s = .next { s.quiesce with checkpoint := some { c with streaming := true } }) ∧
  (∀ c, s.checkpoint = some c → c.streaming = true → s.portsUp = false → exec .checkpoint s = .next s) ∧
  (∀ c, s.checkpoint = some c → c.streaming = true → s.portsUp = true → ∃ t : State, exec .checkpoint s = .next t ∧
    t = { s with tier := t.tier, tierPoison := t.tierPoison, checkpoint := none } ∧
    (∀ k, Tbl.get t.tier 0 k = if keyKind k = 0 then s.byte k else 0) ∧
    ∀ k, Tbl.get t.tierPoison false k = if keyKind k = 0 then Tbl.get s.poison false k else false)

namespace Sys2Proof.Claims

open Machine

/-- How a step ends after an instruction: the turn is over too. -/
def finish (o : Host.Outcome State Fault Refusal) : Host.Outcome State Fault Refusal :=
  match o with
  | .next u => .next u.endTurn
  | .fault r => .fault r
  | .refused r => .refused r

/-- Fetching len bytes at va for a party of launch n with segments sg passes the check of R50 and finds the number v through an
instruction cache (R87); s' is the machine after it. -/
def Fetches (s : State) (n : Nat) (sg : Tbl W128) (who : Who) (cache va len align v : Nat) (s' : State) : Prop :=
  ∃ lod, checkSearch (s.launch n) n sg needExec va len align = (.ok, lod) ∧
    s.fetchRange who cache va len lod = (.value v, s')

/-- The machine once a restored team has found the word it goes on with. -/
def resumedAt (s : State) (t : Nat) (was : Bool) : State :=
  if was then s.setTeam t { s.team t with resumed := false } else s

/-- Team t has the words w and v in front of it: one word, or two for the two-word groups, within the clause. -/
def TeamWords (s : State) (t : Nat) (w v : W32) (s' : State) : Prop :=
  let at4 (s : State) (va : W64) (n : Nat) (s' : State) :=
    Fetches s (s.team t).launch (s.team t).sg ((s.team t).who pathLS) (codeNo (s.team t).cl (s.team t).eng) va.toNat 4 4 n s'
  let x := s.team t
  ∃ n s1, at4 s x.pc n s1 ∧ w = BitVec.ofNat 32 n ∧ let s2 := resumedAt s1 t x.resumed
    (teamLen w = 1 ∧ v = 0 ∧ s' = s2) ∨
    (teamLen w = 2 ∧ (∀ c, x.clause = some c → x.pc.toNat + 8 ≤ c.last.toNat) ∧
      ∃ m, at4 s2 (x.pc + 4) m s' ∧ v = BitVec.ofNat 32 m)

/-- Slot k has an instruction of len bytes, 2 or 4, in front of it, whose word is w. The first two bytes tell the length, where
the check allows one of the two; then the lowest segment that holds all of its bytes decides (R50, R51). -/
def SlotWords (s : State) (k : Nat) (w len : Nat) (s' : State) : Prop :=
  let cache := swarmCodeNo (k / 256)
  let get (s : State) (n v : Nat) (s' : State) :=
    Fetches s (s.slot k).launchNo (s.slot k).sg (slotWho k (s.slot k)) cache (s.slot k).pc.toNat n 2 v s'
  let two := s.fetchCheck k 2
  let four := s.fetchCheck k 4
  (two.1 = .ok ∨ four.1 = .ok) ∧
  ∃ h s1, s.fetchRange (slotWho k (s.slot k)) cache (s.slot k).pc.toNat 2 (two.2 || four.2) = (.value h, s1) ∧
    ((len = 2 ∧ h % 4 ≠ 3 ∧ get s1 2 w s') ∨ (len = 4 ∧ h % 4 = 3 ∧ get s1 4 w s'))

/-- How a cycle of an engine ends after an instruction of team t, which was tm: the turn is over when the team has issued; one
that has stalled, or waits at its header, leaves the cycle to the others (R34, R103). -/
def finishTeam (cl e t : Nat) (tm : Team) (tries : Nat) (o : Host.Outcome State Fault Refusal) : Host.Outcome State Fault Refusal :=
  match o with
  | .next u =>
    let x := u.team t
    if x ≠ tm ∧ x.st ≠ .clauseWait ∧ ¬ (x.st = .parked ∧ x.wait = .none) then .next u.endTurn
    else u.engineTurn exec cl e [t] tries
  | .fault r => .fault r
  | .refused r => .refused r

/-- How a cycle of a core ends after instruction i of slot k, which was x: the turn is over when the slot has issued, also by a
jump to itself; one that stalls leaves the cycle to the others (R33). -/
def finishSlot (cl c k : Nat) (x : Slot) (i : Instr) (o : Host.Outcome State Fault Refusal) : Host.Outcome State Fault Refusal :=
  match o with
  | .next u =>
    if u.slot k ≠ x ∨ mayStandStill i = true then .next { u.settleAck k with cur := {} } else u.coreTurn exec cl c [k] 16
  | .fault r => .fault r
  | .refused r => .refused r

/-- A machine whose agenda has come to a turn, with the turn taken off it. -/
def Comes (s : State) (turn : Turn) (s0 : State) : Prop := ∃ rest, s.agenda = turn :: rest ∧ s0 = { s with agenda := rest }

/-- The instruction that runs for a word of a thread: the six xslot operations share a word and the register tells which one
it is (R319). -/
def picked (s : State) (k : Nat) (i : Instr) : Instr :=
  match i with
  | .xslotQuery r d =>
    let v := (s.slot k).xreg r
    if v = 1 then .xslotStop r d else if v = 2 then .xslotRelease r d else if v = 3 then .xslotOpen r d
    else if v = 4 then .xslotClose r d else if v = 5 then .xslotVacate r d else i
  | i => i

end Sys2Proof.Claims

open Sys2Proof Sys2Proof.Machine Sys2Proof.Claims in
/-- A step runs the instruction that the bytes at the program counter decode to: for the team that an engine's turn selects, in
the replay it is in, if any; for the slot that a core's turn picks, a 4-byte or a 2-byte word; and an event of the agenda runs
as it stands. After it the turn ends: no instruction is in hand, and the team has issued; where the team stalls or waits at its
header the engine goes on with the next one (R34, R102, R103), and where a slot stalls the core does (R33). -/
def Obligations.StepRunsDecoded : Prop :=
  (∀ (s s0 : State) cl e t tm w v s1 i, Comes s (.engine cl e) s0 → s0.issues cl = true → s0.selectTeam cl e [] = some (t, tm) →
    let at0 := { s0 with cur := { party := .team t } }
    let x := at0.team t
    (x.atBoundary = true → x.preempt = false ∧ (s0.part (s0.launch x.launch).part).stopped = false) →
    TeamWords at0 t w v s1 → (x.clause = none → isHeader w = true) → decodeTeam w v = .ok i →
    let s2 := { s1 with cur := Cur.mk (.team t) w v (4 * teamLen w) }
    let ends (o : Host.Outcome State Fault Refusal) := finishTeam cl e t tm s0.teams.length o
    ((s2.team t).rep = none → step s = ends (exec i s2)) ∧
    (∀ r j, (s2.team t).rep = some r → r.instr i w v = some j → step s = ends (exec j s2))) ∧
  (∀ (s s0 : State) cl c k w len s1 i, Comes s (.core cl c) s0 → s0.issues cl = true →
    (s0.part (s0.cluster cl).part).stopped = false → s0.pickSlot cl c [] = some k → (s0.slot k).stop = none →
    ((s0.slot k).pc ≠ Config.retireAddress ∨ k % 16 = 15) → SlotWords s0 k w len s1 →
    ((len = 4 ∧ decodeScalar (BitVec.ofNat 32 w) = .ok i) ∨ (len = 2 ∧ decodeC (BitVec.ofNat 16 w) = .ok i)) →
    let s2 := { s1 with cur := Cur.mk (.slot k) (BitVec.ofNat 32 w) 0 len }
    step s = finishSlot cl c k (s0.slot k) (picked s2 k i) (exec (picked s2 k i) s2)) ∧
  (∀ s s0 i, Comes s (.event i) s0 → step s = finish (exec i s0)) ∧
  (∀ (s : State) t, s.cur.party = .team t →
    let u := s.endTurn
    u = { s with cur := {}, teams := u.teams } ∧ (Tbl.find? s.teams t ≠ none → (u.team t).issued = s.clock (s.team t).cl) ∧
    ∀ m, u.team m = { s.team m with
      issued := (u.team m).issued, yielded := (u.team m).yielded
      yieldFor := (u.team m).yieldFor, yieldUntil := (u.team m).yieldUntil }) ∧
  (∀ s : State, (∀ t, s.cur.party ≠ .team t) → s.endTurn = { s with cur := {} })

open Sys2Proof Sys2Proof.Machine Sys2Proof.Claims in
/-- Who issues (R33, R34, R105): a slot in its own phase when it is ready, else the first ready one after it; and the ready team
that has waited 4,096 cycles, the oldest first, else the one of the highest priority, the oldest first; of the teams that the
engine, or of the slots that the core, has not found unable to issue in this cycle. That a slot with an instruction in flight is
not ready shows in the model by its state and notBefore alone (log 6). -/
def Obligations.IssueOrder : Prop :=
  (∀ (s : State) cl c tried d, d < 16 →
    let slotAt (j : Nat) : Nat := slotNo cl c ((s.clock cl % 16 + j) % 16)
    let may (j : Nat) : Prop := s.slotReady (slotAt j) = true ∧ slotAt j ∉ tried
    (s.pickSlot cl c tried = some (slotAt d) ↔ may d ∧ ∀ j, j < d → ¬ may j) ∧
    (s.pickSlot cl c tried = none ↔ ∀ j, j < 16 → ¬ may j) ∧
    (s.slotReady (slotAt d) = true ↔
      (s.slot (slotAt d)).st = .ready ∧ (s.slot (slotAt d)).notBefore ≤ s.clock (slotCluster (slotAt d)))) ∧
  (∀ (s : State) cl e tried,
    let ready (x : Nat × Team) : Prop := x ∈ s.teams ∧ x.2.cl = cl ∧ x.2.eng = e ∧ x.2.st = .ready ∧ x.1 ∉ tried
    let aged (x : Nat × Team) : Prop := x.2.issued + 4096 ≤ s.clock cl
    let back (x : Nat × Team) : Prop := s.clock cl < x.2.yieldUntil ∧ ∃ y, ready y ∧ y.1 ∈ x.2.yieldFor
    (s.selectTeam cl e tried = none ↔ ∀ x, ready x → ¬ aged x ∧ back x) ∧
    ∀ x, s.selectTeam cl e tried = some x → ready x ∧
      (aged x → ∀ y, ready y → aged y → x.2.issued ≤ y.2.issued) ∧
      (¬ aged x → ¬ back x ∧ ∀ y, ready y → ¬ aged y ∧
        (¬ back y → x.2.prio < y.2.prio ∨ (x.2.prio = y.2.prio ∧ x.2.issued ≤ y.2.issued))))

/-- Words written out from the encodings of the manual decode to the instructions they stand for. -/
def Obligations.DecodeWords : Prop :=
  Sys2Proof.decodeTeam 0xFC00004D 0 = .ok (.hdr 0 0 1 3 1) ∧
  Sys2Proof.decodeTeam 0x00080814 0 = .ok (.iadd false 8 4 5 0) ∧
  Sys2Proof.decodeTeam 0x0E082060 0 = .ok (.fadd false 8 16 24 0) ∧
  Sys2Proof.decodeTeam 0xE8442220 0 = .ok (.rpt 1 4 2 2 2) ∧
  Sys2Proof.decodeTeam 0x4C0A1010 0 = .ok (.lpickiXor 5 4 16) ∧
  Sys2Proof.decodeTeam 0x91100900 0 = .ok (.atom false 8 2 2 false 0 0) ∧
  Sys2Proof.decodeTeam 0xE5800000 0 = .ok .eret ∧
  Sys2Proof.decodeTeam 0xDC008000 0x0803800A = .ok (.rtrace 16 0 4 (Sys2Proof.Guard.mk 7 false) false 1 2) ∧
  Sys2Proof.decodeTeam 0xD80801C0 0x00038000 = .ok (.mdrain 28 0 (Sys2Proof.Guard.mk 7 false) false false) ∧
  Sys2Proof.decodeTeam 0xD01C2008 7 = .ok (.movi32 true 4 7) ∧
  Sys2Proof.decodeScalar 0x04B5000B = .ok (.xsend 11 10 0) ∧
  Sys2Proof.decodeScalar 0x4100105B = .ok (.xfence 2 0 2) ∧
  Sys2Proof.decodeScalar 0x00A30293 = .ok (.riscvBaseOp (.aluImm .addi 5 6 10))

open Sys2Proof Sys2Proof.Machine Sys2Proof.Claims in
/-- The decoder and the encoder of team instructions agree: for every well-formed instruction that has team words, with every
operand at every value, decoding its words gives it back, and a one-word instruction does not look at the word after it. -/
def Obligations.TeamDecodeEncode : Prop :=
  ∀ i : Instr, isTeam i = true → i.wellFormed = true →
    (∃ w, encode i = [w] ∧ teamLen w = 1 ∧ ∀ v, decodeTeam w v = .ok i) ∨
    (∃ w v, encode i = [w, v] ∧ teamLen w = 2 ∧ decodeTeam w v = .ok i)

open Sys2Proof Sys2Proof.Machine Sys2Proof.Claims in
/-- The same of scalar instructions: the low bits of the word say that it is a 4-byte one. The six xslot operations share a word:
it decodes to XSLOT_QUERY, whose register tells them apart (R319). -/
def Obligations.ScalarDecodeEncode : Prop :=
  ∀ i : Instr, isScalar i = true → i.wellFormed = true →
    ∃ w, encode i = [w] ∧ w.toNat % 4 = 3 ∧ decodeScalar w = .ok (match i with
      | .xslotStop s d | .xslotRelease s d | .xslotOpen s d | .xslotClose s d | .xslotVacate s d => .xslotQuery s d
      | i => i)

open Sys2Proof Sys2Proof.Machine Sys2Proof.Claims in
/-- The machine right after reset (R9, R15, R57, R404): TIME and CLOCK are 0, CAPS is that of a full X4, the power registers have
their reset values, memory lists nothing and is in canonical form, no team, launch, operation or message is there. That a slot's
registers are 0 and that an unwritten byte reads 0 is the model's choice (log 3, log 5). An X4N and an X2 differ in CAPS and in
the clusters that they have (R1, R10). -/
def Obligations.ResetState : Prop :=
  let s := State.reset
  s.tablesWf = true ∧ s.time = 0 ∧ (∀ cl, s.clock cl = 0) ∧ s.caps = 0x00020F24 ∧
  s.enabled.length = 144 ∧ (∀ d, d < 4 → (s.enabled.filter fun c => dieOf c == d).length = 36) ∧
  s.power.pcap = 2400 ∧ s.power.pwr = 0 ∧ s.power.clamped = false ∧ s.power.rampUp = 20 ∧ s.power.rampDn = 20 ∧
  s.power.slew = 50 ∧ s.power.rowAmps = 160 ∧
  s.teams = [] ∧ s.launches = [] ∧ s.ops = [] ∧ s.lines = [] ∧ s.msix = [] ∧ s.veils = [] ∧ s.caches = [] ∧
  (∀ k, (s.slot k).inbox = [] ∧ (s.slot k).sendQ = [] ∧ (s.slot k).resv = none ∧ (s.slot k).kcause = 0xFF) ∧
  (∀ k, s.byte k = 0 ∧ s.isFull k = false ∧ s.isPoisoned k = false) ∧
  (∀ k r, (s.slot k).xreg r = 0 ∧ (s.slot k).freg r = 0) ∧
  Variant.x4n.reset = { s with caps := 0x00021924, package := .x4n } ∧
  (let x2 := Variant.x2.reset
   x2 = { s with caps := 0x00022F02, enabled := x2.enabled, spares := x2.spares, package := .x2 } ∧ x2.enabled.length = 64 ∧
   ∀ d, (x2.enabled.filter fun c => dieOf c == d).length = if d < 2 then 32 else 0)

open Sys2Proof Sys2Proof.Machine Sys2Proof.Claims in
/-- Bytes of storage (R4): what is stored from a key on reads back, little-endian; every other byte, and everything but memory, is
as it was. A full/empty bit and a poison bit belong to their whole unit. -/
def Obligations.MemoryCells : Prop :=
  (∀ (s : State) k n v, (s.writeKey k n v).readKey k n = v % 256 ^ n) ∧
  (∀ (s : State) k n v j, (∀ i, i < n → j ≠ keyAdd k i) → (s.writeKey k n v).byte j = s.byte j) ∧
  (∀ (s : State) k n v i, i < n → (s.writeKey k n v).byte (keyAdd k i) = BitVec.ofNat 8 (v / 256 ^ i)) ∧
  (∀ (s : State) k n v, s.writeKey k n v = { s with mem := (s.writeKey k n v).mem }) ∧
  (∀ (s : State) k j b, (s.setFull k b).isFull j = if keyBlock 8 j = keyBlock 8 k then b else s.isFull j) ∧
  (∀ (s : State) k j b, (s.setPoison k b).isPoisoned j = if poisonUnit j = poisonUnit k then b else s.isPoisoned j)

open Sys2Proof Sys2Proof.Machine Sys2Proof.Claims in
/-- Every step keeps the canonical form of memory, of the full/empty bits and of the poison bits: addresses rise strictly, and no
entry equals what an unlisted address reads as. -/
def Obligations.MemoryCanonical : Prop :=
  ∀ s s' : State, s.tablesWf = true → step s = .next s' → s'.tablesWf = true

open Sys2Proof Sys2Proof.Machine Sys2Proof.Claims in
/-- No instruction and no step ends in a fault or a refusal, whatever the state: nowhere does the manual leave the model an
instruction without an effect, as it reads it (log 46, DEDUCED). -/
def Obligations.NothingStopsTheMachine : Prop :=
  (∀ (i : Instr) (s : State), ∃ s', exec i s = .next s') ∧ (∀ s : State, s.goesOn)
end

