-- ==== Sys2Proof/Laws/Tbl.lean ====
section
/-! SUPPORT. What the operations of sparse tables do: what a key reads as afterwards, and that the canonical form stays. -/

namespace Sys2Proof.Machine.Tbl

variable {α : Type}

@[simp] theorem find?_nil (k : Nat) : find? ([] : Tbl α) k = none := rfl

@[simp] theorem get_nil (d : α) (k : Nat) : get ([] : Tbl α) d k = d := rfl

@[simp] theorem find?_put_same (t : Tbl α) (k : Nat) (v : α) : find? (put t k v) k = some v := by
  induction t with
  | nil => simp [put, find?]
  | cons e r ih =>
    obtain ⟨j, w⟩ := e
    simp only [put]
    split
    · simp [find?]
    · split
      · simp [find?]
      · simp [find?, *]

theorem find?_put_other (t : Tbl α) (k j : Nat) (v : α) (h : j ≠ k) : find? (put t k v) j = find? t j := by
  induction t with
  | nil => simp [put, find?, h.symm]
  | cons e r ih =>
    obtain ⟨i, w⟩ := e
    simp only [put]
    split
    · subst i; simp [find?, h.symm]
    · split
      · simp [find?, h.symm]
      · simp [find?, ih]

/-- What a key reads as after a put. -/
theorem get_put (t : Tbl α) (d : α) (k j : Nat) (v : α) : get (put t k v) d j = if j = k then v else get t d j := by
  by_cases h : j = k
  · subst h; simp [get]
  · simp [get, find?_put_other t k j v h, h]

@[simp] theorem get_put_same (t : Tbl α) (d : α) (k : Nat) (v : α) : get (put t k v) d k = v := by simp [get_put]

theorem find?_erase (t : Tbl α) (k j : Nat) : find? (erase t k) j = if j = k then none else find? t j := by
  induction t with
  | nil => simp [erase]
  | cons e r ih =>
    obtain ⟨i, w⟩ := e
    simp only [erase]
    by_cases hi : i = k
    · subst hi; simp only [if_pos, ih]; by_cases hj : j = i <;> simp [find?, hj, eq_comm]
    · simp only [if_neg hi, find?, ih]
      by_cases hj : i = j
      · subst hj; simp [hi]
      · simp [hj]

/-- What a key reads as after a store. -/
theorem get_set [DecidableEq α] (t : Tbl α) (d : α) (k j : Nat) (v : α) :
    get (set t d k v) d j = if j = k then v else get t d j := by
  unfold set
  split
  · by_cases hj : j = k <;> simp_all [get, find?_erase]
  · exact get_put t d k j v

@[simp] theorem get_set_same [DecidableEq α] (t : Tbl α) (d : α) (k : Nat) (v : α) : get (set t d k v) d k = v := by
  simp [get_set]

/-! ## Rising keys -/

theorem risingAbove_weaken (t : Tbl α) (a b : Nat) (h : a ≤ b) (ht : risingAbove t b = true) : risingAbove t a = true := by
  cases t with
  | nil => rfl
  | cons e r =>
    simp only [risingAbove, Bool.and_eq_true, decide_eq_true_eq] at ht ⊢
    exact ⟨by omega, ht.2⟩

theorem rising_of_risingAbove (t : Tbl α) (b : Nat) (h : risingAbove t b = true) : rising t = true := by
  cases t with
  | nil => rfl
  | cons e r =>
    simp only [risingAbove, Bool.and_eq_true] at h
    exact h.2

/-- A key at or below the bound of a rising table is not in it. -/
theorem find?_low (t : Tbl α) (b k : Nat) (hk : k ≤ b) (h : risingAbove t b = true) : find? t k = none := by
  induction t generalizing b with
  | nil => rfl
  | cons e r ih =>
    simp only [risingAbove, Bool.and_eq_true, decide_eq_true_eq] at h
    have : e.1 ≠ k := by omega
    simp only [find?, if_neg this]
    exact ih e.1 (by omega) h.2

theorem risingAbove_put (t : Tbl α) (b k : Nat) (v : α) (hk : b < k) (h : risingAbove t b = true) :
    risingAbove (put t k v) b = true := by
  induction t generalizing b with
  | nil => simp [put, risingAbove, hk]
  | cons e r ih =>
    obtain ⟨j, w⟩ := e
    simp only [risingAbove, Bool.and_eq_true, decide_eq_true_eq] at h
    simp only [put]
    split
    · subst j; simp [risingAbove, h.1, h.2]
    · split
      · simp [risingAbove, *]
      · simp only [risingAbove, Bool.and_eq_true, decide_eq_true_eq]
        exact ⟨h.1, ih j (by omega) h.2⟩

theorem rising_put (t : Tbl α) (k : Nat) (v : α) (h : rising t = true) : rising (put t k v) = true := by
  cases t with
  | nil => rfl
  | cons e r =>
    obtain ⟨j, w⟩ := e
    simp only [rising] at h
    simp only [put]
    split
    · subst j; exact h
    · split
      · simp only [rising, risingAbove, Bool.and_eq_true, decide_eq_true_eq]; exact ⟨by assumption, h⟩
      · simp only [rising]; exact risingAbove_put r j k v (by omega) h

theorem risingAbove_erase (t : Tbl α) (b k : Nat) (h : risingAbove t b = true) : risingAbove (erase t k) b = true := by
  induction t generalizing b with
  | nil => rfl
  | cons e r ih =>
    simp only [risingAbove, Bool.and_eq_true, decide_eq_true_eq] at h
    simp only [erase]
    split
    · exact risingAbove_weaken _ b e.1 (by omega) (ih _ h.2)
    · simp only [risingAbove, Bool.and_eq_true, decide_eq_true_eq]
      exact ⟨h.1, ih _ h.2⟩

theorem rising_erase (t : Tbl α) (k : Nat) (h : rising t = true) : rising (erase t k) = true := by
  cases t with
  | nil => rfl
  | cons e r =>
    simp only [rising] at h
    simp only [erase]
    split
    · exact rising_of_risingAbove _ e.1 (risingAbove_erase r e.1 k h)
    · simp only [rising]; exact risingAbove_erase r e.1 k h

theorem rising_set [DecidableEq α] (t : Tbl α) (d : α) (k : Nat) (v : α) (h : rising t = true) :
    rising (set t d k v) = true := by
  unfold set; split
  · exact rising_erase t k h
  · exact rising_put t k v h

theorem all_erase (p : Nat × α → Bool) (t : Tbl α) (k : Nat) (h : t.all p = true) : (erase t k).all p = true := by
  induction t with
  | nil => rfl
  | cons e r ih =>
    simp only [List.all_cons, Bool.and_eq_true] at h
    simp only [erase]
    split <;> simp_all

theorem all_put (p : Nat × α → Bool) (t : Tbl α) (k : Nat) (v : α) (hv : p (k, v) = true) (h : t.all p = true) :
    (put t k v).all p = true := by
  induction t with
  | nil => simpa [put] using hv
  | cons e r ih =>
    obtain ⟨j, w⟩ := e
    simp only [List.all_cons, Bool.and_eq_true] at h
    simp only [put]
    split
    · simp_all
    · split <;> simp_all

/-- A store keeps the canonical form. -/
theorem wf_set [DecidableEq α] (t : Tbl α) (d : α) (k : Nat) (v : α) (h : wf t d = true) : wf (set t d k v) d = true := by
  simp only [wf, Bool.and_eq_true] at h ⊢
  refine ⟨rising_set t d k v h.1, ?_⟩
  unfold set; split
  · exact all_erase _ t k h.2
  · exact all_put _ t k v (by simpa using by assumption) h.2

theorem risingAbove_filter (t : Tbl α) (b : Nat) (p : Nat × α → Bool) (h : risingAbove t b = true) :
    risingAbove (t.filter p) b = true := by
  induction t generalizing b with
  | nil => rfl
  | cons e r ih =>
    simp only [risingAbove, Bool.and_eq_true, decide_eq_true_eq] at h
    simp only [List.filter_cons]
    split
    · simp only [risingAbove, Bool.and_eq_true, decide_eq_true_eq]; exact ⟨h.1, ih _ h.2⟩
    · exact risingAbove_weaken _ b e.1 (by omega) (ih _ h.2)

theorem rising_filter (t : Tbl α) (p : Nat × α → Bool) (h : rising t = true) : rising (t.filter p) = true := by
  cases t with
  | nil => rfl
  | cons e r =>
    simp only [rising] at h
    simp only [List.filter_cons]
    split
    · exact risingAbove_filter r e.1 p h
    · exact rising_of_risingAbove _ e.1 (risingAbove_filter r e.1 p h)

/-- Entries dropped: the canonical form stays. -/
theorem wf_filter [DecidableEq α] (t : Tbl α) (d : α) (p : Nat × α → Bool) (h : wf t d = true) :
    wf (t.filter p) d = true := by
  simp only [wf, Bool.and_eq_true] at h ⊢
  refine ⟨rising_filter t p h.1, ?_⟩
  have h2 := h.2
  simp only [List.all_eq_true] at h2 ⊢
  exact fun x hx => h2 x (List.mem_filter.mp hx).1

@[simp] theorem wf_nil [DecidableEq α] (d : α) : wf ([] : Tbl α) d = true := rfl

end Sys2Proof.Machine.Tbl
end

