-- ==== Sys2Proof/Laws/Registers.lean ====
section
/-! SUPPORT. What the accesses to registers of teams and of scalar threads do, and what an arithmetic instruction of a
team can change. -/

namespace Sys2Proof.Machine

/-! ## Lane and uniform registers -/

theorem Team.vreg_setV (t : Team) (l r m k : Nat) (x : W32) (hr : r < 128) (hk : k < 128) :
    (t.setV l r x).vreg m k = if m = l ∧ k = r then x else t.vreg m k := by
  have : vKey m k = vKey l r ↔ m = l ∧ k = r := by simp only [vKey]; omega
  simp only [Team.vreg, Team.setV, Tbl.get_set, this]

theorem Team.greg_setG (t : Team) (r k : Nat) (x : W32) :
    (t.setG r x).greg k = if k = r then x else t.greg k := by
  simp only [Team.greg, Team.setG, Tbl.get_set]

theorem Team.vreg_setVs (t : Team) (l r n x m k : Nat) (hr : r + n ≤ 128) (hk : k < 128) :
    (t.setVs l r n x).vreg m k =
      if m = l ∧ r ≤ k ∧ k < r + n then BitVec.ofNat 32 (x / 2 ^ (32 * (k - r))) else t.vreg m k := by
  induction n generalizing t r x with
  | zero => rw [Team.setVs, if_neg (by omega)]
  | succ n ih =>
    rw [Team.setVs, ih _ _ _ (by omega)]
    by_cases h1 : m = l ∧ r + 1 ≤ k ∧ k < r + 1 + n
    · rw [if_pos h1, if_pos (by omega), Nat.div_div_eq_div_mul, ← pow_add]
      congr 4; omega
    · rw [if_neg h1, Team.vreg_setV _ _ _ _ _ _ (by omega) hk]
      by_cases h2 : m = l ∧ k = r
      · rw [if_pos h2, if_pos (by omega), show k - r = 0 by omega]; simp
      · rw [if_neg h2, if_neg (by omega)]

theorem Team.greg_setGs (t : Team) (r n x k : Nat) :
    (t.setGs r n x).greg k =
      if r ≤ k ∧ k < r + n then BitVec.ofNat 32 (x / 2 ^ (32 * (k - r))) else t.greg k := by
  induction n generalizing t r x with
  | zero => rw [Team.setGs, if_neg (by omega)]
  | succ n ih =>
    rw [Team.setGs, ih]
    by_cases h1 : r + 1 ≤ k ∧ k < r + 1 + n
    · rw [if_pos h1, if_pos (by omega), Nat.div_div_eq_div_mul, ← pow_add]
      congr 4; omega
    · rw [if_neg h1, Team.greg_setG]
      by_cases h2 : k = r
      · rw [if_pos h2, if_pos (by omega), show k - r = 0 by omega]; simp
      · rw [if_neg h2, if_neg (by omega)]

theorem Team.setVs_only (t : Team) (l r n x : Nat) : t.setVs l r n x = { t with v := (t.setVs l r n x).v } := by
  induction n generalizing t r x with
  | zero => rfl
  | succ n ih => rw [Team.setVs, ih]; rfl

theorem Team.setGs_only (t : Team) (r n x : Nat) : t.setGs r n x = { t with g := (t.setGs r n x).g } := by
  induction n generalizing t r x with
  | zero => rfl
  | succ n ih => rw [Team.setGs, ih]; rfl

/-- Registers read as a number, from what each reads as. -/
theorem Team.vregs_eq (t : Team) (l r n x : Nat) (hx : x < 2 ^ (32 * n))
    (h : ∀ k, r ≤ k → k < r + n → t.vreg l k = BitVec.ofNat 32 (x / 2 ^ (32 * (k - r)))) : t.vregs l r n = x := by
  induction n generalizing r x with
  | zero => simp at hx; simp [Team.vregs, hx]
  | succ n ih =>
    rw [Team.vregs, ih (r + 1) (x / 2 ^ 32), h r (by omega) (by omega)]
    · simp only [Nat.sub_self, mul_zero, pow_zero, Nat.div_one, BitVec.toNat_ofNat]; omega
    · rw [Nat.div_lt_iff_lt_mul (by positivity), ← pow_add]
      exact lt_of_lt_of_le hx (Nat.pow_le_pow_right (by omega) (by omega))
    · intro k h1 h2
      rw [h k (by omega) (by omega), Nat.div_div_eq_div_mul, ← pow_add]
      congr 3; omega

theorem Team.gregs_eq (t : Team) (r n x : Nat) (hx : x < 2 ^ (32 * n))
    (h : ∀ k, r ≤ k → k < r + n → t.greg k = BitVec.ofNat 32 (x / 2 ^ (32 * (k - r)))) : t.gregs r n = x := by
  induction n generalizing r x with
  | zero => simp at hx; simp [Team.gregs, hx]
  | succ n ih =>
    rw [Team.gregs, ih (r + 1) (x / 2 ^ 32), h r (by omega) (by omega)]
    · simp only [Nat.sub_self, mul_zero, pow_zero, Nat.div_one, BitVec.toNat_ofNat]; omega
    · rw [Nat.div_lt_iff_lt_mul (by positivity), ← pow_add]
      exact lt_of_lt_of_le hx (Nat.pow_le_pow_right (by omega) (by omega))
    · intro k h1 h2
      rw [h k (by omega) (by omega), Nat.div_div_eq_div_mul, ← pow_add]
      congr 3; omega

/-! ## Predicates -/

theorem setBit_testBit (m k j : Nat) (b : Bool) : (setBit m k b).testBit j = if j = k then b else m.testBit j := by
  unfold setBit
  by_cases h : m.testBit k = b
  · simp only [h, if_true]; split
    · subst j; exact h
    · rfl
  · rw [if_neg h, Nat.testBit_xor, Nat.testBit_two_pow]
    by_cases hj : j = k
    · subst hj; cases b <;> cases hb : m.testBit j <;> simp_all
    · simp [hj, Ne.symm hj]

/-- A predicate write: p7 stays, the lane's predicate takes the value. -/
theorem Team.preg_setP (t : Team) (l p m q : Nat) (b : Bool) :
    (t.setP l p b).preg m q = if m = l ∧ q = p ∧ p ≠ 7 then b else t.preg m q := by
  unfold Team.setP
  by_cases hp : p = 7
  · simp [hp]
  · simp only [if_neg hp, Team.preg, Team.pmask, Tbl.get_set, Team.allLanes]
    by_cases hq : q = p
    · subst hq; simp [hp, setBit_testBit]
    · simp [hq]

theorem Team.gpreg_setGp (t : Team) (p q : Nat) (b : Bool) :
    (t.setGp p b).gpreg q = if q = p ∧ p ≠ 7 then b else t.gpreg q := by
  unfold Team.setGp
  by_cases hp : p = 7
  · simp [hp]
  · simp only [if_neg hp, Team.gpreg, setBit_testBit]
    by_cases hq : q = p
    · subst hq; simp [hp]
    · simp [hq]

/-! ## Registers of a scalar thread -/

theorem Slot.xreg_setX (k : Slot) (r q : BitVec 5) (v : W64) :
    (k.setX r v).xreg q = if q = r ∧ r ≠ 0 then v else k.xreg q := by
  unfold Slot.setX Slot.xreg
  by_cases hr : r = 0
  · simp [hr]
  · by_cases hq : q = 0
    · subst hq
      simp only [if_true]
      rw [if_neg (fun h => hr h.1.symm)]
    · rw [if_neg hr, if_neg hq, if_neg hq, Tbl.get_set]
      by_cases hqr : q = r
      · rw [if_pos (by rw [hqr]), if_pos ⟨hqr, hr⟩]
      · rw [if_neg (fun h => hqr (BitVec.eq_of_toNat_eq h)), if_neg (fun h => hqr h.1)]

theorem Slot.freg_setF (k : Slot) (r q : BitVec 5) (v : W64) :
    (k.setF r v).freg q = if q = r then v else k.freg q := by
  simp only [Slot.setF, Slot.freg, Tbl.get_set, BitVec.toNat_inj]

/-! ## Flags and arithmetic -/

@[simp] theorem Team.raise_zero (t : Team) : t.raise 0 = t := by simp [Team.raise]

/-- The flags of some lanes together. -/
def orFlags (f : Nat → W32) (ls : List Nat) : W32 := ls.foldr (fun l a => (f l &&& 0x3F) ||| a) 0

theorem Team.vreg_raise (t : Team) (f : W32) (l r : Nat) : (t.raise f).vreg l r = t.vreg l r := rfl
theorem Team.greg_raise (t : Team) (f : W32) (r : Nat) : (t.raise f).greg r = t.greg r := rfl

theorem Team.writeLanes_only (t : Team) (d k : Nat) (f : Nat → Nat × W32) (ls : List Nat) :
    t.writeLanes d k f ls = { t with v := (t.writeLanes d k f ls).v
                                     tstat := t.tstat ||| orFlags (fun l => (f l).2) ls } := by
  induction ls generalizing t with
  | nil => simp [Team.writeLanes, orFlags]
  | cons l r ih =>
    rw [Team.writeLanes, ih, Team.setVs_only]
    simp [Team.raise, orFlags, BitVec.or_assoc]

theorem Team.vreg_writeLanes (t : Team) (d k : Nat) (f : Nat → Nat × W32) (ls : List Nat) (hn : ls.Nodup) (m r : Nat)
    (hd : d + k ≤ 128) (hr : r < 128) :
    (t.writeLanes d k f ls).vreg m r =
      if m ∈ ls ∧ d ≤ r ∧ r < d + k then BitVec.ofNat 32 ((f m).1 / 2 ^ (32 * (r - d))) else t.vreg m r := by
  induction ls generalizing t with
  | nil => simp [Team.writeLanes]
  | cons l q ih =>
    rw [List.nodup_cons] at hn
    rw [Team.writeLanes, ih _ hn.2, Team.vreg_raise, Team.vreg_setVs _ _ _ _ _ _ _ hd hr]
    by_cases h1 : m ∈ q ∧ d ≤ r ∧ r < d + k
    · rw [if_pos h1, if_pos ⟨List.mem_cons_of_mem _ h1.1, h1.2⟩]
    · rw [if_neg h1]
      by_cases h2 : m = l ∧ d ≤ r ∧ r < d + k
      · rw [if_pos h2, if_pos ⟨by simp [h2.1], h2.2⟩, h2.1]
      · rw [if_neg h2, if_neg]
        rintro ⟨h3, h4⟩
        rcases List.mem_cons.mp h3 with h | h
        · exact h2 ⟨h, h4⟩
        · exact h1 ⟨h, h4⟩

theorem Team.acting_nodup (t : Team) (g : Guard) : (t.acting g).Nodup :=
  (List.nodup_range.filter _).filter _

theorem Team.active_nodup (t : Team) : t.active.Nodup := List.nodup_range.filter _

@[simp] theorem Team.guardOk_always (t : Team) (l : Nat) (u : Bool) (h : u = true ∨ l < t.lanes) :
    t.guardOk u l always = true := by
  rcases h with h | h
  · subst h; simp [Team.guardOk, always, Team.prd, Team.gpreg]
  · cases u
    · simp [Team.guardOk, always, Team.prd, Team.preg, Team.pmask, Team.allLanes, Nat.testBit_two_pow_sub_one, h]
    · simp [Team.guardOk, always, Team.prd, Team.gpreg]

/-- Without a guard the acting lanes are the active ones. -/
@[simp] theorem Team.acting_always (t : Team) : t.acting always = t.active := by
  unfold Team.acting
  rw [List.filter_eq_self]
  intro l hl
  apply Team.guardOk_always
  right
  simp only [Team.active, List.mem_filter, List.mem_range] at hl
  exact hl.1

theorem Team.acts_lane (t : Team) (g : Guard) (l : Nat) : t.acts false g l = decide (l ∈ t.acting g) := by
  simp [Team.acts, Team.acting, Team.active, Bool.and_assoc, Bool.and_comm]

/-- The flags that an arithmetic instruction raises. -/
def Team.aluFlags (t : Team) (u : Bool) (g : Guard) (f : Nat → Nat × W32) : W32 :=
  if u then (if t.guardOk true 0 g then (f 0).2 &&& 0x3F else 0) else orFlags (fun l => (f l).2) (t.acting g)

/-- What an arithmetic instruction changes: registers and flags. -/
theorem Team.alu_only (t : Team) (u : Bool) (g : Guard) (d k : Nat) (f : Nat → Nat × W32) :
    t.alu u g d k f = { t with v := (t.alu u g d k f).v, g := (t.alu u g d k f).g
                               tstat := t.tstat ||| t.aluFlags u g f } := by
  unfold Team.alu Team.aluFlags
  cases u
  · simp only [Bool.false_eq_true, if_false]
    conv_lhs => rw [Team.writeLanes_only]
    have : (t.writeLanes d k f (t.acting g)).g = t.g := by rw [Team.writeLanes_only]
    rw [this]
  · simp only [if_true]
    split
    · rw [Team.setGs_only]; simp [Team.raise]
    · simp

theorem Team.greg_writeLanes (t : Team) (d k : Nat) (f : Nat → Nat × W32) (ls : List Nat) (r : Nat) :
    (t.writeLanes d k f ls).greg r = t.greg r := by rw [Team.writeLanes_only]; rfl

/-- The lane registers after an arithmetic instruction. -/
theorem Team.vreg_alu (t : Team) (u : Bool) (g : Guard) (d k : Nat) (f : Nat → Nat × W32) (m r : Nat)
    (hd : u = false → d + k ≤ 128) (hr : r < 128) :
    (t.alu u g d k f).vreg m r =
      if u = false ∧ t.acts u g m = true ∧ d ≤ r ∧ r < d + k then BitVec.ofNat 32 ((f m).1 / 2 ^ (32 * (r - d)))
      else t.vreg m r := by
  cases u
  · rw [Team.acts_lane]
    simp only [Team.alu, Bool.false_eq_true, if_false, true_and]
    rw [Team.vreg_writeLanes t d k f _ (t.acting_nodup g) m r (hd rfl) hr]
    simp only [decide_eq_true_eq]
  · simp only [Team.alu, if_true, Bool.true_eq_false, false_and, if_false]
    split
    · rw [Team.vreg_raise, Team.setGs_only]; rfl
    · rfl

/-- The uniform registers after an arithmetic instruction. -/
theorem Team.greg_alu (t : Team) (u : Bool) (g : Guard) (d k : Nat) (f : Nat → Nat × W32) (r : Nat) :
    (t.alu u g d k f).greg r =
      if u = true ∧ t.acts u g 0 = true ∧ d ≤ r ∧ r < d + k then BitVec.ofNat 32 ((f 0).1 / 2 ^ (32 * (r - d)))
      else t.greg r := by
  unfold Team.alu Team.acts
  cases u
  · simp [Team.greg_writeLanes]
  · simp only [if_true, true_and]
    split
    · rw [Team.greg_raise, Team.greg_setGs]; simp [*]
    · simp [*]

/-- The result of an arithmetic instruction, read back as a number. -/
theorem Team.rd_alu (t : Team) (u : Bool) (g : Guard) (d k : Nat) (f : Nat → Nat × W32) (l : Nat)
    (hd : u = false → d + k ≤ 128) (ha : t.acts u g l = true) (hf : ∀ m, (f m).1 < 2 ^ (32 * k)) :
    (t.alu u g d k f).rd u l d k = (f (if u then 0 else l)).1 := by
  cases u
  · simp only [Team.rd, Bool.false_eq_true, if_false]
    apply Team.vregs_eq _ _ _ _ _ (hf l)
    intro j h1 h2
    have := hd rfl
    rw [Team.vreg_alu _ _ _ _ _ _ _ _ hd (by omega), if_pos ⟨rfl, ha, h1, h2⟩]
  · simp only [Team.rd, if_true]
    apply Team.gregs_eq _ _ _ _ (hf 0)
    intro j h1 h2
    rw [Team.greg_alu, if_pos ⟨rfl, by simpa [Team.acts] using ha, h1, h2⟩]

end Sys2Proof.Machine
end

