-- ==== Sys2Proof/Laws/Alu.lean ====
section
/-! SUPPORT. Packed elements, and the element functions of the integer arithmetic as operations on bit vectors. -/

namespace Sys2Proof.Machine

/-! ## Packed elements (R62) -/

theorem packElems_succ (w : Nat) (f : Nat → Nat) (n : Nat) :
    packElems w f (n+1) = packElems w f n + f n % 2 ^ w * 2 ^ (w * n) := by
  simp [packElems, List.range_succ]

theorem packElems_lt (w : Nat) (f : Nat → Nat) (n : Nat) : packElems w f n < 2 ^ (w * n) := by
  induction n with
  | zero => simp [packElems]
  | succ n ih =>
    rw [packElems_succ, Nat.mul_succ, pow_add]
    have : f n % 2 ^ w < 2 ^ w := Nat.mod_lt _ (by positivity)
    nlinarith [Nat.two_pow_pos (w*n)]

theorem element_packElems (w : Nat) (f : Nat → Nat) (n e : Nat) (he : e < n) :
    BitVec.ofNat w (packElems w f n / 2 ^ (w * e)) = BitVec.ofNat w (f e) := by
  induction n with
  | zero => omega
  | succ n ih =>
    rw [packElems_succ]
    apply BitVec.eq_of_toNat_eq
    by_cases h : e = n
    · subst h
      simp only [BitVec.toNat_ofNat]
      rw [Nat.add_mul_div_right _ _ (by positivity), Nat.div_eq_of_lt (packElems_lt w f e)]
      simp
    · have := congrArg BitVec.toNat (ih (by omega))
      simp only [BitVec.toNat_ofNat] at this ⊢
      rw [← this]
      have h2 : w * n = w * e + (w + w * (n - e - 1)) := by
        have : n = e + 1 + (n - e - 1) := by omega
        conv_lhs => rw [this]
        ring
      rw [h2, pow_add, ← mul_assoc, mul_comm (_ * _) (2 ^ (w + _)), ← mul_assoc, Nat.add_mul_div_right _ _ (by positivity),
        pow_add]
      rw [mul_assoc, Nat.add_mul_mod_self_left]

theorem tWidth_mul_tElems (t : BitVec 2) : tWidth t * tElems t = 32 * tCount t := by
  have : ∀ t : BitVec 2, tWidth t * tElems t = 32 * tCount t := by decide
  exact this t

theorem destination_fits (u : Bool) (n : Nat) (t : BitVec 2) (d : BitVec 7) (h : tBad u n t d = false) (hu : u = false) :
    d.toNat + tCount t ≤ 128 := by
  subst hu
  simp only [tBad, rBad, laneBad, Bool.false_eq_true, if_false, Bool.or_eq_false_iff, decide_eq_false_iff_not] at h
  have := d.isLt
  unfold tCount at *
  split at h <;> simp_all; omega

theorem Team.aluFlags_zero (t : Team) (u : Bool) (g : Guard) (f : Nat → Nat) : t.aluFlags u g (fun l => (f l, 0)) = 0 := by
  unfold Team.aluFlags
  have : ∀ ls, orFlags (fun _ => (0 : W32)) ls = 0 := by
    intro ls; induction ls <;> simp_all [orFlags]
  split
  · split <;> simp
  · exact this _

/-! ## Element functions as operations on bit vectors (R126, R128) -/

theorem toSigned_toInt (w : Nat) (hw : 0 < w) (x : BitVec w) : toSigned w x.toNat = x.toInt := by
  unfold toSigned
  rw [Nat.mod_eq_of_lt x.isLt, BitVec.toInt_eq_toNat_cond]
  have : 2 ^ w = 2 * 2 ^ (w - 1) := by rw [← pow_succ']; congr 1; omega
  split <;> split <;> simp_all; omega

theorem ofNat_wrap (w : Nat) (v : Int) : BitVec.ofNat w (wrap w v) = BitVec.ofInt w v := by
  apply BitVec.eq_of_toNat_eq
  simp only [wrap, BitVec.toNat_ofNat, BitVec.toNat_ofInt]
  have : 0 ≤ v % ((2 ^ w : Nat) : Int) := Int.emod_nonneg _ (by positivity)
  have h2 : v % ((2 ^ w : Nat) : Int) < ((2 ^ w : Nat) : Int) := Int.emod_lt_of_pos _ (by positivity)
  rw [Nat.mod_eq_of_lt]
  · rfl
  · simp only [Int.ofNat_eq_natCast]; omega

variable (w : Nat) (x y : BitVec w)

theorem ofNat_elSub : BitVec.ofNat w (elSub w x.toNat y.toNat) = x - y := by
  apply BitVec.eq_of_toNat_eq
  simp [elSub, BitVec.toNat_sub, Nat.add_comm]

theorem ofNat_elAdd : BitVec.ofNat w (elAdd w x.toNat y.toNat) = x + y := by
  apply BitVec.eq_of_toNat_eq; simp [elAdd]

theorem ofNat_elMul : BitVec.ofNat w (elMul w x.toNat y.toNat) = x * y := by
  apply BitVec.eq_of_toNat_eq; simp [elMul]

theorem ofNat_elMulhS (hw : 0 < w) : BitVec.ofNat w (elMulhS w x.toNat y.toNat) = BitVec.ofInt w (x.toInt * y.toInt / 2 ^ w) := by
  rw [elMulhS, ofNat_wrap, toSigned_toInt w hw, toSigned_toInt w hw]

theorem ofNat_elMinS (hw : 0 < w) : BitVec.ofNat w (elMinS w x.toNat y.toNat) = if x.toInt < y.toInt then x else y := by
  rw [elMinS, toSigned_toInt w hw, toSigned_toInt w hw]
  by_cases h : x.toInt = y.toInt
  · have := BitVec.toInt_inj.mp h; simp [this]
  · by_cases h2 : x.toInt < y.toInt
    · rw [if_pos (by omega), if_pos h2]; simp
    · rw [if_neg (by omega), if_neg h2]; simp

theorem ofNat_elClampS (v : Int) : BitVec.ofNat w (clampS w v) = BitVec.ofInt w (max (-(2 ^ (w - 1))) (min (2 ^ (w - 1) - 1) v)) := by
  rw [clampS, ofNat_wrap]; congr 1; unfold clamp
  have : (0:Int) < 2 ^ (w-1) := by positivity
  split
  · omega
  · split <;> omega

theorem ofNat_elAbs (hw : 0 < w) : BitVec.ofNat w (elAbs w x.toNat) = if x.toInt < 0 then -x else x := by
  rw [elAbs, ofNat_wrap, toSigned_toInt w hw]
  split
  · rename_i h
    have : Int.ofNat x.toInt.natAbs = - x.toInt := by simp; omega
    rw [this, BitVec.ofInt_neg, BitVec.ofInt_toInt]
  · have : Int.ofNat x.toInt.natAbs = x.toInt := by simp; omega
    rw [this, BitVec.ofInt_toInt]

theorem ofNat_elNeg : BitVec.ofNat w (elNeg w x.toNat) = -x := by
  apply BitVec.eq_of_toNat_eq; simp [elNeg, BitVec.toNat_neg]

theorem ofNat_elAddsZ : BitVec.ofNat w (elAddsZ w x.toNat y.toNat) = BitVec.ofNat w (min (2 ^ w - 1) (x.toNat + y.toNat)) := by
  rw [elAddsZ, clampZ, ofNat_wrap, ← BitVec.ofInt_natCast]; congr 1; unfold clamp
  have : (0:Int) < 2 ^ w := by positivity
  have h3 : ((2 ^ w : Nat) : Int) = 2 ^ w := by simp
  split
  · simp at *; omega
  · split <;> simp at * <;> omega

theorem ofNat_elSubsZ : BitVec.ofNat w (elSubsZ w x.toNat y.toNat) = BitVec.ofNat w (x.toNat - y.toNat) := by
  rw [elSubsZ, clampZ, ofNat_wrap, ← BitVec.ofInt_natCast]
  congr 1
  have hx : (x.toNat : Int) < 2 ^ w := by exact_mod_cast x.isLt
  generalize (2 : Int) ^ w = b at hx
  simp only [clamp, Int.ofNat_eq_natCast]
  split
  · omega
  · split <;> omega

theorem ofNat_elAndn : BitVec.ofNat w (elAndn w x.toNat y.toNat) = x &&& ~~~ y := by
  apply BitVec.eq_of_toNat_eq
  simp only [elAndn, BitVec.toNat_ofNat, BitVec.toNat_and, BitVec.toNat_not]
  exact Nat.mod_eq_of_lt (lt_of_le_of_lt Nat.and_le_left x.isLt)

theorem ofNat_elAnd : BitVec.ofNat w (elAnd w x.toNat y.toNat) = x &&& y := by
  apply BitVec.eq_of_toNat_eq
  simp only [elAnd, BitVec.toNat_ofNat, BitVec.toNat_and]
  exact Nat.mod_eq_of_lt (lt_of_le_of_lt Nat.and_le_left x.isLt)

theorem ofNat_elShl (c : Nat) : BitVec.ofNat w (x.toNat * 2 ^ c % 2 ^ w) = x <<< c := by
  apply BitVec.eq_of_toNat_eq; simp [Nat.shiftLeft_eq]

theorem ofNat_elShrZ (c : Nat) : BitVec.ofNat w (x.toNat / 2 ^ c) = x >>> c := by
  apply BitVec.eq_of_toNat_eq; simp [Nat.shiftRight_eq_div_pow]
  exact Nat.mod_eq_of_lt (lt_of_le_of_lt (Nat.div_le_self _ _) x.isLt)

theorem ofNat_elShrS (hw : 0 < w) (c : Nat) : BitVec.ofNat w (wrap w (toSigned w x.toNat / 2 ^ c)) = x.sshiftRight c := by
  rw [ofNat_wrap, toSigned_toInt w hw]
  apply BitVec.eq_of_toInt_eq
  rw [BitVec.toInt_sshiftRight, Int.shiftRight_eq_div_pow, BitVec.toInt_ofInt]
  have h1 := BitVec.two_mul_toInt_lt (x := x)
  have h2 := BitVec.le_two_mul_toInt (x := x)
  have := BitVec.toInt_sshiftRight (x := x) (n := c)
  have h3 := BitVec.toInt_bmod_cancel (x.sshiftRight c)
  rw [this, Int.shiftRight_eq_div_pow] at h3
  simpa using h3

theorem ofNat_elRotl (c : Nat) (hc : c < w) : BitVec.ofNat w ((x.toNat * 2 ^ c + x.toNat / 2 ^ (w - c)) % 2 ^ w) = x.rotateLeft c := by
  apply BitVec.eq_of_toNat_eq
  rw [BitVec.toNat_rotateLeft, Nat.mod_eq_of_lt hc]
  simp only [BitVec.toNat_ofNat, Nat.mod_mod]
  rw [Nat.shiftLeft_eq, Nat.shiftRight_eq_div_pow]
  have hp : 2 ^ w = 2 ^ c * 2 ^ (w - c) := by rw [← pow_add]; congr 1; omega
  have hlt : x.toNat / 2 ^ (w - c) < 2 ^ c := by
    rw [Nat.div_lt_iff_lt_mul (by positivity), ← hp]; exact x.isLt
  have h4 : x.toNat * 2 ^ c % 2 ^ w = 2 ^ c * (x.toNat % 2 ^ (w - c)) := by
    rw [hp, mul_comm x.toNat, Nat.mul_mod_mul_left]
  rw [Nat.add_mod, h4, Nat.mod_eq_of_lt (a := x.toNat / _) (lt_of_lt_of_le hlt (Nat.pow_le_pow_right (by omega) (by omega)))]
  rw [← Nat.two_pow_add_eq_or_of_lt hlt, Nat.mod_eq_of_lt]
  have : x.toNat % 2 ^ (w-c) + 1 ≤ 2 ^ (w - c) := Nat.mod_lt _ (by positivity)
  rw [hp]
  calc _ < 2 ^ c * (x.toNat % 2 ^ (w - c)) + 2 ^ c := by omega
    _ = 2 ^ c * (x.toNat % 2 ^ (w-c) + 1) := by ring
    _ ≤ _ := Nat.mul_le_mul_left _ this

end Sys2Proof.Machine
end

