-- ==== Sys2Proof/Laws/Memory.lean ====
section
/-! SUPPORT. Bytes of storage: what reads back after a write, what a write leaves, and that every operation on memory, on the
full/empty bits and on the poison bits keeps their canonical form. -/

namespace Sys2Proof.Machine

/-! ## One byte -/

theorem State.byte_setByte (s : State) (k j : Nat) (b : Byte) : (s.setByte k b).byte j = if j = k then b else s.byte j := by
  simp [State.byte, State.setByte, Tbl.get_set]

@[simp] theorem State.byte_setFull (s : State) (k j : Nat) (b : Bool) : (s.setFull k b).byte j = s.byte j := rfl
@[simp] theorem State.byte_setPoison (s : State) (k j : Nat) (b : Bool) : (s.setPoison k b).byte j = s.byte j := rfl
@[simp] theorem State.isFull_setByte (s : State) (k j : Nat) (b : Byte) : (s.setByte k b).isFull j = s.isFull j := rfl
@[simp] theorem State.isPoisoned_setByte (s : State) (k j : Nat) (b : Byte) : (s.setByte k b).isPoisoned j = s.isPoisoned j := rfl

theorem keyAdd_zero (k : Nat) : keyAdd k 0 = k := rfl
theorem keyAdd_add (k m n : Nat) : keyAdd (keyAdd k m) n = keyAdd k (m + n) := by simp only [keyAdd]; omega
theorem keyAdd_inj (k m n : Nat) : keyAdd k m = keyAdd k n ↔ m = n := by simp only [keyAdd]; omega

/-! ## Many bytes -/

/-- A byte after a write of many: the last of those that fell on it, which are apart, or the byte as it was. -/
theorem State.byte_writeBytes (s : State) (k : Nat) (bs : List Byte) (i : Nat) :
    (s.writeBytes k bs).byte (keyAdd k i) = (bs[i]?).getD (s.byte (keyAdd k i)) := by
  induction bs generalizing s k i with
  | nil => simp [State.writeBytes]
  | cons b r ih =>
    cases i with
    | zero =>
      have h : ∀ (s : State) (m n : Nat) (bs : List Byte), m < n → (s.writeBytes (keyAdd k n) bs).byte (keyAdd k m) = s.byte (keyAdd k m) := by
        intro s m n bs
        induction bs generalizing s n with
        | nil => intro _; rfl
        | cons c t ih' =>
          intro hm
          rw [State.writeBytes, keyAdd_add, ih' _ (n + 1) (by omega), State.byte_setByte, if_neg (by rw [keyAdd_inj]; omega)]
      rw [State.writeBytes, h _ 0 1 r (by omega), State.byte_setByte]
      simp [keyAdd_zero]
    | succ i =>
      have h := ih (s.setByte k b) (keyAdd k 1) i
      rw [keyAdd_add, Nat.add_comm] at h
      rw [State.writeBytes, h, State.byte_setByte, if_neg (by simp only [keyAdd]; omega)]
      simp

/-- A write leaves every byte outside what it writes. -/
theorem State.byte_writeBytes_other (s : State) (k : Nat) (bs : List Byte) (j : Nat) (h : ∀ i, i < bs.length → j ≠ keyAdd k i) :
    (s.writeBytes k bs).byte j = s.byte j := by
  induction bs generalizing s k with
  | nil => rfl
  | cons b r ih =>
    rw [State.writeBytes, ih, State.byte_setByte, if_neg (by simpa [keyAdd_zero] using h 0 (by simp))]
    intro i hi
    rw [keyAdd_add, Nat.add_comm]
    exact h (i + 1) (by simpa using hi)

/-- A write changes memory alone. -/
theorem State.writeBytes_only (s : State) (k : Nat) (bs : List Byte) : s.writeBytes k bs = { s with mem := (s.writeBytes k bs).mem } := by
  induction bs generalizing s k with
  | nil => rfl
  | cons b r ih => rw [State.writeBytes, ih]; rfl

/-! ## Cells, and what the paths see of them -/

@[simp] theorem State.byte_lift (s : State) (p : Nat) (w : Veil → Bool) (j : Nat) : (s.lift p w).byte j = s.byte j := rfl

/-- What several paths come to see changes the veils alone. -/
theorem State.liftAll_only (s : State) (ps : List Nat) (w : Veil → Bool) : s.liftAll ps w = { s with veils := (s.liftAll ps w).veils } := by
  induction ps generalizing s with
  | nil => rfl
  | cons p r ih => exact ih (s.lift p w)

/-- What the paths see of a write changes the veils alone. -/
theorem State.veilWrite_only (s : State) (path op : Nat) (ks : List Nat) :
    s.veilWrite path op ks = { s with veils := (s.veilWrite path op ks).veils } := by
  unfold State.veilWrite
  split
  · rfl
  · split
    · exact s.liftAll_only _ _
    · rfl

/-- Cells stored change memory alone. -/
theorem State.setCells_only (s : State) (cs : List (Nat × Byte)) : s.setCells cs = { s with mem := (s.setCells cs).mem } := by
  induction cs generalizing s with
  | nil => rfl
  | cons c r ih => exact ih (s.setByte c.1 c.2)

/-- A write changes memory and what the paths see of it. -/
theorem State.putCells_only (s : State) (path op : Nat) (cs : List (Nat × Byte)) :
    s.putCells path op cs = { s with mem := (s.putCells path op cs).mem, veils := (s.putCells path op cs).veils } := by
  unfold State.putCells
  rw [State.setCells_only, State.veilWrite_only]

/-- A byte after cells are stored: the last one of its key, or the byte as it was. -/
theorem State.byte_setCells (s : State) (cs : List (Nat × Byte)) (j : Nat) :
    (s.setCells cs).byte j = ((cs.reverse.find? fun c => c.1 == j).map Prod.snd).getD (s.byte j) := by
  induction cs generalizing s with
  | nil => rfl
  | cons c r ih =>
    rw [State.setCells, ih, State.byte_setByte, List.reverse_cons, List.find?_append]
    cases r.reverse.find? fun c => c.1 == j with
    | some x => rfl
    | none =>
      by_cases h : c.1 = j
      · simp [h]
      · simp [h, Ne.symm h]

/-- Bytes from a key on, stored as cells, are stored as bytes. -/
theorem State.setCells_cellsAt (s : State) (k : Nat) (bs : List Byte) : s.setCells (cellsAt k bs) = s.writeBytes k bs := by
  induction bs generalizing s k with
  | nil => rfl
  | cons b r ih => exact ih (s.setByte k b) (keyAdd k 1)

/-- The bytes after a write on a path are those of the plain write. -/
theorem State.mem_putBytes (s : State) (path op k : Nat) (bs : List Byte) :
    (s.putBytes path op k bs).mem = (s.writeBytes k bs).mem := by
  have h : ∀ (bs : List Byte) (s u : State) (k : Nat), s.mem = u.mem → (s.writeBytes k bs).mem = (u.writeBytes k bs).mem := by
    intro bs
    induction bs with
    | nil => exact fun _ _ _ h => h
    | cons b r ih => exact fun s u k h => ih _ _ _ (by simp [State.setByte, h])
  rw [State.putBytes, State.putCells, State.setCells_cellsAt]
  exact h bs _ _ k (by rw [State.veilWrite_only])

@[simp] theorem toBytes_length (n v : Nat) : (toBytes n v).length = n := by
  induction n generalizing v with
  | zero => rfl
  | succ n ih => simp [toBytes, ih]

/-! ## The canonical form -/

theorem State.setByte_wf (s : State) (k : Nat) (b : Byte) (h : Memory.wf s.mem = true) : Memory.wf (s.setByte k b).mem = true :=
  Tbl.wf_set s.mem 0 k b h

theorem State.writeBytes_wf (s : State) (k : Nat) (bs : List Byte) (h : Memory.wf s.mem = true) :
    Memory.wf (s.writeBytes k bs).mem = true := by
  induction bs generalizing s k with
  | nil => exact h
  | cons b r ih => exact ih _ _ (s.setByte_wf k b h)

theorem State.writeKey_wf (s : State) (k n v : Nat) (h : Memory.wf s.mem = true) : Memory.wf (s.writeKey k n v).mem = true :=
  s.writeBytes_wf k _ h

theorem State.setCells_wf (s : State) (cs : List (Nat × Byte)) (h : Memory.wf s.mem = true) : Memory.wf (s.setCells cs).mem = true := by
  induction cs generalizing s with
  | nil => exact h
  | cons c r ih => exact ih _ (s.setByte_wf c.1 c.2 h)

theorem State.putCells_wf (s : State) (path op : Nat) (cs : List (Nat × Byte)) (h : Memory.wf s.mem = true) :
    Memory.wf (s.putCells path op cs).mem = true :=
  State.setCells_wf _ cs (by rw [State.veilWrite_only]; exact h)

theorem State.setFull_wf (s : State) (k : Nat) (b : Bool) (h : Tbl.wf s.fe false = true) : Tbl.wf (s.setFull k b).fe false = true :=
  Tbl.wf_set s.fe false _ b h

theorem State.setPoison_wf (s : State) (k : Nat) (b : Bool) (h : Tbl.wf s.poison false = true) :
    Tbl.wf (s.setPoison k b).poison false = true :=
  Tbl.wf_set s.poison false _ b h

/-- Memory with some of its bytes gone (a discarded line, a scrub, the store of a launch that ended). -/
theorem Memory.filter_wf (m : List Host.Cell) (p : Host.Cell → Bool) (h : Memory.wf m = true) : Memory.wf (m.filter p) = true :=
  Tbl.wf_filter m 0 p h

/-- A table put under new keys (a cluster that moves to a spare). -/
theorem rekey_wf {α : Type} [DecidableEq α] (f : Nat → Nat) (t : Tbl α) (d : α) (h : Tbl.wf t d = true) : Tbl.wf (rekey f t) d = true := by
  have key : ∀ (r u : Tbl α), Tbl.wf u d = true → (r.all fun e => decide (e.2 ≠ d)) = true →
      Tbl.wf (r.foldl (fun u e => Tbl.put u (f e.1) e.2) u) d = true := by
    intro r
    induction r with
    | nil => exact fun _ hu _ => hu
    | cons e r ih =>
      intro u hu hr
      simp only [List.all_cons, Bool.and_eq_true] at hr
      refine ih _ ?_ hr.2
      simp only [Tbl.wf, Bool.and_eq_true] at hu ⊢
      exact ⟨Tbl.rising_put u _ _ hu.1, Tbl.all_put _ u _ _ hr.1 hu.2⟩
  simp only [Tbl.wf, Bool.and_eq_true] at h
  exact key t [] rfl h.2

theorem State.reset_wf : Memory.wf State.reset.mem = true := rfl

end Sys2Proof.Machine
end

