-- ==== Sys2Proof/Laws/Instr.lean ====
section
/-! SUPPORT. What the shared frames of the instructions do: the frame of a team's instruction, of one that needs a unit, of a
thread's and of the keeper's, each of which always comes to a next state; of a request of the host; and what a write does to
the machine beyond its bytes. -/

namespace Sys2Proof.Machine

variable (i : Instr) (s : State) (t k : Nat)

/-! ## Teams (R108, R194, R326) -/

variable (absent : Team → Bool) (body : Nat → Team → Except Trap State)

/-- Every way a team's instruction can end. -/
theorem unitInstr_cases (u : State) (h : unitInstr i absent s body = .next u) :
    (∀ t, s.cur.party ≠ .team t) ∧ u = s ∨
    ∃ t, s.cur.party = .team t ∧
      ((∃ w, i.illIn = some w ∧ u = s.teamTrap t (Trap.mk 0x01 (if w then s.cur.w2 else s.cur.w1) 0xFFFFFFFF 0)) ∨
       (i.illIn = none ∧ absent (s.team t) = true ∧ u = s.teamTrap t (Trap.mk 0x05 s.cur.w1 0xFFFFFFFF 0)) ∨
       (i.illIn = none ∧ absent (s.team t) = false ∧ ∃ w, i.regsBad (s.team t).n = some w ∧
          u = s.teamTrap t (Trap.mk 0x02 (if w then s.cur.w2 else s.cur.w1) 0xFFFFFFFF 0)) ∨
       (i.illIn = none ∧ absent (s.team t) = false ∧ i.regsBad (s.team t).n = none ∧
          (body t (s.team t) = .ok u ∨ ∃ e, body t (s.team t) = .error e ∧ u = s.teamTrap t e))) := by
  unfold unitInstr at h
  split at h
  · rename_i t hp
    refine Or.inr ⟨t, hp, ?_⟩
    dsimp only at h
    split at h
    · exact Or.inl ⟨_, ‹_›, by simpa using h.symm⟩
    · split at h
      · exact Or.inr (Or.inl ⟨‹_›, ‹_›, by simpa using h.symm⟩)
      · rename_i ha
        have ha := eq_false_of_ne_true ha
        split at h
        · exact Or.inr (Or.inr (Or.inl ⟨‹_›, ha, _, ‹_›, by simpa using h.symm⟩))
        · refine Or.inr (Or.inr (Or.inr ⟨‹_›, ha, ‹_›, ?_⟩))
          split at h
          · rename_i hb; exact Or.inl (by rw [hb]; simpa using h)
          · exact Or.inr ⟨_, ‹_›, by simpa using h.symm⟩
  · rename_i hp
    exact Or.inl ⟨fun t ht => hp t ht, by simpa using h.symm⟩

/-- A team's instruction always comes to a next state. -/
theorem unitInstr_next : ∃ u, unitInstr i absent s body = .next u := by
  unfold unitInstr
  split
  · dsimp only
    split
    · exact ⟨_, rfl⟩
    · split
      · exact ⟨_, rfl⟩
      · split
        · exact ⟨_, rfl⟩
        · split <;> exact ⟨_, rfl⟩
  · exact ⟨_, rfl⟩

/-- One that passes its checks runs its body. -/
theorem unitInstr_ok (u : State) (hp : s.cur.party = .team t) (hi : i.illIn = none) (ha : absent (s.team t) = false)
    (hr : i.regsBad (s.team t).n = none) (hb : body t (s.team t) = .ok u) : unitInstr i absent s body = .next u := by
  simp [unitInstr, hp, hi, ha, hr, hb]

/-- One whose body raises a trap takes it on the state before the instruction (R326). -/
theorem unitInstr_error (e : Trap) (hp : s.cur.party = .team t) (hi : i.illIn = none) (ha : absent (s.team t) = false)
    (hr : i.regsBad (s.team t).n = none) (hb : body t (s.team t) = .error e) :
    unitInstr i absent s body = .next (s.teamTrap t e) := by
  simp [unitInstr, hp, hi, ha, hr, hb]

theorem teamInstr_ok (u : State) (hp : s.cur.party = .team t) (hi : i.illIn = none) (hr : i.regsBad (s.team t).n = none)
    (hb : body t (s.team t) = .ok u) : teamInstr i s body = .next u :=
  unitInstr_ok i s t _ body u hp hi rfl hr hb

theorem teamInstr_error (e : Trap) (hp : s.cur.party = .team t) (hi : i.illIn = none) (hr : i.regsBad (s.team t).n = none)
    (hb : body t (s.team t) = .error e) : teamInstr i s body = .next (s.teamTrap t e) :=
  unitInstr_error i s t _ body e hp hi rfl hr hb

/-- The frame of the arithmetic: the team as the function makes it, control moved on. -/
theorem aluInstr_ok (f : Team → Team) (hp : s.cur.party = .team t) (hi : i.illIn = none) (hr : i.regsBad (s.team t).n = none) :
    aluInstr i s f = .next (s.retireTeam t (f (s.team t))) :=
  teamInstr_ok i s t _ _ hp hi hr rfl

/-! ## Threads and the keeper (R111, R313, R315) -/

variable (act : Nat → Slot → Except KTrap State)

theorem slotInstr_next : ∃ u, slotInstr i s act = .next u := by
  unfold slotInstr
  split
  · split
    · split <;> exact ⟨_, rfl⟩
    · exact ⟨_, rfl⟩
  · exact ⟨_, rfl⟩

/-- Every way a thread's instruction can end. -/
theorem slotInstr_cases (u : State) (h : slotInstr i s act = .next u) :
    (∀ k, s.cur.party ≠ .slot k) ∧ u = s ∨
    ∃ k, s.cur.party = .slot k ∧
      ((i.wellFormed = false ∧ u = s.keeperTrap k s.illegal.code s.illegal.tval) ∨
       (i.wellFormed = true ∧ (act k (s.slot k) = .ok u ∨ ∃ e, act k (s.slot k) = .error e ∧ u = s.keeperTrap k e.code e.tval))) := by
  unfold slotInstr at h
  split at h
  · rename_i k hp
    refine Or.inr ⟨k, hp, ?_⟩
    split at h
    · refine Or.inr ⟨‹_›, ?_⟩
      split at h
      · rename_i hb; exact Or.inl (by rw [hb]; simpa using h)
      · exact Or.inr ⟨_, ‹_›, by simpa using h.symm⟩
    · exact Or.inl ⟨eq_false_of_ne_true ‹_›, by simpa using h.symm⟩
  · rename_i hp
    exact Or.inl ⟨fun k hk => hp k hk, by simpa using h.symm⟩

theorem slotInstr_ok (u : State) (hp : s.cur.party = .slot k) (hi : i.wellFormed = true) (hb : act k (s.slot k) = .ok u) :
    slotInstr i s act = .next u := by
  simp [slotInstr, hp, hi, hb]

theorem slotInstr_error (e : KTrap) (hp : s.cur.party = .slot k) (hi : i.wellFormed = true) (hb : act k (s.slot k) = .error e) :
    slotInstr i s act = .next (s.keeperTrap k e.code e.tval) := by
  simp [slotInstr, hp, hi, hb]

/-- In slot 15 a keeper's instruction runs; in any other it is illegal. -/
theorem keeperInstr_ok (u : State) (hp : s.cur.party = .slot k) (hi : i.wellFormed = true) (hk : slotIndex k = 15)
    (hb : act k (s.slot k) = .ok u) : keeperInstr i s act = .next u :=
  slotInstr_ok i s k _ u hp hi (by simp [hk, hb])

theorem keeperInstr_elsewhere (hp : s.cur.party = .slot k) (hi : i.wellFormed = true) (hk : slotIndex k ≠ 15) :
    keeperInstr i s act = .next (s.keeperTrap k s.illegal.code s.illegal.tval) :=
  slotInstr_error i s k _ s.illegal hp hi (by simp [hk])

/-! ## The keeper's cause (R313) -/

/-- A cause taken by a slot 0 to 14 leaves its registers, its memory and every other slot but the keeper's events alone. -/
theorem State.keeperTrap_mem (code : BitVec 8) (tval : W64) : (s.keeperTrap k code tval).mem = s.mem := by
  unfold State.keeperTrap
  split
  · rfl
  · simp only [State.keeperEvent, State.modSlot, State.modCore, State.setSlot, State.setCore]

/-! ## Requests of the host (R402, R416) -/

variable (p : Nat) (o : Host.Outcome State Fault Refusal)

/-- A request that the interface does not take changes nothing. -/
theorem State.asked_refused (h : (s.part p).stopped = true ∨ s.recovery = true) : s.asked p o = .next s := by
  unfold State.asked; rcases h with h | h <;> simp [h]

/-- One that it takes does what it asks for. -/
theorem State.asked_taken (h : (s.part p).stopped = false) (h' : s.recovery = false) : s.asked p o = o := by
  simp [State.asked, h, h']

/-! ## D (R359) and writes at the coherence point -/

/-- Setting D changes memory and the cached leaves of the one cluster, no more. -/
theorem State.setDirty_only (cl : Nat) (l : Leaf) :
    s.setDirty cl l = { s with mem := (s.setDirty cl l).mem, clusters := (s.setDirty cl l).clusters } := by
  simp only [State.setDirty, State.writeKey]
  rw [State.writeBytes_only]; rfl

theorem State.dirtyLeaf_only (cl : Nat) (l : Leaf) :
    s.dirtyLeaf cl l = { s with mem := (s.dirtyLeaf cl l).mem, clusters := (s.dirtyLeaf cl l).clusters } := by
  unfold State.dirtyLeaf
  split
  · exact State.setDirty_only _ _ _
  · rfl

theorem State.dirty_only (cl : Nat) (ps : List Piece) :
    s.dirty cl ps = { s with mem := (s.dirty cl ps).mem, clusters := (s.dirty cl ps).clusters } := by
  unfold State.dirty
  induction ps generalizing s with
  | nil => rfl
  | cons q r ih =>
    rw [List.foldl_cons, ih]
    cases q.leaf with
    | none => rfl
    | some l => simp only [Option.map_some, Option.getD_some]; rw [State.dirtyLeaf_only]

/-- A write to pieces is made whole, or parks and stores nothing. -/
theorem State.writeAt_cases (w : Who) (op : Nat) (own : Option Nat) (a : Acc) (va : Nat) (ps : List Piece) (bs : List Byte) :
    (s.linesFit w.launch (s.newLines ps) = true ∧ s.writeAt w op own a va ps bs = (.value 0, s.storePieces w op own ps bs)) ∨
    (s.linesFit w.launch (s.newLines ps) = false ∧ s.writeAt w op own a va ps bs = s.parkFull w a va) := by
  unfold State.writeAt; split
  · exact Or.inl ⟨‹_›, rfl⟩
  · exact Or.inr ⟨eq_false_of_ne_true ‹_›, rfl⟩

end Sys2Proof.Machine
end

