-- ==== Sys2Proof/Laws/PerInstr.lean ====
section
/-! SUPPORT. Statements made of every instruction, one lemma each. -/

namespace Sys2Proof.Laws

end Sys2Proof.Laws
end

