-- ==== Sys2Proof/Laws/State.lean ====
section
/-! SUPPORT. What the single updates of the machine leave as it was, one lemma for each field and update, and what the updated
component reads as. -/

namespace Sys2Proof.Machine

variable (s : State) (i j : Nat)

/-! ## setTeam -/

@[simp] theorem State.setTeam_cur (x : Team) : (s.setTeam i x).cur = s.cur := rfl
@[simp] theorem State.setTeam_agenda (x : Team) : (s.setTeam i x).agenda = s.agenda := rfl
@[simp] theorem State.setTeam_fresh (x : Team) : (s.setTeam i x).fresh = s.fresh := rfl
@[simp] theorem State.setTeam_nextTeam (x : Team) : (s.setTeam i x).nextTeam = s.nextTeam := rfl
@[simp] theorem State.setTeam_nextOp (x : Team) : (s.setTeam i x).nextOp = s.nextOp := rfl
@[simp] theorem State.setTeam_nextLaunch (x : Team) : (s.setTeam i x).nextLaunch = s.nextLaunch := rfl
@[simp] theorem State.setTeam_time (x : Team) : (s.setTeam i x).time = s.time := rfl
@[simp] theorem State.setTeam_caps (x : Team) : (s.setTeam i x).caps = s.caps := rfl
@[simp] theorem State.setTeam_mem (x : Team) : (s.setTeam i x).mem = s.mem := rfl
@[simp] theorem State.setTeam_fe (x : Team) : (s.setTeam i x).fe = s.fe := rfl
@[simp] theorem State.setTeam_poison (x : Team) : (s.setTeam i x).poison = s.poison := rfl
@[simp] theorem State.setTeam_clusters (x : Team) : (s.setTeam i x).clusters = s.clusters := rfl
@[simp] theorem State.setTeam_cores (x : Team) : (s.setTeam i x).cores = s.cores := rfl
@[simp] theorem State.setTeam_slots (x : Team) : (s.setTeam i x).slots = s.slots := rfl
@[simp] theorem State.setTeam_ops (x : Team) : (s.setTeam i x).ops = s.ops := rfl
@[simp] theorem State.setTeam_parts (x : Team) : (s.setTeam i x).parts = s.parts := rfl
@[simp] theorem State.setTeam_lines (x : Team) : (s.setTeam i x).lines = s.lines := rfl
@[simp] theorem State.setTeam_lpages (x : Team) : (s.setTeam i x).lpages = s.lpages := rfl
@[simp] theorem State.setTeam_caches (x : Team) : (s.setTeam i x).caches = s.caches := rfl
@[simp] theorem State.setTeam_veils (x : Team) : (s.setTeam i x).veils = s.veils := rfl
@[simp] theorem State.setTeam_failing (x : Team) : (s.setTeam i x).failing = s.failing := rfl
@[simp] theorem State.setTeam_arrivals (x : Team) : (s.setTeam i x).arrivals = s.arrivals := rfl
@[simp] theorem State.setTeam_phases (x : Team) : (s.setTeam i x).phases = s.phases := rfl
@[simp] theorem State.setTeam_msix (x : Team) : (s.setTeam i x).msix = s.msix := rfl
@[simp] theorem State.setTeam_ras (x : Team) : (s.setTeam i x).ras = s.ras := rfl
@[simp] theorem State.setTeam_launches (x : Team) : (s.setTeam i x).launches = s.launches := rfl
@[simp] theorem State.setTeam_enabled (x : Team) : (s.setTeam i x).enabled = s.enabled := rfl
@[simp] theorem State.setTeam_spares (x : Team) : (s.setTeam i x).spares = s.spares := rfl
@[simp] theorem State.setTeam_sent (x : Team) : (s.setTeam i x).sent = s.sent := rfl
@[simp] theorem State.setTeam_rays (x : Team) : (s.setTeam i x).rays = s.rays := rfl
@[simp] theorem State.setTeam_rasterQ (x : Team) : (s.setTeam i x).rasterQ = s.rasterQ := rfl
@[simp] theorem State.setTeam_stewards (x : Team) : (s.setTeam i x).stewards = s.stewards := rfl
@[simp] theorem State.setTeam_tripped (x : Team) : (s.setTeam i x).tripped = s.tripped := rfl
@[simp] theorem State.setTeam_hbmStacks (x : Team) : (s.setTeam i x).hbmStacks = s.hbmStacks := rfl
@[simp] theorem State.setTeam_queues (x : Team) : (s.setTeam i x).queues = s.queues := rfl
@[simp] theorem State.setTeam_served (x : Team) : (s.setTeam i x).served = s.served := rfl
@[simp] theorem State.setTeam_aging (x : Team) : (s.setTeam i x).aging = s.aging := rfl
@[simp] theorem State.setTeam_images (x : Team) : (s.setTeam i x).images = s.images := rfl
@[simp] theorem State.setTeam_reports (x : Team) : (s.setTeam i x).reports = s.reports := rfl
@[simp] theorem State.setTeam_replies (x : Team) : (s.setTeam i x).replies = s.replies := rfl
@[simp] theorem State.setTeam_answers (x : Team) : (s.setTeam i x).answers = s.answers := rfl
@[simp] theorem State.setTeam_msixHeld (x : Team) : (s.setTeam i x).msixHeld = s.msixHeld := rfl
@[simp] theorem State.setTeam_power (x : Team) : (s.setTeam i x).power = s.power := rfl
@[simp] theorem State.setTeam_tier (x : Team) : (s.setTeam i x).tier = s.tier := rfl
@[simp] theorem State.setTeam_tierPoison (x : Team) : (s.setTeam i x).tierPoison = s.tierPoison := rfl
@[simp] theorem State.setTeam_waysOut (x : Team) : (s.setTeam i x).waysOut = s.waysOut := rfl
@[simp] theorem State.setTeam_links (x : Team) : (s.setTeam i x).links = s.links := rfl
@[simp] theorem State.setTeam_deadLinks (x : Team) : (s.setTeam i x).deadLinks = s.deadLinks := rfl
@[simp] theorem State.setTeam_hxHeld (x : Team) : (s.setTeam i x).hxHeld = s.hxHeld := rfl
@[simp] theorem State.setTeam_aborted (x : Team) : (s.setTeam i x).aborted = s.aborted := rfl
@[simp] theorem State.setTeam_checkpoint (x : Team) : (s.setTeam i x).checkpoint = s.checkpoint := rfl
@[simp] theorem State.setTeam_checkpointOut (x : Team) : (s.setTeam i x).checkpointOut = s.checkpointOut := rfl
@[simp] theorem State.setTeam_package (x : Team) : (s.setTeam i x).package = s.package := rfl
@[simp] theorem State.setTeam_bringUp (x : Team) : (s.setTeam i x).bringUp = s.bringUp := rfl
@[simp] theorem State.setTeam_recovery (x : Team) : (s.setTeam i x).recovery = s.recovery := rfl

/-! ## setSlot -/

@[simp] theorem State.setSlot_cur (x : Slot) : (s.setSlot i x).cur = s.cur := rfl
@[simp] theorem State.setSlot_agenda (x : Slot) : (s.setSlot i x).agenda = s.agenda := rfl
@[simp] theorem State.setSlot_fresh (x : Slot) : (s.setSlot i x).fresh = s.fresh := rfl
@[simp] theorem State.setSlot_nextTeam (x : Slot) : (s.setSlot i x).nextTeam = s.nextTeam := rfl
@[simp] theorem State.setSlot_nextOp (x : Slot) : (s.setSlot i x).nextOp = s.nextOp := rfl
@[simp] theorem State.setSlot_nextLaunch (x : Slot) : (s.setSlot i x).nextLaunch = s.nextLaunch := rfl
@[simp] theorem State.setSlot_time (x : Slot) : (s.setSlot i x).time = s.time := rfl
@[simp] theorem State.setSlot_caps (x : Slot) : (s.setSlot i x).caps = s.caps := rfl
@[simp] theorem State.setSlot_mem (x : Slot) : (s.setSlot i x).mem = s.mem := rfl
@[simp] theorem State.setSlot_fe (x : Slot) : (s.setSlot i x).fe = s.fe := rfl
@[simp] theorem State.setSlot_poison (x : Slot) : (s.setSlot i x).poison = s.poison := rfl
@[simp] theorem State.setSlot_clusters (x : Slot) : (s.setSlot i x).clusters = s.clusters := rfl
@[simp] theorem State.setSlot_cores (x : Slot) : (s.setSlot i x).cores = s.cores := rfl
@[simp] theorem State.setSlot_teams (x : Slot) : (s.setSlot i x).teams = s.teams := rfl
@[simp] theorem State.setSlot_ops (x : Slot) : (s.setSlot i x).ops = s.ops := rfl
@[simp] theorem State.setSlot_parts (x : Slot) : (s.setSlot i x).parts = s.parts := rfl
@[simp] theorem State.setSlot_lines (x : Slot) : (s.setSlot i x).lines = s.lines := rfl
@[simp] theorem State.setSlot_lpages (x : Slot) : (s.setSlot i x).lpages = s.lpages := rfl
@[simp] theorem State.setSlot_caches (x : Slot) : (s.setSlot i x).caches = s.caches := rfl
@[simp] theorem State.setSlot_veils (x : Slot) : (s.setSlot i x).veils = s.veils := rfl
@[simp] theorem State.setSlot_failing (x : Slot) : (s.setSlot i x).failing = s.failing := rfl
@[simp] theorem State.setSlot_arrivals (x : Slot) : (s.setSlot i x).arrivals = s.arrivals := rfl
@[simp] theorem State.setSlot_phases (x : Slot) : (s.setSlot i x).phases = s.phases := rfl
@[simp] theorem State.setSlot_msix (x : Slot) : (s.setSlot i x).msix = s.msix := rfl
@[simp] theorem State.setSlot_ras (x : Slot) : (s.setSlot i x).ras = s.ras := rfl
@[simp] theorem State.setSlot_launches (x : Slot) : (s.setSlot i x).launches = s.launches := rfl
@[simp] theorem State.setSlot_enabled (x : Slot) : (s.setSlot i x).enabled = s.enabled := rfl
@[simp] theorem State.setSlot_spares (x : Slot) : (s.setSlot i x).spares = s.spares := rfl
@[simp] theorem State.setSlot_sent (x : Slot) : (s.setSlot i x).sent = s.sent := rfl
@[simp] theorem State.setSlot_rays (x : Slot) : (s.setSlot i x).rays = s.rays := rfl
@[simp] theorem State.setSlot_rasterQ (x : Slot) : (s.setSlot i x).rasterQ = s.rasterQ := rfl
@[simp] theorem State.setSlot_stewards (x : Slot) : (s.setSlot i x).stewards = s.stewards := rfl
@[simp] theorem State.setSlot_tripped (x : Slot) : (s.setSlot i x).tripped = s.tripped := rfl
@[simp] theorem State.setSlot_hbmStacks (x : Slot) : (s.setSlot i x).hbmStacks = s.hbmStacks := rfl
@[simp] theorem State.setSlot_queues (x : Slot) : (s.setSlot i x).queues = s.queues := rfl
@[simp] theorem State.setSlot_served (x : Slot) : (s.setSlot i x).served = s.served := rfl
@[simp] theorem State.setSlot_aging (x : Slot) : (s.setSlot i x).aging = s.aging := rfl
@[simp] theorem State.setSlot_images (x : Slot) : (s.setSlot i x).images = s.images := rfl
@[simp] theorem State.setSlot_reports (x : Slot) : (s.setSlot i x).reports = s.reports := rfl
@[simp] theorem State.setSlot_replies (x : Slot) : (s.setSlot i x).replies = s.replies := rfl
@[simp] theorem State.setSlot_answers (x : Slot) : (s.setSlot i x).answers = s.answers := rfl
@[simp] theorem State.setSlot_msixHeld (x : Slot) : (s.setSlot i x).msixHeld = s.msixHeld := rfl
@[simp] theorem State.setSlot_power (x : Slot) : (s.setSlot i x).power = s.power := rfl
@[simp] theorem State.setSlot_tier (x : Slot) : (s.setSlot i x).tier = s.tier := rfl
@[simp] theorem State.setSlot_tierPoison (x : Slot) : (s.setSlot i x).tierPoison = s.tierPoison := rfl
@[simp] theorem State.setSlot_waysOut (x : Slot) : (s.setSlot i x).waysOut = s.waysOut := rfl
@[simp] theorem State.setSlot_links (x : Slot) : (s.setSlot i x).links = s.links := rfl
@[simp] theorem State.setSlot_deadLinks (x : Slot) : (s.setSlot i x).deadLinks = s.deadLinks := rfl
@[simp] theorem State.setSlot_hxHeld (x : Slot) : (s.setSlot i x).hxHeld = s.hxHeld := rfl
@[simp] theorem State.setSlot_aborted (x : Slot) : (s.setSlot i x).aborted = s.aborted := rfl
@[simp] theorem State.setSlot_checkpoint (x : Slot) : (s.setSlot i x).checkpoint = s.checkpoint := rfl
@[simp] theorem State.setSlot_checkpointOut (x : Slot) : (s.setSlot i x).checkpointOut = s.checkpointOut := rfl
@[simp] theorem State.setSlot_package (x : Slot) : (s.setSlot i x).package = s.package := rfl
@[simp] theorem State.setSlot_bringUp (x : Slot) : (s.setSlot i x).bringUp = s.bringUp := rfl
@[simp] theorem State.setSlot_recovery (x : Slot) : (s.setSlot i x).recovery = s.recovery := rfl

/-! ## setCore -/

@[simp] theorem State.setCore_cur (x : Core) : (s.setCore i x).cur = s.cur := rfl
@[simp] theorem State.setCore_agenda (x : Core) : (s.setCore i x).agenda = s.agenda := rfl
@[simp] theorem State.setCore_fresh (x : Core) : (s.setCore i x).fresh = s.fresh := rfl
@[simp] theorem State.setCore_nextTeam (x : Core) : (s.setCore i x).nextTeam = s.nextTeam := rfl
@[simp] theorem State.setCore_nextOp (x : Core) : (s.setCore i x).nextOp = s.nextOp := rfl
@[simp] theorem State.setCore_nextLaunch (x : Core) : (s.setCore i x).nextLaunch = s.nextLaunch := rfl
@[simp] theorem State.setCore_time (x : Core) : (s.setCore i x).time = s.time := rfl
@[simp] theorem State.setCore_caps (x : Core) : (s.setCore i x).caps = s.caps := rfl
@[simp] theorem State.setCore_mem (x : Core) : (s.setCore i x).mem = s.mem := rfl
@[simp] theorem State.setCore_fe (x : Core) : (s.setCore i x).fe = s.fe := rfl
@[simp] theorem State.setCore_poison (x : Core) : (s.setCore i x).poison = s.poison := rfl
@[simp] theorem State.setCore_clusters (x : Core) : (s.setCore i x).clusters = s.clusters := rfl
@[simp] theorem State.setCore_slots (x : Core) : (s.setCore i x).slots = s.slots := rfl
@[simp] theorem State.setCore_teams (x : Core) : (s.setCore i x).teams = s.teams := rfl
@[simp] theorem State.setCore_ops (x : Core) : (s.setCore i x).ops = s.ops := rfl
@[simp] theorem State.setCore_parts (x : Core) : (s.setCore i x).parts = s.parts := rfl
@[simp] theorem State.setCore_lines (x : Core) : (s.setCore i x).lines = s.lines := rfl
@[simp] theorem State.setCore_lpages (x : Core) : (s.setCore i x).lpages = s.lpages := rfl
@[simp] theorem State.setCore_caches (x : Core) : (s.setCore i x).caches = s.caches := rfl
@[simp] theorem State.setCore_veils (x : Core) : (s.setCore i x).veils = s.veils := rfl
@[simp] theorem State.setCore_failing (x : Core) : (s.setCore i x).failing = s.failing := rfl
@[simp] theorem State.setCore_arrivals (x : Core) : (s.setCore i x).arrivals = s.arrivals := rfl
@[simp] theorem State.setCore_phases (x : Core) : (s.setCore i x).phases = s.phases := rfl
@[simp] theorem State.setCore_msix (x : Core) : (s.setCore i x).msix = s.msix := rfl
@[simp] theorem State.setCore_ras (x : Core) : (s.setCore i x).ras = s.ras := rfl
@[simp] theorem State.setCore_launches (x : Core) : (s.setCore i x).launches = s.launches := rfl
@[simp] theorem State.setCore_enabled (x : Core) : (s.setCore i x).enabled = s.enabled := rfl
@[simp] theorem State.setCore_spares (x : Core) : (s.setCore i x).spares = s.spares := rfl
@[simp] theorem State.setCore_sent (x : Core) : (s.setCore i x).sent = s.sent := rfl
@[simp] theorem State.setCore_rays (x : Core) : (s.setCore i x).rays = s.rays := rfl
@[simp] theorem State.setCore_rasterQ (x : Core) : (s.setCore i x).rasterQ = s.rasterQ := rfl
@[simp] theorem State.setCore_stewards (x : Core) : (s.setCore i x).stewards = s.stewards := rfl
@[simp] theorem State.setCore_tripped (x : Core) : (s.setCore i x).tripped = s.tripped := rfl
@[simp] theorem State.setCore_hbmStacks (x : Core) : (s.setCore i x).hbmStacks = s.hbmStacks := rfl
@[simp] theorem State.setCore_queues (x : Core) : (s.setCore i x).queues = s.queues := rfl
@[simp] theorem State.setCore_served (x : Core) : (s.setCore i x).served = s.served := rfl
@[simp] theorem State.setCore_aging (x : Core) : (s.setCore i x).aging = s.aging := rfl
@[simp] theorem State.setCore_images (x : Core) : (s.setCore i x).images = s.images := rfl
@[simp] theorem State.setCore_reports (x : Core) : (s.setCore i x).reports = s.reports := rfl
@[simp] theorem State.setCore_replies (x : Core) : (s.setCore i x).replies = s.replies := rfl
@[simp] theorem State.setCore_answers (x : Core) : (s.setCore i x).answers = s.answers := rfl
@[simp] theorem State.setCore_msixHeld (x : Core) : (s.setCore i x).msixHeld = s.msixHeld := rfl
@[simp] theorem State.setCore_power (x : Core) : (s.setCore i x).power = s.power := rfl
@[simp] theorem State.setCore_tier (x : Core) : (s.setCore i x).tier = s.tier := rfl
@[simp] theorem State.setCore_tierPoison (x : Core) : (s.setCore i x).tierPoison = s.tierPoison := rfl
@[simp] theorem State.setCore_waysOut (x : Core) : (s.setCore i x).waysOut = s.waysOut := rfl
@[simp] theorem State.setCore_links (x : Core) : (s.setCore i x).links = s.links := rfl
@[simp] theorem State.setCore_deadLinks (x : Core) : (s.setCore i x).deadLinks = s.deadLinks := rfl
@[simp] theorem State.setCore_hxHeld (x : Core) : (s.setCore i x).hxHeld = s.hxHeld := rfl
@[simp] theorem State.setCore_aborted (x : Core) : (s.setCore i x).aborted = s.aborted := rfl
@[simp] theorem State.setCore_checkpoint (x : Core) : (s.setCore i x).checkpoint = s.checkpoint := rfl
@[simp] theorem State.setCore_checkpointOut (x : Core) : (s.setCore i x).checkpointOut = s.checkpointOut := rfl
@[simp] theorem State.setCore_package (x : Core) : (s.setCore i x).package = s.package := rfl
@[simp] theorem State.setCore_bringUp (x : Core) : (s.setCore i x).bringUp = s.bringUp := rfl
@[simp] theorem State.setCore_recovery (x : Core) : (s.setCore i x).recovery = s.recovery := rfl

/-! ## setCluster -/

@[simp] theorem State.setCluster_cur (x : Cluster) : (s.setCluster i x).cur = s.cur := rfl
@[simp] theorem State.setCluster_agenda (x : Cluster) : (s.setCluster i x).agenda = s.agenda := rfl
@[simp] theorem State.setCluster_fresh (x : Cluster) : (s.setCluster i x).fresh = s.fresh := rfl
@[simp] theorem State.setCluster_nextTeam (x : Cluster) : (s.setCluster i x).nextTeam = s.nextTeam := rfl
@[simp] theorem State.setCluster_nextOp (x : Cluster) : (s.setCluster i x).nextOp = s.nextOp := rfl
@[simp] theorem State.setCluster_nextLaunch (x : Cluster) : (s.setCluster i x).nextLaunch = s.nextLaunch := rfl
@[simp] theorem State.setCluster_time (x : Cluster) : (s.setCluster i x).time = s.time := rfl
@[simp] theorem State.setCluster_caps (x : Cluster) : (s.setCluster i x).caps = s.caps := rfl
@[simp] theorem State.setCluster_mem (x : Cluster) : (s.setCluster i x).mem = s.mem := rfl
@[simp] theorem State.setCluster_fe (x : Cluster) : (s.setCluster i x).fe = s.fe := rfl
@[simp] theorem State.setCluster_poison (x : Cluster) : (s.setCluster i x).poison = s.poison := rfl
@[simp] theorem State.setCluster_cores (x : Cluster) : (s.setCluster i x).cores = s.cores := rfl
@[simp] theorem State.setCluster_slots (x : Cluster) : (s.setCluster i x).slots = s.slots := rfl
@[simp] theorem State.setCluster_teams (x : Cluster) : (s.setCluster i x).teams = s.teams := rfl
@[simp] theorem State.setCluster_ops (x : Cluster) : (s.setCluster i x).ops = s.ops := rfl
@[simp] theorem State.setCluster_parts (x : Cluster) : (s.setCluster i x).parts = s.parts := rfl
@[simp] theorem State.setCluster_lines (x : Cluster) : (s.setCluster i x).lines = s.lines := rfl
@[simp] theorem State.setCluster_lpages (x : Cluster) : (s.setCluster i x).lpages = s.lpages := rfl
@[simp] theorem State.setCluster_caches (x : Cluster) : (s.setCluster i x).caches = s.caches := rfl
@[simp] theorem State.setCluster_veils (x : Cluster) : (s.setCluster i x).veils = s.veils := rfl
@[simp] theorem State.setCluster_failing (x : Cluster) : (s.setCluster i x).failing = s.failing := rfl
@[simp] theorem State.setCluster_arrivals (x : Cluster) : (s.setCluster i x).arrivals = s.arrivals := rfl
@[simp] theorem State.setCluster_phases (x : Cluster) : (s.setCluster i x).phases = s.phases := rfl
@[simp] theorem State.setCluster_msix (x : Cluster) : (s.setCluster i x).msix = s.msix := rfl
@[simp] theorem State.setCluster_ras (x : Cluster) : (s.setCluster i x).ras = s.ras := rfl
@[simp] theorem State.setCluster_launches (x : Cluster) : (s.setCluster i x).launches = s.launches := rfl
@[simp] theorem State.setCluster_enabled (x : Cluster) : (s.setCluster i x).enabled = s.enabled := rfl
@[simp] theorem State.setCluster_spares (x : Cluster) : (s.setCluster i x).spares = s.spares := rfl
@[simp] theorem State.setCluster_sent (x : Cluster) : (s.setCluster i x).sent = s.sent := rfl
@[simp] theorem State.setCluster_rays (x : Cluster) : (s.setCluster i x).rays = s.rays := rfl
@[simp] theorem State.setCluster_rasterQ (x : Cluster) : (s.setCluster i x).rasterQ = s.rasterQ := rfl
@[simp] theorem State.setCluster_stewards (x : Cluster) : (s.setCluster i x).stewards = s.stewards := rfl
@[simp] theorem State.setCluster_tripped (x : Cluster) : (s.setCluster i x).tripped = s.tripped := rfl
@[simp] theorem State.setCluster_hbmStacks (x : Cluster) : (s.setCluster i x).hbmStacks = s.hbmStacks := rfl
@[simp] theorem State.setCluster_queues (x : Cluster) : (s.setCluster i x).queues = s.queues := rfl
@[simp] theorem State.setCluster_served (x : Cluster) : (s.setCluster i x).served = s.served := rfl
@[simp] theorem State.setCluster_aging (x : Cluster) : (s.setCluster i x).aging = s.aging := rfl
@[simp] theorem State.setCluster_images (x : Cluster) : (s.setCluster i x).images = s.images := rfl
@[simp] theorem State.setCluster_reports (x : Cluster) : (s.setCluster i x).reports = s.reports := rfl
@[simp] theorem State.setCluster_replies (x : Cluster) : (s.setCluster i x).replies = s.replies := rfl
@[simp] theorem State.setCluster_answers (x : Cluster) : (s.setCluster i x).answers = s.answers := rfl
@[simp] theorem State.setCluster_msixHeld (x : Cluster) : (s.setCluster i x).msixHeld = s.msixHeld := rfl
@[simp] theorem State.setCluster_power (x : Cluster) : (s.setCluster i x).power = s.power := rfl
@[simp] theorem State.setCluster_tier (x : Cluster) : (s.setCluster i x).tier = s.tier := rfl
@[simp] theorem State.setCluster_tierPoison (x : Cluster) : (s.setCluster i x).tierPoison = s.tierPoison := rfl
@[simp] theorem State.setCluster_waysOut (x : Cluster) : (s.setCluster i x).waysOut = s.waysOut := rfl
@[simp] theorem State.setCluster_links (x : Cluster) : (s.setCluster i x).links = s.links := rfl
@[simp] theorem State.setCluster_deadLinks (x : Cluster) : (s.setCluster i x).deadLinks = s.deadLinks := rfl
@[simp] theorem State.setCluster_hxHeld (x : Cluster) : (s.setCluster i x).hxHeld = s.hxHeld := rfl
@[simp] theorem State.setCluster_aborted (x : Cluster) : (s.setCluster i x).aborted = s.aborted := rfl
@[simp] theorem State.setCluster_checkpoint (x : Cluster) : (s.setCluster i x).checkpoint = s.checkpoint := rfl
@[simp] theorem State.setCluster_checkpointOut (x : Cluster) : (s.setCluster i x).checkpointOut = s.checkpointOut := rfl
@[simp] theorem State.setCluster_package (x : Cluster) : (s.setCluster i x).package = s.package := rfl
@[simp] theorem State.setCluster_bringUp (x : Cluster) : (s.setCluster i x).bringUp = s.bringUp := rfl
@[simp] theorem State.setCluster_recovery (x : Cluster) : (s.setCluster i x).recovery = s.recovery := rfl

/-! ## setLaunch -/

@[simp] theorem State.setLaunch_cur (x : Launch) : (s.setLaunch i x).cur = s.cur := rfl
@[simp] theorem State.setLaunch_agenda (x : Launch) : (s.setLaunch i x).agenda = s.agenda := rfl
@[simp] theorem State.setLaunch_fresh (x : Launch) : (s.setLaunch i x).fresh = s.fresh := rfl
@[simp] theorem State.setLaunch_nextTeam (x : Launch) : (s.setLaunch i x).nextTeam = s.nextTeam := rfl
@[simp] theorem State.setLaunch_nextOp (x : Launch) : (s.setLaunch i x).nextOp = s.nextOp := rfl
@[simp] theorem State.setLaunch_nextLaunch (x : Launch) : (s.setLaunch i x).nextLaunch = s.nextLaunch := rfl
@[simp] theorem State.setLaunch_time (x : Launch) : (s.setLaunch i x).time = s.time := rfl
@[simp] theorem State.setLaunch_caps (x : Launch) : (s.setLaunch i x).caps = s.caps := rfl
@[simp] theorem State.setLaunch_mem (x : Launch) : (s.setLaunch i x).mem = s.mem := rfl
@[simp] theorem State.setLaunch_fe (x : Launch) : (s.setLaunch i x).fe = s.fe := rfl
@[simp] theorem State.setLaunch_poison (x : Launch) : (s.setLaunch i x).poison = s.poison := rfl
@[simp] theorem State.setLaunch_clusters (x : Launch) : (s.setLaunch i x).clusters = s.clusters := rfl
@[simp] theorem State.setLaunch_cores (x : Launch) : (s.setLaunch i x).cores = s.cores := rfl
@[simp] theorem State.setLaunch_slots (x : Launch) : (s.setLaunch i x).slots = s.slots := rfl
@[simp] theorem State.setLaunch_teams (x : Launch) : (s.setLaunch i x).teams = s.teams := rfl
@[simp] theorem State.setLaunch_ops (x : Launch) : (s.setLaunch i x).ops = s.ops := rfl
@[simp] theorem State.setLaunch_parts (x : Launch) : (s.setLaunch i x).parts = s.parts := rfl
@[simp] theorem State.setLaunch_lines (x : Launch) : (s.setLaunch i x).lines = s.lines := rfl
@[simp] theorem State.setLaunch_lpages (x : Launch) : (s.setLaunch i x).lpages = s.lpages := rfl
@[simp] theorem State.setLaunch_caches (x : Launch) : (s.setLaunch i x).caches = s.caches := rfl
@[simp] theorem State.setLaunch_veils (x : Launch) : (s.setLaunch i x).veils = s.veils := rfl
@[simp] theorem State.setLaunch_failing (x : Launch) : (s.setLaunch i x).failing = s.failing := rfl
@[simp] theorem State.setLaunch_arrivals (x : Launch) : (s.setLaunch i x).arrivals = s.arrivals := rfl
@[simp] theorem State.setLaunch_phases (x : Launch) : (s.setLaunch i x).phases = s.phases := rfl
@[simp] theorem State.setLaunch_msix (x : Launch) : (s.setLaunch i x).msix = s.msix := rfl
@[simp] theorem State.setLaunch_ras (x : Launch) : (s.setLaunch i x).ras = s.ras := rfl
@[simp] theorem State.setLaunch_enabled (x : Launch) : (s.setLaunch i x).enabled = s.enabled := rfl
@[simp] theorem State.setLaunch_spares (x : Launch) : (s.setLaunch i x).spares = s.spares := rfl
@[simp] theorem State.setLaunch_sent (x : Launch) : (s.setLaunch i x).sent = s.sent := rfl
@[simp] theorem State.setLaunch_rays (x : Launch) : (s.setLaunch i x).rays = s.rays := rfl
@[simp] theorem State.setLaunch_rasterQ (x : Launch) : (s.setLaunch i x).rasterQ = s.rasterQ := rfl
@[simp] theorem State.setLaunch_stewards (x : Launch) : (s.setLaunch i x).stewards = s.stewards := rfl
@[simp] theorem State.setLaunch_tripped (x : Launch) : (s.setLaunch i x).tripped = s.tripped := rfl
@[simp] theorem State.setLaunch_hbmStacks (x : Launch) : (s.setLaunch i x).hbmStacks = s.hbmStacks := rfl
@[simp] theorem State.setLaunch_queues (x : Launch) : (s.setLaunch i x).queues = s.queues := rfl
@[simp] theorem State.setLaunch_served (x : Launch) : (s.setLaunch i x).served = s.served := rfl
@[simp] theorem State.setLaunch_aging (x : Launch) : (s.setLaunch i x).aging = s.aging := rfl
@[simp] theorem State.setLaunch_images (x : Launch) : (s.setLaunch i x).images = s.images := rfl
@[simp] theorem State.setLaunch_reports (x : Launch) : (s.setLaunch i x).reports = s.reports := rfl
@[simp] theorem State.setLaunch_replies (x : Launch) : (s.setLaunch i x).replies = s.replies := rfl
@[simp] theorem State.setLaunch_answers (x : Launch) : (s.setLaunch i x).answers = s.answers := rfl
@[simp] theorem State.setLaunch_msixHeld (x : Launch) : (s.setLaunch i x).msixHeld = s.msixHeld := rfl
@[simp] theorem State.setLaunch_power (x : Launch) : (s.setLaunch i x).power = s.power := rfl
@[simp] theorem State.setLaunch_tier (x : Launch) : (s.setLaunch i x).tier = s.tier := rfl
@[simp] theorem State.setLaunch_tierPoison (x : Launch) : (s.setLaunch i x).tierPoison = s.tierPoison := rfl
@[simp] theorem State.setLaunch_waysOut (x : Launch) : (s.setLaunch i x).waysOut = s.waysOut := rfl
@[simp] theorem State.setLaunch_links (x : Launch) : (s.setLaunch i x).links = s.links := rfl
@[simp] theorem State.setLaunch_deadLinks (x : Launch) : (s.setLaunch i x).deadLinks = s.deadLinks := rfl
@[simp] theorem State.setLaunch_hxHeld (x : Launch) : (s.setLaunch i x).hxHeld = s.hxHeld := rfl
@[simp] theorem State.setLaunch_aborted (x : Launch) : (s.setLaunch i x).aborted = s.aborted := rfl
@[simp] theorem State.setLaunch_checkpoint (x : Launch) : (s.setLaunch i x).checkpoint = s.checkpoint := rfl
@[simp] theorem State.setLaunch_checkpointOut (x : Launch) : (s.setLaunch i x).checkpointOut = s.checkpointOut := rfl
@[simp] theorem State.setLaunch_package (x : Launch) : (s.setLaunch i x).package = s.package := rfl
@[simp] theorem State.setLaunch_bringUp (x : Launch) : (s.setLaunch i x).bringUp = s.bringUp := rfl
@[simp] theorem State.setLaunch_recovery (x : Launch) : (s.setLaunch i x).recovery = s.recovery := rfl

/-! ## setQueue -/

@[simp] theorem State.setQueue_cur (x : Queue) : (s.setQueue i x).cur = s.cur := rfl
@[simp] theorem State.setQueue_agenda (x : Queue) : (s.setQueue i x).agenda = s.agenda := rfl
@[simp] theorem State.setQueue_fresh (x : Queue) : (s.setQueue i x).fresh = s.fresh := rfl
@[simp] theorem State.setQueue_nextTeam (x : Queue) : (s.setQueue i x).nextTeam = s.nextTeam := rfl
@[simp] theorem State.setQueue_nextOp (x : Queue) : (s.setQueue i x).nextOp = s.nextOp := rfl
@[simp] theorem State.setQueue_nextLaunch (x : Queue) : (s.setQueue i x).nextLaunch = s.nextLaunch := rfl
@[simp] theorem State.setQueue_time (x : Queue) : (s.setQueue i x).time = s.time := rfl
@[simp] theorem State.setQueue_caps (x : Queue) : (s.setQueue i x).caps = s.caps := rfl
@[simp] theorem State.setQueue_mem (x : Queue) : (s.setQueue i x).mem = s.mem := rfl
@[simp] theorem State.setQueue_fe (x : Queue) : (s.setQueue i x).fe = s.fe := rfl
@[simp] theorem State.setQueue_poison (x : Queue) : (s.setQueue i x).poison = s.poison := rfl
@[simp] theorem State.setQueue_clusters (x : Queue) : (s.setQueue i x).clusters = s.clusters := rfl
@[simp] theorem State.setQueue_cores (x : Queue) : (s.setQueue i x).cores = s.cores := rfl
@[simp] theorem State.setQueue_slots (x : Queue) : (s.setQueue i x).slots = s.slots := rfl
@[simp] theorem State.setQueue_teams (x : Queue) : (s.setQueue i x).teams = s.teams := rfl
@[simp] theorem State.setQueue_ops (x : Queue) : (s.setQueue i x).ops = s.ops := rfl
@[simp] theorem State.setQueue_parts (x : Queue) : (s.setQueue i x).parts = s.parts := rfl
@[simp] theorem State.setQueue_lines (x : Queue) : (s.setQueue i x).lines = s.lines := rfl
@[simp] theorem State.setQueue_lpages (x : Queue) : (s.setQueue i x).lpages = s.lpages := rfl
@[simp] theorem State.setQueue_caches (x : Queue) : (s.setQueue i x).caches = s.caches := rfl
@[simp] theorem State.setQueue_veils (x : Queue) : (s.setQueue i x).veils = s.veils := rfl
@[simp] theorem State.setQueue_failing (x : Queue) : (s.setQueue i x).failing = s.failing := rfl
@[simp] theorem State.setQueue_arrivals (x : Queue) : (s.setQueue i x).arrivals = s.arrivals := rfl
@[simp] theorem State.setQueue_phases (x : Queue) : (s.setQueue i x).phases = s.phases := rfl
@[simp] theorem State.setQueue_msix (x : Queue) : (s.setQueue i x).msix = s.msix := rfl
@[simp] theorem State.setQueue_ras (x : Queue) : (s.setQueue i x).ras = s.ras := rfl
@[simp] theorem State.setQueue_launches (x : Queue) : (s.setQueue i x).launches = s.launches := rfl
@[simp] theorem State.setQueue_enabled (x : Queue) : (s.setQueue i x).enabled = s.enabled := rfl
@[simp] theorem State.setQueue_spares (x : Queue) : (s.setQueue i x).spares = s.spares := rfl
@[simp] theorem State.setQueue_sent (x : Queue) : (s.setQueue i x).sent = s.sent := rfl
@[simp] theorem State.setQueue_rays (x : Queue) : (s.setQueue i x).rays = s.rays := rfl
@[simp] theorem State.setQueue_rasterQ (x : Queue) : (s.setQueue i x).rasterQ = s.rasterQ := rfl
@[simp] theorem State.setQueue_stewards (x : Queue) : (s.setQueue i x).stewards = s.stewards := rfl
@[simp] theorem State.setQueue_tripped (x : Queue) : (s.setQueue i x).tripped = s.tripped := rfl
@[simp] theorem State.setQueue_hbmStacks (x : Queue) : (s.setQueue i x).hbmStacks = s.hbmStacks := rfl
@[simp] theorem State.setQueue_served (x : Queue) : (s.setQueue i x).served = s.served := rfl
@[simp] theorem State.setQueue_aging (x : Queue) : (s.setQueue i x).aging = s.aging := rfl
@[simp] theorem State.setQueue_images (x : Queue) : (s.setQueue i x).images = s.images := rfl
@[simp] theorem State.setQueue_reports (x : Queue) : (s.setQueue i x).reports = s.reports := rfl
@[simp] theorem State.setQueue_replies (x : Queue) : (s.setQueue i x).replies = s.replies := rfl
@[simp] theorem State.setQueue_answers (x : Queue) : (s.setQueue i x).answers = s.answers := rfl
@[simp] theorem State.setQueue_msixHeld (x : Queue) : (s.setQueue i x).msixHeld = s.msixHeld := rfl
@[simp] theorem State.setQueue_power (x : Queue) : (s.setQueue i x).power = s.power := rfl
@[simp] theorem State.setQueue_tier (x : Queue) : (s.setQueue i x).tier = s.tier := rfl
@[simp] theorem State.setQueue_tierPoison (x : Queue) : (s.setQueue i x).tierPoison = s.tierPoison := rfl
@[simp] theorem State.setQueue_waysOut (x : Queue) : (s.setQueue i x).waysOut = s.waysOut := rfl
@[simp] theorem State.setQueue_links (x : Queue) : (s.setQueue i x).links = s.links := rfl
@[simp] theorem State.setQueue_deadLinks (x : Queue) : (s.setQueue i x).deadLinks = s.deadLinks := rfl
@[simp] theorem State.setQueue_hxHeld (x : Queue) : (s.setQueue i x).hxHeld = s.hxHeld := rfl
@[simp] theorem State.setQueue_aborted (x : Queue) : (s.setQueue i x).aborted = s.aborted := rfl
@[simp] theorem State.setQueue_checkpoint (x : Queue) : (s.setQueue i x).checkpoint = s.checkpoint := rfl
@[simp] theorem State.setQueue_checkpointOut (x : Queue) : (s.setQueue i x).checkpointOut = s.checkpointOut := rfl
@[simp] theorem State.setQueue_package (x : Queue) : (s.setQueue i x).package = s.package := rfl
@[simp] theorem State.setQueue_bringUp (x : Queue) : (s.setQueue i x).bringUp = s.bringUp := rfl
@[simp] theorem State.setQueue_recovery (x : Queue) : (s.setQueue i x).recovery = s.recovery := rfl

/-! ## setPart -/

@[simp] theorem State.setPart_cur (x : Part) : (s.setPart i x).cur = s.cur := rfl
@[simp] theorem State.setPart_agenda (x : Part) : (s.setPart i x).agenda = s.agenda := rfl
@[simp] theorem State.setPart_fresh (x : Part) : (s.setPart i x).fresh = s.fresh := rfl
@[simp] theorem State.setPart_nextTeam (x : Part) : (s.setPart i x).nextTeam = s.nextTeam := rfl
@[simp] theorem State.setPart_nextOp (x : Part) : (s.setPart i x).nextOp = s.nextOp := rfl
@[simp] theorem State.setPart_nextLaunch (x : Part) : (s.setPart i x).nextLaunch = s.nextLaunch := rfl
@[simp] theorem State.setPart_time (x : Part) : (s.setPart i x).time = s.time := rfl
@[simp] theorem State.setPart_caps (x : Part) : (s.setPart i x).caps = s.caps := rfl
@[simp] theorem State.setPart_mem (x : Part) : (s.setPart i x).mem = s.mem := rfl
@[simp] theorem State.setPart_fe (x : Part) : (s.setPart i x).fe = s.fe := rfl
@[simp] theorem State.setPart_poison (x : Part) : (s.setPart i x).poison = s.poison := rfl
@[simp] theorem State.setPart_clusters (x : Part) : (s.setPart i x).clusters = s.clusters := rfl
@[simp] theorem State.setPart_cores (x : Part) : (s.setPart i x).cores = s.cores := rfl
@[simp] theorem State.setPart_slots (x : Part) : (s.setPart i x).slots = s.slots := rfl
@[simp] theorem State.setPart_teams (x : Part) : (s.setPart i x).teams = s.teams := rfl
@[simp] theorem State.setPart_ops (x : Part) : (s.setPart i x).ops = s.ops := rfl
@[simp] theorem State.setPart_lines (x : Part) : (s.setPart i x).lines = s.lines := rfl
@[simp] theorem State.setPart_lpages (x : Part) : (s.setPart i x).lpages = s.lpages := rfl
@[simp] theorem State.setPart_caches (x : Part) : (s.setPart i x).caches = s.caches := rfl
@[simp] theorem State.setPart_veils (x : Part) : (s.setPart i x).veils = s.veils := rfl
@[simp] theorem State.setPart_failing (x : Part) : (s.setPart i x).failing = s.failing := rfl
@[simp] theorem State.setPart_arrivals (x : Part) : (s.setPart i x).arrivals = s.arrivals := rfl
@[simp] theorem State.setPart_phases (x : Part) : (s.setPart i x).phases = s.phases := rfl
@[simp] theorem State.setPart_msix (x : Part) : (s.setPart i x).msix = s.msix := rfl
@[simp] theorem State.setPart_ras (x : Part) : (s.setPart i x).ras = s.ras := rfl
@[simp] theorem State.setPart_launches (x : Part) : (s.setPart i x).launches = s.launches := rfl
@[simp] theorem State.setPart_enabled (x : Part) : (s.setPart i x).enabled = s.enabled := rfl
@[simp] theorem State.setPart_spares (x : Part) : (s.setPart i x).spares = s.spares := rfl
@[simp] theorem State.setPart_sent (x : Part) : (s.setPart i x).sent = s.sent := rfl
@[simp] theorem State.setPart_rays (x : Part) : (s.setPart i x).rays = s.rays := rfl
@[simp] theorem State.setPart_rasterQ (x : Part) : (s.setPart i x).rasterQ = s.rasterQ := rfl
@[simp] theorem State.setPart_stewards (x : Part) : (s.setPart i x).stewards = s.stewards := rfl
@[simp] theorem State.setPart_tripped (x : Part) : (s.setPart i x).tripped = s.tripped := rfl
@[simp] theorem State.setPart_hbmStacks (x : Part) : (s.setPart i x).hbmStacks = s.hbmStacks := rfl
@[simp] theorem State.setPart_queues (x : Part) : (s.setPart i x).queues = s.queues := rfl
@[simp] theorem State.setPart_served (x : Part) : (s.setPart i x).served = s.served := rfl
@[simp] theorem State.setPart_aging (x : Part) : (s.setPart i x).aging = s.aging := rfl
@[simp] theorem State.setPart_images (x : Part) : (s.setPart i x).images = s.images := rfl
@[simp] theorem State.setPart_reports (x : Part) : (s.setPart i x).reports = s.reports := rfl
@[simp] theorem State.setPart_replies (x : Part) : (s.setPart i x).replies = s.replies := rfl
@[simp] theorem State.setPart_answers (x : Part) : (s.setPart i x).answers = s.answers := rfl
@[simp] theorem State.setPart_msixHeld (x : Part) : (s.setPart i x).msixHeld = s.msixHeld := rfl
@[simp] theorem State.setPart_power (x : Part) : (s.setPart i x).power = s.power := rfl
@[simp] theorem State.setPart_tier (x : Part) : (s.setPart i x).tier = s.tier := rfl
@[simp] theorem State.setPart_tierPoison (x : Part) : (s.setPart i x).tierPoison = s.tierPoison := rfl
@[simp] theorem State.setPart_waysOut (x : Part) : (s.setPart i x).waysOut = s.waysOut := rfl
@[simp] theorem State.setPart_links (x : Part) : (s.setPart i x).links = s.links := rfl
@[simp] theorem State.setPart_deadLinks (x : Part) : (s.setPart i x).deadLinks = s.deadLinks := rfl
@[simp] theorem State.setPart_hxHeld (x : Part) : (s.setPart i x).hxHeld = s.hxHeld := rfl
@[simp] theorem State.setPart_aborted (x : Part) : (s.setPart i x).aborted = s.aborted := rfl
@[simp] theorem State.setPart_checkpoint (x : Part) : (s.setPart i x).checkpoint = s.checkpoint := rfl
@[simp] theorem State.setPart_checkpointOut (x : Part) : (s.setPart i x).checkpointOut = s.checkpointOut := rfl
@[simp] theorem State.setPart_package (x : Part) : (s.setPart i x).package = s.package := rfl
@[simp] theorem State.setPart_bringUp (x : Part) : (s.setPart i x).bringUp = s.bringUp := rfl
@[simp] theorem State.setPart_recovery (x : Part) : (s.setPart i x).recovery = s.recovery := rfl

/-! ## setOp -/

@[simp] theorem State.setOp_cur (x : Op) : (s.setOp i x).cur = s.cur := rfl
@[simp] theorem State.setOp_agenda (x : Op) : (s.setOp i x).agenda = s.agenda := rfl
@[simp] theorem State.setOp_fresh (x : Op) : (s.setOp i x).fresh = s.fresh := rfl
@[simp] theorem State.setOp_nextTeam (x : Op) : (s.setOp i x).nextTeam = s.nextTeam := rfl
@[simp] theorem State.setOp_nextOp (x : Op) : (s.setOp i x).nextOp = s.nextOp := rfl
@[simp] theorem State.setOp_nextLaunch (x : Op) : (s.setOp i x).nextLaunch = s.nextLaunch := rfl
@[simp] theorem State.setOp_time (x : Op) : (s.setOp i x).time = s.time := rfl
@[simp] theorem State.setOp_caps (x : Op) : (s.setOp i x).caps = s.caps := rfl
@[simp] theorem State.setOp_mem (x : Op) : (s.setOp i x).mem = s.mem := rfl
@[simp] theorem State.setOp_fe (x : Op) : (s.setOp i x).fe = s.fe := rfl
@[simp] theorem State.setOp_poison (x : Op) : (s.setOp i x).poison = s.poison := rfl
@[simp] theorem State.setOp_clusters (x : Op) : (s.setOp i x).clusters = s.clusters := rfl
@[simp] theorem State.setOp_cores (x : Op) : (s.setOp i x).cores = s.cores := rfl
@[simp] theorem State.setOp_slots (x : Op) : (s.setOp i x).slots = s.slots := rfl
@[simp] theorem State.setOp_teams (x : Op) : (s.setOp i x).teams = s.teams := rfl
@[simp] theorem State.setOp_parts (x : Op) : (s.setOp i x).parts = s.parts := rfl
@[simp] theorem State.setOp_lines (x : Op) : (s.setOp i x).lines = s.lines := rfl
@[simp] theorem State.setOp_lpages (x : Op) : (s.setOp i x).lpages = s.lpages := rfl
@[simp] theorem State.setOp_caches (x : Op) : (s.setOp i x).caches = s.caches := rfl
@[simp] theorem State.setOp_veils (x : Op) : (s.setOp i x).veils = s.veils := rfl
@[simp] theorem State.setOp_failing (x : Op) : (s.setOp i x).failing = s.failing := rfl
@[simp] theorem State.setOp_arrivals (x : Op) : (s.setOp i x).arrivals = s.arrivals := rfl
@[simp] theorem State.setOp_phases (x : Op) : (s.setOp i x).phases = s.phases := rfl
@[simp] theorem State.setOp_msix (x : Op) : (s.setOp i x).msix = s.msix := rfl
@[simp] theorem State.setOp_ras (x : Op) : (s.setOp i x).ras = s.ras := rfl
@[simp] theorem State.setOp_launches (x : Op) : (s.setOp i x).launches = s.launches := rfl
@[simp] theorem State.setOp_enabled (x : Op) : (s.setOp i x).enabled = s.enabled := rfl
@[simp] theorem State.setOp_spares (x : Op) : (s.setOp i x).spares = s.spares := rfl
@[simp] theorem State.setOp_sent (x : Op) : (s.setOp i x).sent = s.sent := rfl
@[simp] theorem State.setOp_rays (x : Op) : (s.setOp i x).rays = s.rays := rfl
@[simp] theorem State.setOp_rasterQ (x : Op) : (s.setOp i x).rasterQ = s.rasterQ := rfl
@[simp] theorem State.setOp_stewards (x : Op) : (s.setOp i x).stewards = s.stewards := rfl
@[simp] theorem State.setOp_tripped (x : Op) : (s.setOp i x).tripped = s.tripped := rfl
@[simp] theorem State.setOp_hbmStacks (x : Op) : (s.setOp i x).hbmStacks = s.hbmStacks := rfl
@[simp] theorem State.setOp_queues (x : Op) : (s.setOp i x).queues = s.queues := rfl
@[simp] theorem State.setOp_served (x : Op) : (s.setOp i x).served = s.served := rfl
@[simp] theorem State.setOp_aging (x : Op) : (s.setOp i x).aging = s.aging := rfl
@[simp] theorem State.setOp_images (x : Op) : (s.setOp i x).images = s.images := rfl
@[simp] theorem State.setOp_reports (x : Op) : (s.setOp i x).reports = s.reports := rfl
@[simp] theorem State.setOp_replies (x : Op) : (s.setOp i x).replies = s.replies := rfl
@[simp] theorem State.setOp_answers (x : Op) : (s.setOp i x).answers = s.answers := rfl
@[simp] theorem State.setOp_msixHeld (x : Op) : (s.setOp i x).msixHeld = s.msixHeld := rfl
@[simp] theorem State.setOp_power (x : Op) : (s.setOp i x).power = s.power := rfl
@[simp] theorem State.setOp_tier (x : Op) : (s.setOp i x).tier = s.tier := rfl
@[simp] theorem State.setOp_tierPoison (x : Op) : (s.setOp i x).tierPoison = s.tierPoison := rfl
@[simp] theorem State.setOp_waysOut (x : Op) : (s.setOp i x).waysOut = s.waysOut := rfl
@[simp] theorem State.setOp_links (x : Op) : (s.setOp i x).links = s.links := rfl
@[simp] theorem State.setOp_deadLinks (x : Op) : (s.setOp i x).deadLinks = s.deadLinks := rfl
@[simp] theorem State.setOp_hxHeld (x : Op) : (s.setOp i x).hxHeld = s.hxHeld := rfl
@[simp] theorem State.setOp_aborted (x : Op) : (s.setOp i x).aborted = s.aborted := rfl
@[simp] theorem State.setOp_checkpoint (x : Op) : (s.setOp i x).checkpoint = s.checkpoint := rfl
@[simp] theorem State.setOp_checkpointOut (x : Op) : (s.setOp i x).checkpointOut = s.checkpointOut := rfl
@[simp] theorem State.setOp_package (x : Op) : (s.setOp i x).package = s.package := rfl
@[simp] theorem State.setOp_bringUp (x : Op) : (s.setOp i x).bringUp = s.bringUp := rfl
@[simp] theorem State.setOp_recovery (x : Op) : (s.setOp i x).recovery = s.recovery := rfl

/-! ## setByte -/

@[simp] theorem State.setByte_cur (x : Byte) : (s.setByte i x).cur = s.cur := rfl
@[simp] theorem State.setByte_agenda (x : Byte) : (s.setByte i x).agenda = s.agenda := rfl
@[simp] theorem State.setByte_fresh (x : Byte) : (s.setByte i x).fresh = s.fresh := rfl
@[simp] theorem State.setByte_nextTeam (x : Byte) : (s.setByte i x).nextTeam = s.nextTeam := rfl
@[simp] theorem State.setByte_nextOp (x : Byte) : (s.setByte i x).nextOp = s.nextOp := rfl
@[simp] theorem State.setByte_nextLaunch (x : Byte) : (s.setByte i x).nextLaunch = s.nextLaunch := rfl
@[simp] theorem State.setByte_time (x : Byte) : (s.setByte i x).time = s.time := rfl
@[simp] theorem State.setByte_caps (x : Byte) : (s.setByte i x).caps = s.caps := rfl
@[simp] theorem State.setByte_fe (x : Byte) : (s.setByte i x).fe = s.fe := rfl
@[simp] theorem State.setByte_poison (x : Byte) : (s.setByte i x).poison = s.poison := rfl
@[simp] theorem State.setByte_clusters (x : Byte) : (s.setByte i x).clusters = s.clusters := rfl
@[simp] theorem State.setByte_cores (x : Byte) : (s.setByte i x).cores = s.cores := rfl
@[simp] theorem State.setByte_slots (x : Byte) : (s.setByte i x).slots = s.slots := rfl
@[simp] theorem State.setByte_teams (x : Byte) : (s.setByte i x).teams = s.teams := rfl
@[simp] theorem State.setByte_ops (x : Byte) : (s.setByte i x).ops = s.ops := rfl
@[simp] theorem State.setByte_parts (x : Byte) : (s.setByte i x).parts = s.parts := rfl
@[simp] theorem State.setByte_lines (x : Byte) : (s.setByte i x).lines = s.lines := rfl
@[simp] theorem State.setByte_lpages (x : Byte) : (s.setByte i x).lpages = s.lpages := rfl
@[simp] theorem State.setByte_caches (x : Byte) : (s.setByte i x).caches = s.caches := rfl
@[simp] theorem State.setByte_veils (x : Byte) : (s.setByte i x).veils = s.veils := rfl
@[simp] theorem State.setByte_failing (x : Byte) : (s.setByte i x).failing = s.failing := rfl
@[simp] theorem State.setByte_arrivals (x : Byte) : (s.setByte i x).arrivals = s.arrivals := rfl
@[simp] theorem State.setByte_phases (x : Byte) : (s.setByte i x).phases = s.phases := rfl
@[simp] theorem State.setByte_msix (x : Byte) : (s.setByte i x).msix = s.msix := rfl
@[simp] theorem State.setByte_ras (x : Byte) : (s.setByte i x).ras = s.ras := rfl
@[simp] theorem State.setByte_launches (x : Byte) : (s.setByte i x).launches = s.launches := rfl
@[simp] theorem State.setByte_enabled (x : Byte) : (s.setByte i x).enabled = s.enabled := rfl
@[simp] theorem State.setByte_spares (x : Byte) : (s.setByte i x).spares = s.spares := rfl
@[simp] theorem State.setByte_sent (x : Byte) : (s.setByte i x).sent = s.sent := rfl
@[simp] theorem State.setByte_rays (x : Byte) : (s.setByte i x).rays = s.rays := rfl
@[simp] theorem State.setByte_rasterQ (x : Byte) : (s.setByte i x).rasterQ = s.rasterQ := rfl
@[simp] theorem State.setByte_stewards (x : Byte) : (s.setByte i x).stewards = s.stewards := rfl
@[simp] theorem State.setByte_tripped (x : Byte) : (s.setByte i x).tripped = s.tripped := rfl
@[simp] theorem State.setByte_hbmStacks (x : Byte) : (s.setByte i x).hbmStacks = s.hbmStacks := rfl
@[simp] theorem State.setByte_queues (x : Byte) : (s.setByte i x).queues = s.queues := rfl
@[simp] theorem State.setByte_served (x : Byte) : (s.setByte i x).served = s.served := rfl
@[simp] theorem State.setByte_aging (x : Byte) : (s.setByte i x).aging = s.aging := rfl
@[simp] theorem State.setByte_images (x : Byte) : (s.setByte i x).images = s.images := rfl
@[simp] theorem State.setByte_reports (x : Byte) : (s.setByte i x).reports = s.reports := rfl
@[simp] theorem State.setByte_replies (x : Byte) : (s.setByte i x).replies = s.replies := rfl
@[simp] theorem State.setByte_answers (x : Byte) : (s.setByte i x).answers = s.answers := rfl
@[simp] theorem State.setByte_msixHeld (x : Byte) : (s.setByte i x).msixHeld = s.msixHeld := rfl
@[simp] theorem State.setByte_power (x : Byte) : (s.setByte i x).power = s.power := rfl
@[simp] theorem State.setByte_tier (x : Byte) : (s.setByte i x).tier = s.tier := rfl
@[simp] theorem State.setByte_tierPoison (x : Byte) : (s.setByte i x).tierPoison = s.tierPoison := rfl
@[simp] theorem State.setByte_waysOut (x : Byte) : (s.setByte i x).waysOut = s.waysOut := rfl
@[simp] theorem State.setByte_links (x : Byte) : (s.setByte i x).links = s.links := rfl
@[simp] theorem State.setByte_deadLinks (x : Byte) : (s.setByte i x).deadLinks = s.deadLinks := rfl
@[simp] theorem State.setByte_hxHeld (x : Byte) : (s.setByte i x).hxHeld = s.hxHeld := rfl
@[simp] theorem State.setByte_aborted (x : Byte) : (s.setByte i x).aborted = s.aborted := rfl
@[simp] theorem State.setByte_checkpoint (x : Byte) : (s.setByte i x).checkpoint = s.checkpoint := rfl
@[simp] theorem State.setByte_checkpointOut (x : Byte) : (s.setByte i x).checkpointOut = s.checkpointOut := rfl
@[simp] theorem State.setByte_package (x : Byte) : (s.setByte i x).package = s.package := rfl
@[simp] theorem State.setByte_bringUp (x : Byte) : (s.setByte i x).bringUp = s.bringUp := rfl
@[simp] theorem State.setByte_recovery (x : Byte) : (s.setByte i x).recovery = s.recovery := rfl

/-! ## setFull -/

@[simp] theorem State.setFull_cur (x : Bool) : (s.setFull i x).cur = s.cur := rfl
@[simp] theorem State.setFull_agenda (x : Bool) : (s.setFull i x).agenda = s.agenda := rfl
@[simp] theorem State.setFull_fresh (x : Bool) : (s.setFull i x).fresh = s.fresh := rfl
@[simp] theorem State.setFull_nextTeam (x : Bool) : (s.setFull i x).nextTeam = s.nextTeam := rfl
@[simp] theorem State.setFull_nextOp (x : Bool) : (s.setFull i x).nextOp = s.nextOp := rfl
@[simp] theorem State.setFull_nextLaunch (x : Bool) : (s.setFull i x).nextLaunch = s.nextLaunch := rfl
@[simp] theorem State.setFull_time (x : Bool) : (s.setFull i x).time = s.time := rfl
@[simp] theorem State.setFull_caps (x : Bool) : (s.setFull i x).caps = s.caps := rfl
@[simp] theorem State.setFull_mem (x : Bool) : (s.setFull i x).mem = s.mem := rfl
@[simp] theorem State.setFull_poison (x : Bool) : (s.setFull i x).poison = s.poison := rfl
@[simp] theorem State.setFull_clusters (x : Bool) : (s.setFull i x).clusters = s.clusters := rfl
@[simp] theorem State.setFull_cores (x : Bool) : (s.setFull i x).cores = s.cores := rfl
@[simp] theorem State.setFull_slots (x : Bool) : (s.setFull i x).slots = s.slots := rfl
@[simp] theorem State.setFull_teams (x : Bool) : (s.setFull i x).teams = s.teams := rfl
@[simp] theorem State.setFull_ops (x : Bool) : (s.setFull i x).ops = s.ops := rfl
@[simp] theorem State.setFull_parts (x : Bool) : (s.setFull i x).parts = s.parts := rfl
@[simp] theorem State.setFull_lines (x : Bool) : (s.setFull i x).lines = s.lines := rfl
@[simp] theorem State.setFull_lpages (x : Bool) : (s.setFull i x).lpages = s.lpages := rfl
@[simp] theorem State.setFull_caches (x : Bool) : (s.setFull i x).caches = s.caches := rfl
@[simp] theorem State.setFull_veils (x : Bool) : (s.setFull i x).veils = s.veils := rfl
@[simp] theorem State.setFull_failing (x : Bool) : (s.setFull i x).failing = s.failing := rfl
@[simp] theorem State.setFull_arrivals (x : Bool) : (s.setFull i x).arrivals = s.arrivals := rfl
@[simp] theorem State.setFull_phases (x : Bool) : (s.setFull i x).phases = s.phases := rfl
@[simp] theorem State.setFull_msix (x : Bool) : (s.setFull i x).msix = s.msix := rfl
@[simp] theorem State.setFull_ras (x : Bool) : (s.setFull i x).ras = s.ras := rfl
@[simp] theorem State.setFull_launches (x : Bool) : (s.setFull i x).launches = s.launches := rfl
@[simp] theorem State.setFull_enabled (x : Bool) : (s.setFull i x).enabled = s.enabled := rfl
@[simp] theorem State.setFull_spares (x : Bool) : (s.setFull i x).spares = s.spares := rfl
@[simp] theorem State.setFull_sent (x : Bool) : (s.setFull i x).sent = s.sent := rfl
@[simp] theorem State.setFull_rays (x : Bool) : (s.setFull i x).rays = s.rays := rfl
@[simp] theorem State.setFull_rasterQ (x : Bool) : (s.setFull i x).rasterQ = s.rasterQ := rfl
@[simp] theorem State.setFull_stewards (x : Bool) : (s.setFull i x).stewards = s.stewards := rfl
@[simp] theorem State.setFull_tripped (x : Bool) : (s.setFull i x).tripped = s.tripped := rfl
@[simp] theorem State.setFull_hbmStacks (x : Bool) : (s.setFull i x).hbmStacks = s.hbmStacks := rfl
@[simp] theorem State.setFull_queues (x : Bool) : (s.setFull i x).queues = s.queues := rfl
@[simp] theorem State.setFull_served (x : Bool) : (s.setFull i x).served = s.served := rfl
@[simp] theorem State.setFull_aging (x : Bool) : (s.setFull i x).aging = s.aging := rfl
@[simp] theorem State.setFull_images (x : Bool) : (s.setFull i x).images = s.images := rfl
@[simp] theorem State.setFull_reports (x : Bool) : (s.setFull i x).reports = s.reports := rfl
@[simp] theorem State.setFull_replies (x : Bool) : (s.setFull i x).replies = s.replies := rfl
@[simp] theorem State.setFull_answers (x : Bool) : (s.setFull i x).answers = s.answers := rfl
@[simp] theorem State.setFull_msixHeld (x : Bool) : (s.setFull i x).msixHeld = s.msixHeld := rfl
@[simp] theorem State.setFull_power (x : Bool) : (s.setFull i x).power = s.power := rfl
@[simp] theorem State.setFull_tier (x : Bool) : (s.setFull i x).tier = s.tier := rfl
@[simp] theorem State.setFull_tierPoison (x : Bool) : (s.setFull i x).tierPoison = s.tierPoison := rfl
@[simp] theorem State.setFull_waysOut (x : Bool) : (s.setFull i x).waysOut = s.waysOut := rfl
@[simp] theorem State.setFull_links (x : Bool) : (s.setFull i x).links = s.links := rfl
@[simp] theorem State.setFull_deadLinks (x : Bool) : (s.setFull i x).deadLinks = s.deadLinks := rfl
@[simp] theorem State.setFull_hxHeld (x : Bool) : (s.setFull i x).hxHeld = s.hxHeld := rfl
@[simp] theorem State.setFull_aborted (x : Bool) : (s.setFull i x).aborted = s.aborted := rfl
@[simp] theorem State.setFull_checkpoint (x : Bool) : (s.setFull i x).checkpoint = s.checkpoint := rfl
@[simp] theorem State.setFull_checkpointOut (x : Bool) : (s.setFull i x).checkpointOut = s.checkpointOut := rfl
@[simp] theorem State.setFull_package (x : Bool) : (s.setFull i x).package = s.package := rfl
@[simp] theorem State.setFull_bringUp (x : Bool) : (s.setFull i x).bringUp = s.bringUp := rfl
@[simp] theorem State.setFull_recovery (x : Bool) : (s.setFull i x).recovery = s.recovery := rfl

/-! ## setPoison -/

@[simp] theorem State.setPoison_cur (x : Bool) : (s.setPoison i x).cur = s.cur := rfl
@[simp] theorem State.setPoison_agenda (x : Bool) : (s.setPoison i x).agenda = s.agenda := rfl
@[simp] theorem State.setPoison_fresh (x : Bool) : (s.setPoison i x).fresh = s.fresh := rfl
@[simp] theorem State.setPoison_nextTeam (x : Bool) : (s.setPoison i x).nextTeam = s.nextTeam := rfl
@[simp] theorem State.setPoison_nextOp (x : Bool) : (s.setPoison i x).nextOp = s.nextOp := rfl
@[simp] theorem State.setPoison_nextLaunch (x : Bool) : (s.setPoison i x).nextLaunch = s.nextLaunch := rfl
@[simp] theorem State.setPoison_time (x : Bool) : (s.setPoison i x).time = s.time := rfl
@[simp] theorem State.setPoison_caps (x : Bool) : (s.setPoison i x).caps = s.caps := rfl
@[simp] theorem State.setPoison_mem (x : Bool) : (s.setPoison i x).mem = s.mem := rfl
@[simp] theorem State.setPoison_fe (x : Bool) : (s.setPoison i x).fe = s.fe := rfl
@[simp] theorem State.setPoison_clusters (x : Bool) : (s.setPoison i x).clusters = s.clusters := rfl
@[simp] theorem State.setPoison_cores (x : Bool) : (s.setPoison i x).cores = s.cores := rfl
@[simp] theorem State.setPoison_slots (x : Bool) : (s.setPoison i x).slots = s.slots := rfl
@[simp] theorem State.setPoison_teams (x : Bool) : (s.setPoison i x).teams = s.teams := rfl
@[simp] theorem State.setPoison_ops (x : Bool) : (s.setPoison i x).ops = s.ops := rfl
@[simp] theorem State.setPoison_parts (x : Bool) : (s.setPoison i x).parts = s.parts := rfl
@[simp] theorem State.setPoison_lines (x : Bool) : (s.setPoison i x).lines = s.lines := rfl
@[simp] theorem State.setPoison_lpages (x : Bool) : (s.setPoison i x).lpages = s.lpages := rfl
@[simp] theorem State.setPoison_caches (x : Bool) : (s.setPoison i x).caches = s.caches := rfl
@[simp] theorem State.setPoison_veils (x : Bool) : (s.setPoison i x).veils = s.veils := rfl
@[simp] theorem State.setPoison_failing (x : Bool) : (s.setPoison i x).failing = s.failing := rfl
@[simp] theorem State.setPoison_arrivals (x : Bool) : (s.setPoison i x).arrivals = s.arrivals := rfl
@[simp] theorem State.setPoison_phases (x : Bool) : (s.setPoison i x).phases = s.phases := rfl
@[simp] theorem State.setPoison_msix (x : Bool) : (s.setPoison i x).msix = s.msix := rfl
@[simp] theorem State.setPoison_ras (x : Bool) : (s.setPoison i x).ras = s.ras := rfl
@[simp] theorem State.setPoison_launches (x : Bool) : (s.setPoison i x).launches = s.launches := rfl
@[simp] theorem State.setPoison_enabled (x : Bool) : (s.setPoison i x).enabled = s.enabled := rfl
@[simp] theorem State.setPoison_spares (x : Bool) : (s.setPoison i x).spares = s.spares := rfl
@[simp] theorem State.setPoison_sent (x : Bool) : (s.setPoison i x).sent = s.sent := rfl
@[simp] theorem State.setPoison_rays (x : Bool) : (s.setPoison i x).rays = s.rays := rfl
@[simp] theorem State.setPoison_rasterQ (x : Bool) : (s.setPoison i x).rasterQ = s.rasterQ := rfl
@[simp] theorem State.setPoison_stewards (x : Bool) : (s.setPoison i x).stewards = s.stewards := rfl
@[simp] theorem State.setPoison_tripped (x : Bool) : (s.setPoison i x).tripped = s.tripped := rfl
@[simp] theorem State.setPoison_hbmStacks (x : Bool) : (s.setPoison i x).hbmStacks = s.hbmStacks := rfl
@[simp] theorem State.setPoison_queues (x : Bool) : (s.setPoison i x).queues = s.queues := rfl
@[simp] theorem State.setPoison_served (x : Bool) : (s.setPoison i x).served = s.served := rfl
@[simp] theorem State.setPoison_aging (x : Bool) : (s.setPoison i x).aging = s.aging := rfl
@[simp] theorem State.setPoison_images (x : Bool) : (s.setPoison i x).images = s.images := rfl
@[simp] theorem State.setPoison_reports (x : Bool) : (s.setPoison i x).reports = s.reports := rfl
@[simp] theorem State.setPoison_replies (x : Bool) : (s.setPoison i x).replies = s.replies := rfl
@[simp] theorem State.setPoison_answers (x : Bool) : (s.setPoison i x).answers = s.answers := rfl
@[simp] theorem State.setPoison_msixHeld (x : Bool) : (s.setPoison i x).msixHeld = s.msixHeld := rfl
@[simp] theorem State.setPoison_power (x : Bool) : (s.setPoison i x).power = s.power := rfl
@[simp] theorem State.setPoison_tier (x : Bool) : (s.setPoison i x).tier = s.tier := rfl
@[simp] theorem State.setPoison_tierPoison (x : Bool) : (s.setPoison i x).tierPoison = s.tierPoison := rfl
@[simp] theorem State.setPoison_waysOut (x : Bool) : (s.setPoison i x).waysOut = s.waysOut := rfl
@[simp] theorem State.setPoison_links (x : Bool) : (s.setPoison i x).links = s.links := rfl
@[simp] theorem State.setPoison_deadLinks (x : Bool) : (s.setPoison i x).deadLinks = s.deadLinks := rfl
@[simp] theorem State.setPoison_hxHeld (x : Bool) : (s.setPoison i x).hxHeld = s.hxHeld := rfl
@[simp] theorem State.setPoison_aborted (x : Bool) : (s.setPoison i x).aborted = s.aborted := rfl
@[simp] theorem State.setPoison_checkpoint (x : Bool) : (s.setPoison i x).checkpoint = s.checkpoint := rfl
@[simp] theorem State.setPoison_checkpointOut (x : Bool) : (s.setPoison i x).checkpointOut = s.checkpointOut := rfl
@[simp] theorem State.setPoison_package (x : Bool) : (s.setPoison i x).package = s.package := rfl
@[simp] theorem State.setPoison_bringUp (x : Bool) : (s.setPoison i x).bringUp = s.bringUp := rfl
@[simp] theorem State.setPoison_recovery (x : Bool) : (s.setPoison i x).recovery = s.recovery := rfl

/-! ## What the updated component reads as -/

theorem State.team_setTeam (x : Team) : (s.setTeam i x).team j = if j = i then x else s.team j := by
  simp [State.team, State.setTeam, Tbl.get_put]
@[simp] theorem State.team_setTeam_same (x : Team) : (s.setTeam i x).team i = x := by simp [State.team_setTeam]
theorem State.slot_setSlot (x : Slot) : (s.setSlot i x).slot j = if j = i then x else s.slot j := by
  simp [State.slot, State.setSlot, Tbl.get_put]
@[simp] theorem State.slot_setSlot_same (x : Slot) : (s.setSlot i x).slot i = x := by simp [State.slot_setSlot]
theorem State.core_setCore (x : Core) : (s.setCore i x).core j = if j = i then x else s.core j := by
  simp [State.core, State.setCore, Tbl.get_put]
@[simp] theorem State.core_setCore_same (x : Core) : (s.setCore i x).core i = x := by simp [State.core_setCore]
theorem State.cluster_setCluster (x : Cluster) : (s.setCluster i x).cluster j = if j = i then x else s.cluster j := by
  simp [State.cluster, State.setCluster, Tbl.get_put]
@[simp] theorem State.cluster_setCluster_same (x : Cluster) : (s.setCluster i x).cluster i = x := by simp [State.cluster_setCluster]
theorem State.launch_setLaunch (x : Launch) : (s.setLaunch i x).launch j = if j = i then x else s.launch j := by
  by_cases h : j = i
  · subst h; simp [State.launch, State.setLaunch]
  · simp only [State.launch, State.setLaunch, Tbl.find?_put_other _ _ _ _ h, if_neg h]; rfl
@[simp] theorem State.launch_setLaunch_same (x : Launch) : (s.setLaunch i x).launch i = x := by simp [State.launch_setLaunch]
theorem State.queue_setQueue (x : Queue) : (s.setQueue i x).queue j = if j = i then x else s.queue j := by
  simp [State.queue, State.setQueue, Tbl.get_put]
@[simp] theorem State.queue_setQueue_same (x : Queue) : (s.setQueue i x).queue i = x := by simp [State.queue_setQueue]
theorem State.part_setPart (x : Part) : (s.setPart i x).part j = if j = i then x else s.part j := by
  simp [State.part, State.setPart, Tbl.get_put]
@[simp] theorem State.part_setPart_same (x : Part) : (s.setPart i x).part i = x := by simp [State.part_setPart]
theorem State.op_setOp (x : Op) : (s.setOp i x).op j = if j = i then x else s.op j := by
  simp [State.op, State.setOp, Tbl.get_put]
@[simp] theorem State.op_setOp_same (x : Op) : (s.setOp i x).op i = x := by simp [State.op_setOp]

end Sys2Proof.Machine
end

