-- ==== Sys2Proof/Tests/Slice0.lean ====
section
/-! SUPPORT. Tests: ill-formed terms that the checks refuse, words that decode to their instructions, results worked out from
the manual, and for the statements with hypotheses a state that meets them. -/

namespace Sys2Proof.Tests

set_option Elab.async false

open Machine Claims

/-! ## Well-formedness: one ill-formed term for each check -/

def badGuard : Guard := Guard.mk 7 true

/-- Reserved values in the R, I, M and X classes (R90 to R98, check 2 of R108). -/
def reservedTerms : List Instr :=
  [.icmp false 10 0 1 2 0, .icmp false 0 0 1 2 1, .and false 1 2 3 1, .popc false 1 2 2, .fcmp false 8 0 1 2 0,
   .frcp false 1 2 2, .frnd false 1 2 4 0, .fcvt false 1 2 10 0, .fcvt false 1 2 0 4, .fdot2 false 1 2 3 0, .agree 5 0 0,
   .lred 1 2 11 0, .lred 1 2 0 1, .icmpi false 10 0 1 0, .feSet false 2 1 0 false 0, .ldAcq false 1 2 0 false 6 0,
   .stRel false 1 2 0 false 0 5, .atom false 1 2 0 false 14 0, .atomNr false 1 2 0 false 0 2, .atom false 1 2 0 false 11 1,
   .atomCas false 2 4 0 false 2, .cmaint false 1 0 false 3 0, .cmaint false 1 0 false 0 6]

def reservedTerms2 : List Instr :=
  [.bra 7 true 0, .braD 7 true 0, .fenceX 7 0 0, .fenceX 0 7 0, .fenceX 0 0 6, .hdr 0 0 0 0 0, .hdr 0 0 0 1 2,
   .fma false 0 1 2 3 4 badGuard, .sel false 1 1 2 3 noGuard, .bfeS false 0 1 2 noGuard 0 0, .bfeZ false 0 1 2 noGuard 9 24,
   .bfi false 3 2 4 6 noGuard 64 1, .bmix false 1 2 3 badGuard false 0, .fcvtX false 1 2 0 2 0 noGuard false 0 1 0,
   .fcvtX false 1 2 3 0 0 noGuard false 0 0 0, .fcvtX false 1 2 0 0 0 noGuard true 0 0 0, .lea false 2 4 6 badGuard false 0,
   .fmaMix false 0 1 2 3 4 noGuard false false, .cpy false 2 4 6 0 badGuard false 0 0, .gath 1 2 noGuard false 3 0]

def reservedTerms3 : List Instr :=
  [.mloopIp 1 badGuard false, .mfill 1 0 badGuard false false, .rtrace 1 2 3 badGuard false 0 0, .emit false 1 0 badGuard 0 0,
   .regroup 0 129, .xlda 6 0 1 2, .xcmaint 3 0 1, .xfence 7 0 0, .riscvBaseOp (.fsqrt true 5 1 2),
   .riscvBaseOp (.shift .slliw 1 2 32), .riscvBaseOp (.jal 1 3), .riscvBaseOp (.fop .min true 1 1 2 3)]

/-- Must-be-zero operands (check 3) and uniform registers from 64 up (check 4; R45). -/
def unusedTerms : List Instr :=
  [.cpy false 2 4 6 1 noGuard false 0 0, .emit false 1 1 noGuard 0 0, .mfill 1 1 noGuard false false,
   .iadd true 8 4 64 0, .iabs true 64 1 0, .icmp true 0 0 64 1 0, .ballot 64 1, .bcast 1 2 64, .lred 64 1 0 0, .sread true 64 0,
   .movi true 64 0, .ld32 true 64 1 0 false 0, .atomCas true 64 2 0 false 0, .fma true 0 1 2 64 3 noGuard,
   .movi32 true 64 0, .mloopIp 64 noGuard false, .leave 64, .rtrace 1 2 64 noGuard false 0 0]

theorem test_reserved_values : (reservedTerms ++ reservedTerms2 ++ reservedTerms3).all (fun i => i.reservedIn.isSome) = true := by
  decide
theorem test_illformed : (reservedTerms ++ unusedTerms).all (fun i => !i.wellFormed) = true := by decide
theorem test_unused_field : (unusedTerms.take 3).all (fun i => i.zeroIn.isSome) = true := by decide
theorem test_uniform_field : (unusedTerms.drop 3).all (fun i => i.uniformBad.isSome) = true := by decide
theorem test_wellformed : (Instr.iadd true 8 4 63 0).wellFormed = true := by decide

/-! ## Decoding: words written out from the encodings -/

/-- Words, and the instruction they stand for. -/
def reads (r : Except DecodeError Instr) (i : Instr) : Bool :=
  match r with
  | .ok j => j == i
  | .error _ => false

theorem test_decode_hdr : reads (decodeTeam 0xFC00004D 0) (.hdr 0 0 1 3 1) = true := by decide
theorem test_decode_iadd : reads (decodeTeam 0x00080814 0) (.iadd false 8 4 5 0) = true := by decide
theorem test_decode_lpicki : reads (decodeTeam 0x4C0A1010 0) (.lpickiXor 5 4 16) = true := by decide
theorem test_decode_atom : reads (decodeTeam 0x91100900 0) (.atom false 8 2 2 false 0 0) = true := by decide
theorem test_decode_atomnr : reads (decodeTeam 0x92143211 0) (.atomNr false 10 12 4 false 4 1) = true := by decide
theorem test_decode_ballot : reads (decodeTeam 0x1A880200 0) (.ballot 8 1) = true := by decide
theorem test_decode_lred : reads (decodeTeam 0x1C0A0C20 0) (.lred 10 6 8 0) = true := by decide
theorem test_decode_rpt : reads (decodeTeam 0xE8442220 0) (.rpt 1 4 2 2 2) = true := by decide
theorem test_decode_eret : reads (decodeTeam 0xE5800000 0) .eret = true := by decide
theorem test_decode_csrr : reads (decodeTeam 0xE4050001 0) (.csrr 5 1) = true := by decide
theorem test_decode_movi32 : reads (decodeTeam 0xD01C2008 7) (.movi32 true 4 7) = true := by decide
theorem test_decode_cpy : reads (decodeTeam 0xD40040A0 0x18038011) (.cpy false 8 10 12 0 noGuard false 2 1) = true := by decide
theorem test_decode_mdrain : reads (decodeTeam 0xD80801C0 0x00038000) (.mdrain 28 0 noGuard false false) = true := by decide
theorem test_decode_rtrace : reads (decodeTeam 0xDC008000 0x0803800A) (.rtrace 16 0 4 noGuard false 1 2) = true := by decide
theorem test_decode_tclass : reads (decodeTeam 0xDC0CA0A0 0x000F8000) (.tclass 20 10 3 noGuard) = true := by decide
theorem test_decode_xsend : reads (decodeScalar 0x04B5000B) (.xsend 11 10 0) = true := by decide
theorem test_decode_xwait : reads (decodeScalar 0x0A05850B) (.xwait 11 10) = true := by decide
theorem test_decode_xfence : reads (decodeScalar 0x4100105B) (.xfence 2 0 2) = true := by decide
theorem test_decode_xctx : reads (decodeScalar 0x14628FFB) (.xctxSv 6 5 31) = true := by decide
theorem test_decode_addi : reads (decodeScalar 0x00A30293) (.riscvBaseOp (.aluImm .addi 5 6 10)) = true := by decide
/-- c.addi x8, 1 and c.ebreak. -/
theorem test_decode_caddi : reads (decodeC 0x0405) (.riscvBaseOp (.aluImm .addi 8 8 1)) = true := by decide
theorem test_decode_cebreak : reads (decodeC 0x9002) .ebreak = true := by decide
/-- A reserved group, and a must-be-zero bit. -/
theorem test_decode_reserved : (decodeTeam 0xF4000000 0).toOption.isNone = true := by decide
theorem test_decode_zero : (decodeTeam 0xE8442221 0).toOption.isNone = true := by decide

/-! ## Small states -/

/-- A team of two active lanes, in a clause. -/
def lanesTwo : Team :=
  { lanes := 32, n := 128, mask := 3, live := 2 ^ 32 - 1, pc := 0x2004, prev := 0x2000
    clause := some (Clause.mk 0x2000 0 1 15 0), launch := 1 }

def withTeam (t : Team) : State := { cur := Cur.mk (.team 0) 0 0 4, teams := [(0, t)], enabled := [0] }

def teamS : State := withTeam lanesTwo

/-- The state after an instruction, or the state as it was where it stops. -/
def after (i : Instr) (s : State) : State :=
  match exec i s with
  | .next t => t
  | _ => s

/-- A read or a write that comes to its end with a value. -/
def gives (r : Done × State) : Bool :=
  match r.1 with
  | .value _ => true
  | _ => false

theorem gives_value {r : Done × State} (h : gives r = true) : ∃ v s1, r = (.value v, s1) := by
  obtain ⟨d, s⟩ := r
  cases d with
  | value v => exact ⟨v, s, rfl⟩
  | _ => cases h

theorem value_of {r : Done × State} {n : Nat} (h : r.1 = .value n) : r = (.value n, r.2) := Prod.ext h rfl

/-- A translation to one piece of the local store of launch 1. -/
def piece1 (o n : Nat) : Piece := Piece.mk (keyLocal 1 0 o) (Config.plainBase + o) n false false none
def onePiece (r : Except Place (List Piece) × State) (o n : Nat) : Bool :=
  match r.1 with
  | .ok ps => ps == [piece1 o n]
  | _ => false

theorem piece_of {r : Except Place (List Piece) × State} {o n : Nat} (h : onePiece r o n = true) : r = (.ok [piece1 o n], r.2) := by
  obtain ⟨a, s⟩ := r
  cases a with
  | ok ps => simp only [onePiece, beq_iff_eq] at h; rw [h]
  | error e => cases h

theorem fst_of {α β : Type} {r : α × β} {a : α} (h : r.1 = a) : r = (a, r.2) := Prod.ext h rfl

theorem gives_pair {r : Done × State} (h : gives r = true) : ∃ v, r = (.value v, r.2) := by
  obtain ⟨v, s, rfl⟩ := gives_value h
  exact ⟨v, rfl⟩

/-- Register r of lane l of team 0 after an instruction. -/
def vAfter (i : Instr) (t : Team) (l r : Nat) : W32 := ((after i (withTeam t)).team 0).vreg l r
def gAfter (i : Instr) (t : Team) (r : Nat) : W32 := ((after i (withTeam t)).team 0).greg r

/-- lanesTwo with registers 4, 5 and 6 of every lane, and uniform ones, at given values. -/
def regs3 (x y z : Nat) : Team := ((lanesTwo.setVs 0 4 1 x).setVs 0 5 1 y).setVs 0 6 1 z
def gregs3 (x y z : Nat) : Team := ((lanesTwo.setGs 4 1 x).setGs 5 1 y).setGs 6 1 z

/-! ## Integer and FP arithmetic of a team -/

theorem test_iadd_wraps : vAfter (.iadd false 8 4 5 0) (regs3 0xFFFFFFFF 2 0) 0 8 = 1 := by decide
theorem test_isub_sources : vAfter (.isub false 8 4 5 0) (regs3 1 2 0) 0 8 = 0xFFFFFFFF := by decide
theorem test_imulh_signs : vAfter (.imulhS false 8 4 5 0) (regs3 0xFFFFFFFF 2 0) 0 8 = 0xFFFFFFFF := by decide
theorem test_imulhZ : vAfter (.imulhZ false 8 4 5 0) (regs3 0xFFFFFFFF 2 0) 0 8 = 1 := by decide
theorem test_iadds_saturates : vAfter (.iaddsS false 8 4 5 0) (regs3 0x7FFFFFFF 1 0) 0 8 = 0x7FFFFFFF := by decide
theorem test_isubs_floor : vAfter (.isubsZ false 8 4 5 0) (regs3 1 2 0) 0 8 = 0 := by decide
theorem test_iadd_bytes : vAfter (.iadd false 8 4 5 2) (regs3 0x00FF00FF 0x00010001 0) 0 8 = 0 := by decide
theorem test_imin_signed : vAfter (.iminS false 8 4 5 0) (regs3 0xFFFFFFFF 1 0) 0 8 = 0xFFFFFFFF := by decide
theorem test_imax_unsigned : vAfter (.imaxZ false 8 4 5 0) (regs3 0xFFFFFFFF 1 0) 0 8 = 0xFFFFFFFF := by decide
theorem test_iabs_least : vAfter (.iabs false 8 4 0) (regs3 0x80000000 0 0) 0 8 = 0x80000000 := by decide
theorem test_imac : vAfter (.imac false 6 4 5 0) (regs3 3 5 7) 0 6 = 22 := by decide
theorem test_imad : vAfter (.imad false 0 6 4 5 6 noGuard) (regs3 3 5 7) 0 6 = 22 := by decide
theorem test_shl_mod : vAfter (.shl false 8 4 5 0) (regs3 1 33 0) 0 8 = 2 := by decide
theorem test_shrS_sign : vAfter (.shrS false 8 4 5 0) (regs3 0x80000000 31 0) 0 8 = 0xFFFFFFFF := by decide
theorem test_rotl : vAfter (.rotl false 8 4 5 0) (regs3 0x80000001 1 0) 0 8 = 3 := by decide
theorem test_clz_zero : vAfter (.clz false 8 4 0) (regs3 0 0 0) 0 8 = 32 := by decide
theorem test_brev : vAfter (.brev false 8 4 0) (regs3 1 0 0) 0 8 = 0x80000000 := by decide
theorem test_andn : vAfter (.andn false 8 4 5 0) (regs3 7 2 0) 0 8 = 5 := by decide
theorem test_uniform_mov : gAfter (.mov true 8 4 0) (gregs3 9 0 0) 8 = 9 := by decide
theorem test_inactive_lane : vAfter (.movi false 8 5) lanesTwo 2 8 = 0 := by decide
/-- 1.5 + 2.25 = 3.75, and 1 / 0. -/
theorem test_fadd : vAfter (.fadd false 8 4 5 0) (regs3 0x3FC00000 0x40100000 0) 0 8 = 0x40700000 := by decide
theorem test_fmul : vAfter (.fmul false 8 4 5 0) (regs3 0x3FC00000 0x40000000 0) 0 8 = 0x40400000 := by decide
theorem test_fexp2_integer : vAfter (.fexp2 false 8 4 0) (regs3 0x40400000 0 0) 0 8 = 0x41000000 := by decide +kernel
theorem test_frcp_zero : ((after (.frcp false 8 4 0) (withTeam (regs3 0 0 0))).team 0).vreg 0 8 = 0x7F800000 := by decide
/-- 2 * 3 + 1 with one rounding; the largest sum that overflows in binary16. -/
theorem test_fma : vAfter (.fma false 0 8 4 5 6 noGuard) (regs3 0x40000000 0x40400000 0x3F800000) 0 8 = 0x40E00000 := by decide
theorem test_fclamp : vAfter (.fclamp false 0 8 4 5 6 noGuard) (regs3 0x40000000 0 0x3F800000) 0 8 = 0x3F800000 := by decide
theorem test_bfeS : vAfter (.bfeS false 0 8 4 noGuard 4 4) (regs3 0xF0 0 0) 0 8 = 0xFFFFFFFF := by decide
theorem test_bfi : vAfter (.bfi false 0 8 4 5 noGuard 4 4) (regs3 0xFFFFFFFF 5 0) 0 8 = 0xFFFFFF5F := by decide
theorem test_bmix : vAfter (.bmix false 8 4 5 noGuard false 0x0B8) (regs3 0x03020100 0x07060504 0) 0 8 = 0x00020700 := by decide
theorem test_fcvt_to_int : vAfter (.fcvt false 8 4 0 0) (regs3 0x40200000 0 0) 0 8 = 2 := by decide

/-! ## Witnesses: results of instructions -/

theorem witness_IntegerResults :
    (∃ x, arith (.imad false 3 8 4 6 10 noGuard) = some x ∧ Runs teamS 0 (.imad false 3 8 4 6 10 noGuard)) ∧
    (∃ x, bitwise (.shl true 8 4 63 1) = some x ∧ Runs teamS 0 (.shl true 8 4 63 1)) :=
  ⟨⟨_, rfl, by unfold Runs; decide⟩, ⟨_, rfl, by unfold Runs; decide⟩⟩

theorem witness_FloatingPoint : ∃ x, fpOp (.fadd false 127 4 5 0) = some x ∧ Runs teamS 0 (.fadd false 127 4 5 0) :=
  ⟨_, rfl, by unfold Runs; decide⟩

theorem witness_WordFieldAndConversionResults :
    (∃ x, words (.bmix false 8 4 5 noGuard false 0) = some x ∧ Runs teamS 0 (.bmix false 8 4 5 noGuard false 0)) ∧
    (∃ x, fields (.bfeS false 3 8 4 noGuard 64 0) = some x ∧ Runs teamS 0 (.bfeS false 3 8 4 noGuard 64 0)) ∧
    (∃ x, conversions (.fdot2 false 8 4 5 1) = some x ∧ Runs teamS 0 (.fdot2 false 8 4 5 1)) :=
  ⟨⟨_, rfl, by unfold Runs; decide⟩, ⟨_, rfl, by unfold Runs; decide⟩, ⟨_, rfl, by unfold Runs; decide⟩⟩

theorem witness_ArithmeticRoundsOnce :
    (∃ nx mx ex, f32.decode 0x3FC00000 = .fin nx mx ex) ∧ (∃ n m e, 0x7B < 2 ^ e5m2.width ∧ e5m2.decode 0x7B = .fin n m e) :=
  ⟨⟨_, _, _, rfl⟩, ⟨_, _, _, by decide, rfl⟩⟩

/-! ## Predicates, lanes, special registers -/

theorem test_icmp_signed : ((after (.icmp false 2 1 4 5 0) (withTeam (regs3 0xFFFFFFFF 1 0))).team 0).preg 0 1 = true := by decide
theorem test_icmp_unsigned : ((after (.icmp false 6 1 4 5 0) (withTeam (regs3 0xFFFFFFFF 1 0))).team 0).preg 0 1 = false := by decide
/-- xor of p7 (true) with p0 (false). -/
theorem test_plog : ((after (.plog false 6 1 7 0) teamS).team 0).preg 0 1 = true := by decide
theorem test_pmov : vAfter (.pmovToReg false 8) lanesTwo 0 8 = 0x80 := by decide
theorem test_ballot : gAfter (.ballot 8 7) lanesTwo 8 = 3 := by decide
theorem test_bcast_inactive : gAfter (.bcast 8 4 5) ((lanesTwo.setVs 7 4 1 9).setGs 5 1 7) 8 = 9 := by decide
theorem test_lred_add : gAfter (.lred 8 4 0 0) ((lanesTwo.setVs 0 4 1 0xFFFFFFFF).setVs 1 4 1 3) 8 = 2 := by decide
theorem test_lred_empty : gAfter (.lred 8 4 1 0) { lanesTwo with mask := 0 } 8 = 0x7FFFFFFF := by decide
theorem test_lpick_rot : vAfter (.lpickiRot 8 4 1) ((lanesTwo.setVs 0 4 1 7).setVs 1 4 1 9) 0 8 = 9 := by decide
theorem test_lpick_inactive : vAfter (.lpickiIdx 8 4 2) (lanesTwo.setVs 2 4 1 7) 0 8 = 0 := by decide
theorem test_sread_lane : vAfter (.sread false 8 0) lanesTwo 1 8 = 1 := by decide
theorem test_sread_caps : vAfter (.sread false 8 10) lanesTwo 1 8 = 0x00020F24 := by decide

theorem witness_Predicates : ∃ x, preds (.icmp false 9 6 4 126 3) = some x ∧ Runs teamS 0 (.icmp false 9 6 4 126 3) :=
  ⟨_, rfl, by unfold Runs; decide⟩

theorem witness_LanePicksVotesAndReductions :
    (∃ x, picks (.lpickiFill 127 4 31) = some x ∧ Runs teamS 0 (.lpickiFill 127 4 31)) ∧
    (Runs teamS 0 (.ballot 63 1) ∧ (63 : BitVec 7).toNat + ((teamS.team 0).lanes + 31) / 32 ≤ 64) ∧
    (Runs (withTeam { lanesTwo with lanes := 33 }) 0 (.ballot 63 1) ∧ 64 < (63 : BitVec 7).toNat + (33 + 31) / 32) ∧
    Runs teamS 0 (.bcast 63 4 0) ∧ Runs teamS 0 (.agree 4 7 0) ∧
    (Runs teamS 0 (.lred 63 4 0 0) ∧ (teamS.team 0).lanes ≤ 1024) := by
  refine ⟨⟨_, rfl, ?_⟩, ⟨?_, by decide⟩, ⟨?_, by decide⟩, ?_, ?_, ?_, by decide⟩ <;> unfold Runs <;> decide

theorem witness_SpecialRegisterRead : Runs teamS 0 (.sread true 62 16) := by unfold Runs; decide

/-! ## Control flow -/

/-- Byte o of the local store of the launch, as an address. -/
def place (o : Nat) : W64 := BitVec.ofNat 64 (Config.plainBase + o)

/-- A machine with one launch on cluster 0 and words in its local store. -/
def withCode (s : State) (ws : List (Nat × Nat)) : State :=
  let s := { s with launches := [(1, fetchLaunch)], clusters := [(0, { ctx := [(0, 1)] })] }
  ws.foldl (fun s w => s.writeBytes (keyLocal 1 0 w.1) (toBytes 4 w.2)) s

/-- A team that runs at 0x2004, within a clause of one word, with its code and data in local store. -/
def inClause : Team :=
  { lanesTwo with
    pc := place 0x2004, prev := place 0x2000, sg := fetchSegs, clause := some (Clause.mk (place 0x2000) 0 1 1 0) }

def clauseC : Clause := Clause.mk (place 0x2000) 0 1 1 0

/-- Headers before and after the clause. -/
def headers : List (Nat × Nat) := [(0x1F04, 0xFC000044), (0x2008, 0xFC000044), (0x2104, 0xFC000044)]

def teamC (t : Team) : State := withCode (withTeam t) headers

theorem header_at (s : State) (id : Nat) (va : W64) (w : W32) (h : (s.fetchWord id va.toNat).1 = .word w)
    (hw : w.extractLsb' 26 6 = 0x3F#6) : HeaderAt s id va (s.fetchWord id va.toNat).2 :=
  ⟨w, Prod.ext h rfl, hw⟩

/-- The word at 0x2104 is a header: 64 words on from 0x2004. -/
theorem header_ahead : HeaderAt (teamC inClause) 0 (braTarget inClause 64) ((teamC inClause).fetchWord 0 (place 0x2104).toNat).2 :=
  header_at _ _ _ 0xFC000044 (by decide) (by decide)

theorem test_branch_taken : ((after (.braAll 7 false 64) (teamC inClause)).team 0).pc = place 0x2104 := by decide
theorem test_branch_not_taken : ((after (.braAny 0 false 64) (teamC inClause)).team 0).pc = place 0x2008 := by decide
theorem test_branch_no_header : ((after (.braAll 7 false 65) (teamC inClause)).team 0).killed = some 0xFFFF := by decide
theorem test_loop_back : ((after (.loop 3 64) (teamC (inClause.setGs 3 1 2))).team 0).greg 3 = 1 := by decide
theorem test_exit_retires : ((after .exit (teamC { inClause with live := 3 })).team 0).st = .retiring := by decide

theorem witness_Branches :
    (teamC inClause).team 0 = inClause ∧ inClause.clause = some clauseC ∧
    (∃ cond, taken (.braAny 3 true 64) = some (64, cond) ∧ Runs (teamC inClause) 0 (.braAny 3 true 64)) ∧
    Runs (teamC inClause) 0 (.loop 63 64) ∧ Runs (teamC inClause) 0 (.jmpu 62) ∧
    (∃ s1, HeaderAt (teamC inClause) 0 (braTarget inClause 64) s1) ∧
    ∃ s1, HeaderAt (teamC (inClause.setGs 62 2 (place 0x1F04).toNat)) 0 (place 0x1F04) s1 := by
  refine ⟨by decide, by decide, ⟨_, rfl, ?_⟩, ?_, ?_, ⟨_, header_ahead⟩, ⟨_, header_at _ _ _ 0xFC000044 (by decide) (by decide)⟩⟩ <;>
    unfold Runs <;> decide

/-- The word at 0x2004 of the local store is no header; the segment ends at 0x10000; bit 63 alone is not canonical. -/
theorem witness_Branches_traps :
    brDisp (.braU 3 true 0) = some 0 ∧ Runs (teamC inClause) 0 (.braU 3 true 0) ∧
    ((teamC inClause).fetchWord 0 (braTarget inClause 0).toNat).1 = .word 0 ∧ (0 : W32).extractLsb' 26 6 ≠ 0x3F#6 ∧
    ((teamC inClause).fetchWord 0 (braTarget inClause 0x37FF).toNat).1 = .violation ∧
    canonical (BitVec.ofNat 64 ((inClause.setGs 62 2 (2 ^ 63)).gpair 62)).toNat = false := by
  unfold Runs; decide

theorem test_jmpu_no_header : ((after (.jmpu 62) (teamC (inClause.setGs 62 2 (place 0x2004).toNat))).team 0).killed = some 0xFFFF := by
  decide

/-- A launch whose spill areas stand in the local store, 0x800 bytes each, and one that has a park area too. -/
def spillLaunch : Launch := { fetchLaunch with spill := place 0xC000, spsz := 0x800 }
def spillS (t : Team) (park : Nat := 0) : State :=
  { teamC t with launches := [(1, { spillLaunch with park := if park = 0 then 0 else place park })] }
/-- One whose spill areas are empty. -/
def tightS (t : Team) : State := { teamC t with launches := [(1, { fetchLaunch with spsz := 0 })] }

/-- A team with one entry on each stack. -/
def stacked : Team :=
  { inClause with
    divs := [DivEntry.mk false (place 0x2104) 12], calls := [CallEntry.mk (place 0x2104) 1], live := 15 }

/-- Sixteen entries on each stack, and none on chip but one in the area. -/
def deep : Team :=
  { inClause with
    divs := List.replicate 15 (DivEntry.mk false (place 0x2104) 4) ++ [DivEntry.mk false (place 0x2104) 12]
    calls := List.replicate 15 (CallEntry.mk (place 0x2104) 1) ++ [CallEntry.mk (place 0x1F04) 2], live := 15 }
def spilledOnly : Team := { inClause with divSpilled := 1, callSpilled := 1 }

theorem yes_lanes (t : Team) (h : t.lanes = 32) (p : BitVec 3) (n : Bool) (m : Nat) (hm : m < 2 ^ 32)
    (hl : ∀ l, l < 32 → m.testBit l = (t.mask.testBit l && (t.preg l p.toNat != n))) : yesLanes t p n m := by
  intro l
  by_cases g : l < 32
  · simp [hl l g, h, g]
  · have : m.testBit l = false :=
      Nat.testBit_lt_two_pow (Nat.lt_of_lt_of_le hm (Nat.pow_le_pow_right (by decide) (by omega)))
    simp [this, h, g]

theorem witness_DivergenceAndCalls :
    (yesLanes inClause 7 false 3 ∧ Runs (spillS inClause) 0 (.braD 7 false 64) ∧ Runs (spillS inClause) 0 (.div 64) ∧
      Runs (spillS inClause) 0 (.call 64) ∧ Runs (spillS stacked) 0 .ret) ∧
    ((∃ s1, HeaderAt (spillS inClause) 0 (braTarget inClause 64) s1 ∧ StacksFit s1 inClause 1 0 ∧ StacksFit s1 inClause 0 1)) ∧
    ((∃ s1, HeaderAt (tightS inClause) 0 (braTarget inClause 64) s1 ∧ ¬ StacksFit s1 inClause 1 0 ∧ ¬ StacksFit s1 inClause 0 1)) ∧
    (∃ e r, stacked.calls = e :: r ∧ e.depth = divCount stacked) ∧
    (∃ e r, { stacked with divs := [] }.calls = e :: r ∧ e.depth ≠ divCount { stacked with divs := [] }) ∧
    (Runs (spillS inClause) 0 .ret ∧ inClause.calls = [] ∧ inClause.callSpilled = 0) := by
  refine ⟨⟨yes_lanes _ rfl _ _ _ (by decide) (by decide), ?_, ?_, ?_, ?_⟩,
    ⟨_, header_at _ _ _ 0xFC000044 (by decide) (by decide), by unfold StacksFit; decide, by unfold StacksFit; decide⟩,
    ⟨_, header_at _ _ _ 0xFC000044 (by decide) (by decide), by unfold StacksFit; decide, by unfold StacksFit; decide⟩, ⟨_, _, rfl, by decide⟩, ⟨_, _, rfl, by decide⟩, ?_,
    rfl, rfl⟩ <;> unfold Runs <;> decide

/-- Lane 0 alone of the two holds p1. -/
def splitting : Team := deep.setP 0 1 true

theorem witness_DivergenceAndCalls_spill :
    (yesLanes splitting 1 false 1 ∧ (1 : Nat) ≠ splitting.mask ∧
      splitting.divs = List.replicate 15 (DivEntry.mk false (place 0x2104) 4) ++ [DivEntry.mk false (place 0x2104) 12] ∧
      splitting.calls = List.replicate 15 (CallEntry.mk (place 0x2104) 1) ++ [CallEntry.mk (place 0x1F04) 2]) ∧
    (∃ base s2 s3, SpillAt (spillS splitting) splitting base s2 ∧
      WritesDiv s2 splitting base 0 (DivEntry.mk false (place 0x2104) 12) s3) ∧
    (∃ base s2 s3, SpillAt (spillS splitting 0x4000) splitting base s2 ∧
      WritesCall s2 splitting base 0 (CallEntry.mk (place 0x1F04) 2) s3) ∧
    (let s := ((spillS spilledOnly).writeKey (keyLocal 1 0 0xC7F0) 8 (place 0x2104).toNat).writeKey (keyLocal 1 0 0xC7F8) 4 1
     ∃ v s3 s4, s.readRange (spilledOnly.who pathLS) ((place 0xC000).toNat + 0x800 - 16) 16 true = (.value v, s3) ∧
       v / 2 ^ 64 % 2 ^ 32 = divCount spilledOnly ∧ HeaderAt s3 0 (BitVec.ofNat 64 v) s4) ∧
    (let s := ((spillS spilledOnly).writeKey (keyLocal 1 0 0xC000) 8 (place 0x2104).toNat).writeKey (keyLocal 1 0 0xC008) 4 3
     ∃ v s3, s.readRange (spilledOnly.who pathLS) (place 0xC000).toNat 12 true = (.value v, s3) ∧
       (v / 2 ^ 64 % 2 ^ 32) &&& spilledOnly.live ≠ 0) := by
  refine ⟨⟨yes_lanes _ rfl _ _ _ (by decide) (by decide), by decide, rfl, rfl⟩,
    ⟨_, _, _, Or.inl ⟨rfl, rfl, rfl⟩, gives_pair (by decide +kernel)⟩,
    ⟨_, _, _, Or.inr ⟨by decide, 0, value_of (by decide +kernel), rfl⟩, gives_pair (by decide +kernel)⟩,
    ⟨(place 0x2104).toNat + 2 ^ 64, _, _, value_of (by decide +kernel), by decide +kernel,
      header_at _ _ _ 0xFC000044 (by decide +kernel) (by decide)⟩,
    ⟨(place 0x2104).toNat + 3 * 2 ^ 64, _, value_of (by decide +kernel), by decide +kernel⟩⟩

theorem test_push_spills : ((after (.div 64) (spillS deep)).team 0).divSpilled = 1 := by decide +kernel
theorem test_push_full : ((after (.call 64) (tightS inClause)).team 0).killed = some 0xFFFF := by decide

theorem witness_JoinExitAndMovingOn :
    (Runs (teamC stacked) 0 .join ∧ stacked.divs = [] ++ DivEntry.mk false (place 0x2104) 12 :: [] ∧ 12 &&& stacked.live ≠ 0) ∧
    (∀ x ∈ ({ stacked with live := 3 } : Team).divs, x.mask &&& 3 = 0) ∧
    (Runs (teamC inClause) 0 .join ∧ inClause.divs = [] ∧ inClause.mask &&& inClause.live ≠ 0) ∧
    (Runs (teamC stacked) 0 .exit ∧ ∀ l, l < 64 → (12 : Nat).testBit l = (stacked.live.testBit l && !stacked.mask.testBit l)) ∧
    afterClause clauseC = inClause.pc + BitVec.ofNat 64 (4 * 1) ∧
    afterClause { clauseC with len := 2 } ≠ inClause.pc + BitVec.ofNat 64 (4 * 1) ∧
    Runs teamS 0 .nop ∧ Runs teamS 0 .yield := by
  refine ⟨⟨?_, rfl, by decide⟩, by decide, ⟨?_, rfl, by decide⟩, ⟨?_, by decide⟩, by decide, by decide, ?_, ?_⟩ <;> unfold Runs <;> decide

/-- A team at the header of a clause of one word. -/
def atHeader : Team := { inClause with pc := place 0x2008, clause := none }

/-- The same with an operation in flight that counts on counter 0. -/
def inFlight : State := { teamC { atHeader with cf := [(0, 1)] } with ops := [(0, { party := .team 0, flag := 0, todo := [0] })] }

/-- An exit as the first of the two words of a clause. -/
def badBody : State := withCode (withTeam atHeader) [(0x200C, 0xC4800000), (0x2010, 0x00080814), (0x2014, 0xFC000044)]

/-- A replay of one word with the strides 2. -/
def inClause2 : Team := { inClause with clause := some { clauseC with len := 2 } }
def bodyS : State := withCode (withTeam inClause2) [(0x2008, 0x0E082060)]

theorem witness_HeadersAndReplays :
    (Runs (teamC atHeader) 0 (.hdr 0x801 0 1 1 0) ∧ atHeader.dueError = none ∧
      (∀ i : Nat, i < 12 → (0x801 : BitVec 12).getLsbD i = true → atHeader.counter i = 0) ∧
      ((teamC atHeader).scan 0 (atHeader.pc + 8) 1 (atHeader.pc + 4)).1 = .ok) ∧
    (Runs inFlight 0 (.hdr 1 0 1 1 0) ∧ (inFlight.team 0).dueError = none ∧ (1 : BitVec 12).getLsbD 0 = true ∧
      (inFlight.team 0).counter 0 ≠ 0 ∧ (inFlight.scan 0 (atHeader.pc + 8) 1 (atHeader.pc + 4)).1 = .ok) ∧
    (Runs badBody 0 (.hdr 0 0 1 2 0) ∧ atHeader.dueError = none ∧ ∃ pc x,
      (badBody.scan 0 (atHeader.pc + 12) 2 (atHeader.pc + 4)).1 = .bad pc x) ∧
    (Runs bodyS 0 (.rpt 1 0 2 2 2) ∧ (bodyS.checkBody 0 (place 0x200C) 2 2 2 1 (place 0x2008)).1 = .ok) := by
  refine ⟨⟨?_, by decide, by decide, by decide⟩, ⟨?_, by decide, by decide, by decide, by decide⟩, ⟨?_, by decide, _, _, rfl⟩, ?_, by decide⟩ <;>
    unfold Runs <;> decide

theorem test_rpt_counts : ((after (.rpt 1 0 2 2 2) bodyS).team 0).rep = some (Rep.mk (place 0x2004) 1 64 2 2 2 0 0) := by decide
theorem test_hdr_enters : ((after (.hdr 1 0 1 1 0) (teamC atHeader)).team 0).clause = some (Clause.mk (place 0x2008) 0 1 1 0) := by
  decide
theorem test_hdr_waits : ((after (.hdr 1 0 1 1 0) inFlight).team 0).st = .clauseWait := by decide

/-! ## Traps -/

/-- A trap-handler table at 0x3000 whose default entry is the header at 0x2104, with segment 0 over local store. -/
def withTraps (t : Team) : State :=
  let s := teamC t
  let s := s.writeBytes (keyLocal 1 0 0x3000) (toBytes 8 (place 0x2104).toNat)
  let s := s.writeBytes (keyLocal 1 0 0x3080) (toBytes 16 (segOf Config.plainBase 0x10000 31).toNat)
  { s with launches := [(1, { fetchLaunch with trapt := place 0x3000 })] }

theorem handler_for (s : State) (id : Nat) (code : BitVec 8) (v : Nat) (h0 : (s.team id).tstat.getLsbD 6 = false)
    (h : (s.readRange ((s.team id).who pathLS) (s.launch (s.team id).launch).trapt.toNat 256 true).1 = .value v)
    (hv : handlerAddress v code ≠ 0) : ∃ s1, HandlerFor s id code v s1 :=
  ⟨_, h0, Prod.ext h rfl, hv⟩

/-- What the table reads as. -/
def tableValue : Nat :=
  match ((withTraps inClause).readRange (inClause.who pathLS) (place 0x3000).toNat 256 true).1 with
  | .value v => v
  | _ => 0

theorem handler_of_trap : ∃ s1, HandlerFor (withTraps inClause) 0 0x08 tableValue s1 :=
  handler_for _ _ _ _ (by decide +kernel) (by decide +kernel) (by decide +kernel)

theorem witness_TrapsOnPurposeAndByForm :
    (∃ s1, HandlerFor (withTraps inClause) 0 0x08 tableValue s1) ∧ Runs (withTraps inClause) 0 (.trap 0xFFFF) ∧
    Runs (withTraps inClause) 0 .brk ∧
    (isTeam (.iadd true 64 0 0 0) = true ∧ (Instr.iadd true 64 0 0 0).illIn = some false) ∧
    (isTeam (.nodeq 0 badGuard false 0) = true ∧ (Instr.nodeq 0 badGuard false 0).illIn = some true) ∧
    (∃ s1, HandlerFor (withTraps inClause) 0 0x01 tableValue s1) ∧ (∃ s1, HandlerFor (withTraps inClause) 0 0x02 tableValue s1) ∧
    ((Instr.iadd false 1 2 4 3).illIn = none ∧ (Instr.iadd false 1 2 4 3).regsBad 128 = some false) := by
  refine ⟨handler_of_trap, ?_, ?_, by decide +kernel, by decide +kernel, handler_for _ _ _ _ (by decide +kernel) (by decide +kernel) (by decide +kernel),
    handler_for _ _ _ _ (by decide +kernel) (by decide +kernel) (by decide +kernel), by decide +kernel⟩ <;> unfold Runs <;> decide

theorem test_trap_cause : ((after (.trap 5) (withTraps inClause)).team 0).tcause = 8 := by decide +kernel
theorem test_trap_pc : ((after (.trap 5) (withTraps inClause)).team 0).pc = place 0x2104 := by decide +kernel
theorem test_brk_info : ((after .brk (withTraps inClause)).team 0).tinfo = 0x10000 := by decide +kernel

/-- A team in handler mode that came from 0x2004. -/
def handling : Team :=
  { inClause with
    tstat := 0x40, tepc := place 0x2004, tcause := 8, tmask := 3, tret := 1, sgSaved := fetchSegs
    tclause := some clauseC, tcls := 0x0110, prev := place 0x2100, pc := place 0x2108
    clause := some (Clause.mk (place 0x2104) 0 1 1 0) }

theorem witness_NestedTrapsKill :
    ((withTeam handling).team 0).tstat.getLsbD 6 = true ∧
    (inClause.tstat.getLsbD 6 = false ∧ ((teamC inClause).launch 1).trapt = 0 ∧ handlerAddress 0 0x01 = 0) := by decide

theorem test_nested_kills : (((teamC handling).teamTrap 0 (Trap.mk 1 0 0 0)).team 0).killed = some 0xFFFE := by decide

theorem witness_StatusRegisters :
    (Runs teamS 0 (.csrr 5 1) ∧ lanesTwo.tstat.getLsbD 6 = false) ∧ Runs (teamC handling) 0 (.csrw 5 0x00A) ∧
    Runs (teamC handling) 0 (.csrr 63 0x03F) ∧ Runs (teamC handling) 0 (.csrc 63 0x020) ∧ Runs teamS 0 (.csrs 0 0) ∧
    handling.tstat.getLsbD 6 = true := by
  refine ⟨⟨?_, by decide⟩, ?_, ?_, ?_, ?_, by decide⟩ <;> unfold Runs <;> decide

theorem test_csr_tstat_keeps_hnd : ((after (.csrw 5 0) (teamC (handling.setGs 5 1 0x3F))).team 0).tstat = 0x7F := by decide

/-- A team whose frame has set REP while no trap left a replay. -/
def framed : Team := { handling with tret := 0, tcause := 0x2008 }

/-- The word that the handler skips. -/
def eretS : State := withCode (withTeam handling) (headers ++ [(0x2004, 0x0E082060)])

/-- The word at a key is full. -/
def tparkS : State := (teamC (handling.setGs 8 2 (place 0x4000).toNat)).setFull (keyLocal 1 0 0x4000) true

theorem witness_LeavingTheHandler :
    (Runs teamS 0 .eret ∧ Runs teamS 0 (.tkill 1) ∧ Runs teamS 0 (.tpark 8 10)) ∧ Runs (teamC handling) 0 (.tkill 0) ∧
    (Runs (teamC { handling with tret := 0 }) 0 .eret ∧ ({ handling with tret := 0 } : Team).tret.getLsbD 0 = false ∧
      handling.tmask &&& handling.live ≠ 0) ∧
    (Runs eretS 0 .eret ∧ handling.tret.getLsbD 0 = true ∧ handling.tcause.getLsbD 13 = false ∧
      ((eretS.setTeam 0 { handling with sg := handling.sgSaved }).fetchWord 0 handling.tepc.toNat).1 = .word 0x0E082060 ∧
      (∀ c, resumed handling handling.tepc = some c → handling.tepc.toNat < (handling.tepc + 4).toNat ∧
        (handling.tepc + 4).toNat ≤ (afterClause c).toNat)) ∧
    (Runs (teamC framed) 0 .eret ∧ framed.tmask &&& framed.live ≠ 0 ∧ framed.tcause.getLsbD 13 = true ∧ framed.trep = none ∧
      framed.tclause = some clauseC ∧ framed.tret.getLsbD 0 = false) ∧
    (Runs tparkS 0 (.tpark 8 10) ∧ (tparkS.team 0).drained = true ∧ tparkS.isFull (keyLocal 1 0 0x4000) = true ∧
      tparkS.isPoisoned (keyLocal 1 0 0x4000) = false) := by
  refine ⟨⟨?_, ?_, ?_⟩, ?_, ⟨?_, by decide, by decide⟩, ⟨?_, by decide, by decide, by decide, fun c h => ?_⟩,
    ⟨?_, by decide, by decide, by decide, by decide, by decide⟩, ?_, by decide, by decide, by decide⟩
  case refine_7 =>
    rw [show resumed handling handling.tepc = some clauseC by decide] at h
    cases h
    decide
  all_goals unfold Runs; decide

theorem test_eret_skips : ((after .eret (teamC handling)).team 0).pc = place 0x2008 := by decide
theorem test_tpark_takes : ((after (.tpark 8 10) tparkS).team 0).st = .ready := by decide

/-! ## Memory instructions -/

/-- inClause with the address of byte o of local store in the pair v4, v5 of lanes 0 and 1, and v8 holding data. -/
def pointing (o data : Nat) : Team :=
  ((inClause.setVs 0 4 2 (place o).toNat).setVs 1 4 2 (place (o + 8)).toNat).setVs 0 8 1 data

def memS : State := teamC (pointing 0x4000 0x01020304)

theorem witness_MemoryIssueAndChecks :
    (∃ x, laneAccess (.ld32 false 8 4 0 false 31) = some x ∧ Runs memS 0 (.ld32 false 8 4 0 false 31) ∧ memS.acqPending 0 = false ∧
      ∀ l ∈ x.lanes (memS.team 0), x.check memS (memS.team 0) l = .ok ∧
        memS.lodgedBarred (memS.team 0) x.sg x.op.acc (x.first (memS.team 0) l).toNat (x.size (memS.team 0) l) = false) ∧
    Runs memS 0 (.pref false 4 0 0) ∧
    (∃ x, laneAccess (.st64 false 8 4 0 false 0) = some x ∧ x.lanes inClause = [0] ++ 1 :: [] ∧
      (∀ m ∈ [0], x.check memS (pointing 0xFFF8 0) m = .ok) ∧ x.check memS (pointing 0xFFF8 0) 1 = .violation) ∧
    (∃ x, laneAccess (.st64 false 8 4 0 false 0) = some x ∧ x.check memS (pointing 0x4004 0) 0 = .misaligned) := by
  refine ⟨⟨_, rfl, ?_, by decide, by decide⟩, ?_, ⟨_, rfl, by decide, by decide, by decide⟩, ⟨_, rfl, by decide⟩⟩ <;>
    unfold Runs <;> decide

theorem test_load_misaligned : ((after (.ld32 false 8 4 0 false 0) (withTraps (pointing 0x4002 0))).team 0).tcause = 4 := by
  decide +kernel
theorem test_load_counts : ((after (.ld32 false 8 4 0 true 0) memS).team 0).counter 1 = 1 := by decide

/-- One lane's access in flight. -/
def opOf (m : MemOp) (o data : Nat) (uni : Bool := false) : Op :=
  { party := .team 0, kind := .mem m uni 8 [Unit1.mk 0 (place o) data 0 true], todo := [0], flag := 1 }

def flying (m : MemOp) (o data : Nat) : State :=
  { (teamC inClause).writeBytes (keyLocal 1 0 0x4000) [0x80, 2, 3, 4, 5, 6, 7, 8] with ops := [(0, opOf m o data)], nextOp := 1 }

theorem test_load_signed : ((after (.memAccessComplete 0 0) (flying (.load 1 true) 0x4000 0)).team 0).vreg 0 8 = 0xFFFFFF80 := by
  decide
theorem test_store_bytes : (after (.memAccessComplete 0 0) (flying (.store 2) 0x4002 0xBBAA)).readKey (keyLocal 1 0 0x4000) 8
    = 0x08070605BBAA0280 := by decide
theorem test_atomic_add : (after (.memAccessComplete 0 0) (flying (.atom 0 4 true) 0x4000 0x80)).readKey (keyLocal 1 0 0x4000) 4
    = 0x04030300 := by decide

theorem witness_LoadsAndStores :
    (((flying (.load 16 false) 0x4000 0).op 0).party = .team 0 ∧ (flying (.load 16 false) 0x4000 0).unitReady 0 0 = true ∧
      ((flying (.load 16 false) 0x4000 0).team 0).st ≠ .retiring ∧
      ∃ v, ((flying (.load 16 false) 0x4000 0).loadRange (inClause.who pathLS) ((teamC inClause).l1Of inClause)
        (place 0x4000).toNat 16 true).1 = .value v) ∧
    ((flying (.store 2) 0x4002 1).unitReady 0 0 = true ∧
      ∃ ps s0, (flying (.store 2) 0x4002 1).piecesOf (inClause.who pathLS) .write true (place 0x4002).toNat 2 = (.ok ps, s0) ∧
        s0.linesFit (inClause.who pathLS).launch (s0.newLines ps) = true) :=
  ⟨⟨by decide, by decide, by decide, ⟨_, rfl⟩⟩, by decide, ⟨_, _, rfl, by decide⟩⟩

theorem witness_Atomics :
    ∃ ps s0, memS.piecesOf (inClause.who pathLS) .atomic true (place 0x4000).toNat 8 = (.ok ps, s0) ∧ s0.piecesPoisoned ps = false ∧
      s0.linesFit (inClause.who pathLS).launch (s0.newLines ps) = true :=
  ⟨_, _, rfl, by decide, by decide⟩

def fullKey : Nat := keyLocal 1 0 0x4000

theorem witness_FullEmptyWords :
    (fetchLaunch.windowKey 1 (place 0x4000).toNat = some fullKey) ∧
    (let s := (flying .ldFe 0x4000 0).setFull fullKey true
     let s' := s.feArrive 0 0
     s'.unitReady 0 0 = true ∧ s.isFull fullKey = true ∧ Tbl.find? (s'.op 0).places 0 = some 1 ∧
       s'.feAhead fullKey true (some 1) = false ∧ s.isPoisoned fullKey = false) ∧
    (let s := flying .stFe 0x4000 0
     let s' := s.feArrive 0 0
     s'.unitReady 0 0 = true ∧ s.isFull fullKey = false ∧ Tbl.find? (s'.op 0).places 0 = some 1 ∧
       s'.feAhead fullKey false (some 1) = false) ∧
    (let s : State := { flying .ldFe 0x4000 0 with ops := [(0, { opOf .ldFe 0x4000 0 with until_ := 5 })], time := 5 }
     0 ∈ (s.op 0).todo ∧ (s.op 0).until_ ≠ 0 ∧ (s.op 0).until_ ≤ s.clock 0) ∧
    (let s := (((flying .ldFe 0x4000 0).setFull fullKey true).setPoison fullKey true).feArrive 0 0
     s.unitReady 0 0 = true ∧ s.isFull fullKey = true ∧ Tbl.find? (s.op 0).places 0 = some 1 ∧
       s.feAhead fullKey true (some 1) = false ∧ s.isPoisoned fullKey = true) := by
  decide

theorem test_ldfe_takes : (after (.feWaitServed (.op 0 0)) ((flying .ldFe 0x4000 0).setFull fullKey true)).isFull fullKey = false := by
  decide
theorem test_ldfe_result : ((after (.feWaitServed (.op 0 0)) ((flying .ldFe 0x4000 0).setFull fullKey true)).team 0).rd false 0 8 2
    = 0x0807060504030280 := by decide

/-! ## Engines -/

/-- Registers for a copy of 16 bytes from 0x4000 to 0x5000, and for a conversion with a pair of scale bases. -/
def copying : Team :=
  ((((inClause.setGs 8 2 (place 0x5000).toNat).setGs 10 2 (place 0x4000).toNat).setGs 12 1 16).setGs 16 2
    (0x00053030 + 2 ^ 32)).setGs 18 2 (place 0x4800).toNat

/-- The check of a range, as a truth value. -/
def rangeOkB (r : ByteRange) (s : State) (tm : Team) : Bool :=
  r.bytes == 0 ||
    ((checkNamed (s.launch tm.launch) tm.launch (Tbl.get tm.sg 0 r.sg.toNat) r.need r.first r.bytes 1 == .ok) &&
      match r.acc with
      | some a => !s.lodgedBarred tm r.sg a r.first.toNat r.bytes
      | none => true)

theorem range_ok (r : ByteRange) (s : State) (tm : Team) (h : rangeOkB r s tm = true) : r.Ok s tm := by
  simp only [rangeOkB, Bool.or_eq_true, beq_iff_eq, Bool.and_eq_true] at h
  rcases h with h | ⟨h, g⟩
  · exact Or.inl h
  · refine Or.inr ⟨h, fun a ha => ?_⟩
    simpa [ha] using g

theorem ranges_ok (l : List ByteRange) (s : State) (tm : Team) (h : (l.all fun r => rangeOkB r s tm) = true) :
    ∀ r ∈ l, r.Ok s tm := fun r hr => range_ok r s tm (List.all_eq_true.mp h r hr)

def copyI : Instr := .cpy false 8 10 12 0 noGuard true 0 0
def zeroI : Instr := .mzero noGuard true true
def engineS : State := { teamC copying with clusters := [(0, { ctx := [(0, 1)], grant := some 1 })] }

theorem witness_EnginesIssue :
    (∃ x, Runs engineS 0 copyI ∧ engineS.acqPending 0 = false ∧ engineOp engineS copying copyI = some x ∧
      copying.acts true x.gd 0 = true ∧ HasEngine engineS copying copyI ∧ (∀ r ∈ x.ranges, r.Ok engineS copying) ∧ x.pair = none) ∧
    (∃ x, Runs engineS 0 zeroI ∧ engineOp engineS copying zeroI = some x ∧ HasEngine engineS copying zeroI ∧ x.ranges = [] ∧
      x.pair = none) ∧
    (∃ x v, Runs engineS 0 (.cpyMx 8 10 16 noGuard true 0 0) ∧ engineOp engineS copying (.cpyMx 8 10 16 noGuard true 0 0) = some x ∧
      (∀ r ∈ x.ranges, r.Ok engineS copying) ∧ x.pair = some (place 0x4800).toNat ∧
      checkSearch (engineS.launch 1) 1 copying.sg needRead (place 0x4800).toNat 16 16 = (.ok, true) ∧
      engineS.pairBlocked 0 (place 0x4800).toNat = false ∧
      (engineS.readPast (copying.who pathLS) (engineS.l1Of copying) (place 0x4800).toNat 16 true).1 = .value v) ∧
    ({ engineS with ops := [(0, opOf (.store 4) 0x4804 0)] } : State).pairBlocked 0 (place 0x4800).toNat = true ∧
    (¬ EntersLater { engineS with ops := [(7, { party := .team 1, held := [(0, 1)] })] } 0 0 7 ∧ EntersLater { engineS with
      teams := [(0, copying), (1, { copying with eng := 3 })], ops := [(7, { party := .team 1, cycle := 0 })] } 0 0 7) ∧
    (onceGuard (.mzero (Guard.mk 0 false) true false) = some (Guard.mk 0 false, true) ∧
      (Instr.mzero (Guard.mk 0 false) true false).regsBad 128 = none ∧ copying.acts true (Guard.mk 0 false) 0 = false) ∧
    (copying.acts true noGuard 0 = true ∧ ¬ HasEngine (teamC copying) copying zeroI) := by
  refine ⟨⟨_, ?_, by decide, rfl, by decide, trivial, ranges_ok _ _ _ (by decide), rfl⟩, ⟨_, ?_, rfl, ?_, rfl, rfl⟩,
    ⟨convertOp copying 8 10 16 noGuard true 0 0, _, ?_, by rfl, ranges_ok _ _ _ (by decide +kernel), by decide +kernel,
      by decide, by decide, by rfl⟩, by decide, ⟨?_, ⟨1, by decide, by decide⟩, by decide, by decide, by decide⟩, by decide, by decide, ?_⟩
  · unfold Runs; decide
  · unfold Runs; decide
  · show (engineS.cluster 0).grant = some 1; decide
  · unfold Runs; decide
  · exact fun h => absurd h.2.2.1 (by decide)
  · show ¬ ((teamC copying).cluster 0).grant = some 1; decide

theorem test_cpy_issues : ((after copyI engineS).team 0).counter 1 = 1 := by decide
theorem test_mzero_queue : ((after zeroI engineS).cluster 0).arrayQ = [0] := by decide
theorem test_mzero_no_grant : ((after zeroI (withTraps copying)).team 0).tcause = 5 := by decide +kernel

/-- An operation of team 0 in flight. -/
def engOp (k : OpKind) : Op := { party := .team 0, kind := k, todo := [0], flag := 1 }
def engS (k : OpKind) : State :=
  { engineS with
    ops := [(0, engOp k)], nextOp := 1, clusters := [(0, { ctx := [(0, 1)], grant := some 1, arrayQ := [0], rows := 7 })] }

def copyK : OpKind := .copy (place 0x4000) (place 0x5000) 16 1 0 0 true true none

theorem witness_EnginesComplete :
    InFlight (engS (.nodeq 61 0)) 0 0 (engOp (.nodeq 61 0)) [0] ∧
    InFlight { engS .done with ops := [(0, { engOp (.mem (.gath 4) false 8 []) with todo := [] })] } 0 0
      { engOp (.mem (.gath 4) false 8 []) with todo := [] } [] ∧
    (InFlight (engS copyK) 0 0 (engOp copyK) [0] ∧ (engOp copyK).late = [] ∧ (engS copyK).fenced 0 = false ∧ (engS copyK).acBlocked 0 = false ∧
      (copyPieces (place 0x4000).toNat (place 0x5000).toNat 16 1 0 0)[0]? = some ((place 0x4000).toNat, (place 0x5000).toNat, 16) ∧
      (∀ j, j < 16 → overlapped (place 0x4000).toNat 16 1 0 ((place 0x5000).toNat + j) = false)) ∧
    (InFlight (engS (.mat (.zero 1))) 0 0 (engOp (.mat (.zero 1))) [0] ∧ (engS (.mat (.zero 1))).fenced 0 = false ∧
      ((engS (.mat (.zero 1))).cluster 0).arrayQ = 0 :: []) ∧
    (let s : State := { engineS with clusters := [(0, { rows := 1 })], time := 250 }
     RowAsk s 0 (2 * 0 + 25 * max 4 s.power.rampDn)) ∧
    (let s : State := { engS (.mat (.op 0 1 0)) with power := { rampUsed := 30 } }
     RowAsk s 0 (2 * 0) ∧ s.power.rampAt = s.time.toNat / 1000 ∧ (s.power.rampUsed + 1) * s.power.rowAmps ≤ 100 * s.power.slew ∧
       ∀ cl' ∈ Tbl.keys s.clusters, cl' = 0) ∧
    (∀ a, ¬ RowAsk engineS 0 a) ∧ ({ engineS with time := 1000 } : State).power.rampAt ≠ (1000 : W64).toNat / 1000 := by
  refine ⟨?_, ?_, ⟨?_, by decide, by decide, by decide, by decide +kernel, by decide +kernel⟩, ⟨?_, by decide, by decide⟩,
    ⟨by decide, by decide, rfl⟩, ⟨⟨by decide, ⟨0, [], _, rfl, rfl, rfl⟩, rfl⟩, by decide, by decide, by decide⟩,
    fun a h => absurd h.1 (by decide), by decide⟩ <;> unfold InFlight <;> decide

def mxWho : Who := copying.who pathMX

/-- A run at the head of the queue, the blocks of a fill, of a drain and of a conversion, and the entries of a merge. -/
theorem witness_EnginesComplete_blocks :
    (let s := engS (.mat (.zero 1))
     let s1 : State := { s.releaseFenced 0 0 pathMX with failing := (engOp (.mat (.zero 1))).fails }
     (MatOp.zero 1).rowsNeeded (s.tileRows mxWho (.zero 1)) ≤ 16 * 7 ∧ (s1.runMat 0 mxWho (.zero 1)).1.fin = .done ∧
       Tbl.find? (s1.runMat 0 mxWho (.zero 1)).2.ops 0 = some (engOp (.mat (.zero 1))) ∧
       ((s1.runMat 0 mxWho (.zero 1)).2.team 0).deferred = []) ∧
    (∃ v s1 code s2, engineS.readRange mxWho ((place 0x4000).toNat + 0 * 32 * 0 + 0 * blockBytes 7) (blockBytes 7) true = (.value v, s1) ∧
      s1.readRange mxWho ((place 0x4800).toNat + 0 * 1 + 0) 1 true = (.value code, s2)) ∧
    ((∀ t, t < 32 → Tbl.get (engineS.cluster 0).bankPoison false (8192 * 1 + 64 * 127 + 32 * 1 + t) = false) ∧
      ∃ ps s1 qs s2, engineS.piecesOf mxWho .write true (place 0x4000).toNat (blockBytes 7) = (.ok ps, s1) ∧
        s1.piecesOf mxWho .write true ((place 0x4800).toNat + 2 * 127 + 1) 1 = (.ok qs, s2) ∧
        s1.linesFit 1 (s1.newLines ps) = true ∧ s2.linesFit 1 (s2.newLines (ps ++ qs)) = true) ∧
    (checkNamed fetchLaunch 1 (Tbl.get fetchSegs 0 0) needWrite (Int.ofNat (place 0x4000).toNat) 16 1 = .ok ∧
      segL (Tbl.get fetchSegs 0 0) = true ∧
      (engineS.arrayWrite 0 mxWho (Tbl.get fetchSegs 0 0) (place 0x4000).toNat
        (toBytes 4 1 ++ toBytes 4 2 ++ toBytes 4 3 ++ toBytes 4 0)).1 = .done) ∧
    (let sg := Tbl.get fetchSegs 0 0
     let o := (place 0x4000).toNat + 2 ^ 64
     let r1 := engineS.putEntries 0 mxWho sg (o % 2 ^ 64) 0 ([(5, 7), (6, 8)].take (o / 2 ^ 64 % 2 ^ 32))
     let r2 := r1.2.2.arrayWrite 0 mxWho sg ((place 0x5000).toNat + 12) (toBytes 4 (min (o / 2 ^ 64 % 2 ^ 32) 2))
     (engineS.op 0).written = [] ∧ r1.1 = .done ∧ r2.1 = .done ∧
       (r2.2.arrayWrite 0 mxWho sg ((place 0x5000).toNat + 28) (toBytes 4 1)).1 = .done) ∧
    (let r := engineS.readBlockAt (copying.who pathAC) true (place 0x4000).toNat 7 1 (place 0x4800).toNat 0
     ∃ b ps s2 qs s3, r.1 = .block b ∧ r.2.piecesOf (copying.who pathAC) .write true (place 0x5000).toNat (blockBytes 1) = (.ok ps, s2) ∧
      s2.piecesOf (copying.who pathAC) .write true (place 0x5800).toNat 1 = (.ok qs, s3) ∧
      s2.linesFit 1 (s2.newLines ps) = true ∧ s3.linesFit 1 (s3.newLines (ps ++ qs)) = true) := by
  refine ⟨by decide +kernel, ⟨0, _, 0, _, value_of (by decide +kernel), value_of (by decide +kernel)⟩,
    ⟨by decide +kernel, _, _, _, _, piece_of (o := 0x4000) (n := blockBytes 7) (by decide +kernel), piece_of (o := 0x48FF) (n := 1) (by decide +kernel), by decide +kernel,
      by decide +kernel⟩, by decide +kernel, by decide +kernel,
    ⟨readBlock 7 0 (some (scaleVal 1 0)), _, _, _, _, by decide +kernel, piece_of (o := 0x5000) (n := blockBytes 1) (by decide +kernel), piece_of (o := 0x5800) (n := 1) (by decide +kernel),
      by decide +kernel, by decide +kernel⟩⟩

/-! ## Rays -/

/-- The vertices (0, 0), (4, 0), (0, 4) in v10 to v15 of lane 0, and a reserved flag in v28 of lane 1. -/
def drawing : Team :=
  (((inClause.setVs 0 12 1 0x400).setVs 0 15 1 0x400).setVs 1 28 1 0x300).setGs 16 2 (place 0x4000).toNat

def rayS : State := { teamC drawing with launches := [(1, { fetchLaunch with nodes := [(2, { payload := 8 })] })] }

theorem test_tclass_area : ((after (.tclass 40 10 0 noGuard) rayS).team 0).rd false 0 40 2 = 0x100000 := by decide

theorem witness_RayAndRasterInstructions :
    rayS.acqPending 0 = false ∧ rayS.hasRay = true ∧ rayS.hasRast = true ∧ (place 0x4000).toNat % 64 = 0 ∧
    Runs rayS 0 (.rtrace 121 0 16 noGuard false 15 0) ∧
    (ByteRange.mk 0 needRead none (Int.ofNat (place 0x4000).toNat) 64).Ok rayS drawing ∧
    (∀ l ∈ actingLanes drawing noGuard, ¬ RayFlagsBad (drawing.vreg l (0 + 8))) ∧
    (actingLanes drawing noGuard = [0] ++ 1 :: [] ∧ ¬ RayFlagsBad (drawing.vreg 0 (20 + 8)) ∧ RayFlagsBad (drawing.vreg 1 (20 + 8))) ∧
    Runs rayS 0 (.rcommit 121 7 noGuard false) ∧ Runs rayS 0 (.tclass 126 10 6 noGuard) ∧
    (Runs rayS 0 (.rast 10 20 noGuard true 2) ∧ Tbl.find? (rayS.launch 1).nodes 2 = some { payload := 8 } ∧
      (drawing.greg 21).toNat < 256 ∧ drawing.counter 1 < 63 ∧
      (actingLanes drawing noGuard).filter (fun l => coordsOk drawing l 10 && area2 drawing l 10 != 0) = [0]) := by
  refine ⟨by decide, by decide, by decide, by decide, ?_, range_ok _ _ _ (by decide), by unfold RayFlagsBad; decide,
    ⟨by decide, by unfold RayFlagsBad; decide, by unfold RayFlagsBad; decide⟩, ?_, ?_, ?_, by decide, by decide, by decide, by decide⟩ <;>
    unfold Runs <;> decide

/-- A ray without a direction, and one hit. -/
def nowhere : RayReq := { tmax := 0x3F800000 }
def oneHit : RayHit := RayHit.mk 0x3F800000 0 0 0 0 0 true true 0 0
def triOne : Tri := { x0 := 0, y0 := 0, x1 := 0x400, y1 := 0, x2 := 0, y2 := 0x400, z0 := 0, z1 := 0, z2 := 0, number := 0 }

theorem witness_RaysAndTriangles :
    (InFlight (engS (.rtrace 121 [(0, nowhere)])) 0 0 (engOp (.rtrace 121 [(0, nowhere)])) [0] ∧ nowhere.degenerate = true ∧
      (engS (.rtrace 121 [(0, nowhere)])).rayRoom 0 0 = true ∧ (engS (.rtrace 121 [(0, nowhere)])).rayBlocked 0 = false ∧ (engS (.rtrace 121 [(0, nowhere)])).fenced 0 = false) ∧
    (InFlight (engS (.rgen 15 1 false)) 0 0 (engOp (.rgen 15 1 false)) [0] ∧ ((engS (.rgen 15 1 false)).launch 1).grid.Nodup) ∧
    (let k : OpKind := .rast 2 4 4 0 [(0, triOne), (1, triOne)]
     let s : State := { engS k with rasterQ := [(0, [0])] }
     Tbl.get s.rasterQ [] 0 = 0 :: [] ∧ Tbl.find? s.ops 0 = some (engOp k) ∧ s.rasterWaits 0 1 0 = false) ∧
    (∀ h ∈ [oneHit], h.opq = true ∧ (f32.decode h.t.toNat).isNan = false) := by
  refine ⟨⟨?_, by decide, by decide, by decide, by decide⟩, ⟨?_, by decide⟩, by decide, by decide⟩ <;> unfold InFlight <;> decide

theorem test_degenerate_misses : (((engS (.rtrace 121 [(0, nowhere)])).rayUnits 0 0 [] [(0, false)]).team 0).vreg 0 121 = 0x7F800000 := by
  decide
theorem test_covers : triOne.oriented.covers 1 1 = true ∧ triOne.oriented.covers 3 3 = false := by decide
theorem test_hit_presented : (engineS.present (inClause.who pathRY) (RayLane.gather (RayLane.mk nowhere none [] false none [])
    (Walked.mk [oneHit] []))).1 = .block [0x3F800000, 0, 0, 0, 0, 0, 17] none := by decide

/-! ## Barriers, segments, fences, headers -/

/-- A barrier word at 0x4000 with EXP 2, PEND 1, PH 0; its address in g8. -/
def barred (w : Nat) : State := (teamC (inClause.setGs 8 2 (place 0x4000).toNat)).writeKey (keyLocal 1 0 0x4000) 8 w

theorem test_sbar_last : (after (.sbarArv 8) (barred 0x20001)).readKey (keyLocal 1 0 0x4000) 8 = 0x100020002 := by decide
theorem test_sbar_not_last : (after (.sbarArv 8) (barred 0x20002)).readKey (keyLocal 1 0 0x4000) 8 = 0x20001 := by decide
theorem test_sbar_parks : ((after (.sbarWt 8 false) (barred 0x20001)).team 0).st = .parked := by decide

theorem witness_StageBarriers :
    (Runs (barred 0x20001) 0 (.sbarArv 8) ∧ (∃ k, (barred 0x20001).barrierKey ((barred 0x20001).team 0) (place 0x4000) = .ok k) ∧
      (barred 0x20001).isPoisoned fullKey = false ∧ (barred 0x20001).lsWrites (.team 0) = false) ∧
    Runs (barred 0x20001) 0 (.sbarWt 8 true) ∧ ((barred 0).setPoison fullKey true).isPoisoned fullKey = true ∧
    (let t : Team := { inClause with st := .parked, wait := .sbar (place 0x4000) true 3 }
     t.st = .parked ∧ ((teamC t).launch 1).windowKey 1 (place 0x4000).toNat = some fullKey ∧
       3 ≤ ({ teamC t with time := 1 } : State).clock 0 ∧
       (BitVec.ofNat 64 (((teamC t).writeKey fullKey 8 0x100020002).readKey fullKey 8)).getLsbD 32 = true ∧
       (BitVec.ofNat 64 ((teamC t).readKey fullKey 8)).getLsbD 32 = false) := by
  refine ⟨⟨?_, ⟨_, rfl⟩, by decide, by decide⟩, ?_, by decide, by decide⟩ <;> unfold Runs <;> decide

theorem witness_SegmentsAndFences :
    Runs teamS 0 (.sgnar 7 60 31) ∧ Runs teamS 0 (.fenceX 6 6 5) ∧
    Narrows (Tbl.get fetchSegs 0 0) (Config.plainBase + 0x10) 0xFFF0 31 ∧ ¬ Narrows (Tbl.get fetchSegs 0 0) Config.plainBase 0x10001 0 := by
  refine ⟨?_, ?_, by unfold Narrows; decide, by unfold Narrows; decide⟩ <;> unfold Runs <;> decide

/-- A deferred error of an earlier instruction, due at the header. -/
def failed1 : Deferred := Deferred.mk 0x0A 0 (place 0x2004) 1 (place 0x4000) false

theorem witness_AtTheHeader :
    Runs (withTraps { atHeader with deferred := [failed1] }) 0 (.hdr 0 0 1 1 0) ∧
    ({ atHeader with deferred := [failed1] } : Team).dueError = some failed1 ∧
    (∃ v s1, HandlerFor ((withTraps { atHeader with deferred := [failed1] }).setTeam 0 atHeader) 0 0x0A v s1) ∧
    (let t : Team := { atHeader with st := .clauseWait, hdrWord := 0xFC004040, cf := [(0, 1)] }
     t.hdrWord.getLsbD 14 = true ∧ t.counter 0 ≠ 0) ∧
    (∀ i, i < 12 → ({ atHeader with hdrWord := 0xFC004040 } : Team).hdrWord.getLsbD (14 + i) = true → atHeader.counter i = 0) := by
  refine ⟨?_, by decide, ?_, by decide, by decide⟩
  · unfold Runs; decide
  · obtain ⟨s1, h⟩ := handler_for ((withTraps { atHeader with deferred := [failed1] }).setTeam 0 atHeader) 0 0x0A tableValue
      (by decide) (by decide +kernel) (by decide +kernel)
    exact ⟨_, s1, h⟩

theorem test_deferred_trap : ((after (.hdr 0 0 1 1 0) (withTraps { atHeader with deferred := [failed1] })).team 0).tcause = 0x100A := by
  decide +kernel

/-! ## Records, batches, placement -/

/-- A launch with a node of two payload words and batches of two, and a Drover with four slots. -/
def nodeN : NodeDesc := { entry := 0x2000, batch := 2, payload := 2, regs := 36, mig := true, timeout := 10, policy := 1 }
def workLaunch : Launch := { fetchLaunch with nodes := [(2, nodeN)], lslots := 4, scalarSegs := fetchSegs, sentry := place 0x2000 }
def workS (t : Team) : State := { teamC t with launches := [(1, workLaunch)] }

/-- A team at whose stacks and counters nothing is left. -/
def leaver : Team := (inClause.setGs 8 2 (place 0x2000).toNat)
def oneLane : Team := { leaver with mask := 1 }

/-- No slot is free, and entry 1 is the lowest free one of a Cloakroom that the keeper has opened in the local store. -/
def cloakS : State :=
  { workS oneLane with
    slots := [(15, { launch := some 1 })]
    clusters := [(0, { ctx := [(0, 1)], pendThreads := [(1, 0)], kckbase := place 0 + 11, cloak := [(0, .ready)] })] }

theorem witness_WorkInstructions :
    (Runs (workS inClause) 0 (.emit false 4 0 noGuard 3 2) ∧ Tbl.find? ((workS inClause).launch 1).nodes 2 = some nodeN ∧
      (4 : BitVec 7).toNat + nodeN.payload ≤ inClause.n ∧ (workS inClause).lsWrites (.team 0) = false) ∧
    (Runs (workS inClause) 0 (.regroup 2 36) ∧ inClause.divs = [] ∧ inClause.drained = true ∧ (36 : BitVec 8).toNat ≤ nodeN.regs) ∧
    (Runs (workS oneLane) 0 (.leave 8) ∧ activeLanes oneLane = [0] ∧ (workS oneLane).waitingLeaves 0 = [] ∧
      (workS oneLane).slotForLane 0 = some 0) ∧
    (activeLanes leaver = 0 :: [1] ∧ ({ workS leaver with clusters := [(0, { pendThreads := [(1, 0)] })] } : State).slotForLane 0 = none ∧
      (({ workS leaver with clusters := [(0, { pendThreads := [(1, 0)] })] } : State).cluster 0).kckbase.getLsbD 0 = false) ∧
    (activeLanes leaver = [0, 1] ∧ leaver.drained = true ∧ (workS leaver).waitingLeaves 0 = [] ∧
      ((workS leaver).cluster 0).kckbase.getLsbD 0 = false) ∧
    (cloakS.slotForLane 0 = none ∧ (cloakS.cluster 0).kckbase.getLsbD 0 = true ∧ cloakS.waitingLeaves 0 = [] ∧
      Tbl.find? (cloakS.cluster 0).cloak 1 = none ∧ (∀ j, j < 1 → Tbl.find? (cloakS.cluster 0).cloak j ≠ none) ∧
      (cloakS.tryWrite 0 (cloakS.slot 15).launchNo (place 0x400).toNat (List.replicate 0x318 0)).isSome = true) ∧
    (stacked.divs ≠ [] ∧ ({ leaver with cf := [(0, 1)] } : Team).drained = false) := by
  refine ⟨⟨?_, by decide, by decide, by decide⟩, ⟨?_, by decide, by decide, by decide⟩, ⟨?_, by decide, by decide, by decide⟩, by decide,
    by decide, by decide +kernel, by decide⟩ <;> unfold Runs <;> decide

theorem test_leave_thread : ((after (.leave 8) (workS (oneLane.setVs 0 20 1 7))).slot 0).xreg 10 = 7 := by decide
theorem test_leave_cloak : (((after (.leave 8) cloakS).cluster 0).cloakReady) = [1] := by decide +kernel
theorem test_emit_holds : ((after (.emit false 4 0 noGuard 3 2) (workS { inClause with mask := 1 })).drover 0 1).held.length = 1 := by
  decide

/-- A record held since cycle 0, with a deadline. -/
def heldOne : Held := { record := { node := 2, words := [5, 6], first := 20, deadline := some 3, quality := 1 }, seq := 0, since := 0 }
def holding : State :=
  { workS inClause with
    clusters := [(0, { ctx := [(0, 1)], drover := [(1, { held := [heldOne] })] })], time := 20, nextTeam := 5 }
/-- The same record held since cycle 55: its batch is not due, its deadline has passed. -/
def lateOne : Held := { heldOne with since := 55 }
def overdue : State := { holding with clusters := [(0, { ctx := [(0, 1)], drover := [(1, { held := [lateOne] })] })] }
def waitingRec : State :=
  { workS inClause with
    clusters := [(0, { ctx := [(0, 1)], drover := [(1, { waiting := [WaitRec.mk heldOne.record (.post 0)] })] })] }

/-- The record in a batch that awaits its team. -/
def batched : State :=
  { holding with clusters := [(0, { ctx := [(0, 1)], drover := [(1, { batches := [Batch.mk 3 2 [heldOne]] })] })] }

theorem witness_RecordsAndBatches :
    (Tbl.find? (waitingRec.cluster 0).ctx 0 = some 1 ∧ (waitingRec.drover 0 1).waiting = WaitRec.mk heldOne.record (.post 0) :: [] ∧
      Admits (waitingRec.launch 1) (waitingRec.drover 0 1) 2) ∧
    ¬ Admits { workLaunch with lslots := 0 } (waitingRec.drover 0 1) 2 ∧
    ((holding.drover 0 1).held.filter (fun x => x.record.node == 2) = heldOne :: [] ∧
      (workLaunch.node 2).timeout ≤ holding.clock 0 - heldOne.since ∧ (holding.drover 0 1).heldBack workLaunch 2 = false ∧
      workLaunch.draining = false ∧ [heldOne].length ≤ max 1 (workLaunch.node 2).batch ∧
      Tbl.rising (holding.cluster 0).drover = true ∧ ∀ e ∈ holding.releasable 0, e.1 = 1 ∧ e.2.record.node = 2) ∧
    holding.nextRelease 0 = some (1, heldOne) ∧
    ((1, Batch.mk 3 2 [heldOne]) ∈ (batched.cluster 0).awaiting ∧
      (∀ e ∈ (batched.cluster 0).awaiting, e = (1, Batch.mk 3 2 [heldOne]) ∨ 3 < e.2.seq) ∧
      ((batched.createTeam 0).cluster 0).awaiting = [] ∧
      heldOne.record.bad = false ∧ 2 ≤ heldOne.record.first ∧ heldOne.record.first + heldOne.record.words.length ≤ 128) ∧
    (overdue.nextRelease 0 = none ∧ (overdue.drover 0 1).held[0]? = some lateOne ∧
      lateOne.record.deadline = some 3 ∧ lateOne.notBefore ≤ overdue.time.toNat ∧ (3 : W64).toNat < overdue.time.toNat ∧
      (workLaunch.node 2).policy = 1) ∧
    (({ nodeN with policy := 2, degn := 2 } : NodeDesc).policy = 2 ∧ 1 ≤ heldOne.record.quality ∧ nodeN.qmin < heldOne.record.quality) := by
  refine ⟨⟨by decide, by decide, by unfold Admits; decide⟩, by unfold Admits; decide, by decide, by decide, by decide, by decide,
    by decide⟩

theorem test_batch_released : ((after (.batchTimeout 0 0 2) holding).drover 0 1).batches = [Batch.mk 0 2 [heldOne]] := by decide
theorem test_batch_lane : ((after (.teamAdmit 0 0) batched).team 5).vreg 0 20 = 5 := by decide +kernel
theorem test_deadline_drops : ((after (.recordDeadline 0 0 0) overdue).launch 1).drops = 1 := by decide

/-- A team that waits for room, one that has ended, and a cluster with a launch thread that waits. -/
def admitting : Team := { inClause with st := .admitting }
def retired : Team := { inClause with st := .retiring, mask := 0, live := 0 }
def granting : State := { workS inClause with clusters := [(0, { ctx := [(0, 1)], pendThreads := [(1, 3)] })], slots := [] }
def leaving : Team := { leaver with st := .parked, wait := .leave [0, 1] (place 0x2000) }

theorem witness_Placement :
    (((teamC admitting).cluster 0).awaiting = [] ∧ (teamC admitting).nextAdmit 0 = some (0, admitting) ∧ (teamC admitting).engineFor admitting 4 = some 0 ∧ admitting.frame = 0) ∧
    (retired.st = .retiring ∧ ∀ e ∈ retired.cf, e.2 = 0) ∧ ¬ (inClause.st = .retiring) ∧
    ((granting.slot 14).st = .free ∧ (granting.slot 14).reserved = false ∧ 14 % 16 ≠ 15 ∧
      (granting.cluster 0).pendThreads = (1, 3) :: []) ∧
    ((workS leaving).firstLeave 0 = some 0 ∧ (workS leaving).slotForLane 0 = some 0) ∧
    (workLaunch.st = .resident ∧ workLaunch.draining = false ∧ workLaunch.drainIdle = false) ∧
    ({ workLaunch with draining := true } : Launch).draining = true := by
  decide

theorem test_grant_index : ((after (.slotGrant 14) granting).slot 14).xreg 10 = 3 := by decide
theorem test_retire_erases : (after (.teamRetire 0) (teamC retired)).teams = [] := by decide

/-! ## Scalar threads -/

/-- Slot 3 of core 0 of cluster 0, with x5 and x6 at given values. -/
def thread (a b : W64) : Slot :=
  (({ st := .ready, launch := some 1, pc := place 0x2000, sg := fetchSegs, sdom := 3 } : Slot).setX 5 a).setX 6 b
def slotS (x : Slot) : State :=
  { withCode { cur := Cur.mk (.slot 3) 0x1234 0 4, enabled := [0], slots := [(3, x)] } [(0x4000, 0x84838281)] with launches := [(1, workLaunch)] }
def rvOp (o : RvOp) : Instr := .riscvBaseOp o
def xAfter (i : Instr) (x : Slot) (r : BitVec 5) : W64 := ((after i (slotS x)).slot 3).xreg r

theorem test_addw : xAfter (rvOp (.alu .addw 7 5 6)) (thread 0x7FFFFFFF 1) 7 = 0xFFFFFFFF80000000 := by decide
theorem test_div_zero : xAfter (rvOp (.alu .div 7 5 6)) (thread 9 0) 7 = 0xFFFFFFFFFFFFFFFF := by decide
theorem test_rem_overflow : xAfter (rvOp (.alu .rem 7 5 6)) (thread 0x8000000000000000 0xFFFFFFFFFFFFFFFF) 7 = 0 := by decide
theorem test_mulhsu : xAfter (rvOp (.alu .mulhsu 7 5 6)) (thread 0xFFFFFFFFFFFFFFFF 2) 7 = 0xFFFFFFFFFFFFFFFF := by decide
theorem test_sh3add_uw : xAfter (rvOp (.alu .sh3addUw 7 5 6)) (thread 0x1FFFFFFFF 1) 7 = 0x7FFFFFFF9 := by decide
theorem test_rev8 : xAfter (rvOp (.unary .rev8 7 5)) (thread 1 0) 7 = 0x0100000000000000 := by decide
theorem test_orcb : xAfter (rvOp (.unary .orcB 7 5)) (thread 0x0100 0) 7 = 0xFF00 := by decide
theorem test_x0 : xAfter (rvOp (.lui 0 1)) (thread 0 0) 0 = 0 := by decide
theorem test_jalr : ((after (rvOp (.jalr 1 5 1)) (slotS (thread (place 0x2002) 0))).slot 3).pc = place 0x2002 := by decide
theorem test_lb : xAfter (rvOp (.load .lb 7 5 1)) (thread (place 0x4000) 0) 7 = 0xFFFFFFFFFFFFFF82 := by decide
theorem test_lwu : xAfter (rvOp (.load .lwu 7 5 0)) (thread (place 0x4000) 0) 7 = 0x84838281 := by decide
theorem test_amoadd : xAfter (.amo .add false false false 7 5 6) (thread (place 0x4000) 1) 7 = 0xFFFFFFFF84838281 := by decide
theorem test_sc_fails : xAfter (.sc true false false 7 5 6) (thread (place 0x4000) 1) 7 = 1 := by decide
theorem test_fclass : xAfter (rvOp (.fclass true 7 0)) (thread 0 0) 7 = 0x10 := by decide
theorem test_misaligned_load : ((after (rvOp (.load .lw 7 5 0)) (slotS (thread (place 0x4002) 0))).slot 3).kcause = 4 := by decide

theorem witness_ScalarIntegers :
    (∃ rd v, integerResult (.alu .divw 31 5 0) (thread 1 2) = some (rd, v) ∧ Thread (slotS (thread 1 2)) 3 (rvOp (.alu .divw 31 5 0))) ∧
    Thread (slotS (thread 1 2)) 3 (rvOp (.jal 0 (-2))) ∧ Thread (slotS (thread 1 2)) 3 (rvOp (.jalr 0 5 (-1))) ∧
    (Thread (slotS (thread 1 2)) 3 (rvOp (.branch .bltu 5 6 (-4096))) ∧ Taken .bltu 1 2 ∧ ¬ Taken .bge 1 2) := by
  refine ⟨⟨_, _, rfl, ?_⟩, ?_, ?_, ?_, by unfold Taken; decide, by unfold Taken; decide⟩ <;> unfold Thread <;> decide

/-- The keeper of core 0. -/
def keeperS : State := { slotS (thread 1 2) with cur := Cur.mk (.slot 15) 0x1234 0 4, slots := [(3, thread 1 2), (15, thread 1 2)] }

theorem witness_ScalarFloatsAndCsrs :
    (∃ r, floatResult (.fma .madd true 7 1 2 3 4) (thread 1 2) = some r ∧ modeOf (thread 1 2) 7 = some 0 ∧
      Thread (slotS (thread 1 2)) 3 (rvOp (.fma .madd true 7 1 2 3 4))) ∧
    modeOf { thread 1 2 with fcsr := 0xA0 } 7 = none ∧
    (∃ r, floatToInt (.fcvtToInt .wu false 4 7 2) (thread 1 2) = some r ∧
      Thread (slotS (thread 1 2)) 3 (rvOp (.fcvtToInt .wu false 4 7 2)) ∧ modeOf (thread 1 2) 4 = some 5) ∧
    (∃ c, csrForm (.csr .rc 7 5 3) (thread 1 2) = some (.rc, 7, 3, 1, false) ∧ c = Thread (slotS (thread 1 2)) 3 (rvOp (.csr .rc 7 5 3)) ∧ c) ∧
    csrForm (.csrI .rs 7 0 0x5C0) (thread 1 2) = some (.rs, 7, 0x5C0, 0, true) ∧
    (Thread keeperS 15 (rvOp (.csr .rw 0 5 0x5DA)) ∧ keepersCsr 0x5DA ∧ ¬ keepersCsr 0x5CE) := by
  refine ⟨⟨_, rfl, by decide, ?_⟩, by decide, ⟨_, rfl, ?_, by decide⟩, ⟨_, by decide, rfl, ?_⟩, by decide, ?_,
    by unfold keepersCsr; decide, by unfold keepersCsr; decide⟩ <;> unfold Thread <;> decide

theorem test_csr_frm : xAfter (rvOp (.csrI .rw 7 3 2)) { thread 0 0 with fcsr := 0x41 } 7 = 2 := by decide
theorem test_kpend_clear : ((after (rvOp (.csr .rw 7 5 0x5C0)) { keeperS with cores := [(0, { kpend := 3 })] }).core 0).kpend = 2 := by
  decide

theorem witness_ScalarMemory :
    (∃ va n fills, loadForm (.fload false 7 5 0) (thread (place 0x4000) 0) = some (va, n, fills) ∧
      Thread (slotS (thread (place 0x4000) 0)) 3 (rvOp (.fload false 7 5 0)) ∧
      MayAccess (slotS (thread (place 0x4000) 0)) (thread (place 0x4000) 0) needRead va n true) ∧
    (∃ va n v, storeForm (.store .sd 5 6 (-8)) (thread (place 0x4000) 0) = some (va, n, v) ∧
      Thread (slotS (thread (place 0x4000) 0)) 3 (rvOp (.store .sd 5 6 (-8))) ∧
      MayAccess (slotS (thread (place 0x4000) 0)) (thread (place 0x4000) 0) needWrite va n true ∧
      ((slotS (thread (place 0x4000) 0)).pendingStores 3).length < 8) ∧
    (Thread (slotS (thread (place 0x4000) 0)) 3 (.amo .maxu true true true 7 5 6) ∧
      MayAccess (slotS (thread (place 0x4000) 0)) (thread (place 0x4000) 0) needAtomic (place 0x4000).toNat 8 true) ∧
    (∃ ps s1, (slotS (thread (place 0x4000) 0)).piecesOf (slotWho 3 (thread (place 0x4000) 0)) .atomic true (place 0x4000).toNat 8
        = (.ok ps, s1) ∧ s1.lrMemory ps = true ∧
      ((s1.setSlot 3 { thread 0 0 with resv := some (keyBlock 64 (keyLocal 1 0 0x4000)) }).slot 3).resv
        = some (keyBlock 64 ((ps.map fun p => p.key).headD 0))) := by
  refine ⟨⟨_, _, _, rfl, ?_, by unfold MayAccess; decide⟩, ⟨_, _, _, rfl, ?_, by unfold MayAccess; decide, by decide⟩,
    ⟨?_, by unfold MayAccess; decide⟩, ⟨_, _, rfl, by decide, by decide⟩⟩ <;> unfold Thread <;> decide

theorem witness_FencesCallsAndKeeperTraps :
    Thread (slotS (thread 1 2)) 3 (.fence 15 0 0) ∧ Thread (slotS (thread 1 2)) 3 .fenceI ∧ Thread (slotS (thread 1 2)) 3 .ecall ∧
    Thread (slotS (thread 1 2)) 3 .ebreak ∧ Thread (slotS (thread 1 2)) 3 .wfi ∧ (thread 1 2).events = 0 ∧
    ({ thread 1 2 with events := 1 } : Slot).events ≠ 0 ∧ 3 % 16 ≠ 15 ∧ 15 % 16 = 15 ∧
    (isScalar (rvOp (.fsqrt true 5 1 2)) = true ∧ (rvOp (.fsqrt true 5 1 2)).wellFormed = false) ∧
    (isKeepers (.xpoke 1 2) = true ∧ Thread (slotS (thread 1 2)) 3 (.xpoke 1 2)) := by
  unfold Thread; decide

theorem test_ecall : ((after .ecall (slotS (thread 1 2))).slot 3).kcause = 8 := by decide
theorem test_keeper_halts : ((after .ecall keeperS).slot 15).st = .halted := by decide

/-! ## Messages, records and deques of threads -/

/-- A handle of slot 5 of core 0, whose count is 9. -/
def handle5 : W64 := 0x0000000500000009
def other : Slot := { st := .ready, launch := some 1, handle := handle5 }
def msgS : State :=
  { slotS { thread 0 0 with sendQ := [{ target := handle5, launch := 1, payload := [1, 2, 3, 4] }] } with
    slots := [(3, { thread 0 0 with sendQ := [{ target := handle5, launch := 1, payload := [1, 2, 3, 4] }] }), (5, other)] }

theorem witness_Messages :
    (Thread (slotS (thread 1 handle5)) 3 (.xsend 5 6 7) ∧ SendOk (slotS (thread 1 handle5)) 1 handle5 false ∧
      (thread 1 handle5).sendQ.length < 4 ∧ ¬ SendOk (slotS (thread 1 handle5)) 1 0x0001000000000000 false) ∧
    4 ≤ ({ thread 0 0 with sendQ := List.replicate 4 {} } : Slot).sendQ.length ∧
    Thread (slotS (thread 0 0)) 3 (.xspawnm 5 6 7) ∧ Thread (slotS (thread 0 0)) 3 (.xrecv 31) ∧
    ({ thread 0 0 with inbox := [{}] } : Slot).inbox = {} :: [] ∧
    (Thread (slotS (thread 2 0)) 3 (.xwait 5 7) ∧ ({ thread 2 0 with events := 6 } : Slot).events &&& 2 ≠ 0) ∧
    Thread (slotS (thread 2 0)) 3 (.xevt 5 7) ∧
    ((msgS.slot 3).sendQ = { target := handle5, launch := 1, payload := [1, 2, 3, 4] } :: [] ∧ msgS.slotOfHandle 1 handle5 = 5 ∧
      other.launch = some 1 ∧ msgS.spills 5 other { target := handle5, launch := 1, payload := [1, 2, 3, 4] } = false) ∧
    (msgS.spills 5 { other with st := .trapped } { target := handle5 } = true ∧ (msgS.core 0).spillQ.length < 32) ∧
    (({ thread 0 0 with st := .waiting, wait := .event 4 31, events := 4 } : Slot).events &&& 4 ≠ 0) ∧
    ({ spillQ := [{}] } : Core).spillQ = {} :: [] := by
  unfold Thread SendOk; decide

theorem test_message_arrives : ((after (.messageDelivery 3) msgS).slot 5).events = 1 := by decide
theorem test_xwait_takes : xAfter (.xwait 5 7) { thread 2 0 with events := 6 } 7 = 2 := by decide
theorem test_xrecv_word : xAfter (.xrecv 7) { thread 0 0 with inbox := [{ payload := [1, 2, 3, 4] }] } 12 = 0x200000001 := by decide

theorem witness_ThreadPosts :
    (Thread (slotS (thread 0 0x42)) 3 (.xpost 5 6 7) ∧ (0x42 : W64).toNat < 1024 ∧
      Tbl.find? ((slotS (thread 0 0x42)).launch 1).nodes ((0x42 : W64).extractLsb' 0 6).toNat = some nodeN ∧
      (slotS (thread 0 0x42)).acceptsNow 0 1 { node := 2 } = true ∧
      ({ slotS (thread 0 0x42) with launches := [(1, { workLaunch with lslots := 0 })] } : State).acceptsNow 0 1 { node := 2 } = false) ∧
    Thread (slotS (thread 0 0x42)) 3 (.xpostn 5 6 7) ∧ (Thread (slotS (thread 2 0)) 3 (.xmig 5) ∧ nodeN.mig = true) ∧
    Thread (slotS (thread 2 0)) 3 (.xnodeq 5 7) ∧ Tbl.find? workLaunch.nodes ((3 : W64).extractLsb' 0 6).toNat = none ∧
    (Thread (slotS (thread 3 0)) 3 (.xmig 5) ∧ (thread 64 1024).xreg 5 = 64 ∧ (thread 64 1024).xreg 6 = 1024) := by
  unfold Thread; decide

theorem test_xpost_bits : ((after (.xpost 5 6 7) (slotS (thread 0 1026))).slot 3).kcause = 2 := by decide
theorem test_xmig_retires : ((after (.xmig 5) (slotS (thread 2 0))).slot 3).st = .free := by decide

theorem test_xnodeq : xAfter (.xnodeq 5 7) (thread 2 0) 7 = 0x400000000 := by decide

def frameOne : Frame := Frame.mk (place 0x4000) 0 0 1
def dequeS : State := { slotS (thread 3 (place 0x4040)) with cores := [(0, { deques := [(2, [frameOne])] })] }
def rangeTwo : Range := { frame := frameOne, head := 2, body := place 0x2000, lo := 0, hi := 2, grain := 1, args := [0, 0, 0] }
def openS : State := { dequeS with slots := [(3, { opened := true })] }

/-- The thread runs the range, whose frame and the area at 0x4040 stand in the local store. -/
def splitS : State := { dequeS with slots := [(3, { thread 3 (place 0x4040) with range := some rangeTwo })] }

theorem witness_DequesAndTasks_split :
    let x := splitS.slot 3
    let cut : W64 := 0 + BitVec.ofNat 64 (rangeTwo.chunks / 2) * 1
    let shorten (u : State) := u.writeRange (Who.mk 0 1 pathLS none) 0 (some (swarmNo 0)) .write
      (rangeTwo.frame.ptr.toNat + 16) (toBytes 8 0 ++ toBytes 8 cut.toNat) true
    let t := splitS.drainStores 3
    let r := t.writeRange (slotWho 3 x) t.nextOp (some (swarmNo 0)) .write (place 0x4040).toNat { rangeTwo with lo := cut }.bytes true
    Thread splitS 3 (.xsplit 5 6 7) ∧ x.range = some rangeTwo ∧ gives (shorten splitS) = true ∧
      MayAccess splitS x needWrite (place 0x4040).toNat 64 true ∧ gives r = true ∧ gives (shorten r.2) = true := by
  unfold Thread MayAccess; decide +kernel

theorem test_xsplit_cuts : ((after (.xsplit 5 6 7) splitS).slot 3).range.map (·.hi) = some 1 := by decide +kernel

theorem witness_DequesAndTasks :
    (Thread dequeS 3 (.xspawn 5 6 7) ∧ (place 0x4040).toNat % 64 = 0 ∧ ((dequeS.core 0).deque 3).length < 32) ∧
    (Thread dequeS 3 (.xrange 5 6 7) ∧ MayAccess dequeS (thread 3 (place 0x4040)) needRead (place 0x4040).toNat 64 true) ∧
    (Thread dequeS 3 (.xpop 5 7) ∧ OnChip dequeS 0 ∧ Nearest dequeS 0 3 1 2 frameOne) ∧
    (Thread dequeS 3 (.xsplit 5 6 7) ∧ 2 ≤ rangeTwo.chunks ∧ (dequeS.core 0).ringSize 3 = 0 ∧
      ((dequeS.core 0).ringSize 3 ≤ (dequeS.core 0).ringCount 3)) ∧
    (Thread dequeS 3 (.xjoin 6 7) ∧ MayAccess dequeS (thread 3 (place 0x4040)) needRead (place 0x4040).toNat 8 true) ∧
    Thread dequeS 3 (.xsteal 7) ∧ Thread dequeS 3 (.xyield 5) ∧ Thread dequeS 3 (.xsdom 5 7) ∧
    (∀ g n, (openS.slot 3).wait ≠ .dispatch g n) ∧
    (openS.takesFrames 3 = true ∧ (openS.core 0).deque 2 = frameOne :: [] ∧ ∀ e, e < 2 → (openS.core 0).deque e = []) ∧
    (dequeS.takesFrames 3 = false ∧ (dequeS.cluster 0).nextSteal (dequeS.slot 3).stealCtx = some (0, 1)) ∧
    (∀ d, d < 4 → (({ openS with cores := [] } : State).core 0).deque d = []) := by
  refine ⟨by unfold Thread; decide, by unfold Thread MayAccess; decide, ⟨by unfold Thread; decide, ?_, ?_⟩, by unfold Thread; decide,
    by unfold Thread MayAccess; decide, by unfold Thread; decide, by unfold Thread; decide, by unfold Thread; decide, ?_, by decide,
    by decide, by decide⟩
  · intro d
    exact ⟨rfl, rfl⟩
  rotate_left
  · intro g n h
    exact absurd ((show (openS.slot 3).wait = .none from rfl).symm.trans h) (by simp)
  · unfold Nearest; decide

theorem test_xpop : xAfter (.xpop 5 7) (thread 3 0) 7 = 0 := by decide
theorem test_xpop_frame : ((after (.xpop 5 7) dequeS).slot 3).xreg 7 = place 0x4000 := by decide
/-- A THREAD frame at 0x4000 (word 0x84838281 there is rejected: KIND 0x81). -/
theorem test_dispatch_rejects : ((after (.frameDispatch 3) openS).slot 3).st = .trapped := by decide +kernel

/-! ## Thread memory and registers, the keeper -/

/-- A thread whose x5 points into the local store, where the word may be full. -/
def feThread : Slot := thread (place 0x4000) 7
def feS (full : Bool) : State := (slotS feThread).setFull (keyLocal 1 0 0x4000) full

theorem witness_ThreadMemory :
    (MayAccess (feS true) feThread needBoth (place 0x4000).toNat 8 true ∧ inWindows (place 0x4000).toNat = true ∧
      workLaunch.windowKey 1 (place 0x4000).toNat = some (keyLocal 1 0 0x4000) ∧
      Thread (feS true) 3 (.xldfe 5 0) ∧ (feS true).isFull (keyLocal 1 0 0x4000) = true ∧
      (let u := (feS true).drainMeeting 3 [Piece.mk (keyLocal 1 0 0x4000) (place 0x4000).toNat 8 false false none]
       u.isFull (keyLocal 1 0 0x4000) = true ∧ u.feAhead (keyLocal 1 0 0x4000) true none = false ∧
         u.isPoisoned (keyLocal 1 0 0x4000) = false ∧ (u.setPoison (keyLocal 1 0 0x4000) true).isPoisoned (keyLocal 1 0 0x4000) = true) ∧
      ((feS false).drainMeeting 3 [Piece.mk (keyLocal 1 0 0x4000) (place 0x4000).toNat 8 false false none]).isFull (keyLocal 1 0 0x4000)
        = false) ∧
    (Thread (feS false) 3 (.xstfe 6 5) ∧
      (let s0 := ((feS false).drainMeeting 3 [Piece.mk (keyLocal 1 0 0x4000) (place 0x4000).toNat 8 false false none]).drainStores 3
       s0.isFull (keyLocal 1 0 0x4000) = false ∧ s0.feAhead (keyLocal 1 0 0x4000) false none = false) ∧
      (((feS true).drainMeeting 3 [Piece.mk (keyLocal 1 0 0x4000) (place 0x4000).toNat 8 false false none]).drainStores 3).isFull
        (keyLocal 1 0 0x4000) = true) ∧
    (Thread (feS true) 3 (.xfeset 6 5) ∧ (1 : W64).toNat < 2 ∧ 2 ≤ (7 : W64).toNat) ∧
    (Thread (feS true) 3 (.xlda 2 3 5 7) ∧ MayAccess (feS true) feThread needRead (place 0x4000).toNat 8 true ∧
      (∃ ps s1, (feS true).scalarPieces 3 feThread .read true (place 0x4000).toNat 8 = (.ok ps, s1) ∧
        ∃ v s2, s1.readPast (slotWho 3 feThread) (swarmNo 0) (place 0x4000).toNat 8 true = (.value v, s2))) ∧
    (Thread (feS true) 3 (.xstr 6 5 2 3) ∧ MayAccess (feS true) feThread needWrite (place 0x4000).toNat 8 true ∧
      ∃ v s1, ((feS true).drainStores 3).writeRange (slotWho 3 feThread) ((feS true).drainStores 3).nextOp (some (swarmNo 0)) .write
        (place 0x4000).toNat (toBytes 8 (7 : W64).toNat) true = (.value v, s1)) ∧
    (Thread (feS true) 3 (.xstr 6 5 5 3) ∧ let s0 := ((feS true).drainStores 3).releaseHost 5
      MayAccess s0 feThread needWrite (place 0x4000).toNat 8 true ∧
      ∃ v s1, (s0.drainStores 3).writeRange (slotWho 3 feThread) (s0.drainStores 3).nextOp (some (swarmNo 0)) .write
        (place 0x4000).toNat (toBytes 8 (7 : W64).toNat) true = (.value v, s1)) := by
  refine ⟨by unfold MayAccess Thread; decide, by unfold Thread; decide, by unfold Thread; decide,
    ⟨by unfold Thread; decide, by unfold MayAccess; decide, _, _, rfl, gives_value (by decide)⟩,
    ⟨by unfold Thread; decide, by unfold MayAccess; decide, gives_value (by decide)⟩,
    ⟨by unfold Thread; decide, by unfold MayAccess; decide, gives_value (by decide)⟩⟩

theorem witness_ThreadMemory_maintenance :
    (Thread (feS true) 3 (.xdiscard 6 5) ∧ (7 : W64).toNat ≠ 0 ∧
      (∃ lod, checkSearch workLaunch 1 feThread.sg needWrite (place 0x4000).toNat 7 1 = (.ok, lod) ∧ ∃ v s1,
        ((feS true).drainStores 3).discardRange (slotWho 3 feThread) ((feS true).drainStores 3).nextOp (some (swarmNo 0)) lod
          (place 0x4000).toNat 7 = (.value v, s1))) ∧
    (Thread (feS true) 3 (.xcmaint 2 0 5) ∧ MayAccess (feS true) feThread needRead (place 0x4000).toNat 256 true ∧
      ∃ p s1, (feS true).place (slotWho 3 feThread) (place 0x4000).toNat 256 .read true = (.at_ p, s1)) ∧
    (Thread (feS true) 3 (.xfence 6 0 2) ∧ ((feS true).slot 3).sendQ = []) ∧ Thread (feS true) 3 (.xfence 2 6 2) ∧
    (Thread msgS 3 (.xfence 6 6 5) ∧ (msgS.slot 3).sendQ ≠ []) := by
  refine ⟨⟨by unfold Thread; decide, by decide, _, rfl, _, _, rfl⟩, ⟨by unfold Thread; decide, by unfold MayAccess; decide, _, _, rfl⟩,
    by unfold Thread; decide, by unfold Thread; decide, by unfold Thread; decide⟩

theorem test_xldfe_takes : ((after (.xldfe 5 7) (feS true)).slot 3).xreg 7 = 0x84838281 := by decide
theorem test_xldfe_empties : (after (.xldfe 5 7) (feS true)).isFull (keyLocal 1 0 0x4000) = false := by decide
theorem test_xldfe_waits : ((after (.xldfe 5 7) (feS false)).slot 3).st = .parked := by decide

/-- The control word that asks for 0x8000 bytes and one right. -/
def narrow : W64 := BitVec.ofNat 64 (2 ^ 59 + 0x8000)

theorem witness_ThreadRegisters :
    (Thread (slotS (thread (place 0) narrow)) 3 (.xsgnar 6 5 0) ∧ narrow.extractLsb' 57 2 = 0 ∧
      Narrows (Tbl.get (thread (place 0) narrow).sg 0 0) (place 0).toNat (narrow.extractLsb' 0 57).toNat (narrow.extractLsb' 59 5) ∧
      ¬ Narrows (Tbl.get (thread 0 0).sg 0 0) (place 0).toNat (place 0).toNat 1 ∧
      (0xFFFFFFFFFFFFFFFF : W64).extractLsb' 57 2 ≠ 0) ∧
    (Thread (slotS (thread 15 16)) 3 (.xsgrd 5 7) ∧ (15 : W64).toNat < 16 ∧ 16 ≤ (16 : W64).toNat) ∧
    (Thread (slotS (thread 0x00880 (place 0))) 3 (.xfmt 6 5) ∧ FmtOk 0x00880 ∧ SclpOk (place 0) ∧ ¬ FmtOk 0x0F000 ∧ ¬ SclpOk 8) ∧
    (Thread (slotS (thread 2 0)) 3 (.xenergy 5 7) ∧ (thread 2 0).xreg 5 = 2) ∧
    (Thread (slotS (thread 16 0)) 3 (.xsread 5 7) ∧ (16 : W64).toNat < 17) := by
  unfold Thread Narrows FmtOk SclpOk; decide

theorem test_xsread_caps : xAfter (.xsread 5 7) (thread 10 0) 7 = 0x00020F24 := by decide
theorem test_xsgrd_high : xAfter (.xsgrd 5 7) (thread 8 0) 7 = (segOf Config.plainBase 0x10000 31).extractLsb' 64 64 := by decide

/-- The keeper of core 0 with x5 and x6, and slot 3 under its ksel. -/
def keepS (a b : W64) (y : Slot) : State :=
  { slotS y with cur := Cur.mk (.slot 15) 0x1234 0 4, slots := [(3, y), (15, thread a b)], cores := [(0, { ksel := 3 })] }
def trapped3 : Slot := { thread 9 2 with st := .trapped, saved := some (0x100, 1), events := 3 }

theorem witness_KeeperSlots :
    Keeps (keepS 0 0 trapped3) 15 (.xtimer 5 7) 3 ∧ Keeps (keepS 0 0 trapped3) 15 (.xslotStop 5 7) 3 ∧
    (((keepS 0 0 trapped3).core 0).ksel ≠ 15 ∧ (5 : W64).toNat < 6 ∧ 6 ≤ (6 : W64).toNat) ∧
    ((thread 0 0).st = .ready ∧ (feThread.st ∉ [SlotSt.parked]) ∧
      ({ thread 0 0 with st := .parked, wait := .fe (.load 7) 0 0 0 } : Slot).st = .parked) ∧
    (trapped3.st = .trapped ∧ trapped3.saved = some (0x100, 1) ∧ trapped3.karea = 0) ∧
    itemOf trapped3 5 = some 9 ∧ itemOf trapped3 71 = none ∧ Keeps (keepS 5 0 trapped3) 15 (.xpeek 5 7) 3 ∧
    Keeps (keepS 5 0 trapped3) 15 (.xpoke 6 5) 3 ∧ Keeps (keepS 5 0 trapped3) 15 (.xsgset 6 5 7) 3 ∧
    (Keeps (keepS 0x1005 0 trapped3) 15 (.xtlbi 5 6) 3 ∧ (0x1005 : W64).toNat < 2 ^ 14) ∧
    (Keeps (keepS 5 0 trapped3) 15 (.xkret 7) 3) := by
  unfold Keeps Thread; decide

def kAfter (i : Instr) (s : State) (r : BitVec 5) : W64 := ((after i s).slot 15).xreg r
theorem test_xpeek : kAfter (.xpeek 5 7) (keepS 6 0 trapped3) 7 = 2 := by decide
theorem test_xslot_query : kAfter (.xslotQuery 5 7) (keepS 0 0 trapped3) 7 = 4 := by decide
theorem test_xkret_resumes : ((after (.xkret 7) (keepS 0 0 trapped3)).slot 3).st = .ready := by decide

/-- The keeper with an area in its local store, and the slot that it names free or trapped. -/
def areaS (part : W64) (y : Slot) : State :=
  let s := keepS part (place 0x4000) y
  { s with slots := [(3, y), (15, { thread part (place 0x4000) with sg := fetchSegs })] }
def free3 : Slot := { st := .free }
/-- The area of an UNBOUND context. -/
def areaU : State := (areaS 1 free3).writeKey (keyLocal 1 0 0x420C) 4 1

theorem witness_KeeperContexts :
    (Keeps (areaS 0 trapped3) 15 (.xctxSv 5 6 7) 3 ∧ (place 0x4000).toNat % 256 = 0 ∧
      checkSearch workLaunch 1 fetchSegs needWrite (place 0x4000).toNat 256 256 = (.ok, true) ∧
      ∃ v s1, ((areaS 0 trapped3).drainStores 15).writeRange (slotWho 15 ((areaS 0 trapped3).slot 15)) ((areaS 0 trapped3).drainStores 15).nextOp
        (some (swarmNo 0)) .write (place 0x4000).toNat trapped3.part0 true = (.value v, s1)) ∧
    (∃ v s1, (((areaS 1 trapped3).drainStores 3).drainStores 15).writeRange (slotWho 15 ((areaS 1 trapped3).slot 15))
        (((areaS 1 trapped3).drainStores 3).drainStores 15).nextOp
        (some (swarmNo 0)) .write (place 0x4000).toNat trapped3.area true = (.value v, s1)) ∧
    (checkSearch workLaunch 1 fetchSegs needRead (place 0x4000).toNat 0x310 256 = (.ok, true) ∧
      ∃ ps s1, areaU.scalarPieces 15 (areaU.slot 15) .read true (place 0x4000).toNat 0x310 = (.ok ps, s1) ∧
        (s1.readPast (slotWho 15 (areaU.slot 15)) (swarmNo 0) (place 0x4000).toNat 0x310 true).1
          = .value (2 ^ (8 * 0x20C) + 0x84838281) ∧
        (s1.core 0).ksel ≠ 15 ∧ (place 0x4000 &&& 0xFFFFFFFFFFFFFC00) ≠ 0 ∧
        gives (s1.readRange (Who.mk 0 1 pathLS none) ((place 0x4000).toNat + 0x310) 8 true) = true) ∧
    ((areaU.slot 3).st = .free ∧ (areaU.slot 3).reserved = false ∧
      areaNum (2 ^ (8 * 0x20C) + 0x84838281) 0x20C 4 % 2 = 1) ∧
    (({ trapped3 with timer := 5, st := .ready } : Slot).timer ≠ 0 ∧ (5 : W64).toNat ≤ (7 : W64).toNat) ∧
    (({ poisonQ := [5] } : Cluster).poisonQ = 5 :: [] ∧ ({ cloakReady := [5] } : Cluster).cloakReady = 5 :: []) ∧
    (({ slotS (thread 0 0) with slots := [(15, { st := .halted })] } : State).slot 15).st = .halted := by
  refine ⟨⟨by unfold Keeps Thread; decide, by decide, by decide, gives_value (by decide +kernel)⟩, gives_value (by decide +kernel), ⟨by decide, _, _, rfl, by decide +kernel⟩, by decide +kernel, by decide, by decide, by decide⟩

theorem test_xctx_saves : (after (.xctxSv 5 6 7) (areaS 0 trapped3)).readKey (keyLocal 1 0 0x4028) 8 = 9 := by decide +kernel
theorem test_wmpart_sum : ((after (.wmpartWrite 0 0xFFF) teamS).cluster 0).wmpart = 0x249 := by decide

/-! ## Memory tables -/

/-- Context 1 of partition 0 with its tables in HBM: 0x10000 is a page of HBM at 0x60000, 0x20000 a lodged page that allows a late
frame, 0x30000 is not present. The fault ring of 16 records stands at 0x70000; the stack of late frames at 0x80000. -/
def partZero : Part :=
  { ctxbase := 0x10000, ctxlo := 0, ctxhi := 3, hbmLo := 0, hbmHi := 0x100000, tdisp := .run, lfbase := 0x80000, lfctl := 4, lfwr := 1, ways := [(0, 16)] }
def mapped : State :=
  let ws := [(0x10040, 0x20001), (0x10048, 0x70000), (0x10050, 4), (0x20000, 0x30001), (0x30000, 0x40001), (0x40000, 0x50001),
    (0x50008, 0x600E2), (0x50010, 0x80E6), (0x80000, 0x90000)]
  ws.foldl (fun s w => s.writeKey (keyHbm w.1) 8 w.2) { enabled := [0], parts := [(0, partZero)], clusters := [(0, {})] }

/-- A walk that comes to a leaf. -/
def leafy (r : Xlat × State) : Bool :=
  match r.1 with
  | .ok _ => true
  | _ => false

theorem leafy_ok {r : Xlat × State} (h : leafy r = true) : ∃ l s1, r = (.ok l, s1) := by
  obtain ⟨d, s⟩ := r
  cases d with
  | ok l => exact ⟨l, s, rfl⟩
  | _ => cases h

theorem not_leafy {r : Xlat × State} (h : leafy r = false) : ∀ l, r.1 ≠ .ok l := by
  intro l h1
  obtain ⟨d, s⟩ := r
  subst h1
  cases h

/-! ## Queues, launches, parked teams -/

/-- Queue 0 with one record in its ring at 0x10000 of context 1. -/
def queueOne : Queue := { base := 0x10000, en := true, log2n := 2, ctx := 1, wr := 1, peerOk := true }
def queueS : State := (mapped.setQueue 0 queueOne).writeKey (keyHbm 0x60000) 4 1
def fresh1 (s : State) : State := s.setLaunch s.nextLaunch { st := .waiting, ctx := 1, part := 0 }

theorem witness_QueueRegisters :
    queueOne.part = 0 ∧ InReach queueOne ∧ ¬ InReach { queueOne with wr := 5 } ∧ queueOne.st ≠ 2 ∧ queueOne.en = true ∧ ({} : Queue).en = false ∧
    ({ st := 2, err := 3 } : Queue).st = 2 ∧ (2 : Nat) ≠ 0 ∧
    Asks queueS 0 ∧ ({ stopped := true } : Part).stopped = true ∧
    ({} : Part).tdisp = .unlocked ∧ partZero.tdisp ≠ .unlocked ∧ (0 : Nat) < 64 := by
  unfold InReach Asks; decide

theorem test_doorbell_too_far : ((after (.queueDoorbell ⟨0, 0⟩ 5) queueS).queue 0).err = 1 := by decide
theorem test_queue_register_kept : ((after (.registerWrite .queue 0 0 5) queueS).queue 0).base = 0x10000 := by decide

theorem witness_LaunchConsumption :
    (MayConsume queueS queueOne ∧ ¬ MayConsume queueS { queueOne with rd := 1 }) ∧
    gives ((fresh1 queueS).readRange ((fresh1 queueS).deviceWho 0) 0x10000 256 true) = true ∧
    (∃ s1, (queueS.setLaunch 0 { st := .waiting, ctx := 2, part := 0 }).readRange
      ((queueS.setLaunch 0 { st := .waiting, ctx := 2, part := 0 }).deviceWho 0) 0x10000 256 true = (.fail, s1)) ∧
    (queueOne.peerOk = true ∧ (queueOne.wr - queueOne.rd).toNat < 2 ^ queueOne.log2n ∧
      2 ^ queueOne.log2n ≤ ((4 : W32) - 0).toNat ∧
      gives ((fresh1 queueS).writeRange ((fresh1 queueS).deviceWho 0) queueS.nextOp none .write 0x10100 (List.replicate 256 0) true) = true) := by
  refine ⟨⟨⟨by decide, by decide, by decide, by decide, by decide, by decide, by decide, fun c h => ?_⟩,
      fun h => absurd h.2.2.1 (by decide)⟩, by decide +kernel, ⟨_, fst_of (by decide +kernel)⟩, by decide, by decide, by decide,
    by decide +kernel⟩
  exact absurd h (by rw [show queueS.checkpoint = none from rfl]; exact fun h => nomatch h)

/-- A launch of one node that waits at the head of queue 0, and a machine in which it fits. -/
def waitingLaunch : Launch := { st := .waiting, ctx := 1, gridW := 1, gridH := 1, gridD := 1, segt := 0x10000, sentry := 1, threads := 1 }
def placing : State := (mapped.setQueue 0 { queueOne with head := some 1 }).setLaunch 1 waitingLaunch
def atEnd : State := mapped.setLaunch 1 { waitingLaunch with st := .resident, grid := [0] }
def closing : State := mapped.setLaunch 1 { waitingLaunch with st := .closing }

theorem witness_LaunchLife :
    ((placing.heads (List.range 64)).2.nextHead (placing.heads (List.range 64)).1 = some (0, 1) ∧
      (placing.heads (List.range 64)).2.gridFits waitingLaunch (max waitingLaunch.prio queueOne.prio) [0] = true ∧
      ((placing.heads (List.range 64)).2.readOpen (Who.mk 0 1 pathLS none) 0x10000 256).1.isSome = true) ∧
    (mapped.nextHead (mapped.heads (List.range 64)).1 = none) ∧
    ((atEnd.launch 1).st = .resident ∧ (Tbl.find? atEnd.launches 1).isSome = true ∧ atEnd.hasParty 1 = false ∧ atEnd.hasHeld 1 = false ∧
      (({ atEnd with veils := [] } : State).writeDone 1 (atEnd.launch 1).word).1 = true) ∧
    (placing.launch 1).st ≠ .resident ∧
    ((closing.launch 1).st = .closing ∧ (closing.writeDone 1 (BitVec.ofNat 64 (2 ^ 63 + 2 ^ 61 + 0xFFFC))).1 = true) ∧
    gives ((atEnd.setLaunch 1 { waitingLaunch with done := 0x10000 }).writeRange (atEnd.deviceWho 1) 0 none .write 0x10000 (toBytes 8 1) true)
      = true := by
  decide +kernel

theorem test_done_word : ({ drops := 2, kteams := 3, code := 0xFFFD } : Launch).word = 0xA000000200 * 2 ^ 24 + 0x3FFFD := by decide

/-- A parked team of 4 registers, whose park area stands in the local store: one frame of 0x800 bytes. -/
def parkLaunch : Launch := { fetchLaunch with park := place 0x4000, spill := place 0xC000, spsz := 0x800 }
def parkedTeam (w : TeamWait) : Team := { lanesTwo with n := 4, st := .parked, wait := w, sg := fetchSegs }
def parkS (t : Team) : State :=
  { withCode (withTeam t) [(0x4000, 0x800), (0x4004, 1)] with launches := [(1, parkLaunch)] }
def onWord : Team := parkedTeam (.tpark (place 0x3000) 8)

theorem witness_ParkAndRestore :
    ({ inClause with st := .retiring } : Team).st ∈ [TeamSt.admitting, .parkedOff, .retiring, .retired] ∧
    (inClause.st ∉ [TeamSt.admitting, .parkedOff, .retiring, .retired] ∧
      (atHeader.st = .ready ∧ atHeader.clause = none ∧ atHeader.rep = none)) ∧
    (onWord.st = .parked ∧ onWord.frame = 0 ∧ onWord.engineWait = none ∧ onWord.claimed = 0 ∧ onWord.roomless = false ∧
      onWord.drained = true ∧ parkLaunch.windowKey 1 (place 0x3000).toNat = some (keyLocal 1 0 0x3000) ∧
      (((parkS onWord).setFull (keyLocal 1 0 0x3000) true).isFull (keyLocal 1 0 0x3000) = true) ∧
      ((parkS onWord).isPoisoned (keyLocal 1 0 0x3000) = false) ∧ (parkS onWord).parkKey onWord = some (keyLocal 1 0 0x3000) ∧
      (parkS onWord).isFull (keyLocal 1 0 0x3000) = false) ∧
    ((parkedTeam .preempt).drained = true ∧
      ((parkS (parkedTeam .preempt)).part 0).stopped = false) ∧
    ((parkS { parkedTeam .preempt with st := .parkedOff }).nextAdmit 0).map (·.1) ≠ some 0 ∧
    ((parkS onWord).parkWordFull onWord = false ∧ ¬ (onWord.st = .parked ∧ onWord.frame ≠ 0)) := by
  decide

/-- The stages of a park-off of a pre-empted team: the header of the park area, the stacks, the claim of the one frame. -/
def pre : Team := parkedTeam .preempt
def park1 : Done × State := (parkS pre).readRange (pre.who pathLS) (place 0x4000).toNat 8 true
def park2 : Done × State := park1.2.writeParts (pre.who pathLS) (park1.2.l1Of pre) (park1.2.spillBase pre 1) (pre.stackParts 0x800)
def park3 : Done × State := park2.2.parkFrame pre (pre.who pathLS) ((parkS pre).l1Of pre) (place 0x4100).toNat 0x800 1
def restoring (st : Nat) : State :=
  withCode (parkS { pre with frame := place 0x4100 }) [(0x4000, 0x800), (0x4004, 1), (0x4100, st)]

theorem witness_ParkAndRestore_frame :
    park1.1 = .value (2 ^ 32 + 0x800) ∧ gives park2 = true ∧
    park3.1 = .value (place 0x4100).toNat ∧
    gives (park2.2.rmwRange (pre.who pathLS) 0 (some ((parkS pre).l1Of pre)) ((place 0x4100).toNat + 0 * 0x800) 4
      (fun o => if o = 0 then some 2 else none) true) = true := by
  decide +kernel

theorem witness_ParkAndRestore_restore :
    ((restoring 0).readRange (pre.who pathLS) (place 0x4100).toNat 4 true).1 = .value 0 ∧
    ((restoring 1).readRange (pre.who pathLS) (place 0x4100).toNat 4 true).1 = .value 1 ∧
    gives ((restoring 1).writeParts (pre.who pathLS) ((restoring 1).l1Of pre) (place 0x4100).toNat [(0, toBytes 4 2)]) = true := by
  decide +kernel

/-- The stages of the rest of a restore from a claimed frame whose pc is PC: one entry of each stack comes back. -/
def halfBack : Team := { pre with frame := place 0x4100, restoring := true, divSpilled := 1, callSpilled := 1 }
def backS1 (pc : Nat) : State :=
  let s : State := { withCode (withTeam halfBack) ([(0x4000, 0x800), (0x4004, 1)] ++ headers) with launches := [(1, parkLaunch)] }
  (s.writeParts (pre.who pathLS) (s.l1Of halfBack) (place 0x4100).toNat ({ halfBack with pc := place pc }.frameParts 0 0)).2.writeKey
    (keyLocal 1 0 0x4100) 4 2
def back2 (pc : Nat) : Done × State :=
  let s := ((backS1 pc).readRange (pre.who pathLS) ((place 0x4000).toNat + 4) 4 true).2
  (s.invalidate (s.l1Of halfBack)).readParts (pre.who pathLS) (place 0x4100).toNat halfBack.frameRanges
def frameOf1 (r : Done × State) : Team := match r.1 with
  | .value v => halfBack.restored v
  | _ => halfBack
def back3 (pc : Nat) : Done × State :=
  let r := frameOf1 (back2 pc)
  (back2 pc).2.readParts (pre.who pathLS) ((back2 pc).2.spillBase halfBack 1)
    ((List.range (min 16 r.divSpilled)).map fun i => (r.divAt 0 (r.divSpilled - 1 - i), 8 + 4 * r.words))
def back4 (pc : Nat) : Done × State :=
  let r := frameOf1 (back2 pc)
  (back3 pc).2.readParts (pre.who pathLS) ((back2 pc).2.spillBase halfBack 1)
    ((List.range (min 16 r.callSpilled)).map fun i => (callAt 0 0x800 (r.callSpilled - 1 - i), 16))

theorem witness_ParkAndRestore_rest :
    (∀ pc ∈ [0x2104, 0x2004], ((backS1 pc).readRange (pre.who pathLS) ((place 0x4000).toNat + 4) 4 true).1 = .value 1 ∧
      gives (back2 pc) = true ∧ gives (back3 pc) = true ∧ gives (back4 pc) = true ∧
      gives ((back4 pc).2.writeParts (pre.who pathLS) ((back4 pc).2.l1Of halfBack) (place 0x4100).toNat [(0, toBytes 4 0)]) = true) ∧
    (∀ c, (backS1 0).checkpoint = some c → 0 ∈ c.out) ∧ ((backS1 0).part 0).stopped = false := by
  refine ⟨by decide +kernel, fun c h => ?_, by decide +kernel⟩
  rw [show (backS1 0).checkpoint = none by decide +kernel] at h
  cases h

theorem test_restore_rest : ((after (.teamRestore 0 0) (backS1 0x2104)).team 0).st = .ready := by decide +kernel
theorem test_restore_no_header : ((after (.teamRestore 0 0) (backS1 0x2004)).team 0).killed = some 0xFFFF := by decide +kernel

theorem test_preempt_leaves : ((after (.preemptRequest 0) (teamC atHeader)).team 0).wait = .preempt := by decide
theorem test_tpark_word : ((after (.teamRestore 0 0) ((parkS onWord).setFull (keyLocal 1 0 0x3000) true)).team 0).st = .ready := by
  decide +kernel

/-- The smallest team: one lane, one register. Its frame holds 1 for its lanes, its registers and its mask, and 0 elsewhere. -/
def tiny : Team := { lanes := 1, n := 1, mask := 1 }
/-- Another team of that size. -/
def other1 : Team := { tiny with pc := 5, g := [(3, 7)], mask := 0 }
def tinyFrame (a : Nat) : Byte := if a = 0x10 ∨ a = 0x12 ∨ a = 0x380 then 1 else 0

theorem tiny_bytes : ((tiny.frameParts 0 0).all fun e => e.2 == (List.range e.2.length).map fun j => tinyFrame (e.1 + j)) = true := by
  decide +kernel

theorem witness_ParkFrameRoundTrip :
    lanesTwo.lanes ≠ tiny.lanes ∧ other1.lanes = tiny.lanes ∧ other1.n = tiny.n ∧ other1 ≠ tiny ∧
    FrameIn tinyFrame tiny 0 0 ∧ 1 ≤ tiny.lanes ∧ tiny.lanes ≤ 1024 ∧ 1 ≤ tiny.n ∧ tiny.n ≤ 128 ∧ tiny.mask < 2 ^ tiny.lanes ∧
      tiny.gp < 128 ∧ tiny.tmask < 2 ^ (32 * tiny.words) ∧ tiny.tcause &&& 0xFF000F00 = 0 ∧ tiny.tcls &&& 0xFFFF0000 = 0 ∧
      tiny.tret &&& 0xFFFFFFFE = 0 ∧
      ∀ r, r < 8 → (Tbl.get tiny.sg 0 r).getLsbD 121 = false ∧ (Tbl.get tiny.sgSaved 0 r).getLsbD 121 = false := by
  refine ⟨by decide, rfl, rfl, by decide, ?_, by decide, by decide, by decide, by decide, by decide, by decide, by decide, by decide, by decide, by decide,
    by decide⟩
  intro e he j b hb
  have h := eq_of_beq (List.all_eq_true.mp tiny_bytes e he)
  rw [h] at hb
  rw [List.getElem?_map, Option.map_eq_some_iff] at hb
  obtain ⟨i, hi, rfl⟩ := hb
  obtain ⟨_, rfl⟩ := List.getElem?_eq_some_iff.mp hi
  simp

/-! ## Translation, lodged pages, the host -/

/-- mapped with a thread that waits on a token, and one for a deferred 5 of a lodged page. -/
def waitsOn : Slot := { thread 0 0 with st := .parked, wait := .fault 7 13 0x20000 }
def tokenS : State :=
  { mapped with
    clusters := [(0, { replay := [Machine.Group.mk 1 2 1 7 1], tlb := [Leaf.mk 1 0 1 0x600E2 0x50008 []] })], slots := [(3, waitsOn)] }

theorem witness_WalksAndTokens :
    (((mapped.cluster 0).lookup 1 0x10000 = none) ∧
      (∃ l s1, mapped.walkMiss 0 0 1 0x10000 1 .write Acc.write.code true = (.ok l, s1)) ∧
      (∀ l, (mapped.walkMiss 0 0 1 0x30000 1 .read Acc.read.code true).1 ≠ .ok l) ∧
      ((tokenS.cluster 0).lookup 1 0x10000).isSome = true) ∧
    ((mapped.cluster 0).faultOut = [] ∧ mapped.contextEntry 0 1 = some 0x10040 ∧
      (mapped.readKey (keyHbm 0x1005C) 4 + 2 ^ 32 - mapped.readKey (keyHbm 0x10058) 4) % 2 ^ 32 ≠ 2 ^ mapped.readKey (keyHbm 0x10050) 4 ∧
      0x10040 + 64 ≤ mapped.readKey (keyHbm 0x10048) 8) ∧
    (let s := mapped.modCluster 0 fun c => { c with faultOut := [{ part := 0, ctx := 1, va := 0x30000, kind := 1, acc := 0, token := 9, info := 0 }] }
     (Tbl.find? s.clusters 0).isSome = true ∧ (s.cluster 0).part = 0 ∧ (s.cluster 0).faultOut = [{ part := 0, ctx := 1, va := 0x30000, kind := 1, acc := 0, token := 9, info := 0 }] ∧
       s.contextEntry 0 1 = some 0x10040 ∧
       (s.readKey (keyHbm 0x1005C) 4 + 2 ^ 32 - s.readKey (keyHbm 0x10058) 4) % 2 ^ 32 ≠ 2 ^ s.readKey (keyHbm 0x10050) 4 ∧
       0x10040 + 64 ≤ s.readKey (keyHbm 0x10048) 8) ∧
    (tokenS.recheck 0).evictToken 7 = false ∧
    (tokenS.recheck 0).groupOf 0 9 = none ∧ (tokenS.recheck 0).groupOf 0 7 = some (Machine.Group.mk 1 2 1 7 1) ∧
    (((tokenS.recheck 0).slot 3).wait = .fault 7 13 0x20000 ∧ 3 % 16 ≠ 15) ∧
    ((((tokenS.recheck 0).leafOf 0 1 0x20000).map fun l => leafType l.2.2) = some 1 ∧
      (((tokenS.recheck 0).leafOf 0 1 0x10000).map fun l => leafType l.2.2) = some 0 ∧
      ((tokenS.recheck 0).takeLateFrame 0).isSome = true ∧ pageState (tokenS.recheck 0) 1 0 0x20000 = .normal) ∧
    (((tokenS.recheck 0).part 0).hasCtx 1 = true ∧ ((tokenS.recheck 0).part 0).hasCtx 9 = false) ∧
    ((0x8000000000001001 : W64).getLsbD 63 = true ∧ partZero.busy = false ∧ ((0x8000000000001001 : W64).extractLsb' 12 2).toNat ≠ 3) := by
  refine ⟨⟨by decide, leafy_ok (by decide +kernel), not_leafy (by decide +kernel), by decide⟩, by decide +kernel, by decide +kernel, by decide +kernel, by decide +kernel,
    by decide +kernel, by decide +kernel, by decide +kernel, by decide +kernel, by decide⟩

theorem test_walk_sets_bits : (after (.translationWalk 0 1 0x10000 true false) mapped).readKey (keyHbm 0x50008) 8 = 0x602E2 := by
  decide +kernel
theorem test_retry_wakes : ((after (.twakeRetry 0 7) tokenS).slot 3).st = .ready := by decide +kernel
theorem test_shootdown : ((after (.tinvcShootdown 0 0x8000000000001001) tokenS).cluster 0).tlb = [] := by decide +kernel

/-- The stack of the page's home drains, the partition has no way of the L2 left there, and one line of the page is allocated and charged to nobody. -/
def leavingS : State :=
  { mapped with
    hbmStacks := [(0, 1)], lines := [(keyLodged 1 0x20000, Line.mk 0 none)]
    parts := [(0, { partZero with hdrain := 1, hdie := 0, ways := [] })] }
def onTheWay (p : LPage) : State := { mapped with lpages := [(lodgedPage 1 0 0x20000, p)] }

theorem no_store (s : State) (h : s.ops = []) (ctx level va : Nat) : NoStoreTo s ctx level va ∧ NoStoreFrom s ctx level va := by
  refine ⟨fun k _ e he => ?_, fun e he => ?_⟩ <;> (rw [h] at he; cases he)

theorem witness_LodgedPages :
    ((0x8000000000000001 : W64).getLsbD 63 = true ∧ partZero.hasCtx 1 = true ∧ mapped.leafOf 0 1 0x20000 = some (0, 0x50010, 0x80E6) ∧
      leafType 0x80E6 = 1 ∧ leafHome 0x80E6 = 0 ∧ leafHome 0x80E6 ≠ 1 ∧ (mapped.migration 0 1 0 0x20000 1).isSome = true ∧
      (leavingS.migration 0 1 0 0x20000 1) = none) ∧
    (mapped.ops = [] ∧ mapped.partOf 1 = some 0 ∧ mapped.pageOf 1 0x20000 = none ∧ mapped.leafOf 0 1 0x30000 = none) ∧
    (pageState mapped 1 0 0x20000 = .normal ∧ (0x80E6 : Nat).testBit 15 = true ∧ (leavingS.takeLateFrame 0).isSome = true ∧
      ({ leavingS with parts := [(0, { partZero with hdrain := 1, lfwr := 0 })] } : State).takeLateFrame 0 = none) ∧
    ((keyLodged 1 0x20000 ∈ Tbl.keys leavingS.lines) ∧ inPage 1 0 0x20000 (keyLodged 1 0x20000) = true ∧
      leavingS.mustLeave 0 0 (keyLodged 1 0x20000) = true ∧ mapped.mustLeave 0 0 (keyLodged 1 0x20000) = false) ∧
    ((onTheWay (.writeback 0x90000 0)).pageOf 1 0x20000 = some (0, .writeback 0x90000 0) ∧
      (onTheWay (.moving 0 1 0 none [])).pageOf 1 0x20000 = some (0, .moving 0 1 (leafHome 0x80E6) none []) ∧
      (onTheWay (.moving 0 1 2 (some 7) [])).pageOf 1 0x20000 = some (0, .moving 0 1 2 (some 7) []) ∧ leafHome 0x80E6 ≠ 2) ∧
    (0x80E6 / 2 ^ 16 % 2 ^ 40 = 0 ∧ 0x90000 % 0x10000 = 0 ∧ 0x90000 < 4 * Config.dieBytes) ∧
    (onTheWay (.evictwait 0 7 0)).pageOf 1 0x20000 = some (0, .evictwait 0 7 0) ∧
    ((onTheWay (.evictwait 0 7 0)).setPage 1 0 0x20000 .normal).evictToken 7 = false := by
  decide +kernel

theorem witness_LodgedPages_waits :
    OnlyWaits (onTheWay (.evictwait 0 7 0)) 7 none ∧ NoStoreTo (onTheWay (.evictwait 0 7 0)) 1 0 0x20000 ∧
    NoStoreFrom leavingS 1 0 0x20000 := by
  refine ⟨⟨fun id va tb h => ?_, fun id h => ?_, fun e he => ?_, fun k c va h => ?_, fun k f h => ?_⟩,
    (no_store _ (by decide +kernel) _ _ _).1, (no_store _ (by decide +kernel) _ _ _).2⟩
  · have g : (onTheWay (.evictwait 0 7 0)).teams = [] := by decide +kernel
    simp [State.team, g, Tbl.get, Tbl.find?] at h
  · have g : (onTheWay (.evictwait 0 7 0)).teams = [] := by decide +kernel
    simp [State.team, g, Tbl.get, Tbl.find?] at h
  · rw [show (onTheWay (.evictwait 0 7 0)).ops = [] by decide +kernel] at he
    cases he
  · have g : (onTheWay (.evictwait 0 7 0)).slots = [] := by decide +kernel
    simp [State.slot, g, Tbl.get, Tbl.find?, slotAtReset] at h
    split at h <;> cases h
  · have g : (onTheWay (.evictwait 0 7 0)).slots = [] := by decide +kernel
    simp [State.slot, g, Tbl.get, Tbl.find?, slotAtReset] at h
    split at h <;> cases h

theorem test_evict_takes_frame : pageState (after (.forcedEviction 1 0x20000) leavingS) 1 0 0x20000 = .writeback 0x90000 0 := by
  decide +kernel
theorem test_evict_needs_cause : after (.forcedEviction 1 0x20000) mapped = mapped := by decide +kernel
theorem test_late_leaf : lateLeaf 0x80E6 0x90000 = 0x900E2 := by decide

/-- A door of partition 0 to launch 1, which is resident on cluster 0. -/
def doorS : State :=
  { withCode { enabled := [0] } [] with
    parts := [(0, { partZero with doors := [(0, { en := true, ctx := 0, lnum := 0 })] })] }

/-- A launch whose head has been taken out of its queue, about to write its DONE word (R388). -/
def headOut : State :=
  (placing.setQueue (placing.launch 1).queue { placing.queue (placing.launch 1).queue with head := none }).setLaunch 1
    { placing.launch 1 with st := .closing }
/-- A write of two bytes that waits for the host. -/
def heldReq : HxReq := HxReq.mk 0 none (.range 0x100) .write [1, 2]

theorem witness_HostAndPeers :
    (({ attach := 1 } : Part).attach = 1 ∧ partZero.attach = 2 ∧ ({ attach := 0 } : Part).attach ≠ 2 ∧
      (partZero.stopped = false ∧ mapped.recovery = false) ∧ ({ stopped := true } : Part).stopped = true) ∧
    (30000000000 ≤ ({ mapped with time := 30000000000 } : State).time.toNat - 0) ∧
    ((∀ q, q < 64 → (mapped.queue q).part = 0 → (false, q, (mapped.queue q).gen) ∈ (List.range 64).map fun q => (false, q, 0)) ∧
      ∀ i, i < 8 → (true, i, (Tbl.get partZero.svcs {} i).gen) ∈ (List.range 8).map fun q => (true, q, 0)) ∧
    (mapped.hxHeld = [] ∧ (({ mapped with msixHeld := [(0, 3)] } : State).msixHeld.contains (0, 3)) = true ∧
      ({ mapped with hxHeld := [heldReq] } : State).hxHeld = [HxReq.mk 0 none (.range 0x100) .write [1, 2]] ∧
      partZero.hbmLo + 0x100 + 2 ≤ partZero.hbmHi ∧ mapped.stackOut (partZero.hbmLo + 0x100) = false ∧
      ∃ h ∈ ({ mapped with hxHeld := [heldReq] } : State).hxHeld, h.part = 0 ∧ h.peer = none) ∧
    ((doorS.doorKey 0 0 0x100 4).isSome = true ∧ doorS.doorKey 0 1 0x100 4 = none ∧
      0x10000000 ≤ 0x10000100 ∧ (doorS.doorKey 0 0 0x10000100 4).isSome = true) ∧
    (partZero.hbmLo + 0 + 4 ≤ partZero.hbmHi ∧ partZero.hbmHi < partZero.hbmLo + 0x100000 + 4 ∧ Tbl.get mapped.hbmStacks 0 0 < 2) ∧
    (doorS.lendable 0 1 = true ∧ (doorS.launch 1).st = .resident ∧ doorS.lendable 0 2 = false ∧ placing.lendable 0 1 = true ∧
      (placing.launch 1).st = .waiting ∧ (headOut.writeDone 1 ((placing.launch 1).endWord 0 0xFFFC)).1 = true) := by
  refine ⟨by decide, by decide, ⟨?_, by decide⟩, by decide +kernel, by decide +kernel, by decide, by decide +kernel⟩
  intro q hq _
  exact List.mem_map.mpr ⟨q, List.mem_range.mpr hq, rfl⟩

/-- An access of a PEER page in flight, to a peer of kind 1, and a copy from it. -/
def hostOp : State :=
  { (doorS.setPart 0 { partZero with peert := 0x70000, peern := 1 }).writeKey (keyHbm 0x70000) 1 1 with
    clusters := [(0, { ctx := [(0, 1)], tlb := [Leaf.mk 0 0 1 0x600EA 0 []] })], teams := [(0, lanesTwo)]
    ops := [(0, { party := .team 0, kind := .mem (.load 4 false) false 8 [{ unit0 with addr := 0x10000 }], todo := [0] }),
            (1, { party := .team 0, kind := .copy 0x10000 0x20000 256 1 0 0 false false none, todo := [0] })] }

theorem witness_HostAndPeers_lost :
    ((hostOp.op 0).party = .team 0 ∧ (hostOp.op 0).kind = .mem (.load 4 false) false 8 [{ unit0 with addr := 0x10000 }] ∧
      (hostOp.op 0).pending.contains 0 = true ∧ hostOp.onUalink (hostOp.team 0) 0x10000 = true) ∧
    ((hostOp.op 1).party = .team 0 ∧ (hostOp.op 1).kind = .copy 0x10000 0x20000 256 1 0 0 false false none ∧
      (copyPieces 0x10000 0x20000 256 1 0 0)[0]? = some (0x10000, 0x20000, 256) ∧ (hostOp.op 1).pending.contains 0 = true ∧
      hostOp.onUalink (hostOp.team 0) 0x20000 = false) := by
  decide +kernel

theorem test_door_reads_ones : (after (.hostDoorAccess 0 1 0 false [0, 0]) doorS).answers = [(0, [0xFF, 0xFF])] := by decide +kernel
theorem test_hdm_write : (after (.hostHdmAccess 0 0x100 true [7]) mapped).byte (keyHbm 0x100) = 7 := by decide +kernel

/-! ## Interfaces, power, errors -/

theorem witness_InterfacesAndSessions :
    (partZero.tdisp = .run ∧ ({} : Part).tdisp = .unlocked ∧ ({ tdisp := .locked } : Part).tdisp ≠ .unlocked) ∧
    (({ session := .established, beatPeriod := 5 } : Part).session = .established ∧
      0 + 2 * 5 ≤ ({ mapped with time := 10 } : State).time.toNat ∧ (9 : Nat) < 0 + 2 * 5) ∧
    (partZero.session = .none ∧ ({ session := .exchanged } : Part).session = .exchanged) ∧
    Tbl.find? mapped.clusters 0 ≠ none ∧
    ((queueS.queue 0).part = 0 ∧ (({ queueS with queues := [(0, { queueS.queue 0 with err := 3 })] } : State).queue 0).err = 3) ∧
    (keyKind (keyLocal 1 0 5) = 1 ∧ keyPlace (keyLocal 1 0 5) / 0x10000000 = 1 ∧
      keyPlace (keyLocal (keeperLaunch 2) 0 5) / 0x10000000 = keeperLaunch 2) ∧
    (partZero.hasCtx (keyPlace (keyLodged 1 0x20000) / 2 ^ 57) = true ∧ keyKind (keyLodged 1 0x20000) = 2) := by
  decide

theorem test_stop_errors_queue : ((after (.stopInterface 0) queueS).queue 0).err = 3 := by decide +kernel
theorem test_start_needs_lock : after (.startInterface 0) (mapped.setPart 0 {}) = mapped.setPart 0 {} := by decide +kernel

/-- Two launches on cluster 0, the first of which holds the grant. -/
def sharing : State :=
  { mapped with
    launches := [(1, { waitingLaunch with st := .resident, lsBytes := 0x10000 }), (2, { waitingLaunch with st := .resident, lsBytes := 0x30000 })]
    clusters := [(0, { ctx := [(0, 1), (1, 2)], grant := some 1 })] }

theorem witness_PowerAndEnergy :
    (mapped.power.pcap < 2401 ∧ mapped.power.raisedAt = 0 ∧ mapped.enabled.Nodup ∧ ¬ mapped.power.pcap < 2400) ∧
    (100 * 2279 < 95 * mapped.power.pcap ∧ mapped.power.loweredAt = 0 ∧ ¬ 100 * 2280 < 95 * mapped.power.pcap) ∧
    (({ reqAt := 7 } : Cluster).reqAt / 8 < 8 / 8 ∧ 7 / 8 ≤ ({ reqAt := 7 } : Cluster).reqAt / 8) ∧
    (({ reqThermal := 7, reqCap := 7 } : Cluster).reqThermal < 8) ∧ CauseIs { reqThermal := 7, reqCap := 7 } 3 ∧
    CauseIs { reqCap := 2, reqFw := 2 } 1 ∧ CauseIs {} 0 ∧
    (Tbl.find? atEnd.launches 1 = some (atEnd.launch 1) ∧ (atEnd.launch 1).st = .resident ∧
      Tbl.find? placing.launches 1 = some (placing.launch 1) ∧ (placing.launch 1).st ≠ .resident) ∧
    ((sharing.cluster 0).ctx = [(0, 1), (1, 2)] ∧ (sharing.launch 1).st = .resident ∧ (sharing.launch 2).st = .resident ∧
      0 < (sharing.launch 1).lsBytes + (sharing.launch 2).lsBytes ∧ (sharing.cluster 0).grant = some 1 ∧
      (mapped.cluster 0).grant = none ∧ (mapped.cluster 0).ctx = []) := by
  refine ⟨by decide, by decide, by decide, by decide, by simp [CauseIs], by simp [CauseIs], by simp [CauseIs], by decide +kernel,
    by decide +kernel⟩

theorem test_thermal_step :
    ((after (.throttleStepChange 0) { mapped with clusters := [(0, { reqThermal := 7, reqCap := 3, clockBase := 8 })] }).cluster 0).mthr
      = 0x00010C07 := by decide +kernel
theorem test_clamp_halves : ((after (.clockClamp 2401) mapped).cluster 0).mhz = 1500 := by decide +kernel

/-- A cluster with a spare, a stack that drains, a checkpoint with nothing at work and with a team that runs, and a package that
fails at bring-up. -/
def spared : State := { teamS with spares := [36] }
def draining : State := { mapped with hbmStacks := [(0, 1)], parts := [(0, { partZero with hdrain := 1 })] }
def resting : State := { mapped with checkpoint := some { out := [] } }
def busy : State := { teamS with checkpoint := some { out := [] } }
def halfUp : State := { mapped with bringUp := { slots := [0, 1], clusters := [3] } }

theorem witness_ErrorsAndBringUp :
    (keyKind (keyHbm 5) = 0 ∧ keyKind (keyLocal 1 0 5) = 1 ∧ keyKind (6 * 2 ^ 80) < 8) ∧
    ((thread 0 0).st ∉ [SlotSt.free, .trapped] ∧ lanesTwo.st ∉ [TeamSt.retiring, .retired] ∧ Tbl.find? teamS.teams 0 = some lanesTwo) ∧
    ((spared.dropUnreadable 0).team 0 = lanesTwo ∧ (Tbl.find? (spared.dropUnreadable 0).teams 0).isSome = true ∧ (spared.team 0).cl = 0 ∧
      (7 : Nat) / 256 = 0 ∧ (7 : Nat) % 16 ≠ 15) ∧
    (mapped.recovery = false ∧ ({ mapped with recovery := true } : State).recovery = true ∧ (0 : Nat) ∉ mapped.deadLinks ∧ mapped.bringUp = {}) ∧
    (Tbl.get draining.hbmStacks 0 0 = 1 ∧ (draining.part 0).stackNo = 0 ∧
      (draining.setPart 0 { draining.part 0 with hdone := true }).eviction 0 = false ∧ Tbl.get ({ mapped with hbmStacks := [(0, 3)] } : State).hbmStacks 0 0 = 3) ∧
    (0 ∈ mapped.enabled ∧ 36 ∈ ({ mapped with spares := [36] } : State).spares ∧ 36 / 64 = 0 / 64 ∧ 36 ∉ mapped.enabled ∧ 5 ∉ mapped.enabled) ∧
    ((0x2000000000000000 : W64).getLsbD 61 = true ∧ ({ hdrain := 1 } : Part).hdrain = 1 ∧ Tbl.rising mapped.parts = true) ∧
    ((1 : Nat) ≠ 2 ∧ ({ hdrain := 1, hddl := 4 } : Part).hddl.toNat < 5) ∧
    (({} : Steward).counter ≤ 0 ∧ ({ healthy := false } : Steward).since + 10000000000 ≤ 10000000000) ∧
    (mapped.checkpoint = none ∧ resting.quiesce.quiet = true ∧ busy.quiesce.quiet = false) ∧
    (resting.portsUp = true ∧ ({ resting with deadLinks := (List.range 8).map portLink } : State).portsUp = false ∧
      (⟨[], true⟩ : Checkpoint).streaming = true) ∧
    (0 < Variant.x4.dies ∧ 0 ∈ halfUp.bringUp.slots ∧ 1 ∈ halfUp.bringUp.slots ∧ (Tbl.get halfUp.stewards {} 0).active < 2 ∧
      3 ∈ halfUp.bringUp.clusters ∧ Tbl.find? ({ mapped with stewards := [(0, {})] } : State).stewards 0 ≠ none) := by
  decide +kernel

theorem test_patrol_poisons : (after (.patrolScrub ⟨0, .storage (keyHbm 0x100)⟩ true) mapped).isPoisoned (keyHbm 0x11F) = true := by decide +kernel
theorem test_retire_moves : (after (.clusterRetire 0 ⟨36, [], []⟩) { mapped with spares := [36] }).enabled = [36] := by decide +kernel

/-! ## Steps, the decoder, reset -/

/-- The machine after reset with the word of a team or a thread in front of its next step (log 2). -/
def placedTeam : State := State.reset.withFetchWord 32 0x00080814
def placedThread : State := State.reset.withFetchWord 32 0x04B5000B
def popped (s : State) : State := { s with agenda := [] }
def atTeam : State := { popped placedTeam with cur := { party := .team 0 } }

theorem witness_StepRunsDecoded_team :
    Comes placedTeam (.engine 0 0) (popped placedTeam) ∧ (popped placedTeam).issues 0 = true ∧
    (popped placedTeam).selectTeam 0 0 [] = some (0, atTeam.team 0) ∧ (atTeam.team 0).atBoundary = false ∧
    (∃ s1, TeamWords atTeam 0 0x00080814 0 s1 ∧ (s1.team 0).rep = none) ∧ (atTeam.team 0).clause ≠ none ∧
    decodeTeam 0x00080814 0 = .ok (.iadd false 8 4 5 0) := by
  refine ⟨⟨[], by decide +kernel, rfl⟩, by decide +kernel, by decide +kernel, by decide +kernel,
    ⟨_, ⟨0x00080814, _, ⟨true, by decide +kernel, value_of (by decide +kernel)⟩, rfl, Or.inl ⟨by decide, rfl, rfl⟩⟩, by decide +kernel⟩,
    by decide +kernel, by rfl⟩

theorem fetches_of {s : State} {n : Nat} {sg : Tbl W128} {w : Who} {cache va len align v : Nat}
    (h : (checkSearch (s.launch n) n sg needExec va len align == (.ok, true) && (s.fetchRange w cache va len true).1 == .value v) = true) :
    Fetches s n sg w cache va len align v (s.fetchRange w cache va len true).2 :=
  ⟨true, eq_of_beq (Bool.and_eq_true _ _ ▸ h).1, value_of (eq_of_beq (Bool.and_eq_true _ _ ▸ h).2)⟩

/-- The machine after the two low bytes of the word are read. -/
def halfRead : State := ((popped placedThread).fetchRange (slotWho 15 ((popped placedThread).slot 15)) (swarmCodeNo 0)
  ((popped placedThread).slot 15).pc.toNat 2 true).2

theorem witness_StepRunsDecoded_thread :
    Comes placedThread (.core 0 0) (popped placedThread) ∧ (popped placedThread).issues 0 = true ∧
    ((popped placedThread).part ((popped placedThread).cluster 0).part).stopped = false ∧
    (popped placedThread).pickSlot 0 0 [] = some 15 ∧ ((popped placedThread).slot 15).stop = none ∧
    (∃ s1, SlotWords (popped placedThread) 15 0x04B5000B 4 s1) ∧ decodeScalar 0x04B5000B = .ok (.xsend 11 10 0) := by
  refine ⟨⟨[], by decide +kernel, rfl⟩, by decide +kernel, by decide +kernel, by decide +kernel, by decide +kernel,
    ⟨_, by decide +kernel, 0x000B, halfRead, value_of (by decide +kernel),
      Or.inr ⟨rfl, by decide, fetches_of (by decide +kernel)⟩⟩, by rfl⟩

theorem witness_StepRunsDecoded_event :
    Comes { teamS with agenda := [.event (.launchEnd 1)] } (.event (.launchEnd 1)) teamS ∧
    teamS.cur.party = .team 0 ∧ Tbl.find? teamS.teams 0 ≠ none ∧ ∀ t, State.reset.cur.party ≠ .team t := by
  refine ⟨⟨[], rfl, rfl⟩, by decide, by decide, ?_⟩
  intro t h
  cases h

/-- With 1 and 2 in its source registers, the first step after reset adds them. -/
theorem test_step_adds :
    (match step { placedTeam with teams := [(0, ((placedTeam.team 0).setVs 0 4 1 1).setVs 0 5 1 2)] } with
      | .next s => (s.team 0).vreg 0 8
      | _ => 0) = 3 := by decide +kernel

theorem witness_IssueOrder :
    (keeperS.slotReady 3 = true ∧ keeperS.pickSlot 0 0 [] = some 3) ∧ (teamS.selectTeam 0 0 []).isSome = true ∧ (teamS.selectTeam 0 0 [0]).isNone = true ∧
    ({ teamS with clusters := [(0, { clockBase := 5000 })] } : State).clock 0 = 5000 := by
  decide

theorem witness_TeamDecodeEncode :
    isTeam (.fma false 0 1 2 3 4 (Guard.mk 2 true)) = true ∧
    (Instr.fma false 0 1 2 3 4 (Guard.mk 2 true)).wellFormed = true ∧ isTeam (.hdr 0xFFF 15 15 63 1) = true ∧
    (Instr.hdr 0xFFF 15 15 63 1).wellFormed = true := by
  decide

theorem witness_ScalarDecodeEncode :
    isScalar (.xslotVacate 5 31) = true ∧ (Instr.xslotVacate 5 31).wellFormed = true ∧
    isScalar (.riscvBaseOp (.branch .bgeu 31 0 (-4096))) = true ∧ (Instr.riscvBaseOp (.branch .bgeu 31 0 (-4096))).wellFormed = true := by
  decide

theorem witness_MemoryCanonical : State.reset.tablesWf = true ∧ ∃ s, step State.reset = .next s := ⟨by decide, _, rfl⟩

theorem test_reset_byte : State.reset.byte 5 = 0 := by decide
theorem test_reset_step : (match step State.reset with | .next s => s.time | _ => 0) = 1 := by decide +kernel
theorem test_write_removes : ((mapped.writeKey 0 1 5).writeKey 0 1 0).mem = mapped.mem := by decide +kernel

end Sys2Proof.Tests
end

section
/-! PROOFS. Every step keeps the canonical form of the tables of memory, full/empty bits and poison bits (O59). The tables are
written in few places; everything else passes them on. Each function that a step can come to has one lemma under its own name,
State.Wf.f for State.f (OptionWf.f, ExceptWf.f, OutcomeWf.f by the kind of its answer): it keeps the canonical form. The proof
follows the branches of the function, and a term such as .setTeam (.free h) the order in which it changes the state. -/
end

section
namespace Sys2Proof.Machine

/-- The tables of memory, full/empty bits and poison bits of a state are in canonical form. -/
def State.Wf (s : State) : Prop := s.tablesWf = true

theorem State.wf_iff (s : State) :
    s.Wf ↔ Memory.wf s.mem = true ∧ Tbl.wf s.fe false = true ∧ Tbl.wf s.poison false = true := by
  simp [State.Wf, State.tablesWf, and_assoc]

/-- The state of an answer, where it has one, is in canonical form. -/
inductive OptionWf : Option State → Prop
  | some {u : State} (h : u.Wf) : OptionWf (some u)
  | none : OptionWf none

/-- The same of an answer with a value, as a lookup or an allocation gives it. -/
inductive OptionSndWf {α : Type} : Option (α × State) → Prop
  | some {x : α} {u : State} (h : u.Wf) : OptionSndWf (some (x, u))
  | none : OptionSndWf none

/-- The same of an instruction's body: a trap carries no state. -/
inductive ExceptWf {ε : Type} : Except ε State → Prop
  | ok {u : State} (h : u.Wf) : ExceptWf (.ok u)
  | error {e : ε} : ExceptWf (.error e)

/-- The same of a step. -/
inductive OutcomeWf {φ ρ : Type} : Host.Outcome State φ ρ → Prop
  | next {u : State} (h : u.Wf) : OutcomeWf (.next u)
  | fault {r : φ} : OutcomeWf (.fault r)
  | refused {r : ρ} : OutcomeWf (.refused r)

/-- A fetch leaves tables in canonical form, whatever it answers. -/
inductive FetchWf : Except State (Nat × State) → Prop
  | ok {v : Nat} {u : State} (h : u.Wf) : FetchWf (.ok (v, u))
  | error {u : State} (h : u.Wf) : FetchWf (.error u)

/-- The state that an issue hands on is in canonical form. -/
inductive IssueWf : Issue → Prop
  | ended {u : State} (h : u.Wf) : IssueWf (.over u)
  | begun {u : State} {i : Instr} (h : u.Wf) : IssueWf (.run u i)

variable {s u : State} {α β ε φ ρ : Type}

namespace State.Wf

theorem of_tables (h : s.Wf) (hm : Memory.wf s.mem = true → Memory.wf u.mem = true)
    (hf : Tbl.wf s.fe false = true → Tbl.wf u.fe false = true)
    (hp : Tbl.wf s.poison false = true → Tbl.wf u.poison false = true) : u.Wf := by
  obtain ⟨h1, h2, h3⟩ := s.wf_iff.mp h
  exact u.wf_iff.mpr ⟨hm h1, hf h2, hp h3⟩

/-- A state with the tables of one in canonical form. -/
theorem upd (hm : s.mem = u.mem) (hf : s.fe = u.fe) (hp : s.poison = u.poison) (h : s.Wf) : u.Wf :=
  of_tables h (hm ▸ id) (hf ▸ id) (hp ▸ id)

theorem ite {c : Prop} [Decidable c] {a b : State} (ha : a.Wf) (hb : b.Wf) : (if c then a else b).Wf := by
  split <;> assumption

theorem iteSnd {c : Prop} [Decidable c] {a b : α × State} (ha : a.2.Wf) (hb : b.2.Wf) : (if c then a else b).2.Wf := by
  split <;> assumption

/-- The state that a pair was taken apart to. -/
theorem snd {p : α × State} {x : α} (e : p = (x, u)) (h : p.2.Wf) : u.Wf := by subst e; exact h

theorem thd {p : α × β × State} {x : α} {y : β} (e : p = (x, y, u)) (h : p.2.2.Wf) : u.Wf := by subst e; exact h

theorem some {o : Option State} (e : o = Option.some u) (h : OptionWf o) : u.Wf := by subst e; cases h; assumption

theorem sndSome {o : Option (α × State)} {x : α} (e : o = Option.some (x, u)) (h : OptionSndWf o) : u.Wf := by
  subst e; cases h; assumption

theorem ok {r : Except ε State} (e : r = Except.ok u) (h : ExceptWf r) : u.Wf := by subst e; cases h; assumption

theorem next {r : Host.Outcome State φ ρ} (e : r = .next u) (h : OutcomeWf r) : u.Wf := by subst e; cases h; assumption

theorem foldl {f : State → α → State} {l : List α} (h : s.Wf) (hf : ∀ s x, s.Wf → (f s x).Wf) : (l.foldl f s).Wf :=
  List.foldlRecOn l f h fun s hs x _ => hf s x hs

theorem getD {o : Option State} (ho : OptionWf o) (h : s.Wf) : (o.getD s).Wf := by
  cases ho with
  | none => exact h
  | some hu => exact hu

theorem elim {o : Option State} {f : State → State} (ho : OptionWf o) (h : s.Wf) (hf : ∀ u, u.Wf → (f u).Wf) :
    (o.elim s f).Wf := by
  cases ho with
  | none => exact h
  | some hu => exact hf _ hu

theorem fetched {r : Except State (Nat × State)} {v : Nat} (e : r = .ok (v, u)) (h : FetchWf r) : u.Wf := by
  subst e; cases h; assumption

theorem unfetched {r : Except State (Nat × State)} (e : r = .error u) (h : FetchWf r) : u.Wf := by
  subst e; cases h; assumption

theorem ended {x : Issue} (e : x = .over u) (h : IssueWf x) : u.Wf := by subst e; cases h; assumption

theorem begun {x : Issue} {i : Instr} (e : x = .run u i) (h : IssueWf x) : u.Wf := by subst e; cases h; assumption

end State.Wf

theorem IssueWf.ite {c : Prop} [Decidable c] {a b : Issue} (ha : IssueWf a) (hb : IssueWf b) :
    IssueWf (if c then a else b) := by
  split <;> assumption

theorem OptionWf.ite {c : Prop} [Decidable c] {a b : Option State} (ha : OptionWf a) (hb : OptionWf b) :
    OptionWf (if c then a else b) := by
  split <;> assumption

theorem OptionWf.map {f : α → State} (hf : ∀ x, (f x).Wf) {o : Option α} : OptionWf (o.map f) := by
  cases o with
  | none => exact .none
  | some x => exact .some (hf x)

theorem OptionWf.bind {f : α → Option State} (hf : ∀ x, OptionWf (f x)) {o : Option α} : OptionWf (o.bind f) := by
  cases o with
  | none => exact .none
  | some x => exact hf x

theorem OptionSndWf.ite {c : Prop} [Decidable c] {a b : Option (α × State)} (ha : OptionSndWf a) (hb : OptionSndWf b) :
    OptionSndWf (if c then a else b) := by
  split <;> assumption

theorem ExceptWf.ite {c : Prop} [Decidable c] {a b : Except ε State} (ha : ExceptWf a) (hb : ExceptWf b) :
    ExceptWf (if c then a else b) := by
  split <;> assumption

theorem ExceptWf.map {f : State → State} {r : Except ε State} (h : ExceptWf r) (hf : ∀ u, u.Wf → (f u).Wf) :
    ExceptWf (r.map f) := by
  cases h with
  | error => exact .error
  | ok hu => exact .ok (hf _ hu)

theorem OutcomeWf.ite {c : Prop} [Decidable c] {a b : Host.Outcome State φ ρ} (ha : OutcomeWf a) (hb : OutcomeWf b) :
    OutcomeWf (if c then a else b) := by
  split <;> assumption

end Sys2Proof.Machine
end

section
namespace Sys2Proof.Machine
/-- What a structural recursion keeps at every step holds of it. For functions whose equations are costly to derive. -/
theorem brecOn_list {α : Type} {motive : List α → Type} {F : (l : List α) → List.below (motive := motive) l → motive l}
    {P : (l : List α) → motive l → Prop} (nil : ∀ below, P [] (F [] below))
    (cons : ∀ x l below, P l below.1 → P (x :: l) (F (x :: l) below)) (l : List α) : P l (List.brecOn l F) := by
  induction l with
  | nil => exact nil _
  | cons x l ih => exact cons x l _ ih

/-- The same for a recursion over fuel. -/
theorem brecOn_nat {motive : Nat → Type} {F : (n : Nat) → Nat.below (motive := motive) n → motive n}
    {P : (n : Nat) → motive n → Prop} (zero : ∀ below, P 0 (F 0 below))
    (succ : ∀ n below, P n below.1 → P (n + 1) (F (n + 1) below)) (n : Nat) : P n (Nat.brecOn n F) := by
  induction n with
  | zero => exact zero _
  | succ n ih => exact succ n _ ih

namespace State.Wf
variable {s : State}

theorem setByte (h : s.Wf) {k : Nat} {b : Byte} : (s.setByte k b).Wf :=
  of_tables h (s.setByte_wf k b) id id

theorem setFull (h : s.Wf) {k : Nat} {b : Bool} : (s.setFull k b).Wf :=
  of_tables h id (s.setFull_wf k b) id

theorem setPoison (h : s.Wf) {k : Nat} {b : Bool} : (s.setPoison k b).Wf :=
  of_tables h id id (s.setPoison_wf k b)

end State.Wf
end Sys2Proof.Machine
end

section
/-! Canonical form: storage, translation and the accesses of a party. -/

namespace Sys2Proof.Machine

theorem State.Wf.writeBytes {s : State} {k : Nat} {l : List Byte} (h : s.Wf) :
    (s.writeBytes k l).Wf := by
  induction l generalizing s k with
  | nil =>
    rw [State.writeBytes]
    exact h
  | cons x l ih =>
    rw [State.writeBytes]
    exact ih (.setByte h)

theorem State.Wf.writeKey {s : State} {k n v : Nat} (h : s.Wf) :
    (s.writeKey k n v).Wf := .writeBytes h

theorem State.Wf.fill {s : State} {cache k : Nat} {c : Copy} (h : s.Wf) :
    (s.fill cache k c).Wf := h

theorem State.Wf.uncache {s : State} {cache : Nat} {drop : Nat → Bool} (h : s.Wf) :
    (s.uncache cache drop).Wf := h

theorem State.Wf.touch {s : State} {cache k : Nat} {b : Byte} (h : s.Wf) :
    (s.touch cache k b).Wf := h

theorem State.Wf.invalidate {s : State} {cache : Nat} (h : s.Wf) :
    (s.invalidate cache).Wf := h

theorem State.Wf.invalidateAll {s : State} {cache : Nat} (h : s.Wf) :
    (s.invalidateAll cache).Wf := h

theorem State.Wf.forgetCtx {s : State} {cache ctx : Nat} (h : s.Wf) :
    (s.forgetCtx cache ctx).Wf := h

theorem State.Wf.dropBlock {s : State} {n k : Nat} (h : s.Wf) :
    (s.dropBlock n k).Wf := h

theorem State.Wf.lift {s : State} {path : Nat} {want : Veil → Bool} (h : s.Wf) :
    (s.lift path want).Wf := h

theorem State.Wf.liftKeys {s : State} {path : Nat} {ks : List Nat} (h : s.Wf) :
    (s.liftKeys path ks).Wf := .lift h

theorem State.Wf.liftAll {s : State} {paths : List Nat} {want : Veil → Bool} (h : s.Wf) :
    (s.liftAll paths want).Wf := .foldl h fun _ _ h1 => .lift h1

theorem State.Wf.releaseHost {s : State} {scope : Nat} (h : s.Wf) :
    (s.releaseHost scope).Wf := .ite (.lift h) h

theorem State.Wf.veilWrite {s : State} {path op : Nat} {ks : List Nat} (h : s.Wf) :
    (s.veilWrite path op ks).Wf := .ite h (.ite (.liftAll h) h)

theorem State.Wf.dropVeils {s : State} {gone : Nat → Bool} (h : s.Wf) :
    (s.dropVeils gone).Wf := h

theorem State.Wf.showAll {s : State} (h : s.Wf) :
    s.showAll.Wf := h

theorem State.Wf.showSystem {s : State} (h : s.Wf) :
    s.showSystem.Wf := h

theorem State.Wf.setCells {s : State} {l : List (Nat × Byte)} (h : s.Wf) :
    (s.setCells l).Wf := by
  induction l generalizing s with
  | nil =>
    rw [State.setCells]
    exact h
  | cons x l ih =>
    rw [State.setCells]
    exact ih (.setByte h)

theorem State.Wf.putCells {s : State} {path op : Nat} {cs : List (Nat × Byte)} (h : s.Wf) :
    (s.putCells path op cs).Wf := .setCells (.veilWrite h)

theorem State.Wf.putBytes {s : State} {path op k : Nat} {bs : List Byte} (h : s.Wf) :
    (s.putBytes path op k bs).Wf := .putCells h

theorem State.Wf.setCluster {s : State} {cl : Nat} {c : Cluster} (h : s.Wf) :
    (s.setCluster cl c).Wf := h

theorem State.Wf.modCluster {s : State} {cl : Nat} {f : Cluster → Cluster} (h : s.Wf) :
    (s.modCluster cl f).Wf := .setCluster h

theorem State.Wf.setPart {s : State} {p : Nat} {x : Part} (h : s.Wf) :
    (s.setPart p x).Wf := h

theorem OutcomeWf.asked {s : State} {part : Nat} {o : Host.Outcome State Fault Refusal} (h : s.Wf)
    (ho : OutcomeWf o) :
    OutcomeWf (s.asked part o) := .ite (.next h) ho

theorem State.Wf.setLaunch {s : State} {l : Nat} {x : Launch} (h : s.Wf) :
    (s.setLaunch l x).Wf := h

theorem State.Wf.raiseMsix {s : State} {part vec : Nat} (h : s.Wf) :
    (s.raiseMsix part vec).Wf := .ite h (.ite h h)

theorem State.Wf.ringDoorbell {s : State} {part ring : Nat} (h : s.Wf) :
    (s.ringDoorbell part ring).Wf := .ite h (.raiseMsix (.setPart h))

theorem State.Wf.postFault {s : State} {cl : Nat} {r : FaultRec} (h : s.Wf) :
    (s.postFault cl r).Wf := by
  dsimp only [State.postFault]
  refine .ite (.modCluster h) ?_
  split
  · exact h
  · exact .ite (.modCluster h) (.raiseMsix (.writeKey (.writeBytes h)))

theorem State.Wf.drainFaults {s : State} {cl : Nat} {rs : List FaultRec} (h : s.Wf) :
    (s.drainFaults cl rs).Wf := by
  induction rs generalizing s with
  | nil =>
    rw [State.drainFaults]
    exact h
  | cons x rs ih =>
    rw [State.drainFaults]
    exact ih (.postFault h)

theorem State.Wf.flushFaults {s : State} {cl : Nat} (h : s.Wf) :
    (s.flushFaults cl).Wf := .drainFaults (.modCluster h)

theorem State.Wf.newToken {s : State} {cl : Nat} (h : s.Wf) :
    (s.newToken cl).2.Wf := .setCluster h

theorem State.Wf.park {s : State} {cl part ctx va kind acc : Nat} (h : s.Wf) :
    (s.park cl part ctx va kind acc).2.Wf := by
  dsimp only [State.park]
  refine .iteSnd h ?_
  split
  · exact .setCluster h
  · exact .postFault (.modCluster (.newToken h))

theorem State.Wf.parkSilent {s : State} {cl ctx va : Nat} (h : s.Wf) :
    (s.parkSilent cl ctx va).2.Wf := by
  dsimp only [State.parkSilent]
  refine .iteSnd h ?_
  split
  · exact .setCluster h
  · exact .modCluster (.newToken h)

theorem State.Wf.joinGroup {s : State} {cl ctx page token : Nat} (h : s.Wf) :
    (s.joinGroup cl ctx page token).2.Wf := .iteSnd h (.setCluster h)

theorem State.Wf.parked {r : Option Nat × State} (h : r.2.Wf) :
    (Machine.parked r).2.Wf := by
  unfold Machine.parked
  split
  · exact h
  · exact h

theorem State.Wf.checkLeaf {s : State} {cl part ctx va len acc : Nat} {l : Leaf} {lodgedOk : Bool} (h : s.Wf) :
    (s.checkLeaf cl part ctx va len acc l lodgedOk).2.Wf := by
  dsimp only [State.checkLeaf]
  refine .iteSnd (.postFault h) (.iteSnd h (.iteSnd h (.iteSnd h (.iteSnd (.parked (.parkSilent h)) ?_))))
  split
  · exact h
  · exact .iteSnd h (.iteSnd h (.parked (.joinGroup h)))
  · exact .iteSnd (.parked (.parkSilent h)) h

theorem State.Wf.parkOrFail {s : State} {cl part ctx va kind acc : Nat} (h : s.Wf) :
    (s.parkOrFail cl part ctx va kind acc).2.Wf := .iteSnd h (.parked (.park h))

theorem State.Wf.cacheLeaf {s : State} {cl : Nat} {l : Leaf} (h : s.Wf) :
    (s.cacheLeaf cl l).Wf := .modCluster h

theorem State.Wf.setDirty {s : State} {cl : Nat} {l : Leaf} (h : s.Wf) :
    (s.setDirty cl l).Wf := .modCluster (.writeKey h)

theorem State.Wf.dirtyLeaf {s : State} {cl : Nat} {l : Leaf} (h : s.Wf) :
    (s.dirtyLeaf cl l).Wf := .ite (.setDirty h) h

theorem State.Wf.walkMiss {s : State} {cl part ctx va len : Nat} {a : Acc} {acc : Nat} {lodgedOk : Bool} (h : s.Wf) :
    (s.walkMiss cl part ctx va len a acc lodgedOk).2.Wf := by
  unfold State.walkMiss
  refine .iteSnd h (.iteSnd (.parked (.parkSilent h)) ?_)
  dsimp only
  split
  · exact h
  · split
    · exact .parkOrFail h
    · exact .parked (.parkSilent h)
    · exact .postFault h
    · exact .iteSnd (.checkLeaf (.cacheLeaf (.writeKey h))) (.parkOrFail h)

theorem State.Wf.dropLeaf {s : State} {cl ctx va : Nat} (h : s.Wf) :
    (s.dropLeaf cl ctx va).Wf := .modCluster h

theorem State.Wf.translate {s : State} {cl part ctx va len : Nat} {a : Acc} {path : Nat} {lodgedOk : Bool}
    (h : s.Wf) :
    (s.translate cl part ctx va len a path lodgedOk).2.Wf := by
  dsimp only [State.translate]
  split
  · refine .iteSnd ?_ (.parkOrFail (.dropLeaf h))
    split
    next u e => exact .iteSnd (.snd e (.checkLeaf h)) (.walkMiss (.dropLeaf (.snd e (.checkLeaf h))))
    · exact .checkLeaf h
  · exact .walkMiss h

theorem State.Wf.hostPage {s : State} {part page : Nat} (h : s.Wf) :
    (s.hostPage part page).2.Wf := by
  dsimp only [State.hostPage]
  split
  · exact h
  · exact .setPart h

theorem State.Wf.atsPage {s : State} {cl part : Nat} {l : Leaf} {page : Nat} (h : s.Wf) :
    (s.atsPage cl part l page).2.Wf := by
  unfold State.atsPage
  split
  · exact h
  · split
    rename_i u e
    exact .modCluster (.snd e (.hostPage h))

theorem State.Wf.leafPlace {s : State} {cl part : Nat} {l : Leaf} {va : Nat} (h : s.Wf) :
    (s.leafPlace cl part l va).2.Wf := by
  dsimp only [State.leafPlace]
  split
  · exact h
  · exact h
  · exact h
  · exact .iteSnd (.atsPage h) h

theorem State.Wf.free {s : State} {n : Nat} (h : s.Wf) :
    (s.free n).2.Wf := h

theorem State.Wf.setTeam {s : State} {t : Nat} {x : Team} (h : s.Wf) :
    (s.setTeam t x).Wf := h

theorem State.Wf.modTeam {s : State} {t : Nat} {f : Team → Team} (h : s.Wf) :
    (s.modTeam t f).Wf := .setTeam h

theorem State.Wf.setSlot {s : State} {k : Nat} {x : Slot} (h : s.Wf) :
    (s.setSlot k x).Wf := h

theorem State.Wf.modSlot {s : State} {k : Nat} {f : Slot → Slot} (h : s.Wf) :
    (s.modSlot k f).Wf := .setSlot h

theorem State.Wf.place {s : State} {w : Who} {va len : Nat} {a : Acc} {lodgedOk : Bool} (h : s.Wf) :
    (s.place w va len a lodgedOk).2.Wf := by
  dsimp only [State.place]
  refine .iteSnd ?_ ?_
  · split
    · exact h
    · exact h
  · split
    next u e => exact .leafPlace (.snd e (.translate h))
    next u e => exact .snd e (.translate h)
    next u e => exact .snd e (.translate h)
    next u e => exact .snd e (.translate h)

theorem State.Wf.pieces {s : State} {w : Who} {a : Acc} {lodgedOk : Bool} {va len n : Nat} (h : s.Wf) :
    (s.pieces w a lodgedOk va len n).2.Wf := by
  induction n generalizing s va len with
  | zero =>
    rw [State.pieces]
    exact h
  | succ n ih =>
    rw [State.pieces]
    refine .iteSnd h ?_
    dsimp only
    split
    next u e =>
      split
      next u1 e1 => exact .snd e1 (ih (.snd e (.place h)))
      next u1 e1 => exact .snd e1 (ih (.snd e (.place h)))
    next u _ e => exact .snd e (.place h)

theorem State.Wf.piecesOf {s : State} {w : Who} {a : Acc} {lodgedOk : Bool} {va len : Nat} (h : s.Wf) :
    (s.piecesOf w a lodgedOk va len).2.Wf := .pieces h

theorem State.Wf.dirty {s : State} {cl : Nat} {ps : List Piece} (h : s.Wf) :
    (s.dirty cl ps).Wf := .foldl h fun _ _ h1 => .getD (.map fun _ => .dirtyLeaf h1) h1

theorem State.Wf.allocLines {s : State} {launch : Nat} {l : List (Nat × Nat)} (h : s.Wf) :
    (s.allocLines launch l).Wf := by
  induction l generalizing s with
  | nil =>
    rw [State.allocLines]
    exact h
  | cons x l ih =>
    rw [State.allocLines]
    exact ih (.ite h h)

theorem State.Wf.readAs {s : State} {w : Who} {a : Acc} {va len : Nat} {lodgedOk : Bool} (h : s.Wf) :
    (s.readAs w a va len lodgedOk).2.Wf := by
  unfold State.readAs
  dsimp only
  split
  next u e => exact .snd e (.piecesOf h)
  next u e => exact .iteSnd (.snd e (.piecesOf h)) (.ite (.liftKeys (.snd e (.piecesOf h))) (.snd e (.piecesOf h)))

theorem State.Wf.readRange {s : State} {w : Who} {va len : Nat} {lodgedOk : Bool} (h : s.Wf) :
    (s.readRange w va len lodgedOk).2.Wf := .readAs h

theorem State.Wf.forget {s : State} {cache : Nat} {ps : List Piece} (h : s.Wf) :
    (s.forget cache ps).Wf := .uncache h

theorem State.Wf.readPast {s : State} {w : Who} {cache va len : Nat} {lodgedOk : Bool} (h : s.Wf) :
    (s.readPast w cache va len lodgedOk).2.Wf := by
  unfold State.readPast
  split
  next u e => exact .readRange (.forget (.snd e (.piecesOf h)))
  next u e => exact .snd e (.piecesOf h)

theorem State.Wf.makeRoom {s : State} {cache k : Nat} (h : s.Wf) :
    (s.makeRoom cache k).Wf := by
  dsimp only [State.makeRoom]
  split
  · exact h
  · exact .ite h (.uncache h)

theorem State.Wf.fillSector {s : State} {path cache k : Nat} {kbit : Bool} {ctx : Nat} (h : s.Wf) :
    (s.fillSector path cache k kbit ctx).Wf := .foldl (.makeRoom h) fun _ _ h1 => .fill h1

theorem State.Wf.cachedByte {s : State} {path cache k : Nat} {kbit : Bool} {ctx : Nat} (h : s.Wf) :
    (s.cachedByte path cache k kbit ctx).2.Wf := by
  unfold State.cachedByte
  split
  · exact .ite (.fill h) h
  · exact .fillSector h

theorem State.Wf.cachedBytes {s : State} {path cache k : Nat} {kbit : Bool} {ctx n : Nat} (h : s.Wf) :
    (s.cachedBytes path cache k kbit ctx n).2.Wf := by
  induction n generalizing s k with
  | zero =>
    rw [State.cachedBytes]
    exact h
  | succ n ih =>
    rw [State.cachedBytes]
    split
    rename_i u e
    split
    rename_i u1 e1
    exact .snd e1 (ih (.snd e (.cachedByte h)))

theorem State.Wf.cachedPieces {s : State} {path cache ctx : Nat} {l : List Piece} (h : s.Wf) :
    (s.cachedPieces path cache ctx l).2.Wf := by
  induction l generalizing s with
  | nil =>
    rw [State.cachedPieces]
    exact h
  | cons x l ih =>
    rw [State.cachedPieces]
    split
    rename_i u e
    split
    rename_i u1 e1
    exact .snd e1 (ih (.snd e (.iteSnd (.cachedBytes h) h)))

theorem State.Wf.loadAs {s : State} {w : Who} {a : Acc} {cache va len : Nat} {lodgedOk : Bool} (h : s.Wf) :
    (s.loadAs w a cache va len lodgedOk).2.Wf := by
  unfold State.loadAs
  dsimp only
  split
  next u e => exact .snd e (.piecesOf h)
  next u e => exact .iteSnd (.snd e (.piecesOf h)) (.cachedPieces (.snd e (.piecesOf h)))

theorem State.Wf.loadRange {s : State} {w : Who} {cache va len : Nat} {lodgedOk : Bool} (h : s.Wf) :
    (s.loadRange w cache va len lodgedOk).2.Wf := .loadAs h

theorem State.Wf.breakResv {s : State} {self : Option Nat} {k n : Nat} (h : s.Wf) :
    (s.breakResv self k n).Wf := h

theorem State.Wf.changeFull {s : State} {self : Option Nat} {k : Nat} {full : Bool} (h : s.Wf) :
    (s.changeFull self k full).Wf := .setFull (.ite (.liftKeys h) (.breakResv (.liftKeys h)))

theorem State.Wf.ringBells {s : State} {path k n : Nat} (h : s.Wf) :
    (s.ringBells path k n).Wf := .ite h (.foldl h fun _ _ h1 => .ringDoorbell h1)

theorem State.Wf.noteWrite {s : State} {w : Who} {own : Option Nat} {cs : List (Nat × Byte)} {l : List Piece}
    (h : s.Wf) :
    (s.noteWrite w own cs l).Wf := by
  induction l generalizing s with
  | nil =>
    unfold State.noteWrite
    split
    · exact .foldl h fun _ _ h1 => .touch h1
    · exact h
  | cons x l ih =>
    rw [State.noteWrite]
    exact ih (.ite (.foldl (.ringBells (.breakResv h)) fun _ _ h1 => .setFull h1) (.ringBells (.breakResv h)))

theorem State.Wf.writePieces {s : State} {w : Who} {op : Nat} {own : Option Nat} {ps : List Piece} {bs : List Byte}
    (h : s.Wf) :
    (s.writePieces w op own ps bs).Wf := .noteWrite (.putCells h)

theorem State.Wf.clearPoison {s : State} {l : List Nat} (h : s.Wf) :
    (s.clearPoison l).Wf := by
  induction l generalizing s with
  | nil =>
    rw [State.clearPoison]
    exact h
  | cons x l ih =>
    rw [State.clearPoison]
    exact ih (.setPoison h)

theorem State.Wf.storePieces {s : State} {w : Who} {op : Nat} {own : Option Nat} {ps : List Piece} {bs : List Byte}
    (h : s.Wf) :
    (s.storePieces w op own ps bs).Wf := .writePieces (.clearPoison (.allocLines (.dirty h)))

theorem State.Wf.parkFull {s : State} {w : Who} {a : Acc} {va : Nat} (h : s.Wf) :
    (s.parkFull w a va).2.Wf := by
  dsimp only [State.parkFull]
  split
  next u e => exact .snd e (.parkOrFail h)
  next u e => exact .snd e (.parkOrFail h)
  next u _ _ e => exact .snd e (.parkOrFail h)

theorem State.Wf.writeAt {s : State} {w : Who} {op : Nat} {own : Option Nat} {a : Acc} {va : Nat} {ps : List Piece}
    {bs : List Byte} (h : s.Wf) :
    (s.writeAt w op own a va ps bs).2.Wf := .iteSnd (.storePieces h) (.parkFull h)

theorem State.Wf.writeRange {s : State} {w : Who} {op : Nat} {own : Option Nat} {a : Acc} {va : Nat}
    {bs : List Byte} {lodgedOk : Bool} (h : s.Wf) :
    (s.writeRange w op own a va bs lodgedOk).2.Wf := by
  unfold State.writeRange
  split
  next u e => exact .snd e (.piecesOf h)
  next u e => exact .writeAt (.snd e (.piecesOf h))

theorem State.Wf.writeTwo {s : State} {w : Who} {op : Nat} {own : Option Nat} {va : Nat} {bs : List Byte}
    {va' : Nat} {bs' : List Byte} {lodgedOk : Bool} (h : s.Wf) :
    (s.writeTwo w op own va bs va' bs' lodgedOk).2.2.Wf := by
  unfold State.writeTwo
  dsimp only
  split
  next u e => exact .snd e (.piecesOf h)
  next u e =>
    split
    next u1 e1 => exact .snd e1 (.piecesOf (.snd e (.piecesOf h)))
    next u1 e1 =>
      split
      · exact .storePieces (.snd e1 (.piecesOf (.snd e (.piecesOf h))))
      · exact .parkFull (.snd e1 (.piecesOf (.snd e (.piecesOf h))))

theorem State.Wf.rmwRange {s : State} {w : Who} {op : Nat} {own : Option Nat} {va len : Nat} {f : Nat → Option Nat}
    {lodgedOk : Bool} (h : s.Wf) :
    (s.rmwRange w op own va len f lodgedOk).2.Wf := by
  unfold State.rmwRange
  dsimp only
  split
  next u e => exact .snd e (.piecesOf h)
  next u e =>
    refine .iteSnd (.snd e (.piecesOf h)) (.iteSnd ?_ (.parkFull (.snd e (.piecesOf h))))
    split
    · refine .storePieces ?_
      split
      · exact .forget (.liftKeys (.snd e (.piecesOf h)))
      · exact .liftKeys (.snd e (.piecesOf h))
    · refine .foldl (.allocLines ?_) (fun _ _ h1 => .changeFull h1)
      split
      · exact .forget (.liftKeys (.snd e (.piecesOf h)))
      · exact .liftKeys (.snd e (.piecesOf h))

theorem State.Wf.killTeam {s : State} {t : Nat} {code : W32} (h : s.Wf) :
    (s.killTeam t code).Wf := .setTeam (.setLaunch h)

theorem State.Wf.fetchRange {s : State} {w : Who} {cache va len : Nat} {lodgedOk : Bool} (h : s.Wf) :
    (s.fetchRange w cache va len lodgedOk).2.Wf := .loadAs h

theorem State.Wf.teamTrapAt {s : State} {t : Nat} {tr : Trap} {isDeferred : Bool} {tepc : W64} {c : Option Clause}
    (h : s.Wf) :
    (s.teamTrapAt t tr isDeferred tepc c).Wf := by
  dsimp only [State.teamTrapAt]
  refine .ite (.postFault (.killTeam h)) ?_
  split
  next u e => exact .ite (.killTeam (.snd e (.readRange h))) (.setTeam (.snd e (.readRange h)))
  next u e => exact .setTeam (.snd e (.readRange h))
  next u e => exact .snd e (.readRange h)
  next u _ _ _ e => exact .killTeam (.snd e (.readRange h))

theorem State.Wf.teamTrap {s : State} {t : Nat} {tr : Trap} (h : s.Wf) :
    (s.teamTrap t tr).Wf := .teamTrapAt h

theorem OutcomeWf.unitInstr {i : Instr} {absent : Team → Bool} {s : State} {body : Nat → Team → Except Trap State}
    (h : s.Wf) (hbody : ∀ x y, ExceptWf (body x y)) :
    OutcomeWf (Machine.unitInstr i absent s body) := by
  unfold Machine.unitInstr
  dsimp only
  split
  · split
    · exact .next (.teamTrap h)
    · refine .ite (.next (.teamTrap h)) ?_
      split
      · exact .next (.teamTrap h)
      · split
        next u e => exact .next (.ok e (hbody _ _))
        next e => exact .next (.teamTrap h)
  · exact .next h

theorem OutcomeWf.teamInstr {i : Instr} {s : State} {body : Nat → Team → Except Trap State} (h : s.Wf)
    (hbody : ∀ x y, ExceptWf (body x y)) :
    OutcomeWf (Machine.teamInstr i s body) := .unitInstr h fun _ _ => hbody _ _

theorem State.Wf.lsegTrap {s : State} {t : Nat} {tm : Team} {path : Nat} {a : Acc} {lane : W32} {va : Nat}
    (h : s.Wf) :
    (s.lsegTrap t tm path a lane va).Wf := .teamTrap (.postFault h)

theorem State.Wf.retireTeam {s : State} {t : Nat} {tm : Team} (h : s.Wf) :
    (s.retireTeam t tm).Wf := .setTeam h

theorem State.Wf.setCore {s : State} {c : Nat} {x : Core} (h : s.Wf) :
    (s.setCore c x).Wf := h

theorem State.Wf.modCore {s : State} {c : Nat} {f : Core → Core} (h : s.Wf) :
    (s.modCore c f).Wf := .setCore h

theorem State.Wf.keeperEvent {s : State} {k : Nat} {b : W32} (h : s.Wf) :
    (s.keeperEvent k b).Wf := .modSlot h

theorem State.Wf.keeperTrap {s : State} {k : Nat} {code : BitVec 8} {tval : W64} (h : s.Wf) :
    (s.keeperTrap k code tval).Wf := .ite h (.keeperEvent (.modCore (.modSlot h)))

theorem OutcomeWf.slotInstr {i : Instr} {s : State} {body : Nat → Slot → Except KTrap State} (h : s.Wf)
    (hbody : ∀ x y, ExceptWf (body x y)) :
    OutcomeWf (Machine.slotInstr i s body) := by
  unfold Machine.slotInstr
  split
  · refine .ite ?_ (.next (.keeperTrap h))
    split
    next u e => exact .next (.ok e (hbody _ _))
    next e => exact .next (.keeperTrap h)
  · exact .next h

theorem OutcomeWf.keeperInstr {i : Instr} {s : State} {body : Nat → Slot → Except KTrap State} (h : s.Wf)
    (hbody : ∀ x y, ExceptWf (body x y)) :
    OutcomeWf (Machine.keeperInstr i s body) := .slotInstr h fun _ _ => .ite (hbody _ _) .error

theorem State.Wf.retireSlot {s : State} {k : Nat} {x : Slot} (h : s.Wf) :
    (s.retireSlot k x).Wf := .setSlot h

end Sys2Proof.Machine
end

section
/-! Canonical form: teams: results, control flow, system instructions, memory instructions. -/

namespace Sys2Proof.Machine

theorem OutcomeWf.aluInstr {i : Instr} {s : State} {f : Team → Team} (h : s.Wf) :
    OutcomeWf (Machine.aluInstr i s f) := .teamInstr h fun _ _ => .ok (.retireTeam h)

theorem State.Wf.parkTeam {s : State} {t token va : Nat} (h : s.Wf) :
    (s.parkTeam t token va).Wf := .modTeam h

theorem ExceptWf.issueDone {t addr : Nat} {r : Done × State} {k : Nat → State → Except Trap State} (h : r.2.Wf)
    (hk : ∀ x u, u.Wf → ExceptWf (k x u)) :
    ExceptWf (Machine.State.issueDone t addr r k) := by
  unfold State.issueDone
  split
  next u => exact hk _ _ h
  next u => exact .ok (.parkTeam h)
  next u => exact .ok h
  next u => exact .ok (.teamTrap h)
  next u => exact .ok (.teamTrap h)

theorem State.Wf.fetchWord {s : State} {t va : Nat} (h : s.Wf) :
    (s.fetchWord t va).2.Wf := by
  dsimp only [State.fetchWord]
  split
  · split
    next u e => exact .snd e (.fetchRange h)
    next u _ e => exact .snd e (.fetchRange h)
  · exact h

theorem ExceptWf.toTarget {s : State} {t : Nat} {target : W64} {k : State → Except Trap State} (h : s.Wf)
    (hk : ∀ u, u.Wf → ExceptWf (k u)) :
    ExceptWf (s.toTarget t target k) := by
  unfold State.toTarget
  split
  next u e => exact .ite (hk _ (.snd e (.fetchWord h))) .error
  next u e => exact .error
  next u e => exact .issueDone (.snd e (.fetchWord h)) fun _ _ h1 => .ok h1

theorem State.Wf.scan {s : State} {t : Nat} {last : W64} {n : Nat} {pc : W64} (h : s.Wf) :
    (s.scan t last n pc).2.Wf := by
  induction n generalizing s pc with
  | zero =>
    rw [State.scan]
    exact h
  | succ n ih =>
    rw [State.scan]
    refine .iteSnd h ?_
    dsimp only
    split
    next u e => exact .iteSnd (.snd e (.fetchWord h)) (.iteSnd (.snd e (.fetchWord h)) (ih (.snd e (.fetchWord h))))
    next u e => exact .snd e (.fetchWord h)
    next u e => exact .snd e (.fetchWord h)
    next u e => exact .snd e (.fetchWord h)
    next u _ _ e => exact .snd e (.fetchWord h)

theorem ExceptWf.withSpill {s : State} {t : Nat} {tm : Team} {k : Nat → State → Except Trap State} (h : s.Wf)
    (hk : ∀ x u, u.Wf → ExceptWf (k x u)) :
    ExceptWf (s.withSpill t tm k) := .ite (hk _ _ h) (.issueDone (.readRange h) fun _ _ h1 => hk _ _ h1)

theorem ExceptWf.writeSpill {s : State} {t : Nat} {tm : Team} {va : Nat} {bs : List Byte}
    {k : State → Except Trap State} (h : s.Wf) (hk : ∀ u, u.Wf → ExceptWf (k u)) :
    ExceptWf (s.writeSpill t tm va bs k) := .issueDone (.writeRange h) fun _ _ h1 => hk _ h1

theorem ExceptWf.pushDiv {s : State} {t : Nat} {tm : Team} {e : DivEntry} {k : Team → State → Except Trap State}
    (h : s.Wf) (hk : ∀ x u, u.Wf → ExceptWf (k x u)) :
    ExceptWf (s.pushDiv t tm e k) := by
  unfold State.pushDiv
  refine .ite .error (.ite (hk _ _ h) ?_)
  split
  · exact hk _ _ h
  · exact .withSpill h fun _ _ h1 => .writeSpill h1 fun _ h2 => hk _ _ h2

theorem ExceptWf.pushCall {s : State} {t : Nat} {tm : Team} {e : CallEntry} {k : Team → State → Except Trap State}
    (h : s.Wf) (hk : ∀ x u, u.Wf → ExceptWf (k x u)) :
    ExceptWf (s.pushCall t tm e k) := by
  unfold State.pushCall
  refine .ite .error (.ite (hk _ _ h) ?_)
  split
  · exact hk _ _ h
  · exact .withSpill h fun _ _ h1 => .writeSpill h1 fun _ h2 => hk _ _ h2

theorem ExceptWf.popDiv {s : State} {t : Nat} {tm : Team} {k : Option DivEntry → Team → State → Except Trap State}
    (h : s.Wf) (hk : ∀ x y u, u.Wf → ExceptWf (k x y u)) :
    ExceptWf (s.popDiv t tm k) := by
  unfold State.popDiv
  dsimp only
  split
  · exact hk _ _ _ h
  · exact .ite (hk _ _ _ h) (.withSpill h fun _ _ h1 => .issueDone (.readRange h1) fun _ _ h2 => hk _ _ _ h2)

theorem ExceptWf.popCall {s : State} {t : Nat} {tm : Team}
    {k : Option CallEntry → Team → State → Except Trap State} (h : s.Wf) (hk : ∀ x y u, u.Wf → ExceptWf (k x y u)) :
    ExceptWf (s.popCall t tm k) := by
  unfold State.popCall
  dsimp only
  split
  · exact hk _ _ _ h
  · exact .ite (hk _ _ _ h) (.withSpill h fun _ _ h1 => .issueDone (.readRange h1) fun _ _ h2 => hk _ _ _ h2)

theorem ExceptWf.joinPops {s : State} {t : Nat} {tm : Team} {n : Nat} (h : s.Wf) :
    ExceptWf (s.joinPops t tm n) := by
  induction n generalizing s tm with
  | zero =>
    rw [State.joinPops]
    exact .ok (.setTeam h)
  | succ n ih =>
    rw [State.joinPops]
    refine .popDiv h (fun _ _ _ h1 => ?_)
    split
    next u _ => exact .ok (.setTeam h1)
    next u _ _ => exact .ite (ih h1) (.ok (.setTeam h1))

theorem ExceptWf.joinTeam {s : State} {t : Nat} {tm : Team} (h : s.Wf) :
    ExceptWf (s.joinTeam t tm) := .ite (.ite (.ok (.setTeam h)) .error) (.joinPops h)

theorem State.Wf.dropRays {s : State} {t : Nat} (h : s.Wf) :
    (s.dropRays t).Wf := h

theorem ExceptWf.exitLanes {s : State} {t : Nat} {tm : Team} (h : s.Wf) :
    ExceptWf (s.exitLanes t tm) := .map (.joinTeam h) fun _ h1 => .dropRays h1

theorem OutcomeWf.brInstr {i : Instr} {disp : BitVec 18} {s : State}
    {body : Nat → Team → W64 → State → Except Trap State} (h : s.Wf) (hbody : ∀ x y z u, u.Wf → ExceptWf
    (body x y z u)) :
    OutcomeWf (Machine.brInstr i disp s body) := .teamInstr h fun _ _ => .toTarget h fun _ h1 => hbody _ _ _ _ h1

theorem execBraD_wf {p : BitVec 3} {n : Bool} {i : BitVec 18} {s : State} (h : s.Wf) :
    OutcomeWf (execBraD p n i s) :=
  .brInstr h fun _ _ _ _ h1 => .ite (.ok (.setTeam h1)) (.ite (.ok (.setTeam h1))
    (.pushDiv h1 fun _ _ h2 => .ok (.setTeam h2)))

theorem execDiv_wf {i : BitVec 18} {s : State} (h : s.Wf) :
    OutcomeWf (execDiv i s) := .brInstr h fun _ _ _ _ h1 => .pushDiv h1 fun _ _ h2 => .ok (.setTeam h2)

theorem execCall_wf {i : BitVec 18} {s : State} (h : s.Wf) :
    OutcomeWf (execCall i s) := .brInstr h fun _ _ _ _ h1 => .pushCall h1 fun _ _ h2 => .ok (.setTeam h2)

theorem execJoin_wf {s : State} (h : s.Wf) :
    OutcomeWf (execJoin s) := .teamInstr h fun _ _ => .joinTeam h

theorem execRet_wf {s : State} (h : s.Wf) :
    OutcomeWf (execRet s) := by
  unfold execRet
  refine .teamInstr h (fun _ _ => .popCall h (fun _ _ _ h1 => ?_))
  split
  next u _ => exact .error
  next u _ _ => exact .ite (.toTarget h1 fun _ h2 => .ok (.setTeam h2)) .error

theorem execExit_wf {s : State} (h : s.Wf) :
    OutcomeWf (execExit s) := .teamInstr h fun _ _ => .exitLanes h

theorem execYield_wf {s : State} (h : s.Wf) :
    OutcomeWf (execYield s) := .teamInstr h fun _ _ => .ok (.retireTeam h)

theorem execNop_wf {s : State} (h : s.Wf) :
    OutcomeWf (execNop s) := .teamInstr h fun _ _ => .ok (.retireTeam h)

theorem execJmpu_wf {a : BitVec 6} {s : State} (h : s.Wf) :
    OutcomeWf (execJmpu a s) := .teamInstr h fun _ _ => .toTarget h fun _ h1 => .ok (.setTeam h1)

theorem execTrap_wf {c : BitVec 16} {s : State} (h : s.Wf) :
    OutcomeWf (execTrap c s) := .teamInstr h fun _ _ => .error

theorem execBrk_wf {s : State} (h : s.Wf) :
    OutcomeWf (execBrk s) := .teamInstr h fun _ _ => .error

theorem State.Wf.seeWord {s : State} {k : Nat} (h : s.Wf) :
    (s.seeWord k).Wf := .liftKeys h

theorem State.Wf.arrive {s : State} {k : Nat} {op : Option Nat} (h : s.Wf) :
    (s.arrive k op).Wf :=
  .ite (.upd rfl rfl rfl (.writeKey (.breakResv (.seeWord h)))) (.upd rfl rfl rfl
    (.writeKey (.breakResv (.seeWord h))))

theorem State.Wf.releaseFenced {s : State} {id t path : Nat} (h : s.Wf) :
    (s.releaseFenced id t path).Wf := .ite (.releaseHost h) h

theorem execSbarArv_wf {a : BitVec 6} {s : State} (h : s.Wf) :
    OutcomeWf (execSbarArv a s) := by
  unfold execSbarArv
  refine .teamInstr h (fun _ _ => ?_)
  dsimp only
  split
  · exact .error
  · exact .ite .error (.ite (.ok h) (.ok (.retireTeam (.arrive (.releaseFenced h)))))

theorem State.Wf.teamAcquire {s : State} {tm : Team} (h : s.Wf) :
    (s.teamAcquire tm).Wf := .invalidate h

theorem State.Wf.endSbar {s : State} {t : Nat} {tm : Team} {k : Nat} (h : s.Wf) :
    (s.endSbar t tm k).Wf := .setTeam (.teamAcquire h)

theorem execSbarWt_wf {a : BitVec 6} {h1 : Bool} {s : State} (h : s.Wf) :
    OutcomeWf (execSbarWt a h1 s) := by
  unfold execSbarWt
  refine .teamInstr h (fun _ _ => ?_)
  dsimp only
  split
  · exact .error
  · exact .ite .error (.ite (.ok (.endSbar (.seeWord h))) (.ok (.setTeam (.seeWord h))))

theorem execSgnar_wf {n : BitVec 3} {g : BitVec 6} {r : BitVec 5} {s : State} (h : s.Wf) :
    OutcomeWf (execSgnar n g r s) := .teamInstr h fun _ _ => .ite (.ok (.retireTeam h)) .error

theorem State.Wf.fenceReveal {s : State} {f t scope : Nat} {observed : List Nat} (h : s.Wf) :
    (s.fenceReveal f t scope observed).Wf := .liftAll h

theorem State.Wf.fenceNodes {s : State} {cl t scope : Nat} (h : s.Wf) :
    (s.fenceNodes cl t scope).Wf := .ite (.invalidate h) h

theorem State.Wf.applyFence {s : State} {tm : Team} {f : Fence} (h : s.Wf) :
    (s.applyFence tm f).Wf :=
  .ite (.releaseHost (.ite (.teamAcquire (.fenceNodes (.fenceReveal h))) (.fenceNodes (.fenceReveal h))))
    (.ite (.teamAcquire (.fenceNodes (.fenceReveal h))) (.fenceNodes (.fenceReveal h)))

theorem execFenceX_wf {f t sc : BitVec 3} {s : State} (h : s.Wf) :
    OutcomeWf (execFenceX f t sc s) := .teamInstr h fun _ _ => .ite (.ok h) (.ok (.retireTeam (.applyFence h)))

theorem State.Wf.refence {s : State} {id : Nat} {o : Op} (h : s.Wf) :
    (s.refence id o).Wf := by
  unfold State.refence
  split
  · exact .foldl h fun _ _ h1 => .modTeam (.applyFence h1)
  · exact h

theorem State.Wf.checkBody {s : State} {t : Nat} {last : W64} {sd sa sb n : Nat} {pc : W64} (h : s.Wf) :
    (s.checkBody t last sd sa sb n pc).2.Wf := by
  delta State.checkBody
  refine brecOn_nat (P := fun _ (f : State → W64 → Body × State) => ∀ s pc, s.Wf → (f s pc).2.Wf) (fun _ _ _ h => h)
    (fun n below ih s pc h => ?_) n s pc h
  delta State.checkBody._f
  dsimp only
  split
  next u e => exact .iteSnd (.snd e (.fetchWord h)) (.snd e (.fetchWord h))
  next u e => exact .iteSnd (.snd e (.fetchWord h)) (.snd e (.fetchWord h))
  next w u e =>
    have first : u.Wf := .snd e (.fetchWord h)
    have second : (if teamLen w = 2 then u.fetchWord t (pc + 4).toNat else (.word 0, u)).2.Wf :=
      .iteSnd (.fetchWord first) first
    refine .iteSnd first ?_
    split
    next e1 => exact .snd e1 second
    next e1 => exact .snd e1 second
    next v u1 e1 =>
      split
      · exact .snd e1 second
      · exact .iteSnd (.snd e1 second) (ih _ _ (.snd e1 second))

theorem State.Wf.takeDeferred {s : State} {t : Nat} {hdr : W32} {e : Deferred} (h : s.Wf) :
    (s.takeDeferred t hdr e).Wf := .ite (.modTeam (.teamTrapAt h)) (.teamTrapAt h)

theorem execHdr_wf {w : BitVec 12} {a b l : BitVec 4} {h1 : BitVec 2} {s : State} (h : s.Wf) :
    OutcomeWf (execHdr w a b l h1 s) := by
  unfold execHdr
  refine .teamInstr h (fun _ _ => ?_)
  dsimp only
  split
  · exact .ok (.takeDeferred h)
  · split
    next u e => exact .ok (.teamTrapAt h)
    next u e => exact .issueDone (.snd e (.scan h)) fun _ _ h2 => .ok h2
    next u e => exact .ite (.ok (.setTeam (.snd e (.scan h)))) (.ok (.setTeam (.snd e (.scan h))))

theorem execRpt_wf {l : BitVec 4} {c : BitVec 6} {d a b : BitVec 4} {s : State} (h : s.Wf) :
    OutcomeWf (execRpt l c d a b s) := by
  unfold execRpt
  refine .teamInstr h (fun _ _ => ?_)
  dsimp only
  split
  next u e => exact .error
  next u e => exact .error
  next u e => exact .issueDone (.snd e (.checkBody h)) fun _ _ h1 => .ok h1
  next u e => exact .ok (.setTeam (.snd e (.checkBody h)))

theorem State.Wf.csrWrite {s : State} {tm : Team} {o : CsrOp} {n : Nat} {x : W32} (h : s.Wf) :
    (s.csrWrite tm o n x).1.Wf := by
  dsimp only [State.csrWrite]
  split
  · exact h
  · exact h
  · exact h
  · exact h
  · exact .modCluster h
  · exact h
  · split
    · exact h
    · exact h

theorem OutcomeWf.csrInstr {i : Instr} {n : BitVec 12} {s : State} {body : Nat → Team → Except Trap State}
    (h : s.Wf) (hbody : ∀ x y, ExceptWf (body x y)) :
    OutcomeWf (Machine.csrInstr i n s body) :=
  .teamInstr h fun _ _ => .ite (hbody _ _) (.ite .error (.ite (hbody _ _) .error))

theorem execCsrr_wf {d : BitVec 6} {n : BitVec 12} {s : State} (h : s.Wf) :
    OutcomeWf (execCsrr d n s) := .csrInstr h fun _ _ => .ok (.retireTeam h)

theorem ExceptWf.csrPut {s : State} {o : CsrOp} {d : BitVec 6} {n : BitVec 12} {t : Nat} {tm : Team} (h : s.Wf) :
    ExceptWf (s.csrPut o d n t tm) := .ok (.retireTeam (.csrWrite h))

theorem execCsrw_wf {d : BitVec 6} {n : BitVec 12} {s : State} (h : s.Wf) :
    OutcomeWf (execCsrw d n s) := .csrInstr h fun _ _ => .csrPut h

theorem execCsrs_wf {d : BitVec 6} {n : BitVec 12} {s : State} (h : s.Wf) :
    OutcomeWf (execCsrs d n s) := .csrInstr h fun _ _ => .csrPut h

theorem execCsrc_wf {d : BitVec 6} {n : BitVec 12} {s : State} (h : s.Wf) :
    OutcomeWf (execCsrc d n s) := .csrInstr h fun _ _ => .csrPut h

theorem OutcomeWf.handlerInstr {i : Instr} {s : State} {body : Nat → Team → Except Trap State} (h : s.Wf)
    (hbody : ∀ x y, ExceptWf (body x y)) :
    OutcomeWf (Machine.handlerInstr i s body) := .teamInstr h fun _ _ => .ite (hbody _ _) .error

theorem State.Wf.takeWord {s : State} {t k d : Nat} (h : s.Wf) :
    (s.takeWord t k d).Wf := .ite (.teamTrapAt h) (.setTeam (.teamAcquire (.setFull (.breakResv (.liftKeys h)))))

theorem execTpark_wf {a d : BitVec 6} {s : State} (h : s.Wf) :
    OutcomeWf (execTpark a d s) := by
  unfold execTpark
  refine .handlerInstr h (fun _ _ => ?_)
  dsimp only
  split
  · exact .error
  · exact .ite (.ok (.takeWord (.setTeam h))) (.ok (.setTeam h))

theorem execTkill_wf {c : BitVec 16} {s : State} (h : s.Wf) :
    OutcomeWf (execTkill c s) := .handlerInstr h fun _ _ => .ok (.killTeam h)

theorem ExceptWf.stackLanes {s : State} {t : Nat} {tm : Team} {n acc : Nat} {k : Nat → State → Except Trap State}
    (h : s.Wf) (hk : ∀ x u, u.Wf → ExceptWf (k x u)) :
    ExceptWf (s.stackLanes t tm n acc k) := by
  induction n generalizing s acc with
  | zero =>
    rw [State.stackLanes]
    exact hk _ _ h
  | succ n ih =>
    rw [State.stackLanes]
    exact .withSpill h fun _ _ h1 => .issueDone (.readRange h1) fun _ _ h2 => ih h2

theorem ExceptWf.finishEret {s : State} {t : Nat} {tm : Team} (h : s.Wf) :
    ExceptWf (s.finishEret t tm) := .stackLanes h fun _ _ h1 => .ite (.joinTeam h1) (.ok (.setTeam h1))

theorem execEret_wf {s : State} (h : s.Wf) :
    OutcomeWf (execEret s) := by
  unfold execEret
  refine .handlerInstr h fun _ _ => .ite ?_ (.finishEret h)
  split
  next u e => exact .finishEret (.setTeam (.snd e (.fetchWord (.setTeam h))))
  next u e => exact .error
  next u e => exact .issueDone (.setTeam (.snd e (.fetchWord (.setTeam h)))) fun _ _ h1 => .ok h1

theorem ExceptWf.issueLong {s : State} {t : Nat} {tm : Team} {f : Bool} {kind : OpKind} {units : Nat} (h : s.Wf) :
    ExceptWf (s.issueLong t tm f kind units) := by
  unfold State.issueLong
  dsimp only
  split
  · exact .error
  · exact .ite (.ok h) (.ok (.retireTeam h))

theorem OutcomeWf.memInstr {i : Instr} {f : Bool} {form : Team → MemForm} {s : State} (h : s.Wf) :
    OutcomeWf (Machine.memInstr i f form s) := by
  unfold Machine.memInstr
  refine .teamInstr h (fun _ _ => .ite (.ok h) ?_)
  dsimp only
  split
  · exact .error
  · split
    · exact .ok (.lsegTrap h)
    · exact .issueLong h

theorem State.Wf.prefetch {s : State} {tm : Team} {va : Nat} {l : Bool} (h : s.Wf) :
    (s.prefetch tm va l).Wf := by
  unfold State.prefetch
  dsimp only
  split
  next u e =>
    exact .ite h (.foldl (.snd e (.piecesOf h)) fun _ _ h1 => .ite (.fillSector (.ite (.fillSector h1) h1))
        (.ite (.fillSector h1) h1))
  · exact h

theorem execPref_wf {u : Bool} {a : BitVec 7} {sg : BitVec 3} {o : BitVec 6} {s : State} (h : s.Wf) :
    OutcomeWf (execPref u a sg o s) :=
  .teamInstr h fun _ _ => .ite (.ok h) (.ok (.retireTeam (.ite h (.foldl h fun _ _ h1 => .prefetch h1))))

end Sys2Proof.Machine
end

section
/-! Canonical form: scalar threads: accesses, registers, the ordinary RISC-V instructions. -/

namespace Sys2Proof.Machine

theorem State.Wf.parkSlot {s : State} {k : Nat} {w : SlotWait} (h : s.Wf) :
    (s.parkSlot k w).Wf := .modSlot h

theorem ExceptWf.trapNow {s : State} {k : Nat} {code : BitVec 8} {tval : Nat} (h : s.Wf) :
    ExceptWf (s.trapNow k code tval) := .ok (.keeperTrap h)

theorem ExceptWf.scalarDone {k va : Nat} {pf : BitVec 8} {r : Done × State} {f : Nat → State → Except KTrap State}
    (h : r.2.Wf) (hf : ∀ x u, u.Wf → ExceptWf (f x u)) :
    ExceptWf (Machine.State.scalarDone k va pf r f) := by
  unfold State.scalarDone
  split
  next u => exact hf _ _ h
  next u => exact .ok (.parkSlot h)
  next u => exact .ok h
  next u => exact .trapNow h
  next u => exact .trapNow h

theorem ExceptWf.scalarCheck {s : State} {x : Slot} {need : Need} {va size align : Nat} {mis : BitVec 8}
    {f : Bool → Except KTrap State} (hf : ∀ x, ExceptWf (f x)) :
    ExceptWf (s.scalarCheck x need va size align mis f) := by
  unfold State.scalarCheck
  split
  · exact .error
  · exact .error
  · exact hf _

theorem State.Wf.performStore {s : State} {id : Nat} {o : Op} (h : s.Wf) :
    (s.performStore id o).Wf := by
  unfold State.performStore
  dsimp only
  split
  · exact .upd rfl rfl rfl (.writePieces (.clearPoison (.allocLines h)))
  · exact h

theorem State.Wf.performStores {s : State} {l : List (Nat × Op)} (h : s.Wf) :
    (s.performStores l).Wf := by
  induction l generalizing s with
  | nil =>
    rw [State.performStores]
    exact h
  | cons x l ih =>
    rw [State.performStores]
    exact ih (.performStore h)

theorem State.Wf.drainStores {s : State} {k : Nat} (h : s.Wf) :
    (s.drainStores k).Wf := .performStores h

theorem State.Wf.drainMeeting {s : State} {k : Nat} {ps : List Piece} (h : s.Wf) :
    (s.drainMeeting k ps).Wf := .ite (.performStores h) h

theorem State.Wf.scalarPieces {s : State} {k : Nat} {x : Slot} {a : Acc} {l : Bool} {va size : Nat} (h : s.Wf) :
    (s.scalarPieces k x a l va size).2.Wf := by
  unfold State.scalarPieces
  split
  next u e => exact .drainMeeting (.snd e (.piecesOf h))
  · exact .piecesOf h

theorem State.Wf.noteRead {s : State} {k : Nat} {x : Slot} {va n : Nat} {acquire : Bool} (h : s.Wf) :
    (s.noteRead k x va n acquire).Wf := by
  unfold State.noteRead
  split
  · exact h
  · exact .modSlot h

theorem ExceptWf.scalarLoad {s : State} {k : Nat} {x : Slot} {va size : Nat} {f : Nat → State → Except KTrap State}
    (h : s.Wf) (hf : ∀ x u, u.Wf → ExceptWf (f x u)) :
    ExceptWf (s.scalarLoad k x va size f) := by
  unfold State.scalarLoad
  refine .scalarCheck (fun _ => ?_)
  split
  next u e => exact .scalarDone (.snd e (.scalarPieces h)) fun _ _ h1 => hf _ _ h1
  next u e => exact .scalarDone (.loadRange (.snd e (.scalarPieces h))) fun _ _ h1 => hf _ _ (.noteRead h1)

theorem ExceptWf.scalarRead {s : State} {k : Nat} {x : Slot} {need : Need} {va size align : Nat}
    {f : Nat → State → Except KTrap State} (h : s.Wf) (hf : ∀ x u, u.Wf → ExceptWf (f x u)) :
    ExceptWf (s.scalarRead k x need va size align f) := by
  unfold State.scalarRead
  refine .scalarCheck (fun _ => ?_)
  split
  next u e => exact .scalarDone (.snd e (.scalarPieces h)) fun _ _ h1 => hf _ _ h1
  next u e => exact .scalarDone (.readPast (.snd e (.scalarPieces h))) fun _ _ h1 => hf _ _ h1

theorem State.Wf.takeLines_parkedDone {r : Option Nat × State} (h : r.2.Wf) :
    (Machine.State.takeLines.parkedDone r).2.Wf := by
  unfold State.takeLines.parkedDone
  split
  next u => exact h
  next u => exact h

theorem State.Wf.takeLines {s : State} {w : Who} {ps : List Piece} {va acc : Nat} (h : s.Wf) :
    (s.takeLines w ps va acc).2.Wf := .iteSnd h (.takeLines_parkedDone (.park h))

theorem State.Wf.bufferStore {s : State} {k : Nat} {w : Who} {ps : List Piece} {bs : List Byte} (h : s.Wf) :
    (s.bufferStore k w ps bs).Wf := .upd rfl rfl rfl (.dirty h)

theorem ExceptWf.scalarStore {s : State} {k : Nat} {x : Slot} {va size v : Nat} {f : State → Except KTrap State}
    (h : s.Wf) (hf : ∀ u, u.Wf → ExceptWf (f u)) :
    ExceptWf (s.scalarStore k x va size v f) := by
  unfold State.scalarStore
  refine .scalarCheck (fun _ => .ite (.ok h) ?_)
  split
  next u e => exact .scalarDone (.snd e (.piecesOf h)) fun _ _ h1 => hf _ h1
  next u e => exact .scalarDone (.takeLines (.snd e (.piecesOf h))) fun _ _ h1 => hf _ (.bufferStore h1)

theorem ExceptWf.scalarWrite {s : State} {k : Nat} {x : Slot} {need : Need} {va align : Nat} {bs : List Byte}
    {f : State → Except KTrap State} (h : s.Wf) (hf : ∀ u, u.Wf → ExceptWf (f u)) :
    ExceptWf (s.scalarWrite k x need va align bs f) :=
  .scalarCheck fun _ => .scalarDone (.writeRange (.drainStores h)) fun _ _ h1 => hf _ h1

theorem ExceptWf.scalarRmw {s : State} {k : Nat} {x : Slot} {need : Need} {va size : Nat} {g : Nat → Option Nat}
    {f : Nat → State → Except KTrap State} (h : s.Wf) (hf : ∀ x u, u.Wf → ExceptWf (f x u)) :
    ExceptWf (s.scalarRmw k x need va size g f) := by
  unfold State.scalarRmw
  refine .scalarCheck (fun _ => ?_)
  split
  next u e => exact .scalarDone (.snd e (.scalarPieces h)) fun _ _ h1 => hf _ _ h1
  next u e => exact .scalarDone (.rmwRange (.snd e (.scalarPieces h))) fun _ _ h1 => hf _ _ h1

theorem State.Wf.slotAcquire {s : State} {k : Nat} (h : s.Wf) :
    (s.slotAcquire k).Wf := .invalidate h

theorem State.Wf.observeReads {s : State} {k : Nat} (h : s.Wf) :
    (s.observeReads k).Wf := .ite h (.modSlot h)

theorem State.Wf.popSpill {s : State} {core : Nat} (h : s.Wf) :
    (s.popSpill core).2.Wf := by
  dsimp only [State.popSpill]
  split
  · exact h
  · exact .setCore h

theorem State.Wf.popPoison {s : State} {cl : Nat} (h : s.Wf) :
    (s.popPoison cl).2.Wf := by
  unfold State.popPoison
  split
  · exact h
  · exact .modCluster h

theorem State.Wf.popCloak {s : State} {cl : Nat} (h : s.Wf) :
    (s.popCloak cl).2.Wf := by
  dsimp only [State.popCloak]
  split
  · exact h
  · exact .setCluster h

theorem State.Wf.keeperRead {s : State} {core n : Nat} (h : s.Wf) :
    (s.keeperRead core n).2.Wf := by
  dsimp only [State.keeperRead]
  split
  · exact h
  · exact h
  · exact h
  · exact h
  · exact h
  · exact .popSpill h
  · exact h
  · exact h
  · exact h
  · exact .iteSnd (.popPoison h) h
  · exact h
  · exact .popCloak h
  · exact h
  · exact h
  · exact h
  · exact h
  · exact h
  · exact h

theorem State.Wf.putSelected {s : State} {core : Nat} {f : Slot → Slot} (h : s.Wf) :
    (s.putSelected core f).Wf := by
  unfold State.putSelected
  split
  · exact .modSlot h
  · exact h

theorem State.Wf.keeperWrite {s : State} {core n : Nat} {v ones : W64} (h : s.Wf) :
    (s.keeperWrite core n v ones).Wf := by
  dsimp only [State.keeperWrite]
  split
  · exact .modCore h
  · exact .modCore h
  · exact .putSelected h
  · exact .modCluster h
  · exact .modCluster h
  · exact .putSelected h
  · exact .modCore h
  · exact .modCore h
  · exact .modCore h
  · exact .modCore h
  · exact .putSelected h
  · exact .modCluster h
  · exact .modCluster h
  · exact h

theorem ExceptWf.zicsr {s : State} {k : Nat} {x : Slot} {op : RvCsr} {rd : BitVec 5} {num : BitVec 12} {v : W64}
    {plain : Bool} (h : s.Wf) :
    ExceptWf (s.zicsr k x op rd num v plain) :=
  .ite (.ok (.retireSlot h)) (.ite (.ok (.retireSlot (.ite (.keeperWrite (.iteSnd h (.keeperRead h)))
    (.iteSnd h (.keeperRead h))))) .error)

theorem ExceptWf.done {s : State} {k : Nat} {x : Slot} (h : s.Wf) :
    ExceptWf (s.done k x) := .ok (.retireSlot h)

theorem ExceptWf.withMode {s : State} {x : Slot} {rm : BitVec 3} {f : Nat → Except KTrap State}
    (hf : ∀ x, ExceptWf (f x)) :
    ExceptWf (s.withMode x rm f) := by
  unfold State.withMode
  split
  · exact hf _
  · exact .error

theorem ExceptWf.doneF {s : State} {k : Nat} {x : Slot} {dbl : Bool} {rd : BitVec 5} {r : Nat × W32} (h : s.Wf) :
    ExceptWf (s.doneF k x dbl rd r) := .done h

theorem ExceptWf.rvBody {s : State} {op : RvOp} {k : Nat} {x : Slot} (h : s.Wf) :
    ExceptWf (s.rvBody op k x) := by
  dsimp only [State.rvBody]
  split
  · exact .done h
  · exact .done h
  · exact .ok (.setSlot h)
  · exact .ok (.setSlot h)
  · exact .ite (.ok (.setSlot h)) (.done h)
  · exact .scalarLoad h fun _ _ h1 => .done h1
  · exact .scalarStore h fun _ h1 => .done h1
  · exact .done h
  · exact .done h
  · exact .done h
  · exact .done h
  · exact .zicsr h
  · exact .zicsr h
  · exact .scalarLoad h fun _ _ h1 => .done h1
  · exact .scalarStore h fun _ h1 => .done h1
  · exact .withMode fun _ => .doneF h
  · exact .ite (.withMode fun _ => .doneF h) (.doneF h)
  · exact .withMode fun _ => .doneF h
  · exact .done h
  · exact .done h
  · exact .withMode fun _ => .done h
  · exact .withMode fun _ => .doneF h
  · exact .withMode fun _ => .doneF h
  · exact .withMode fun _ => .doneF h
  · exact .done h
  · exact .done h

theorem execRiscvBaseOp_wf {op : RvOp} {s : State} (h : s.Wf) :
    OutcomeWf (execRiscvBaseOp op s) := .slotInstr h fun _ _ => .rvBody h

theorem State.Wf.fullFence {s : State} {k : Nat} (h : s.Wf) :
    (s.fullFence k).Wf := .slotAcquire (.fenceReveal (.observeReads (.drainStores h)))

theorem execFence_wf {fm pred succ : BitVec 4} {s : State} (h : s.Wf) :
    OutcomeWf (execFence fm pred succ s) := .slotInstr h fun _ _ => .ok (.retireSlot (.fullFence h))

theorem execFenceI_wf {s : State} (h : s.Wf) :
    OutcomeWf (execFenceI s) := .slotInstr h fun _ _ => .ok (.retireSlot (.invalidateAll (.drainStores h)))

theorem State.Wf.releaseIf {s : State} {k : Nat} {rl : Bool} (h : s.Wf) :
    (s.releaseIf k rl).Wf := .ite (.drainStores h) h

theorem State.Wf.acquireIf {s : State} {k : Nat} {aq : Bool} (h : s.Wf) :
    (s.acquireIf k aq).Wf := .ite (.slotAcquire h) h

theorem execAmo_wf {op : AmoOp} {dbl aq rl : Bool} {rd rs1 rs2 : BitVec 5} {s : State} (h : s.Wf) :
    OutcomeWf (execAmo op dbl aq rl rd rs1 rs2 s) :=
  .slotInstr h fun _ _ => .scalarRmw (.releaseIf h) fun _ _ h1 => .done (.noteRead (.acquireIf h1))

theorem ExceptWf.reserved {s : State} {k : Nat} {x : Slot} {va n : Nat} {mis unsup pf : BitVec 8}
    {f : Nat → Bool → State → Except KTrap State} (h : s.Wf) (hf : ∀ x y u, u.Wf → ExceptWf (f x y u)) :
    ExceptWf (s.reserved k x va n mis unsup pf f) := by
  unfold State.reserved
  refine .scalarCheck (fun _ => ?_)
  split
  next u e => exact .scalarDone (.snd e (.piecesOf h)) fun _ _ h1 => .ok h1
  next u e => exact .ite (hf _ _ _ (.drainMeeting (.snd e (.piecesOf h)))) (.trapNow (.snd e (.piecesOf h)))

theorem execLr_wf {dbl aq rl : Bool} {rd rs1 : BitVec 5} {s : State} (h : s.Wf) :
    OutcomeWf (execLr dbl aq rl rd rs1 s) :=
  .slotInstr h fun _ _ => .reserved (.releaseIf h) fun _ _ _ h1 => .scalarDone (.readPast h1) fun _ _ h2 => .done
    (.noteRead (.acquireIf h2))

theorem execSc_wf {dbl aq rl : Bool} {rd rs1 rs2 : BitVec 5} {s : State} (h : s.Wf) :
    OutcomeWf (execSc dbl aq rl rd rs1 rs2 s) :=
  .slotInstr h fun _ _ => .reserved (.releaseIf h) fun _ _ _ h1 => .ite (.scalarDone (.writeRange h1) fun _ _ h2 =>
    .done (.acquireIf h2)) (.done (.acquireIf h1))

theorem execEcall_wf {s : State} (h : s.Wf) :
    OutcomeWf (execEcall s) := .slotInstr h fun _ _ => .error

theorem execEbreak_wf {s : State} (h : s.Wf) :
    OutcomeWf (execEbreak s) := .slotInstr h fun _ _ => .error

theorem State.Wf.waitEvent {s : State} {k : Nat} {x : Slot} {m : W32} {rd : BitVec 5} (h : s.Wf) :
    (s.waitEvent k x m rd).Wf := .ite (.setSlot h) (.retireSlot (.slotAcquire h))

theorem execWfi_wf {s : State} (h : s.Wf) :
    OutcomeWf (execWfi s) := .slotInstr h fun _ _ => .ok (.waitEvent h)

end Sys2Proof.Machine
end

section
/-! Canonical form: threads, messages, tasks and the Xaelain instructions. -/

namespace Sys2Proof.Machine

theorem State.Wf.newThread {s : State} {k launch : Nat} {pc : W64} {x f : Tbl W64} {fmt : W32} {sclp : W64}
    {sg : Tbl W128} (h : s.Wf) :
    (s.newThread k launch pc x f fmt sclp sg).Wf := .modSlot h

theorem State.Wf.launchThread {s : State} {k launch : Nat} {pc : W64} {args : List (Nat × W64)} {fmt : W32 × W64}
    (h : s.Wf) :
    (s.launchThread k launch pc args fmt).Wf := .newThread h

theorem OptionWf.tryWrite {s : State} {cl launch va : Nat} {bs : List Byte} (h : s.Wf) :
    OptionWf (s.tryWrite cl launch va bs) := by
  unfold State.tryWrite
  split
  next u e => exact .some (.snd e (.writeRange h))
  · exact .none

theorem OptionSndWf.tryRead {s : State} {cl launch va len : Nat} (h : s.Wf) :
    OptionSndWf (s.tryRead cl launch va len) := by
  unfold State.tryRead
  split
  next u e => exact .some (.snd e (.readRange h))
  · exact .none

theorem State.Wf.putBounds {s : State} {cl : Nat} {r : Range} (h : s.Wf) :
    (s.putBounds cl r).2.Wf := .writeRange h

theorem OptionWf.tryWriteClean {s : State} {cl launch va : Nat} {bs : List Byte} (h : s.Wf) :
    OptionWf (s.tryWriteClean cl launch va bs) := by
  unfold State.tryWriteClean
  split
  next u e => exact .ite .none (.tryWrite h)
  · exact .none

theorem State.Wf.retireThread {s : State} {k : Nat} (h : s.Wf) :
    (s.retireThread k).Wf := by
  dsimp only [State.retireThread]
  split
  · split
    next u e => exact .setSlot (.snd e (.putBounds h))
    next u e => exact .parkSlot (.snd e (.putBounds h))
    next u e => exact .snd e (.putBounds h)
    next u e => exact .keeperTrap (.snd e (.putBounds h))
    next u e => exact .keeperTrap (.snd e (.putBounds h))
  · exact .setSlot (.drainStores h)

theorem State.Wf.leaveThread {s : State} {k : Nat} (h : s.Wf) :
    (s.leaveThread k).Wf := .retireThread (.modSlot h)

theorem State.Wf.stopSlot {s : State} {k : Nat} {code : BitVec 8} {tval : W64} {same : Bool} (h : s.Wf) :
    (s.stopSlot k code tval same).Wf := by
  dsimp only [State.stopSlot]
  split
  · exact .keeperTrap h
  · exact .keeperTrap h
  · exact .keeperTrap h
  · exact .keeperTrap h
  · exact .setSlot h
  · exact h

theorem State.Wf.takeStop {s : State} {k : Nat} (h : s.Wf) :
    (s.takeStop k).Wf := by
  dsimp only [State.takeStop]
  split
  · exact .keeperTrap (.setSlot h)
  · exact h

theorem State.Wf.spill {s : State} {k : Nat} {m : Msg} (h : s.Wf) :
    (s.spill k m).Wf := .keeperEvent (.modCore h)

theorem OptionWf.spawn {s : State} {m : Msg} (h : s.Wf) :
    OptionWf (s.spawn m) := by
  dsimp only [State.spawn]
  refine .ite .none ?_
  split
  · exact .none
  · exact .some (.slotAcquire (.launchThread h))

/-- A message that arrives, or the state in which it waits. -/
theorem OptionWf.arriveMsg {s : State} {m : Msg} (h : s.Wf) : OptionWf (s.arriveMsg m).1 := by
  dsimp only [State.arriveMsg]
  split
  · split
    · split
      · exact .some (.spill h)
      · exact .none
    · exact .some (.setSlot h)
  · exact .some h

theorem State.Wf.arriveMsg {s : State} {m : Msg} (h : s.Wf) : (s.arriveMsg m).2.Wf := by
  dsimp only [State.arriveMsg]
  exact .iteSnd (.iteSnd (.iteSnd h (.stopSlot h)) h) h

theorem State.Wf.await {s : State} {m : Msg} (h : s.Wf) :
    (s.await m).2.Wf := .iteSnd h h

theorem State.Wf.deliverFrom {s : State} {idx : Nat} {waiting l : List Msg} (h : s.Wf) :
    (s.deliverFrom idx waiting l).Wf := by
  induction l generalizing s waiting with
  | nil => exact .modSlot h
  | cons m l ih =>
    rw [State.deliverFrom]
    refine .ite (ih h) ?_
    have arrives : OptionWf (if m.cls = .spawn then (s.spawn m, s) else s.arriveMsg m).1 := by
      split
      · exact .spawn h
      · exact .arriveMsg h
    have waits : (if m.cls = .spawn then (s.spawn m, s) else s.arriveMsg m).2.Wf := .iteSnd h (.arriveMsg h)
    split
    next e => exact .modSlot (.some (congrArg Prod.fst e) arrives)
    next e => exact ih (.await (.snd e waits))

theorem execMessageDelivery_wf {idx : Nat} {s : State} (h : s.Wf) :
    OutcomeWf (execMessageDelivery idx s) := .next (.deliverFrom h)

theorem ExceptWf.sendMsg {s : State} {k : Nat} {x : Slot} {rd : BitVec 5} {m : Msg} (h : s.Wf) :
    ExceptWf (s.sendMsg k x rd m) :=
  .ite (.ite (.ok (.parkSlot h)) (.done (.upd rfl rfl rfl (.drainStores h)))) (.done h)

theorem execXsend_wf {t r d : BitVec 5} {s : State} (h : s.Wf) :
    OutcomeWf (execXsend t r d s) := by
  unfold execXsend
  refine .slotInstr h (fun _ _ => ?_)
  split
  · exact .sendMsg h
  · exact .sendMsg h
  · exact .error

theorem execXspawnm_wf {t r d : BitVec 5} {s : State} (h : s.Wf) :
    OutcomeWf (execXspawnm t r d s) := .slotInstr h fun _ _ => .ite (.sendMsg h) .error

theorem ExceptWf.areaRead {s : State} {k by_ va len : Nat} {f : Nat → State → Except KTrap State} (h : s.Wf)
    (hf : ∀ x u, u.Wf → ExceptWf (f x u)) :
    ExceptWf (s.areaRead k by_ va len f) := .scalarDone (.readRange h) fun _ _ h1 => hf _ _ h1

theorem ExceptWf.areaWrite {s : State} {k by_ va : Nat} {bs : List Byte} {f : State → Except KTrap State}
    (h : s.Wf) (hf : ∀ u, u.Wf → ExceptWf (f u)) :
    ExceptWf (s.areaWrite k by_ va bs f) := .scalarDone (.writeRange h) fun _ _ h1 => hf _ h1

theorem ExceptWf.popRing {s : State} {k : Nat} {f : Option Msg → State → Except KTrap State} (h : s.Wf)
    (hf : ∀ x u, u.Wf → ExceptWf (f x u)) :
    ExceptWf (s.popRing k f) :=
  .ite (.areaRead h fun _ _ h1 => .ite (hf _ _ h1) (.areaRead h1 fun _ _ h2 => .areaWrite h2 fun _ h3 => hf _ _ h3))
    (hf _ _ h)

theorem execXrecv_wf {d : BitVec 5} {s : State} (h : s.Wf) :
    OutcomeWf (execXrecv d s) := by
  unfold execXrecv
  refine .slotInstr h (fun _ _ => .ite .error ?_)
  dsimp only
  split
  · exact .done (.slotAcquire h)
  · refine .popRing h (fun _ _ h1 => ?_)
    split
    next u _ _ => exact .done (.slotAcquire h1)
    next u _ => exact .done h1

theorem execXwait_wf {r d : BitVec 5} {s : State} (h : s.Wf) :
    OutcomeWf (execXwait r d s) := .slotInstr h fun _ _ => .ite (.done h) (.ok (.waitEvent h))

theorem execXevt_wf {r d : BitVec 5} {s : State} (h : s.Wf) :
    OutcomeWf (execXevt r d s) := .slotInstr h fun _ _ => .done h

theorem execXwaitWake_wf {slot : Nat} {s : State} (h : s.Wf) :
    OutcomeWf (execXwaitWake slot s) := by
  dsimp only [execXwaitWake]
  split
  · exact .ite (.next h) (.next (.waitEvent h))
  · exact .next h

theorem execXyield_wf {r : BitVec 5} {s : State} (h : s.Wf) :
    OutcomeWf (execXyield r s) := .slotInstr h fun _ _ => .ite (.done h) .error

theorem execXyieldEnd_wf {slot : Nat} {s : State} (h : s.Wf) :
    OutcomeWf (execXyieldEnd slot s) := .ite (.next (.setSlot h)) (.next h)

theorem execXsdom_wf {r d : BitVec 5} {s : State} (h : s.Wf) :
    OutcomeWf (execXsdom r d s) := .slotInstr h fun _ _ => .ite (.done h) .error

theorem execXtimerExpiry_wf {slot : Nat} {s : State} (h : s.Wf) :
    OutcomeWf (execXtimerExpiry slot s) :=
  .ite (.ite (.next (.keeperEvent (.setSlot h))) (.next (.stopSlot (.setSlot h)))) (.next h)

theorem execKpendClear_wf {core : Nat} {v : W64} {s : State} (h : s.Wf) :
    OutcomeWf (execKpendClear core v s) := .next (.keeperWrite h)

theorem execSpillQueuePop_wf {core : Nat} {s : State} (h : s.Wf) :
    OutcomeWf (execSpillQueuePop core s) := .next (.popSpill h)

theorem execPoisonQueuePop_wf {cl : Nat} {s : State} (h : s.Wf) :
    OutcomeWf (execPoisonQueuePop cl s) := .next (.popPoison h)

theorem State.Wf.ringSpan {s : State} {w : Who} {core d : Nat} {write : Bool} {i n : Nat} (h : s.Wf) :
    (s.ringSpan w core d write i n).2.Wf := by
  induction n generalizing s i with
  | zero =>
    rw [State.ringSpan]
    exact h
  | succ n ih =>
    rw [State.ringSpan]
    split
    next u e => exact .snd e (.piecesOf h)
    next u e =>
      refine .iteSnd (.iteSnd (ih (.snd e (.piecesOf h))) ?_) (.iteSnd (.snd e (.piecesOf h))
        (ih (.snd e (.piecesOf h))))
      split
      rename_i u1 e1
      exact .snd e1 (.parkFull (.snd e (.piecesOf h)))

theorem State.Wf.putRingEntry {s : State} {w : Who} {core d i : Nat} {f : Frame} (h : s.Wf) :
    (s.putRingEntry w core d i f).Wf := .getD (.tryWrite h) h

theorem State.Wf.closeRing {s : State} {w : Who} {core d i n : Nat} (h : s.Wf) :
    (s.closeRing w core d i n).Wf := by
  induction n generalizing s i with
  | zero =>
    rw [State.closeRing]
    exact h
  | succ n ih =>
    rw [State.closeRing]
    exact ih (.putRingEntry h)

theorem State.Wf.dropRingEntry {s : State} {w : Who} {core d i : Nat} (h : s.Wf) :
    (s.dropRingEntry w core d i).Wf := .ite (.modCore h) (.modCore (.closeRing h))

theorem State.Wf.takeRing {s : State} {w : Who} {core d i : Nat} (h : s.Wf) :
    (s.takeRing w core d i).2.Wf := by
  dsimp only [State.takeRing]
  split
  next u e => exact .snd e (.ringSpan h)
  next u e =>
    split
    next u1 e1 => exact .snd e1 (.ringSpan (.snd e (.ringSpan h)))
    next u1 e1 => exact .dropRingEntry (.snd e1 (.ringSpan (.snd e (.ringSpan h))))

theorem State.Wf.putOnChip {s : State} {w : Who} {core d : Nat} {rest : List Frame} (h : s.Wf) :
    (s.putOnChip w core d rest).2.Wf := by
  dsimp only [State.putOnChip]
  refine .iteSnd ?_ (.setCore h)
  split
  next u e => exact .snd e (.ringSpan h)
  next u e => exact .modCore (.snd e (.ringSpan h))

theorem State.Wf.seePush {s : State} {core : Nat} (h : s.Wf) :
    (s.seePush core).Wf := h

theorem State.Wf.push {s : State} {core d : Nat} {f : Frame} (h : s.Wf) :
    (s.push core d f).2.Wf := by
  dsimp only [State.push]
  refine .iteSnd (.seePush (.setCore h)) (.iteSnd h ?_)
  split
  next u e => exact .seePush (.modCore (.putRingEntry (.snd e (.ringSpan h))))
  next u e => exact .snd e (.ringSpan h)

theorem State.Wf.popFrom {s : State} {core launchOf d : Nat} {launch : Option Nat} (h : s.Wf) :
    (s.popFrom core launchOf d launch).2.Wf := by
  dsimp only [State.popFrom]
  split
  · split
    next u e => exact .snd e (.putOnChip h)
    next u e => exact .snd e (.putOnChip h)
  · split
    · split
      next u e => exact .snd e (.takeRing h)
      next u e => exact .snd e (.takeRing h)
    · exact h

theorem State.Wf.pop {s : State} {core launchOf p : Nat} {launch : Option Nat} (h : s.Wf) :
    (s.pop core launchOf p launch).2.Wf := by
  unfold State.pop
  split
  · exact .popFrom h
  · exact h

theorem State.Wf.readFrame {s : State} {k : Nat} {f : Frame} (h : s.Wf) :
    (s.readFrame k f).2.Wf := by
  dsimp only [State.readFrame]
  split
  · split
    next u e => exact .snd e (.readRange h)
    next u e => exact .snd e (.readRange h)
    next u e => exact .snd e (.readRange h)
    next u e => exact .snd e (.readRange h)
    next u e => exact .snd e (.readRange h)
  · exact h

theorem State.Wf.rejectFrame {s : State} {k : Nat} {f : Frame} {code : BitVec 8} {pc : W64} (h : s.Wf) :
    (s.rejectFrame k f code pc).Wf := .keeperTrap (.launchThread h)

theorem OptionWf.dispatch {s : State} {k : Nat} {f : Frame} (h : s.Wf) :
    OptionWf (s.dispatch k f) := by
  unfold State.dispatch
  dsimp only
  split
  next u e =>
    exact .ite (.ite (.some (.slotAcquire (.launchThread (.snd e (.readFrame h)))))
        (.ite (.some (.retireThread (.slotAcquire (.modSlot (.launchThread (.snd e (.readFrame h)))))))
        (.some (.snd e (.readFrame h))))) (.some (.rejectFrame (.snd e (.readFrame h))))
  next u e => exact .some (.rejectFrame (.snd e (.readFrame h)))
  next u e => exact .some (.modSlot (.launchThread (.snd e (.readFrame h))))
  next u e => exact .none

theorem State.Wf.redispatch {s : State} {k : Nat} {f : Frame} (h : s.Wf) :
    (s.redispatch k f).Wf := by
  dsimp only [State.redispatch]
  split
  next u e => exact .modSlot (.some e (.dispatch (.setSlot h)))
  next e => exact h

theorem OptionSndWf.splitInto {s : State} {k : Nat} {area : W64} {r : Range} (h : s.Wf) :
    OptionSndWf (s.splitInto k area r) := by
  dsimp only [State.splitInto]
  cases e : s.tryWriteClean (slotCluster k) r.frame.launch area.toNat (Range.bytes { r with lo := r.split }) with
  | none => exact .none
  | some u =>
    rw [Option.bind_some]
    cases e' : u.tryWriteClean (slotCluster k) r.frame.launch r.boundsAt (Range.bounds { r with hi := r.split }) with
    | none => exact .none
    | some v => exact .some (.some e' (.tryWriteClean (.some e (.tryWriteClean h))))

theorem State.Wf.readFar {s : State} {w : Who} {core d i : Nat} (h : s.Wf) :
    (s.readFar w core d i).2.Wf := by
  dsimp only [State.readFar]
  refine .iteSnd ?_ h
  split
  next u e => exact .snd e (.ringSpan h)
  next u e => exact .snd e (.ringSpan h)

theorem State.Wf.takeFar {s : State} {w : Who} {core d i : Nat} {f : Frame} (h : s.Wf) :
    (s.takeFar w core d i f).2.Wf := by
  dsimp only [State.takeFar]
  refine .iteSnd ?_ ?_
  · split
    next u e => exact .snd e (.takeRing h)
    next u e => exact .snd e (.takeRing h)
  · split
    next u e => exact .snd e (.putOnChip h)
    next u e => exact .snd e (.putOnChip h)

theorem State.Wf.stealEntry {s : State} {k core launch d i : Nat} (h : s.Wf) :
    (s.stealEntry k core launch d i).2.Wf := by
  dsimp only [State.stealEntry]
  split
  next u e => exact .snd e (.readFar h)
  next u e =>
    split
    next e1 => exact .takeFar (.snd e (.readFar h))
    next u1 e1 =>
      refine .iteSnd (.iteSnd (.snd e (.readFar h)) ?_) (.takeFar (.snd e (.readFar h)))
      split
      next e2 => exact .snd e (.readFar h)
      next u2 e2 => exact .sndSome e2 (.splitInto (.sndSome e1 (.tryRead (.snd e (.readFar h)))))

theorem State.Wf.stealRange {s : State} {k victim : Nat} {r : Range} (h : s.Wf) :
    (s.stealRange k victim r).2.Wf := by
  dsimp only [State.stealRange]
  refine .iteSnd h ?_
  split
  next e => exact h
  next u e => exact .modSlot (.sndSome e (.splitInto h))

theorem State.Wf.probe {s : State} {k core launch : Nat} (h : s.Wf) :
    (s.probe k core launch).2.Wf := by
  unfold State.probe
  split
  · split
    · exact .stealEntry h
    · exact h
  · split
    · exact .stealRange h
    · exact h

theorem State.Wf.steal {s : State} {k launch : Nat} {l : List Nat} (h : s.Wf) :
    (s.steal k launch l).2.Wf := by
  induction l generalizing s with
  | nil =>
    rw [State.steal]
    exact h
  | cons x l ih =>
    rw [State.steal]
    split
    next u e => exact ih (.snd e (.probe h))
    · exact .probe h

theorem ExceptWf.ringFault {s : State} {k : Nat} {e : RingFail} (h : s.Wf) :
    ExceptWf (s.ringFault k e) := .scalarDone h fun _ _ h1 => .ok h1

theorem ExceptWf.pushDone {k : Nat} {rd : BitVec 5} {r : Pushed × State} (h : r.2.Wf) :
    ExceptWf (Machine.State.pushDone k rd r) := by
  unfold State.pushDone
  split
  next u => exact .done h
  next u => exact .done h
  next u => exact .ringFault h

theorem ExceptWf.pushOperands {s : State} {x : Slot} {t r : BitVec 5} {f : Nat → Except KTrap State}
    (hf : ∀ x, ExceptWf (f x)) :
    ExceptWf (Machine.pushOperands s x t r f) := .ite .error (.ite .error (hf _))

theorem execXspawn_wf {t r d : BitVec 5} {s : State} (h : s.Wf) :
    OutcomeWf (execXspawn t r d s) :=
  .slotInstr h fun _ _ => .pushOperands fun _ => .pushDone (.push (.drainStores h))

theorem execXrange_wf {t r d : BitVec 5} {s : State} (h : s.Wf) :
    OutcomeWf (execXrange t r d s) :=
  .slotInstr h fun _ _ => .pushOperands fun _ => .scalarRead h fun _ _ h1 => .ite
    (.ite (.done h1) (.pushDone (.push (.drainStores h1)))) .error

theorem execXpop_wf {r d : BitVec 5} {s : State} (h : s.Wf) :
    OutcomeWf (execXpop r d s) := by
  unfold execXpop
  refine .slotInstr h (fun _ _ => .ite .error ?_)
  split
  next u e => exact .done (.slotAcquire (.snd e (.pop h)))
  next u e => exact .done (.snd e (.pop h))
  next u e => exact .ringFault (.snd e (.pop h))

theorem execXsplit_wf {t r d : BitVec 5} {s : State} (h : s.Wf) :
    OutcomeWf (execXsplit t r d s) := by
  unfold execXsplit
  refine .slotInstr h (fun _ _ => .pushOperands (fun _ => ?_))
  dsimp only
  split
  · exact .done h
  · refine .ite (.done h) (.ite (.done h) ?_)
    split
    next u e =>
      exact .scalarDone (.putBounds (.snd e (.ringSpan h))) fun _ _ h1 => .scalarWrite (.snd e (.ringSpan h)) fun
          _ h2 => .scalarDone (.putBounds h2) fun _ _ h3 => .pushDone (.push (.modSlot h3))
    next u e => exact .ringFault (.snd e (.ringSpan h))

theorem execXsteal_wf {d : BitVec 5} {s : State} (h : s.Wf) :
    OutcomeWf (execXsteal d s) := by
  unfold execXsteal
  refine .slotInstr h (fun _ _ => ?_)
  split
  next u e => exact .done (.slotAcquire (.snd e (.steal h)))
  next u e => exact .done (.snd e (.steal h))
  next u e => exact .ringFault (.snd e (.steal h))

theorem ExceptWf.joinTake {s : State} {k : Nat} {x : Slot} {rd : BitVec 5} {key : Nat} (h : s.Wf) :
    ExceptWf (s.joinTake k x rd key) := by
  unfold State.joinTake
  split
  next u e => exact .done (.slotAcquire (.snd e (.pop h)))
  next u e => exact .ringFault (.snd e (.pop h))
  next u e =>
    split
    next u1 e1 => exact .done (.slotAcquire (.snd e1 (.steal (.snd e (.pop h)))))
    next u1 e1 => exact .ringFault (.snd e1 (.steal (.snd e (.pop h))))
    next u1 e1 => exact .ok (.parkSlot (.snd e1 (.steal (.snd e (.pop h)))))

theorem execXjoin_wf {r d : BitVec 5} {s : State} (h : s.Wf) :
    OutcomeWf (execXjoin r d s) := by
  unfold execXjoin
  refine .slotInstr h (fun _ _ => .scalarRead h (fun _ _ h1 => .ite (.done (.noteRead (.slotAcquire h1))) ?_))
  split
  next u _ _ _ u1 e => exact .joinTake (.snd e (.piecesOf (.noteRead (.slotAcquire h1))))
  next u _ _ u1 _ e => exact .ok (.snd e (.piecesOf (.noteRead (.slotAcquire h1))))

theorem execXjoinWake_wf {slot : Nat} {s : State} (h : s.Wf) :
    OutcomeWf (execXjoinWake slot s) := by
  unfold execXjoinWake
  split
  · exact .next (.modSlot h)
  · exact .next h

theorem State.Wf.afterFail {s : State} {e : RingFail} {s' : State} (h : s.Wf) (hs' : s'.Wf) :
    (s.afterFail e s').Wf := .ite h hs'

theorem State.Wf.takeFrame {s : State} {slot : Nat} (h : s.Wf) :
    (s.takeFrame slot).Wf := by
  unfold State.takeFrame
  refine .ite ?_ h
  dsimp only
  split
  next u e => exact .getD (.dispatch (.snd e (.pop h))) h
  next u e => exact .snd e (.pop h)
  next u e => exact .afterFail h (.snd e (.pop h))

theorem execFrameDispatch_wf {slot : Nat} {s : State} (h : s.Wf) :
    OutcomeWf (execFrameDispatch slot s) := by
  unfold execFrameDispatch
  split
  · exact .next (.ite h (.redispatch h))
  · exact .next (.takeFrame h)

theorem execStealProbe_wf {slot : Nat} {s : State} (h : s.Wf) :
    OutcomeWf (execStealProbe slot s) := by
  dsimp only [execStealProbe]
  refine .ite ?_ (.next h)
  split
  · exact .next h
  · split
    next u e => exact .next (.getD (.dispatch (.snd e (.steal (.modSlot h)))) (.modSlot h))
    next u e => exact .next (.snd e (.steal (.modSlot h)))
    next u e => exact .next (.afterFail (.modSlot h) (.snd e (.steal (.modSlot h))))

theorem State.Wf.settleLine {s : State} {k : Nat} (h : s.Wf) :
    (s.settleLine k).Wf := .performStores h

theorem State.Wf.freeLine {s : State} {self : Option Nat} {k : Nat} (h : s.Wf) : (s.freeLine self k).Wf := by
  have rest : (((s.settleLine k).breakResv self k 256).dropVeils fun c => keyBlock 256 c == k).Wf :=
    .dropVeils (.breakResv (.settleLine h))
  unfold State.freeLine
  refine .setPoison (.dropBlock ?_)
  exact .of_tables rest (Memory.filter_wf _ _) id id

theorem ExceptWf.discardPart {s : State} {w : Who} {op : Nat} {own : Option Nat} {lodged : Bool} {va len n : Nat}
    (h : s.Wf) :
    ExceptWf (s.discardPart w op own lodged va len n) := by
  induction n generalizing s va len with
  | zero =>
    rw [State.discardPart]
    exact .ok h
  | succ n ih =>
    rw [State.discardPart]
    refine .ite (.ok h) ?_
    dsimp only
    split
    next u e =>
      refine ih (.snd e (.iteSnd ?_ (.writeRange h)))
      split
      next u1 e1 => exact .iteSnd (.freeLine (.dirty (.snd e1 (.place h)))) (.writeRange (.snd e1 (.place h)))
      next u1 _ e1 => exact .snd e1 (.place h)
    · exact .error

theorem State.Wf.discardRange {s : State} {w : Who} {op : Nat} {own : Option Nat} {lodged : Bool} {va len : Nat}
    (h : s.Wf) :
    (s.discardRange w op own lodged va len).2.Wf := by
  unfold State.discardRange
  split
  next u e => exact .snd e (.piecesOf h)
  next u e =>
    split
    next u1 e1 => exact .ok e1 (.discardPart (.snd e (.piecesOf h)))
    next e1 => exact .parkFull (.snd e (.piecesOf h))

theorem State.Wf.dropLine {s : State} {inScope : Nat → Bool} {k : Nat} (h : s.Wf) :
    (s.dropLine inScope k).Wf := h

theorem ExceptWf.feKey {s : State} {k : Nat} {x : Slot} {va : Nat} {mis : BitVec 8}
    {f : Nat → State → Except KTrap State} (h : s.Wf) (hf : ∀ x u, u.Wf → ExceptWf (f x u)) :
    ExceptWf (s.feKey k x va mis f) := by
  unfold State.feKey
  refine .scalarCheck (fun _ => ?_)
  split
  · exact hf _ _ (.drainMeeting h)
  · exact .error

theorem State.Wf.takeFe {s : State} {self : Option Nat} {key : Nat} (h : s.Wf) :
    (s.takeFe self key).2.Wf := .setFull (.breakResv (.liftKeys h))

theorem State.Wf.fillFe {s : State} {self : Option Nat} {key v : Nat} (h : s.Wf) :
    (s.fillFe self key v).Wf := .setFull (.setPoison (.putBytes (.breakResv (.releaseHost h))))

theorem State.Wf.feTake {s : State} {k : Nat} {x : Slot} {key : Nat} {rd : BitVec 5} (h : s.Wf) :
    (s.feTake k x key rd).Wf := by
  unfold State.feTake
  dsimp only
  exact .retireSlot (.slotAcquire (.takeFe h))

theorem State.Wf.feFill {s : State} {k : Nat} {x : Slot} {key : Nat} {v : W64} (h : s.Wf) :
    (s.feFill k x key v).Wf := .retireSlot (.fillFe h)

theorem State.Wf.feWait {s : State} {k : Nat} {op : FeOp} {va : Nat} (h : s.Wf) :
    (s.feWait k op va).Wf := h

theorem execXldfe_wf {r d : BitVec 5} {s : State} (h : s.Wf) :
    OutcomeWf (execXldfe r d s) :=
  .slotInstr h fun _ _ => .feKey h fun _ _ h1 => .ite (.ite .error (.ok (.feTake h1))) (.ok (.feWait h1))

theorem execXstfe_wf {t r : BitVec 5} {s : State} (h : s.Wf) :
    OutcomeWf (execXstfe t r s) :=
  .slotInstr h fun _ _ => .feKey h fun _ _ h1 => .ite (.ok (.feFill (.drainStores h1)))
    (.ok (.feWait (.drainStores h1)))

theorem execXfeset_wf {t r : BitVec 5} {s : State} (h : s.Wf) :
    OutcomeWf (execXfeset t r s) :=
  .slotInstr h fun _ _ => .ite .error (.feKey h fun _ _ h1 => .map (.done h1) fun _ h2 => .changeFull h2)

theorem execXlda_wf {e : BitVec 3} {z : BitVec 2} {r d : BitVec 5} {s : State} (h : s.Wf) :
    OutcomeWf (execXlda e z r d s) :=
  .slotInstr h fun _ _ => .scalarRead h fun _ _ h1 => .done (.noteRead (.acquireIf h1))

theorem execXstr_wf {t r : BitVec 5} {e : BitVec 3} {z : BitVec 2} {s : State} (h : s.Wf) :
    OutcomeWf (execXstr t r e z s) :=
  .slotInstr h fun _ _ => .scalarWrite (.ite (.releaseHost (.drainStores h)) h) fun _ h1 => .done h1

theorem execXdiscard_wf {t r : BitVec 5} {s : State} (h : s.Wf) :
    OutcomeWf (execXdiscard t r s) :=
  .slotInstr h fun _ _ => .ite (.done h) (.scalarCheck fun _ => .scalarDone (.discardRange (.drainStores h)) fun
    _ _ h1 => .done h1)

theorem execXcmaint_wf {o : BitVec 2} {e : BitVec 3} {r : BitVec 5} {s : State} (h : s.Wf) :
    OutcomeWf (execXcmaint o e r s) := by
  unfold execXcmaint
  refine .slotInstr h (fun _ _ => .scalarCheck (fun _ => ?_))
  dsimp only
  split
  next u e1 => exact .done (.ite (.snd e1 (.place h)) (.dropLine (.snd e1 (.place h))))
  next u _ e1 => exact .scalarDone (.snd e1 (.place h)) fun _ _ h1 => .ok h1

theorem execXfence_wf {f g c : BitVec 3} {s : State} (h : s.Wf) :
    OutcomeWf (execXfence f g c s) :=
  .slotInstr h fun _ _ => .ite (.ok h) (.done (.ite (.slotAcquire (.fenceNodes (.fenceReveal
    (.ite (.observeReads (.ite (.releaseHost (.drainStores h)) h)) (.ite (.releaseHost (.drainStores h)) h)))))
    (.fenceNodes (.fenceReveal (.ite (.observeReads (.ite (.releaseHost (.drainStores h)) h))
    (.ite (.releaseHost (.drainStores h)) h))))))

theorem execXsgnar_wf {t r : BitVec 5} {n : BitVec 3} {s : State} (h : s.Wf) :
    OutcomeWf (execXsgnar t r n s) := .slotInstr h fun _ _ => .ite .error (.ite (.done h) .error)

theorem execXsgrd_wf {r d : BitVec 5} {s : State} (h : s.Wf) :
    OutcomeWf (execXsgrd r d s) := .slotInstr h fun _ _ => .ite .error (.done h)

theorem execXfmt_wf {t r : BitVec 5} {s : State} (h : s.Wf) :
    OutcomeWf (execXfmt t r s) := .slotInstr h fun _ _ => .ite (.done h) .error

theorem execXenergy_wf {r d : BitVec 5} {s : State} (h : s.Wf) :
    OutcomeWf (execXenergy r d s) := by
  unfold execXenergy
  refine .slotInstr h (fun _ _ => ?_)
  dsimp only
  split
  · exact .done h
  · exact .done h
  · exact .done h
  · exact .error

theorem execXsread_wf {r d : BitVec 5} {s : State} (h : s.Wf) :
    OutcomeWf (execXsread r d s) := .slotInstr h fun _ _ => .ite .error (.done h)

end Sys2Proof.Machine
end

section
/-! Canonical form: the keeper. -/

namespace Sys2Proof.Machine

theorem ExceptWf.answer {s : State} {k : Nat} {rd : BitVec 5} {v : W64} (h : s.Wf) :
    ExceptWf (s.answer k rd v) := .done h

theorem execXtimer_wf {r d : BitVec 5} {s : State} (h : s.Wf) :
    OutcomeWf (execXtimer r d s) := .keeperInstr h fun _ _ => .answer (.setSlot h)

theorem OutcomeWf.xslotInstr {i : Instr} {r d : BitVec 5} {s : State} {accepts : Slot → Bool}
    {effect : Nat → Slot → (State → Except KTrap State) → Except KTrap State} (h : s.Wf)
    (he : ∀ k y f, (∀ u, u.Wf → ExceptWf (f u)) → ExceptWf (effect k y f)) :
    OutcomeWf (Machine.xslotInstr i r d s accepts effect) :=
  .keeperInstr h fun _ _ => .ite (.answer h) (.ite (he _ _ _ fun _ hu => .answer hu) (.answer h))

theorem execXslotQuery_wf {r d : BitVec 5} {s : State} (h : s.Wf) : OutcomeWf (execXslotQuery r d s) :=
  .xslotInstr h fun _ _ _ hf => hf _ h

theorem execXslotStop_wf {r d : BitVec 5} {s : State} (h : s.Wf) : OutcomeWf (execXslotStop r d s) :=
  .xslotInstr h fun _ _ _ hf => hf _ (.stopSlot h)

theorem ExceptWf.unbind {s : State} {k area : Nat} {f : State → Except KTrap State} (h : s.Wf)
    (hf : ∀ u, u.Wf → ExceptWf (f u)) :
    ExceptWf (s.unbind k area f) := .areaRead h fun _ _ h1 => .areaWrite h1 fun _ h2 => hf _ h2

theorem ExceptWf.release {s : State} {k : Nat} {y : Slot} {f : State → Except KTrap State} (h : s.Wf)
    (hf : ∀ u, u.Wf → ExceptWf (f u)) :
    ExceptWf (s.release k y f) := by
  dsimp only [State.release]
  split
  · exact .ite (.unbind h fun _ h1 => hf _ (.setSlot (.drainStores h1))) (hf _ (.setSlot (.drainStores h)))
  · exact hf _ (.setSlot (.drainStores h))

theorem execXslotRelease_wf {r d : BitVec 5} {s : State} (h : s.Wf) : OutcomeWf (execXslotRelease r d s) :=
  .xslotInstr h fun _ _ _ hf => .release h fun _ hu => hf _ hu

theorem execXslotOpen_wf {r d : BitVec 5} {s : State} (h : s.Wf) : OutcomeWf (execXslotOpen r d s) :=
  .xslotInstr h fun _ _ _ hf => hf _ (.setSlot h)

theorem execXslotClose_wf {r d : BitVec 5} {s : State} (h : s.Wf) : OutcomeWf (execXslotClose r d s) :=
  .xslotInstr h fun _ _ _ hf => hf _ (.setSlot h)

theorem State.Wf.vacate {s : State} {k : Nat} {y : Slot} (h : s.Wf) :
    (s.vacate k y).Wf := .ite (.setSlot (.drainStores h)) (.spill (.setSlot (.drainStores h)))

theorem execXslotVacate_wf {r d : BitVec 5} {s : State} (h : s.Wf) : OutcomeWf (execXslotVacate r d s) :=
  .xslotInstr h fun _ _ _ hf => hf _ (.vacate h)

theorem ExceptWf.checkRing {s : State} {k : Nat} {karea : W64} {f : (Slot → Slot) → State → Except KTrap State}
    (h : s.Wf) (hf : ∀ x u, u.Wf → ExceptWf (f x u)) :
    ExceptWf (s.checkRing k karea f) := .ite (hf _ _ h) (.areaRead h fun _ _ h1 => hf _ _ h1)

theorem State.Wf.savedTo {s : State} {k : Nat} {y : Slot} {area : Nat} (h : s.Wf) :
    (s.savedTo k y area).Wf := .modCluster (.modSlot h)

theorem execXctxSv_wf {t r d : BitVec 5} {s : State} (h : s.Wf) :
    OutcomeWf (execXctxSv t r d s) :=
  .keeperInstr h fun _ _ => .ite (.answer h) (.ite (.answer h) (.ite (.scalarWrite h fun _ h1 => .answer h1)
    (.scalarWrite (.drainStores h) fun _ h1 => .answer (.savedTo h1))))

theorem State.Wf.loaded {s : State} {k v area : Nat} (h : s.Wf) :
    (s.loaded k v area).Wf := .modCluster (.keeperEvent (.modCore (.ite (.slotAcquire (.setSlot h)) (.setSlot h))))

theorem execXctxLd_wf {t r d : BitVec 5} {s : State} (h : s.Wf) :
    OutcomeWf (execXctxLd t r d s) :=
  .keeperInstr h fun _ _ => .ite (.answer h) (.ite (.ite (.answer h) (.scalarRead h fun _ _ h1 => .checkRing h1 fun
    _ _ h2 => .answer (.modSlot h2))) (.ite (.answer h) (.scalarRead h fun _ _ h1 => .ite
    (.checkRing h1 fun _ _ h2 => .answer (.modSlot (.loaded h2))) (.answer h1))))

theorem execXkret_wf {d : BitVec 5} {s : State} (h : s.Wf) :
    OutcomeWf (execXkret d s) :=
  .keeperInstr h fun _ _ => .ite (.checkRing h fun _ _ h1 => .answer (.setSlot h1)) (.answer h)

theorem execXsgset_wf {t r : BitVec 5} {n : BitVec 3} {s : State} (h : s.Wf) :
    OutcomeWf (execXsgset t r n s) := .keeperInstr h fun _ _ => .done (.ite (.setSlot h) h)

theorem State.Wf.dropLeaves {s : State} {hits : Leaf → Bool} (h : s.Wf) :
    (s.dropLeaves hits).Wf := h

theorem execXtlbi_wf {t r : BitVec 5} {s : State} (h : s.Wf) :
    OutcomeWf (execXtlbi t r s) := .keeperInstr h fun _ _ => .ite .error (.done (.dropLeaves h))

theorem execXpeek_wf {r d : BitVec 5} {s : State} (h : s.Wf) :
    OutcomeWf (execXpeek r d s) := by
  unfold execXpeek
  refine .keeperInstr h (fun _ _ => ?_)
  dsimp only
  split
  · exact .answer h
  · exact .answer h

theorem execXpoke_wf {t r : BitVec 5} {s : State} (h : s.Wf) :
    OutcomeWf (execXpoke t r s) := .keeperInstr h fun _ _ => .done (.ite (.setSlot h) h)

theorem execCloakroomReadyPop_wf {cl : Nat} {s : State} (h : s.Wf) :
    OutcomeWf (execCloakroomReadyPop cl s) := .next (.popCloak h)

theorem execCloakroomEntryFree_wf {cl : Nat} {v : W64} {s : State} (h : s.Wf) :
    OutcomeWf (execCloakroomEntryFree cl v s) := .next (.modCluster h)

theorem execWmpartWrite_wf {cl : Nat} {v : W32} {s : State} (h : s.Wf) :
    OutcomeWf (execWmpartWrite cl v s) := .next (.modCluster h)

theorem execKeeperRestart_wf {core : Nat} {s : State} (h : s.Wf) :
    OutcomeWf (execKeeperRestart core s) := .ite (.next (.setSlot h)) (.next h)

end Sys2Proof.Machine
end

section
/-! Canonical form: completion, admission, records and the events of memory accesses. -/

namespace Sys2Proof.Machine

theorem State.Wf.setOp {s : State} {id : Nat} {o : Op} (h : s.Wf) :
    (s.setOp id o).Wf := h

theorem State.Wf.finishOp {s : State} {id : Nat} (h : s.Wf) :
    (s.finishOp id).Wf := by
  dsimp only [State.finishOp]
  split
  · exact .modTeam (.ite (.teamAcquire h) h)
  · exact h

theorem ExceptWf.issueNothing {s : State} {t : Nat} {tm : Team} {f : Bool} (h : s.Wf) :
    ExceptWf (s.issueNothing t tm f) := by
  unfold State.issueNothing
  split
  · exact .error
  · exact .ite (.ok h) (.ok (.retireTeam h))

theorem State.Wf.newTeam {s : State} {t : Team} (h : s.Wf) :
    (s.newTeam t).Wf := h

theorem State.Wf.modDrover {s : State} {cl launch : Nat} {f : Drover → Drover} (h : s.Wf) :
    (s.modDrover cl launch f).Wf := .modCluster h

theorem State.Wf.recordErrors {s : State} {order : Nat} {l : List (Nat × Rec)} (h : s.Wf) :
    (s.recordErrors order l).2.Wf := by
  induction l generalizing s with
  | nil =>
    rw [State.recordErrors]
    exact h
  | cons x l ih =>
    rw [State.recordErrors]
    refine .iteSnd ?_ (ih h)
    split
    rename_i u e
    split
    rename_i u1 e1
    exact .snd e1 (ih (.snd e (.free h)))

theorem State.Wf.releaseBatch {s : State} {cl launch n k : Nat} (h : s.Wf) :
    (s.releaseBatch cl launch n k).Wf := .modDrover (.setCluster h)

theorem State.Wf.batchTeam {s : State} {cl launch : Nat} {b : Batch} (h : s.Wf) :
    (s.batchTeam cl launch b).Wf := .newTeam (.recordErrors (.modDrover h))

theorem State.Wf.createTeam {s : State} {cl : Nat} (h : s.Wf) :
    (s.createTeam cl).Wf := by
  unfold State.createTeam
  split
  · exact .batchTeam h
  · exact h

theorem State.Wf.dropRecords {s : State} {cl launch : Nat} {out : List Held} (h : s.Wf) :
    (s.dropRecords cl launch out).Wf := .setLaunch (.modDrover h)

theorem State.Wf.releaseAll {s : State} {cl n : Nat} (h : s.Wf) :
    (s.releaseAll cl n).Wf := by
  induction n generalizing s with
  | zero =>
    rw [State.releaseAll]
    exact h
  | succ n ih =>
    rw [State.releaseAll]
    dsimp only
    split
    · exact h
    · exact ih (.ite (.dropRecords h) (.releaseBatch h))

theorem State.Wf.releaseReady {s : State} {cl : Nat} (h : s.Wf) :
    (s.releaseReady cl).Wf := .releaseAll h

theorem State.Wf.hold {s : State} {cl launch : Nat} {r : Rec} {notBefore : Nat} {larder : Option Nat} (h : s.Wf) :
    (s.hold cl launch r notBefore larder).Wf := .releaseReady (.modDrover (.setCluster h))

theorem State.Wf.fillLarder {s : State} {cl launch i : Nat} (h : s.Wf) :
    (s.fillLarder cl launch i).Wf := .getD (.tryWrite (.free h)) (.free h)

theorem State.Wf.accept {s : State} {cl launch : Nat} {r : Rec} {notBefore : Nat} (h : s.Wf) :
    (s.accept cl launch r notBefore).Wf := .ite (.hold h) (.hold (.fillLarder h))

theorem State.Wf.post {s : State} {cl launch : Nat} {r : Rec} {p : Poster} (h : s.Wf) :
    (s.post cl launch r p).2.Wf := .iteSnd (.accept h) (.modDrover h)

theorem State.Wf.postAll {s : State} {cl launch : Nat} {p : Poster} {all : Bool} {l : List Rec} (h : s.Wf) :
    (s.postAll cl launch p all l).2.Wf := by
  induction l generalizing s all with
  | nil =>
    rw [State.postAll]
    exact h
  | cons x l ih =>
    rw [State.postAll]
    split
    rename_i u e
    exact ih (.snd e (.post h))

theorem State.Wf.wakePoster {s : State} {cl launch : Nat} {p : Poster} (h : s.Wf) :
    (s.wakePoster cl launch p).Wf := by
  unfold State.wakePoster
  refine .ite h ?_
  dsimp only
  split
  · split
    · exact .setSlot h
    · exact h
  · exact .ite (.leaveThread h) h
  · split
    · exact .setTeam h
    · exact .setTeam h
    · exact h
  · exact h

theorem execRecordAdmit_wf {cl ctx : Nat} {s : State} (h : s.Wf) :
    OutcomeWf (execRecordAdmit cl ctx s) := by
  unfold execRecordAdmit
  dsimp only
  split
  · exact .next h
  · split
    · exact .next h
    · exact .ite (.next (.wakePoster (.accept (.modDrover h)))) (.next h)

theorem execBatchTimeout_wf {cl ctx node : Nat} {s : State} (h : s.Wf) :
    OutcomeWf (execBatchTimeout cl ctx node s) := by
  unfold execBatchTimeout
  split
  · exact .next h
  · exact .ite (.next (.releaseReady h)) (.next h)

theorem State.Wf.expire {s : State} {cl launch : Nat} {h1 : Held} (h : s.Wf) :
    (s.expire cl launch h1).Wf := by
  dsimp only [State.expire]
  split
  · exact h
  · exact .ite (.hold (.modDrover h)) (.dropRecords h)
  · exact .dropRecords h

theorem execRecordDeadline_wf {cl ctx idx : Nat} {s : State} (h : s.Wf) :
    OutcomeWf (execRecordDeadline cl ctx idx s) := by
  unfold execRecordDeadline
  dsimp only
  split
  · exact .next h
  · split
    · exact .next (.releaseReady h)
    · split
      · exact .next (.releaseReady h)
      · exact .ite (.next (.expire (.releaseReady h))) (.next (.releaseReady h))

theorem ExceptWf.postOperands {s : State} {x : Slot} {t r : BitVec 5} {f : Rec → Except KTrap State}
    (hf : ∀ x, ExceptWf (f x)) :
    ExceptWf (s.postOperands x t r f) := by
  dsimp only [State.postOperands]
  split
  · exact .error
  · exact .ite .error (hf _)

theorem execXpost_wf {t r d : BitVec 5} {s : State} (h : s.Wf) :
    OutcomeWf (execXpost t r d s) := by
  unfold execXpost
  refine .slotInstr h (fun _ _ => .postOperands (fun _ => ?_))
  split
  next u e => exact .answer (.snd e (.post (.drainStores h)))
  next u e => exact .ok (.parkSlot (.snd e (.post (.drainStores h))))

theorem execXpostn_wf {t r d : BitVec 5} {s : State} (h : s.Wf) :
    OutcomeWf (execXpostn t r d s) :=
  .slotInstr h fun _ _ => .postOperands fun _ => .ite (.answer (.accept (.drainStores h))) (.answer h)

theorem execXmig_wf {r : BitVec 5} {s : State} (h : s.Wf) :
    OutcomeWf (execXmig r s) := by
  unfold execXmig
  refine .slotInstr h (fun _ _ => ?_)
  dsimp only
  split
  · exact .error
  · refine .ite .error ?_
    split
    next u e => exact .ok (.leaveThread (.snd e (.post (.drainStores h))))
    next u e => exact .ok (.parkSlot (.snd e (.post (.drainStores h))))

theorem execXnodeq_wf {r d : BitVec 5} {s : State} (h : s.Wf) :
    OutcomeWf (execXnodeq r d s) := by
  unfold execXnodeq
  refine .slotInstr h (fun _ _ => .ite .error ?_)
  split
  exact .done h

theorem State.Wf.afterPosts {s : State} {t : Nat} {tm : Team} {all : Bool} {done : Team} {wait : TeamWait}
    (h : s.Wf) :
    (s.afterPosts t tm all done wait).Wf := .setTeam h

theorem execEmit_wf {dl : Bool} {a c : BitVec 7} {gd : Guard} {q : BitVec 4} {node : BitVec 6} {s : State}
    (h : s.Wf) :
    OutcomeWf (execEmit dl a c gd q node s) := by
  unfold execEmit
  refine .teamInstr h (fun _ _ => ?_)
  dsimp only
  split
  · exact .error
  · exact .ite .error (.ite (.ok h) (.ok (.afterPosts (.postAll h))))

theorem execRegroup_wf {node : BitVec 6} {k : BitVec 8} {s : State} (h : s.Wf) :
    OutcomeWf (execRegroup node k s) := by
  unfold execRegroup
  refine .teamInstr h (fun _ _ => .ite .error (.ite .error ?_))
  dsimp only
  split
  · exact .error
  · exact .ite .error (.ok (.afterPosts (.postAll h)))

theorem execNodeq_wf {d : BitVec 7} {gd : Guard} {f : Bool} {node : BitVec 6} {s : State} (h : s.Wf) :
    OutcomeWf (execNodeq d gd f node s) := .teamInstr h fun _ _ => .ite (.ite .error (.issueLong h)) (.issueNothing h)

theorem State.Wf.nodeqDone {s : State} {id d node t : Nat} (h : s.Wf) :
    (s.nodeqDone id d node t).Wf := .finishOp (.ite h (.setTeam h))

theorem State.Wf.laneToSlot {s : State} {tm : Team} {lane : Nat} {pc : W64} {k : Nat} (h : s.Wf) :
    (s.laneToSlot tm lane pc k).Wf := .slotAcquire (.modSlot (.newThread h))

theorem OptionWf.laneToCloak {s : State} {tm : Team} {lane : Nat} {pc : W64} {e : Nat} (h : s.Wf) :
    OptionWf (s.laneToCloak tm lane pc e) := by
  dsimp only [State.laneToCloak]
  split
  next e1 => exact .none
  next u e1 =>
    exact .some (.ite (.modCluster (.some e1 (.tryWrite h))) (.keeperEvent (.modCluster (.some e1 (.tryWrite h)))))

theorem OptionWf.placeLane {s : State} {tm : Team} {lane : Nat} {pc : W64} (h : s.Wf) :
    OptionWf (s.placeLane tm lane pc) := by
  unfold State.placeLane
  split
  · exact .some (.laneToSlot h)
  · exact .bind fun _ => .laneToCloak h

theorem State.Wf.placeLanes {s : State} {tm : Team} {pc : W64} {l : List Nat} (h : s.Wf) :
    (s.placeLanes tm pc l).2.Wf := by
  induction l generalizing s with
  | nil =>
    rw [State.placeLanes]
    exact h
  | cons x l ih =>
    rw [State.placeLanes]
    split
    next u e => exact ih (.some e (.placeLane h))
    next e => exact h

theorem State.Wf.afterLeave {s : State} {t : Nat} {tm : Team} {pc : W64} {left : List Nat} (h : s.Wf) :
    (s.afterLeave t tm pc left).Wf := .setTeam h

theorem execLeave_wf {a : BitVec 7} {s : State} (h : s.Wf) :
    OutcomeWf (execLeave a s) := by
  unfold execLeave
  refine .teamInstr h (fun _ _ => .ite .error (.ite .error ?_))
  dsimp only
  split
  · exact .ok (.afterLeave (.placeLanes h))
  · exact .ok (.afterLeave h)

theorem State.Wf.nextLane {s : State} {t : Nat} (h : s.Wf) :
    (s.nextLane t).Wf := by
  dsimp only [State.nextLane]
  split
  · split
    next u e => exact .afterLeave (.some e (.placeLane h))
    next e => exact h
  · exact h

theorem execLeaveLanePlace_wf {team : Nat} {s : State} (h : s.Wf) :
    OutcomeWf (execLeaveLanePlace team s) := .ite (.next (.nextLane h)) (.next h)

theorem State.Wf.grantThread {s : State} {k launch idx : Nat} (h : s.Wf) :
    (s.grantThread k launch idx).Wf := .launchThread (.modCluster h)

theorem execSlotGrant_wf {slot : Nat} {s : State} (h : s.Wf) :
    OutcomeWf (execSlotGrant slot s) := by
  dsimp only [execSlotGrant]
  refine .ite (.next h) ?_
  split
  · exact .next (.grantThread h)
  · split
    · exact .next (.elim (.spawn h) h fun _ h1 => .modSlot h1)
    · split
      · exact .next (.nextLane h)
      · exact .next (.takeFrame h)

theorem execTeamRetire_wf {team : Nat} {s : State} (h : s.Wf) :
    OutcomeWf (execTeamRetire team s) := .ite (.next h) (.next h)

theorem State.Wf.putResult {s : State} {t lane : Nat} {uni : Bool} {d k v : Nat} (h : s.Wf) :
    (s.putResult t lane uni d k v).Wf := .modTeam h

theorem State.Wf.teamAcquireAt {s : State} {t va n : Nat} (h : s.Wf) :
    (s.teamAcquireAt t va n).Wf := .modTeam (.teamAcquire h)

theorem State.Wf.glimpse {s : State} {t va n : Nat} (h : s.Wf) :
    (s.glimpse t va n).Wf := by
  unfold State.glimpse
  split
  · exact h
  · exact .modTeam h

theorem State.Wf.teamFe {s : State} {t lane : Nat} {uni : Bool} {d : Nat} {u : Unit1} {load : Bool} (h : s.Wf) :
    (s.teamFe t lane uni d u load).2.Wf := by
  dsimp only [State.teamFe]
  split
  · exact h
  · exact .iteSnd (.iteSnd h (.teamAcquireAt (.putResult (.takeFe h)))) (.fillFe h)

theorem State.Wf.access {s : State} {id t : Nat} {m : MemOp} {uni : Bool} {d : Nat} {u : Unit1} (h : s.Wf) :
    (s.access id t m uni d u).2.Wf := by
  unfold State.access
  extract_lets tm va w own put s1
  have h1 : s1.Wf := .ite (.releaseFenced h) h
  have answered : ∀ k f (r : Done × State), r.2.Wf → (put k f r).2.Wf := by
    intro k f r hr
    dsimp only [put]
    split
    · exact .glimpse (.putResult hr)
    · exact hr
  clear_value put s1
  cases m with
  | load n sg => exact answered _ _ _ (.loadRange h1)
  | loadNc => exact answered _ _ _ (.readPast h1)
  | store n => exact .writeRange h1
  | ldFe => exact .teamFe h1
  | stFe => exact .teamFe h1
  | feSet full =>
    dsimp only
    split
    · exact .changeFull h1
    · exact h1
  | ldAcq n scope =>
    dsimp only
    split
    next u1 e =>
      exact .iteSnd (.teamAcquireAt (.putResult (.snd e (.readPast h1)))) (answered _ _ _ (.snd e (.readPast h1)))
    · exact .readPast h1
  | stRel n scope => exact .writeRange (.releaseHost h1)
  | atom code n ret => exact answered _ _ _ (.rmwRange h1)
  | cas n => exact answered _ _ _ (.rmwRange h1)
  | discard => exact .discardRange h1
  | cmaint op scope =>
    dsimp only
    split
    next u1 e => exact .ite (.snd e (.place h1)) (.dropLine (.snd e (.place h1)))
    next u1 _ e => exact .snd e (.place h1)
  | gath n =>
    dsimp only
    split
    next u1 e => exact .putResult (.snd e (.readRange h1))
    · exact .readRange h1
  | scat n => exact .writeRange (.releaseFenced h1)

theorem State.Wf.dropUnit {s : State} {id i : Nat} (h : s.Wf) :
    (s.dropUnit id i).Wf := .ite (.finishOp (.ite (.refence (.setOp h)) (.setOp h))) (.setOp h)

theorem State.Wf.takeAtHeader {s : State} {t : Nat} (h : s.Wf) :
    (s.takeAtHeader t).Wf := by
  dsimp only [State.takeAtHeader]
  refine .ite ?_ h
  split
  · exact .takeDeferred h
  · exact h

theorem State.Wf.deferError {s : State} {id i : Nat} {code : BitVec 8} (h : s.Wf) :
    (s.deferError id i code).Wf := by
  dsimp only [State.deferError]
  split
  · exact .takeAtHeader (.dropUnit (.setOp (.modTeam h)))
  · exact h

theorem State.Wf.holdUnit {s : State} {id i token : Nat} (h : s.Wf) :
    (s.holdUnit id i token).Wf := by
  dsimp only [State.holdUnit]
  split
  · exact .modTeam (.setOp h)
  · exact .setOp h

theorem State.Wf.endUnit {id i : Nat} {r : Done × State} (h : r.2.Wf) :
    (Machine.State.endUnit id i r).Wf := by
  unfold State.endUnit
  split
  next u => exact .dropUnit h
  next u => exact .holdUnit h
  next u => exact h
  next u => exact .deferError h
  next u => exact .deferError h

theorem State.Wf.feArrive {s : State} {id i : Nat} (h : s.Wf) :
    (s.feArrive id i).Wf := .ite h h

theorem State.Wf.runUnit {s : State} {id i : Nat} {want : Done → Bool} (h : s.Wf) :
    (s.runUnit id i want).Wf := by
  dsimp only [State.runUnit]
  split
  · exact .ite (.ite (.endUnit (.access h)) h) h
  · exact h

theorem execMemAccessComplete_wf {op unit : Nat} {s : State} (h : s.Wf) :
    OutcomeWf (execMemAccessComplete op unit s) := by
  dsimp only [execMemAccessComplete]
  refine .ite (.ite (.next (.finishOp h)) (.next h)) ?_
  split
  · split
    · exact .ite (.next (.performStore h)) (.next h)
    · exact .next h
  · exact .next (.finishOp h)
  · exact .next (.ite (.finishOp h) (.runUnit h))
  · exact .next h

theorem execDeferredErrorArrival_wf {op unit : Nat} {s : State} (h : s.Wf) :
    OutcomeWf (execDeferredErrorArrival op unit s) := .ite (.next h) (.next (.runUnit h))

theorem State.Wf.feSlotServe {s : State} {k : Nat} (h : s.Wf) :
    (s.feSlotServe k).Wf := by
  dsimp only [State.feSlotServe]
  split
  · split
    · exact h
    · split
      · exact .ite (.ite (.keeperTrap h) (.feTake h)) h
      · exact .ite (.feFill h) h
  · exact h

theorem State.Wf.sbarServe {s : State} {t : Nat} (h : s.Wf) :
    (s.sbarServe t).Wf := by
  dsimp only [State.sbarServe]
  split
  · split
    · exact h
    · exact .ite (.teamTrap h) (.ite (.modTeam (.endSbar (.seeWord h))) h)
  · exact h

theorem execFeWaitServed_wf {w : WaitRef} {s : State} (h : s.Wf) :
    OutcomeWf (execFeWaitServed w s) := by
  unfold execFeWaitServed
  split
  · exact .ite (.next (.runUnit (.feArrive h))) (.next h)
  · exact .next (.feSlotServe h)
  · exact .next (.sbarServe h)

theorem execSbarWake_wf {team : Nat} {s : State} (h : s.Wf) :
    OutcomeWf (execSbarWake team s) := .next (.sbarServe h)

theorem execFeretryExpiry_wf {w : WaitRef} {s : State} (h : s.Wf) :
    OutcomeWf (execFeretryExpiry w s) := by
  unfold execFeretryExpiry
  dsimp only
  split
  · split
    · exact .ite (.next (.deferError h)) (.next h)
    · exact .next h
  · split
    · exact .ite (.next (.keeperTrap h)) (.next h)
    · exact .next h
  · split
    · exact .ite (.next (.teamTrap h)) (.next h)
    · exact .next h

theorem execClauseWaitEnd_wf {team : Nat} {s : State} (h : s.Wf) :
    OutcomeWf (execClauseWaitEnd team s) := .ite (.next (.setTeam h)) (.next h)

end Sys2Proof.Machine
end

section
/-! Canonical form: the asynchronous engines and the matrix array. -/

namespace Sys2Proof.Machine

theorem OutcomeWf.guardedUnit {i : Instr} {gd : Guard} {f : Bool} {absent : Team → Bool} {s : State}
    {body : Nat → Team → Except Trap State} (h : s.Wf) (hbody : ∀ x y, ExceptWf (body x y)) :
    OutcomeWf (Machine.guardedUnit i gd f absent s body) :=
  .unitInstr h fun _ _ => .ite (.ok h) (.ite (hbody _ _) (.issueNothing h))

theorem OutcomeWf.guardedInstr {i : Instr} {gd : Guard} {f : Bool} {s : State}
    {body : Nat → Team → Except Trap State} (h : s.Wf) (hbody : ∀ x y, ExceptWf (body x y)) :
    OutcomeWf (Machine.guardedInstr i gd f s body) := .guardedUnit h fun _ _ => hbody _ _

theorem ExceptWf.checkRange {s : State} {tm : Team} {sg : BitVec 3} {need : Need} {first : Int} {size align : Nat}
    {k : Except Trap State} (hk : ExceptWf k) :
    ExceptWf (s.checkRange tm sg need first size align k) := by
  unfold State.checkRange
  refine .ite hk ?_
  dsimp only
  split
  · exact hk
  · exact .error
  · exact .error

theorem ExceptWf.checkRows {s : State} {tm : Team} {sg : BitVec 3} {need : Need} {first : Int} {bytes pitch : Nat}
    {k : Except Trap State} {n : Nat} (hk : ExceptWf k) :
    ExceptWf (s.checkRows tm sg need first bytes pitch k n) := by
  induction n generalizing first with
  | zero =>
    rw [State.checkRows]
    exact hk
  | succ n ih =>
    rw [State.checkRows]
    exact .checkRange ih

theorem ExceptWf.unlessLodged {s : State} {t : Nat} {tm : Team} {bad : List (Option (Acc × Nat))}
    {k : Except Trap State} (h : s.Wf) (hk : ExceptWf k) :
    ExceptWf (s.unlessLodged t tm bad k) := by
  unfold State.unlessLodged
  split
  · exact .ok (.lsegTrap h)
  · exact hk

theorem ExceptWf.issueCopy {s : State} {t : Nat} {tm : Team} {f : Bool} {d a : BitVec 7}
    {bytes rows spitch dpitch : Nat} {dseg sseg : BitVec 3} {bar : Option Nat} (h : s.Wf) :
    ExceptWf (s.issueCopy t tm f d a bytes rows spitch dpitch dseg sseg bar) :=
  .checkRows (.checkRows (.unlessLodged h (.issueLong h)))

theorem execCpy_wf {bar : Bool} {d a b c : BitVec 7} {gd : Guard} {f : Bool} {dseg sseg : BitVec 3} {s : State}
    (h : s.Wf) :
    OutcomeWf (execCpy bar d a b c gd f dseg sseg s) := by
  unfold execCpy
  refine .guardedInstr h fun _ _ => .ite ?_ (.issueCopy h)
  split
  · exact .error
  · exact .issueCopy h

theorem execCpy2d_wf {d a b c : BitVec 7} {gd : Guard} {f : Bool} {dseg sseg : BitVec 3} {s : State} (h : s.Wf) :
    OutcomeWf (execCpy2d d a b c gd f dseg sseg s) := .guardedInstr h fun _ _ => .issueCopy h

theorem ExceptWf.scalePair {s : State} {t : Nat} {tm : Team} {va : Nat} {k : Nat → State → Except Trap State}
    (h : s.Wf) (hk : ∀ x u, u.Wf → ExceptWf (k x u)) :
    ExceptWf (s.scalePair t tm va k) := by
  dsimp only [State.scalePair]
  split
  · exact .error
  · exact .error
  · exact .ite (.ok h) (.issueDone (.readPast h) fun _ _ h1 => hk _ _ h1)

theorem execCpyMx_wf {d a c : BitVec 7} {gd : Guard} {f : Bool} {dseg sseg : BitVec 3} {s : State} (h : s.Wf) :
    OutcomeWf (execCpyMx d a c gd f dseg sseg s) := by
  unfold execCpyMx
  refine .guardedInstr h (fun _ _ => ?_)
  dsimp only
  split
  · exact .error
  · exact .ite .error (.checkRange (.checkRange (.unlessLodged h (.ite (.scalePair h fun _ _ h1 => .checkRange
      (.checkRange (.unlessLodged h1 (.issueLong h1)))) (.issueLong h)))))

theorem OutcomeWf.laneAsync {i : Instr} {gd : Guard} {f : Bool} {form : Team → MemForm} {s : State} (h : s.Wf) :
    OutcomeWf (Machine.laneAsync i gd f form s) := by
  unfold Machine.laneAsync
  refine .teamInstr h (fun _ _ => .ite (.ok h) ?_)
  dsimp only
  split
  · exact .error
  · split
    · exact .ok (.lsegTrap h)
    · exact .issueLong h

theorem execGath_wf {d a : BitVec 7} {gd : Guard} {f : Bool} {z : BitVec 2} {sg : BitVec 3} {s : State} (h : s.Wf) :
    OutcomeWf (execGath d a gd f z sg s) := .laneAsync h

theorem execScat_wf {d a : BitVec 7} {gd : Guard} {f : Bool} {z : BitVec 2} {sg : BitVec 3} {s : State} (h : s.Wf) :
    OutcomeWf (execScat d a gd f z sg s) := .laneAsync h

theorem State.Wf.carryPoison {s : State} {ps : List Piece} {bad : List Bool} (h : s.Wf) :
    (s.carryPoison ps bad).Wf := by
  induction ps generalizing s bad with
  | nil =>
    rw [State.carryPoison]
    exact h
  | cons x ps ih =>
    rw [State.carryPoison]
    exact ih (.foldl h fun _ _ h1 => .ite (.setPoison h1) h1)

theorem State.Wf.copyPiece {s : State} {id : Nat} {w : Who} {src dst len : Nat} {sl dl : Bool} {open_ : Nat → Bool}
    (h : s.Wf) :
    (s.copyPiece id w src dst len sl dl open_).2.2.Wf := by
  unfold State.copyPiece
  dsimp only
  split
  next u e => exact .snd e (.piecesOf h)
  next u e =>
    split
    next u1 e1 => exact .snd e1 (.piecesOf (.snd e (.piecesOf h)))
    next u1 e1 =>
      split
      next u2 e2 => exact .carryPoison (.setOp (.snd e2 (.writeAt (.snd e1 (.piecesOf (.snd e (.piecesOf h)))))))
      next u2 _ e2 => exact .snd e2 (.writeAt (.snd e1 (.piecesOf (.snd e (.piecesOf h)))))

theorem State.Wf.openLate {s : State} {id : Nat} (h : s.Wf) :
    (s.openLate id).Wf := .putCells (.free h)

theorem State.Wf.chunkAt {s : State} {w : Who} {l : Bool} {va : Nat} (h : s.Wf) :
    (s.chunkAt w l va).2.Wf := by
  unfold State.chunkAt
  split
  next u e => exact .snd e (.piecesOf h)
  next u e => exact .snd e (.piecesOf h)

theorem State.Wf.chunkBase {s : State} {w : Who} {l : Bool} {src n : Nat} (h : s.Wf) :
    (s.chunkBase w l src n).2.2.Wf := by
  induction n with
  | zero =>
    rw [State.chunkBase]
    exact h
  | succ n ih =>
    rw [State.chunkBase]
    split
    next u e =>
      split
      next u1 e1 => exact .snd e1 (.chunkAt (.thd e ih))
      next u1 e1 =>
        split
        · exact .snd e1 (.chunkAt (.thd e ih))
        · exact .snd e1 (.chunkAt (.thd e ih))
    · exact ih

theorem State.Wf.chunkFor {s : State} {w : Who} {l : Bool} {src i : Nat} (h : s.Wf) :
    (s.chunkFor w l src i).2.Wf := by
  unfold State.chunkFor
  split
  next u e =>
    split
    next u1 e1 => exact .snd e1 (.chunkAt (.thd e (.chunkBase h)))
    next u1 e1 =>
      exact .iteSnd (.snd e1 (.chunkAt (.thd e (.chunkBase h)))) (.snd e1 (.chunkAt (.thd e (.chunkBase h))))
  next u e => exact .thd e (.chunkBase h)

theorem State.Wf.readEcbAt {s : State} {w : Who} {l : Bool} {src i : Nat} (h : s.Wf) :
    (s.readEcbAt w l src i).2.Wf := by
  unfold State.readEcbAt
  split
  next u e => exact .snd e (.chunkFor h)
  next u e => exact .snd e (.chunkFor h)

theorem State.Wf.readBlockAt {s : State} {w : Who} {l : Bool} {src fmt sck sbase i : Nat} (h : s.Wf) :
    (s.readBlockAt w l src fmt sck sbase i).2.Wf := by
  unfold State.readBlockAt
  refine .iteSnd (.readEcbAt h) ?_
  dsimp only
  split
  next u e =>
    refine .iteSnd (.snd e (.readRange h)) ?_
    split
    next u1 e1 => exact .snd e1 (.readRange (.snd e (.readRange h)))
    next u1 _ e1 => exact .snd e1 (.readRange (.snd e (.readRange h)))
  next u _ e => exact .snd e (.readRange h)

theorem State.Wf.writeBlock {s : State} {id : Nat} {w : Who} {l : Bool} {va : Nat} {bs : List Byte}
    {scale : Option (Nat × Nat)} (h : s.Wf) :
    (s.writeBlock id w l va bs scale).2.2.Wf := by
  unfold State.writeBlock
  split
  · split
    rename_i u e
    exact .snd e (.writeRange h)
  · exact .writeTwo h

theorem State.Wf.convBlock {s : State} {id : Nat} {w : Who} {c : Conv} {i : Nat} (h : s.Wf) :
    (s.convBlock id w c i).2.2.Wf := by
  unfold State.convBlock
  dsimp only
  split
  next u e => exact .snd e (.readBlockAt h)
  next u e =>
    split
    next u1 e1 => exact .thd e1 (.writeBlock (.snd e (.readBlockAt h)))
    · exact .writeBlock (.snd e (.readBlockAt h))

theorem State.Wf.convUnit {s : State} {id : Nat} {w : Who} {c : Conv} {i : Nat} (h : s.Wf) :
    (s.convUnit id w c i).2.2.Wf := by
  dsimp only [State.convUnit]
  split
  · exact h
  · exact .convBlock h

theorem State.Wf.noteError {s : State} {id : Nat} {code : BitVec 8} {va : Nat} (h : s.Wf) :
    (s.noteError id code va).Wf := by
  dsimp only [State.noteError]
  split
  · exact .takeAtHeader (.modTeam (.setOp h))
  · exact h

theorem State.Wf.settleUnit {id i : Nat} {r : Done × Nat × State} (h : r.2.2.Wf) :
    (Machine.State.settleUnit id i r).Wf := by
  dsimp only [State.settleUnit]
  split
  next u => exact .setOp h
  next u => exact .holdUnit h
  next u => exact h
  next u => exact .noteError (.setOp h)
  next u => exact .noteError (.setOp h)

theorem State.Wf.asyncUnit {s : State} {id t i : Nat} (h : s.Wf) :
    (s.asyncUnit id t i).2.2.Wf := by
  dsimp only [State.asyncUnit]
  split
  · split
    · exact .copyPiece h
    · exact h
  · exact .convUnit h
  · exact h

theorem State.Wf.asyncUnits {s : State} {id t : Nat} {l : List Nat} (h : s.Wf) :
    (s.asyncUnits id t l).Wf := by
  induction l generalizing s with
  | nil =>
    rw [State.asyncUnits]
    exact h
  | cons x l ih =>
    rw [State.asyncUnits]
    exact ih (.settleUnit (.asyncUnit h))

theorem State.Wf.unitOrder {s : State} {id : Nat} (h : s.Wf) :
    (s.unitOrder id).2.Wf := .free h

theorem State.Wf.finishAsync {s : State} {id : Nat} (h : s.Wf) :
    (s.finishAsync id).Wf := by
  dsimp only [State.finishAsync]
  refine .ite (.finishOp ?_) h
  split
  · split
    · exact .arrive (.releaseFenced (.openLate h))
    · exact .openLate h
  · exact h

theorem State.Wf.laneUnits {s : State} {id : Nat} {l : List Nat} (h : s.Wf) :
    (s.laneUnits id l).Wf := by
  induction l generalizing s with
  | nil =>
    rw [State.laneUnits]
    exact h
  | cons x l ih =>
    rw [State.laneUnits]
    exact ih (.runUnit h)

theorem execAsyncComplete_wf {op : Nat} {s : State} (h : s.Wf) :
    OutcomeWf (execAsyncComplete op s) := by
  unfold execAsyncComplete
  split
  · exact .next h
  · split
    · split
      · exact .next (.nodeqDone h)
      · exact .ite (.next (.ite (.finishOp h) (.laneUnits h))) (.next h)
      · refine .ite (.next h) ?_
        split
        rename_i u e
        exact .next (.finishAsync (.asyncUnits (.snd e (.unitOrder (.releaseFenced h)))))
      · refine .ite (.next h) ?_
        split
        rename_i u e
        exact .next (.finishAsync (.asyncUnits (.snd e (.unitOrder (.releaseFenced h)))))
      · exact .next h
    · exact .next h

theorem OutcomeWf.matInstr {i : Instr} {gd : Guard} {f : Bool} {s : State} {body : Nat → Team → Except Trap State}
    (h : s.Wf) (hbody : ∀ x y, ExceptWf (body x y)) :
    OutcomeWf (Machine.matInstr i gd f s body) := .guardedUnit h fun _ _ => hbody _ _

theorem State.Wf.insertMat {s : State} {cl eng id : Nat} (h : s.Wf) :
    (s.insertMat cl eng id).Wf := .modCluster (.setOp h)

theorem ExceptWf.enqueueMat {s : State} {t : Nat} {tm : Team} {f : Bool} {m : MatOp} (h : s.Wf) :
    ExceptWf (s.enqueueMat t tm f m) := by
  unfold State.enqueueMat
  split
  · exact .error
  · exact .ite (.ok h) (.map (.issueLong h) fun _ h1 => .insertMat h1)

theorem ExceptWf.checkAll {s : State} {tm : Team} {sg : BitVec 3} {need : Need} {k : Except Trap State}
    {l : List (Int × Nat)} (hk : ExceptWf k) :
    ExceptWf (s.checkAll tm sg need k l) := by
  induction l with
  | nil =>
    rw [State.checkAll]
    exact hk
  | cons x l ih =>
    rw [State.checkAll]
    exact .checkRange ih

theorem ExceptWf.withScales {s : State} {t : Nat} {tm : Team} {pair : Nat} {second : Bool} {sg : BitVec 3}
    {need : Need} {ranges : Nat → List (Int × Nat)} {k : Nat → State → Except Trap State} (h : s.Wf)
    (hk : ∀ x u, u.Wf → ExceptWf (k x u)) :
    ExceptWf (s.withScales t tm pair second sg need ranges k) := .scalePair h fun _ _ h1 => .checkAll (hk _ _ h1)

theorem execMfill_wf {a b : BitVec 7} {gd : Guard} {f sp : Bool} {s : State} (h : s.Wf) :
    OutcomeWf (execMfill a b gd f sp s) := by
  unfold execMfill
  refine .matInstr h (fun _ _ => ?_)
  dsimp only
  split
  · exact .error
  · exact .ite (.checkAll (.enqueueMat h)) (.ite .error (.checkAll (.withScales h fun _ _ h1 => .enqueueMat h1)))

theorem execMloopIp_wf {a : BitVec 7} {gd : Guard} {f : Bool} {s : State} (h : s.Wf) :
    OutcomeWf (execMloopIp a gd f s) := by
  unfold execMloopIp
  refine .matInstr h (fun _ _ => ?_)
  dsimp only
  split
  · exact .error
  · exact .ite (.checkAll (.enqueueMat h)) (.ite .error (.checkAll (.withScales h fun _ _ h1 => .enqueueMat h1)))

theorem ExceptWf.checkHeader {s : State} {tm : Team} {d : Loop} {k : Except Trap State} (hk : ExceptWf k) :
    ExceptWf (s.checkHeader tm d k) := .ite .error (.checkRange hk)

theorem execMloopOp_wf {a : BitVec 7} {gd : Guard} {f : Bool} {s : State} (h : s.Wf) :
    OutcomeWf (execMloopOp a gd f s) := .guardedUnit h fun _ _ => .ite (.checkHeader (.enqueueMat h)) .error

theorem execMloopRw_wf {a : BitVec 7} {gd : Guard} {f : Bool} {s : State} (h : s.Wf) :
    OutcomeWf (execMloopRw a gd f s) := .matInstr h fun _ _ => .ite (.checkHeader (.enqueueMat h)) .error

theorem execMdrain_wf {a b : BitVec 7} {gd : Guard} {f sp : Bool} {s : State} (h : s.Wf) :
    OutcomeWf (execMdrain a b gd f sp s) := by
  unfold execMdrain
  refine .matInstr h (fun _ _ => ?_)
  dsimp only
  split
  · exact .error
  · exact .ite (.checkAll (.enqueueMat h)) (.ite .error (.checkAll (.withScales h fun _ _ h1 => .enqueueMat h1)))

theorem execMzero_wf {gd : Guard} {f bank : Bool} {s : State} (h : s.Wf) :
    OutcomeWf (execMzero gd f bank s) := .matInstr h fun _ _ => .enqueueMat h

theorem State.Wf.fillBlock {s : State} {w : Who} {l : Bool} {src fmt sck scale nblk cstr j i : Nat} (h : s.Wf) :
    (s.fillBlock w l src fmt sck scale nblk cstr j i).2.Wf := by
  dsimp only [State.fillBlock]
  refine .iteSnd ?_ ?_
  · split
    next u e => exact .snd e (.chunkFor h)
    next u e =>
      split
      · exact .snd e (.chunkFor h)
      · exact .snd e (.chunkFor h)
  · split
    next u e =>
      refine .iteSnd (.snd e (.readRange h)) ?_
      split
      next u1 e1 => exact .snd e1 (.readRange (.snd e (.readRange h)))
      next u1 _ e1 => exact .snd e1 (.readRange (.snd e (.readRange h)))
    next u _ e => exact .snd e (.readRange h)

theorem State.Wf.runFill {s : State} {w : Who} {l : Bool} {src fmt sck scale nblk cstr boff : Nat} {r : MatRun}
    {l1 : List (Nat × Nat)} (h : s.Wf) :
    (s.runFill w l src fmt sck scale nblk cstr boff r l1).2.Wf := by
  induction l1 generalizing s r with
  | nil =>
    rw [State.runFill]
    exact h
  | cons x l1 ih =>
    rw [State.runFill]
    dsimp only
    split
    next u e => exact ih (.snd e (.fillBlock h))
    next u e =>
      split
      · exact .snd e (.fillBlock h)
      · exact ih (.snd e (.fillBlock h))

theorem State.Wf.aBlock {s : State} {w : Who} {l : Bool} {a afmt asck astr ainc scale sstr i k : Nat} (h : s.Wf) :
    (s.aBlock w l a afmt asck astr ainc scale sstr i k).2.Wf := .iteSnd (.readEcbAt h) (.readBlockAt h)

theorem State.Wf.aBlocks {s : State} {w : Who} {l : Bool} {a afmt asck astr ainc scale sstr k : Nat}
    {l1 : List Nat} (h : s.Wf) :
    (s.aBlocks w l a afmt asck astr ainc scale sstr k l1).2.Wf := by
  induction l1 generalizing s with
  | nil =>
    rw [State.aBlocks]
    exact h
  | cons x l1 ih =>
    rw [State.aBlocks]
    split
    next u e => exact .snd e (.aBlock h)
    next u e =>
      split
      next u1 e1 => exact .snd e1 (ih (.snd e (.aBlock h)))
      next u1 e1 => exact .snd e1 (ih (.snd e (.aBlock h)))

theorem State.Wf.ipSteps {s : State} {w : Who} {l : Bool}
    {a afmt asck astr ainc scale sstr bfmt boff bank rows k : Nat} {r : MatRun} {n : Nat} (h : s.Wf) :
    (s.ipSteps w l a afmt asck astr ainc scale sstr bfmt boff bank rows k r n).2.Wf := by
  induction n generalizing s k r with
  | zero =>
    rw [State.ipSteps]
    exact h
  | succ n ih =>
    rw [State.ipSteps]
    dsimp only
    split
    next u e => exact .snd e (.aBlocks h)
    next u e => exact .iteSnd (.snd e (.aBlocks h)) (ih (.snd e (.aBlocks h)))

theorem State.Wf.arrayRead {s : State} {w : Who} {sg : W128} {va : Int} {n : Nat} (h : s.Wf) :
    (s.arrayRead w sg va n).2.Wf := by
  unfold State.arrayRead
  split
  · split
    next u e => exact .snd e (.readRange h)
    next u _ e => exact .snd e (.readRange h)
  · exact h

theorem State.Wf.arrayWord {s : State} {w : Who} {sg : W128} {base i : Nat} (h : s.Wf) :
    (s.arrayWord w sg base i).2.Wf := .arrayRead h

theorem State.Wf.rowEntries {s : State} {w : Who} {sg : W128} {coli val vfmt kb span p n : Nat} (h : s.Wf) :
    (s.rowEntries w sg coli val vfmt kb span p n).2.Wf := by
  delta State.rowEntries
  refine brecOn_nat (P := fun _ (f : State → Nat → Except MatEnd (List (Nat × Val)) × State) => ∀ s p, s.Wf →
    (f s p).2.Wf)
    (fun _ _ _ h => h) (fun n below ih s p h => ?_) n s p h
  delta State.rowEntries._f
  dsimp only
  split
  next u e => exact .snd e (.arrayWord h)
  next k u e =>
    have first : u.Wf := .snd e (.arrayWord h)
    refine .iteSnd ?_ (ih _ _ first)
    split
    next u1 e1 => exact .snd e1 (.arrayRead first)
    next u1 e1 =>
      have rest := ih _ (p + 1) (.snd e1 (.arrayRead first))
      split
      next e2 => exact .snd e2 rest
      next e2 => exact .snd e2 rest

theorem State.Wf.rwRows {s : State} {w : Who} {sg : W128} {rowp coli val vfmt kb span bank bfmt boff row n : Nat}
    {r : MatRun}
    (h : s.Wf) : (s.rwRows w sg rowp coli val vfmt kb span bank bfmt boff row r n).2.Wf := by
  delta State.rwRows
  refine brecOn_nat (P := fun _ (f : State → Nat → MatRun → MatRun × State) => ∀ s row r, s.Wf → (f s row r).2.Wf)
    (fun _ _ _ _ h => h) (fun n below ih s row r h => ?_) n s row r h
  delta State.rwRows._f
  dsimp only
  split
  next u e => exact .snd e (.arrayWord h)
  next lo u e =>
    have first : u.Wf := .snd e (.arrayWord h)
    split
    next u1 e1 => exact .snd e1 (.arrayWord first)
    next hi u1 e1 =>
      have second : u1.Wf := .snd e1 (.arrayWord first)
      refine .iteSnd second ?_
      split
      next u2 e2 => exact .snd e2 (.rowEntries second)
      next u2 e2 => exact .iteSnd (.snd e2 (.rowEntries second)) (ih _ _ _ (.free (.snd e2 (.rowEntries second))))

theorem State.Wf.runRw {s : State} {w : Who} {hdr bfmt boff bank steps : Nat} {clr : Bool} {sg : W128}
    {c : Cluster} (h : s.Wf) :
    (s.runRw w hdr bfmt boff bank steps clr sg c).2.Wf := by
  dsimp only [State.runRw]
  split
  next u e => exact .iteSnd (.rwRows (.snd e (.readRange h))) (.snd e (.readRange h))
  next u _ e => exact .snd e (.readRange h)

theorem State.Wf.pairsOf {s : State} {w : Who} {sg : W128} {idx val vfmt p n : Nat} (h : s.Wf) :
    (s.pairsOf w sg idx val vfmt p n).2.Wf := by
  delta State.pairsOf
  refine brecOn_nat (P := fun _ (f : State → Nat → Except MatEnd (List (Nat × Val)) × State) => ∀ s p, s.Wf →
    (f s p).2.Wf)
    (fun _ _ _ h => h) (fun n below ih s p h => ?_) n s p h
  delta State.pairsOf._f
  dsimp only
  split
  next u e => exact .snd e (.arrayWord h)
  next u e =>
    split
    next u1 e1 => exact .snd e1 (.arrayRead (.snd e (.arrayWord h)))
    next u1 e1 =>
      have rest := ih _ (p + 1) (.snd e1 (.arrayRead (.snd e (.arrayWord h))))
      split
      next e2 => exact .snd e2 rest
      next e2 => exact .snd e2 rest

theorem State.Wf.compressed {s : State} {w : Who} {sg : W128} {ptr idx val vfmt k most excess : Nat} (h : s.Wf) :
    (s.compressed w sg ptr idx val vfmt k most excess).2.Wf := by
  unfold State.compressed
  split
  next u e => exact .snd e (.arrayWord h)
  next u e =>
    split
    next u1 e1 => exact .snd e1 (.arrayWord (.snd e (.arrayWord h)))
    next u1 e1 =>
      refine .iteSnd (.snd e1 (.arrayWord (.snd e (.arrayWord h)))) (.iteSnd (.snd e1
        (.arrayWord (.snd e (.arrayWord h)))) ?_)
      split
      next u2 e2 => exact .snd e2 (.pairsOf (.snd e1 (.arrayWord (.snd e (.arrayWord h)))))
      next u2 e2 => exact .snd e2 (.pairsOf (.snd e1 (.arrayWord (.snd e (.arrayWord h)))))

theorem State.Wf.opSums {s : State} {w : Who} {sg : W128} {hd k n : Nat} {m : Merge} (h : s.Wf) :
    (s.opSums w sg hd k m n).2.2.Wf := by
  delta State.opSums
  refine brecOn_nat (P := fun _ (f : State → Nat → Merge → Option OpEnd × Merge × State) => ∀ s k m, s.Wf →
    (f s k m).2.2.Wf)
    (fun _ _ _ _ h => h) (fun n below ih s k m h => ?_) n s k m h
  delta State.opSums._f
  dsimp only
  split
  next u e => exact .snd e (.compressed h)
  next u e =>
    split
    next u1 e1 => exact .snd e1 (.compressed (.snd e (.compressed h)))
    next u1 e1 => exact ih _ _ _ (.snd e1 (.compressed (.snd e (.compressed h))))

theorem State.Wf.arrayWrite {s : State} {id : Nat} {w : Who} {sg : W128} {va : Nat} {bs : List Byte} (h : s.Wf) :
    (s.arrayWrite id w sg va bs).2.Wf := by
  unfold State.arrayWrite
  refine .iteSnd h ?_
  split
  · split
    next u e => exact .snd e (.writeRange h)
    next u _ e => exact .snd e (.writeRange h)
  · exact h

theorem State.Wf.putEntries {s : State} {id : Nat} {w : Who} {sg : W128} {ent i : Nat} {l : List (Nat × W32)}
    (h : s.Wf) :
    (s.putEntries id w sg ent i l).2.2.Wf := by
  delta State.putEntries
  refine brecOn_list (P := fun _ (f : State → Nat → MatEnd × Nat × State) => ∀ s i, s.Wf → (f s i).2.2.Wf)
    (fun _ _ _ h => h)
    (fun e l below ih s i h => ?_) l s i h
  delta State.putEntries._f
  dsimp only
  split
  next u e1 => exact ih _ _ (.snd e1 (.arrayWrite h))
  next u _ e1 => exact .snd e1 (.arrayWrite h)

theorem State.Wf.spillNeed {s : State} {sums count : Nat} (h : s.Wf) :
    (s.spillNeed sums count).2.Wf := by
  unfold State.spillNeed
  refine .iteSnd h ?_
  split
  rename_i u e
  exact .snd e (.free h)

theorem State.Wf.opFinish {s : State} {id : Nat} {w : Who} {sg : W128} {r : MatRun} {out cnt status : Nat}
    (h : s.Wf) :
    (s.opFinish id w sg r out cnt status).2.Wf := by
  unfold State.opFinish
  split
  next u e =>
    split
    next u1 e1 =>
      exact .iteSnd (.snd e1 (.arrayWrite (.snd e (.arrayWrite h)))) (.snd e1 (.arrayWrite (.snd e (.arrayWrite h))))
    next u1 _ e1 => exact .snd e1 (.arrayWrite (.snd e (.arrayWrite h)))
  next u _ e => exact .snd e (.arrayWrite h)

theorem State.Wf.opStop {s : State} {id : Nat} {w : Who} {sg : W128} {r : MatRun} {out : Nat} {e : MatEnd}
    (h : s.Wf) :
    (s.opStop id w sg r out e).2.Wf := by
  unfold State.opStop
  split
  · exact h
  · split
    next u e1 => exact .snd e1 (.arrayWrite h)
    next u _ e1 => exact .snd e1 (.arrayWrite h)

theorem State.Wf.opOutput {s : State} {id : Nat} {w : Who} {sg : W128} {r : MatRun} {out o : Nat} {t : Tbl W32}
    {count : Nat}
    (h : s.Wf) : (s.opOutput id w sg r out o t count).2.Wf := by
  unfold State.opOutput
  extract_lets ent cap spill scap
  have start : (match (s.op id).written with
      | [i, need] => (i, need, s)
      | _ =>
        let (need, s) := s.spillNeed t.length count
        (0, need, s)).2.2.Wf := by
    split
    · exact h
    · exact .spillNeed h
  split
  next first need u e =>
    have hu : u.Wf := .thd e start
    have filled : (if first = 0 then u.free (Nat.min need scap) else ([], u)).2.Wf := .iteSnd (.free hu) hu
    split
    next vs u1 e1 =>
      have hu1 : u1.Wf := .snd e1 filled
      split
      next u2 e2 =>
        have hu2 : u2.Wf := .snd e2 (.arrayWrite hu1)
        refine .iteSnd (.opFinish hu2) ?_
        split
        next i u3 e3 =>
          have hu3 : u3.Wf := .thd e3 (.putEntries hu2)
          dsimp only
          split
          · exact .opFinish hu3
          · exact .opStop hu3
      next u2 _ e2 => exact .opStop (.snd e2 (.arrayWrite hu1))

theorem State.Wf.runOp {s : State} {id : Nat} {w : Who} {hdr steps : Nat} {sg : W128} {c : Cluster} (h : s.Wf) :
    (s.runOp id w hdr steps sg c).2.Wf := by
  dsimp only [State.runOp]
  split
  next u e =>
    split
    next u1 e1 => exact .snd e1 (.arrayRead (.snd e (.readRange h)))
    next u1 e1 =>
      refine .iteSnd (.opStop (.snd e1 (.arrayRead (.snd e (.readRange h))))) ?_
      split
      · exact .opFinish (.opSums (.snd e1 (.arrayRead (.snd e (.readRange h)))))
      · exact .opStop (.opSums (.snd e1 (.arrayRead (.snd e (.readRange h)))))
      · exact .opOutput (.opSums (.snd e1 (.arrayRead (.snd e (.readRange h)))))
  next u _ e => exact .snd e (.readRange h)

theorem State.Wf.drainBlock {s : State} {id : Nat} {w : Who} {l : Bool} {c : Cluster}
    {bank row b dst fmt sck rnd : Nat} {sat : Bool} {scale : Nat} (h : s.Wf) :
    (s.drainBlock id w l c bank row b dst fmt sck rnd sat scale).2.Wf := by
  dsimp only [State.drainBlock]
  split
  next u e =>
    refine .iteSnd ?_ (.thd e (.writeBlock h))
    split
    next u1 e1 => exact .carryPoison (.snd e1 (.piecesOf (.thd e (.writeBlock h))))
    next u1 e1 => exact .snd e1 (.piecesOf (.thd e (.writeBlock h)))
  next u _ e => exact .thd e (.writeBlock h)

theorem State.Wf.runDrain {s : State} {id : Nat} {w : Who} {l : Bool} {bank dst dstr fmt sck rnd : Nat}
    {sat : Bool} {scale : Nat} {r : MatRun} {l1 : List (Nat × Nat)} (h : s.Wf) :
    (s.runDrain id w l bank dst dstr fmt sck rnd sat scale r l1).2.Wf := by
  induction l1 generalizing s r with
  | nil =>
    rw [State.runDrain]
    exact h
  | cons x l1 ih =>
    rw [State.runDrain]
    refine .iteSnd (ih h) ?_
    dsimp only
    split
    · exact ih (.drainBlock h)
    · exact .drainBlock h
    · exact ih (.drainBlock h)

theorem State.Wf.runMat {s : State} {id : Nat} {w : Who} {m : MatOp} (h : s.Wf) :
    (s.runMat id w m).2.Wf := by
  dsimp only [State.runMat]
  split
  · exact .runFill h
  · exact .ipSteps h
  · exact .runOp h
  · exact .runRw h
  · exact .runDrain h
  · exact h

theorem State.Wf.noteErrors {s : State} {id : Nat} {l : List (BitVec 8 × Nat)} (h : s.Wf) :
    (s.noteErrors id l).Wf := by
  induction l generalizing s with
  | nil =>
    rw [State.noteErrors]
    exact h
  | cons x l ih =>
    rw [State.noteErrors]
    exact ih (.noteError h)

theorem State.Wf.endMat {s : State} {cl id t : Nat} {m : MatOp} {r : MatRun} (h : s.Wf) :
    (s.endMat cl id t m r).Wf := by
  dsimp only [State.endMat]
  refine .takeAtHeader (.finishOp ?_)
  split
  · exact .noteErrors (.setOp (.modCluster h))
  · exact .setOp (.modCluster h)

theorem State.Wf.noteWritten {s : State} {id : Nat} {r : MatRun} (h : s.Wf) :
    (s.noteWritten id r).Wf := .setOp h

theorem execMatEntryExecute_wf {cl : Nat} {s : State} (h : s.Wf) :
    OutcomeWf (execMatEntryExecute cl s) := by
  unfold execMatEntryExecute
  dsimp only
  split
  · exact .next h
  · split
    · refine .ite (.next h) ?_
      split
      · exact .next (.holdUnit (.noteWritten (.upd rfl rfl rfl (.runMat (.upd rfl rfl rfl (.releaseFenced h))))))
      · exact .next (.noteWritten (.upd rfl rfl rfl (.runMat (.upd rfl rfl rfl (.releaseFenced h)))))
      · exact .next (.endMat (.upd rfl rfl rfl (.runMat (.upd rfl rfl rfl (.releaseFenced h)))))
    · exact .next h

theorem State.Wf.setRows {s : State} {cl n ramp : Nat} (h : s.Wf) :
    (s.setRows cl n ramp).Wf := h

theorem execRowGroupEnable_wf {cl : Nat} {s : State} (h : s.Wf) :
    OutcomeWf (execRowGroupEnable cl s) := .ite (.next (.setRows h)) (.next h)

theorem execRowGroupDisable_wf {cl : Nat} {s : State} (h : s.Wf) :
    OutcomeWf (execRowGroupDisable cl s) := .ite (.next (.setRows h)) (.next h)

theorem execRampBudgetInterval_wf {s : State} (h : s.Wf) :
    OutcomeWf (execRampBudgetInterval s) := .ite (.next h) (.next h)

end Sys2Proof.Machine
end

section
/-! Canonical form: the ray unit and the raster path. -/

namespace Sys2Proof.Machine

theorem State.Wf.postPoison {s : State} {cl va : Nat} (h : s.Wf) :
    (s.postPoison cl va).Wf := .ite h (.ite (.modCluster h) (.keeperEvent (.modCluster h)))

theorem State.Wf.dropWaymark {s : State} {ctx va : Nat} (h : s.Wf) :
    (s.dropWaymark ctx va).Wf := h

theorem State.Wf.poisonedNode {s : State} {w : Who} {va : Nat} (h : s.Wf) :
    (s.poisonedNode w va).Wf := .upd rfl rfl rfl (.postPoison (.dropWaymark h))

theorem State.Wf.readNode {s : State} {w : Who} {sg : W128} {va : Int} {malformed : Nat → Bool} (h : s.Wf) :
    (s.readNode w sg va malformed).2.Wf := by
  unfold State.readNode
  split
  · split
    next u e => exact .snd e (.loadRange h)
    next u e => exact .poisonedNode (.snd e (.loadRange h))
    next u e => exact .snd e (.loadRange h)
    next u _ _ _ e => exact .snd e (.loadRange h)
  · exact h

theorem State.Wf.walkAll {f : Child → State → WalkEnd} {l : List Child} {s : State} (h : s.Wf)
    (hf : ∀ c u, u.Wf → (f c u).2.Wf) : (Machine.walkAll f l s).2.Wf := by
  induction l generalizing s with
  | nil =>
    rw [Machine.walkAll]
    exact h
  | cons c l ih =>
    rw [Machine.walkAll]
    split
    next e => exact .snd e (hf _ _ h)
    next e =>
      split
      next e1 => exact .snd e1 (ih (.snd e (hf _ _ h)))
      next e1 => exact .snd e1 (ih (.snd e (hf _ _ h)))

theorem State.Wf.walkNode {w : Who} {rq : RayReq} {r : LRay} {leaf : Child → State → WalkEnd} {entry : Ext}
    {va : Int} {s : State}
    {n : Nat} (h : s.Wf) (hf : ∀ c u, u.Wf → (leaf c u).2.Wf) : (Machine.walkNode w rq r leaf entry va s n).2.Wf := by
  induction n generalizing entry va s with
  | zero =>
    rw [Machine.walkNode]
    exact h
  | succ n ih =>
    rw [Machine.walkNode]
    split
    next e => exact .snd e (.readNode h)
    next e => exact .snd e (.readNode h)
    next e => exact .walkAll (.snd e (.readNode h)) fun c u hu => .iteSnd (hf c u hu) (ih hu)

theorem State.Wf.visitTri {w : Who} {rq : RayReq} {r : LRay} {inst : Nat} {ia : Int} {c : Child} {s : State}
    (h : s.Wf) :
    (Machine.visitTri w rq r inst ia c s).2.Wf := by
  unfold Machine.visitTri
  split
  next e => exact .snd e (.readNode h)
  next e => exact .snd e (.readNode h)
  next e => exact .snd e (.readNode h)

theorem State.Wf.visitInst {w : Who} {rq : RayReq} {c : Child} {s : State} (h : s.Wf) :
    (Machine.visitInst w rq c s).2.Wf := by
  unfold Machine.visitInst
  split
  next e => exact .snd e (.readNode h)
  next e => exact .snd e (.readNode h)
  next e => exact .iteSnd (.walkNode (.snd e (.readNode h)) fun _ _ hu => .visitTri hu) (.snd e (.readNode h))

theorem State.Wf.walkRay {s : State} {w : Who} {rq : RayReq} (h : s.Wf) : (s.walkRay w rq).2.Wf :=
  .walkNode h fun _ _ hu => .visitInst hu

theorem State.Wf.countRay {s : State} {launch : Nat} {look hit use : Bool} (h : s.Wf) :
    (s.countRay launch look hit use).Wf := by
  unfold State.countRay
  refine .ite ?_ h
  dsimp only
  exact .setLaunch (.free h)

theorem State.Wf.tryLeaves {s : State} {w : Who} {rq : RayReq} {ia ta : W64} (h : s.Wf) :
    (s.tryLeaves w rq ia ta).2.Wf := by
  dsimp only [State.tryLeaves]
  split
  next u e =>
    split
    next u1 e1 => exact .snd e1 (.readNode (.snd e (.readNode h)))
    · split
      next u1 e1 => exact .snd e1 (.readNode (.snd e (.readNode h)))
      · exact h
  · split
    next u e => exact .snd e (.readNode h)
    · exact h

theorem State.Wf.predict {s : State} {w : Who} {rq : RayReq} {table : Tbl WmEntry} (h : s.Wf) :
    (s.predict w rq table).2.Wf := by
  dsimp only [State.predict]
  refine .iteSnd ?_ h
  split
  · exact h
  · exact .modCluster (.tryLeaves h)

theorem State.Wf.wmWrite {s : State} {w : Who} {rq : RayReq} {h1 : RayHit} (h : s.Wf) :
    (s.wmWrite w rq h1).Wf := .modCluster h

theorem State.Wf.finishRay {s : State} {w : Who} {a : RayLane} (h : s.Wf) :
    (s.finishRay w a).2.Wf := by
  unfold State.finishRay
  split
  · split
    · exact h
    · exact h
    · exact h
    · exact h
    · exact h
  · split
    · exact h
    · exact .wmWrite h

theorem State.Wf.present {s : State} {w : Who} {a : RayLane} (h : s.Wf) :
    (s.present w a).2.Wf := by
  unfold State.present
  split
  · exact h
  · exact .finishRay h

theorem State.Wf.startRay {s : State} {w : Who} {rq : RayReq} {table : Tbl WmEntry} (h : s.Wf) :
    (s.startRay w rq table).2.Wf := by
  unfold State.startRay
  refine .iteSnd h ?_
  split
  next e => exact .snd e (.walkRay h)
  next e => exact .present (.countRay (.predict (.snd e (.walkRay h))))

theorem State.Wf.resumeRay {s : State} {w : Who} {a : RayLane} {accept : Bool} (h : s.Wf) :
    (s.resumeRay w a accept).2.Wf := by
  unfold State.resumeRay
  split
  · exact .finishRay h
  · refine .iteSnd (.finishRay h) (.iteSnd ?_ (.present h))
    split
    next e => exact .snd e (.walkRay h)
    next e => exact .present (.snd e (.walkRay h))

theorem State.Wf.settleRay {s : State} {id i t lane d : Nat} {e : RayEnd} (h : s.Wf) :
    (s.settleRay id i t lane d e).Wf := by
  unfold State.settleRay
  dsimp only
  split
  · exact .holdUnit h
  · exact h
  · exact .setOp h
  · exact .modTeam (.setOp h)

theorem State.Wf.rayUnit {s : State} {id t i : Nat} {table : Tbl WmEntry} (h : s.Wf) :
    (s.rayUnit id t i table).Wf := by
  dsimp only [State.rayUnit]
  split
  · split
    · exact h
    · exact .ite (.settleRay (.startRay h)) h
  · split
    · exact h
    · split
      · exact .setOp h
      · exact .settleRay (.resumeRay h)
  · exact h

theorem State.Wf.rayUnits {s : State} {id t : Nat} {first : Tbl WmEntry} {l : List (Nat × Bool)} (h : s.Wf) :
    (s.rayUnits id t first l).Wf := by
  induction l generalizing s with
  | nil =>
    rw [State.rayUnits]
    exact h
  | cons x l ih =>
    rw [State.rayUnits]
    exact ih (.rayUnit h)

theorem State.Wf.traceLanes {s : State} {id t : Nat} {todo : List Nat} (h : s.Wf) :
    (s.traceLanes id t todo).Wf := by
  unfold State.traceLanes
  dsimp only
  exact .rayUnits (.free h)

theorem State.Wf.rgenAll {s : State} {launch h1 e : Nat} {off : Bool} {l : List Nat} (h : s.Wf) :
    (s.rgenAll launch h1 e off l).Wf := by
  induction l generalizing s with
  | nil =>
    rw [State.rgenAll]
    exact h
  | cons x l ih =>
    rw [State.rgenAll]
    exact ih (.forgetCtx (.modCluster h))

theorem execRayTraceComplete_wf {op : Nat} {s : State} (h : s.Wf) :
    OutcomeWf (execRayTraceComplete op s) := by
  unfold execRayTraceComplete
  dsimp only
  split
  · exact .next h
  · split
    · exact .next (.finishOp (.rgenAll h))
    · exact .ite (.ite (.next h) (.next (.takeAtHeader (.ite (.finishOp (.upd rfl rfl rfl (.traceLanes h)))
        (.upd rfl rfl rfl (.traceLanes h)))))) (.next h)
    · exact .next h

theorem OutcomeWf.rayInstr {i : Instr} {s : State} {body : Nat → Team → Except Trap State} (h : s.Wf)
    (hbody : ∀ x y, ExceptWf (body x y)) :
    OutcomeWf (Machine.rayInstr i s body) := .unitInstr h fun _ _ => .ite (.ok h) (hbody _ _)

theorem execRtrace_wf {d a b : BitVec 7} {gd : Guard} {f : Bool} {h1 : BitVec 4} {sg : BitVec 3} {s : State}
    (h : s.Wf) :
    OutcomeWf (execRtrace d a b gd f h1 sg s) := by
  unfold execRtrace
  refine .rayInstr h (fun _ _ => .ite .error (.checkRange ?_))
  dsimp only
  split
  · exact .error
  · exact .issueLong h

theorem execRcommit_wf {d : BitVec 7} {p : BitVec 3} {gd : Guard} {f : Bool} {s : State} (h : s.Wf) :
    OutcomeWf (execRcommit d p gd f s) := .rayInstr h fun _ _ => .issueLong h

theorem execRgen_wf {gd : Guard} {f off : Bool} {e : BitVec 7} {h1 : BitVec 4} {s : State} (h : s.Wf) :
    OutcomeWf (execRgen gd f off e h1 s) := .guardedUnit h fun _ _ => .issueLong h

theorem execTclass_wf {d a : BitVec 7} {p : BitVec 3} {gd : Guard} {s : State} (h : s.Wf) :
    OutcomeWf (execTclass d a p gd s) := .rayInstr h fun _ _ => .ok (.retireTeam h)

theorem execRast_wf {a c : BitVec 7} {gd : Guard} {f : Bool} {node : BitVec 6} {s : State} (h : s.Wf) :
    OutcomeWf (execRast a c gd f node s) :=
  .unitInstr h fun _ _ => .ite (.ok h) (.ite .error (.map (.issueLong h) fun _ h1 => .ite h1 h1))

theorem State.Wf.endRast {s : State} {die id : Nat} (h : s.Wf) :
    (s.endRast die id).Wf := .upd rfl rfl rfl (.finishOp h)

theorem execRasterTriangle_wf {die : Nat} {s : State} (h : s.Wf) :
    OutcomeWf (execRasterTriangle die s) := by
  unfold execRasterTriangle
  dsimp only
  split
  · exact .next h
  · split
    · refine .ite (.next h) ?_
      split
      · exact .next (.endRast h)
      · exact .next (.ite (.endRast (.postAll (.setOp h))) (.postAll (.setOp h)))
    · exact .next h

end Sys2Proof.Machine
end

section
/-! Canonical form: faults, launches and parked teams. -/

namespace Sys2Proof.Machine

theorem State.Wf.settleHeaders {s : State} (h : s.Wf) :
    s.settleHeaders.Wf := h

theorem State.Wf.wakeSlot {s : State} {token k : Nat} (h : s.Wf) :
    (s.wakeSlot token k).Wf := by
  dsimp only [State.wakeSlot]
  split
  · exact .ite (.setSlot h) h
  · exact .ite (.redispatch h) h
  · exact h

theorem State.Wf.wakeSlots {s : State} {token : Nat} {l : List Nat} (h : s.Wf) :
    (s.wakeSlots token l).Wf := by
  induction l generalizing s with
  | nil =>
    rw [State.wakeSlots]
    exact h
  | cons x l ih =>
    rw [State.wakeSlots]
    exact ih (.wakeSlot h)

theorem State.Wf.dropGroup {s : State} {token : Nat} (h : s.Wf) :
    (s.dropGroup token).Wf := h

theorem State.Wf.retryToken {s : State} {token : Nat} (h : s.Wf) :
    (s.retryToken token).Wf := .settleHeaders (.wakeSlots h)

theorem State.Wf.retryTokens {s : State} {l : List Nat} (h : s.Wf) :
    (s.retryTokens l).Wf := by
  induction l generalizing s with
  | nil =>
    rw [State.retryTokens]
    exact h
  | cons x l ih =>
    rw [State.retryTokens]
    exact ih (.retryToken h)

theorem State.Wf.wakeSilent {s : State} (h : s.Wf) :
    s.wakeSilent.Wf := .retryTokens h

theorem State.Wf.failCopy {s : State} {id i va : Nat} (h : s.Wf) :
    (s.failCopy id i va).Wf := by
  dsimp only [State.failCopy]
  split
  · exact .finishAsync (.settleUnit h)
  · exact .settleUnit h

theorem State.Wf.modOp {s : State} {id : Nat} {f : Op → Op} (h : s.Wf) :
    (s.modOp id f).Wf := .setOp h

theorem State.Wf.failUnit {s : State} {id i page : Nat} {g : Nat × Nat × Nat} (h : s.Wf) :
    (s.failUnit id i page g).Wf := by
  dsimp only [State.failUnit]
  split
  · exact .deferError h
  · exact .failCopy h
  · exact .failCopy h
  · exact .setOp h

theorem State.Wf.failUnits {s : State} {id page : Nat} {g : Nat × Nat × Nat} {l : List Nat} (h : s.Wf) :
    (s.failUnits id page g l).Wf := by
  induction l generalizing s with
  | nil =>
    rw [State.failUnits]
    exact h
  | cons x l ih =>
    rw [State.failUnits]
    exact ih (.failUnit (.modOp h))

theorem State.Wf.failOps {s : State} {token page : Nat} {g : Nat × Nat × Nat} {l : List (Nat × Op)} (h : s.Wf) :
    (s.failOps token page g l).Wf := by
  induction l generalizing s with
  | nil =>
    rw [State.failOps]
    exact h
  | cons x l ih =>
    rw [State.failOps]
    exact ih (.failUnits h)

theorem State.Wf.unclaim {s : State} {t : Nat} (h : s.Wf) :
    (s.unclaim t).Wf := .ite h (.setTeam (.getD (.tryWrite h) h))

theorem State.Wf.abandonPark {s : State} {t : Nat} (h : s.Wf) :
    (s.abandonPark t).Wf := .upd rfl rfl rfl (.unclaim h)

theorem State.Wf.failTeam {s : State} {token t : Nat} (h : s.Wf) :
    (s.failTeam token t).Wf := by
  dsimp only [State.failTeam]
  refine .ite (.ite (.abandonPark h) (.killTeam (.setTeam h))) ?_
  split
  · exact .ite (.ite (.killTeam (.setTeam h)) (.teamTrap (.setTeam h))) h
  · exact h

theorem State.Wf.failTeams {s : State} {token : Nat} {l : List Nat} (h : s.Wf) :
    (s.failTeams token l).Wf := by
  induction l generalizing s with
  | nil =>
    rw [State.failTeams]
    exact h
  | cons x l ih =>
    rw [State.failTeams]
    exact ih (.failTeam h)

theorem State.Wf.failSlot {s : State} {token k : Nat} (h : s.Wf) :
    (s.failSlot token k).Wf := by
  dsimp only [State.failSlot]
  split
  · exact .ite (.keeperTrap (.setSlot h)) h
  · exact .ite (.keeperTrap (.setSlot h)) h
  · exact h

theorem State.Wf.failSlots {s : State} {token : Nat} {l : List Nat} (h : s.Wf) :
    (s.failSlots token l).Wf := by
  induction l generalizing s with
  | nil =>
    rw [State.failSlots]
    exact h
  | cons x l ih =>
    rw [State.failSlots]
    exact ih (.failSlot h)

theorem State.Wf.failGroup {s : State} {g : Group} (h : s.Wf) :
    (s.failGroup g).Wf := .settleHeaders (.failSlots (.failTeams (.failOps (.dropGroup h))))

theorem State.Wf.shootPage {s : State} {ctx va : Nat} (h : s.Wf) :
    (s.shootPage ctx va).Wf := .dropLeaves h

theorem State.Wf.drainers {s : State} {n : Nat} {f : Part → Part} (h : s.Wf) :
    (s.drainers n f).Wf := h

theorem State.Wf.checkDrain {s : State} {n : Nat} (h : s.Wf) :
    (s.checkDrain n).Wf := .ite h h

theorem State.Wf.checkWays {s : State} (h : s.Wf) :
    s.checkWays.Wf := h

theorem State.Wf.checkDrains {s : State} (h : s.Wf) :
    s.checkDrains.Wf := .checkWays (.foldl h fun _ _ h1 => .checkDrain h1)

theorem State.Wf.setPage {s : State} {ctx level va : Nat} {p : LPage} (h : s.Wf) :
    (s.setPage ctx level va p).Wf := h

theorem State.Wf.settlePage {s : State} {ctx level va : Nat} (h : s.Wf) :
    (s.settlePage ctx level va).Wf := .checkDrains (.setPage h)

theorem State.Wf.wakePage {s : State} {ctx level va : Nat} (h : s.Wf) :
    (s.wakePage ctx level va).Wf := .retryTokens h

theorem State.Wf.freeLines {s : State} {l : List Nat} (h : s.Wf) :
    (s.freeLines l).Wf := by
  induction l generalizing s with
  | nil =>
    rw [State.freeLines]
    exact h
  | cons x l ih =>
    rw [State.freeLines]
    exact ih (.freeLine h)

theorem State.Wf.freePage {s : State} {ctx level va : Nat} (h : s.Wf) :
    (s.freePage ctx level va).Wf := .freeLines h

theorem State.Wf.settleStores {s : State} {ctx level va : Nat} (h : s.Wf) :
    (s.settleStores ctx level va).Wf := .performStores h

theorem OptionSndWf.takeLateFrame {s : State} {part : Nat} (h : s.Wf) :
    OptionSndWf (s.takeLateFrame part) := .ite .none (.some (.setPart h))

theorem State.Wf.copyToFrame {s : State} {ctx va frame : Nat} (h : s.Wf) : (s.copyToFrame ctx va frame).Wf := by
  dsimp only [State.copyToFrame]
  refine .foldl (.foldl ?_ fun _ _ h1 => .setByte h1) fun _ _ h1 => .setPoison h1
  exact of_tables h (Memory.filter_wf _ _) id (Tbl.wf_filter _ _ _)

theorem State.Wf.finishLate {s : State} {part ctx va frame : Nat} (h : s.Wf) :
    (s.finishLate part ctx va frame).Wf := by
  unfold State.finishLate
  dsimp only
  split
  · exact .ite (.wakePage (.settlePage h)) (.postFault (.wakePage (.settlePage (.freePage
      (.shootPage (.writeKey (.copyToFrame h)))))))
  · exact .wakePage (.settlePage h)

theorem State.Wf.enterEvictwait {s : State} {part ctx level va home : Nat} (h : s.Wf) :
    (s.enterEvictwait part ctx level va home).Wf := .postFault (.setPage (.modCluster (.newToken h)))

theorem State.Wf.forcePage {s : State} {part ctx va level e : Nat} {late : Bool} (h : s.Wf) :
    (s.forcePage part ctx va level e late).Wf := by
  dsimp only [State.forcePage]
  split
  next u e1 => exact .setPage (.settleStores (.sndSome e1 (.ite (.takeLateFrame h) .none)))
  next e1 => exact .ite h (.enterEvictwait h)

theorem State.Wf.finishMove {s : State} {part ctx level va dest home : Nat} {was : Option Nat}
    {charges : List (Nat × Option Nat)} (h : s.Wf) :
    (s.finishMove part ctx level va dest home was charges).Wf := by
  dsimp only [State.finishMove]
  split
  · exact .ite (.setPart (.wakePage (.settlePage (.shootPage (.writeKey h))))) (.setPart (.wakePage (.setPage h)))
  · exact .setPart (.wakePage (.setPage h))

theorem execTmigcMigrate_wf {part : Nat} {v : W64} {s : State} (h : s.Wf) :
    OutcomeWf (execTmigcMigrate part v s) := by
  dsimp only [execTmigcMigrate]
  refine .asked h (.ite (.next h) (.ite (.next (.setPart h)) ?_))
  split
  · exact .next (.setPart (.setPart h))
  · refine .ite (.next (.setPart (.setPart h))) (.ite (.next (.setPart (.setPart h))) ?_)
    split
    · exact .next (.setPart (.settleStores (.setPart h)))
    · exact .next (.setPage (.setPart (.settleStores (.setPart h))))

theorem execForcedEviction_wf {ctx : Nat} {va : W64} {s : State} (h : s.Wf) :
    OutcomeWf (execForcedEviction ctx va s) := by
  unfold execForcedEviction
  split
  · exact .next h
  · split
    · exact .next (.finishLate h)
    · exact .next (.finishMove h)
    · exact .next h
    · split
      · exact .next h
      · exact .ite (.next (.forcePage h)) (.next h)

theorem State.Wf.shrinkQuota {s : State} {part die n : Nat} (h : s.Wf) :
    (s.shrinkQuota part die n).Wf := by
  induction n generalizing s with
  | zero =>
    rw [State.shrinkQuota]
    exact h
  | succ n ih =>
    rw [State.shrinkQuota]
    refine .ite h ?_
    split
    · exact .ite h (ih (.forcePage h))
    · exact h

theorem State.Wf.setWays {s : State} {part die v : Nat} (h : s.Wf) :
    (s.setWays part die v).Wf := .checkWays (.setPart h)

theorem State.Wf.setWaysOut {s : State} {die v : Nat} (h : s.Wf) :
    (s.setWaysOut die v).Wf := .ite h h

theorem State.Wf.setQuota {s : State} {part die : Nat} {v : W64} (h : s.Wf) :
    (s.setQuota part die v).Wf := .shrinkQuota (.setPart h)

theorem State.Wf.unmapPage {s : State} {part ctx level va : Nat} (h : s.Wf) :
    (s.unmapPage part ctx level va).Wf := by
  unfold State.unmapPage
  split
  · exact .ite (.writeKey h) h
  · exact h

theorem execEvictwaitDeadline_wf {ctx : Nat} {va : W64} {s : State} (h : s.Wf) :
    OutcomeWf (execEvictwaitDeadline ctx va s) := by
  unfold execEvictwaitDeadline
  dsimp only
  split
  · exact .next h
  · split
    · exact .ite (.next h) (.next (.postFault (.failGroup (.settlePage (.freePage (.shootPage (.unmapPage h)))))))
    · exact .next h

theorem State.Wf.recheckRings {s : State} {part : Nat} {l : List Nat} (h : s.Wf) :
    (s.recheckRings part l).Wf := by
  induction l generalizing s with
  | nil =>
    rw [State.recheckRings]
    exact h
  | cons x l ih =>
    rw [State.recheckRings]
    exact ih (.ite (.flushFaults h) h)

theorem State.Wf.recheck {s : State} {part : Nat} (h : s.Wf) :
    (s.recheck part).Wf := .recheckRings h

theorem execFaultQueueRecheck_wf {part : Nat} {s : State} (h : s.Wf) :
    OutcomeWf (execFaultQueueRecheck part s) := .asked h (.next (.recheck h))

theorem execTwakeRetry_wf {part token : Nat} {s : State} (h : s.Wf) :
    OutcomeWf (execTwakeRetry part token s) := by
  unfold execTwakeRetry
  refine .asked h ?_
  dsimp only
  split
  · exact .next (.retryToken (.recheck h))
  · exact .next (.recheck h)

theorem execTwakeFail_wf {part token : Nat} {s : State} (h : s.Wf) :
    OutcomeWf (execTwakeFail part token s) := by
  unfold execTwakeFail
  refine .asked h ?_
  dsimp only
  split
  · exact .next (.failGroup (.recheck h))
  · exact .next (.recheck h)

theorem execTwakeRetryctx_wf {part ctx : Nat} {s : State} (h : s.Wf) :
    OutcomeWf (execTwakeRetryctx part ctx s) :=
  .asked h (.ite (.next (.retryTokens (.recheck h))) (.next (.recheck h)))

theorem execTwakeLate_wf {part token : Nat} {s : State} (h : s.Wf) :
    OutcomeWf (execTwakeLate part token s) := by
  unfold execTwakeLate
  refine .asked h ?_
  dsimp only
  split
  · exact .next (.recheck h)
  · split
    · exact .ite (.ite (.next (.forcePage (.recheck h))) (.ite (.next (.forcePage (.recheck h)))
        (.next (.retryToken (.forcePage (.recheck h)))))) (.next (.retryToken (.recheck h)))
    · exact .next (.retryToken (.recheck h))

theorem execTwakeDrop_wf {part token : Nat} {s : State} (h : s.Wf) :
    OutcomeWf (execTwakeDrop part token s) := by
  unfold execTwakeDrop
  refine .asked h ?_
  dsimp only
  split
  · exact .next (.recheck h)
  · split
    · refine .ite (.next (.retryToken ?_)) (.next (.retryToken (.recheck h)))
      split
      · exact .settlePage (.freePage (.recheck h))
      · exact .freePage (.recheck h)
    · exact .next (.retryToken (.recheck h))

theorem execTranslationWalk_wf {cl ctx : Nat} {va : W64} {write exec : Bool} {s : State} (h : s.Wf) :
    OutcomeWf (execTranslationWalk cl ctx va write exec s) := by
  dsimp only [execTranslationWalk]
  split
  · exact .next h
  · split
    next u e => exact .next (.snd e (.walkMiss h))
    · exact .next h

theorem State.Wf.dropKLines {s : State} {part : Nat} {ctxs : List Nat} (h : s.Wf) :
    (s.dropKLines part ctxs).Wf := h

theorem execTinvcShootdown_wf {part : Nat} {v : W64} {s : State} (h : s.Wf) :
    OutcomeWf (execTinvcShootdown part v s) :=
  .asked h (.ite (.next h) (.ite (.next (.setPart h)) (.next (.dropLeaves (.ite (.dropKLines (.setPart h))
    (.setPart h))))))

theorem execAtsInvalidation_wf {part ctx : Nat} {va : W64} {s : State} (h : s.Wf) :
    OutcomeWf (execAtsInvalidation part ctx va s) := .ite (.next (.setPart (.shootPage h))) (.next h)

theorem State.Wf.setQueue {s : State} {q : Nat} {x : Queue} (h : s.Wf) :
    (s.setQueue q x).Wf := h

theorem execQueueDoorbell_wf {q : QueueRef} {v : W32} {s : State} (h : s.Wf) :
    OutcomeWf (execQueueDoorbell q v s) := .asked h (.next (.ite (.setQueue h) h))

theorem execQueueEnable_wf {q : QueueRef} {v : W32} {s : State} (h : s.Wf) :
    OutcomeWf (execQueueEnable q v s) := .asked h (.next (.ite (.setQueue h) h))

theorem State.Wf.readOpen {s : State} {w : Who} {va len : Nat} (h : s.Wf) :
    (s.readOpen w va len).2.Wf := by
  unfold State.readOpen
  split
  next u e => exact .snd e (.readRange h)
  next u e => exact .snd e (.readRange h)
  next u e => exact .snd e (.readRange h)
  next u _ _ _ e =>
    split
    rename_i u1 e1
    exact .snd e1 (.free (.snd e (.readRange h)))

theorem State.Wf.nodesFrom {s : State} {v n : Nat} (h : s.Wf) :
    (s.nodesFrom v n).2.Wf := by
  induction n with
  | zero =>
    rw [State.nodesFrom]
    exact h
  | succ n ih =>
    rw [State.nodesFrom]
    dsimp only
    exact .free ih

theorem State.Wf.writeDone {s : State} {n : Nat} {word : W64} (h : s.Wf) :
    (s.writeDone n word).2.Wf := by
  dsimp only [State.writeDone]
  refine .iteSnd h ?_
  split
  next u e => exact .snd e (.writeRange h)
  next u e => exact .snd e (.writeRange h)
  next u _ _ e => exact .snd e (.writeRange h)

theorem State.Wf.report {s : State} {peer q event index lnum : Nat} {word : W64} (h : s.Wf) :
    (s.report peer q event index lnum word).Wf := h

theorem State.Wf.reportLaunch {s : State} {n event : Nat} {word : W64} (h : s.Wf) :
    (s.reportLaunch n event word).Wf := by
  dsimp only [State.reportLaunch]
  split
  · exact .report h
  · exact h

theorem State.Wf.reject {s : State} {q n code : Nat} (h : s.Wf) : (s.reject q n code).Wf := by
  unfold State.reject
  split
  next u e =>
    have hu : u.Wf := .snd e (.writeDone h)
    have reported : (u.reportLaunch n 2 (rejectWord code)).Wf := .reportLaunch hu
    exact reported
  next u e =>
    have hu : u.Wf := .snd e (.writeDone h)
    exact hu

theorem State.Wf.headLaunch {s : State} {q n : Nat} {l : Launch} (h : s.Wf) :
    (s.headLaunch q n l).Wf := .setQueue (.setLaunch h)

theorem State.Wf.readTable {s : State} {n va len : Nat} {k : Option Nat → State → State} (h : s.Wf)
    (hk : ∀ x u, u.Wf → (k x u).Wf) : (s.readTable n va len k).Wf := by
  unfold State.readTable
  refine .ite (hk _ _ h) ?_
  split
  next u e => exact hk _ _ (.snd e (.readRange h))
  next u e =>
    have hu : u.Wf := .snd e (.readRange h)
    exact hu
  next u e =>
    have hu : u.Wf := .snd e (.readRange h)
    exact hu
  next u _ _ _ e => exact hk _ _ (.snd e (.readRange h))

theorem State.Wf.consume {s : State} {q n v : Nat} (h : s.Wf) :
    (s.consume q n v).Wf :=
  .ite (.reject (.setLaunch h)) (.readTable (.setLaunch h) fun _ _ h1 => .ite (.reject h1)
    (.ite (.reject h1) (.readTable h1 fun _ _ h2 => .ite (.reject h2) (.headLaunch (.nodesFrom h2)))))

theorem execLaunchConsume_wf {q : Nat} {s : State} (h : s.Wf) : OutcomeWf (execLaunchConsume q s) := by
  unfold execLaunchConsume
  refine .ite ?_ (.next h)
  dsimp only
  split
  next u e =>
    have hu : u.Wf := .snd e (.readRange (.setLaunch h))
    exact .next (.consume hu)
  next u e => exact .next h
  next u e => exact .next (.ite h (.setQueue h))
  · exact .next (.setQueue h)

theorem State.Wf.refuse {s : State} {q peer v : Nat} (h : s.Wf) :
    (s.refuse q peer v).Wf := .report h

theorem State.Wf.rejectPacket {s : State} {q peer v : Nat} (h : s.Wf) : (s.rejectPacket q peer v).Wf := by
  dsimp only [State.rejectPacket]
  split
  next u e =>
    have hu : u.Wf := .snd e (.writeDone (.setLaunch h))
    exact .report (.upd rfl rfl rfl (State.Wf.free (n := 1) hu))
  next u e =>
    have hu : u.Wf := .snd e (.writeDone (.setLaunch h))
    exact hu

theorem execPeerLaunchPacket_wf {q peer : Nat} {bytes : List Byte} {s : State} (h : s.Wf) :
    OutcomeWf (execPeerLaunchPacket q peer bytes s) := by
  dsimp only [execPeerLaunchPacket]
  refine .ite (.next (.rejectPacket h)) (.ite (.next (.refuse h)) ?_)
  split
  next u e =>
    have hu : u.Wf := .snd e (.writeRange (.setLaunch h))
    exact .next (.report (.setQueue hu))
  next u e =>
    have hu : u.Wf := .snd e (.writeRange (.setLaunch h))
    exact .next hu
  next u e => exact .next h
  · exact .next (.refuse h)

theorem State.Wf.gateOpen {s : State} {n : Nat} (h : s.Wf) :
    (s.gateOpen n).2.Wf := by
  dsimp only [State.gateOpen]
  refine .iteSnd h ?_
  split
  next u e => exact .snd e (.readRange h)
  next u _ e => exact .snd e (.readRange h)

theorem State.Wf.heads {s : State} {l : List Nat} (h : s.Wf) :
    (s.heads l).2.Wf := by
  induction l generalizing s with
  | nil =>
    rw [State.heads]
    exact h
  | cons x l ih =>
    rw [State.heads]
    split
    · refine .iteSnd ?_ (ih h)
      split
      rename_i u e
      split
      rename_i u1 e1
      exact .snd e1 (ih (.snd e (.gateOpen h)))
    · exact ih h

theorem State.Wf.uniformBlock {s : State} {w : Who} {va : W64} (h : s.Wf) :
    (s.uniformBlock w va).2.Wf := by
  unfold State.uniformBlock
  refine .iteSnd h ?_
  split
  rename_i u e
  exact .snd e (.readOpen h)

theorem State.Wf.nodeBlocks {s : State} {w : Who} {x : Tbl NodeDesc} (h : s.Wf) :
    (s.nodeBlocks w x).2.Wf := by
  induction x generalizing s with
  | nil =>
    rw [State.nodeBlocks]
    exact h
  | cons x x ih =>
    rw [State.nodeBlocks]
    split
    next u e =>
      split
      rename_i u1 e1
      exact .snd e1 (ih (.snd e (.uniformBlock h)))
    next u e => exact .snd e (.uniformBlock h)

theorem State.Wf.boundary {s : State} {cl : Nat} (h : s.Wf) :
    (s.boundary cl).Wf := .foldl (.showSystem h) fun _ _ h1 => .invalidateAll h1

theorem State.Wf.admitAll {s : State} {n : Nat} {l : Launch} {cls : List Nat} (h : s.Wf) :
    (s.admitAll n l cls).Wf := by
  delta State.admitAll
  refine brecOn_list (P := fun _ (f : State → State) => ∀ s, s.Wf → (f s).Wf) (fun _ _ h => h)
    (fun cl r below ih s h => ?_) cls s h
  delta State.admitAll._f
  dsimp only
  have taken : ∀ f, ((s.boundary cl).modCluster cl f).Wf := fun _ => .modCluster (.boundary h)
  exact ih _ (.upd rfl rfl rfl (taken fun c => c.takeLaunch n l (s.fresh + 1)))

theorem State.Wf.loadImages {s : State} {n : Nat} {l : Launch} {v : Nat} {l1 : List Nat} (h : s.Wf) :
    (s.loadImages n l v l1).Wf := by
  induction l1 generalizing s v with
  | nil =>
    rw [State.loadImages]
    exact h
  | cons x l1 ih =>
    rw [State.loadImages]
    exact ih (.foldl h fun _ _ h1 => .writeKey h1)

theorem State.Wf.launchTeam {s : State} {n : Nat} {l : Launch} {u : Tbl W32 × Nat} {cl v i : Nat} (h : s.Wf) :
    (s.launchTeam n l u cl v i).Wf := .newTeam h

theorem State.Wf.launchTeams {s : State} {n : Nat} {l : Launch} {u : Tbl W32 × Nat} {cl v n1 : Nat} (h : s.Wf) :
    (s.launchTeams n l u cl v n1).Wf := by
  induction n1 with
  | zero =>
    rw [State.launchTeams]
    exact h
  | succ n1 ih =>
    rw [State.launchTeams]
    exact .launchTeam ih

theorem State.Wf.parties {s : State} {n : Nat} {l : Launch} {u : Tbl W32 × Nat} {v : Nat} {l1 : List Nat} (h : s.Wf) :
    (s.parties n l u v l1).Wf := by
  induction l1 generalizing s v with
  | nil =>
    rw [State.parties]
    exact h
  | cons x l1 ih =>
    rw [State.parties]
    exact ih (.ite (.ite h (.launchTeams h)) (.modCluster (.ite h (.launchTeams h))))

theorem State.Wf.placeOn {s : State} {q n : Nat} {g : List Nat} (h : s.Wf) : (s.placeOn q n g).Wf := by
  dsimp only [State.placeOn]
  split
  next e => exact .snd e (.readOpen h)
  next u e =>
    have hu : u.Wf := .snd e (.readOpen h)
    split
    next e => exact .snd e (.uniformBlock hu)
    next u1 e1 =>
      have hu1 : u1.Wf := .snd e1 (.uniformBlock hu)
      split
      next e => exact .snd e (.nodeBlocks hu1)
      next u2 e2 =>
        have hu2 : u2.Wf := .snd e2 (.nodeBlocks hu1)
        exact .reportLaunch (.parties (.loadImages (.admitAll hu2)))

theorem execLaunchPlace_wf {grid : List Nat} {s : State} (h : s.Wf) :
    OutcomeWf (execLaunchPlace grid s) := by
  unfold execLaunchPlace
  dsimp only
  split
  · exact .next (.heads h)
  · exact .ite (.next (.placeOn (.heads h))) (.next (.placeOn (.heads h)))

theorem State.Wf.drainOn {s : State} {l : List Nat} (h : s.Wf) :
    (s.drainOn l).Wf := by
  induction l generalizing s with
  | nil =>
    rw [State.drainOn]
    exact h
  | cons x l ih =>
    rw [State.drainOn]
    exact ih (.releaseReady h)

theorem execLaunchDrain_wf {launch : Nat} {s : State} (h : s.Wf) :
    OutcomeWf (execLaunchDrain launch s) :=
  .ite (.next h) (.ite (.next (.drainOn h)) (.ite (.next (.setLaunch (.drainOn (.setLaunch h)))) (.next h)))

theorem State.Wf.dropStores {s : State} {n : Nat} (h : s.Wf) : (s.dropStores n).Wf :=
  of_tables h (Memory.filter_wf _ _) (Tbl.wf_filter _ _ _) (Tbl.wf_filter _ _ _)

theorem State.Wf.leaveGrid {s : State} {n : Nat} (h : s.Wf) :
    (s.leaveGrid n).Wf := .upd rfl rfl rfl (.dropStores (.setLaunch h))

theorem State.Wf.closeLaunch {s : State} {n : Nat} (h : s.Wf) :
    (s.closeLaunch n).Wf := by
  dsimp only [State.closeLaunch]
  split
  next u e => exact .snd e (.writeDone h)
  next u e => exact .reportLaunch (.leaveGrid (.snd e (.writeDone h)))

theorem execLaunchEnd_wf {launch : Nat} {s : State} (h : s.Wf) :
    OutcomeWf (execLaunchEnd launch s) := by
  dsimp only [execLaunchEnd]
  refine .ite (.next (.closeLaunch h)) (.ite (.next h) ?_)
  split
  next u e => exact .next (.snd e (.writeDone (.showAll h)))
  next u e => exact .next (.reportLaunch (.leaveGrid (.snd e (.writeDone (.showAll h)))))

theorem State.Wf.waitEngine {s : State} {t token : Nat} (h : s.Wf) :
    (s.waitEngine t token).Wf := .setTeam h

theorem State.Wf.parkDone {t : Nat} {r : Done × State} {k : Nat → State → State} (h : r.2.Wf)
    (hk : ∀ x u, u.Wf → State.Wf (k x u)) :
    (Machine.State.parkDone t r k).Wf := by
  unfold State.parkDone
  split
  next u => exact hk _ _ h
  next u => exact .waitEngine h
  next u => exact h
  next u _ _ _ => exact .abandonPark h

theorem State.Wf.restoreDone {t : Nat} {r : Done × State} {k : Nat → State → State} (h : r.2.Wf)
    (hk : ∀ x u, u.Wf → State.Wf (k x u)) :
    (Machine.State.restoreDone t r k).Wf := by
  unfold State.restoreDone
  split
  next u => exact hk _ _ h
  next u => exact .waitEngine h
  next u => exact h
  next u _ _ _ => exact .killTeam h

theorem State.Wf.writeParts {s : State} {w : Who} {own base : Nat} {l : List (Nat × List Byte)} (h : s.Wf) :
    (s.writeParts w own base l).2.Wf := by
  induction l generalizing s with
  | nil =>
    rw [State.writeParts]
    exact h
  | cons x l ih =>
    rw [State.writeParts]
    split
    next u e => exact ih (.snd e (.writeRange h))
    · exact .writeRange h

theorem State.Wf.readParts {s : State} {w : Who} {base : Nat} {l : List (Nat × Nat)} (h : s.Wf) :
    (s.readParts w base l).2.Wf := by
  induction l generalizing s with
  | nil =>
    rw [State.readParts]
    exact h
  | cons x l ih =>
    rw [State.readParts]
    split
    next u e =>
      split
      next u1 e1 => exact .snd e1 (ih (.snd e (.readRange h)))
      · exact ih (.snd e (.readRange h))
    · exact .readRange h

theorem State.Wf.refillStacks {s : State} {t base spsz : Nat} {tm : Team} {k : Team → State → State} (h : s.Wf)
    (hk : ∀ x u, u.Wf → State.Wf (k x u)) :
    (s.refillStacks t base spsz tm k).Wf :=
  .restoreDone (.readParts h) fun _ _ h1 => .restoreDone (.readParts h1) fun _ _ h2 => hk _ _ h2

theorem State.Wf.claimFrame {s : State} {w : Who} {own base fsz i n : Nat} (h : s.Wf) :
    (s.claimFrame w own base fsz i n).2.Wf := by
  induction n generalizing s i with
  | zero =>
    rw [State.claimFrame]
    exact h
  | succ n ih =>
    rw [State.claimFrame]
    split
    next u e => exact .snd e (.rmwRange h)
    next u _ e => exact ih (.snd e (.rmwRange h))
    · exact .rmwRange h

theorem State.Wf.parkFrame {s : State} {tm : Team} {w : Who} {own base fsz nfr : Nat} (h : s.Wf) :
    (s.parkFrame tm w own base fsz nfr).2.Wf := .iteSnd (.claimFrame h) h

theorem State.Wf.parkOff {s : State} {t : Nat} (h : s.Wf) :
    (s.parkOff t).Wf :=
  .parkDone (.readRange h) fun _ _ h1 => .parkDone (.writeParts h1) fun _ _ h2 => .parkDone (.parkFrame h2) fun
    _ _ h3 => .ite h3 (.parkDone (.writeParts (.free (.setTeam h3))) fun _ _ h4 => .parkDone (.writeParts h4) fun
    _ _ h5 => .setTeam h5)

theorem execPreemptRequest_wf {team : Nat} {s : State} (h : s.Wf) :
    OutcomeWf (execPreemptRequest team s) := .next (.ite h (.setTeam h))

theorem execTeamParkOff_wf {team : Nat} {s : State} (h : s.Wf) :
    OutcomeWf (execTeamParkOff team s) := by
  dsimp only [execTeamParkOff]
  refine .ite ?_ (.next h)
  split
  · split
    · exact .ite (.next (.takeWord (.unclaim h))) (.next (.parkOff h))
    · exact .next h
  · exact .next (.parkOff h)
  · exact .next h

theorem State.Wf.resumeTeam {s : State} {t : Nat} (h : s.Wf) :
    (s.resumeTeam t).Wf := by
  dsimp only [State.resumeTeam]
  split
  · split
    · exact .ite (.takeWord (.unclaim h)) (.unclaim h)
    · exact .unclaim h
  · exact .setTeam (.unclaim h)

theorem State.Wf.checkResume {s : State} {t : Nat} (h : s.Wf) :
    (s.checkResume t).Wf := by
  dsimp only [State.checkResume]
  split
  next u e => exact .ite (.resumeTeam (.setTeam (.snd e (.fetchWord h)))) (.teamTrap (.snd e (.fetchWord h)))
  next u e => exact .teamTrap h
  next u e =>
    split
    · exact .resumeTeam (.snd e (.fetchWord h))
    · exact .parkTeam (.snd e (.fetchWord h))
  next u e => exact .resumeTeam (.snd e (.fetchWord h))
  next u e => exact .teamTrap (.snd e (.fetchWord h))
  next u _ _ _ e => exact .teamTrap (.snd e (.fetchWord h))

theorem State.Wf.restoreRest {s : State} {t : Nat} (h : s.Wf) :
    (s.restoreRest t).Wf :=
  .restoreDone (.readRange h) fun _ _ h1 => .restoreDone (.readParts (.teamAcquire h1)) fun _ _ h2 => .refillStacks
    h2 fun _ _ h3 => .restoreDone (.writeParts h3) fun _ _ h4 => .checkResume (.setTeam h4)

theorem State.Wf.restoreOn {s : State} {t : Nat} (h : s.Wf) :
    (s.restoreOn t).Wf :=
  .ite (.restoreRest h) (.restoreDone (.readRange h) fun _ _ h1 => .ite (.killTeam h1)
    (.restoreDone (.writeParts h1) fun _ _ h2 => .restoreRest (.setTeam h2)))

theorem State.Wf.startOn {s : State} {t eng : Nat} (h : s.Wf) :
    (s.startOn t eng).Wf := .ite (.teamAcquire (.setTeam h)) (.setTeam h)

theorem State.Wf.admitOn {s : State} {t eng : Nat} (h : s.Wf) :
    (s.admitOn t eng).Wf := .ite (.startOn h) (.restoreOn (.setTeam h))

theorem execTeamAdmit_wf {cl eng : Nat} {s : State} (h : s.Wf) :
    OutcomeWf (execTeamAdmit cl eng s) := by
  dsimp only [execTeamAdmit]
  split
  · exact .next (.createTeam h)
  · split
    · exact .next (.admitOn (.createTeam h))
    · exact .next (.createTeam h)

theorem execTeamRestore_wf {team eng : Nat} {s : State} (h : s.Wf) :
    OutcomeWf (execTeamRestore team eng s) := by
  dsimp only [execTeamRestore]
  refine .ite (.next h) (.ite (.next (.ite (.restoreOn h) h)) (.ite (.next h) ?_))
  split
  · exact .ite (.next (.resumeTeam h)) (.next h)
  · split
    · refine .ite ?_ (.next (.setTeam h))
      split
      · exact .next (.admitOn (.setTeam h))
      · exact .next (.setTeam h)
    · exact .next (.setTeam h)
  · exact .next h

end Sys2Proof.Machine
end

section
/-! Canonical form: the host, power and the registers of the package. -/

namespace Sys2Proof.Machine

theorem State.Wf.killTeams {s : State} {n : Nat} {code : W32} {l : List (Nat × Team)} (h : s.Wf) :
    (s.killTeams n code l).Wf := by
  induction l generalizing s with
  | nil =>
    rw [State.killTeams]
    exact h
  | cons x l ih =>
    rw [State.killTeams]
    exact ih (.ite (.killTeam h) h)

theorem State.Wf.releaseThreads {s : State} {n : Nat} {l : List Nat} (h : s.Wf) :
    (s.releaseThreads n l).Wf := by
  induction l generalizing s with
  | nil =>
    rw [State.releaseThreads]
    exact h
  | cons x l ih =>
    rw [State.releaseThreads]
    exact ih (.ite (.setSlot (.drainStores h)) h)

theorem State.Wf.killLaunch {s : State} {n : Nat} {code : W32} (h : s.Wf) :
    (s.killLaunch n code).Wf := .drainOn (.setLaunch (.upd rfl rfl rfl (.releaseThreads (.killTeams h))))

theorem State.Wf.removeHead {s : State} {n : Nat} (h : s.Wf) :
    (s.removeHead n).Wf := .closeLaunch (.setLaunch (.setQueue h))

theorem execLendDrain_wf {part launch : Nat} {s : State} (h : s.Wf) :
    OutcomeWf (execLendDrain part launch s) :=
  .asked h (.ite (.next h) (.ite (.next (.removeHead h)) (.next (.drainOn (.setLaunch h)))))

theorem State.Wf.lendKill {s : State} {part n : Nat} (h : s.Wf) :
    (s.lendKill part n).Wf := .ite h (.ite (.removeHead h) (.killLaunch h))

theorem execLendKill_wf {part launch : Nat} {s : State} (h : s.Wf) :
    OutcomeWf (execLendKill part launch s) := .asked h (.next (.lendKill h))

theorem State.Wf.hostWrite {s : State} {key va : Nat} {bs : List Byte} (h : s.Wf) :
    (s.hostWrite key va bs).Wf := .writePieces (.clearPoison h)

theorem State.Wf.answerHost {s : State} {part : Nat} {bs : List Byte} (h : s.Wf) :
    (s.answerHost part bs).Wf := h

theorem State.Wf.hxAccess {s : State} {part key va : Nat} {op : PeerOp} {bs : List Byte} (h : s.Wf) :
    (s.hxAccess part key va op bs).Wf := by
  dsimp only [State.hxAccess]
  split
  · exact .answerHost h
  · exact .hostWrite h
  · exact .hostWrite (.answerHost h)

theorem State.Wf.hxNothing {s : State} {r : HxReq} (h : s.Wf) :
    (s.hxNothing r).Wf := .ite (.answerHost h) h

theorem State.Wf.hxPerform {s : State} {r : HxReq} (h : s.Wf) :
    (s.hxPerform r).Wf := by
  unfold State.hxPerform
  dsimp only
  split
  · split
    · exact .hxAccess h
    · exact .hxNothing h
  · exact .ite (.hxAccess h) h

theorem State.Wf.hxArrive {s : State} {r : HxReq} (h : s.Wf) :
    (s.hxArrive r).Wf := .ite h (.hxPerform h)

theorem State.Wf.serveHx {s : State} (h : s.Wf) :
    s.serveHx.Wf := .foldl h fun _ _ h1 => .hxArrive h1

theorem execHostDoorAccess_wf {part door off : Nat} {write : Bool} {bytes : List Byte} {s : State} (h : s.Wf) :
    OutcomeWf (execHostDoorAccess part door off write bytes s) := .asked h (.next (.hxArrive h))

theorem execHostHdmAccess_wf {part addr : Nat} {write : Bool} {bytes : List Byte} {s : State} (h : s.Wf) :
    OutcomeWf (execHostHdmAccess part addr write bytes s) := .asked h (.next (.hxArrive h))

theorem execPeerRequest_wf {part peer addr : Nat} {op : PeerOp} {bytes : List Byte} {s : State} (h : s.Wf) :
    OutcomeWf (execPeerRequest part peer addr op bytes s) := .asked h (.next (.ite (.hxArrive h) h))

theorem execHostLinkDown_wf {part : Nat} {s : State} (h : s.Wf) :
    OutcomeWf (execHostLinkDown part s) := .next (.setPart h)

theorem execAttachBegin_wf {part : Nat} {s : State} (h : s.Wf) :
    OutcomeWf (execAttachBegin part s) := .asked h (.next (.setPart h))

theorem execAttachClaim_wf {part : Nat} {v : W64} {s : State} (h : s.Wf) :
    OutcomeWf (execAttachClaim part v s) := .asked h (.ite (.next (.setPart h)) (.next h))

theorem State.Wf.killQueue {s : State} {part q : Nat} {l : List Nat} (h : s.Wf) :
    (s.killQueue part q l).Wf := by
  induction l generalizing s with
  | nil =>
    rw [State.killQueue]
    exact h
  | cons x l ih =>
    rw [State.killQueue]
    exact ih (.ite (.lendKill h) h)

theorem State.Wf.resetQueue {s : State} {part q : Nat} (h : s.Wf) :
    (s.resetQueue part q).Wf := .setQueue (.killQueue h)

theorem State.Wf.resetSlot {s : State} {part header j : Nat} (h : s.Wf) :
    (s.resetSlot part header j).Wf := by
  dsimp only [State.resetSlot]
  split
  · exact h
  · split
    · exact .hostWrite h
    · exact h

theorem State.Wf.resetSlots {s : State} {part header size tail cur j n : Nat} (h : s.Wf) :
    (s.resetSlots part header size tail cur j n).Wf := by
  induction n generalizing s j with
  | zero =>
    rw [State.resetSlots]
    exact h
  | succ n ih =>
    rw [State.resetSlots]
    exact ih (.writeKey (.ite (.resetSlot h) h))

theorem State.Wf.resetRingAt {s : State} {part h1 : Nat} (h : s.Wf) :
    (s.resetRingAt part h1).Wf := .writeKey (.writeKey (.resetSlots h))

theorem State.Wf.resetRing {s : State} {part i : Nat} {r : Svc} (h : s.Wf) :
    (s.resetRing part i r).Wf := .setPart (.ite (.resetRingAt h) h)

theorem State.Wf.resetQueues {s : State} {part : Nat} {claims : List (Bool × Nat × Nat)} {l : List Nat} (h : s.Wf) :
    (s.resetQueues part claims l).Wf := by
  induction l generalizing s with
  | nil =>
    rw [State.resetQueues]
    exact h
  | cons x l ih =>
    rw [State.resetQueues]
    exact ih (.ite (.resetQueue h) h)

theorem State.Wf.resetRings {s : State} {part : Nat} {claims : List (Bool × Nat × Nat)} {l : List Nat} (h : s.Wf) :
    (s.resetRings part claims l).Wf := by
  induction l generalizing s with
  | nil =>
    rw [State.resetRings]
    exact h
  | cons x l ih =>
    rw [State.resetRings]
    exact ih (.ite h (.resetRing h))

theorem State.Wf.failGroups {s : State} {l : List Group} (h : s.Wf) :
    (s.failGroups l).Wf := by
  induction l generalizing s with
  | nil =>
    rw [State.failGroups]
    exact h
  | cons x l ih =>
    rw [State.failGroups]
    exact ih (.failGroup h)

theorem State.Wf.failHx {s : State} {part : Nat} {ctxs : List Nat} (h : s.Wf) :
    (s.failHx part ctxs).Wf := .foldl h fun _ _ h1 => .hxNothing h1

theorem State.Wf.commit {s : State} {part : Nat} {claims : List (Bool × Nat × Nat)} (h : s.Wf) :
    (s.commit part claims).Wf :=
  .serveHx (.wakeSilent (.upd rfl rfl rfl (.failHx (.failGroups (.resetRings (.resetQueues (.setPart h)))))))

theorem execAttachCommit_wf {part : Nat} {s : State} (h : s.Wf) :
    OutcomeWf (execAttachCommit part s) := .asked h (.next (.ite (.commit h) h))

theorem execReattachTimeout_wf {part : Nat} {s : State} (h : s.Wf) :
    OutcomeWf (execReattachTimeout part s) := .ite (.next (.commit h)) (.next h)

theorem State.Wf.storeTimeout {s : State} {id k : Nat} {ps : List Piece} (h : s.Wf) :
    (s.storeTimeout id k ps).Wf := .ite (.stopSlot h) h

theorem State.Wf.opTimeout {s : State} {op unit : Nat} (h : s.Wf) :
    (s.opTimeout op unit).Wf := by
  dsimp only [State.opTimeout]
  split
  · exact .ite (.deferError h) h
  · split
    · exact .ite (.failCopy h) h
    · exact h
  · split
    · exact .ite (.failCopy h) h
    · exact h
  · exact .storeTimeout h
  · exact h

theorem execPeerAckTimeout_wf {a : AckRef} {unit : Nat} {s : State} (h : s.Wf) :
    OutcomeWf (execPeerAckTimeout a unit s) := by
  unfold execPeerAckTimeout
  split
  · exact .next (.opTimeout h)
  · exact .next (.modSlot h)

theorem State.Wf.reply {s : State} {r : Reply} (h : s.Wf) :
    (s.reply r).Wf := h

theorem execLockInterface_wf {part : Nat} {s : State} (h : s.Wf) :
    OutcomeWf (execLockInterface part s) := .ite (.next (.reply (.setPart h))) (.next h)

theorem execStartInterface_wf {part : Nat} {s : State} (h : s.Wf) :
    OutcomeWf (execStartInterface part s) := .ite (.next (.setPart h)) (.next h)

theorem State.Wf.dropOutside {s : State} {id t : Nat} {us : List Unit1} {l : List Nat} (h : s.Wf) :
    (s.dropOutside id t us l).Wf := by
  induction l generalizing s with
  | nil =>
    rw [State.dropOutside]
    exact h
  | cons x l ih =>
    rw [State.dropOutside]
    exact ih (.ite (.deferError h) h)

theorem State.Wf.abortOps {s : State} {part : Nat} {l : List (Nat × Op)} (h : s.Wf) :
    (s.abortOps part l).Wf := by
  induction l generalizing s with
  | nil =>
    rw [State.abortOps]
    exact h
  | cons x l ih =>
    rw [State.abortOps]
    refine ih (.ite h (.ite (.upd rfl rfl rfl (.finishOp h)) ?_))
    split
    · exact .dropOutside h
    · exact .ite h h
    · exact h

theorem State.Wf.abortTeams {s : State} {part : Nat} (h : s.Wf) :
    (s.abortTeams part).Wf := h

theorem State.Wf.abortSlots {s : State} {part : Nat} (h : s.Wf) :
    (s.abortSlots part).Wf := h

theorem State.Wf.abortWord {s : State} {n : Nat} (h : s.Wf) :
    (s.abortWord n).Wf := by
  dsimp only [State.abortWord]
  refine .ite (.showAll h) ?_
  split
  next u e => exact .ite (.writeDone (.showAll h)) (.showAll h)
  · exact .showAll h

theorem State.Wf.abortLaunches {s : State} {part : Nat} {l : List (Nat × Launch)} (h : s.Wf) :
    (s.abortLaunches part l).Wf := by
  induction l generalizing s with
  | nil =>
    rw [State.abortLaunches]
    exact h
  | cons x l ih =>
    rw [State.abortLaunches]
    exact ih (.ite (.setPart (.setLaunch (.abortWord h))) h)

theorem State.Wf.abortQueues {s : State} {part : Nat} {l : List Nat} (h : s.Wf) :
    (s.abortQueues part l).Wf := by
  induction l generalizing s with
  | nil =>
    rw [State.abortQueues]
    exact h
  | cons x l ih =>
    rw [State.abortQueues]
    exact ih (.ite (.setQueue h) h)

theorem State.Wf.leaveRun {s : State} {part : Nat} (h : s.Wf) :
    (s.leaveRun part).Wf :=
  .ite (.abortLaunches (.abortSlots (.abortTeams (.upd rfl rfl rfl (.abortOps (.abortQueues
    (.serveHx (.setPart h)))))))) h

theorem execStopInterface_wf {part : Nat} {s : State} (h : s.Wf) :
    OutcomeWf (execStopInterface part s) := .next (.reply (.leaveRun h))

theorem execIdeIntegrityFailure_wf {part : Nat} {s : State} (h : s.Wf) :
    OutcomeWf (execIdeIntegrityFailure part s) := .next (.leaveRun h)

theorem State.Wf.dropAllStores {s : State} {part : Nat} {l : List (Nat × Launch)} (h : s.Wf) :
    (s.dropAllStores part l).Wf := by
  induction l generalizing s with
  | nil =>
    rw [State.dropAllStores]
    exact h
  | cons x l ih =>
    rw [State.dropAllStores]
    exact ih (.ite (.dropStores h) h)

theorem State.Wf.dropKeeperStores {s : State} {part : Nat} {l : List (Nat × Cluster)} (h : s.Wf) :
    (s.dropKeeperStores part l).Wf := by
  induction l generalizing s with
  | nil =>
    rw [State.dropKeeperStores]
    exact h
  | cons x l ih =>
    rw [State.dropKeeperStores]
    exact ih (.ite (.dropStores h) h)

theorem State.Wf.scrub {s : State} {part : Nat} (h : s.Wf) : (s.scrub part).Wf := by
  have rest : ((s.dropAllStores part s.launches).dropKeeperStores part s.clusters).Wf := .dropKeeperStores
    (.dropAllStores h)
  exact of_tables rest (Memory.filter_wf _ _) id (Tbl.wf_filter _ _ _)

theorem State.Wf.unlockQueues {s : State} {part : Nat} {l : List Nat} (h : s.Wf) :
    (s.unlockQueues part l).Wf := by
  induction l generalizing s with
  | nil =>
    rw [State.unlockQueues]
    exact h
  | cons x l ih =>
    rw [State.unlockQueues]
    exact ih (.ite (.setQueue h) h)

theorem execConfigUnlock_wf {part : Nat} {s : State} (h : s.Wf) :
    OutcomeWf (execConfigUnlock part s) := .ite (.next h) (.next (.setPart (.unlockQueues (.scrub h))))

theorem execGetMeasurements_wf {part : Nat} {s : State} (h : s.Wf) :
    OutcomeWf (execGetMeasurements part s) := .next (.reply h)

theorem execKeyExchange_wf {k : KeyRef} {s : State} (h : s.Wf) :
    OutcomeWf (execKeyExchange k s) := .ite (.next (.reply (.setPart h))) (.next h)

theorem execFinish_wf {part : Nat} {s : State} (h : s.Wf) :
    OutcomeWf (execFinish part s) := .ite (.next (.reply (.setPart h))) (.next h)

theorem execHeartbeat_wf {part : Nat} {s : State} (h : s.Wf) :
    OutcomeWf (execHeartbeat part s) := .ite (.next (.reply (.setPart h))) (.next h)

theorem State.Wf.expireSession {s : State} {part : Nat} (h : s.Wf) :
    (s.expireSession part).Wf := .leaveRun (.setPart h)

theorem execSessionExpiry_wf {part : Nat} {s : State} (h : s.Wf) :
    OutcomeWf (execSessionExpiry part s) := .ite (.next (.expireSession h)) (.next h)

theorem execKeyUpdate_wf {part : Nat} {ok : Bool} {s : State} (h : s.Wf) :
    OutcomeWf (execKeyUpdate part ok s) := .ite (.next h) (.ite (.next (.reply h)) (.next (.expireSession h)))

theorem execSessionEnd_wf {part : Nat} {s : State} (h : s.Wf) :
    OutcomeWf (execSessionEnd part s) := .ite (.next h) (.next (.expireSession h))

theorem State.Wf.setMhz {s : State} {cl mhz : Nat} (h : s.Wf) :
    (s.setMhz cl mhz).Wf := .modCluster h

theorem State.Wf.applyClock {s : State} {cl : Nat} (h : s.Wf) :
    (s.applyClock cl).Wf := .setMhz h

theorem State.Wf.applyClocks {s : State} {l : List Nat} (h : s.Wf) :
    (s.applyClocks l).Wf := by
  induction l generalizing s with
  | nil =>
    rw [State.applyClocks]
    exact h
  | cons x l ih =>
    rw [State.applyClocks]
    exact ih (.applyClock h)

theorem State.Wf.setClamp {s : State} {b : Bool} (h : s.Wf) :
    (s.setClamp b).Wf := .ite h (.applyClocks h)

theorem execClockClamp_wf {pwr : Nat} {s : State} (h : s.Wf) :
    OutcomeWf (execClockClamp pwr s) := .ite (.next (.setClamp h)) (.ite (.next (.setClamp h)) (.next h))

theorem execFirmwareClockChange_wf {cl mhz : Nat} {s : State} (h : s.Wf) :
    OutcomeWf (execFirmwareClockChange cl mhz s) := .next (.applyClock (.modCluster h))

theorem State.Wf.setRequests {s : State} {cl : Nat} {f : Cluster → Cluster} (h : s.Wf) :
    (s.setRequests cl f).Wf := .setCluster h

theorem State.Wf.setAllRequests {s : State} {f : Cluster → Cluster} {l : List Nat} (h : s.Wf) :
    (s.setAllRequests f l).Wf := by
  induction l generalizing s with
  | nil =>
    rw [State.setAllRequests]
    exact h
  | cons x l ih =>
    rw [State.setAllRequests]
    exact ih (.setRequests h)

theorem execThrottleStepChange_wf {cl : Nat} {s : State} (h : s.Wf) :
    OutcomeWf (execThrottleStepChange cl s) := .ite (.next (.setCluster h)) (.next h)

theorem execCapRequestRaise_wf {pwr : Nat} {s : State} (h : s.Wf) :
    OutcomeWf (execCapRequestRaise pwr s) := .ite (.next (.upd rfl rfl rfl (.setAllRequests h))) (.next h)

theorem execCapRequestLower_wf {pwr : Nat} {s : State} (h : s.Wf) :
    OutcomeWf (execCapRequestLower pwr s) := .ite (.next (.upd rfl rfl rfl (.setAllRequests h))) (.next h)

theorem execThermalLimit_wf {die : Nat} {hot : Bool} {s : State} (h : s.Wf) :
    OutcomeWf (execThermalLimit die hot s) := .next (.setAllRequests h)

theorem execThermalTrip_wf {die : Nat} {s : State} (h : s.Wf) :
    OutcomeWf (execThermalTrip die s) := .next (.ite h h)

theorem State.Wf.chargeNone {s : State} {cl uj : Nat} (h : s.Wf) :
    (s.chargeNone cl uj).Wf := .setPart h

theorem State.Wf.charge {s : State} {cl n uj : Nat} {array : Bool} (h : s.Wf) :
    (s.charge cl n uj array).Wf := by
  unfold State.charge
  dsimp only
  split
  · exact .chargeNone h
  · exact .ite (.setLaunch (.setPart h)) (.chargeNone h)

theorem State.Wf.chargeStatic {s : State} {cl uj total : Nat} {l : List Nat} (h : s.Wf) :
    (s.chargeStatic cl uj total l).Wf := by
  induction l generalizing s with
  | nil =>
    rw [State.chargeStatic]
    exact h
  | cons x l ih =>
    rw [State.chargeStatic]
    exact ih (.charge h)

theorem State.Wf.chargeRest {s : State} {cl uj : Nat} (h : s.Wf) :
    (s.chargeRest cl uj).Wf := .ite (.chargeNone h) (.chargeNone (.chargeStatic h))

theorem State.Wf.chargeUse {s : State} {cl : Nat} {x : Energy} (h : s.Wf) :
    (s.chargeUse cl x).Wf := by
  unfold State.chargeUse
  dsimp only
  split
  · split
    · exact .chargeNone h
    · exact .charge h
  · exact .chargeNone h
  · exact .charge h
  · exact .chargeRest h

theorem State.Wf.charges {s : State} {cl : Nat} {l : List Energy} (h : s.Wf) :
    (s.charges cl l).Wf := by
  induction l generalizing s with
  | nil =>
    rw [State.charges]
    exact h
  | cons x l ih =>
    rw [State.charges]
    exact ih (.chargeUse h)

theorem execEnergyUpdate_wf {cl : Nat} {uses : List Energy} {s : State} (h : s.Wf) :
    OutcomeWf (execEnergyUpdate cl uses s) := .next (.charges h)

theorem execEnergyRescale_wf {cl scale : Nat} {s : State} (h : s.Wf) :
    OutcomeWf (execEnergyRescale cl scale s) := .next (.modCluster h)

theorem State.Wf.poisonLine {s : State} {cl k : Nat} (h : s.Wf) :
    (s.poisonLine cl k).Wf := by
  dsimp only [State.poisonLine]
  refine .ite h ?_
  split
  · exact .setPoison h
  · exact .postPoison (.postFault (.setPoison h))

theorem State.Wf.dropWaymarkAt {s : State} {place : Nat} (h : s.Wf) :
    (s.dropWaymarkAt place).Wf := h

theorem State.Wf.patrolled {s : State} {det : Nat} {places : List Nat} (h : s.Wf) :
    (s.patrolled det places).Wf :=
  .upd rfl rfl rfl (.postPoison (.dropWaymarkAt (.foldl h fun _ _ h1 => .setPoison h1)))

theorem State.Wf.hardError {s : State} {det addr : Nat} (h : s.Wf) :
    (s.hardError det addr).Wf := by
  dsimp only [State.hardError]
  split
  · exact .setPoison h
  · exact .setPoison h
  · exact .poisonLine h
  · exact .modCluster h
  · exact .modDrover h
  · exact .modCluster h
  · exact .ite h (.keeperTrap h)
  · split
    · exact .ite h (.killTeam h)
    · exact h

theorem State.Wf.detachAll {s : State} (h : s.Wf) :
    s.detachAll.Wf := h

theorem State.Wf.afterLink {s : State} {n : Nat} (h : s.Wf) :
    (s.afterLink n).Wf := .ite (.detachAll h) h

theorem State.Wf.placeError {s : State} {det : Nat} {corrected : Bool} {x : ErrorPlace} (h : s.Wf) :
    (s.placeError det corrected x).Wf := by
  unfold State.placeError
  split
  · exact .modCluster h
  · exact .modCluster h
  · exact .retryToken h
  · exact .ite h (.hardError h)
  · exact .ite h (.foldl h fun _ _ h1 => .setPoison h1)
  · exact .ite h (.uncache h)
  · exact .ite h (.afterLink h)

theorem execEccError_wf {e : ErrorRef} {corrected : Bool} {s : State} (h : s.Wf) :
    OutcomeWf (execEccError e corrected s) := .next (.placeError h)

theorem execPatrolScrub_wf {e : ErrorRef} {bad : Bool} {s : State} (h : s.Wf) :
    OutcomeWf (execPatrolScrub e bad s) := by
  unfold execPatrolScrub
  refine .ite (.next h) ?_
  dsimp only
  split
  · exact .next (.patrolled h)
  · split
    · exact .next (.patrolled h)
    · exact .next (.upd rfl rfl rfl (.poisonLine h))
    · exact .next h
  · exact .next h

theorem State.Wf.moveCluster {s : State} {a b : Nat} (h : s.Wf) : (s.moveCluster a b).Wf :=
  of_tables h (rekey_wf _ _ _) (rekey_wf _ _ _) (rekey_wf _ _ _)

theorem State.Wf.killOn {s : State} {cl : Nat} {l : List Nat} (h : s.Wf) :
    (s.killOn cl l).Wf := by
  induction l generalizing s with
  | nil =>
    rw [State.killOn]
    exact h
  | cons x l ih =>
    rw [State.killOn]
    exact ih (.ite (.killLaunch h) h)

theorem State.Wf.dropUnreadable {s : State} {cl : Nat} (h : s.Wf) :
    (s.dropUnreadable cl).Wf := .foldl h fun _ _ h1 => .dropRecords h1

theorem State.Wf.endTeams {s : State} {cl : Nat} {ts : List Nat} (h : s.Wf) :
    (s.endTeams cl ts).Wf := .foldl h fun _ _ h1 => .ite h1 (.killTeam h1)

theorem State.Wf.endThreads {s : State} {cl : Nat} {ks : List Nat} (h : s.Wf) :
    (s.endThreads cl ks).Wf := .foldl h fun _ _ h1 => .ite h1 (.setSlot (.drainStores h1))

theorem State.Wf.endUnreadable {s : State} {cl : Nat} {r : SpareRef} (h : s.Wf) :
    (s.endUnreadable cl r).Wf := .endThreads (.endTeams (.dropUnreadable h))

theorem execClusterRetire_wf {cl : Nat} {spare : SpareRef} {s : State} (h : s.Wf) :
    OutcomeWf (execClusterRetire cl spare s) :=
  .ite (.next h) (.ite (.next (.upd rfl rfl rfl (.moveCluster (.endUnreadable h))))
    (.ite (.next h) (.next (.upd rfl rfl rfl (.killOn h)))))

theorem State.Wf.startDrain {s : State} {n : Nat} (h : s.Wf) :
    (s.startDrain n).Wf := .checkDrain h

theorem State.Wf.drainDone {s : State} {part : Nat} {v : W64} (h : s.Wf) :
    (s.drainDone part v).Wf := .ite (.checkDrain (.setPart h)) h

theorem execHdrainDone_wf {part : Nat} {v : W64} {s : State} (h : s.Wf) :
    OutcomeWf (execHdrainDone part v s) := .asked h (.next (.drainDone h))

theorem execHbmStackReturn_wf {stack : Nat} {s : State} (h : s.Wf) :
    OutcomeWf (execHbmStackReturn stack s) := by
  unfold execHbmStackReturn
  dsimp only
  split
  · exact .next h
  · exact .next (.foldl (.serveHx (.wakeSilent h)) fun _ _ h1 => .flushFaults h1)
  · exact .next h

theorem execHdrainDeadline_wf {part : Nat} {s : State} (h : s.Wf) :
    OutcomeWf (execHdrainDeadline part s) := .ite (.next h) (.next h)

theorem execLinkLaneFailure_wf {link lane : Nat} {s : State} (h : s.Wf) :
    OutcomeWf (execLinkLaneFailure link lane s) := .next (.afterLink h)

theorem State.Wf.setSteward {s : State} {die : Nat} {x : Steward} (h : s.Wf) :
    (s.setSteward die x).Wf := h

theorem State.Wf.measured {s : State} {l : List (Nat × Part)} (h : s.Wf) :
    (s.measured l).Wf := by
  induction l generalizing s with
  | nil =>
    rw [State.measured]
    exact h
  | cons x l ih =>
    rw [State.measured]
    exact ih (.ite (.reply h) h)

theorem execFirmwareUpdate_wf {die : Nat} {image : List Byte} {version : Nat} {signed : Bool} {s : State} (h : s.Wf) :
    OutcomeWf (execFirmwareUpdate die image version signed s) :=
  .ite (.next h) (.ite (.next (.measured (.setSteward h))) (.next (.setSteward h)))

theorem execFirmwareHealthTimeout_wf {die : Nat} {s : State} (h : s.Wf) :
    OutcomeWf (execFirmwareHealthTimeout die s) := .ite (.next (.measured (.setSteward h))) (.next h)

theorem execRollbackCounterAdvance_wf {die : Nat} {s : State} (h : s.Wf) :
    OutcomeWf (execRollbackCounterAdvance die s) := .ite (.next (.setSteward h)) (.next h)

/-- Bring-up starts from empty full/empty bits, whatever variant it reaches. -/
theorem State.broughtUp_fe (s : State) : s.broughtUp.fe = [] := by
  dsimp only [State.broughtUp]
  split <;> rfl

theorem execPackageReset_wf {s : State} (h : s.Wf) : OutcomeWf (execPackageReset s) :=
  .next (.of_tables h (Memory.filter_wf _ _) (fun _ => s.broughtUp_fe ▸ Tbl.wf_nil _) (Tbl.wf_filter _ _ _))

theorem State.Wf.holdThread {s : State} {k : Nat} (h : s.Wf) :
    (s.holdThread k).Wf := by
  dsimp only [State.holdThread]
  refine .ite h ?_
  split
  · exact h
  · split
    next e => exact h
    next u e => exact .modCluster (.setSlot (.some e (.tryWrite (.drainStores h))))

theorem State.Wf.quiesce {s : State} (h : s.Wf) :
    s.quiesce.Wf := .foldl h fun _ _ h1 => .holdThread h1

theorem execCheckpoint_wf {s : State} (h : s.Wf) :
    OutcomeWf (execCheckpoint s) := by
  unfold execCheckpoint
  dsimp only
  split
  · exact .next (.quiesce h)
  · exact .ite (.ite (.next h) (.next h)) (.next (.ite (.upd rfl rfl rfl (.quiesce h)) (.quiesce h)))

theorem execCxlCacheSnoop_wf {addr : Nat} {bytes : List Byte} {s : State} (h : s.Wf) :
    OutcomeWf (execCxlCacheSnoop addr bytes s) := .next (.hostWrite h)

theorem OutcomeWf.twake {s : State} {part : Nat} {v : W64} (h : s.Wf) :
    OutcomeWf (s.twake part v) := by
  dsimp only [State.twake]
  split
  · exact execTwakeRetry_wf h
  · exact execTwakeFail_wf h
  · exact execTwakeRetryctx_wf h
  · exact execTwakeLate_wf h
  · exact execTwakeDrop_wf h
  · exact execFaultQueueRecheck_wf h

theorem OutcomeWf.writeTranslation {s : State} {part off : Nat} {v : W64} (h : s.Wf) :
    OutcomeWf (s.writeTranslation part off v) := by
  dsimp only [State.writeTranslation]
  split
  · exact .next (.setPart h)
  · exact .twake h
  · exact .next (.setPart h)
  · exact execTinvcShootdown_wf h
  · exact .next (.setPart h)
  · exact execTmigcMigrate_wf h
  · exact .next (.setPart h)
  · exact .next (.setPart h)
  · exact .next (.setPart h)
  · exact .next h

theorem OutcomeWf.writeLend {s : State} {part : Nat} {v : W64} (h : s.Wf) :
    OutcomeWf (s.writeLend part v) := by
  unfold State.writeLend
  split
  · exact execLendDrain_wf h
  · exact execLendKill_wf h
  · exact .next h

theorem OutcomeWf.writeAttctl {s : State} {part : Nat} {v : W64} (h : s.Wf) :
    OutcomeWf (s.writeAttctl part v) := by
  dsimp only [State.writeAttctl]
  split
  next u e =>
    exact .ite (execAttachCommit_wf (.next e (.ite (execAttachBegin_wf (.setPart h)) (.next (.setPart h)))))
        (.next (.next e (.ite (execAttachBegin_wf (.setPart h)) (.next (.setPart h)))))
  · exact .ite (execAttachBegin_wf (.setPart h)) (.next (.setPart h))

theorem OutcomeWf.writeAttach {s : State} {part off : Nat} {v : W64} (h : s.Wf) :
    OutcomeWf (s.writeAttach part off v) :=
  .ite (.next (.setPart h)) (.ite (.writeAttctl h) (.ite (execAttachClaim_wf h) (.ite (.writeLend h)
    (.ite (.next (.setPart h)) (.ite (.next (.setPart h)) (.next h))))))

theorem OutcomeWf.writePower {s : State} {part off : Nat} {v : W64} (h : s.Wf) :
    OutcomeWf (s.writePower part off v) := by
  unfold State.writePower
  dsimp only
  split
  · exact .next (.ite h h)
  · exact .next (.drainDone h)
  · exact .next (.setPart h)
  · exact .next h

theorem OutcomeWf.writeQueue {s : State} {part q off : Nat} {v : W64} (h : s.Wf) :
    OutcomeWf (s.writeQueue part q off v) := by
  unfold State.writeQueue
  dsimp only
  split
  · exact .next (.ite h (.setQueue h))
  · exact execQueueEnable_wf h
  · exact execQueueDoorbell_wf h
  · exact .next h

theorem State.Wf.writeImage {s : State} {core off : Nat} {v : W64} (h : s.Wf) :
    (s.writeImage core off v).Wf :=
  .ite (.modCore h) (.ite (.modCore h) (.ite (.modCore h) (.ite (.modCluster h) (.ite (.modCluster h) h))))

theorem State.Wf.setLimits {s : State} {part prio : Nat} {f : Limits → Limits} (h : s.Wf) :
    (s.setLimits part prio f).Wf := .setPart h

theorem State.Wf.assign {s : State} {part : Nat} {f : Part → Part} (h : s.Wf) :
    (s.assign part f).Wf := .ite (.setPart h) h

theorem State.Wf.assignQuota {s : State} {part die : Nat} {v : W64} (h : s.Wf) :
    (s.assignQuota part die v).Wf := .ite (.setQuota h) h

theorem State.Wf.assignWays {s : State} {part die v : Nat} (h : s.Wf) :
    (s.assignWays part die v).Wf := .ite (.setWays h) h

theorem State.Wf.setMost {s : State} {v : Nat} (h : s.Wf) :
    (s.setMost v).Wf := .ite h h

theorem State.Wf.writeFirmware {s : State} {n off : Nat} {v : W64} (h : s.Wf) :
    (s.writeFirmware n off v).Wf := by
  dsimp only [State.writeFirmware]
  refine .ite h ?_
  split
  · exact .assign h
  · exact .assignQuota h
  · exact .assignQuota h
  · exact .assignQuota h
  · exact .assignQuota h
  · exact .setPart h
  · exact .setPart h
  · exact h
  · exact h
  · exact .startDrain h
  · exact .setPart h
  · exact .ite (.setQueue h) h
  · exact .ite (.modCluster h) h
  · exact .assign h
  · exact .assign h
  · exact h
  · exact .setRequests h
  · exact .setRequests h
  · exact .setRequests h
  · exact .setSteward h
  · exact .setLimits h
  · exact .setLimits h
  · exact .assignWays h
  · exact .assignWays h
  · exact .assignWays h
  · exact .assignWays h
  · exact .ite (.setWaysOut h) h
  · exact .setMost h
  · exact h
  · exact h
  · exact h
  · exact h
  · exact h
  · exact .setLimits h
  · exact h

theorem execRegisterWrite_wf {blk : RegBlock} {unit off : Nat} {v : W64} {s : State} (h : s.Wf) :
    OutcomeWf (execRegisterWrite blk unit off v s) := by
  unfold execRegisterWrite
  split
  · exact .next (.keeperWrite h)
  · exact .asked h (.writeQueue h)
  · exact .asked h (.writeTranslation h)
  · exact .asked h (.writeAttach h)
  · exact .asked h (.writePower h)
  · exact .next (.writeImage h)
  · exact .next (.writeFirmware h)

end Sys2Proof.Machine
end

section
/-! Canonical form: turns. -/

namespace Sys2Proof.Machine

theorem execBallot_wf {d : BitVec 7} {p : BitVec 3} {s : State} (h : s.Wf) :
    OutcomeWf (execBallot d p s) := .teamInstr h fun _ _ => .ite .error (.ok (.retireTeam h))

theorem FetchWf.slotFetch {s : State} {k va len : Nat} {l : Bool} (h : s.Wf) : FetchWf (s.slotFetch k va len l) := by
  unfold State.slotFetch
  dsimp only
  split
  next u e => exact .ok (.snd e (.fetchRange h))
  next u _ e => exact .error (.parkSlot (.snd e (.fetchRange h)))
  next u e => exact .error (.snd e (.fetchRange h))
  next u e => exact .error (.keeperTrap (.snd e (.fetchRange h)))
  next u e => exact .error (.keeperTrap (.snd e (.fetchRange h)))

theorem FetchWf.slotWord {s : State} {k len : Nat} (h : s.Wf) : FetchWf (s.slotWord k len) := by
  unfold State.slotWord
  split
  · exact .error (.keeperTrap h)
  · exact .error (.keeperTrap h)
  · exact .slotFetch h

theorem IssueWf.slotDecoded {s : State} {k : Nat} {w : W32} {len : Nat} {d : Except DecodeError Instr} (h : s.Wf) :
    IssueWf (s.slotDecoded k w len d) := by
  unfold State.slotDecoded
  dsimp only
  split
  · exact .begun h
  · exact .ended (.keeperTrap h)

theorem IssueWf.issueWord {s : State} {k : Nat} (h : s.Wf) : IssueWf (s.issueWord k) := by
  unfold State.issueWord
  split
  next e => exact .ended (.unfetched e (.slotWord h))
  next e => exact .slotDecoded (.fetched e (.slotWord h))

theorem IssueWf.issueHalf {s : State} {k : Nat} (h : s.Wf) : IssueWf (s.issueHalf k) := by
  unfold State.issueHalf
  split
  next e => exact .ended (.unfetched e (.slotWord h))
  next e => exact .slotDecoded (.fetched e (.slotWord h))

theorem IssueWf.issueSlot {s : State} {k : Nat} (h : s.Wf) : IssueWf (s.issueSlot k) := by
  unfold State.issueSlot
  refine .ite (.ended (.takeStop h)) (.ite (.ended (.retireThread h)) (.ite (.issueHalf h) ?_))
  split
  next e => exact .ended (.unfetched e (.slotFetch h))
  next e => exact .ite (.issueWord (.fetched e (.slotFetch h))) (.issueHalf (.fetched e (.slotFetch h)))

theorem State.Wf.settleAck {s : State} {k : Nat} (h : s.Wf) :
    (s.settleAck k).Wf := .ite (.modSlot h) h

section
variable {run : Instr → State → Host.Outcome State Fault Refusal} (hrun : ∀ i u, u.Wf → OutcomeWf (run i u))
include hrun

theorem OutcomeWf.coreTurn {cl c : Nat} {s : State} {tried : List Nat} {n : Nat} (h : s.Wf) :
    OutcomeWf (s.coreTurn run cl c tried n) := by
  induction n generalizing s tried with
  | zero => exact .next h
  | succ n ih =>
    rw [State.coreTurn]
    dsimp only
    split
    · exact .next h
    next k _ =>
      split
      next u e =>
        have hu : u.Wf := .ended e (.issueSlot h)
        exact .ite (.next (.upd rfl rfl rfl (.settleAck (k := k) hu))) (ih hu)
      next u _ e =>
        have hu : u.Wf := .begun e (.issueSlot h)
        split
        next v e1 =>
          have hv : v.Wf := .next e1 (hrun _ _ hu)
          exact .ite (.next (.upd rfl rfl rfl (.settleAck (k := k) hv))) (ih hv)
        · exact .fault
        · exact .refused

end

theorem State.Wf.fetchFailed {s : State} {t : Nat} {va : W64} {d : Done} (h : s.Wf) :
    (s.fetchFailed t va d).Wf := by
  dsimp only [State.fetchFailed]
  split
  · exact h
  · exact .parkTeam h
  · exact h
  · exact .teamTrap h
  · exact .teamTrap h

theorem State.Wf.fetchViolation {s : State} {t : Nat} {va : W64} (h : s.Wf) :
    (s.fetchViolation t va).Wf := .teamTrapAt h

theorem State.Wf.notHeader {s : State} {t : Nat} {w : W32} (h : s.Wf) :
    (s.notHeader t w).Wf := .teamTrap h

theorem State.Wf.noteIssue {s : State} {t : Nat} (h : s.Wf) :
    (s.noteIssue t).Wf := h

theorem State.Wf.endTurn {s : State} (h : s.Wf) :
    s.endTurn.Wf := by
  dsimp only [State.endTurn]
  split
  · exact h
  · exact h

theorem IssueWf.teamDecoded {s : State} {t : Nat} {w v : W32} (h : s.Wf) : IssueWf (s.teamDecoded t w v) := by
  unfold State.teamDecoded
  dsimp only
  split
  · exact .ended (.teamTrap h)
  · split
    · exact .begun h
    · split
      · exact .begun h
      · exact .ended (.teamTrap h)

theorem IssueWf.issueTeam {s : State} {t : Nat} (h : s.Wf) : IssueWf (s.issueTeam t) := by
  unfold State.issueTeam
  refine .ite (.ended (.setTeam h)) (.ite (.ended (.setTeam h)) ?_)
  split
  next e => exact .ended (.fetchViolation (.snd e (.fetchWord h)))
  next e => exact .ended (.fetchFailed (.snd e (.fetchWord h)))
  next u e =>
    have hu : u.Wf := .snd e (.fetchWord h)
    have resumed : (if (s.team t).resumed = true then u.setTeam t { u.team t with resumed := false } else u).Wf :=
      .ite (.setTeam hu) hu
    refine .ite (.ended (.notHeader hu)) (.ite (.ite (.ended (.teamTrap resumed)) ?_) (.teamDecoded resumed))
    split
    next e => exact .ended (.fetchViolation (.snd e (.fetchWord resumed)))
    next e => exact .ended (.fetchFailed (.snd e (.fetchWord resumed)))
    next e => exact .teamDecoded (.snd e (.fetchWord resumed))

section
variable {run : Instr → State → Host.Outcome State Fault Refusal} (hrun : ∀ i u, u.Wf → OutcomeWf (run i u))
include hrun

theorem OutcomeWf.engineTurn {cl eng : Nat} {s : State} {tried : List Nat} {n : Nat} (h : s.Wf) :
    OutcomeWf (s.engineTurn run cl eng tried n) := by
  induction n generalizing s tried with
  | zero => exact .next h
  | succ n ih =>
    rw [State.engineTurn]
    dsimp only
    split
    · exact .next h
    next t _ _ =>
      have began : IssueWf (({ s with cur := { party := .team t } } : State).issueTeam t) := .issueTeam h
      split
      next u e =>
        have hu : u.Wf := .ended e began
        exact .ite (.next (.endTurn hu)) (ih hu)
      next u _ e =>
        have hu : u.Wf := .begun e began
        split
        next v e1 =>
          have hv : v.Wf := .next e1 (hrun _ _ hu)
          exact .ite (.next (.endTurn hv)) (ih hv)
        · exact .fault
        · exact .refused

end

theorem State.Wf.passTime {s : State} {ns : Nat} (h : s.Wf) :
    (s.passTime ns).Wf := h

theorem State.Wf.dropSector {s : State} {cache k : Nat} (h : s.Wf) :
    (s.dropSector cache k).Wf := h

theorem State.Wf.dropLeafAt {s : State} {cl i : Nat} (h : s.Wf) :
    (s.dropLeafAt cl i).Wf := .modCluster h

theorem State.Wf.revealAt {s : State} {i path : Nat} (h : s.Wf) :
    (s.revealAt i path).Wf := by
  unfold State.revealAt
  split
  · exact .lift h
  · exact h

theorem State.Wf.delivered {s : State} {part ring : Nat} (h : s.Wf) :
    (s.delivered part ring).Wf := .ite (.setPart h) h

section
variable {run : Instr → State → Host.Outcome State Fault Refusal} (hrun : ∀ i u, u.Wf → OutcomeWf (run i u))
include hrun

theorem OutcomeWf.finish {x : Issue} (h : IssueWf x) : OutcomeWf (x.finish run) := by
  cases h with
  | ended h => exact .next (.endTurn h)
  | begun h =>
    dsimp only [Issue.finish]
    split
    next e => exact .next (.endTurn (.next e (hrun _ _ h)))
    · exact .fault
    · exact .refused

theorem OutcomeWf.turn {s : State} (h : s.Wf) : OutcomeWf (s.turn run) := by
  unfold State.turn
  split
  · exact .finish hrun (.ended h)
  · dsimp only
    split
    · exact .ite (.coreTurn hrun h) (.next (.endTurn h))
    · exact .ite (.engineTurn hrun h) (.next (.endTurn h))
    · exact .finish hrun (.begun h)
    · exact .finish hrun (.ended h)
    · exact .finish hrun (.ended (.dropSector h))
    · exact .finish hrun (.ended (.dropLeafAt h))
    · exact .finish hrun (.ended (.revealAt h))
    · exact .finish hrun (.ended (.delivered h))

end

/-- No instruction breaks the canonical form: those of lanes and of memory by what they share, each other one by its lemma. -/
theorem exec_wf {i : Instr} {s : State} (h : s.Wf) : OutcomeWf (exec i s) := by
  cases i with
  | iadd | isub | imul | imulhS | imulhZ | iminS | iminZ | imaxS | imaxZ | iaddsS | iaddsZ | isubsS | isubsZ | iabs
  | ineg | icmp | and | or | xor | andn | shl | shrZ | shrS | rotl | popc | clz | brev | mov | fadd | fsub | fmul
  | fmin | fmax | fabs | fneg | fcmp | frcp | frsq | fsqrt | fexp2 | flog2 | fsin | fcos | frnd | fcvt | fmac | fdot2
  | imac | idot4 | lpickIdx | lpickXor | lpickRot | lpickFill | bcast | agree | lred | plog | pmovToReg | pmovFromReg
  | hrnd | sread | iaddi | andi | ori | xori | shli | shriZ | shriS | rotli | imuli | movi | icmpi | lpickiIdx
  | lpickiXor | lpickiRot | lpickiFill | fma | imad | sel | bfeS | bfeZ | bfi | bmix | movi32 | iaddi32 | fcvtX
  | fclamp | lea | madW | fmaMix =>
    dsimp only [exec]
    exact .aluInstr h
  | ldZ8 | ldS8 | ldZ16 | ldS16 | ld32 | ld64 | ld128 | st8 | st16 | st32 | st64 | st128 | ldFe | stFe | feSet
  | ldAcq | stRel | atom | atomNr | atomCas | discard | cmaint | ldNc =>
    dsimp only [exec]
    exact .memInstr h
  | bra | braU | loop | braAny | braAll =>
    dsimp only [exec]
    exact .brInstr h (fun _ _ _ _ h1 => .ok (.setTeam h1))
  | ballot => exact execBallot_wf h
  | pref => exact execPref_wf h
  | braD => exact execBraD_wf h
  | div => exact execDiv_wf h
  | call => exact execCall_wf h
  | join => exact execJoin_wf h
  | ret => exact execRet_wf h
  | exit => exact execExit_wf h
  | yield => exact execYield_wf h
  | nop => exact execNop_wf h
  | jmpu => exact execJmpu_wf h
  | trap => exact execTrap_wf h
  | sbarArv => exact execSbarArv_wf h
  | sbarWt => exact execSbarWt_wf h
  | brk => exact execBrk_wf h
  | sgnar => exact execSgnar_wf h
  | fenceX => exact execFenceX_wf h
  | csrr => exact execCsrr_wf h
  | csrw => exact execCsrw_wf h
  | csrs => exact execCsrs_wf h
  | csrc => exact execCsrc_wf h
  | tpark => exact execTpark_wf h
  | tkill => exact execTkill_wf h
  | eret => exact execEret_wf h
  | rpt => exact execRpt_wf h
  | hdr => exact execHdr_wf h
  | cpy => exact execCpy_wf h
  | cpy2d => exact execCpy2d_wf h
  | cpyMx => exact execCpyMx_wf h
  | gath => exact execGath_wf h
  | scat => exact execScat_wf h
  | mloopIp => exact execMloopIp_wf h
  | mloopOp => exact execMloopOp_wf h
  | mloopRw => exact execMloopRw_wf h
  | mfill => exact execMfill_wf h
  | mdrain => exact execMdrain_wf h
  | mzero => exact execMzero_wf h
  | rtrace => exact execRtrace_wf h
  | rcommit => exact execRcommit_wf h
  | rgen => exact execRgen_wf h
  | tclass => exact execTclass_wf h
  | rast => exact execRast_wf h
  | emit => exact execEmit_wf h
  | regroup => exact execRegroup_wf h
  | leave => exact execLeave_wf h
  | nodeq => exact execNodeq_wf h
  | xpost => exact execXpost_wf h
  | xpostn => exact execXpostn_wf h
  | xsend => exact execXsend_wf h
  | xspawnm => exact execXspawnm_wf h
  | xrecv => exact execXrecv_wf h
  | xwait => exact execXwait_wf h
  | xevt => exact execXevt_wf h
  | xmig => exact execXmig_wf h
  | xnodeq => exact execXnodeq_wf h
  | xspawn => exact execXspawn_wf h
  | xrange => exact execXrange_wf h
  | xpop => exact execXpop_wf h
  | xsplit => exact execXsplit_wf h
  | xjoin => exact execXjoin_wf h
  | xsteal => exact execXsteal_wf h
  | xyield => exact execXyield_wf h
  | xsdom => exact execXsdom_wf h
  | xldfe => exact execXldfe_wf h
  | xstfe => exact execXstfe_wf h
  | xfeset => exact execXfeset_wf h
  | xlda => exact execXlda_wf h
  | xstr => exact execXstr_wf h
  | xdiscard => exact execXdiscard_wf h
  | xsgnar => exact execXsgnar_wf h
  | xsgrd => exact execXsgrd_wf h
  | xcmaint => exact execXcmaint_wf h
  | xfence => exact execXfence_wf h
  | xfmt => exact execXfmt_wf h
  | xenergy => exact execXenergy_wf h
  | xsread => exact execXsread_wf h
  | xtimer => exact execXtimer_wf h
  | xslotQuery => exact execXslotQuery_wf h
  | xslotStop => exact execXslotStop_wf h
  | xslotRelease => exact execXslotRelease_wf h
  | xslotOpen => exact execXslotOpen_wf h
  | xslotClose => exact execXslotClose_wf h
  | xslotVacate => exact execXslotVacate_wf h
  | xctxSv => exact execXctxSv_wf h
  | xctxLd => exact execXctxLd_wf h
  | xkret => exact execXkret_wf h
  | xsgset => exact execXsgset_wf h
  | xtlbi => exact execXtlbi_wf h
  | xpeek => exact execXpeek_wf h
  | xpoke => exact execXpoke_wf h
  | riscvBaseOp => exact execRiscvBaseOp_wf h
  | fence => exact execFence_wf h
  | fenceI => exact execFenceI_wf h
  | amo => exact execAmo_wf h
  | lr => exact execLr_wf h
  | sc => exact execSc_wf h
  | ecall => exact execEcall_wf h
  | ebreak => exact execEbreak_wf h
  | wfi => exact execWfi_wf h
  | clauseWaitEnd => exact execClauseWaitEnd_wf h
  | memAccessComplete => exact execMemAccessComplete_wf h
  | deferredErrorArrival => exact execDeferredErrorArrival_wf h
  | feWaitServed => exact execFeWaitServed_wf h
  | feretryExpiry => exact execFeretryExpiry_wf h
  | sbarWake => exact execSbarWake_wf h
  | asyncComplete => exact execAsyncComplete_wf h
  | matEntryExecute => exact execMatEntryExecute_wf h
  | rowGroupEnable => exact execRowGroupEnable_wf h
  | rowGroupDisable => exact execRowGroupDisable_wf h
  | rayTraceComplete => exact execRayTraceComplete_wf h
  | rasterTriangle => exact execRasterTriangle_wf h
  | recordAdmit => exact execRecordAdmit_wf h
  | batchTimeout => exact execBatchTimeout_wf h
  | launchDrain => exact execLaunchDrain_wf h
  | recordDeadline => exact execRecordDeadline_wf h
  | teamAdmit => exact execTeamAdmit_wf h
  | teamRetire => exact execTeamRetire_wf h
  | slotGrant => exact execSlotGrant_wf h
  | leaveLanePlace => exact execLeaveLanePlace_wf h
  | frameDispatch => exact execFrameDispatch_wf h
  | stealProbe => exact execStealProbe_wf h
  | messageDelivery => exact execMessageDelivery_wf h
  | xwaitWake => exact execXwaitWake_wf h
  | xjoinWake => exact execXjoinWake_wf h
  | xyieldEnd => exact execXyieldEnd_wf h
  | xtimerExpiry => exact execXtimerExpiry_wf h
  | kpendClear => exact execKpendClear_wf h
  | spillQueuePop => exact execSpillQueuePop_wf h
  | poisonQueuePop => exact execPoisonQueuePop_wf h
  | cloakroomReadyPop => exact execCloakroomReadyPop_wf h
  | cloakroomEntryFree => exact execCloakroomEntryFree_wf h
  | wmpartWrite => exact execWmpartWrite_wf h
  | registerWrite => exact execRegisterWrite_wf h
  | preemptRequest => exact execPreemptRequest_wf h
  | teamParkOff => exact execTeamParkOff_wf h
  | teamRestore => exact execTeamRestore_wf h
  | queueDoorbell => exact execQueueDoorbell_wf h
  | queueEnable => exact execQueueEnable_wf h
  | launchConsume => exact execLaunchConsume_wf h
  | launchPlace => exact execLaunchPlace_wf h
  | launchEnd => exact execLaunchEnd_wf h
  | peerLaunchPacket => exact execPeerLaunchPacket_wf h
  | translationWalk => exact execTranslationWalk_wf h
  | faultQueueRecheck => exact execFaultQueueRecheck_wf h
  | twakeRetry => exact execTwakeRetry_wf h
  | twakeFail => exact execTwakeFail_wf h
  | twakeRetryctx => exact execTwakeRetryctx_wf h
  | twakeLate => exact execTwakeLate_wf h
  | twakeDrop => exact execTwakeDrop_wf h
  | tinvcShootdown => exact execTinvcShootdown_wf h
  | tmigcMigrate => exact execTmigcMigrate_wf h
  | forcedEviction => exact execForcedEviction_wf h
  | evictwaitDeadline => exact execEvictwaitDeadline_wf h
  | lendDrain => exact execLendDrain_wf h
  | lendKill => exact execLendKill_wf h
  | attachBegin => exact execAttachBegin_wf h
  | attachClaim => exact execAttachClaim_wf h
  | attachCommit => exact execAttachCommit_wf h
  | reattachTimeout => exact execReattachTimeout_wf h
  | hostLinkDown => exact execHostLinkDown_wf h
  | hostDoorAccess => exact execHostDoorAccess_wf h
  | hostHdmAccess => exact execHostHdmAccess_wf h
  | atsInvalidation => exact execAtsInvalidation_wf h
  | peerRequest => exact execPeerRequest_wf h
  | peerAckTimeout => exact execPeerAckTimeout_wf h
  | lockInterface => exact execLockInterface_wf h
  | startInterface => exact execStartInterface_wf h
  | stopInterface => exact execStopInterface_wf h
  | ideIntegrityFailure => exact execIdeIntegrityFailure_wf h
  | sessionExpiry => exact execSessionExpiry_wf h
  | configUnlock => exact execConfigUnlock_wf h
  | getMeasurements => exact execGetMeasurements_wf h
  | keyExchange => exact execKeyExchange_wf h
  | finish => exact execFinish_wf h
  | heartbeat => exact execHeartbeat_wf h
  | keyUpdate => exact execKeyUpdate_wf h
  | capRequestRaise => exact execCapRequestRaise_wf h
  | capRequestLower => exact execCapRequestLower_wf h
  | clockClamp => exact execClockClamp_wf h
  | throttleStepChange => exact execThrottleStepChange_wf h
  | thermalLimit => exact execThermalLimit_wf h
  | thermalTrip => exact execThermalTrip_wf h
  | rampBudgetInterval => exact execRampBudgetInterval_wf h
  | energyUpdate => exact execEnergyUpdate_wf h
  | energyRescale => exact execEnergyRescale_wf h
  | eccError => exact execEccError_wf h
  | patrolScrub => exact execPatrolScrub_wf h
  | clusterRetire => exact execClusterRetire_wf h
  | hdrainDone => exact execHdrainDone_wf h
  | hbmStackReturn => exact execHbmStackReturn_wf h
  | hdrainDeadline => exact execHdrainDeadline_wf h
  | linkLaneFailure => exact execLinkLaneFailure_wf h
  | firmwareUpdate => exact execFirmwareUpdate_wf h
  | firmwareHealthTimeout => exact execFirmwareHealthTimeout_wf h
  | rollbackCounterAdvance => exact execRollbackCounterAdvance_wf h
  | packageReset => exact execPackageReset_wf h
  | checkpoint => exact execCheckpoint_wf h
  | keeperRestart => exact execKeeperRestart_wf h
  | cxlCacheSnoop => exact execCxlCacheSnoop_wf h
  | firmwareClockChange => exact execFirmwareClockChange_wf h
  | sessionEnd => exact execSessionEnd_wf h

theorem step_wf {s : State} (h : s.Wf) : OutcomeWf (step s) := .turn (fun _ _ => exec_wf) h

end Sys2Proof.Machine
end

section
namespace Sys2Proof.Machine

/-- Settles O59: every function that a step can come to keeps the canonical form, and so does the step. -/
theorem memoryCanonical : Obligations.MemoryCanonical :=
  fun _ _ h e => State.Wf.next e (step_wf h)

end Sys2Proof.Machine
end

section
/-! PROOFS. What is stored reads back (O58), and the machine right after reset (O57). -/

namespace Sys2Proof.Machine

/-! ## Numbers as bytes -/

theorem getElem?_toBytes (n v i : Nat) (h : i < n) : (toBytes n v)[i]? = some (BitVec.ofNat 8 (v / 256 ^ i)) := by
  induction n generalizing v i with
  | zero => omega
  | succ n ih =>
    cases i with
    | zero => simp [toBytes]
    | succ i => rw [toBytes, List.getElem?_cons_succ, ih _ _ (by omega), Nat.div_div_eq_div_mul, Nat.pow_succ']

theorem ofBytes_toBytes (n v : Nat) : ofBytes (toBytes n v) = v % 256 ^ n := by
  induction n generalizing v with
  | zero => simp [toBytes, ofBytes, Nat.mod_one]
  | succ n ih =>
    have low : v % 256 ^ (n + 1) = v % 256 + 256 * (v / 256 % 256 ^ n) := by rw [pow_succ', Nat.mod_mul]
    rw [toBytes, ofBytes, ih, BitVec.toNat_ofNat, low]

/-! ## What a write leaves and what it stores -/

theorem State.bytesAt_writeBytes (s : State) (k : Nat) (bs : List Byte) : (s.writeBytes k bs).bytesAt k bs.length = bs := by
  refine List.ext_getElem (by simp [State.bytesAt]) fun i _ hi => ?_
  simp [State.bytesAt, State.byte_writeBytes, hi]

theorem State.readKey_writeKey (s : State) (k n v : Nat) : (s.writeKey k n v).readKey k n = v % 256 ^ n := by
  have stored := s.bytesAt_writeBytes k (toBytes n v)
  rw [toBytes_length] at stored
  rw [State.readKey, State.writeKey, stored, ofBytes_toBytes]

theorem State.byte_writeKey (s : State) (k n v i : Nat) (h : i < n) :
    (s.writeKey k n v).byte (keyAdd k i) = BitVec.ofNat 8 (v / 256 ^ i) := by
  rw [State.writeKey, State.byte_writeBytes, getElem?_toBytes n v i h, Option.getD_some]

theorem State.byte_writeKey_other (s : State) (k n v j : Nat) (h : ∀ i, i < n → j ≠ keyAdd k i) :
    (s.writeKey k n v).byte j = s.byte j :=
  s.byte_writeBytes_other k _ j (by simpa using h)

theorem State.isFull_setFull (s : State) (k j : Nat) (b : Bool) :
    (s.setFull k b).isFull j = if keyBlock 8 j = keyBlock 8 k then b else s.isFull j := by
  simp [State.isFull, State.setFull, Tbl.get_set]

theorem State.isPoisoned_setPoison (s : State) (k j : Nat) (b : Bool) :
    (s.setPoison k b).isPoisoned j = if poisonUnit j = poisonUnit k then b else s.isPoisoned j := by
  simp [State.isPoisoned, State.setPoison, Tbl.get_set]

/-- Settles O58: a write stores the bytes of its number one by one, and a unit's bit is one entry of its table. -/
theorem memoryCells : Obligations.MemoryCells :=
  ⟨State.readKey_writeKey, State.byte_writeKey_other, State.byte_writeKey, fun s k _ _ => s.writeBytes_only k _,
    State.isFull_setFull, State.isPoisoned_setPoison⟩

/-! ## Reset -/

theorem dieOf_x2_enabled : ∀ c ∈ Variant.x2.enabled, dieOf c < 2 := by decide +kernel

/-- The clusters of an X2 stand on two dies, 32 on each (R10). -/
theorem length_x2_enabled_of_die (d : Nat) :
    (Variant.x2.enabled.filter fun c => dieOf c == d).length = if d < 2 then 32 else 0 := by
  split
  next h =>
    have both : ∀ d, d < 2 → (Variant.x2.enabled.filter fun c => dieOf c == d).length = 32 := by decide +kernel
    exact both d h
  next h =>
    rw [List.length_eq_zero_iff, List.filter_eq_nil_iff]
    intro c hc
    have := dieOf_x2_enabled c hc
    simp only [beq_iff_eq]
    omega

/-- An X4N has the clusters of an X4 (R10). -/
theorem Variant.reset_x4n : Variant.x4n.reset = { State.reset with caps := 0x00021924, package := .x4n } := rfl

theorem Variant.reset_x2 : Variant.x2.reset =
    { State.reset with caps := 0x00022F02, enabled := Variant.x2.enabled, spares := Variant.x2.spares, package := .x2 } := rfl

theorem State.clock_reset (cl : Nat) : State.reset.clock cl = 0 := by
  have fresh : State.reset.cluster cl = {} := rfl
  simp [State.clock, fresh, show State.reset.time = 0 from rfl]

theorem State.slot_reset (k : Nat) : State.reset.slot k = slotAtReset k := rfl

/-- What a slot holds right after reset, whether it is free or the keeper's. -/
theorem slotAtReset_fields (k : Nat) :
    (slotAtReset k).inbox = [] ∧ (slotAtReset k).sendQ = [] ∧ (slotAtReset k).resv = none ∧ (slotAtReset k).kcause = 0xFF := by
  unfold slotAtReset
  split <;> exact ⟨rfl, rfl, rfl, rfl⟩

theorem slotAtReset_registers (k : Nat) (r : BitVec 5) : (slotAtReset k).xreg r = 0 ∧ (slotAtReset k).freg r = 0 := by
  unfold slotAtReset
  split <;> exact ⟨ite_self 0, rfl⟩

/-- Settles O57: the values of reset are written in the model, and every slot is as a slot is at reset. -/
theorem resetState : Obligations.ResetState :=
  ⟨rfl, rfl, State.clock_reset, rfl, by decide +kernel, by decide +kernel, rfl, rfl, rfl, rfl, rfl, rfl, rfl,
    rfl, rfl, rfl, rfl, rfl, rfl, rfl, slotAtReset_fields, fun _ => ⟨rfl, rfl, rfl⟩, slotAtReset_registers,
    Variant.reset_x4n, Variant.reset_x2, by decide +kernel, length_x2_enabled_of_die⟩

end Sys2Proof.Machine
end
